-- ==== Sys2Proof/Word.lean ====
section
/-!
DEFINITION. The words of the machine and their plainest arithmetic.
-/

namespace Sys2Proof

/-- A 64-bit scalar value (R12). -/
abbrev Word := BitVec 64

/-- A byte, the smallest addressable unit (R8). -/
abbrev Byte := BitVec 8

/-- A vector register: 64 lanes of 32 bits (R12). -/
abbrev VReg := BitVec 2048

/-- A lane mask, one bit a lane (R12). -/
abbrev LaneMask := BitVec 64

/-- A 57-bit virtual address (R265). -/
abbrev VAddr := BitVec 57

end Sys2Proof
end

