-- ==== Sys2Proof/Machine/Float.lean ====
section
/-!
DEFINITION. Number formats and arithmetic rules: the floating-point formats (R28), canonical NaNs (R29), tininess and
underflow (R30), the four rounding modes and overflow (R31), integer conversions (R32), format conversions (R33), the
special functions of R125 and kexp2 (R43, R44). Every operation computes the exact result and rounds it once.
-/

namespace Sys2Proof.Machine

/-- Sticky flags in the layout of `fflags` (R39): IV DZ OF UF NX. -/
abbrev FFlags := BitVec 5

def flIV : FFlags := 0b10000#5
def flDZ : FFlags := 0b01000#5
def flOF : FFlags := 0b00100#5
def flUF : FFlags := 0b00010#5
def flNX : FFlags := 0b00001#5

/-- The exact value of an encoding: `fin neg m e` is (−1)^neg × m × 2^e. -/
inductive FVal where
  | nan
  | inf (neg : Bool)
  | fin (neg : Bool) (m : Nat) (e : Int)
  deriving DecidableEq, Repr

/-- A floating-point element format (R28). `top` is the number of values of the highest exponent code that are finite,
when the format has no infinity there. -/
structure FFmt where
  eb : Nat
  mb : Nat
  bias : Nat
  hasInf : Bool
  hasNan : Bool
  deriving DecidableEq, Repr

def fmtF32 : FFmt := ⟨8, 23, 127, true, true⟩
def fmtBF16 : FFmt := ⟨8, 7, 127, true, true⟩
def fmtF16 : FFmt := ⟨5, 10, 15, true, true⟩
def fmtE4M3 : FFmt := ⟨4, 3, 7, false, true⟩
def fmtE5M2 : FFmt := ⟨5, 2, 15, true, true⟩
def fmtE2M1 : FFmt := ⟨2, 1, 1, false, false⟩
def fmtE2M3 : FFmt := ⟨2, 3, 1, false, false⟩
def fmtE3M2 : FFmt := ⟨3, 2, 3, false, false⟩

/-- Bits of an element. -/
def FFmt.width (f : FFmt) : Nat := 1 + f.eb + f.mb

/-- The canonical NaN (R29); a format without NaN answers +0 (R33). -/
def FFmt.nanBits (f : FFmt) : Nat :=
  if f.hasInf then (2 ^ f.eb - 1) * 2 ^ f.mb + 2 ^ (f.mb - 1)
  else if f.hasNan then 2 ^ (f.eb + f.mb) - 1
  else 0

/-- Infinity of a sign, for a format that has one. -/
def FFmt.infBits (f : FFmt) (neg : Bool) : Nat :=
  (if neg then 2 ^ (f.eb + f.mb) else 0) + (2 ^ f.eb - 1) * 2 ^ f.mb

/-- The largest finite magnitude's encoding without its sign (R28). -/
def FFmt.maxMag (f : FFmt) : Nat :=
  if f.hasInf then (2 ^ f.eb - 1) * 2 ^ f.mb - 1
  else if f.hasNan then 2 ^ (f.eb + f.mb) - 2
  else 2 ^ (f.eb + f.mb) - 1

/-- The exponent of a subnormal's last bit. -/
def FFmt.qmin (f : FFmt) : Int := 1 - f.bias - f.mb

/-- The exact value of an encoding (R28). -/
def FFmt.decode (f : FFmt) (bits : Nat) : FVal :=
  let neg := bits / 2 ^ (f.eb + f.mb) % 2 == 1
  let ex := bits / 2 ^ f.mb % 2 ^ f.eb
  let mt := bits % 2 ^ f.mb
  if f.hasInf && ex == 2 ^ f.eb - 1 then if mt == 0 then .inf neg else .nan
  else if !f.hasInf && f.hasNan && bits % 2 ^ (f.eb + f.mb) == 2 ^ (f.eb + f.mb) - 1 then .nan
  else if ex == 0 then .fin neg mt f.qmin
  else .fin neg (2 ^ f.mb + mt) (f.qmin + (ex - 1 : Nat))

/-- The number of bits of a natural number. -/
def bitLen (n : Nat) : Nat := if n = 0 then 0 else n.log2 + 1

/-- The integer nearest to m ÷ 2^s in a mode of R31, and whether it differs from it. -/
def roundShift (rm : Nat) (neg : Bool) (m s : Nat) : Nat × Bool :=
  let n := m / 2 ^ s
  let r := m % 2 ^ s
  let up :=
    match rm with
    | 0 => decide (2 * r > 2 ^ s) || (decide (2 * r = 2 ^ s) && n % 2 == 1)
    | 1 => false
    | 2 => neg && r != 0
    | _ => !neg && r != 0
  (if up && r != 0 then n + 1 else n, r != 0)

/-- The multiple of 2^q nearest to m × 2^e, as its multiplier, and whether it differs from it. -/
def roundTo (rm : Nat) (neg : Bool) (m : Nat) (e q : Int) : Nat × Bool :=
  if q ≤ e then (m * 2 ^ (e - q).toNat, false) else roundShift rm neg m (q - e).toNat

/-- The sign bit of a format. -/
def FFmt.signBits (f : FFmt) (neg : Bool) : Nat := if neg then 2 ^ (f.eb + f.mb) else 0

/-- The result of an overflow in a mode (R31). -/
def FFmt.overflow (f : FFmt) (rm : Nat) (neg : Bool) : Nat :=
  let toInf := match rm with | 0 => true | 1 => false | 2 => neg | _ => !neg
  if f.hasInf && toInf then f.infBits neg else f.signBits neg + f.maxMag

/-- Rounds the exact value (−1)^neg × m × 2^e into a format, with its flags (R30, R31). A zero keeps its sign. -/
def FFmt.round (f : FFmt) (rm : Nat) (neg : Bool) (m : Nat) (e : Int) : Nat × FFlags :=
  if m = 0 then (f.signBits neg, 0)
  else
    let q := e + (bitLen m : Int) - 1 - f.mb
    let qd := if q < f.qmin then f.qmin else q
    let (n, nx) := roundTo rm neg m e qd
    let mag := if n < 2 ^ f.mb then n else ((qd - f.qmin).toNat + n / 2 ^ f.mb) * 2 ^ f.mb + n % 2 ^ f.mb
    -- n may have become 2^(mb+1), which carries into the exponent
    let mag := if n = 2 ^ (f.mb + 1) then ((qd - f.qmin).toNat + 2) * 2 ^ f.mb else mag
    if mag > f.maxMag then (f.overflow rm neg, flOF ||| flNX)
    else
      let (nu, _) := roundTo rm neg m e q
      -- rounded as though the exponent range were unbounded, below the smallest normal 2^(qmin + mb)
      let tiny := decide (q < f.qmin) && !(nu == 2 ^ (f.mb + 1) && q + 1 == f.qmin)
      (f.signBits neg + mag, (if nx then flNX else 0) ||| (if nx && tiny then flUF else 0))

/-- Rounds a value that is m × 2^e plus a non-zero part below 2^e when `sticky`. -/
def FFmt.roundSticky (f : FFmt) (rm : Nat) (neg : Bool) (m : Nat) (e : Int) (sticky : Bool) : Nat × FFlags :=
  f.round rm neg (2 * m + (if sticky then 1 else 0)) (e - 1)

/-- Rounds any value into a format (R31, R33): NaN is canonical, an infinity saturates where there is none. -/
def FFmt.ofVal (f : FFmt) (rm : Nat) : FVal → Nat × FFlags
  | .nan => if f.hasNan then (f.nanBits, 0) else (0, flIV)
  | .inf neg => if f.hasInf then (f.infBits neg, 0) else (f.signBits neg + f.maxMag, flOF)
  | .fin neg m e => f.round rm neg m e

/-- A conversion between floating-point formats (R33). -/
def fcvt (src dst : FFmt) (rm bits : Nat) : Nat × FFlags := dst.ofVal rm (src.decode bits)

/-! ### Exact sums and products -/

/-- The signed mantissa of a finite value at exponent `e0`, which is at most its own. -/
def sig (neg : Bool) (m : Nat) (e e0 : Int) : Int :=
  let v : Int := m * 2 ^ (e - e0).toNat
  if neg then -v else v

/-- The exact sum of two finite values; an exact zero of opposite signs is +0, or −0 in RDN (R31). -/
def addFin (rm : Nat) (n1 : Bool) (m1 : Nat) (e1 : Int) (n2 : Bool) (m2 : Nat) (e2 : Int) : FVal :=
  let e0 := if e1 ≤ e2 then e1 else e2
  let s := sig n1 m1 e1 e0 + sig n2 m2 e2 e0
  if s = 0 then
    if n1 == n2 then .fin n1 0 e0 else .fin (rm == 2) 0 e0
  else .fin (decide (s < 0)) s.natAbs e0

/-- The exact sum, with IV for infinities of opposite sign (R29). -/
def addVal (rm : Nat) : FVal → FVal → FVal × FFlags
  | .nan, _ => (.nan, 0)
  | .inf _, .nan => (.nan, 0)
  | .fin _ _ _, .nan => (.nan, 0)
  | .inf a, .inf b => if a == b then (.inf a, 0) else (.nan, flIV)
  | .inf a, .fin _ _ _ => (.inf a, 0)
  | .fin _ _ _, .inf b => (.inf b, 0)
  | .fin n1 m1 e1, .fin n2 m2 e2 => (addFin rm n1 m1 e1 n2 m2 e2, 0)

/-- The value with its sign inverted. -/
def FVal.neg : FVal → FVal
  | .nan => .nan
  | .inf n => .inf !n
  | .fin n m e => .fin (!n) m e

/-- The exact product, with IV for infinity times zero (R29). -/
def mulVal : FVal → FVal → FVal × FFlags
  | .nan, _ => (.nan, 0)
  | .inf _, .nan => (.nan, 0)
  | .fin _ _ _, .nan => (.nan, 0)
  | .inf a, .inf b => (.inf (a != b), 0)
  | .inf a, .fin b m _ => if m = 0 then (.nan, flIV) else (.inf (a != b), 0)
  | .fin a m _, .inf b => if m = 0 then (.nan, flIV) else (.inf (a != b), 0)
  | .fin n1 m1 e1, .fin n2 m2 e2 => (.fin (n1 != n2) (m1 * m2) (e1 + e2), 0)

/-- Rounds a value computed with flags. -/
def FFmt.finish (f : FFmt) (rm : Nat) (r : FVal × FFlags) : Nat × FFlags :=
  let (b, fl) := f.ofVal rm r.1
  (b, fl ||| r.2)

/-- round_rm(a + b) (R124). -/
def fadd (f : FFmt) (rm a b : Nat) : Nat × FFlags := f.finish rm (addVal rm (f.decode a) (f.decode b))

/-- round_rm(a − b) (R124). A NaN operand is not negated into another NaN: every NaN is alike (R29). -/
def fsub (f : FFmt) (rm a b : Nat) : Nat × FFlags := f.finish rm (addVal rm (f.decode a) (f.decode b).neg)

/-- round_rm(a × b) (R124). -/
def fmul (f : FFmt) (rm a b : Nat) : Nat × FFlags := f.finish rm (mulVal (f.decode a) (f.decode b))

/-- round_rm(a × b + c) rounded once; `sub` subtracts c (R124). A NaN in any source gives NaN without IV. -/
def ffma (f : FFmt) (rm : Nat) (sub : Bool) (a b c : Nat) : Nat × FFlags :=
  let vc := if sub then (f.decode c).neg else f.decode c
  if f.decode a = .nan || f.decode b = .nan || vc = .nan then (f.nanBits, 0)
  else
    let (p, fl) := mulVal (f.decode a) (f.decode b)
    match p with
    | .nan => (f.nanBits, fl)
    | _ => f.finish rm (addVal rm p vc)

/-- Whether an encoding is a NaN. -/
def FFmt.isNan (f : FFmt) (b : Nat) : Bool := f.decode b == .nan

/-- Compares two values that are not NaN: −1, 0 or 1, with −0 equal to +0. -/
def cmpVal : FVal → FVal → Int
  | .nan, _ => 0
  | .inf _, .nan => 0
  | .fin _ _ _, .nan => 0
  | .inf a, .inf b => if a == b then 0 else if a then -1 else 1
  | .inf a, .fin _ _ _ => if a then -1 else 1
  | .fin _ _ _, .inf b => if b then 1 else -1
  | .fin n1 m1 e1, .fin n2 m2 e2 =>
    let e0 := if e1 ≤ e2 then e1 else e2
    let d := sig n1 m1 e1 e0 - sig n2 m2 e2 e0
    if d < 0 then -1 else if d = 0 then 0 else 1

/-- The order of R124 with −0 below +0. -/
def ltZero (f : FFmt) (a b : Nat) : Bool :=
  let c := cmpVal (f.decode a) (f.decode b)
  decide (c < 0) || (c == 0 && decide (f.signBits true ≤ a) && decide (b < f.signBits true))

/-- The smaller or larger of two encodings (R124). -/
def fminmax (f : FFmt) (max : Bool) (a b : Nat) : Nat :=
  if f.isNan a || f.isNan b then f.nanBits
  else if max then if ltZero f a b then b else a
  else if ltZero f a b then a else b

/-- a with its sign inverted; NaN is canonical (R124). -/
def fneg (f : FFmt) (a : Nat) : Nat :=
  if f.isNan a then f.nanBits else if f.signBits true ≤ a then a - f.signBits true else a + f.signBits true

/-- a with its sign cleared; NaN is canonical (R124). -/
def fabs (f : FFmt) (a : Nat) : Nat := if f.isNan a then f.nanBits else a % f.signBits true

/-! ### Special functions (R125) -/

/-- The integer square root, by `k` binary digits from the top. -/
def isqrtAux (n : Nat) : Nat → Nat → Nat
  | 0, r => r
  | k + 1, r => if (r + 2 ^ k) * (r + 2 ^ k) ≤ n then isqrtAux n k (r + 2 ^ k) else isqrtAux n k r

/-- ⌊√n⌋. -/
def isqrt (n : Nat) : Nat := isqrtAux n (bitLen n / 2 + 1) 0

/-- 1 ÷ a. -/
def frcp (f : FFmt) (rm a : Nat) : Nat × FFlags :=
  match f.decode a with
  | .nan => (f.nanBits, 0)
  | .inf n => (f.signBits n, 0)
  | .fin n m e =>
    if m = 0 then (f.infBits n, flDZ)
    else
      let k := bitLen m + 40
      f.roundSticky rm n (2 ^ k / m) (-(k : Int) - e) (2 ^ k % m != 0)

/-- √a. -/
def fsqrt (f : FFmt) (rm a : Nat) : Nat × FFlags :=
  match f.decode a with
  | .nan => (f.nanBits, 0)
  | .inf n => if n then (f.nanBits, flIV) else (f.infBits false, 0)
  | .fin n m e =>
    if m = 0 then (f.signBits n, 0)
    else if n then (f.nanBits, flIV)
    else
      let (m, e) := if e % 2 = 0 then (m, e) else (2 * m, e - 1)
      let m' := m * 2 ^ 80
      let r := isqrt m'
      f.roundSticky rm false r (e / 2 - 40) (r * r != m')

/-- 1 ÷ √a. -/
def frsq (f : FFmt) (rm a : Nat) : Nat × FFlags :=
  match f.decode a with
  | .nan => (f.nanBits, 0)
  | .inf n => if n then (f.nanBits, flIV) else (0, 0)
  | .fin n m e =>
    if m = 0 then (f.infBits n, flDZ)
    else if n then (f.nanBits, flIV)
    else
      let (m, e) := if e % 2 = 0 then (m, e) else (2 * m, e - 1)
      let k := bitLen m + 40
      let r := isqrt (2 ^ (2 * k) / m)
      f.roundSticky rm false r (-(k : Int) - e / 2) (r * r * m != 2 ^ (2 * k))

/-- Binary digits of log2 y for y in [1, 2), y given with 300 fraction bits. DEDUCED (log 17): 120 digits decide every
rounding of the formats of F. -/
def log2Digits : Nat → Nat → Nat → Nat
  | 0, _, acc => acc
  | k + 1, y, acc =>
    let y2 := y * y / 2 ^ 300
    if 2 ^ 301 ≤ y2 then log2Digits k (y2 / 2) (2 * acc + 1) else log2Digits k y2 (2 * acc)

/-- log2 a. -/
def flog2 (f : FFmt) (rm a : Nat) : Nat × FFlags :=
  match f.decode a with
  | .nan => (f.nanBits, 0)
  | .inf n => if n then (f.nanBits, flIV) else (f.infBits false, 0)
  | .fin n m e =>
    if m = 0 then (f.infBits true, flDZ)
    else if n then (f.nanBits, flIV)
    else
      let l := bitLen m - 1
      let ex : Int := e + l
      if m = 2 ^ l then f.round rm (decide (ex < 0)) ex.natAbs 0
      else
        let d := log2Digits 120 (m * 2 ^ (300 - l)) 0
        if ex < 0 then f.roundSticky rm true (ex.natAbs * 2 ^ 120 - d - 1) (-120) true
        else f.roundSticky rm false (ex.natAbs * 2 ^ 120 + d) (-120) true

/-! ### kexp2 (R43, R44) -/

/-- The seed table: entry j is 2^(j ÷ 32) rounded to FP32. -/
def kexpSeeds : List Nat :=
  [0x3f800000, 0x3f82cd87, 0x3f85aac3, 0x3f88980f, 0x3f8b95c2, 0x3f8ea43a, 0x3f91c3d3, 0x3f94f4f0,
   0x3f9837f0, 0x3f9b8d3a, 0x3f9ef532, 0x3fa27043, 0x3fa5fed7, 0x3fa9a15b, 0x3fad583f, 0x3fb123f6] ++
  [0x3fb504f3, 0x3fb8fbaf, 0x3fbd08a4, 0x3fc12c4d, 0x3fc5672a, 0x3fc9b9be, 0x3fce248c, 0x3fd2a81e,
   0x3fd744fd, 0x3fdbfbb8, 0x3fe0ccdf, 0x3fe5b907, 0x3feac0c7, 0x3fefe4ba, 0x3ff5257d, 0x3ffa83b3]

/-- ⌊(−1)^neg × m × 2^e⌋. -/
def floorVal (neg : Bool) (m : Nat) (e : Int) : Int :=
  let v : Int := if neg then -(m : Int) else m
  if 0 ≤ e then v * 2 ^ e.toNat else v / 2 ^ (-e).toNat

/-- 2^x of an FP32 argument, exactly as R43 computes it: one below -149 sets UF and NX whatever it rounds to. -/
def kexp2 (x : Nat) : Nat × FFlags :=
  let f := fmtF32
  match f.decode x with
  | .nan => (0x7FC00000, 0)
  | .inf n => if n then (0, 0) else (f.infBits false, flOF)
  | .fin neg m e =>
    let fl := floorVal neg m e
    if 128 ≤ fl then (f.infBits false, flOF ||| flNX)
    else if fl < -160 then (0, flUF ||| flNX)
    else
      -- f × 2^s as an integer, s fraction bits of x
      let s : Nat := if 0 ≤ e then 0 else (-e).toNat
      let fr : Nat := (sig neg m (if 0 ≤ e then e else e) (-(s : Int)) - fl * 2 ^ s).toNat
      let qx := fr * 1024 % 2 ^ s == 0
      let q := (roundShift 0 false (fr * 1024) s).1
      let (n, q) := if q = 1024 then (fl + 1, 0) else (fl, q)
      let j := q / 32
      let d := q % 32
      let t := (f.round 0 false d (-10)).1
      let a := (fmul f 0 0x3E75FDF0 t).1
      let c := (fadd f 0 0x3F317218 a).1
      let e' := (fmul f 0 t c).1
      let seed := kexpSeeds.getD j 0
      let y := (ffma f 0 false seed e' seed).1
      match f.decode y with
      | .fin _ my ey =>
        let (z, zf) := f.round 0 false my (ey + n)
        (z, zf ||| (if !qx || j != 0 || d != 0 then flNX else 0) ||| (if fl < -149 then flUF ||| flNX else 0))
      | _ => (y, 0)

/-! ### Integers (R32) -/

/-- The value of the low `w` bits read as signed or natural. -/
def intOf (signed : Bool) (w v : Nat) : Int :=
  let u := v % 2 ^ w
  if signed && decide (2 ^ (w - 1) ≤ u) then (u : Int) - 2 ^ w else u

/-- The low `w` bits of an integer. -/
def ofInt (w : Nat) (v : Int) : Nat := (v % 2 ^ w).toNat

/-- The least and greatest value of an integer format. -/
def intMin (signed : Bool) (w : Nat) : Int := if signed then -(2 ^ (w - 1) : Int) else 0
def intMax (signed : Bool) (w : Nat) : Int := if signed then 2 ^ (w - 1) - 1 else 2 ^ w - 1

/-- A value clamped to the range of an integer format. -/
def clampInt (signed : Bool) (w : Nat) (v : Int) : Int :=
  if v < intMin signed w then intMin signed w else if intMax signed w < v then intMax signed w else v

/-- A finite value rounded to an integer in a mode, and whether it differs from it. -/
def roundInt (rm : Nat) (neg : Bool) (m : Nat) (e : Int) : Int × Bool :=
  let (n, nx) := roundTo rm neg m e 0
  (if neg then -(n : Int) else n, nx)

/-- A conversion from floating point to an integer format (R32). -/
def fToInt (f : FFmt) (rm : Nat) (signed : Bool) (w bits : Nat) : Nat × FFlags :=
  match f.decode bits with
  | .nan => (0, flIV)
  | .inf n => (ofInt w (if n then intMin signed w else intMax signed w), flIV)
  | .fin n m e =>
    let (v, nx) := roundInt rm n m e
    let c := clampInt signed w v
    if c = v then (ofInt w v, if nx then flNX else 0) else (ofInt w c, flIV)

/-- A conversion from an integer to a floating-point format (R32). -/
def intToF (f : FFmt) (rm : Nat) (v : Int) : Nat × FFlags := f.round rm (decide (v < 0)) v.natAbs 0

end Sys2Proof.Machine
end

