-- ==== Sys2Proof/Syntax.lean ====
section
/-!
DEFINITION. The syntax of the Zorlith: operand fields, command headers and one constructor for each row of the
opcode table. Encoded fields are bit vectors of the field's own width; the arguments of device events are plain numbers.

Numbers that name a part of the package: a core is 64 × die + 8 × y + x, a context is 64 × die + slot, a child
operation is 8192 × die + table entry, a bank unit is 4096 × die + 32 × pseudo-channel + bank.
-/

namespace Sys2Proof

/-- The two scalar arithmetic bays (R11). -/
inductive Bay2 where
  | sa
  | sb
  deriving DecidableEq, Repr

/-- What a 10-bit operand field says (R51). `app` is the append form, which only a destination may hold. -/
inductive Opd where
  | ya
  | yb
  | yv
  | file (i : BitVec 3)
  | main (i : BitVec 6)
  | imm (v : BitVec 7)
  | peek (q : BitVec 5) (o : BitVec 3)
  | pop (q : BitVec 5) (o : BitVec 3)
  | app (q : BitVec 5)
  deriving DecidableEq, Repr

/-- The command header of the MX and CX bays (R70). -/
structure CmdHdr where
  we : Bool
  wsem : BitVec 8
  wthr : BitVec 12
  wc : Bool
  ssem : BitVec 8
  sinc : BitVec 4
  tv : Bool
  tok : BitVec 6
  deriving DecidableEq, Repr

/-- The fields every VX instruction shares: TYPE, MSK and RND (R67). -/
structure VHdr where
  ty : BitVec 4
  msk : BitVec 3
  rnd : BitVec 2
  deriving DecidableEq, Repr

/-- The MOD fields of `LD` and `ST` (R96). -/
structure MemMod where
  wid : BitVec 2
  ord : BitVec 2
  scope : BitVec 3
  uo : Bool
  sx : Bool
  deriving DecidableEq, Repr

/-- The payload of `MMA` and `MDIST` (R150, R153). -/
structure MmaPay where
  eng : Bool
  fmt : BitVec 5
  acc : BitVec 5
  a : Opd
  b : Opd
  msk : Opd
  ac : Bool
  sga : Bool
  sgb : Bool
  sat : Bool
  prec : BitVec 2
  deriving DecidableEq, Repr

/-- The bytes of a splice data message: their offset in the slot, and whether they are the append's last (R174). -/
structure SpliceMsg where
  seq : Nat
  off : Nat
  bytes : List Byte
  last : Bool
  poison : Bool
  deriving DecidableEq, Repr

/-- Where an increment of a semaphore or an arrival at a barrier came from (R231, R386). -/
structure SigSrc where
  bundle : VAddr := 0
  coord : Nat := 0
  grp : Nat := 0
  task : Nat := 0
  opid : Word := 0
  unit : Nat := 0
  deriving DecidableEq, Repr

/-- The kinds of access through BAR2 (R358). -/
inductive BarKind where
  | read
  | write
  | fetchAdd
  | swap
  | cas
  deriving DecidableEq, Repr

/-- What power-up found (R366): nothing amiss; channels or wavelengths that are disabled, as the present pseudo-channels of dies (a die,
its lower and its upper stack) and the wavelengths of circuits (two dies, a count); or what a step failed at. -/
inductive PowerFinding where
  | ok
  | degraded (maps : List (Nat × BitVec 64 × BitVec 64)) (waves : List (Nat × Nat × Nat))
  | fail (cause : BitVec 8)
  deriving DecidableEq, Repr

/-- The rows of the opcode table: the instructions of the bays (R74 to R78), the micro-ops of the bank units (R310),
and the indivisible events of the device. -/
inductive Instr where
  -- BR bay (R74, R108)
  | nop
  | jmp (t : BitVec 17)
  | jmpi (a : Opd)
  | brz (a : Opd) (t : BitVec 17)
  | brnz (a : Opd) (t : BitVec 17)
  | call (d : Opd) (t : BitVec 17)
  | ret (a : Opd)
  | loop (d : Opd) (t : BitVec 17)
  | waitc (c : BitVec 8) (consume : Bool) (t : BitVec 12)
  | sigc (c : BitVec 8) (remote : Bool) (n : BitVec 4) (i : BitVec 8)
  | tend
  | trap (a : Opd) (code : BitVec 16)
  | brk (code : BitVec 16)
  -- SA and SB bays (R75, R88)
  | add (b : Bay2) (d x y : Opd)
  | sub (b : Bay2) (d x y : Opd)
  | addi (b : Bay2) (d x : Opd) (imm : BitVec 20)
  | mul (b : Bay2) (d x y : Opd)
  | mulh (b : Bay2) (d x y : Opd)
  | mulhn (b : Bay2) (d x y : Opd)
  | div (b : Bay2) (d x y : Opd)
  | divn (b : Bay2) (d x y : Opd)
  | rem (b : Bay2) (d x y : Opd)
  | remn (b : Bay2) (d x y : Opd)
  | and (b : Bay2) (d x y : Opd)
  | or (b : Bay2) (d x y : Opd)
  | xor (b : Bay2) (d x y : Opd)
  | andn (b : Bay2) (d x y : Opd)
  | orn (b : Bay2) (d x y : Opd)
  | shl (b : Bay2) (d x y : Opd)
  | shrl (b : Bay2) (d x y : Opd)
  | shra (b : Bay2) (d x y : Opd)
  | rotl (b : Bay2) (d x y : Opd)
  | rotr (b : Bay2) (d x y : Opd)
  | clz (b : Bay2) (d x : Opd)
  | ctz (b : Bay2) (d x : Opd)
  | popc (b : Bay2) (d x : Opd)
  | min (b : Bay2) (d x y : Opd)
  | max (b : Bay2) (d x y : Opd)
  | minn (b : Bay2) (d x y : Opd)
  | maxn (b : Bay2) (d x y : Opd)
  | cmp (b : Bay2) (cc : BitVec 4) (d x y : Opd)
  | sel (b : Bay2) (d c x y : Opd)
  | li (b : Bay2) (d : Opd) (imm : BitVec 20)
  | lui (b : Bay2) (d x : Opd) (imm : BitVec 20)
  | lea (b : Bay2) (d x y : Opd) (scale : BitVec 3) (off : BitVec 7)
  | bfx (b : Bay2) (d x p : Opd) (sx : Bool) (w : BitVec 6)
  | bfi (b : Bay2) (d x p : Opd) (w : BitVec 6)
  | sext (b : Bay2) (d x : Opd) (n : BitVec 6)
  | zext (b : Bay2) (d x : Opd) (n : BitVec 6)
  | mov (b : Bay2) (d x : Opd)
  -- SB bay only (R96 to R118)
  | ld (d base off : Opd) (m : MemMod)
  | st (v base off : Opd) (m : MemMod)
  | ldsp (d base off : Opd) (wid : BitVec 2) (sx : Bool)
  | stsp (v base off : Opd) (wid : BitVec 2)
  | amo (d addr v : Opd) (kind : BitVec 4) (ord : BitVec 2) (wid : Bool) (scope : BitVec 3)
  | fence (kind : BitVec 2) (scope : BitVec 3) (uo : Bool)
  | fenceCode (scope : BitVec 3)
  | isync
  | spst (v idx : Opd) (lease : BitVec 2)
  | spld (d idx : Opd) (lease : BitVec 2)
  | srd (d : Opd) (r : BitVec 10)
  | swr (a : Opd) (r : BitVec 10)
  | cycest (a : Opd)
  | setprio (a : Opd)
  -- VX bay (R76, R123)
  | vadd (h : VHdr) (d a b : Opd) (sat : Bool)
  | vsub (h : VHdr) (d a b : Opd) (sat : Bool)
  | vmul (h : VHdr) (d a b : Opd) (sat : Bool)
  | vfma (h : VHdr) (d a b c : Opd)
  | vfms (h : VHdr) (d a b c : Opd)
  | vneg (h : VHdr) (d a : Opd) (sat : Bool)
  | vabs (h : VHdr) (d a : Opd) (sat : Bool)
  | vmin (h : VHdr) (d a b : Opd)
  | vmax (h : VHdr) (d a b : Opd)
  | vrcp (h : VHdr) (d a : Opd)
  | vrsq (h : VHdr) (d a : Opd)
  | vsqrt (h : VHdr) (d a : Opd)
  | vexp2 (h : VHdr) (d a : Opd)
  | vlog2 (h : VHdr) (d a : Opd)
  | vcmp (h : VHdr) (d a b : Opd) (mw : BitVec 3) (cc : BitVec 4)
  | vsel (h : VHdr) (d a b c : Opd)
  | vand (h : VHdr) (d a b : Opd)
  | vor (h : VHdr) (d a b : Opd)
  | vxor (h : VHdr) (d a b : Opd)
  | vnot (h : VHdr) (d a : Opd)
  | vshl (h : VHdr) (d a b : Opd)
  | vshr (h : VHdr) (d a b : Opd)
  | vshra (h : VHdr) (d a b : Opd)
  | vcvt (h : VHdr) (d a : Opd) (p : BitVec 3) (s : BitVec 4)
  | vquant (h : VHdr) (d a s z : Opd) (p : BitVec 3) (fp : Bool)
  | vredsum (h : VHdr) (d a : Opd) (w sat : Bool)
  | vredmax (h : VHdr) (d a : Opd) (w : Bool)
  | vredmin (h : VHdr) (d a : Opd) (w : Bool)
  | vscan (h : VHdr) (d a : Opd) (sat : Bool) (op : BitVec 2)
  | vperm (h : VHdr) (d a idx : Opd)
  | vbcast (h : VHdr) (d a n : Opd)
  | vslide (h : VHdr) (d a b s : Opd)
  | viota (h : VHdr) (d a b : Opd)
  | vpack (h : VHdr) (d a b : Opd) (sat : Bool)
  | vunpack (h : VHdr) (d a : Opd) (p : Bool)
  | vld (h : VHdr) (d a : Opd) (off : BitVec 7)
  | vst (h : VHdr) (v a : Opd) (off : BitVec 7)
  | vgather (h : VHdr) (d a idx : Opd)
  | vmov (h : VHdr) (d a : Opd)
  | mand (md ma mb : BitVec 3)
  | mor (md ma mb : BitVec 3)
  | mnot (md ma : BitVec 3)
  | mpopc (d : Opd) (ma : BitVec 3)
  | vosm (h : VHdr) (d p q st : Opd) (out : Bool)
  -- MX bay (R77, R150 to R158)
  | mma (h : CmdHdr) (p : MmaPay)
  | mdist (h : CmdHdr) (p : MmaPay)
  | mtopk (h : CmdHdr) (eng : Bool) (fmt dacc sacc : BitVec 5) (base : Opd) (km1 : BitVec 3) (dir init : Bool) (msk : Opd)
  | mzero (h : CmdHdr) (eng : Bool) (amask : BitVec 32)
  | mdrain (h : CmdHdr) (eng : Bool) (fmt acc : BitVec 5) (dst msk : Opd) (mode : BitVec 3) (rnd : BitVec 2)
      (sc : BitVec 10) (za : Bool)
  | mldacc (h : CmdHdr) (eng : Bool) (fmt acc : BitVec 5) (src msk : Opd) (mode : BitVec 3) (bro : Bool)
  -- SL bay (R77, R159)
  | sld (eng : Bool) (entry : BitVec 10) (a : Opd) (size : BitVec 2)
  | sfmt (eng : Bool) (entry : BitVec 10) (cv : BitVec 2)
  -- CX bay: copies (R78, R211 to R223)
  | cpy (h : CmdHdr) (s0 s1 : BitVec 16) (fmt : BitVec 5) (ca : Option Opd)
  | cpyg (h : CmdHdr) (s0 s1 : BitVec 16) (ca : Option Opd)
  | cpys (h : CmdHdr) (s0 s1 : BitVec 16) (ca : Option Opd)
  | cpyx (h : CmdHdr) (s0 s1 : BitVec 16) (ca : Option Opd)
  | cpysc (h : CmdHdr) (s0 s1 : BitVec 16) (ca : Option Opd)
  | cplan (h : CmdHdr) (s0 : Opd) (ca : Option Opd)
  | cstep (h : CmdHdr) (n : Opd)
  | subs (h : CmdHdr) (s0 s1 : BitVec 16) (ca : Option Opd)
  | unsubs (h : CmdHdr) (q : BitVec 5)
  -- CX bay: collectives (R227)
  | callred (h : CmdHdr) (s0 s1 : BitVec 16) (ca : Option Opd)
  | cred (h : CmdHdr) (s0 s1 : BitVec 16) (ca : Option Opd)
  | cbc (h : CmdHdr) (s0 s1 : BitVec 16) (ca : Option Opd)
  | cag (h : CmdHdr) (s0 s1 : BitVec 16) (ca : Option Opd)
  | crsc (h : CmdHdr) (s0 s1 : BitVec 16) (ca : Option Opd)
  -- CX bay: operation commands (R201)
  | opwait (h : CmdHdr) (id : Opd)
  | opcancel (h : CmdHdr) (id : Opd)
  | opdetach (h : CmdHdr) (id : Opd)
  | opadopt (h : CmdHdr) (id : Opd)
  | opquery (h : CmdHdr) (id : Opd)
  -- CX bay: queue commands (R178)
  | qinit (h : CmdHdr) (q : BitVec 5) (base : Opd) (lsz : BitVec 5) (lcnt scope : BitVec 3)
  | qspliceSend (h : CmdHdr) (ql qr : BitVec 5) (die x y : BitVec 3)
  | qspliceRecv (h : CmdHdr) (ql qr : BitVec 5) (die x y : BitVec 3)
  | qunsplice (h : CmdHdr) (q : BitVec 5)
  | qreset (h : CmdHdr) (q : BitVec 5) (free : Bool)
  | qstat (h : CmdHdr) (q : BitVec 5)
  | qpush (h : CmdHdr) (q : BitVec 5) (a : Opd)
  | qpop (h : CmdHdr) (q : BitVec 5) (a : Opd)
  -- CX bay: barriers and buffers (R240)
  | binit (h : CmdHdr) (b : BitVec 8)
  | bexpect (h : CmdHdr) (b : BitVec 8) (n : Opd)
  | barrive (h : CmdHdr) (b : BitVec 8) (n : Opd) (rem : Bool) (core : BitVec 4)
  | bwait (h : CmdHdr) (b : BitVec 8) (p : Option Opd)
  | bclear (h : CmdHdr) (b : BitVec 8) (free : Bool)
  | bufdecl (h : CmdHdr) (k : BitVec 5) (base size : Opd) (tag : BitVec 3)
  | bufset (h : CmdHdr) (k : BitVec 5) (st : BitVec 3) (force : Bool)
  -- CX bay: bank units (R307)
  | bqpost (h : CmdHdr) (qb dst : Opd) (ca : Option Opd)
  | buprog (h : CmdHdr) (va sp : Opd)
  | burun (h : CmdHdr) (va dst lim : Opd)
  | bustat (h : CmdHdr) (va : Opd)
  -- CX bay: groups, leases, publication (R326, R350, R365)
  | tlaunch (h : CmdHdr) (rec : Opd)
  | tdep (h : CmdHdr) (idx : Opd)
  | lease (h : CmdHdr) (e : BitVec 2) (core : BitVec 4) (words fb : Opd)
  | leaseRcl (h : CmdHdr)
  | lfree (h : CmdHdr) (e : BitVec 2)
  | publish (h : CmdHdr) (win : BitVec 3)
  -- micro-ops of a bank unit (R310)
  | buhalt
  | burow
  | buldw (d : BitVec 3) (w : BitVec 5)
  | buwid (d : BitVec 3) (off : BitVec 10) (fmt : BitVec 5)
  | bufadd (d a b : BitVec 3)
  | bufmul (d a b : BitVec 3)
  | bufmax (d a b : BitVec 3)
  | bufma (d a b : BitVec 3)
  | buiadd (d a b : BitVec 3)
  | bubc (d a : BitVec 3) (j : BitVec 3)
  | bursum (d a : BitVec 3)
  | buexp (d a : BitVec 3)
  | buzero (d : BitVec 3)
  | busetlc (n : BitVec 16)
  | buloop (j : BitVec 6)
  | buemit (a : BitVec 3)
  -- events of a core's fetcher and memory port
  | evFetchBlockArrive (core blk : Nat)
  | evPageWalkReturn (core : Nat)
  | evLoadDataArrive (core req : Nat)
  | evWritePerformed (core req : Nat)
  -- events of the memory stacks
  | evEscapementSlot (die p owner : Nat)
  | evRotationBoundary (die p : Nat)
  | evFallbackRefreshTakeover (die stack : Nat)
  -- events of the engines
  | evScaleWriteLand (core : Nat)
  | evMatrixHead (core eng : Nat)
  | evMatrixFetchStart (core eng : Nat)
  | evMatrixFetchEnd (core eng : Nat)
  | evMatrixArrayStart (core eng : Nat)
  | evMdrainLineWrite (core op line : Nat)
  -- events of child operations
  | evOpStart (op : Nat)
  | evCopyLine (op : Nat)
  | evOpComplete (op : Nat)
  | evPlanEntryHandoff (core : Nat)
  | evGroomTileFill (op : Nat)
  | evCollectiveJoin (op : Nat)
  | evCommandHead (core unit : Nat)
  -- events between cores
  | evSemaphoreIncrementLand (core sem inc : Nat) (src : SigSrc)
  | evRemoteArrivalLand (core bar : Nat) (n : Word) (src : SigSrc)
  | evMulticastWriteLand (core addr src fell : Nat) (bytes : List (Option Byte))
  | evSpliceDataArrive (core q : Nat) (m : SpliceMsg)
  | evHello (core q fromCore fromQ size reach : Nat)
  | evHelloResend (core q serial : Nat)
  | evGrant (core q n : Nat)
  | evRefuse (core q code : Nat)
  | evCredit (core q serial : Nat)
  | evEnd (core q : Nat)
  | evPause (core q : Nat)
  | evPauseAck (core q : Nat)
  | evResume (core q : Nat)
  | evSpliceLoss (core q : Nat)
  | evLeaseGrantLand (core e lender words fb : Nat) (rev : Bool)
  | evLeaseRevocation (core e : Nat)
  | evFallbackLineWrite (core e line : Nat)
  -- events of the scheduler
  | evYardGate (die yard : Nat)
  | evTaskReady (grp idx : Nat)
  | evTaskGrant (core : Nat)
  | evTaskDone (core : Nat)
  | evGroupEnd (grp : Nat)
  -- events of launch intake
  | evLaunchTailWrite (ctx q : Nat) (v : BitVec 32) (src : Option (BitVec 16))
  | evPacketTake (die : Nat)
  -- events of pre-emption and the watchdog
  | evPreemptionDecision (core : Nat)
  | evDrainLimit (core : Nat)
  | evTokenRefill (ctx : Nat)
  | evWatchdog (ctx grp idx : Nat)
  -- events of context machinery
  | evContextFlip (ctx : Nat)
  | evWritebackComplete (ctx : Nat)
  | evFatalCause (ctx : Nat) (code : BitVec 8)
  | evLoftDumpComplete (ctx : Nat)
  | evDumpTimeout (ctx : Nat)
  -- translation invalidation (R272); the operand word is the command word, VA and COUNT stand in the registers
  | evInvalidationAck (die : Nat)
  -- bank units
  | evRowStep (unit : Nat)
  -- links
  | evHostReadTimeout (core req : Nat)
  | evPostedWriteDiscard (die : Nat)
  -- bring-up and the mailbox
  | evPowerUp (f : PowerFinding)
  | evThrottleResume (die : Nat)
  -- the host, and the rest
  | evLeaseRequestLand (lender holder e words fb : Nat)
  | evLeaseWordsReturn (lender holder e : Nat)
  | evQpushQpopCompletion (core : Nat)
  -- what only the outside of the package starts: registers, the driver, the crown controller's mailbox, physical events
  | evPerBankRefresh (die p bank : Nat)
  | evStackHeartbeat (die stack : Nat)
  | evMctlWrite (die : Nat) (v : Word)
  | evActivate (ctx : Nat)
  | evSwapout (ctx : Nat)
  | evSwapin (ctx : Nat)
  | evKill (ctx : Nat)
  | evTeardown (ctx : Nat)
  | evReplay (ctx : Nat)
  | evRelease (ctx coord : Nat)
  | evTqheadWrite (ctx : Nat) (v : BitVec 32)
  | evDbgenWrite (ctx : Nat) (v : Word)
  | evRange (die : Nat) (cmd : Word)
  | evContext (die : Nat) (cmd : Word)
  | evAll (die : Nat) (cmd : Word)
  | evHandle (die : Nat) (cmd : Word)
  | evMigdone (die : Nat) (cmd : Word)
  | evCircuitTrained (a b wl : Nat) (common : Bool)
  | evWavelengthFail (a b : Nat)
  | evDieReset (die : Nat)
  | evCircuitRetrain (die : Nat) (mask : BitVec 8)
  | evEwenTrained (port lanes vmin vmax peer : Nat)
  | evEwenLaneFail (port : Nat) (replays : Bool)
  | evEwenRetrain (port : Nat)
  | evIdent (die : Nat)
  | evAttest (die : Nat)
  | evLog (die : Nat)
  | evStage (die : Nat)
  | evCommit (die : Nat)
  | evSmcreset (die : Nat)
  | evReset (die : Nat)
  | evThermalTrip
  | evThrottle (die : Nat)
  | evRegisterWrite (die off : Nat) (v : Word)
  | headerOnlyBundle
  | evBar2Access (die : Nat) (k : BarKind) (addr len : Nat) (data cmp : Word)
  | evDieResetExit (die : Nat)
  | evHostLinkDown (die : Nat)
  | evHostLinkUp (die : Nat)
  deriving DecidableEq, Repr

end Sys2Proof
end

