-- ==== Sys2Proof/WellFormed.lean ====
section
/-!
DEFINITION. Which instructions the encoding rules admit: the operand positions of R64 and the field limits each entry
states. A bundle that holds an ill-formed bay raises RESERVED_FIELD (R79); an ill-formed micro-op ends its run with
BANK_UNIT_ERROR (R310).
-/

namespace Sys2Proof

/-! ### Operand positions (R64) -/

/-- A source of the SA, SB and BR bays. -/
def Opd.isScalarSrc : Opd → Bool
  | .ya | .yb | .file _ | .main _ | .imm _ | .peek _ _ | .pop _ _ => true
  | .yv | .app _ => false

/-- A destination of a scalar bay: only the bay's own latch (R13). -/
def Opd.isScalarDst (b : Bay2) : Opd → Bool
  | .ya => b == .sa
  | .yb => b == .sb
  | .file _ | .main _ | .app _ => true
  | .yv | .imm _ | .peek _ _ | .pop _ _ => false

/-- A source of the VX bay: `yv`, `w0`–`w7`, `v0`–`v31`, an immediate or a channel. -/
def Opd.isVecSrc : Opd → Bool
  | .yv | .file _ | .imm _ | .peek _ _ | .pop _ _ => true
  | .main i => i.toNat < 32
  | .ya | .yb | .app _ => false

/-- A destination of the VX bay. -/
def Opd.isVecDst : Opd → Bool
  | .yv | .file _ | .app _ => true
  | .main i => i.toNat < 32
  | .ya | .yb | .imm _ | .peek _ _ | .pop _ _ => false

/-- An operand-file or main-file register: a BR destination (R108), a completion action (R190), an identifier (R201),
a bank-query operand (R307). -/
def Opd.isReg : Opd → Bool
  | .file _ | .main _ => true
  | .ya | .yb | .yv | .imm _ | .peek _ _ | .pop _ _ | .app _ => false

/-- A register or an immediate (R149, R241, R326, R350). -/
def Opd.isRegImm : Opd → Bool
  | .file _ | .main _ | .imm _ => true
  | .ya | .yb | .yv | .peek _ _ | .pop _ _ | .app _ => false

/-- An MX operand that names an image: a register or a channel source (R144). -/
def Opd.isImage : Opd → Bool
  | .file _ | .main _ | .peek _ _ | .pop _ _ => true
  | .ya | .yb | .yv | .imm _ | .app _ => false

/-- The destination of `MDRAIN`: a register or an append (R156). -/
def Opd.isDrainDst : Opd → Bool
  | .file _ | .main _ | .app _ => true
  | .ya | .yb | .yv | .imm _ | .peek _ _ | .pop _ _ => false

/-- A scalar register of any level, not a channel (R94, R102). -/
def Opd.isScalarReg : Opd → Bool
  | .ya | .yb | .file _ | .main _ => true
  | .yv | .imm _ | .peek _ _ | .pop _ _ | .app _ => false

/-- An immediate in a lane-index or count position must lie in 0 to 63 (R132). -/
def Opd.isLaneCount : Opd → Bool
  | .imm v => 0 ≤ v.toInt
  | _ => true

/-! ### Headers and types -/

/-- R71: unused header fields are zero. -/
def CmdHdr.wf (h : CmdHdr) : Bool :=
  (h.we || (h.wsem == 0 && h.wthr == 0 && !h.wc)) && (h.sinc != 0 || h.ssem == 0) && (h.tv || h.tok == 0)

/-- FP32, BF16 and FP16 (R119). -/
def VHdr.isF (h : VHdr) : Bool := h.ty.toNat < 3
/-- I32 to N8, I4 and N4 (R119). -/
def VHdr.isZ4 (h : VHdr) : Bool := 3 ≤ h.ty.toNat && h.ty.toNat ≤ 10
/-- Every element type (R119). -/
def VHdr.isAll (h : VHdr) : Bool := h.ty.toNat ≤ 12
/-- The narrow integer types (R119). -/
def VHdr.isNar (h : VHdr) : Bool := 5 ≤ h.ty.toNat && h.ty.toNat ≤ 10
/-- F or Z4. -/
def VHdr.isFZ (h : VHdr) : Bool := h.ty.toNat ≤ 10
/-- RND is 0b00 (R67). -/
def VHdr.noRnd (h : VHdr) : Bool := h.rnd == 0

/-- Element width of a TYPE code in bits (R68); GQ codes have no lane width and answer 0. -/
def tyWidth : Nat → Nat
  | 0 | 3 | 4 => 32
  | 1 | 2 | 5 | 6 => 16
  | 7 | 8 | 11 | 12 => 8
  | 9 | 10 => 4
  | _ => 0

/-- Elements a register holds (R119). -/
def tyCount (t : Nat) : Nat := if tyWidth t = 0 then 0 else 2048 / tyWidth t

/-- R128: the type, part and mask rules of `VCVT`. -/
def vcvtWf (h : VHdr) (p : Nat) (s : Nat) : Bool :=
  let d := h.ty.toNat
  if d > 14 || s > 14 then false
  else if d ≥ 13 || s ≥ 13 then
    p == 0 && (s == d || (d ≥ 13 && s < 3) || (s ≥ 13 && d < 3)) && (d < 13 || h.msk == 0)
  else
    let lo := Nat.min (tyCount d) (tyCount s)
    let hi := Nat.max (tyCount d) (tyCount s)
    if tyCount d = tyCount s then p == 0 else p < hi / lo

/-- R96: the MOD combinations of `LD`. -/
def MemMod.wfLd (m : MemMod) : Bool :=
  (m.ord == 0 || m.ord == 1) && (m.ord != 0 || m.scope == 0) && m.scope.toNat ≤ 4 && !m.uo && (!m.sx || m.wid != 3)

/-- R96: the MOD combinations of `ST`. -/
def MemMod.wfSt (m : MemMod) : Bool :=
  (m.ord == 0 || m.ord == 2) && (m.ord != 0 || m.scope == 0) && m.scope.toNat ≤ 4 && (!m.uo || m.ord == 2) && !m.sx

/-- R150, R145: the payload rules `MMA` and `MDIST` share. -/
def MmaPay.wf (p : MmaPay) : Bool :=
  let f := p.fmt.toNat
  let int := f == 0 || f == 2
  (int || (8 ≤ f && f ≤ 16)) && p.a.isImage && p.b.isImage && p.msk.isRegImm
    && (int || (!p.sga && !p.sgb && !p.sat && p.prec == 0)) && (f != 2 || p.prec == 0 || p.prec == 3)

/-- R156: the FMT codes each mode of `MDRAIN` accepts. -/
def drainFmtOk (mode fmt : Nat) : Bool :=
  match mode with
  | 0 => fmt == 0
  | 1 => 9 ≤ fmt && fmt ≤ 12
  | 2 | 3 => fmt ≤ 5
  | 4 => 8 ≤ fmt && fmt ≤ 12
  | _ => false

/-- R158: the FMT codes each mode of `MLDACC` accepts. -/
def ldaccFmtOk (mode fmt : Nat) : Bool :=
  match mode with
  | 0 => fmt == 0
  | 1 => fmt ≤ 5 || (9 ≤ fmt && fmt ≤ 12)
  | _ => false

/-- R116: the system register numbers. -/
def sregKnown (n : Nat) : Bool := n ≤ 6 || n == 16

/-- A completion-action operand: absent, or an operand-file or main-file register (R190). -/
def caOk : Option Opd → Bool
  | none => true
  | some o => o.isReg

/-- A command that creates an operation: a well-formed header that names a token (R71). -/
def opHdr (h : CmdHdr) : Bool := h.wf && h.tv

/-- Two scalar sources and a destination (R88). -/
def alu2Wf (b : Bay2) (d x y : Opd) : Bool := d.isScalarDst b && x.isScalarSrc && y.isScalarSrc

/-- One scalar source and a destination (R88). -/
def alu1Wf (b : Bay2) (d x : Opd) : Bool := d.isScalarDst b && x.isScalarSrc

/-- The operands of a vector instruction with two sources. -/
def vec2Wf (d a b : Opd) : Bool := d.isVecDst && a.isVecSrc && b.isVecSrc

/-- The operands of a vector instruction with one source. -/
def vec1Wf (d a : Opd) : Bool := d.isVecDst && a.isVecSrc

/-- Which instructions the encoding rules admit; an event is well formed when the agents it names exist (R1, R4). -/
def Instr.wf : Instr → Bool
  | .nop | .jmp _ | .tend | .brk _ => true
  | .jmpi a | .ret a => a.isScalarSrc
  | .brz a _ | .brnz a _ | .trap a _ => a.isScalarSrc
  | .call d _ | .loop d _ => d.isReg
  | .waitc _ _ _ => true
  | .sigc _ r n i => i != 0 && (r || n == 0)
  | .add b d x y | .sub b d x y | .mul b d x y | .mulh b d x y | .mulhn b d x y | .div b d x y | .divn b d x y
  | .rem b d x y | .remn b d x y | .and b d x y | .or b d x y | .xor b d x y | .andn b d x y | .orn b d x y
  | .shl b d x y | .shrl b d x y | .shra b d x y | .rotl b d x y | .rotr b d x y | .min b d x y | .max b d x y
  | .minn b d x y | .maxn b d x y => alu2Wf b d x y
  | .clz b d x | .ctz b d x | .popc b d x | .mov b d x => alu1Wf b d x
  | .addi b d x _ | .lui b d x _ => alu1Wf b d x
  | .cmp b cc d x y => alu2Wf b d x y && cc.toNat ≤ 9
  | .sel b d c x y => alu2Wf b d x y && c.isScalarSrc
  | .li b d _ => d.isScalarDst b
  | .lea b d x y _ _ => alu2Wf b d x y
  | .bfx b d x p _ _ => alu2Wf b d x p
  | .bfi b d x p _ => alu2Wf b d x p && d.isScalarReg
  | .sext b d x _ | .zext b d x _ => alu1Wf b d x
  | .ld d base off m => alu2Wf .sb d base off && m.wfLd
  | .st v base off m => v.isScalarSrc && base.isScalarSrc && off.isScalarSrc && m.wfSt
  | .ldsp d base off wid sx => alu2Wf .sb d base off && (!sx || wid != 3)
  | .stsp v base off _ => v.isScalarSrc && base.isScalarSrc && off.isScalarSrc
  | .amo d a v kind _ _ scope => alu2Wf .sb d a v && kind.toNat ≤ 9 && scope.toNat ≤ 4 && (kind != 9 || d.isScalarReg)
  | .fence kind scope _ => kind != 0 && scope.toNat ≤ 4
  | .fenceCode scope => 2 ≤ scope.toNat && scope.toNat ≤ 4
  | .isync => true
  | .spst v idx _ => v.isScalarSrc && idx.isScalarSrc
  | .spld d idx _ => alu1Wf .sb d idx
  | .srd d r => d.isScalarDst .sb && sregKnown r.toNat
  | .swr a r => a.isScalarSrc && sregKnown r.toNat
  | .cycest a | .setprio a => a.isScalarSrc
  | .vadd h d a b sat | .vsub h d a b sat | .vmul h d a b sat =>
      vec2Wf d a b && h.isFZ && (h.isF || h.noRnd) && (!sat || h.isZ4)
  | .vfma h d a b c | .vfms h d a b c => vec2Wf d a b && c.isVecSrc && h.isF
  | .vneg h d a sat | .vabs h d a sat => vec1Wf d a && h.isFZ && h.noRnd && (!sat || h.isZ4)
  | .vmin h d a b | .vmax h d a b => vec2Wf d a b && h.isFZ && h.noRnd
  | .vrcp h d a | .vrsq h d a | .vsqrt h d a | .vlog2 h d a => vec1Wf d a && h.isF
  | .vexp2 h d a => vec1Wf d a && h.isF && h.noRnd
  | .vcmp h d a b _ cc => vec2Wf d a b && h.isFZ && h.noRnd && (cc.toNat < 6 || (cc == 6 && h.isF))
  | .vsel h d a b c => vec2Wf d a b && c.isVecSrc && h.isAll && h.noRnd
  | .vand h d a b | .vor h d a b | .vxor h d a b => vec2Wf d a b && h.isAll && h.noRnd
  | .vnot h d a => vec1Wf d a && h.isAll && h.noRnd
  | .vshl h d a b | .vshr h d a b | .vshra h d a b => vec2Wf d a b && h.isZ4 && h.noRnd
  | .vcvt h d a p s => vec1Wf d a && vcvtWf h p.toNat s.toNat
  | .vquant h d a s z p _ => vec2Wf d a s && z.isVecSrc && h.isNar && p.toNat < tyCount h.ty.toNat / 64
  | .vredsum h d a _ _ => vec1Wf d a && h.isFZ && (h.isF || h.noRnd)
  | .vredmax h d a _ | .vredmin h d a _ => vec1Wf d a && h.isFZ && h.noRnd
  | .vscan h d a sat op =>
      vec1Wf d a && h.isFZ && op != 3 && ((h.isF && op == 0) || h.noRnd) && (!sat || (h.isZ4 && op == 0))
  | .vperm h d a idx => vec2Wf d a idx && h.isAll && h.noRnd
  | .vbcast h d a n => vec2Wf d a n && h.isAll && h.noRnd && n.isLaneCount
  | .vslide h d a b s => vec2Wf d a b && s.isVecSrc && s.isLaneCount && h.isAll && h.noRnd
  | .viota h d a b => vec2Wf d a b && h.isZ4 && h.noRnd
  | .vpack h d a b _ => vec2Wf d a b && h.isNar && h.noRnd
  | .vunpack h d a _ => vec1Wf d a && h.isNar && h.noRnd
  | .vld h d a _ => vec1Wf d a && h.isAll && h.noRnd
  | .vst h v a _ => v.isVecSrc && a.isVecSrc && h.isAll && h.noRnd
  | .vgather h d a idx => vec2Wf d a idx && h.noRnd && (h.ty == 0 || h.ty == 3 || h.ty == 4)
  | .vmov h d a => vec1Wf d a && h.isAll && h.noRnd
  | .mand _ _ _ | .mor _ _ _ | .mnot _ _ => true
  | .mpopc d _ => d.isVecDst
  | .vosm h d p q stat _ => vec2Wf d p q && stat.isVecSrc && h.ty == 0 && h.noRnd
  | .mma h p => opHdr h && p.wf
  | .mdist h p => opHdr h && p.wf && p.fmt != 8
  | .mtopk h _ fmt dacc sacc base _ _ _ msk =>
      opHdr h && (fmt == 8 || fmt == 6 || fmt == 7) && dacc != sacc && base.isRegImm && msk.isRegImm
  | .mzero h _ _ => opHdr h
  | .mdrain h _ fmt _ dst msk mode rnd sc _ =>
      opHdr h && dst.isDrainDst && msk.isRegImm && drainFmtOk mode.toNat fmt.toNat && (mode != 0 || rnd == 0)
        && (2 ≤ mode.toNat || sc == 0) && sc.toNat ≤ 1008
  | .mldacc h _ fmt _ src msk mode _ => opHdr h && src.isImage && msk.isRegImm && ldaccFmtOk mode.toNat fmt.toNat
  | .sld _ entry a size =>
      a.isRegImm && size != 3 && entry.toNat % (if size = 0 then 1 else if size = 1 then 16 else 64) == 0
  | .sfmt _ entry cv => cv != 3 && entry.toNat % 16 == 0
  | .cpy h _ _ fmt ca => opHdr h && fmt.toNat ≤ 0x15 && caOk ca
  | .cpyg h _ _ ca | .cpys h _ _ ca | .cpyx h _ _ ca | .cpysc h _ _ ca | .subs h _ _ ca | .callred h _ _ ca
  | .cred h _ _ ca | .cbc h _ _ ca | .cag h _ _ ca | .crsc h _ _ ca => opHdr h && caOk ca
  | .cplan h s0 ca => opHdr h && s0.isRegImm && caOk ca
  | .cstep h n => h.wf && n.isRegImm
  | .unsubs h _ => opHdr h
  | .opwait h i | .opcancel h i | .opdetach h i | .opadopt h i | .opquery h i => opHdr h && i.isReg
  | .qinit h _ base lsz _ scope => opHdr h && base.isRegImm && 6 ≤ lsz.toNat && lsz.toNat ≤ 16 && scope.toNat ≤ 4
  | .qspliceSend h _ _ _ _ _ | .qspliceRecv h _ _ _ _ _ => opHdr h
  | .qunsplice h _ | .qreset h _ _ | .qstat h _ => opHdr h
  | .qpush h _ a | .qpop h _ a => opHdr h && a.isRegImm
  | .binit h _ | .bclear h _ _ => h.wf
  | .bexpect h _ n => h.wf && n.isRegImm
  | .barrive h _ n remote core => h.wf && n.isRegImm && (remote || core == 0)
  | .bwait h _ p => h.wf && (h.tv || h.sinc != 0) && (match p with | none => true | some o => o.isRegImm)
  | .bufdecl h _ base size tag => h.wf && base.isRegImm && size.isRegImm && tag.toNat ≤ 4
  | .bufset h _ state force => h.wf && state.toNat ≤ 3 && (!force || state == 0)
  | .bqpost h qb dst ca => opHdr h && qb.isReg && dst.isReg && caOk ca
  | .buprog h va sp => h.wf && va.isReg && sp.isReg
  | .burun h va dst lim => h.wf && va.isReg && dst.isReg && lim.isReg
  | .bustat h va => opHdr h && va.isReg
  | .tlaunch h rec => h.wf && rec.isRegImm
  | .tdep h idx => h.wf && idx.isRegImm
  | .lease h _ _ words fb => h.wf && words.isRegImm && fb.isRegImm
  | .leaseRcl h | .lfree h _ | .publish h _ => h.wf
  | .buhalt | .burow | .buldw _ _ => true
  | .buwid _ off fmt =>
      9 ≤ fmt.toNat && fmt.toNat ≤ 12 && off.toNat % (if fmt.toNat ≤ 10 then 16 else 8) == 0
  | .bufadd _ _ _ | .bufmul _ _ _ | .bufmax _ _ _ | .bufma _ _ _ | .buiadd _ _ _ | .bubc _ _ _ | .bursum _ _
  | .buexp _ _ | .buzero _ | .busetlc _ | .buloop _ | .buemit _ => true
  | .evFetchBlockArrive c _ | .evPageWalkReturn c | .evLoadDataArrive c _ | .evWritePerformed c _
  | .evScaleWriteLand c | .evPlanEntryHandoff c | .evSemaphoreIncrementLand c _ _ _
  | .evRemoteArrivalLand c _ _ _ | .evMulticastWriteLand c _ _ _ _ | .evTaskGrant c | .evTaskDone c
  | .evPreemptionDecision c | .evDrainLimit c | .evHostReadTimeout c _ | .evQpushQpopCompletion c => c < 512
  | .evMatrixHead c e | .evMatrixFetchStart c e | .evMatrixFetchEnd c e | .evMatrixArrayStart c e => c < 512 && e < 2
  | .evMdrainLineWrite c o _ => c < 512 && o < 65536
  | .evCommandHead c u => c < 512 && 2 ≤ u && u < 10
  | .evSpliceDataArrive c q _ | .evGrant c q _ | .evRefuse c q _ | .evCredit c q _ | .evEnd c q
  | .evPause c q | .evPauseAck c q | .evResume c q | .evSpliceLoss c q => c < 512 && q < 32 * 16385
  | .evHelloResend c q _ => c < 512 && q < 32
  | .evHello c q fc fq _ _ => c < 512 && q < 32 && fc < 512 && fq < 32
  | .evLeaseGrantLand c e l _ _ _ => c < 512 && e < 4 && l < 512
  | .evLeaseRevocation c e | .evFallbackLineWrite c e _ => c < 512 && e < 4
  | .evLeaseRequestLand l h e _ _ | .evLeaseWordsReturn l h e => l < 512 && h < 512 && e < 4
  | .evEscapementSlot d p o => d < 8 && p < 128 && o < 64
  | .evRotationBoundary d p => d < 8 && p < 128
  | .evPerBankRefresh d p b => d < 8 && p < 128 && b < 32
  | .evStackHeartbeat d k | .evFallbackRefreshTakeover d k => d < 8 && k < 2
  | .evMctlWrite d _ | .evPacketTake d | .evRange d _ | .evContext d _ | .evAll d _ | .evHandle d _ | .evMigdone d _
  | .evInvalidationAck d | .evDieReset d | .evCircuitRetrain d _ | .evPostedWriteDiscard d | .evIdent d | .evAttest d
  | .evLog d | .evStage d | .evCommit d | .evSmcreset d | .evReset d | .evThrottle d | .evThrottleResume d
  | .evRegisterWrite d _ _ | .evDieResetExit d | .evHostLinkDown d | .evHostLinkUp d => d < 8
  | .evBar2Access d k _ len _ _ => d < 8 && len ≤ 8 && (match k with | .read | .write => true | _ => len == 4 || len == 8)
  | .evYardGate d y => d < 8 && y < 4
  | .evOpStart o | .evCopyLine o | .evOpComplete o | .evGroomTileFill o | .evCollectiveJoin o => o < 65536
  | .evTaskReady _ _ | .evGroupEnd _ => true
  | .evLaunchTailWrite c q _ _ => c < 512 && q < 4
  | .evTokenRefill c | .evWatchdog c _ _ | .evActivate c | .evSwapout c | .evSwapin c | .evKill c | .evTeardown c
  | .evReplay c | .evContextFlip c | .evWritebackComplete c | .evFatalCause c _ | .evLoftDumpComplete c
  | .evDumpTimeout c | .evTqheadWrite c _ | .evDbgenWrite c _ => c < 512
  | .evRelease c k => c < 512 && k < 64
  | .evRowStep u => u < 32768
  | .evCircuitTrained a b wl _ => a < b && b < 8 && wl ≤ 64
  | .evWavelengthFail a b => a < b && b < 8
  | .evEwenTrained p lanes _ _ _ => p < 16 && lanes ≤ 16
  | .evEwenLaneFail p _ | .evEwenRetrain p => p < 16
  | .evPowerUp f =>
    match f with
    | .ok => true
    | .degraded maps waves =>
      maps.all (fun m => m.1 < 8 && (m.2.1 != 0 || m.2.2 != 0)) && waves.all (fun w => w.1 < w.2.1 && w.2.1 < 8 && 1 ≤ w.2.2 && w.2.2 ≤ 64)
    | .fail cause => 1 ≤ cause.toNat && cause.toNat ≤ 6
  | .evThermalTrip | .headerOnlyBundle => true

end Sys2Proof
end

