-- ==== Sys2Proof/Decode.lean ====
section
/-!
DEFINITION. The decoder of bundles (R59 to R79), of micro-ops (R310) and of opcode-table words, and the encoder written
from the same tables. A bay is parsed by its opcode and then encoded again: a bay whose bits differ from that encoding
holds a non-zero reserved or unused field, which is RESERVED_FIELD (R79).
-/

namespace Sys2Proof

/-- Why a bundle is refused by the decoder: the two decode faults of R79, bytes that end too soon, and a row that has
no encoding. -/
inductive DecErr where
  | illegalBundle
  | reservedField
  | truncated
  | noEncoding
  deriving DecidableEq, Repr

/-- The bays in the order of the header bits (R59, R60), the micro-op store, and the header-only bundle. -/
inductive BayKind where
  | br
  | sa
  | sb
  | vx
  | mx
  | cx
  | sl
  | bu
  | hdr
  deriving DecidableEq, Repr

/-- One encoded bay: a little-endian value of the bay's width (R60). -/
inductive Enc where
  | br (w : BitVec 32)
  | sa (w : BitVec 48)
  | sb (w : BitVec 48)
  | vx (w : BitVec 64)
  | mx (w : BitVec 96)
  | cx (w : BitVec 96)
  | sl (w : BitVec 32)
  | bu (w : BitVec 32)
  | hdr
  deriving DecidableEq, Repr

/-! ### Fields -/

/-- Bits [lo + n − 1 : lo] of `w`. -/
def fld {m : Nat} (w : BitVec m) (lo n : Nat) : BitVec n := w.extractLsb' lo n

/-- One bit as a truth value. -/
def bit {m : Nat} (w : BitVec m) (i : Nat) : Bool := w.getLsbD i

/-- A truth value as one bit. -/
def b1 (b : Bool) : BitVec 1 := BitVec.ofBool b

/-! ### The operand field (R51, R64) -/

/-- The field a source or destination encodes to. -/
def encOpd : Opd → BitVec 10
  | .ya => 0#10
  | .yb => 1#10
  | .yv => 2#10
  | .file i => 0b0010000#7 ++ i
  | .main i => 0b0100#4 ++ i
  | .imm v => 0b011#3 ++ v
  | .peek q o => 0b10#2 ++ o ++ q
  | .pop q o => 0b11#2 ++ o ++ q
  | .app q => 0b10000#5 ++ q

/-- Class 0: the register levels and the immediate. -/
def decClass0 (f : BitVec 10) : Option Opd :=
  match (fld f 7 2).toNat with
  | 0 =>
    match (fld f 0 7).toNat with
    | 0 => some .ya
    | 1 => some .yb
    | 2 => some .yv
    | _ => none
  | 1 => if fld f 3 4 = 0#4 then some (.file (fld f 0 3)) else none
  | 2 => if bit f 6 then none else some (.main (fld f 0 6))
  | _ => some (.imm (fld f 0 7))

/-- A source field: class 1 peeks or pops (R51). -/
def decSrc (f : BitVec 10) : Option Opd :=
  if bit f 9 then
    if bit f 8 then some (.pop (fld f 0 5) (fld f 5 3)) else some (.peek (fld f 0 5) (fld f 5 3))
  else decClass0 f

/-- A destination field: class 1 appends and has bits [8:5] zero (R64). -/
def decDst (f : BitVec 10) : Option Opd :=
  if bit f 9 then if fld f 5 4 = 0#4 then some (.app (fld f 0 5)) else none
  else decClass0 f

/-- A source operand of a bay. A field that R64 does not allow is read as the immediate zero, which names no register; its
encoding is another, so `decode` finds the field and gives RESERVED_FIELD. -/
def src {m : Nat} (w : BitVec m) (lo : Nat) : Except DecErr Opd := .ok ((decSrc (fld w lo 10)).getD (.imm 0))

/-- A destination operand of a bay, one that R64 does not allow as in `src`. -/
def dst {m : Nat} (w : BitVec m) (lo : Nat) : Except DecErr Opd := .ok ((decDst (fld w lo 10)).getD (.imm 0))

/-- A completion-action or optional operand: the zero field names none (R190). -/
def optSrc {m : Nat} (w : BitVec m) (lo : Nat) : Except DecErr (Option Opd) :=
  .ok (if fld w lo 10 = 0#10 then none else some ((decSrc (fld w lo 10)).getD (.imm 0)))

/-- The field of an optional operand. -/
def encOpt : Option Opd → BitVec 10
  | none => 0#10
  | some o => encOpd o

/-! ### BR bay (R65, R74, R108) -/

/-- A BR bay from its three fields. -/
def packBR (op : BitVec 5) (cond : BitVec 10) (tgt : BitVec 17) : BitVec 32 := op ++ cond ++ tgt

/-- The BR bay of an instruction. -/
def encodeBR : Instr → Option (BitVec 32)
  | .nop => some (packBR 0x00 0 0)
  | .jmp t => some (packBR 0x01 0 t)
  | .jmpi a => some (packBR 0x02 (encOpd a) 0)
  | .brz a t => some (packBR 0x03 (encOpd a) t)
  | .brnz a t => some (packBR 0x04 (encOpd a) t)
  | .call d t => some (packBR 0x05 (encOpd d) t)
  | .ret a => some (packBR 0x06 (encOpd a) 0)
  | .loop d t => some (packBR 0x07 (encOpd d) t)
  | .waitc c k t => some (packBR 0x08 (0#2 ++ c) (b1 k ++ 0#4 ++ t))
  | .sigc c r n i => some (packBR 0x09 (0#2 ++ c) (b1 r ++ n ++ 0#4 ++ i))
  | .tend => some (packBR 0x0A 0 0)
  | .trap a c => some (packBR 0x0B (encOpd a) (0#1 ++ c))
  | .brk c => some (packBR 0x0C 0 (0#1 ++ c))
  | _ => none

/-- The instruction a BR bay's opcode names, its unused fields not yet checked. -/
def parseBR (w : BitVec 32) : Except DecErr Instr :=
  match (fld w 27 5).toNat with
  | 0x00 => .ok .nop
  | 0x01 => .ok (.jmp (fld w 0 17))
  | 0x02 => do let a ← src w 17; .ok (.jmpi a)
  | 0x03 => do let a ← src w 17; .ok (.brz a (fld w 0 17))
  | 0x04 => do let a ← src w 17; .ok (.brnz a (fld w 0 17))
  | 0x05 => do let d ← dst w 17; .ok (.call d (fld w 0 17))
  | 0x06 => do let a ← src w 17; .ok (.ret a)
  | 0x07 => do let d ← dst w 17; .ok (.loop d (fld w 0 17))
  | 0x08 => .ok (.waitc (fld w 17 8) (bit w 16) (fld w 0 12))
  | 0x09 => .ok (.sigc (fld w 17 8) (bit w 16) (fld w 12 4) (fld w 0 8))
  | 0x0A => .ok .tend
  | 0x0B => do let a ← src w 17; .ok (.trap a (fld w 0 16))
  | 0x0C => .ok (.brk (fld w 0 16))
  | _ => .error .illegalBundle

/-! ### SA and SB bays (R66, R75) -/

/-- A scalar bay from its five fields. -/
def packAB (op : BitVec 8) (d s1 s2 md : BitVec 10) : BitVec 48 := op ++ d ++ s1 ++ s2 ++ md

/-- A scalar bay of a long-immediate form. -/
def packLI (op : BitVec 8) (d s1 : BitVec 10) (imm : BitVec 20) : BitVec 48 := op ++ d ++ s1 ++ imm

/-- Three operands and a zero MOD. -/
def enc3 (op : BitVec 8) (d x y : Opd) : BitVec 48 := packAB op (encOpd d) (encOpd x) (encOpd y) 0

/-- Two operands and a zero SRC2 and MOD. -/
def enc2 (op : BitVec 8) (d x : Opd) : BitVec 48 := packAB op (encOpd d) (encOpd x) 0 0

/-- The MOD field of `LD` and `ST` (R96). -/
def encMem (m : MemMod) : BitVec 10 := m.wid ++ m.ord ++ m.scope ++ b1 m.uo ++ b1 m.sx ++ 0#1

/-- R96 read from a scalar bay. -/
def decMem (w : BitVec 48) : MemMod :=
  { wid := fld w 8 2, ord := fld w 6 2, scope := fld w 3 3, uo := bit w 2, sx := bit w 1 }

/-- The bay and the 48 bits of a scalar instruction. -/
def encodeAB : Instr → Option (Bay2 × BitVec 48)
  | .add b d x y => some (b, enc3 0x01 d x y)
  | .sub b d x y => some (b, enc3 0x02 d x y)
  | .addi b d x i => some (b, packLI 0x03 (encOpd d) (encOpd x) i)
  | .mul b d x y => some (b, enc3 0x04 d x y)
  | .mulh b d x y => some (b, enc3 0x05 d x y)
  | .mulhn b d x y => some (b, enc3 0x06 d x y)
  | .div b d x y => some (b, enc3 0x07 d x y)
  | .divn b d x y => some (b, enc3 0x08 d x y)
  | .rem b d x y => some (b, enc3 0x09 d x y)
  | .remn b d x y => some (b, enc3 0x0A d x y)
  | .and b d x y => some (b, enc3 0x10 d x y)
  | .or b d x y => some (b, enc3 0x11 d x y)
  | .xor b d x y => some (b, enc3 0x12 d x y)
  | .andn b d x y => some (b, enc3 0x13 d x y)
  | .orn b d x y => some (b, enc3 0x14 d x y)
  | .shl b d x y => some (b, enc3 0x18 d x y)
  | .shrl b d x y => some (b, enc3 0x19 d x y)
  | .shra b d x y => some (b, enc3 0x1A d x y)
  | .rotl b d x y => some (b, enc3 0x1B d x y)
  | .rotr b d x y => some (b, enc3 0x1C d x y)
  | .clz b d x => some (b, enc2 0x20 d x)
  | .ctz b d x => some (b, enc2 0x21 d x)
  | .popc b d x => some (b, enc2 0x22 d x)
  | .min b d x y => some (b, enc3 0x28 d x y)
  | .max b d x y => some (b, enc3 0x29 d x y)
  | .minn b d x y => some (b, enc3 0x2A d x y)
  | .maxn b d x y => some (b, enc3 0x2B d x y)
  | .cmp b cc d x y => some (b, packAB 0x30 (encOpd d) (encOpd x) (encOpd y) (0#6 ++ cc))
  | .sel b d c x y => some (b, packAB 0x31 (encOpd d) (encOpd x) (encOpd y) (encOpd c))
  | .li b d i => some (b, packLI 0x38 (encOpd d) 0 i)
  | .lui b d x i => some (b, packLI 0x39 (encOpd d) (encOpd x) i)
  | .lea b d x y sc off => some (b, packAB 0x3A (encOpd d) (encOpd x) (encOpd y) (off ++ sc))
  | .bfx b d x p sx w => some (b, packAB 0x3B (encOpd d) (encOpd x) (encOpd p) (b1 sx ++ 0#3 ++ w))
  | .bfi b d x p w => some (b, packAB 0x3C (encOpd d) (encOpd x) (encOpd p) (0#4 ++ w))
  | .sext b d x n => some (b, packAB 0x3D (encOpd d) (encOpd x) 0 (0#4 ++ n))
  | .zext b d x n => some (b, packAB 0x3E (encOpd d) (encOpd x) 0 (0#4 ++ n))
  | .mov b d x => some (b, enc2 0x3F d x)
  | .ld d x y m => some (.sb, packAB 0x40 (encOpd d) (encOpd x) (encOpd y) (encMem m))
  | .st v x y m => some (.sb, packAB 0x41 (encOpd v) (encOpd x) (encOpd y) (encMem m))
  | .ldsp d x y wid sx => some (.sb, packAB 0x42 (encOpd d) (encOpd x) (encOpd y) (wid ++ 0#6 ++ b1 sx ++ 0#1))
  | .stsp v x y wid => some (.sb, packAB 0x43 (encOpd v) (encOpd x) (encOpd y) (wid ++ 0#8))
  | .amo d a v kind ord wid scope =>
      some (.sb, packAB 0x44 (encOpd d) (encOpd a) (encOpd v) (kind ++ ord ++ b1 wid ++ scope))
  | .fence kind scope uo => some (.sb, packAB 0x45 0 0 0 (0#2 ++ kind ++ scope ++ b1 uo ++ 0#2))
  | .fenceCode scope => some (.sb, packAB 0x46 0 0 0 (0#4 ++ scope ++ 0#3))
  | .isync => some (.sb, packAB 0x47 0 0 0 0)
  | .spst v idx l => some (.sb, packAB 0x48 (encOpd v) (encOpd idx) 0 (l ++ 0#8))
  | .spld d idx l => some (.sb, packAB 0x49 (encOpd d) (encOpd idx) 0 (l ++ 0#8))
  | .srd d r => some (.sb, packAB 0x50 (encOpd d) 0 0 r)
  | .swr a r => some (.sb, packAB 0x51 0 (encOpd a) 0 r)
  | .cycest a => some (.sb, packAB 0x52 0 (encOpd a) 0 0)
  | .setprio a => some (.sb, packAB 0x53 0 (encOpd a) 0 0)
  | _ => none

/-- A parsed three-operand form. -/
def parse3 (w : BitVec 48) (f : Opd → Opd → Opd → Instr) : Except DecErr Instr := do
  let d ← dst w 30
  let x ← src w 20
  let y ← src w 10
  .ok (f d x y)

/-- A parsed two-operand form. -/
def parse2 (w : BitVec 48) (f : Opd → Opd → Instr) : Except DecErr Instr := do
  let d ← dst w 30
  let x ← src w 20
  .ok (f d x)

/-- A parsed form whose DST field is a source (R96, R106). -/
def parse3s (w : BitVec 48) (f : Opd → Opd → Opd → Instr) : Except DecErr Instr := do
  let v ← src w 30
  let x ← src w 20
  let y ← src w 10
  .ok (f v x y)

/-- The instruction a scalar bay's opcode names. -/
def parseAB (b : Bay2) (w : BitVec 48) : Except DecErr Instr :=
  match (fld w 40 8).toNat with
  | 0x01 => parse3 w (.add b)
  | 0x02 => parse3 w (.sub b)
  | 0x03 => parse2 w (fun d x => .addi b d x (fld w 0 20))
  | 0x04 => parse3 w (.mul b)
  | 0x05 => parse3 w (.mulh b)
  | 0x06 => parse3 w (.mulhn b)
  | 0x07 => parse3 w (.div b)
  | 0x08 => parse3 w (.divn b)
  | 0x09 => parse3 w (.rem b)
  | 0x0A => parse3 w (.remn b)
  | 0x10 => parse3 w (.and b)
  | 0x11 => parse3 w (.or b)
  | 0x12 => parse3 w (.xor b)
  | 0x13 => parse3 w (.andn b)
  | 0x14 => parse3 w (.orn b)
  | 0x18 => parse3 w (.shl b)
  | 0x19 => parse3 w (.shrl b)
  | 0x1A => parse3 w (.shra b)
  | 0x1B => parse3 w (.rotl b)
  | 0x1C => parse3 w (.rotr b)
  | 0x20 => parse2 w (.clz b)
  | 0x21 => parse2 w (.ctz b)
  | 0x22 => parse2 w (.popc b)
  | 0x28 => parse3 w (.min b)
  | 0x29 => parse3 w (.max b)
  | 0x2A => parse3 w (.minn b)
  | 0x2B => parse3 w (.maxn b)
  | 0x30 => parse3 w (.cmp b (fld w 0 4))
  | 0x31 => do let c ← src w 0; parse3 w (fun d x y => .sel b d c x y)
  | 0x38 => do let d ← dst w 30; .ok (.li b d (fld w 0 20))
  | 0x39 => parse2 w (fun d x => .lui b d x (fld w 0 20))
  | 0x3A => parse3 w (fun d x y => .lea b d x y (fld w 0 3) (fld w 3 7))
  | 0x3B => parse3 w (fun d x p => .bfx b d x p (bit w 9) (fld w 0 6))
  | 0x3C => parse3 w (fun d x p => .bfi b d x p (fld w 0 6))
  | 0x3D => parse2 w (fun d x => .sext b d x (fld w 0 6))
  | 0x3E => parse2 w (fun d x => .zext b d x (fld w 0 6))
  | 0x3F => parse2 w (.mov b)
  | op =>
    match b with
    | .sa => .error .illegalBundle
    | .sb =>
      match op with
      | 0x40 => parse3 w (fun d x y => .ld d x y (decMem w))
      | 0x41 => parse3s w (fun v x y => .st v x y (decMem w))
      | 0x42 => parse3 w (fun d x y => .ldsp d x y (fld w 8 2) (bit w 1))
      | 0x43 => parse3s w (fun v x y => .stsp v x y (fld w 8 2))
      | 0x44 => parse3 w (fun d a v => .amo d a v (fld w 6 4) (fld w 4 2) (bit w 3) (fld w 0 3))
      | 0x45 => .ok (.fence (fld w 6 2) (fld w 3 3) (bit w 2))
      | 0x46 => .ok (.fenceCode (fld w 3 3))
      | 0x47 => .ok .isync
      | 0x48 => do let v ← src w 30; let x ← src w 20; .ok (.spst v x (fld w 8 2))
      | 0x49 => parse2 w (fun d x => .spld d x (fld w 8 2))
      | 0x50 => do let d ← dst w 30; .ok (.srd d (fld w 0 10))
      | 0x51 => do let a ← src w 20; .ok (.swr a (fld w 0 10))
      | 0x52 => do let a ← src w 20; .ok (.cycest a)
      | 0x53 => do let a ← src w 20; .ok (.setprio a)
      | _ => .error .illegalBundle

/-! ### VX bay (R67, R76, R123) -/

/-- A VX bay from its nine fields. -/
def packVX (op : BitVec 8) (h : VHdr) (d s1 s2 s3 : BitVec 10) (md : BitVec 7) : BitVec 64 :=
  op ++ h.ty ++ d ++ s1 ++ s2 ++ s3 ++ h.msk ++ h.rnd ++ md

/-- Three operands. -/
def encV3 (op : BitVec 8) (h : VHdr) (d a b : Opd) (md : BitVec 7) : BitVec 64 :=
  packVX op h (encOpd d) (encOpd a) (encOpd b) 0 md

/-- Two operands. -/
def encV2 (op : BitVec 8) (h : VHdr) (d a : Opd) (md : BitVec 7) : BitVec 64 := packVX op h (encOpd d) (encOpd a) 0 0 md

/-- Four operands. -/
def encV4 (op : BitVec 8) (h : VHdr) (d a b c : Opd) (md : BitVec 7) : BitVec 64 :=
  packVX op h (encOpd d) (encOpd a) (encOpd b) (encOpd c) md

/-- The VX bay of an instruction. -/
def encodeVX : Instr → Option (BitVec 64)
  | .vadd h d a b sat => some (encV3 0x01 h d a b (0#6 ++ b1 sat))
  | .vsub h d a b sat => some (encV3 0x02 h d a b (0#6 ++ b1 sat))
  | .vmul h d a b sat => some (encV3 0x03 h d a b (0#6 ++ b1 sat))
  | .vfma h d a b c => some (encV4 0x04 h d a b c 0)
  | .vfms h d a b c => some (encV4 0x05 h d a b c 0)
  | .vneg h d a sat => some (encV2 0x06 h d a (0#6 ++ b1 sat))
  | .vabs h d a sat => some (encV2 0x07 h d a (0#6 ++ b1 sat))
  | .vmin h d a b => some (encV3 0x08 h d a b 0)
  | .vmax h d a b => some (encV3 0x09 h d a b 0)
  | .vrcp h d a => some (encV2 0x10 h d a 0)
  | .vrsq h d a => some (encV2 0x11 h d a 0)
  | .vsqrt h d a => some (encV2 0x12 h d a 0)
  | .vexp2 h d a => some (encV2 0x13 h d a 0)
  | .vlog2 h d a => some (encV2 0x14 h d a 0)
  | .vcmp h d a b mw cc => some (encV3 0x18 h d a b (mw ++ cc))
  | .vsel h d a b c => some (encV4 0x19 h d a b c 0)
  | .vand h d a b => some (encV3 0x20 h d a b 0)
  | .vor h d a b => some (encV3 0x21 h d a b 0)
  | .vxor h d a b => some (encV3 0x22 h d a b 0)
  | .vnot h d a => some (encV2 0x23 h d a 0)
  | .vshl h d a b => some (encV3 0x24 h d a b 0)
  | .vshr h d a b => some (encV3 0x25 h d a b 0)
  | .vshra h d a b => some (encV3 0x26 h d a b 0)
  | .vcvt h d a p s => some (encV2 0x28 h d a (p ++ s))
  | .vquant h d a s z p fp => some (encV4 0x29 h d a s z (p ++ b1 fp ++ 0#3))
  | .vredsum h d a w sat => some (encV2 0x30 h d a (0#5 ++ b1 w ++ b1 sat))
  | .vredmax h d a w => some (encV2 0x31 h d a (0#5 ++ b1 w ++ 0#1))
  | .vredmin h d a w => some (encV2 0x32 h d a (0#5 ++ b1 w ++ 0#1))
  | .vscan h d a sat op => some (encV2 0x33 h d a (0#4 ++ b1 sat ++ op))
  | .vperm h d a i => some (encV3 0x38 h d a i 0)
  | .vbcast h d a n => some (encV3 0x39 h d a n 0)
  | .vslide h d a b s => some (encV4 0x3A h d a b s 0)
  | .viota h d a b => some (encV3 0x3B h d a b 0)
  | .vpack h d a b sat => some (encV3 0x3C h d a b (0#6 ++ b1 sat))
  | .vunpack h d a p => some (encV2 0x3D h d a (0#6 ++ b1 p))
  | .vld h d a off => some (encV2 0x40 h d a off)
  | .vst h v a off => some (encV2 0x41 h v a off)
  | .vgather h d a i => some (encV3 0x42 h d a i 0)
  | .vmov h d a => some (encV2 0x43 h d a 0)
  | .mand md ma mb => some (packVX 0x48 ⟨0, ma, 0⟩ 0 0 0 0 (md ++ 0#1 ++ mb))
  | .mor md ma mb => some (packVX 0x49 ⟨0, ma, 0⟩ 0 0 0 0 (md ++ 0#1 ++ mb))
  | .mnot md ma => some (packVX 0x4A ⟨0, ma, 0⟩ 0 0 0 0 (md ++ 0#4))
  | .mpopc d ma => some (packVX 0x4B ⟨0, ma, 0⟩ (encOpd d) 0 0 0 0)
  | .vosm h d p q st out => some (encV4 0x50 h d p q st (0#6 ++ b1 out))
  | _ => none

/-- The shared fields of a VX bay. -/
def decVH (w : BitVec 64) : VHdr := { ty := fld w 52 4, msk := fld w 9 3, rnd := fld w 7 2 }

/-- A parsed vector form with two sources. -/
def parseV3 (w : BitVec 64) (f : VHdr → Opd → Opd → Opd → Instr) : Except DecErr Instr := do
  let d ← dst w 42
  let a ← src w 32
  let b ← src w 22
  .ok (f (decVH w) d a b)

/-- A parsed vector form with one source. -/
def parseV2 (w : BitVec 64) (f : VHdr → Opd → Opd → Instr) : Except DecErr Instr := do
  let d ← dst w 42
  let a ← src w 32
  .ok (f (decVH w) d a)

/-- A parsed vector form with three sources. -/
def parseV4 (w : BitVec 64) (f : VHdr → Opd → Opd → Opd → Opd → Instr) : Except DecErr Instr := do
  let d ← dst w 42
  let a ← src w 32
  let b ← src w 22
  let c ← src w 12
  .ok (f (decVH w) d a b c)

/-- The instruction a VX bay's opcode names. -/
def parseVX (w : BitVec 64) : Except DecErr Instr :=
  match (fld w 56 8).toNat with
  | 0x01 => parseV3 w (fun h d a b => .vadd h d a b (bit w 0))
  | 0x02 => parseV3 w (fun h d a b => .vsub h d a b (bit w 0))
  | 0x03 => parseV3 w (fun h d a b => .vmul h d a b (bit w 0))
  | 0x04 => parseV4 w .vfma
  | 0x05 => parseV4 w .vfms
  | 0x06 => parseV2 w (fun h d a => .vneg h d a (bit w 0))
  | 0x07 => parseV2 w (fun h d a => .vabs h d a (bit w 0))
  | 0x08 => parseV3 w .vmin
  | 0x09 => parseV3 w .vmax
  | 0x10 => parseV2 w .vrcp
  | 0x11 => parseV2 w .vrsq
  | 0x12 => parseV2 w .vsqrt
  | 0x13 => parseV2 w .vexp2
  | 0x14 => parseV2 w .vlog2
  | 0x18 => parseV3 w (fun h d a b => .vcmp h d a b (fld w 4 3) (fld w 0 4))
  | 0x19 => parseV4 w .vsel
  | 0x20 => parseV3 w .vand
  | 0x21 => parseV3 w .vor
  | 0x22 => parseV3 w .vxor
  | 0x23 => parseV2 w .vnot
  | 0x24 => parseV3 w .vshl
  | 0x25 => parseV3 w .vshr
  | 0x26 => parseV3 w .vshra
  | 0x28 => parseV2 w (fun h d a => .vcvt h d a (fld w 4 3) (fld w 0 4))
  | 0x29 => parseV4 w (fun h d a s z => .vquant h d a s z (fld w 4 3) (bit w 3))
  | 0x30 => parseV2 w (fun h d a => .vredsum h d a (bit w 1) (bit w 0))
  | 0x31 => parseV2 w (fun h d a => .vredmax h d a (bit w 1))
  | 0x32 => parseV2 w (fun h d a => .vredmin h d a (bit w 1))
  | 0x33 => parseV2 w (fun h d a => .vscan h d a (bit w 2) (fld w 0 2))
  | 0x38 => parseV3 w .vperm
  | 0x39 => parseV3 w .vbcast
  | 0x3A => parseV4 w .vslide
  | 0x3B => parseV3 w .viota
  | 0x3C => parseV3 w (fun h d a b => .vpack h d a b (bit w 0))
  | 0x3D => parseV2 w (fun h d a => .vunpack h d a (bit w 0))
  | 0x40 => parseV2 w (fun h d a => .vld h d a (fld w 0 7))
  | 0x41 => do let v ← src w 42; let a ← src w 32; .ok (.vst (decVH w) v a (fld w 0 7))
  | 0x42 => parseV3 w .vgather
  | 0x43 => parseV2 w .vmov
  | 0x48 => .ok (.mand (fld w 4 3) (fld w 9 3) (fld w 0 3))
  | 0x49 => .ok (.mor (fld w 4 3) (fld w 9 3) (fld w 0 3))
  | 0x4A => .ok (.mnot (fld w 4 3) (fld w 9 3))
  | 0x4B => do let d ← dst w 42; .ok (.mpopc d (fld w 9 3))
  | 0x50 => parseV4 w (fun h d p q st => .vosm h d p q st (bit w 0))
  | _ => .error .illegalBundle

/-! ### MX, SL and CX bays (R69 to R73) -/

/-- The command header above a 47-bit payload (R70). -/
def packCmd (op : BitVec 8) (h : CmdHdr) (pay : BitVec 47) : BitVec 96 :=
  op ++ b1 h.we ++ h.wsem ++ h.wthr ++ b1 h.wc ++ h.ssem ++ h.sinc ++ b1 h.tv ++ h.tok ++ pay

/-- The command header read from a bay. -/
def decHdr (w : BitVec 96) : CmdHdr :=
  { we := bit w 87, wsem := fld w 79 8, wthr := fld w 67 12, wc := bit w 66, ssem := fld w 58 8, sinc := fld w 54 4,
    tv := bit w 53, tok := fld w 47 6 }

/-- The payload of `MMA` and `MDIST` (R150). -/
def encMma (p : MmaPay) : BitVec 47 :=
  b1 p.eng ++ p.fmt ++ p.acc ++ encOpd p.a ++ encOpd p.b ++ encOpd p.msk ++ b1 p.ac ++ b1 p.sga ++ b1 p.sgb ++ b1 p.sat
    ++ p.prec

/-- The payload of `MMA` and `MDIST` read from a bay. -/
def parseMma (w : BitVec 96) (f : CmdHdr → MmaPay → Instr) : Except DecErr Instr := do
  let a ← src w 26
  let b ← src w 16
  let m ← src w 6
  .ok (f (decHdr w)
    { eng := bit w 46, fmt := fld w 41 5, acc := fld w 36 5, a := a, b := b, msk := m, ac := bit w 5, sga := bit w 4,
      sgb := bit w 3, sat := bit w 2, prec := fld w 0 2 })

/-- The MX bay of an instruction. -/
def encodeMX : Instr → Option (BitVec 96)
  | .mma h p => some (packCmd 0x01 h (encMma p))
  | .mdist h p => some (packCmd 0x02 h (encMma p))
  | .mtopk h e fmt da sa base km dir init mk =>
      some (packCmd 0x03 h (b1 e ++ fmt ++ da ++ sa ++ encOpd base ++ km ++ b1 dir ++ b1 init ++ encOpd mk ++ 0#6))
  | .mzero h e am => some (packCmd 0x04 h (b1 e ++ 0#5 ++ am ++ 0#9))
  | .mdrain h e fmt acc d mk mode rnd sc za =>
      some (packCmd 0x05 h (b1 e ++ fmt ++ acc ++ encOpd d ++ encOpd mk ++ mode ++ rnd ++ sc ++ b1 za))
  | .mldacc h e fmt acc s mk mode bro =>
      some (packCmd 0x06 h (b1 e ++ fmt ++ acc ++ encOpd s ++ encOpd mk ++ mode ++ b1 bro ++ 0#12))
  | _ => none

/-- The instruction an MX bay's opcode names. -/
def parseMX (w : BitVec 96) : Except DecErr Instr :=
  match (fld w 88 8).toNat with
  | 0x01 => parseMma w .mma
  | 0x02 => parseMma w .mdist
  | 0x03 => do
    let base ← src w 21
    let mk ← src w 6
    .ok (.mtopk (decHdr w) (bit w 46) (fld w 41 5) (fld w 36 5) (fld w 31 5) base (fld w 18 3) (bit w 17) (bit w 16) mk)
  | 0x04 => .ok (.mzero (decHdr w) (bit w 46) (fld w 9 32))
  | 0x05 => do
    let d ← dst w 26
    let mk ← src w 16
    .ok (.mdrain (decHdr w) (bit w 46) (fld w 41 5) (fld w 36 5) d mk (fld w 13 3) (fld w 11 2) (fld w 1 10) (bit w 0))
  | 0x06 => do
    let s ← src w 26
    let mk ← src w 16
    .ok (.mldacc (decHdr w) (bit w 46) (fld w 41 5) (fld w 36 5) s mk (fld w 13 3) (bit w 12))
  | _ => .error .illegalBundle

/-- The SL bay of an instruction (R69, R159). -/
def encodeSL : Instr → Option (BitVec 32)
  | .sld e entry a size => some (0x01#5 ++ b1 e ++ entry ++ encOpd a ++ 0#4 ++ size)
  | .sfmt e entry cv => some (0x02#5 ++ b1 e ++ entry ++ 0#10 ++ 0#4 ++ cv)
  | _ => none

/-- The instruction an SL bay's opcode names. -/
def parseSL (w : BitVec 32) : Except DecErr Instr :=
  match (fld w 27 5).toNat with
  | 0x01 => do let a ← src w 6; .ok (.sld (bit w 26) (fld w 16 10) a (fld w 0 2))
  | 0x02 => .ok (.sfmt (bit w 26) (fld w 16 10) (fld w 0 2))
  | _ => .error .illegalBundle

/-- The payload of a command that names two shape records (R73). -/
def encSh (s0 s1 : BitVec 16) (fmt : BitVec 5) (ca : Option Opd) : BitVec 47 := s0 ++ s1 ++ fmt ++ encOpt ca

/-- An operand field above a payload of zeros. -/
def encHi (o : Opd) : BitVec 47 := encOpd o ++ 0#37

/-- A queue field above a payload of zeros. -/
def encQ (q : BitVec 5) : BitVec 47 := q ++ 0#42

/-- The CX bay of an instruction. -/
def encodeCX : Instr → Option (BitVec 96)
  | .cpy h a b f ca => some (packCmd 0x01 h (encSh a b f ca))
  | .cpyg h a b ca => some (packCmd 0x02 h (encSh a b 0 ca))
  | .cpys h a b ca => some (packCmd 0x03 h (encSh a b 0 ca))
  | .cpyx h a b ca => some (packCmd 0x04 h (encSh a b 0 ca))
  | .cpysc h a b ca => some (packCmd 0x05 h (encSh a b 0 ca))
  | .cplan h s0 ca => some (packCmd 0x06 h (encOpd s0 ++ encOpt ca ++ 0#27))
  | .cstep h n => some (packCmd 0x07 h (encHi n))
  | .subs h a b ca => some (packCmd 0x08 h (encSh a b 0 ca))
  | .unsubs h q => some (packCmd 0x09 h (encQ q))
  | .callred h a b ca => some (packCmd 0x10 h (encSh a b 0 ca))
  | .cred h a b ca => some (packCmd 0x11 h (encSh a b 0 ca))
  | .cbc h a b ca => some (packCmd 0x12 h (encSh a b 0 ca))
  | .cag h a b ca => some (packCmd 0x13 h (encSh a b 0 ca))
  | .crsc h a b ca => some (packCmd 0x14 h (encSh a b 0 ca))
  | .opwait h i => some (packCmd 0x18 h (encHi i))
  | .opcancel h i => some (packCmd 0x19 h (encHi i))
  | .opdetach h i => some (packCmd 0x1A h (encHi i))
  | .opadopt h i => some (packCmd 0x1B h (encHi i))
  | .opquery h i => some (packCmd 0x1C h (encHi i))
  | .qinit h q base lsz lc sc => some (packCmd 0x20 h (q ++ encOpd base ++ lsz ++ lc ++ sc ++ 0#21))
  | .qspliceSend h ql qr die x y => some (packCmd 0x21 h (ql ++ qr ++ 0#1 ++ die ++ x ++ y ++ 0#27))
  | .qspliceRecv h ql qr die x y => some (packCmd 0x21 h (ql ++ qr ++ 1#1 ++ die ++ x ++ y ++ 0#27))
  | .qunsplice h q => some (packCmd 0x22 h (encQ q))
  | .qreset h q f => some (packCmd 0x23 h (q ++ b1 f ++ 0#41))
  | .qstat h q => some (packCmd 0x24 h (encQ q))
  | .qpush h q a => some (packCmd 0x25 h (q ++ encOpd a ++ 0#32))
  | .qpop h q a => some (packCmd 0x26 h (q ++ encOpd a ++ 0#32))
  | .binit h b => some (packCmd 0x28 h (b ++ 0#39))
  | .bexpect h b n => some (packCmd 0x29 h (b ++ encOpd n ++ 0#29))
  | .barrive h b n r c => some (packCmd 0x2A h (b ++ encOpd n ++ b1 r ++ c ++ 0#24))
  | .bwait h b p => some (packCmd 0x2B h (b ++ encOpt p ++ b1 p.isNone ++ 0#28))
  | .bclear h b f => some (packCmd 0x2C h (b ++ b1 f ++ 0#38))
  | .bufdecl h k base size tag => some (packCmd 0x2D h (k ++ encOpd base ++ encOpd size ++ tag ++ 0#19))
  | .bufset h k st f => some (packCmd 0x2E h (k ++ st ++ b1 f ++ 0#38))
  | .bqpost h qb d ca => some (packCmd 0x30 h (encOpd qb ++ encOpd d ++ encOpt ca ++ 0#17))
  | .buprog h va sp => some (packCmd 0x31 h (encOpd va ++ encOpd sp ++ 0#27))
  | .burun h va d lim => some (packCmd 0x32 h (encOpd va ++ encOpd d ++ encOpd lim ++ 0#17))
  | .bustat h va => some (packCmd 0x33 h (encHi va))
  | .tlaunch h r => some (packCmd 0x38 h (encHi r))
  | .tdep h i => some (packCmd 0x39 h (encHi i))
  | .lease h e c w fb => some (packCmd 0x3A h (e ++ 0#1 ++ c ++ encOpd w ++ encOpd fb ++ 0#20))
  | .leaseRcl h => some (packCmd 0x3A h (0#2 ++ 1#1 ++ 0#44))
  | .lfree h e => some (packCmd 0x3B h (e ++ 0#45))
  | .publish h w => some (packCmd 0x3C h (w ++ 0#44))
  | _ => none

/-- A parsed command that names two shape records. -/
def parseSh (w : BitVec 96) (f : CmdHdr → BitVec 16 → BitVec 16 → Option Opd → Instr) : Except DecErr Instr := do
  let ca ← optSrc w 0
  .ok (f (decHdr w) (fld w 31 16) (fld w 15 16) ca)

/-- A parsed command with one operand at [46:37]. -/
def parseHi (w : BitVec 96) (f : CmdHdr → Opd → Instr) : Except DecErr Instr := do
  let o ← src w 37
  .ok (f (decHdr w) o)

/-- The instruction a CX bay's opcode names. -/
def parseCX (w : BitVec 96) : Except DecErr Instr :=
  match (fld w 88 8).toNat with
  | 0x01 => do let ca ← optSrc w 0; .ok (.cpy (decHdr w) (fld w 31 16) (fld w 15 16) (fld w 10 5) ca)
  | 0x02 => parseSh w .cpyg
  | 0x03 => parseSh w .cpys
  | 0x04 => parseSh w .cpyx
  | 0x05 => parseSh w .cpysc
  | 0x06 => do let s0 ← src w 37; let ca ← optSrc w 27; .ok (.cplan (decHdr w) s0 ca)
  | 0x07 => parseHi w .cstep
  | 0x08 => parseSh w .subs
  | 0x09 => .ok (.unsubs (decHdr w) (fld w 42 5))
  | 0x10 => parseSh w .callred
  | 0x11 => parseSh w .cred
  | 0x12 => parseSh w .cbc
  | 0x13 => parseSh w .cag
  | 0x14 => parseSh w .crsc
  | 0x18 => parseHi w .opwait
  | 0x19 => parseHi w .opcancel
  | 0x1A => parseHi w .opdetach
  | 0x1B => parseHi w .opadopt
  | 0x1C => parseHi w .opquery
  | 0x20 => do
    let base ← src w 32
    .ok (.qinit (decHdr w) (fld w 42 5) base (fld w 27 5) (fld w 24 3) (fld w 21 3))
  | 0x21 =>
    if bit w 36 then .ok (.qspliceRecv (decHdr w) (fld w 42 5) (fld w 37 5) (fld w 33 3) (fld w 30 3) (fld w 27 3))
    else .ok (.qspliceSend (decHdr w) (fld w 42 5) (fld w 37 5) (fld w 33 3) (fld w 30 3) (fld w 27 3))
  | 0x22 => .ok (.qunsplice (decHdr w) (fld w 42 5))
  | 0x23 => .ok (.qreset (decHdr w) (fld w 42 5) (bit w 41))
  | 0x24 => .ok (.qstat (decHdr w) (fld w 42 5))
  | 0x25 => do let a ← src w 32; .ok (.qpush (decHdr w) (fld w 42 5) a)
  | 0x26 => do let a ← src w 32; .ok (.qpop (decHdr w) (fld w 42 5) a)
  | 0x28 => .ok (.binit (decHdr w) (fld w 39 8))
  | 0x29 => do let n ← src w 29; .ok (.bexpect (decHdr w) (fld w 39 8) n)
  | 0x2A => do let n ← src w 29; .ok (.barrive (decHdr w) (fld w 39 8) n (bit w 28) (fld w 24 4))
  | 0x2B =>
    if bit w 28 then .ok (.bwait (decHdr w) (fld w 39 8) none)
    else do let p ← src w 29; .ok (.bwait (decHdr w) (fld w 39 8) (some p))
  | 0x2C => .ok (.bclear (decHdr w) (fld w 39 8) (bit w 38))
  | 0x2D => do
    let base ← src w 32
    let size ← src w 22
    .ok (.bufdecl (decHdr w) (fld w 42 5) base size (fld w 19 3))
  | 0x2E => .ok (.bufset (decHdr w) (fld w 42 5) (fld w 39 3) (bit w 38))
  | 0x30 => do
    let qb ← src w 37
    let d ← src w 27
    let ca ← optSrc w 17
    .ok (.bqpost (decHdr w) qb d ca)
  | 0x31 => do let va ← src w 37; let sp ← src w 27; .ok (.buprog (decHdr w) va sp)
  | 0x32 => do let va ← src w 37; let d ← src w 27; let l ← src w 17; .ok (.burun (decHdr w) va d l)
  | 0x33 => parseHi w .bustat
  | 0x38 => parseHi w .tlaunch
  | 0x39 => parseHi w .tdep
  | 0x3A =>
    if bit w 44 then .ok (.leaseRcl (decHdr w))
    else do
      let n ← src w 30
      let fb ← src w 20
      .ok (.lease (decHdr w) (fld w 45 2) (fld w 40 4) n fb)
  | 0x3B => .ok (.lfree (decHdr w) (fld w 45 2))
  | 0x3C => .ok (.publish (decHdr w) (fld w 44 3))
  | _ => .error .illegalBundle

/-! ### Micro-ops (R310) -/

/-- A micro-op from its five fields. -/
def packBU (op : BitVec 5) (d a b : BitVec 3) (imm : BitVec 18) : BitVec 32 := op ++ d ++ a ++ b ++ imm

/-- The 32 bits of a micro-op. -/
def encodeBU : Instr → Option (BitVec 32)
  | .buhalt => some (packBU 0x00 0 0 0 0)
  | .burow => some (packBU 0x01 0 0 0 0)
  | .buldw d w => some (packBU 0x02 d 0 0 (0#13 ++ w))
  | .buwid d off fmt => some (packBU 0x03 d 0 0 (fmt ++ 0#3 ++ off))
  | .bufadd d a b => some (packBU 0x04 d a b 0)
  | .bufmul d a b => some (packBU 0x05 d a b 0)
  | .bufmax d a b => some (packBU 0x06 d a b 0)
  | .bufma d a b => some (packBU 0x07 d a b 0)
  | .buiadd d a b => some (packBU 0x08 d a b 0)
  | .bubc d a j => some (packBU 0x09 d a 0 (0#15 ++ j))
  | .bursum d a => some (packBU 0x0A d a 0 0)
  | .buexp d a => some (packBU 0x0B d a 0 0)
  | .buzero d => some (packBU 0x0C d 0 0 0)
  | .busetlc n => some (packBU 0x0D 0 0 0 (0#2 ++ n))
  | .buloop j => some (packBU 0x0E 0 0 0 (0#12 ++ j))
  | .buemit a => some (packBU 0x0F 0 a 0 0)
  | _ => none

/-- The micro-op a UOP names. -/
def parseBU (w : BitVec 32) : Except DecErr Instr :=
  let d := fld w 24 3
  let a := fld w 21 3
  let b := fld w 18 3
  match (fld w 27 5).toNat with
  | 0x00 => .ok .buhalt
  | 0x01 => .ok .burow
  | 0x02 => .ok (.buldw d (fld w 0 5))
  | 0x03 => .ok (.buwid d (fld w 0 10) (fld w 13 5))
  | 0x04 => .ok (.bufadd d a b)
  | 0x05 => .ok (.bufmul d a b)
  | 0x06 => .ok (.bufmax d a b)
  | 0x07 => .ok (.bufma d a b)
  | 0x08 => .ok (.buiadd d a b)
  | 0x09 => .ok (.bubc d a (fld w 0 3))
  | 0x0A => .ok (.bursum d a)
  | 0x0B => .ok (.buexp d a)
  | 0x0C => .ok (.buzero d)
  | 0x0D => .ok (.busetlc (fld w 0 16))
  | 0x0E => .ok (.buloop (fld w 0 6))
  | 0x0F => .ok (.buemit a)
  | _ => .error .illegalBundle

/-! ### One bay -/

/-- The encoding of an instruction: its bay and its bits. Device events have none. -/
def encode (i : Instr) : Option Enc :=
  match encodeBR i with
  | some w => some (.br w)
  | none =>
    match encodeAB i with
    | some (.sa, w) => some (.sa w)
    | some (.sb, w) => some (.sb w)
    | none =>
      match encodeVX i with
      | some w => some (.vx w)
      | none =>
        match encodeMX i with
        | some w => some (.mx w)
        | none =>
          match encodeCX i with
          | some w => some (.cx w)
          | none =>
            match encodeSL i with
            | some w => some (.sl w)
            | none =>
              match encodeBU i with
              | some w => some (.bu w)
              | none => if i = .headerOnlyBundle then some .hdr else none

/-- The instruction a bay's opcode names, its unused fields not yet checked. -/
def parse : Enc → Except DecErr Instr
  | .br w => parseBR w
  | .sa w => parseAB .sa w
  | .sb w => parseAB .sb w
  | .vx w => parseVX w
  | .mx w => parseMX w
  | .cx w => parseCX w
  | .sl w => parseSL w
  | .bu w => parseBU w
  | .hdr => .ok .headerOnlyBundle

/-- The decoder of one bay: ILLEGAL_BUNDLE for an opcode the bay does not hold, RESERVED_FIELD for a field or operand
the entry does not admit (R79). -/
def decode (e : Enc) : Except DecErr Instr :=
  match parse e with
  | .error r => .error r
  | .ok i => if encode i = some e && i.wf then .ok i else .error .reservedField

/-! ### Bundles (R59, R60) -/

/-- A decoded bundle: its T mark, its IDLE count, its bays in the order of header bits, its presence mask and its
length in bytes. -/
structure Bundle where
  target : Bool
  idle : BitVec 4
  mask : BitVec 7
  bays : List Instr
  len : Nat
  deriving DecidableEq, Repr

/-- The little-endian value of some bytes (R8). -/
def leNat : List Byte → Nat
  | [] => 0
  | b :: bs => b.toNat + 256 * leNat bs

/-- The low `n` bytes of a number, lowest first (R8). -/
def leBytes : Nat → Nat → List Byte
  | 0, _ => []
  | n + 1, v => BitVec.ofNat 8 v :: leBytes n (v / 256)

/-- The width of a bay in bytes (R60). -/
def bayBytes : Nat → Nat
  | 0 => 4
  | 1 | 2 => 6
  | 3 => 8
  | 4 | 5 => 12
  | _ => 4

/-- Bay number `k` of the header, from its bits. -/
def bayEnc (k v : Nat) : Enc :=
  match k with
  | 0 => .br (BitVec.ofNat 32 v)
  | 1 => .sa (BitVec.ofNat 48 v)
  | 2 => .sb (BitVec.ofNat 48 v)
  | 3 => .vx (BitVec.ofNat 64 v)
  | 4 => .mx (BitVec.ofNat 96 v)
  | 5 => .cx (BitVec.ofNat 96 v)
  | _ => .sl (BitVec.ofNat 32 v)

/-- The length of a bundle in bytes, from its header (R60). -/
def bundleLen (hdr : BitVec 16) : Nat :=
  2 + ((List.range 7).map (fun k => if bit hdr k then bayBytes k else 0)).foldl (· + ·) 0

/-- The bays named in `ks`, decoded one after another from `bs`. -/
def decodeBays (hdr : BitVec 16) : List Nat → List Byte → Except DecErr (List (Except DecErr Instr))
  | [], _ => .ok []
  | k :: ks, bs =>
    if bit hdr k then
      if bs.length < bayBytes k then .error .truncated
      else do
        let rest ← decodeBays hdr ks (bs.drop (bayBytes k))
        .ok (decode (bayEnc k (leNat (bs.take (bayBytes k)))) :: rest)
    else decodeBays hdr ks bs

/-- Every bay's instruction, when all of them decode. -/
def collectBays : List (Except DecErr Instr) → List Instr
  | [] => []
  | .ok i :: rest => i :: collectBays rest
  | .error _ :: rest => collectBays rest

/-- The decoder of a bundle, total on any bytes. ILLEGAL_BUNDLE is found before RESERVED_FIELD (R86). -/
def decodeBundle (bs : List Byte) : Except DecErr Bundle :=
  match bs with
  | b0 :: b1 :: rest =>
    let hdr : BitVec 16 := BitVec.ofNat 16 (b0.toNat + 256 * b1.toNat)
    match decodeBays hdr (List.range 7) rest with
    | .error r => .error r
    | .ok rs =>
      if rs.any (fun r => r == .error .illegalBundle) then .error .illegalBundle
      else if fld hdr 12 4 ≠ 0#4 || rs.any (fun r => r == .error .reservedField) then .error .reservedField
      else
        .ok { target := bit hdr 7, idle := fld hdr 8 4, mask := fld hdr 0 7, bays := collectBays rs, len := bundleLen hdr }
  | _ => .error .truncated

/-- What the bays of a bundle name that does not decode (R16, R86): every bay whose opcode is assigned, whatever its other
fields hold. Such a bundle waits for its sources, and is held to the limits of R15 and R81, before its fault is raised. -/
def namedBays (hdr : BitVec 16) : List Nat → List Byte → List Instr
  | [], _ => []
  | k :: ks, bs =>
    if bit hdr k then
      let rest := namedBays hdr ks (bs.drop (bayBytes k))
      match parse (bayEnc k (leNat (bs.take (bayBytes k)))) with
      | .ok i => i :: rest
      | .error _ => rest
    else namedBays hdr ks bs

/-- The bays of a bundle as far as they can be read. -/
def bundleBays (bs : List Byte) : List Instr :=
  match decodeBundle bs with
  | .ok b => b.bays
  | .error _ => namedBays (BitVec.ofNat 16 (leNat (bs.take 2))) (List.range 7) (bs.drop 2)

/-- The bytes of a bundle: header, then the bays in order (R60). -/
def bayOf : Enc → Option (Nat × List Byte)
  | .br w => some (0, leBytes 4 w.toNat)
  | .sa w => some (1, leBytes 6 w.toNat)
  | .sb w => some (2, leBytes 6 w.toNat)
  | .vx w => some (3, leBytes 8 w.toNat)
  | .mx w => some (4, leBytes 12 w.toNat)
  | .cx w => some (5, leBytes 12 w.toNat)
  | .sl w => some (6, leBytes 4 w.toNat)
  | .bu _ | .hdr => none

/-- The bytes of a bundle that holds one bay, or of a header-only bundle. -/
def oneBayBundle (target : Bool) (idle : BitVec 4) (e : Enc) : List Byte :=
  let hdr := fun (m : Nat) => leBytes 2 (m + (if target then 128 else 0) + 256 * idle.toNat)
  match bayOf e with
  | some (k, bs) => hdr (2 ^ k) ++ bs
  | none => hdr 0

/-! ### Words of the opcode table -/

/-- The first decoding that succeeds. -/
def firstOk : List Enc → Option (Enc × Instr)
  | [] => none
  | e :: es =>
    match decode e with
    | .ok i => some (e, i)
    | .error _ => firstOk es

/-- The bays whose width is `nbits`, in the order in which a table word is tried: a 32-bit word is read as a BR bay,
then as an SL bay, then as a micro-op, since the same bits may be legal in more than one of them. -/
def tableEncs (nbits w : Nat) : List Enc :=
  match nbits with
  | 16 => if (BitVec.ofNat 16 w).extractLsb' 0 7 = 0#7 then [.hdr] else []
  | 32 => [.br (BitVec.ofNat 32 w), .sl (BitVec.ofNat 32 w), .bu (BitVec.ofNat 32 w)]
  | 48 => [.sa (BitVec.ofNat 48 w), .sb (BitVec.ofNat 48 w)]
  | 64 => [.vx (BitVec.ofNat 64 w)]
  | 96 => [.mx (BitVec.ofNat 96 w), .cx (BitVec.ofNat 96 w)]
  | _ => []

/-- The bay and instruction a table word stands for. -/
def decodeTableEnc (nbits w : Nat) : Option (Enc × Instr) := firstOk (tableEncs nbits w)

/-- The instruction the decoder reads from a word of the opcode table. -/
def decodeTableWord (nbits w : Nat) : Option Instr := (decodeTableEnc nbits w).map Prod.snd

end Sys2Proof
end

