-- ==== Sys2Proof/Config.lean ====
section
/-!
DEFINITION. What an implementation fixes and the spec leaves open. Every constant here is opaque: it has a type and no
value that a proof can see, so a claim holds for every value it could have (notes/assumptions/2, 6, 10, 14 and 23).
-/

namespace Sys2Proof.Config

/-- A number of cycles of an event whose time the spec bounds at most. The argument is the state's `free` counter. -/
opaque freeDelay : Nat → Nat

/-- A byte that the spec leaves undefined. The argument is the state's `free` counter. -/
opaque freeByte : Nat → Byte

/-- How the router stages pair what they combine, which follows the Switchyard's routes (R228). The argument is the state's
`free` counter. -/
opaque freeOrder : Nat → Nat

/-- Where and how the flags of a bank-unit run stand in its status word above the emit count, which R310 does not say. -/
opaque runFlags : BitVec 5 → BitVec 35

/-- The harvested compute site, fixed at manufacture (R1). -/
opaque harvestedSite : Fin 9

/-- The element an FP8 type's immediate is broadcast as, where R120 states none: TYPE and the immediate. -/
opaque immFp8 : BitVec 4 → BitVec 7 → BitVec 8

/-- The 16 bytes of the serial number (R371). -/
opaque serial : Nat → Byte

/-- The modulus of the device identity key (R371), byte by byte. -/
opaque deviceModulus : Nat → Byte

/-- The RSA-3072 signature of a message under the device identity key (R372), byte by byte. -/
opaque rsaSign : List Byte → Nat → Byte

/-- Whether an RSA-3072 signature verifies: modulus, message, signature (R367). -/
opaque rsaVerify : List Byte → List Byte → List Byte → Bool

/-- The key hash fused in the crown controller (R367). -/
opaque fusedKeyHash : List Byte

/-- The firmware images the package was made with (R366): for a KIND its VER, its SVN and its body. -/
opaque bootImage : Nat → BitVec 8 × BitVec 8 × List Byte

/-- The self-test log (R369), at most 2 KiB. -/
opaque selfTestLog : List Byte

end Sys2Proof.Config
end

