-- ==== Sys2Proof/Machine/Maps.lean ====
section
/-!
DEFINITION. The two sparse containers of the state, as plain lists in one canonical form: maps from numbers, and
memory as pairs of an address and a byte. Keys rise strictly, and no entry equals what an absent key reads as.
-/

namespace Sys2Proof.Machine

/-- A sparse map from numbers, sorted by key. -/
abbrev NMap (α : Type) := List (Nat × α)

/-- The value at a key, or `d` where the map lists nothing. -/
def NMap.get {α : Type} (d : α) : NMap α → Nat → α
  | [], _ => d
  | (k', v) :: m, k => if k' = k then v else NMap.get d m k

/-- The entry at a key, if the map lists one. -/
def NMap.find {α : Type} : NMap α → Nat → Option α
  | [], _ => none
  | (k', v) :: m, k => if k' = k then some v else NMap.find m k

/-- The map without a key. -/
def NMap.erase {α : Type} : NMap α → Nat → NMap α
  | [], _ => []
  | (k', v) :: m, k => if k' = k then NMap.erase m k else (k', v) :: NMap.erase m k

/-- Places an entry before the first greater key. -/
def NMap.place {α : Type} (k : Nat) (v : α) : NMap α → NMap α
  | [] => [(k, v)]
  | (k', v') :: m => if k < k' then (k, v) :: (k', v') :: m else (k', v') :: NMap.place k v m

/-- The map with a key bound to a value. -/
def NMap.set {α : Type} (m : NMap α) (k : Nat) (v : α) : NMap α := NMap.place k v (NMap.erase m k)

/-- The map with a key bound to a value, listing nothing where the value is what an absent key reads as. -/
def NMap.put {α : Type} [DecidableEq α] (d : α) (m : NMap α) (k : Nat) (v : α) : NMap α :=
  if v = d then NMap.erase m k else NMap.set m k v

/-- The keys of a map. -/
def NMap.keys {α : Type} (m : NMap α) : List Nat := m.map Prod.fst

/-- Every byte of storage the model holds: see `Addr` for how homes are numbered. -/
abbrev Memory := List Host.Cell

/-- What a byte that nothing has written reads as (notes/assumptions/4 and 5). -/
def Memory.blank : Byte := 0

/-- One byte. -/
def Memory.read (m : Memory) (a : Nat) : Byte := NMap.get Memory.blank m a

/-- Keys rise strictly and none is below `lo`. -/
def risingFrom {α : Type} (lo : Nat) : List (Nat × α) → Bool
  | [] => true
  | (k, _) :: m => decide (lo ≤ k) && risingFrom (k + 1) m

/-- The canonical form of memory. -/
def Memory.wf (m : Memory) : Bool := risingFrom 0 m && m.all (fun c => c.2 != Memory.blank)

/-- `n` bytes from an address upward, where memory lists nothing below the address. -/
def Memory.collect : Nat → Nat → Memory → List Byte
  | 0, _, _ => []
  | n + 1, a, [] => Memory.blank :: Memory.collect n (a + 1) []
  | n + 1, a, (k, v) :: m =>
    if k = a then v :: Memory.collect n (a + 1) m else Memory.blank :: Memory.collect n (a + 1) ((k, v) :: m)

/-- `n` bytes from an address upward. -/
def Memory.readN (m : Memory) (a n : Nat) : List Byte := Memory.collect n a (m.dropWhile (fun c => decide (c.1 < a)))

/-- What memory lists first, if it stands at an address, and the rest. -/
def Memory.uncons (a : Nat) : Memory → Byte × Memory
  | [] => (Memory.blank, [])
  | (k, v) :: m => if k = a then (v, m) else (Memory.blank, (k, v) :: m)

/-- A run of bytes laid over memory that lists nothing below the address; where the run has none, the byte stays. -/
def Memory.merge (a : Nat) : List (Option Byte) → Memory → Memory
  | [], m => m
  | b :: bs, m =>
    let v := b.getD (Memory.uncons a m).1
    let r := Memory.merge (a + 1) bs (Memory.uncons a m).2
    if v = Memory.blank then r else (a, v) :: r

/-- A run of bytes written from an address upward, of which some are left as they stand. -/
def Memory.writeMasked : Memory → Nat → List (Option Byte) → Memory
  | [], a, bs => Memory.merge a bs []
  | (k, v) :: m, a, bs => if k < a then (k, v) :: Memory.writeMasked m a bs else Memory.merge a bs ((k, v) :: m)

/-- A run of bytes written from an address upward. -/
def Memory.writeN (m : Memory) (a : Nat) (bs : List Byte) : Memory := m.writeMasked a (bs.map some)

/-- The bytes from `a` to `a + n - 1` set to the blank byte. -/
def Memory.clear (m : Memory) (a n : Nat) : Memory := m.filter (fun c => decide (c.1 < a) || decide (a + n ≤ c.1))

/-- The bytes of a region copied to another place. -/
def Memory.copyRegion (m : Memory) (src dst n : Nat) : Memory :=
  m.filter (fun c => decide (c.1 < dst))
    ++ (m.filter (fun c => decide (src ≤ c.1) && decide (c.1 < src + n))).map (fun c => (c.1 - src + dst, c.2))
    ++ m.filter (fun c => decide (dst + n ≤ c.1))

/-- What two runs of `n` keys hold, exchanged; the first stands below the second. -/
def NMap.swapRuns {α : Type} (m : NMap α) (a b n : Nat) : NMap α :=
  let cut (x : Nat) : NMap α := m.filter (fun c => decide (x ≤ c.1) && decide (c.1 < x + n))
  m.filter (fun c => decide (c.1 < a)) ++ (cut b).map (fun c => (c.1 - b + a, c.2))
    ++ m.filter (fun c => decide (a + n ≤ c.1) && decide (c.1 < b)) ++ (cut a).map (fun c => (c.1 - a + b, c.2))
    ++ m.filter (fun c => decide (b + n ≤ c.1))

/-! ### Where a byte lives (R250)

One number names every byte: `localMem d pa` is local memory of die d, `host a` is a byte of host memory, `pad n x` is
scratchpad of core n in the live halves of its banks, and `shadow n x` the same byte in the shadow halves (R20). -/

namespace Addr

def localMem (die pa : Nat) : Nat := die * 2 ^ 40 + pa
def host (a : Nat) : Nat := 2 ^ 64 + a
def pad (core x : Nat) : Nat := 2 ^ 65 + core * 2 ^ 22 + x
def shadow (core x : Nat) : Nat := 2 ^ 66 + core * 2 ^ 22 + x

end Addr

end Sys2Proof.Machine
end

