-- ==== Sys2Proof/Machine/State.lean ====
section
/-!
DEFINITION. The state of the package as plain data, and the state after reset. Time is the yard cycle counter of R7 and
R22: the machine is a list of what is due (`agenda`), and one step performs the first entry of it (notes/assumptions/1).
Every field whose reset value the spec does not give has the value notes/assumptions/3 names.
-/

namespace Sys2Proof.Machine

/-! ### What an instruction leaves behind while it is under way -/

/-- Where a result goes: nowhere, a register (numbered as `RegKey` numbers them), or a reserved queue slot (R167). -/
inductive Dest where
  | nowhere
  | reg (key : Nat)
  | slot (q c : Nat)
  deriving DecidableEq, Repr

/-- The home of an access after translation (R267). `loc` is local memory of a die; `host` is host memory;
`pub` is a byte of a publication window (R364). -/
inductive Tgt where
  | loc (die pa : Nat)
  | host (a : Nat)
  | pub (win a : Nat)
  deriving DecidableEq, Repr

/-- Kinds of entry in the scalar memory port (R99) and of the holds a fence leaves there (R104). -/
inductive MemKind where
  | load
  | store
  | amo
  | fence
  deriving DecidableEq, Repr

/-- How far an entry of the memory port has come: held by an acquire, a release, a fence or a page kind (R252 to R254);
queued at its pseudo-channel or its link; past its performing cycle. -/
inductive PStage where
  | held
  | queued
  | slotted
  | performed
  deriving DecidableEq, Repr

/-- An entry of the scalar memory port (R99): the access, what its release or acquire orders, and its place. `page` is the translation
it used: the page's first address, log2 of its size, and the handle of a peer window; `slotBad` is a slot among its sources that read
as uncorrectable (R166), `grp` and `idx` name the task it belongs to, `gone` says that this task is no longer on the core. -/
structure MemReq where
  id : Nat := 0
  grp : Nat := 0
  idx : Nat := 0
  page : Nat × Nat × Nat := (0, 0, 0)
  kind : MemKind := .load
  va : Nat := 0
  size : Nat := 8
  val : Word := 0
  cmp : Word := 0
  amo : Nat := 0
  sx : Bool := false
  dest : Dest := .nowhere
  acq : Bool := false
  rel : Bool := false
  uo : Bool := false
  scope : Nat := 0
  pageKind : Nat := 0
  tgt : Tgt := .host 0
  peer : Bool := false
  bundle : Nat := 0
  issued : Nat := 0
  slot : Nat := 0
  lat : Nat := 0
  stage : PStage := .held
  data : Word := 0
  err : Bool := false
  slotBad : Option Nat := none
  gone : Bool := false
  deriving DecidableEq, Repr

/-- An access whose translation a page walk is fetching, or that waits for its page (R98, R339): the bay's captured
source values. -/
structure Unfin where
  bay : Nat := 0
  req : MemReq := {}
  target : Option Nat := none
  deriving DecidableEq, Repr

/-- The replay buffer (R339): the bundle, the address after it, what its finished bays were, and its unfinished work. `freed` says that
what it waits for has come while its record waits for a slot of the trap queue (R340). -/
structure Replay where
  bundle : Nat := 0
  npc : Nat := 0
  bays : Nat := 0
  done : Nat := 0
  items : List Unfin := []
  code : Nat := 0
  tries : Nat := 0
  freed : Bool := false
  deriving DecidableEq, Repr

/-- A command handed to a unit (R85): the instruction, the operand values it read at issue, its bundle with the presence
mask, and its place in time.
`h fs fe s c dn` are the figures of R146 and are 0 until they are fixed; `busy` lists the queue slots it still reads, `lines`
the scratchpad lines it has still to read, `got` those it has read, `bad` the first that read as uncorrectable, `outs` the lines
an `MDRAIN` writes as masks and bytes. -/
structure Cmd where
  ins : Instr := .nop
  vals : List Word := []
  chans : List (Nat × Nat) := []
  ca : Word := 0
  t : Nat := 0
  bundle : Nat := 0
  mask : Nat := 0
  serial : Nat := 0
  op : Option Nat := none
  tok : Option Nat := none
  seq : Nat := 0
  grp : Nat := 0
  idx : Nat := 0
  prio : Nat := 0
  scales : List (BitVec 32) := []
  res : Option (Nat × Nat × Nat) := none
  noWait : Bool := false
  h : Nat := 0
  fs : Nat := 0
  fe : Nat := 0
  s : Nat := 0
  c : Nat := 0
  dn : Nat := 0
  code : Nat := 0
  detail : Nat := 0
  flags : BitVec 5 := 0
  busy : List (Nat × Nat) := []
  lines : List Nat := []
  got : List (Nat × List Byte) := []
  bad : Option Nat := none
  outs : List (Nat × List (Byte × Byte)) := []
  outPoison : List Nat := []
  uses : List Nat := []
  deriving DecidableEq, Repr

/-- Who a pending token register waits for (R187): an operation of the table, or a command without one (R71). -/
inductive TokOwner where
  | op (key : Nat)
  | cmd (serial : Nat)
  deriving DecidableEq, Repr

/-! ### The context's part of a core (R25) -/

/-- The states of a queue (R171). -/
inductive QState where
  | free
  | opened
  | pendS
  | send
  | pendR
  | recv
  | subsR
  | subsW
  | lost
  deriving DecidableEq, Repr

/-- A queue (R165). `pres` gives for a slot index the cycle from which the slot is present; `partner` is the core and
queue at the other end of a splice; `cr`, `sent` and `msgDue` are the sender's credits, appends made and last arrival posted, `reserved` the receiver's first
counter reserved for the sender; `unsent` counts its appends whose last byte is not on its way and `lastSend` is the cycle the
last byte left in; `quiet` is 3 while a save waits for its own appends to leave, 1 while it waits for the acknowledgement of its PAUSE, 2 from
then to the resume; `heldOut` are bytes of appends that a PAUSE keeps back, each with the slot's number and how its message is to be
sent; `hello` the serial of its splice; `sub` the operation of a subscription; `gen`
counts resets, so that an append in flight across one is known (R182); `owner` is the task that set it up (R171); `lostSend` says
that a LOST queue was the sender (R176). -/
structure Queue where
  base : Nat := 0
  size : Nat := 0
  count : Nat := 0
  scope : Nat := 0
  st : QState := .free
  paused : Bool := false
  head : Nat := 0
  tail : Nat := 0
  rel : Nat := 0
  pres : NMap Nat := []
  busy : NMap Nat := []
  partner : Option (Nat × Nat) := none
  cr : Nat := 0
  sent : Nat := 0
  unsent : Nat := 0
  lastSend : Nat := 0
  quiet : Nat := 0
  heldOut : List (Nat × Nat × List Byte × Bool × Bool) := []
  reserved : Nat := 0
  msgDue : Nat := 0
  hello : Nat := 0
  spliceTok : Option (Nat × Cmd) := none
  heldHello : List (Nat × Nat × Nat × Nat) := []
  sub : Option Nat := none
  gen : Nat := 0
  owner : Nat × Nat := (0, 0)
  lostSend : Bool := false
  deriving DecidableEq, Repr

/-- A byte-counting barrier (R232). -/
structure Barrier where
  st : Nat := 0
  pcode : Nat := 0
  posted : Bool := false
  phase : Nat := 0
  expected : Nat := 0
  arrived : Nat := 0
  deriving DecidableEq, Repr

/-- A waiter of a barrier (R243). -/
structure Waiter where
  bar : Nat
  phase : Nat
  cmd : Cmd
  deriving DecidableEq, Repr

/-- A declared buffer (R236) with its use count. -/
structure Buffer where
  v : Bool := false
  st : Nat := 0
  tag : Nat := 0
  size : Nat := 0
  base : Nat := 0
  use : Nat := 0
  deriving DecidableEq, Repr

/-- An entry of the lease table (R349). `readyFrom` is the cycle after the last write to the fallback area, `waits` the
`SPLD`s that wait for it under R107, each with its number, its destination, its value and its first ready cycle; `tok` is a `LEASE` whose grant has not landed, `owner` the task that issued it. -/
structure Lease where
  live : Bool := false
  rev : Bool := false
  core : Nat := 0
  words : Nat := 0
  fb : Nat := 0
  poolBase : Nat := 0
  readyFrom : Nat := 0
  tok : Option Cmd := none
  owner : Nat × Nat := (0, 0)
  waits : List (Nat × Dest × Word × Nat) := []
  deriving DecidableEq, Repr

/-- What a lender has lent: holder core, holder's entry, first word, count, and whether a `LEASE.rcl` takes it back (R350). -/
structure Lent where
  holder : Nat
  entry : Nat
  base : Nat
  words : Nat
  rcl : Bool := false
  deriving DecidableEq, Repr

/-! ### The task's part of a core (R12) -/

/-- What a core's task is doing (R26, R115, R339). `held` is RUNNING with issue stopped at a bundle, `saving` a task that is
being checkpointed and issues nothing more. -/
inductive TaskMode where
  | none
  | running
  | held
  | brk
  | parked
  | retiring
  | saving
  deriving DecidableEq, Repr

/-- The accumulators and the scale memory of one matrix engine (R141). Tile element (m, n) of tile i has key
256 i + 16 m + n; `parity` lists those whose parity bit does not fit their bits.
`wrote` gives for an accumulator the serial of the last finished command that wrote it and whether that was an `MMA` or `MDIST` (R147).
`q` holds the commands whose fetch has not started, `running` those after it in the order of the engine
sequence; `lastFe`, `lastS` and `lastC` are figures of the commands that left the sequence last (R146). -/
structure Engine where
  acc : NMap (BitVec 32) := []
  poison : NMap Bool := []
  parity : NMap Bool := []
  wrote : NMap (Nat × Bool) := []
  scale : NMap (BitVec 32) := []
  q : List Cmd := []
  running : List Cmd := []
  lastFe : Nat := 0
  lastS : Nat := 0
  lastC : Nat := 0
  deriving DecidableEq, Repr

/-- A write of the SL bay under way (R160). -/
structure ScaleWrite where
  due : Nat
  eng : Nat
  entry : Nat
  vals : List (BitVec 32)
  conv : Nat
  deriving DecidableEq, Repr

/-- A copy plan that runs (R220): its stage counter, the entry handed over next, the entries that run, and the first that
failed with its code and progress. -/
structure Plan where
  running : Bool := false
  stage : Nat := 0
  next : Nat := 0
  entries : List (BitVec 96) := []
  children : List Nat := []
  failed : Option (Nat × Nat × Nat) := none
  bytes : Nat := 0
  deriving DecidableEq, Repr

/-- The task state of a core (R12, R25, R116). `walk` is the access whose translation is being fetched, `jump` the bundle,
the address after it and the presence mask of a transfer whose target has not issued (R63), `late` the faults that await the
oldest unissued bundle (R100), each with the cycle it is known in, its code, the bundle that read and the address, `codeScope` the stores a `FENCE.CODE` covers and `fetchWait` those a fetch waits for (R105),
`after` what follows the bundle (0 the next one, 1 the end of the task, 2 the wait of `BRK`), `last` the last bundle issued
and its presence mask, `drainAt` the cycle a drain is decided again in (R337), `saveFrom` what a task that is saved was doing, `brk` the cycle the wait of a
`BRK` began in and its code (R115, R341), `left` what is left of the declared count and `estFree` whether a `CYCEST` came after it had
run out (R26, R117), `estSet` a `CYCEST` with the cycle it takes effect in, `dataAt` the cycle in which every scratchpad load and
`SPLD` has its data (R26). -/
structure TaskSt where
  mode : TaskMode := .none
  grp : Nat := 0
  idx : Nat := 0
  pc : Nat := 0
  g : NMap Word := []
  pend : NMap Bool := []
  tokOwner : NMap TokOwner := []
  k : NMap Word := []
  ya : Word := 0
  yb : Word := 0
  v : NMap VReg := []
  w : NMap VReg := []
  yv : VReg := 0
  m : NMap LaneMask := []
  rdy : NMap Nat := []
  wait : NMap Nat := []
  fflags : BitVec 5 := 0
  flagq : List (Nat × BitVec 5) := []
  flagSet : Option (Nat × BitVec 5) := none
  est : Nat := 0
  tcount : Nat := 0
  stamp : Nat := 0
  lastClear : Nat := 0
  prio : Nat := 0
  prioPrev : Nat := 0
  prioFrom : Nat := 0
  lprio : Nat := 0
  coordReg : Word := 0
  groupReg : Word := 0
  me0 : Engine := {}
  me1 : Engine := {}
  sl : List ScaleWrite := []
  port : List MemReq := []
  walk : Option Unfin := none
  replay : Option Replay := none
  jump : Option (Nat × Nat × Nat) := none
  late : List (Nat × Nat × Nat × Nat) := []
  tries : Nat := 0
  fetchTries : Nat := 0
  codeScope : List Nat := []
  fetchWait : List Nat := []
  after : Nat := 0
  last : Nat × Nat := (0, 0)
  released : Bool := false
  drainAt : Nat := 0
  saveFrom : TaskMode := .none
  notBefore : Nat := 0
  brk : Option (Nat × Nat) := none
  left : Nat := 0
  estFree : Bool := false
  estSet : Option (Nat × Nat) := none
  dataAt : Nat := 0
  deriving DecidableEq, Repr

/-- The saved state of a micro-program run (R309). -/
structure RunSnap where
  store : NMap (BitVec 32)
  mpc : Nat
  b : NMap (BitVec 256)
  lc : Nat
  rp : Nat
  emits : Nat
  flags : BitVec 5
  deriving DecidableEq, Repr

/-- Work handed to a bank unit (R307): an entry of a query, or a command of the bank-query port. -/
inductive BuWork where
  | entry (op i : Nat)
  | run (core : Nat) (cmd : Cmd) (snap : Option RunSnap)
  | prog (core : Nat) (cmd : Cmd)
  deriving DecidableEq, Repr

/-- A suspended task in a slot of its core (R336): the slot, its state, the commands of it that waited in each unit, and its
micro-program runs with their bank units. -/
structure Saved where
  slot : Nat := 0
  t : TaskSt
  cmds : List (Nat × Cmd) := []
  runs : List (Nat × BuWork) := []
  deriving DecidableEq, Repr

/-- The context's state on a core (R25): queues, semaphores, barriers, waiters, buffers, leases, lend pool, the
command queues of the units of R112 (2 copy, 3 queue, 4 synchronisation, 5 operation, 6 bank query, 7 group, 8 lease,
9 host), and the suspended tasks. `free` gives for a unit the first cycle in which its next head may be taken. -/
structure CtxSt where
  q : NMap Queue := []
  sem : NMap Nat := []
  bar : NMap Barrier := []
  waiters : List Waiter := []
  buf : NMap Buffer := []
  lease : NMap Lease := []
  pool : NMap Word := []
  lent : List Lent := []
  cmdq : NMap (List Cmd) := []
  free : NMap Nat := []
  opWaits : List (Nat × Nat × Cmd) := []
  moving : Option Cmd := none
  susp : List Saved := []
  deriving DecidableEq, Repr

/-- A scratchpad store of a bay (R134, R136, R148): the cycle it issued in, the cycle its line takes its bank in, whether it is a
line of a `VST`, and each byte it wrote beside the one it replaced. -/
structure BayStore where
  cyc : Nat
  at_ : Nat
  vst : Bool
  addr : Nat
  bytes : List (Option (Byte × Byte))
  deriving DecidableEq, Repr

/-- A cached translation (R271): the context, the page's first virtual address and log2 of its size, its leaf, and for
a peer window the handle entry it was cached with. -/
structure TlbEnt where
  ctx : Nat
  base : Nat
  log : Nat
  leaf : Word
  h0 : Word := 0
  h1 : Word := 0
  deriving DecidableEq, Repr

/-- A tile core: the task, the context on it, its instruction buffer (R314) and its translations (R271). `nextReq` and
`serial` number requests and commands. `gen` marks the task's issue events, so that a stale one does nothing.
`bankUse` lists the scratchpad banks that bays use, each with its cycle; `served` counts the turns of the waiting bundle's bays
that share a bank which have been served (R21); `mcTaken` lists the banks that took a multicast write, each with its
cycle (R225), `engUse` those that served an engine or another agent below it (R21). `resv` is the task the core is reserved for
(R337), `decided` what its last pre-emption decision was taken on: the newcomer, the task, `est` and the task slots in use. `recent`
holds the stores of its bays that other agents need not see yet. -/
structure Core where
  t : TaskSt := {}
  c : CtxSt := {}
  ctx : Option Nat := none
  obj : Nat := 0
  code : Nat := 0
  codeLen : Nat := 0
  held : NMap (List Byte) := []
  fetched : NMap (List Byte) := []
  fetching : List Nat := []
  tlb : List TlbEnt := []
  nextReq : Nat := 1
  serial : Nat := 1
  gen : Nat := 0
  bankUse : List (Nat × Nat) := []
  served : Nat := 0
  mcTaken : List (Nat × Nat) := []
  engUse : List (Nat × Nat) := []
  resv : Option (Nat × Nat) := none
  decided : List Nat := []
  recent : List BayStore := []
  deriving DecidableEq, Repr

/-! ### Child operations (R185 to R203) -/

/-- The states of an operation (R194). -/
inductive OpState where
  | queued
  | started
  | parked
  | saved
  | done
  deriving DecidableEq, Repr

/-- One entry of a bank-unit query (R300, R302) and its scan: the row pair it is at, whether its value row is next, and the bank
row its first key row stands in. -/
structure QEntry where
  krow : Nat
  vrow : Nat
  npos : Nat
  unit : Option Nat := none
  row : Nat := 0
  pos : Nat := 0
  inValue : Bool := false
  scores : List (BitVec 32) := []
  m : BitVec 32 := 0xFF800000
  l : BitVec 32 := 0
  acc : List (BitVec 32) := []
  err : Bool := false
  vr : Bool := false
  errRow : Nat := 0
  row0 : Nat := 0
  fin : Bool := false
  deriving DecidableEq, Repr

/-- Why an operation stands PARKED (R199): the code, and the translation detail of R270. -/
structure Park where
  code : Nat
  va : Nat
  acc : Nat
  level : Nat
  freed : Bool := false
  deriving DecidableEq, Repr

/-- An entry of the operation table (R185). `recs` are the shape records read at start (R209), `srcs` the source granules read
so far (R211), `lines` the destination lines still to complete with the units that touch each, `reqs` the requests made for
the line being moved and `need` how many of them no slot has served, `via` the dies the line goes through, `row` and `sub_` the place of a scatter in its rows, `hostWait` the cycle a host read fails in (R359),
`undef` says that its source and destination overlap (R211), `stop` that it is to stop at its next boundary with a code;
`verdict` gives the code and the detail of one whose work has ended in this cycle and which completes in the next; `wasQueued` says that it
was saved before its start, `plan` is the plan of a `CPLAN`, `parent` the `CPLAN` an entry belongs to, with its generation. -/
structure Op where
  gen : Nat := 0
  st : OpState := .queued
  unit : Nat := 0
  core : Nat := 0
  ownCore : Nat := 0
  ctx : Nat := 0
  grp : Nat := 0
  idx : Nat := 0
  owner : Nat := 0
  det : Bool := false
  prio : Nat := 0
  ord : Bool := false
  cmd : Cmd := {}
  tries : Nat := 0
  prog : Nat := 0
  code : Nat := 0
  detail : Nat := 0
  flags : BitVec 5 := 0
  retained : Bool := false
  tokLive : Bool := true
  recs : List (List Word) := []
  park : Option Park := none
  stop : Option Nat := none
  need : Nat := 0
  reqs : List (Nat × Nat) := []
  srcs : NMap (List Byte) := []
  ahead : List (Nat × Nat) := []
  lines : List (Nat × List Nat) := []
  via : List Nat := []
  row : Nat := 0
  sub_ : Nat := 0
  hostWait : Nat := 0
  undef : Bool := false
  bytes : Nat := 0
  oob : Nat := 0
  entries : List QEntry := []
  tile : Nat := 0
  coll : Option Nat := none
  rank : Nat := 0
  finished : Bool := false
  uses : List Nat := []
  plan : Plan := {}
  parent : Option (Nat × Nat) := none
  wasQueued : Bool := false
  verdict : Option (Nat × Nat) := none
  deriving DecidableEq, Repr

/-- A collective being formed (R226): its team, number and members, the operations that belong to it by rank, the ranks that
have joined, those whose destination is written, and the code and rank that ended it (R229). -/
structure Coll where
  team : Nat
  n : Nat
  root : Nat
  members : List Nat
  ops : List (Nat × Nat) := []
  joined : List Nat := []
  written : List Nat := []
  dead : Option (Nat × Nat) := none
  deriving DecidableEq, Repr

/-! ### Memory stacks (R281 to R296) -/

/-- The mode of a pseudo-channel in a rotation (R289). -/
inductive PcMode where
  | active
  | shared
  | powerDown
  | selfRefresh
  deriving DecidableEq, Repr

/-- Unslotted traffic waiting at a pseudo-channel (R286): the line of an operation, bytes of a bank unit on their way to a scratchpad
(core, address, bytes, source), or a scrub write. -/
structure Unslot where
  prio : Nat
  arrived : Nat
  pa : Nat
  op : Option Nat
  land : Option (Nat × Nat × List Byte × SigSrc) := none
  deriving DecidableEq, Repr

/-- A pseudo-channel: the rotation its mode was fixed for and the mode of the one before, its idle timer's start, the cycle it entered power-down, the first
boundary after its last shared rotation, the cycle from which its exit from a low-power mode into a shared rotation is complete (R299),
what waits, and each bank's claims as the cycle it is free again. -/
structure PChan where
  mode : PcMode := .active
  rot : Nat := 0
  before : PcMode := .active
  idleFrom : Nat := 0
  pdFrom : Nat := 0
  sharedTo : Nat := 0
  exitAt : Nat := 0
  queues : NMap (List Nat) := []
  unslot : List Unslot := []
  bankFree : NMap Nat := []
  deriving DecidableEq, Repr

/-- The check state of a 32-byte word of memory (R293, R294). -/
inductive Ecc where
  | correct
  | correctable
  | uncorrectable
  | poison
  deriving DecidableEq, Repr

/-- A bank unit (R297). `work` is what was handed to it, the piece it runs first while `running`; `waitPage` says that a run
waits at a `BUROW` for its page, `stop` that it is to stop at its next one with a code. `ends` are the runs that have ended while
emits of theirs are on their way, each with its core, its command and its status (R309). `since` is the cycle from which it has had an
entry or a run without a break, `stepRot` one more than the rotation of its last row step (R299, R381). -/
structure BankUnit where
  store : NMap (BitVec 32) := []
  tag : Option Nat := none
  mpc : Nat := 0
  b : NMap (BitVec 256) := []
  lc : Nat := 0
  rp : Nat := 0
  row : List Byte := []
  rowErr : Bool := false
  work : List BuWork := []
  running : Bool := false
  emits : Nat := 0
  flags : BitVec 5 := 0
  waitPage : Bool := false
  stop : Option Nat := none
  ends : List (Nat × Cmd × Nat × Nat) := []
  since : Nat := 0
  stepRot : Nat := 0
  deriving DecidableEq, Repr

/-! ### Groups and tasks (R26, R321) -/

/-- The states of a task (R26). -/
inductive TState where
  | listed
  | ready
  | running
  | retiring
  | done
  | parked
  | suspended
  | killed
  deriving DecidableEq, Repr

/-- A task of a group (R321). -/
structure Task where
  recd : List Word
  arg : Word
  st : TState := .listed
  cnt : Nat := 0
  cause : Nat := 0
  readyAt : Nat := 0
  retries : Nat := 0
  deriving DecidableEq, Repr

/-- A group (R319 to R321). A team is its root's rank and its members' cores (R226); `teamN` counts the collectives a rank has
issued on a team, with key 1024 team + rank; `cpl` is cleared when the completion record is written. The group's watchdog counter has counted `idle` cycles and, while `idling`, those
since `idleFrom` (R343). -/
structure Group where
  ctx : Nat
  gid : Nat
  queue : Nat
  gpol : Nat
  obj : Nat
  hdr : List Word
  items : List Word
  teams : List (Nat × List Nat)
  tasks : List Task
  tag : Nat
  cpl : Bool
  crec : Nat
  bar : Bool
  created : Nat
  order : Nat
  ended : Bool := false
  firstKilled : Option (Nat × Nat) := none
  idle : Nat := 0
  idling : Bool := false
  idleFrom : Nat := 0
  killedBy : Option Nat := none
  teamN : NMap Nat := []
  deriving DecidableEq, Repr

/-- A launch queue (R315), with the sources of announced packets (R362): each entry is a tail value and its writer. -/
structure LaunchQ where
  base : Nat := 0
  en : Bool := false
  qprio : Nat := 0
  lcnt : Nat := 0
  ovf : Bool := false
  tail : Nat := 0
  head : Nat := 0
  srcs : List (Nat × Option Nat) := []
  deriving DecidableEq, Repr

/-! ### Contexts (R332 to R347) -/

/-- The states of a context (R334), coded as R333 codes them. -/
inductive CState where
  | free
  | active
  | saving
  | saved
  | restoring
  | dumping
  | halted
  deriving DecidableEq, Repr

/-- A record of the trap queue (R341), as sixteen words; DROPS and SEQ are set when it is posted. -/
abbrev TrapRec := List Word

/-- The registers of a context (R333) and the bookkeeping of its swap, dump and trap queue. `fslot` is the count of the record in the
reserved fatal slot. `preloaded` says that its images stand in the shadow halves, `passed` lists the cores whose flip has made such an
image the live one, `flipped` says that its own state stands in the shadows until it is written back (R335). `savedCores` and
`savedTask` are what the register shadows and the save area hold of its cores. -/
structure Context where
  opq : Nat := 0
  cpol : Nat := 0
  restart : Bool := false
  nockpt : Bool := false
  st : CState := .free
  yards : Nat := 0
  root : Nat := 0
  shbase : Nat := 0
  shlen : Nat := 0
  htbase : Nat := 0
  tqbase : Nat := 0
  tqlog : Nat := 0
  tqhead : Nat := 0
  fslot : Option Nat := none
  tqtail : Nat := 0
  loft : Nat := 0
  save : Nat := 0
  savesz : Nat := 0
  loftsz : Nat := 0
  tokmax : Nat := 8
  tokrate : Nat := 2
  tokens : Nat := 0
  wdlog : Nat := 32
  drain : Nat := 45000
  cmdst : Nat := 0
  cause : Nat := 0
  dbgen : Nat := 0
  dbgPrev : Nat := 0
  dbgFrom : Nat := 0
  caddr : NMap Nat := []
  pubEn : NMap Bool := []
  version : NMap Word := []
  drops : Nat := 0
  waiting : List TrapRec := []
  causes : List TrapRec := []
  incomplete : Bool := false
  mailOnly : Bool := false
  savedCores : NMap CtxSt := []
  savedRuns : List (Nat × BuWork) := []
  preloaded : Bool := false
  flipped : Bool := false
  passed : List Nat := []
  savedTask : NMap TaskSt := []
  savedPoison : List Nat := []
  deriving DecidableEq, Repr

/-! ### Dies, links and the package -/

/-- The states of a circuit (R354). -/
inductive CircSt where
  | none
  | setup
  | up
  | degraded
  | down
  | reset
  deriving DecidableEq, Repr

/-- A circuit between two dies (R353, R354). `upDue` and `downDue` are the last arrivals over it at the die of the higher and of the
lower number, which no later message comes before; `training` counts the wavelengths in training, `held` the messages that wait
for the circuit in SETUP, `passUntil` the last arrival of those sent before a RETRAIN, which are resent first (R355). -/
structure Circuit where
  st : CircSt := .none
  training : Nat := 0
  upDue : Nat := 0
  downDue : Nat := 0
  held : List Instr := []
  passUntil : Nat := 0
  wl : Nat := 0
  wcfg : Nat := 64
  ver : Nat := 0
  epoch : Nat := 0
  deriving DecidableEq, Repr

/-- The states of an Ewen port (R360). -/
inductive EwenSt where
  | down
  | train
  | up
  | degraded
  | verr
  deriving DecidableEq, Repr

/-- An Ewen port (R360). -/
structure Ewen where
  st : EwenSt := .down
  lanes : Nat := 0
  ver : Nat := 0
  peer : Nat := 0
  retry : Nat := 0
  vmin : Nat := 1
  vmax : Nat := 1
  deriving DecidableEq, Repr

/-- The crown-controller mailbox of a die (R368). -/
structure Mailbox where
  op : Nat := 0
  seq : Nat := 0
  arg : Word := 0
  ovf : Bool := false
  busy : Bool := false
  status : Nat := 0
  ack : Nat := 0
  len : Nat := 0
  data : NMap Byte := []
  deriving DecidableEq, Repr

/-- A posted write waiting for the host link (R359): what it writes, which context it belongs to, what wrote it, and until when.
`req` is the access of a core's memory port that is performed when it leaves (R99), `op` the operation whose line it is; `trap` is
a record of a trap queue, which is posted when it leaves (R340). -/
structure Posted where
  ctx : Option Nat
  addr : Nat
  bytes : List (Option Byte)
  until_ : Nat
  src : SigSrc := {}
  req : Option (Nat × Nat) := none
  op : Option Nat := none
  trap : Option TrapRec := none
  deriving DecidableEq, Repr

/-- A byte a publication buffer holds (R364): its context and window, its host address, the cycle it was written in, the core that wrote
it, and its value. -/
structure PubByte where
  ctx : Nat
  win : Nat
  addr : Nat
  at_ : Nat
  core : Nat
  val : Byte
  deriving DecidableEq, Repr

/-- The completion an access to BAR2 was answered with last (R358): none yet, its data or old value, or Unsupported Request. -/
inductive Completion where
  | none
  | data (bs : List Byte)
  | unsupported
  deriving DecidableEq, Repr

/-- A die. `routes` are the apertures of host addresses that the driver routes to Ewen ports: a first address, a length and a port
(R360); `cpl` is the last completion of BAR2 (R358). -/
structure Die where
  inReset : Bool := false
  tlb : List TlbEnt := []
  invVa : Nat := 0
  invCount : Nat := 0
  invOvf : Bool := false
  invAck : Nat := 0
  invQ : List (Word × Nat × Nat) := []
  invWait : List (Nat × Nat) := []
  invAt : Nat := 0
  sridle : Nat := 0
  pdidle : Nat := 0x1000
  mctlAt : Nat := 0
  mctlNext : Option (Nat × Word) := none
  hbmiss : Nat := 0
  hbRow : NMap Nat := []
  hbAt : NMap Nat := []
  fb : NMap Bool := []
  smcReset : NMap Bool := []
  cecnt : Nat := 0
  pcmap0 : Nat := 2 ^ 64 - 1
  pcmap1 : Nat := 2 ^ 64 - 1
  pcs : NMap PChan := []
  gids : Nat := 0
  rr : Nat := 0
  acl : NMap Word := []
  win : NMap Word := []
  gated : NMap Bool := []
  idleSince : NMap Nat := []
  wakeAt : NMap Nat := []
  fatalRec : TrapRec := []
  fatalCtx : Nat := 0
  fatalFull : Bool := false
  fatalCount : Nat := 0
  hostDown : Bool := false
  posted : List Posted := []
  pubBuf : List PubByte := []
  routes : List (Nat × Nat × Nat) := []
  cpl : Completion := .none
  throttled : Bool := false
  intr : NMap Nat := []
  mbox : Mailbox := {}
  deriving DecidableEq, Repr

/-- The crown controller (R366 to R369). -/
structure Crown where
  pstate : Nat := 0
  cause : Nat := 0
  tripped : Bool := false
  queue : List (Nat × Nat × Nat × Word) := []
  stage : NMap Byte := []
  stageNew : Bool := false
  committed : Option (Nat × Nat × Nat × List Byte) := none
  images : NMap (Nat × Nat × List Byte) := []
  minSvn : NMap Nat := []
  reports : List (Nat × Nat) := []
  deriving DecidableEq, Repr

/-! ### The bundle being issued and the agenda -/

/-- The bundle being issued (R80, R86): the core as every bay reads it, the bundle's address, the address after it, its
presence mask, the transfer its BR bay makes, and the faults that strike after its other bays complete. `trapped` says
that a bay's issue-time fault has been taken. -/
structure Issue where
  pre : Core := {}
  bundle : Nat := 0
  npc : Nat := 0
  mask : Nat := 0
  unfin : List (Unfin × Nat × Nat × Nat) := []
  transfer : Option Nat := none
  trapped : Bool := false
  idle : Nat := 0
  mem : Memory := []
  deriving DecidableEq, Repr

/-- What can be due: a device event, the issue of a core's next bundle, the read of a slotted request at its home
(R287), the bytes of a bay's append with the lease an `SPLD` read them from (R107, R167), bytes of a bank unit that land at a
scratchpad (R303, R310), the next line of a `QPUSH` or `QPOP` (R184), the next micro-op of a bank unit, the releases of a queue (R168, R169), the
bank a line takes that a splice neighbour wrote (R21), the signal of a command that ended at a head (R385), the arrival of an operation's BAR action (R234), the completion test of a barrier (R234), the decrements of `TDEP` and of a DEP action (R325), a late fault of a task (R100), the next command of the crown controller (R368), the next invalidation of a
die (R272), the end of the time a circuit may stay in SETUP or an Ewen port in TRAIN with what has trained by then (R355, R361), the
signal of an operation that has completed (R191), and the grants of a throttled die (R373). -/
inductive Act where
  | ev (i : Instr)
  | issue (core gen : Nat)
  | sample (core req : Nat)
  | fill (core q slot : Nat) (bs : List Byte) (lease : Option Nat)
  | land (core x : Nat) (bs : List Byte) (r : SigSrc)
  | padBank (core line : Nat)
  | move (core : Nat)
  | micro (unit : Nat)
  | release (core q : Nat)
  | signal (core sem n : Nat) (src : SigSrc)
  | bar (core bar n code op : Nat) (src : SigSrc)
  | barTest (core bar : Nat)
  | tdep (core : Nat) (cmd : Cmd)
  | late (core : Nat)
  | dep (ctx grp idx unit : Nat) (src : SigSrc)
  | crown
  | inval (die : Nat)
  | setupEnds (a b wl : Nat)
  | opSignal (core sem n op : Nat) (src : SigSrc)
  | trainEnds (port lanes vmin vmax peer : Nat)
  | unthrottle (die : Nat)
  deriving DecidableEq, Repr

/-- An entry of the agenda. -/
structure Timed where
  due : Nat
  act : Act
  deriving DecidableEq, Repr

/-- The state of the package. Keys: core 64 × die + 8 × y + x, context 64 × die + slot, launch queue 4 × context + q,
operation 8192 × die + entry, bank unit 4096 × die + 32 × P + bank, group 2^32 × die + identifier, circuit 8 × a + b
with a below b. `ended` holds the operations that became DONE in a cycle, for an `OPCANCEL` of that cycle (R202). `veils` are the parts of save
areas and Lofts whose layout the spec does not give (R336): where each begins, its length, and a number that tells it from the
others (notes/assumptions/15). -/
structure State where
  now : Nat := 0
  agenda : List Timed := []
  posted : List Timed := []
  free : Nat := 0
  cur : Nat := 0
  curUnit : Nat := 0
  iss : Issue := {}
  ended : List (Nat × Nat × Op) := []
  mem : Memory := []
  veils : List (Nat × Nat × Nat) := []
  ecc : NMap Ecc := []
  padPoison : NMap Bool := []
  padErr : NMap Nat := []
  cores : NMap Core := []
  ops : NMap Op := []
  gens : NMap Nat := []
  colls : List Coll := []
  units : NMap BankUnit := []
  groups : NMap Group := []
  launch : NMap LaunchQ := []
  ctxs : NMap Context := []
  dies : NMap Die := []
  circuits : NMap Circuit := []
  ewen : NMap Ewen := []
  crown : Crown := {}
  order : Nat := 0
  deriving DecidableEq, Repr

/-- Why the machine stops with a fault: it never does. Every trap, bad access and failed unit of the spec is an effect it describes. -/
inductive Fault where
  deriving DecidableEq, Repr

/-- Why an instruction has no meaning. -/
inductive Refusal where
  /-- An instruction of the opcode table that the model gives no meaning. Raised by its arm of `exec`. Safe: the
  machine stops where the hardware goes on. -/
  | notModelled (mnemonic : String)
  deriving DecidableEq, Repr

/-- Right after reset: nothing has happened but that the power-up of R366 is due (notes/assumptions/7). -/
def State.reset : State := { agenda := [{ due := 0, act := .ev (.evPowerUp .ok) }] }

end Sys2Proof.Machine
end

