-- ==== Sys2Proof/Machine/Base.lean ====
section
/-!
DEFINITION. The agenda and the parts of the state: when things are due, in what order within a cycle (R385), and how the
parts of the package are read and replaced.
-/

namespace Sys2Proof.Machine

/-! ### The order within a cycle -/

/-- The order of what is due in one cycle: reads at a home before writes (R287); landings, then the bundle, then the
heads in the order of R112 (R385), those of the group, lease and host ports last; then the scheduler's work (R325), the rotation boundary (R289, R290), the slots
(R285), and what takes effect at the end of the cycle (R160). -/
def Act.rank : Act → Nat
  | .sample _ _ => 0
  | .issue core _ => 3 * 2 ^ 24 + core
  | .micro _ => 10 * 2 ^ 24 + 2 ^ 23
  | .fill _ _ _ _ _ => 6 * 2 ^ 24
  | .land _ _ _ _ => 6 * 2 ^ 24
  | .move core => 6 * 2 ^ 24 + 2 ^ 22 + core
  | .padBank core _ => 6 * 2 ^ 24 + 2 ^ 22 + core
  | .release _ _ => 6 * 2 ^ 24 + 2 ^ 23
  | .signal _ _ _ _ => 6 * 2 ^ 24
  | .bar _ _ _ _ op _ => 2 * 2 ^ 24 + 2 ^ 23 + 2 ^ 22 + op
  | .barTest _ _ => 5 * 2 ^ 24
  | .tdep _ _ => 6 * 2 ^ 24
  | .late _ => 3 * 2 ^ 24 - 2
  | .dep _ _ _ _ _ => 6 * 2 ^ 24
  | .crown => 2 * 2 ^ 24
  | .inval _ => 2 * 2 ^ 24
  | .setupEnds _ _ _ => 2 * 2 ^ 24
  | .opSignal _ _ _ op _ => 2 * 2 ^ 24 + 2 ^ 23 + 2 ^ 22 + 2 ^ 21 + op
  | .trainEnds _ _ _ _ _ => 2 * 2 ^ 24
  | .unthrottle _ => 2 * 2 ^ 24
  | .ev i =>
    match i with
    | .evWritePerformed _ _ => 2 ^ 24
    | .evLoadDataArrive _ _ => 2 ^ 24
    | .evLaunchTailWrite _ _ _ src => 2 * 2 ^ 24 + (src.map BitVec.toNat).getD (2 ^ 16)
    | .evOpComplete op => 2 * 2 ^ 24 + op
    | .evRemoteArrivalLand _ _ _ src => 3 * 2 ^ 24 - 2 ^ 16 + src.coord % 512
    | .evCommandHead core unit => 4 * 2 ^ 24 + (if 7 ≤ unit then 2 ^ 23 else 0) + core * 16 + unit
    | .evMatrixHead core eng => 4 * 2 ^ 24 + core * 16 + eng
    | .evMulticastWriteLand _ _ _ _ _ => 5 * 2 ^ 24
    | .evMatrixFetchStart core eng => 5 * 2 ^ 24 + 2 ^ 20 + core * 2 + eng
    | .evMatrixFetchEnd core eng => 5 * 2 ^ 24 + 1 + core * 2 + eng
    | .evMatrixArrayStart core eng => 2 * 2 ^ 24 + 2 ^ 23 + core * 2 + eng
    | .evFallbackLineWrite _ _ _ => 6 * 2 ^ 24 + 2 ^ 21 + 2 ^ 20
    | .evContextFlip _ => 8 * 2 ^ 24 + 2 ^ 23
    | .evMdrainLineWrite _ _ _ => 6 * 2 ^ 24 + 2 ^ 21
    | .evCopyLine _ => 6 * 2 ^ 24 + 2 ^ 22 + 2 ^ 21
    | .evGroomTileFill _ => 6 * 2 ^ 24 + 2 ^ 22 + 2 ^ 21
    | .evTaskReady _ _ => 7 * 2 ^ 24
    | .evTaskDone _ => 8 * 2 ^ 24
    | .evGroupEnd _ => 8 * 2 ^ 24 + 2 ^ 20
    | .evTaskGrant core => 8 * 2 ^ 24 + 2 ^ 21 + core
    | .evPreemptionDecision core => 8 * 2 ^ 24 + 2 ^ 22 + core
    | .evRotationBoundary _ _ => 9 * 2 ^ 24
    | .evEscapementSlot _ _ _ => 10 * 2 ^ 24
    | .evScaleWriteLand _ => 11 * 2 ^ 24
    | .evRowStep _ => 10 * 2 ^ 24 + 2 ^ 23
    | .evFallbackRefreshTakeover _ _ => 12 * 2 ^ 24
    | .evYardGate _ _ => 12 * 2 ^ 24
    | .evWatchdog _ _ _ => 12 * 2 ^ 24
    | _ => 2 * 2 ^ 24

/-- Whether an entry comes no later than another. -/
def Timed.before (a b : Timed) : Bool := decide (a.due < b.due) || (decide (a.due = b.due) && decide (a.act.rank ≤ b.act.rank))

/-- Places an entry behind every entry that is due no later. -/
def insertTimed (t : Timed) : List Timed → List Timed
  | [] => [t]
  | u :: l => if u.before t then u :: insertTimed t l else t :: u :: l

/-- Makes something due: never in the past. -/
def State.post (s : State) (due : Nat) (a : Act) : State :=
  { s with posted := s.posted ++ [{ due := max due s.now, act := a }] }

/-- Makes an event due. -/
def State.postEv (s : State) (due : Nat) (i : Instr) : State := s.post due (.ev i)

/-- Places an entry before the first that comes after it. -/
def placeTimed (t : Timed) : List Timed → List Timed
  | [] => [t]
  | u :: l => if t.before u then t :: u :: l else u :: placeTimed t l

/-- An entry that is due at a cycle or later. -/
def Timed.from_ (t : Timed) (n : Nat) : Timed := if n ≤ t.due then t else { t with due := n }

/-- Entries in the order of R385, none of them due before a cycle. -/
def inTurn (n : Nat) : List Timed → List Timed
  | [] => []
  | t :: l => placeTimed (t.from_ n) (inTurn n l)

/-- The work of cycle n is done: what was posted enters the agenda, behind what is due no later. -/
def State.settle (s : State) (n : Nat) : State :=
  { s with now := n, agenda := s.posted.foldl (fun ag t => insertTimed (t.from_ n) ag) (inTurn n s.agenda), posted := [] }

/-- Whether something is already due or posted. -/
def State.isDue (s : State) (p : Act → Bool) : Bool := s.agenda.any (fun t => p t.act) || s.posted.any (fun t => p t.act)

/-- A cycle count the spec does not fix: at least 1, at most `bound` (notes/assumptions/2). -/
def State.delay (s : State) (bound : Nat) : Nat := 1 + Config.freeDelay s.free % bound

/-- The free counter after one use. -/
def State.spend (s : State) : State := { s with free := s.free + 1 }

/-- Makes an event due after a delay the spec bounds at most. -/
def State.postFree (s : State) (bound : Nat) (i : Instr) : State := (s.postEv (s.now + s.delay bound) i).spend

/-! ### The parts of the package -/

def State.core (s : State) (n : Nat) : Core := NMap.get {} s.cores n
def State.setCore (s : State) (n : Nat) (c : Core) : State := { s with cores := NMap.set s.cores n c }
def State.onCore (s : State) (n : Nat) (f : Core → Core) : State := s.setCore n (f (s.core n))
def State.onTask (s : State) (n : Nat) (f : TaskSt → TaskSt) : State := s.onCore n (fun c => { c with t := f c.t })
def State.onCtxSt (s : State) (n : Nat) (f : CtxSt → CtxSt) : State := s.onCore n (fun c => { c with c := f c.c })

def State.die (s : State) (n : Nat) : Die := NMap.get {} s.dies n
def State.onDie (s : State) (n : Nat) (f : Die → Die) : State := { s with dies := NMap.set s.dies n (f (s.die n)) }

def State.context (s : State) (n : Nat) : Context := NMap.get {} s.ctxs n
def State.onContext (s : State) (n : Nat) (f : Context → Context) : State :=
  { s with ctxs := NMap.set s.ctxs n (f (s.context n)) }

def State.unit (s : State) (n : Nat) : BankUnit := NMap.get {} s.units n
def State.onUnit (s : State) (n : Nat) (f : BankUnit → BankUnit) : State :=
  { s with units := NMap.set s.units n (f (s.unit n)) }

def State.op? (s : State) (k : Nat) : Option Op := NMap.find s.ops k
def State.op (s : State) (k : Nat) : Op := NMap.get {} s.ops k
def State.onOp (s : State) (k : Nat) (f : Op → Op) : State :=
  match s.op? k with
  | some o => { s with ops := NMap.set s.ops k (f o) }
  | none => s

def State.group? (s : State) (k : Nat) : Option Group := NMap.find s.groups k
def State.onGroup (s : State) (k : Nat) (f : Group → Group) : State :=
  match s.group? k with
  | some g => { s with groups := NMap.set s.groups k (f g) }
  | none => s

def State.launchQ (s : State) (k : Nat) : LaunchQ := NMap.get {} s.launch k
def State.onLaunch (s : State) (k : Nat) (f : LaunchQ → LaunchQ) : State :=
  { s with launch := NMap.set s.launch k (f (s.launchQ k)) }

def State.circuit (s : State) (a b : Nat) : Circuit := NMap.get {} s.circuits (8 * min a b + max a b)
def State.onCircuit (s : State) (a b : Nat) (f : Circuit → Circuit) : State :=
  { s with circuits := NMap.set s.circuits (8 * min a b + max a b) (f (s.circuit a b)) }

def State.ewenPort (s : State) (p : Nat) : Ewen := NMap.get {} s.ewen p
def State.onEwen (s : State) (p : Nat) (f : Ewen → Ewen) : State := { s with ewen := NMap.set s.ewen p (f (s.ewenPort p)) }

def Die.pc (d : Die) (p : Nat) : PChan := NMap.get {} d.pcs p
def State.pchan (s : State) (die p : Nat) : PChan := (s.die die).pc p
def State.onPc (s : State) (die p : Nat) (f : PChan → PChan) : State :=
  s.onDie die (fun d => { d with pcs := NMap.set d.pcs p (f (d.pc p)) })

/-- The die of a core, and its number 8 y + x within it (R284). -/
def dieOf (core : Nat) : Nat := core / 64
def inDie (core : Nat) : Nat := core % 64
def xOf (core : Nat) : Nat := core % 8
def yOf (core : Nat) : Nat := core / 8 % 8

/-- The yard of a core within its die: yards are the four 4 × 4 quarters (R4). -/
def yardOf (core : Nat) : Nat := 2 * (yOf core / 4) + xOf core / 4

/-- The core's number within its yard, row-major (R113). -/
def yardCore (core : Nat) : Nat := 4 * (yOf core % 4) + xOf core % 4

/-- Core n of the yard of `core`. -/
def coreOfYard (core n : Nat) : Nat :=
  64 * dieOf core + 8 * (4 * (yOf core / 4) + n / 4 % 4) + 4 * (xOf core / 4) + n % 4

/-- The cores of a yard of a die, row-major. -/
def yardCores (die yard : Nat) : List Nat :=
  (List.range 16).map (fun n => 64 * die + 8 * (4 * (yard / 2) + n / 4) + 4 * (yard % 2) + n % 4)

/-- The yards of a context's partition, and its cores in ascending yard order (R332, R336). -/
def Context.yardList (c : Context) : List Nat := (List.range 4).filter (fun y => c.yards / 2 ^ y % 2 == 1)
def State.partCores (s : State) (ctx : Nat) : List Nat := (s.context ctx).yardList.flatMap (yardCores (ctx / 64))

/-- The coordinate word of `g0` (R25). -/
def coordWord (core : Nat) : Nat := xOf core + 8 * yOf core + 64 * dieOf core

/-- The core that executes (R11). -/
def State.here (s : State) : Core := s.core s.cur

/-- Bits `lo` to `lo + n - 1` of a number. -/
def bits (v lo n : Nat) : Nat := v / 2 ^ lo % 2 ^ n

/-- One bit of a number. -/
def bitOf (v i : Nat) : Bool := v / 2 ^ i % 2 == 1

/-- A number cut to 64 bits. -/
def word (n : Nat) : Word := BitVec.ofNat 64 n

/-- A byte list read little-endian (R8). -/
def ofBytes (bs : List Byte) : Nat := bs.foldr (fun b acc => b.toNat + 256 * acc) 0

/-- The `n` low bytes of a number, little-endian (R8). -/
def toBytes : Nat → Nat → List Byte
  | 0, _ => []
  | n + 1, v => BitVec.ofNat 8 v :: toBytes n (v / 256)

/-- N of R282: the present pseudo-channels of a die. -/
def popCount : Nat → Nat → Nat
  | 0, _ => 0
  | n + 1, v => v % 2 + popCount n (v / 2)

def Die.npc (d : Die) : Nat := popCount 64 d.pcmap0 + popCount 64 d.pcmap1
def State.npc (s : State) (die : Nat) : Nat := (s.die die).npc

/-- The place of a local physical address (R282): pseudo-channel, column, bank, row. -/
structure Place where
  p : Nat
  column : Nat
  bank : Nat
  row : Nat
  deriving DecidableEq, Repr

def placeOf (npc pa : Nat) : Place :=
  let ln := pa % 2 ^ 37 / 64
  let r := ln / npc
  { p := ln % npc, column := r % 16, bank := r / 16 % 32, row := r / 512 }

end Sys2Proof.Machine
end

