-- ==== Sys2Proof/Machine/Xlat.lean ====
section
/-!
DEFINITION. Translation (R265 to R280) and the reads and writes that the device's own machinery makes in a context's
space: shape records, packets, code objects, trap records.
-/

namespace Sys2Proof.Machine

/-! ### Fault codes (R348) -/
namespace Code
abbrev illegalBundle : Nat := 0x01
abbrev reservedField : Nat := 0x02
abbrev targetUnmarked : Nat := 0x03
abbrev bayConflict : Nat := 0x04
abbrev privilege : Nat := 0x05
abbrev queueUnderrun : Nat := 0x10
abbrev queueScope : Nat := 0x11
abbrev queueState : Nat := 0x12
abbrev spliceLost : Nat := 0x13
abbrev bufferState : Nat := 0x18
abbrev layoutMismatch : Nat := 0x19
abbrev shapeBounds : Nat := 0x1A
abbrev shapeRights : Nat := 0x1B
abbrev shapeIndex : Nat := 0x1C
abbrev pageNotPresent : Nat := 0x20
abbrev pagePermission : Nat := 0x21
abbrev migrateWait : Nat := 0x22
abbrev peerWindow : Nat := 0x23
abbrev orderKind : Nat := 0x24
abbrev align : Nat := 0x25
abbrev memUncorrectable : Nat := 0x28
abbrev storeMergedPoison : Nat := 0x29
abbrev bankUnitError : Nat := 0x2A
abbrev barrierPoisoned : Nat := 0x38
abbrev barrierOverrun : Nat := 0x39
abbrev semOverflow : Nat := 0x3A
abbrev opCancelled : Nat := 0x40
abbrev opTokenInvalid : Nat := 0x41
abbrev watchdog : Nat := 0x48
abbrev preemptKill : Nat := 0x49
abbrev killedByParent : Nat := 0x4A
abbrev linkDown : Nat := 0x50
abbrev launchRejected : Nat := 0x51
end Code

/-- A translation fault with its detail (R270). -/
structure TFault where
  code : Nat
  va : Nat
  acc : Nat
  level : Nat := 0
  mal : Bool := false
  deriving DecidableEq, Repr

/-- Word 5 of a record (R341). -/
def TFault.word5 (f : TFault) : Nat :=
  f.va % 2 ^ 57 + f.acc * 2 ^ 57 + f.level * 2 ^ 60 + (if f.mal then 2 ^ 63 else 0)

/-! ### Bytes of local memory -/

/-- The check state of the 32-byte word that holds a byte of local memory (R293). -/
def State.eccOf (s : State) (die pa : Nat) : Ecc := NMap.get .correct s.ecc (Addr.localMem die pa / 32)

/-- Whether a word reads as uncorrectable (R293). -/
def Ecc.bad : Ecc → Bool
  | .uncorrectable => true
  | .poison => true
  | _ => false

def State.setEcc (s : State) (die pa : Nat) (e : Ecc) : State :=
  { s with ecc := NMap.put .correct s.ecc (Addr.localMem die pa / 32) e }

/-- A byte of storage outside scratchpad. Inside a veil it is free: the spec does not say what a save leaves there
(notes/assumptions/15). -/
def State.stored (s : State) (a : Nat) : Byte :=
  match s.veils.find? (fun v => decide (v.1 ≤ a) && decide (a < v.1 + v.2.1)) with
  | some v => Config.freeByte (v.2.2 + a)
  | none => s.mem.read a

/-- A run of storage is written: no veil lies over it any more. -/
def State.unveil (s : State) (a n : Nat) : State :=
  { s with veils := s.veils.flatMap (fun v =>
      if v.1 + v.2.1 ≤ a ∨ a + n ≤ v.1 then [v]
      else [(v.1, a - v.1, v.2.2), (a + n, v.1 + v.2.1 - (a + n), v.2.2)].filter (fun w => decide (0 < w.2.1))) }

/-- A run of storage outside scratchpad. -/
def State.storedRun (s : State) (a n : Nat) : List Byte :=
  if s.veils.all (fun v => decide (v.1 + v.2.1 ≤ a) || decide (a + n ≤ v.1)) then s.mem.readN a n else (List.range n).map (fun i => s.stored (a + i))

def State.localBytes (s : State) (die pa n : Nat) : List Byte := s.storedRun (Addr.localMem die pa) n

/-- A little-endian word of local memory. -/
def State.localWord (s : State) (die pa n : Nat) : Nat := ofBytes (s.localBytes die pa n)

/-! ### The walk -/

/-- log2 of the page a leaf at a level maps (R265). -/
def levelLog : Nat → Nat
  | 2 => 33
  | 3 => 21
  | _ => 16

/-- The index of a virtual address at a level (R265). -/
def levelIndex (level va : Nat) : Nat :=
  match level with
  | 1 => bits va 45 12
  | 2 => bits va 33 12
  | 3 => bits va 21 12
  | _ => bits va 16 5

/-- Whether a valid entry is malformed (R267, R268, R282). -/
def malformed (npc level e : Nat) : Bool :=
  if bitOf e 62 then
    let tgt := bits e 60 2
    let log := levelLog level
    level == 1 || tgt == 3 || bits e 58 2 == 3 || bits e 48 2 != 0 || bits e 0 16 != 0
      || bits e 16 (log - 16) != 0
      || (tgt == 0 && decide (npc * 2 ^ 30 ≤ bits e 16 32 * 2 ^ 16))
      || (bitOf e 54 && tgt == 2)
      || (!bitOf e 53 && bits e 50 3 != 0)
  else level == 4 || bits e 48 14 != 0 || bits e 0 8 != 0 || decide (npc * 2 ^ 30 ≤ bits e 8 40 * 2 ^ 8)

/-- The walk from a node at a level: the leaf with its level, or the fault of R268. A root that points past the die's memory is
malformed, like an entry that does (R3, notes/assumptions/109). -/
def walkFrom (s : State) (die va acc : Nat) : Nat → Nat → Except TFault (Nat × Nat)
  | 0, _ => .error { code := Code.pagePermission, va := va, acc := acc }
  | k + 1, node =>
    let level := 4 - k
    let pa := node + 8 * levelIndex level va
    let e := s.localWord die pa 8
    if s.npc die * 2 ^ 30 ≤ pa then .error { code := Code.pagePermission, va := va, acc := acc, level := level, mal := true }
    else if (s.eccOf die pa).bad then .error { code := Code.memUncorrectable, va := va, acc := acc, level := level }
    else if !bitOf e 63 then .error { code := Code.pageNotPresent, va := va, acc := acc, level := level }
    else if malformed (s.npc die) level e then
      .error { code := Code.pagePermission, va := va, acc := acc, level := level, mal := true }
    else if bitOf e 62 then .ok (level, e)
    else walkFrom s die va acc k (bits e 8 40 * 2 ^ 8)

/-- The words a walk reads, each with its check state to be looked at (R293). -/
def walkWords (s : State) (die va : Nat) : Nat → Nat → List Nat
  | 0, _ => []
  | k + 1, node =>
    let level := 4 - k
    let pa := node + 8 * levelIndex level va
    let e := s.localWord die pa 8
    if s.npc die * 2 ^ 30 ≤ pa then []
    else if (s.eccOf die pa).bad || !bitOf e 63 || malformed (s.npc die) level e || bitOf e 62 then [pa]
    else pa :: walkWords s die va k (bits e 8 40 * 2 ^ 8)

/-- What an access asks of its translation: the access code of R269, whether it is ordered in a way a UO page forbids
(R97, R103), whether it is an `AMO` kind that PCIe does not carry (R255), whether its address has a bit above bit 56 (R270). -/
structure Ask where
  acc : Nat
  ordered : Bool := false
  amoBad : Bool := false
  high : Bool := false
  deriving DecidableEq, Repr

def Ask.needsR (a : Ask) : Bool := a.acc == 0 || a.acc == 2 || a.acc == 4
def Ask.needsW (a : Ask) : Bool := a.acc == 1 || a.acc == 2 || a.acc == 5
def Ask.needsX (a : Ask) : Bool := a.acc == 3

/-- A translation that passed: the home, the page's kind, whether it goes through a peer window. -/
structure Xl where
  tgt : Tgt
  kind : Nat
  peer : Bool
  deriving DecidableEq, Repr

/-- Whether the exporting die is in reset by the Switchyard state the importing die holds (R278, R356). -/
def State.peerDown (s : State) (a b : Nat) : Bool :=
  let st := (s.circuit a b).st
  st == .down || st == .reset

/-- Whether the handle check of R278 passes. A page that does not lie in the exporting die's memory fails it (R3,
notes/assumptions/109). -/
def handleOk (s : State) (die : Nat) (e : TlbEnt) (a : Ask) : Bool :=
  let h0 := e.h0.toNat
  let h1 := e.h1.toNat
  let exporter := bits h0 58 3
  let off := bits e.leaf.toNat 16 22
  bitOf h0 63 && !bitOf h0 57 && bits h0 0 16 == 0 && bits h1 22 42 == 0 && decide (1 ≤ bits h1 0 22)
    && exporter != die
    && decide ((bits h0 16 41 + off) * 2 ^ 16 + 2 ^ e.log ≤ s.npc exporter * 2 ^ 30)
    && decide (off + 2 ^ (e.log - 16) ≤ bits h1 0 22)
    && (!a.needsR || bitOf h0 62) && (!a.needsW || bitOf h0 61) && !a.needsX
    && !s.peerDown die exporter

/-- The checks of R270 at a leaf, in their order, and the home they lead to. -/
def checkLeaf (s : State) (die : Nat) (e : TlbEnt) (va : Nat) (a : Ask) : Except TFault Xl :=
  let leaf := e.leaf.toNat
  let tgt := bits leaf 60 2
  let kind := bits leaf 58 2
  let off := va % 2 ^ e.log
  let flt (c : Nat) : TFault := { code := c, va := va, acc := a.acc }
  if bitOf leaf 54 && a.needsW then .error (flt Code.migrateWait)
  else if tgt == 2 && !handleOk s die e a then .error (flt Code.peerWindow)
  else if (a.needsR && !bitOf leaf 57) || (a.needsW && !bitOf leaf 56) || (a.needsX && !bitOf leaf 55)
      || (bitOf leaf 53 && tgt != 1) || (a.amoBad && tgt == 1) || a.high then .error (flt Code.pagePermission)
  else if a.ordered && kind == 2 then .error (flt Code.orderKind)
  else
    let base := bits leaf 16 32 * 2 ^ 16
    .ok (match tgt with
      | 0 => { tgt := .loc die (base + off), kind := kind, peer := false }
      | 1 =>
        if bitOf leaf 53 then { tgt := .pub (bits leaf 50 3) (base + off), kind := kind, peer := false }
        else { tgt := .host (base + off), kind := kind, peer := false }
      | _ =>
        { tgt := .loc (bits e.h0.toNat 58 3) (bits e.h0.toNat 16 41 * 2 ^ 16 + bits leaf 16 22 * 2 ^ 16 + off),
          kind := kind, peer := true })

/-- The handle entry a peer leaf names (R277). A handle table that does not translate to local or host memory reads as V = 0, and so does
an entry whose word is uncorrectable or poisoned (notes/assumptions/21). -/
def State.handleEntry (s : State) (ctx h : Nat) : Word × Word :=
  let die := ctx / 64
  let c := s.context ctx
  let va := c.htbase + 16 * h
  match walkFrom s die va 4 4 c.root with
  | .ok (level, e) =>
    let off := va % 2 ^ levelLog level
    let a := match bits e 60 2 with
      | 0 =>
        let pa := bits e 16 32 * 2 ^ 16 + off
        if (s.eccOf die pa).bad then none else some (Addr.localMem die pa)
      | 1 => some (Addr.host (bits e 16 32 * 2 ^ 16 + off))
      | _ => none
    match a with
    | some a =>
      let w (b : Nat) : Word := word (ofBytes ((List.range 8).map (fun i => s.stored (b + i))))
      (w a, w (a + 8))
    | none => (0, 0)
  | .error _ => (0, 0)

/-- A walk of a context's tree (R268): the translation it finds, ready to be cached. -/
def State.walk (s : State) (ctx va acc : Nat) : Except TFault TlbEnt :=
  match walkFrom s (ctx / 64) va acc 4 (s.context ctx).root with
  | .error f => .error f
  | .ok (level, e) =>
    let log := levelLog level
    let h := if bits e 60 2 == 2 then s.handleEntry ctx (bits e 38 10) else (0, 0)
    .ok { ctx := ctx, base := va / 2 ^ log * 2 ^ log, log := log, leaf := word e, h0 := h.1, h1 := h.2 }

/-- A walk and its checks: what an operation's line or the device's machinery meets (R280). An address with a bit above
bit 56 lacks permission, which is the fourth of the checks (R270). -/
def State.translate (s : State) (ctx va : Nat) (a : Ask) : Except TFault Xl :=
  match s.walk ctx (va % 2 ^ 57) a.acc with
  | .error f => .error f
  | .ok e => checkLeaf s (ctx / 64) e (va % 2 ^ 57) { a with high := a.high || decide (2 ^ 57 ≤ va) }

/-! ### Translation caches (R271) -/

def TlbEnt.hits (e : TlbEnt) (ctx va : Nat) : Bool := e.ctx == ctx && e.base == va / 2 ^ e.log * 2 ^ e.log

/-- A TLB with a translation added, the oldest dropped when it is full (notes/assumptions/12). -/
def tlbAdd (cap : Nat) (e : TlbEnt) (l : List TlbEnt) : List TlbEnt :=
  (e :: l.filter (fun x => !(x.ctx == e.ctx && x.base == e.base && x.log == e.log))).take cap

def State.tlbLookup (l : List TlbEnt) (ctx va : Nat) : Option TlbEnt := l.find? (fun e => e.hits ctx va)

/-- The translation of an address from the last-level TLB of the context's die, or else from the tree (R271). -/
def State.dieEnt (s : State) (ctx va acc : Nat) : Except TFault TlbEnt :=
  match State.tlbLookup (s.die (ctx / 64)).tlb ctx va with
  | some e => .ok e
  | none => s.walk ctx va acc

/-- A translation for an operation's line (R280): as `translate`, through the last-level TLB (R271). -/
def State.lineXl (s : State) (ctx va : Nat) (a : Ask) : Except TFault Xl :=
  match s.dieEnt ctx (va % 2 ^ 57) a.acc with
  | .error f => .error f
  | .ok e => checkLeaf s (ctx / 64) e (va % 2 ^ 57) { a with high := a.high || decide (2 ^ 57 ≤ va) }

/-! ### The machinery's own accesses -/

/-- The byte that the publication buffer of a die holds for a host address, if it holds one: the one written last (R364). -/
def Die.pubByte (d : Die) (a : Nat) : Option Byte := (d.pubBuf.reverse.find? (fun e => e.addr == a)).map PubByte.val

/-- A byte of host memory as a device read from a die finds it: in the publication buffer of that die first (R364). -/
def State.hostByte (s : State) (die a : Nat) : Byte := ((s.die die).pubByte a).getD (s.mem.read (Addr.host a))

/-- A byte at its home, as a context reads it. -/
def State.homeByte (s : State) (ctx : Nat) : Tgt → Byte
  | .loc d pa => s.stored (Addr.localMem d pa)
  | .host a => s.hostByte (ctx / 64) a
  | .pub _ a => s.hostByte (ctx / 64) a

/-- A home `k` bytes further. -/
def Tgt.plus (k : Nat) : Tgt → Tgt
  | .loc d pa => .loc d (pa + k)
  | .host a => .host (a + k)
  | .pub w a => .pub w (a + k)

def State.homeBytes (s : State) (ctx : Nat) (t : Tgt) (n : Nat) : List Byte :=
  match t with
  | .loc d pa => s.storedRun (Addr.localMem d pa) n
  | .host a =>
    if (s.die (ctx / 64)).pubBuf.isEmpty then s.mem.readN (Addr.host a) n else (List.range n).map (fun i => s.hostByte (ctx / 64) (a + i))
  | .pub _ _ => (List.range n).map (fun i => s.homeByte ctx (t.plus i))

/-- Whether a read of a home meets an uncorrectable word (R293). -/
def State.homeBad (s : State) : Tgt → Nat → Bool
  | .loc d pa, n => (List.range n).any (fun i => (s.eccOf d (pa + i)).bad)
  | _, _ => false

/-- A read by the machinery of bytes that lie in one 64-byte line. -/
def State.vread (s : State) (ctx va n acc : Nat) : Except TFault (List Byte) :=
  match s.translate ctx va { acc := acc } with
  | .error f => .error f
  | .ok x =>
    if s.homeBad x.tgt n then .error { code := Code.memUncorrectable, va := va, acc := acc }
    else .ok (s.homeBytes ctx x.tgt n)

/-- A read by the machinery of `n` lines. -/
def State.vreadLines (s : State) (ctx acc : Nat) : Nat → Nat → Except TFault (List Byte)
  | 0, _ => .ok []
  | k + 1, va =>
    match s.vread ctx va 64 acc with
    | .error f => .error f
    | .ok bs =>
      match State.vreadLines s ctx acc k (va + 64) with
      | .error f => .error f
      | .ok r => .ok (bs ++ r)

/-- `n` bytes from any address, by 64-byte lines. -/
def State.vreadBytes (s : State) (ctx va n acc : Nat) : Except TFault (List Byte) :=
  let lo := va / 64 * 64
  match s.vreadLines ctx acc ((va + n + 63) / 64 - va / 64) lo with
  | .error f => .error f
  | .ok bs => .ok ((bs.drop (va - lo)).take n)

/-- Eight-byte words of a byte list. -/
def wordsOf : Nat → List Byte → List Word
  | 0, _ => []
  | n + 1, bs => word (ofBytes (bs.take 8)) :: wordsOf n (bs.drop 8)

end Sys2Proof.Machine
end

