-- ==== Sys2Proof/Machine/Channel.lean ====
section
/-!
DEFINITION. The pseudo-channels of a die's memory (R284, R289, R290, R299): their rotations and modes, and what reads and page walks leave
behind in them and in the translation cache (R271, R293).
-/

namespace Sys2Proof.Machine

/-! ### Rotations and modes (R284, R289, R290, R299) -/

/-- The least multiple of 256 that is not below a cycle: a rotation boundary (R284). -/
def boundary (c : Nat) : Nat := (c + 255) / 256 * 256

/-- Whether a piece of work is posted on its pseudo-channel: a query's entry or a run, not the loading of a micro-program (R299). -/
def BuWork.posted : BuWork → Bool
  | .prog _ _ => false
  | _ => true

/-- Whether a bank-unit program is active or posted on a pseudo-channel (R289, R299). -/
def State.pcShared (s : State) (die p : Nat) : Bool :=
  s.units.any (fun kv => decide (kv.1 / 32 = 128 * die + p) && (kv.2.running || kv.2.work.any BuWork.posted))

/-- The first rotation that is shared for what is posted on a pseudo-channel without a break (R299). -/
def State.sharedFrom (s : State) (die p : Nat) : Nat :=
  (s.units.filter (fun kv => decide (kv.1 / 32 = 128 * die + p) && (kv.2.running || kv.2.work.any BuWork.posted))).foldl
    (fun r kv => min r (boundary kv.2.since / 256)) (s.now / 256)

/-- The stack of a pseudo-channel: 0 lower, 1 upper (R281, R282). -/
def Die.stackOf (d : Die) (p : Nat) : Nat := if p < popCount 64 d.pcmap0 then 0 else 1

/-- Whether a request waits for its slot at a pseudo-channel. -/
def PChan.waits (c : PChan) : Bool := !c.unslot.isEmpty || c.queues.any (fun e => !e.2.isEmpty)

/-- The mode of the rotation that begins at a boundary, and the cycle power-down began (R289, R290): from the idle timer and what
waits, and from what was recorded of a pseudo-channel that was in power-down when what decides it last changed. One that was shared has
not been in power-down before. -/
def PChan.modeAt (c : PChan) (d : Die) (p : Nat) (shared : Bool) (r : Nat) : PcMode × Nat :=
  let fb := NMap.get false d.fb (d.stackOf p)
  if shared then (.shared, 0)
  else if c.waits ∨ d.pdidle = 0 ∨ r < c.idleFrom + d.pdidle then (.active, 0)
  else
    let bp := if c.pdFrom ≠ 0 then c.pdFrom else max (max d.mctlAt c.sharedTo) (boundary (c.idleFrom + d.pdidle))
    let was := c.mode == .selfRefresh && c.pdFrom != 0
    if (fb && was) || (d.sridle != 0 && !fb && decide (bp + d.sridle ≤ r)) then (.selfRefresh, bp) else (.powerDown, bp)

/-- The cycles an exit from a low-power mode takes (R287). -/
def exitCycles : PcMode → Nat
  | .powerDown => 24
  | .selfRefresh => 640
  | _ => 0

/-- The mode of the rotation before one that does not come before the last that was fixed. -/
def PChan.modeBefore (c : PChan) (d : Die) (p r : Nat) : PcMode :=
  if c.rot = r then c.before else if c.rot + 1 = r then c.mode else (c.modeAt d p false (256 * (r - 1))).1

/-- When the exit is complete that a pseudo-channel makes as it becomes shared, from the mode of the rotation before (R299). -/
def PChan.exitFor (c : PChan) (d : Die) (p r : Nat) : Nat := max c.exitAt (256 * r + exitCycles (c.modeBefore d p r))

/-- The mode of the current rotation is fixed, if it is not yet (R289). -/
def State.fixMode (s : State) (die p : Nat) : State :=
  let d := s.die die
  let c := d.pc p
  let r := s.now / 256
  if c.rot = r then s
  else
    let m := c.modeAt d p (s.pcShared die p) (r * 256)
    let r0 := s.sharedFrom die p
    if m.1 = .shared then
      s.onPc die p (fun c => { c with mode := .shared, rot := r, before := if r0 < r then .shared else c.modeBefore d p r,
                                      exitAt := if c.mode == .shared && decide (r0 ≤ c.rot) then c.exitAt else c.exitFor d p r0 })
    else s.onPc die p (fun c => { c with mode := m.1, rot := r, before := c.modeBefore d p r })

/-- The mode of the rotation that begins in this cycle is decided anew, as what is posted in its boundary cycle counts (R299). -/
def State.atBoundary (s : State) (die p : Nat) : State :=
  if s.now % 256 = 0 then
    let d := s.die die
    let c := d.pc p
    let r := s.now / 256
    if c.mode = .shared ∧ c.rot = r then s
    else s.onPc die p (fun c => { c with mode := .shared, rot := r, before := c.modeBefore d p r, exitAt := c.exitFor d p r })
  else s

/-- A request or a command is accepted: the idle timer of the pseudo-channel restarts. In a boundary cycle it wins over an
entry into a low-power state (R290). -/
def State.touchPc (s : State) (die p : Nat) : State :=
  let s := s.fixMode die p
  let s := s.onPc die p (fun c => { c with
    idleFrom := s.now, pdFrom := 0,
    mode := if s.now % 256 = 0 ∧ c.mode ≠ .shared then .active else c.mode })
  let ev := Instr.evRotationBoundary die p
  if s.isDue (· == .ev ev) then s else s.postEv (boundary (s.now + 1)) ev

/-- The start of the next own slot of core number n on pseudo-channel p, at or after a cycle (R284). -/
def nextSlot (n p from_ : Nat) : Nat := from_ + (4 * ((n + p) % 64) + 256 - from_ % 256) % 256

/-- The core number that owns the slot that begins in a cycle (R284). -/
def slotOwner (p cyc : Nat) : Nat := (cyc / 4 % 64 + 128 - p) % 64

/-! ### What reads and walks leave behind (R271, R293) -/

/-- CECNT rises, saturating (R292). -/
def State.countCorrected (s : State) (die : Nat) : State :=
  s.onDie die (fun d => { d with cecnt := min (d.cecnt + 1) (2 ^ 32 - 1) })

/-- A read met a correctable word: it is counted, and a scrub write waits for an unclaimed slot (R293). -/
def State.scrubWord (s : State) (die pa : Nat) : State :=
  if s.eccOf die pa = .correctable then
    let p := (placeOf (s.npc die) pa).p
    let s := ((s.countCorrected die).touchPc die p).onPc die p (fun c =>
      if c.unslot.any (fun u => u.op.isNone && u.land.isNone && u.pa == pa / 32 * 32) then c
      else { c with unslot := c.unslot ++ [{ prio := 0, arrived := s.now, pa := pa / 32 * 32, op := none }] })
    let due := (s.now + 1 + 3) / 4 * 4
    let ev := Instr.evEscapementSlot die p (slotOwner p due)
    if s.isDue (· == .ev ev) then s else s.postEv due ev
  else s

/-- The words of a local run are checked by a read (R293). -/
def State.scrubRun (s : State) (t : Tgt) (n : Nat) : State :=
  match t with
  | .loc d pa => (List.range ((pa + n + 31) / 32 - pa / 32)).foldl (fun s i => s.scrubWord d (pa / 32 * 32 + 32 * i)) s
  | _ => s

/-- A walk has read its entries, and the handle entry a peer leaf names: each word is checked (R268, R277, R293). -/
def State.walkSeen (s : State) (ctx va : Nat) : State :=
  let die := ctx / 64
  let c := s.context ctx
  let ws := walkWords s die va 4 c.root
  let hs := match walkFrom s die va 4 4 c.root with
    | .ok (_, e) =>
      if bits e 60 2 == 2 then
        let hva := c.htbase + 16 * bits e 38 10
        walkWords s die hva 4 c.root ++ (match walkFrom s die hva 4 4 c.root with
          | .ok (level, h) => if bits h 60 2 == 0 then [bits h 16 32 * 2 ^ 16 + hva % 2 ^ levelLog level] else []
          | .error _ => [])
      else []
    | .error _ => []
  (ws ++ hs).foldl (fun s pa => s.scrubWord die pa) s

/-- The last-level TLB holds the translation of an address from now on, if a walk finds one (R271). -/
def State.fillTlb (s : State) (ctx va acc : Nat) : State :=
  let a := va % 2 ^ 57
  match State.tlbLookup (s.die (ctx / 64)).tlb ctx a with
  | some _ => s
  | none =>
    match s.walk ctx a acc with
    | .ok e => (s.walkSeen ctx a).onDie (ctx / 64) (fun d => { d with tlb := tlbAdd 2048 e d.tlb })
    | .error _ => s.walkSeen ctx a

/-- A read by the machinery has met the words of its line (R293). -/
def State.readSeen (s : State) (ctx va n acc : Nat) : State :=
  match s.translate ctx va { acc := acc } with
  | .ok x => (s.walkSeen ctx (va % 2 ^ 57)).scrubRun x.tgt n
  | .error _ => s.walkSeen ctx (va % 2 ^ 57)

/-- The same for a run of bytes, line by line. -/
def State.bytesSeen (s : State) (ctx va n acc : Nat) : State :=
  (List.range ((va + n + 63) / 64 - va / 64)).foldl (fun s i => s.readSeen ctx (va / 64 * 64 + 64 * i) 64 acc) s

end Sys2Proof.Machine
end

