-- ==== Sys2Proof/Machine/Flags.lean ====
section
/-!
DEFINITION. The sticky floating-point flags (R39, R40): when flags are ORed in, and what a write of `fflags` does with
flags of its own cycle.
-/

namespace Sys2Proof.Machine

/-- The flags on their way that land from one cycle up to another. -/
def landed (q : List (Nat × BitVec 5)) (from_ to_ : Nat) : BitVec 5 :=
  q.foldl (fun acc e => if from_ ≤ e.1 ∧ e.1 ≤ to_ then acc ||| e.2 else acc) 0

/-- `fflags` brought up to a cycle: a written value takes effect first, and flags of its own cycle are ORed into it
(R40). -/
def TaskSt.settleFlags (t : TaskSt) (now : Nat) : TaskSt :=
  match t.flagSet with
  | some (c, v) =>
    if c ≤ now then
      { t with fflags := v ||| landed t.flagq c now, flagq := t.flagq.filter (fun e => decide (now < e.1)), flagSet := none }
    else { t with fflags := t.fflags ||| landed t.flagq 0 now, flagq := t.flagq.filter (fun e => decide (now < e.1)) }
  | none => { t with fflags := t.fflags ||| landed t.flagq 0 now, flagq := t.flagq.filter (fun e => decide (now < e.1)) }

/-- Flags of a VX instruction, ORed in when its result becomes ready (R40). -/
def TaskSt.queueFlags (t : TaskSt) (cyc : Nat) (f : BitVec 5) : TaskSt :=
  if f = 0 then t else { t with flagq := t.flagq ++ [(cyc, f)] }

/-- Flags ORed in now: a child operation's, in its completion cycle (R40). -/
def TaskSt.orFlags (t : TaskSt) (now : Nat) (f : BitVec 5) : TaskSt :=
  let t := t.settleFlags now
  { t with fflags := t.fflags ||| f }

/-- A write of `fflags` takes effect in the next cycle (R40, R116). -/
def TaskSt.writeFlags (t : TaskSt) (now : Nat) (v : BitVec 5) : TaskSt :=
  { t.settleFlags now with flagSet := some (now + 1, v) }

/-- What a read of `fflags` in a cycle returns (R40, R116). -/
def TaskSt.flagsAt (t : TaskSt) (now : Nat) : BitVec 5 := (t.settleFlags now).fflags

end Sys2Proof.Machine
end

