-- ==== Sys2Proof/Machine/Regs.lean ====
section
/-!
DEFINITION. The registers of a task (R12 to R14): their numbers, and the one read and the one write of each file.
-/

namespace Sys2Proof.Machine

/-! Register numbers as the scoreboard keeps them (R18). -/
namespace RegKey
def g (i : Nat) : Nat := i
def k (i : Nat) : Nat := 64 + i
def ya : Nat := 72
def yb : Nat := 73
def yv : Nat := 74
def w (i : Nat) : Nat := 80 + i
def v (i : Nat) : Nat := 96 + i
def m (i : Nat) : Nat := 128 + i
end RegKey

/-- A scalar register's value. -/
def TaskSt.scalar (t : TaskSt) (key : Nat) : Word :=
  if key < 64 then NMap.get 0 t.g key
  else if key < 72 then NMap.get 0 t.k (key - 64)
  else if key = 72 then t.ya
  else t.yb

/-- A vector register's value. -/
def TaskSt.vector (t : TaskSt) (key : Nat) : VReg :=
  if key = 74 then t.yv
  else if key < 96 then NMap.get 0 t.w (key - 80)
  else NMap.get 0 t.v (key - 96)

/-- A lane mask: `m0` reads as all ones (R14). -/
def TaskSt.mask (t : TaskSt) (i : Nat) : LaneMask := if i = 0 then BitVec.allOnes 64 else NMap.get 0 t.m i

/-- A scalar register written. A write takes a pending register away from its operation (R187). -/
def TaskSt.setScalar (t : TaskSt) (key : Nat) (x : Word) : TaskSt :=
  if key < 64 then
    { t with g := NMap.put 0 t.g key x, pend := NMap.erase t.pend key, tokOwner := NMap.erase t.tokOwner key }
  else if key < 72 then { t with k := NMap.put 0 t.k (key - 64) x }
  else if key = 72 then { t with ya := x }
  else { t with yb := x }

/-- A vector register written. -/
def TaskSt.setVector (t : TaskSt) (key : Nat) (x : VReg) : TaskSt :=
  if key = 74 then { t with yv := x }
  else if key < 96 then { t with w := NMap.put 0 t.w (key - 80) x }
  else { t with v := NMap.put 0 t.v (key - 96) x }

/-- A lane mask written: a write of `m0` is discarded (R14). -/
def TaskSt.setMask (t : TaskSt) (i : Nat) (x : LaneMask) : TaskSt :=
  if i = 0 then t else { t with m := NMap.put 0 t.m i x }

/-- A register's ready cycle, and the request its value waits for: the younger result counts (R18). -/
def TaskSt.setReady (t : TaskSt) (key cyc : Nat) : TaskSt :=
  { t with rdy := NMap.put 0 t.rdy key cyc, wait := NMap.erase t.wait key }

/-- A register that waits for a request's data (R18, R99). -/
def TaskSt.setWait (t : TaskSt) (key req : Nat) : TaskSt :=
  { t with rdy := NMap.erase t.rdy key, wait := NMap.set t.wait key req,
           pend := NMap.erase t.pend key, tokOwner := NMap.erase t.tokOwner key }

/-- Whether a register is ready in a cycle (R17, R18): its result is out, no data is awaited, no pending bit is set. -/
def TaskSt.isReady (t : TaskSt) (now key : Nat) : Bool :=
  decide (NMap.get 0 t.rdy key ≤ now) && (NMap.find t.wait key).isNone && !NMap.get false t.pend key

/-- The same without the pending bit, for the operand R201 reads whatever its pending bit holds. -/
def TaskSt.isReadyId (t : TaskSt) (now key : Nat) : Bool :=
  decide (NMap.get 0 t.rdy key ≤ now) && (NMap.find t.wait key).isNone

/-- A scalar result written to a register, ready from a cycle. -/
def TaskSt.putScalar (t : TaskSt) (key : Nat) (x : Word) (cyc : Nat) : TaskSt := (t.setScalar key x).setReady key cyc

/-- A vector result written to a register, ready from a cycle. -/
def TaskSt.putVector (t : TaskSt) (key : Nat) (x : VReg) (cyc : Nat) : TaskSt := (t.setVector key x).setReady key cyc

/-- A token register takes an identifier and its pending bit (R71, R186). -/
def TaskSt.setToken (t : TaskSt) (r : Nat) (x : Word) (o : TokOwner) : TaskSt :=
  { t with g := NMap.put 0 t.g r x, pend := NMap.set t.pend r true, tokOwner := NMap.set t.tokOwner r o,
           rdy := NMap.erase t.rdy r, wait := NMap.erase t.wait r }

/-- A completion writes its token register, unless the register was taken away (R187). -/
def TaskSt.endToken (t : TaskSt) (r : Nat) (o : TokOwner) (x : Word) (cyc : Nat) : TaskSt :=
  if NMap.find t.tokOwner r = some o then
    { t with g := NMap.put 0 t.g r x, pend := NMap.erase t.pend r, tokOwner := NMap.erase t.tokOwner r,
             rdy := NMap.put 0 t.rdy r cyc }
  else t

/-- A pending bit cleared with the register kept (R202, `OPDETACH`). -/
def TaskSt.dropToken (t : TaskSt) (r : Nat) (o : TokOwner) : TaskSt :=
  if NMap.find t.tokOwner r = some o then
    { t with pend := NMap.erase t.pend r, tokOwner := NMap.erase t.tokOwner r }
  else t

/-- The layout of a status word (R188). -/
def statusWord (code unit detail : Nat) : Word := word (code % 256 + unit % 256 * 2 ^ 8 + detail * 2 ^ 16)

/-- The identifier of an operation (R186). -/
def opIdent (key gen : Nat) : Word := word (gen % 2 ^ 24 + key % 8192 * 2 ^ 24 + key / 8192 * 2 ^ 37)

/-- Where an identifier points: the table key, its generation, and whether the fields a live one leaves zero are. -/
def identKey (x : Word) : Nat := bits x.toNat 24 13 + 8192 * bits x.toNat 37 3
def identGen (x : Word) : Nat := bits x.toNat 0 24
def identOk (x : Word) : Bool := decide (x.toNat < 2 ^ 40)

/-! ### `est`, `tcount` and `prio` (R116 to R118) -/

/-- Whether the task's time counts: RUNNING or PARKED for `tcount` (R116). -/
def TaskMode.counts : TaskMode → Bool
  | .running => true
  | .held => true
  | .brk => true
  | .parked => true
  | _ => false

/-- Whether `est` falls: RUNNING (R117). -/
def TaskMode.runs : TaskMode → Bool
  | .running => true
  | .held => true
  | .brk => true
  | _ => false

/-- What a task is doing, or was doing when its save began. -/
def TaskSt.doing (t : TaskSt) : TaskMode := if t.mode = .saving then t.saveFrom else t.mode

def TaskSt.tcountAt (t : TaskSt) (now : Nat) : Nat := if t.doing.counts then t.tcount + (now - t.stamp) else t.tcount

/-- What is left of the declared count in a cycle (R26). -/
def TaskSt.leftAt (t : TaskSt) (now : Nat) : Nat := if t.doing.runs then t.left - (now - t.stamp) else t.left

/-- A count that falls in every cycle the task is RUNNING (R117). -/
def TaskSt.fallen (t : TaskSt) (from_ now v : Nat) : Nat := if t.doing.runs then v - (now - from_) else v

/-- `est` (R117): what the last `CYCEST` set, from the cycle after it; 0 once the declared count has run out, until a later one. -/
def TaskSt.estAt (t : TaskSt) (now : Nat) : Nat :=
  let out := t.leftAt now == 0
  match t.estSet with
  | some (c, v) =>
    if c ≤ now then (if out && !(t.estFree || t.leftAt c == 0) then 0 else t.fallen c now v)
    else if out && !t.estFree then 0 else t.fallen t.stamp now t.est
  | none => if out && !t.estFree then 0 else t.fallen t.stamp now t.est

/-- Whether a `CYCEST` that has taken effect came after the declared count had run out. -/
def TaskSt.estFreeAt (t : TaskSt) (now : Nat) : Bool :=
  t.estFree || (match t.estSet with
    | some (c, _) => decide (c ≤ now) && t.leftAt c == 0
    | none => false)

/-- The cycle from which the watchdog counts for a task: those it has waited in `BRK` up to a cycle are left out (R343). -/
def TaskSt.brkClear (t : TaskSt) (now : Nat) : Nat :=
  match t.brk with
  | some b => if t.doing = .brk then t.lastClear + (now - max b.1 t.lastClear) else t.lastClear
  | none => t.lastClear

/-- `est` and `tcount` brought up to a cycle. -/
def TaskSt.sync (t : TaskSt) (now : Nat) : TaskSt :=
  { t with tcount := t.tcountAt now, est := t.estAt now, left := t.leftAt now, estFree := t.estFreeAt now,
           estSet := t.estSet.filter (fun e => decide (now < e.1)), stamp := now }

/-- A change of what the task is doing. -/
def TaskSt.setMode (t : TaskSt) (now : Nat) (m : TaskMode) : TaskSt := { t.sync now with mode := m }

/-- The priority in a cycle (R118). -/
def TaskSt.prioAt (t : TaskSt) (now : Nat) : Nat := if t.prioFrom ≤ now then t.prio else t.prioPrev

/-- `TaskSt` of the core with an engine replaced. -/
def TaskSt.eng (t : TaskSt) (e : Nat) : Engine := if e = 0 then t.me0 else t.me1
def TaskSt.setEng (t : TaskSt) (e : Nat) (x : Engine) : TaskSt := if e = 0 then { t with me0 := x } else { t with me1 := x }
def TaskSt.onEng (t : TaskSt) (e : Nat) (f : Engine → Engine) : TaskSt := t.setEng e (f (t.eng e))

end Sys2Proof.Machine
end

