-- ==== Sys2Proof/Machine/Trap.lean ====
section
/-!
DEFINITION. Records of the trap queue, the fatal mailbox and the notices (R340, R341, R347, R386), writes at a home with
their error correction (R294), and the counting semaphores (R230, R231).
-/

namespace Sys2Proof.Machine

/-- What a record says, before SEQ and DROPS (R341). -/
structure RecInfo where
  fatal : Bool := false
  repl : Bool := false
  kind : Nat := 0
  unit : Nat := 0
  code : Nat := 0
  grp : Nat := 0
  task : Nat := 0
  coord : Nat := 0
  bundle : Nat := 0
  bays : Nat := 0
  done : Nat := 0
  detail : Nat := 0
  word5 : Nat := 0
  opid : Nat := 0
  prog : Nat := 0
  kspec : List Nat := []
  deriving DecidableEq, Repr

/-- The sixteen words of a record (R341). -/
def RecInfo.words (r : RecInfo) (seq drops : Nat) : List Word :=
  [ r.code % 256 + r.unit % 256 * 2 ^ 8 + r.kind % 4 * 2 ^ 20 + (if r.repl then 2 ^ 22 else 0)
      + (if r.fatal then 2 ^ 23 else 0) + drops % 256 * 2 ^ 24 + seq % 2 ^ 32 * 2 ^ 32,
    r.coord % 2 ^ 9 + r.task % 2 ^ 20 * 2 ^ 12 + r.grp % 2 ^ 32 * 2 ^ 32,
    r.bundle % 2 ^ 57,
    r.done % 2 ^ 7 + r.bays % 2 ^ 7 * 2 ^ 8,
    r.detail, r.word5, r.opid, r.prog ].map word
    ++ ((r.kspec ++ List.replicate 8 0).take 8).map word

/-- A record that waits for SEQ and DROPS: its words with both zero. -/
def RecInfo.raw (r : RecInfo) : TrapRec := r.words 0 0

/-- SEQ and DROPS set in a record. -/
def stampRec (w : TrapRec) (seq drops : Nat) : TrapRec :=
  match w with
  | w0 :: ws => word (w0.toNat % 2 ^ 24 + drops % 256 * 2 ^ 24 + seq % 2 ^ 32 * 2 ^ 32) :: ws
  | [] => []

/-- The bytes of a record. -/
def recBytes (w : TrapRec) : List Byte := w.flatMap (fun x => toBytes 8 x.toNat)

def recFatal (w : TrapRec) : Bool := bitOf (w.headD 0).toNat 23
def recRepl (w : TrapRec) : Bool := bitOf (w.headD 0).toNat 22
def recCode (w : TrapRec) : Nat := (w.headD 0).toNat % 256

/-- An interrupt of a die's function: vector c for context c, 64 for the fatal mailbox (R358). -/
def State.raiseIntr (s : State) (die vec : Nat) : State :=
  s.onDie die (fun d => { d with intr := NMap.set d.intr vec (NMap.get 0 d.intr vec + 1) })

/-- A report to the crown controller: what it is, and about which part. -/
def State.report (s : State) (what part : Nat) : State :=
  { s with crown := { s.crown with reports := s.crown.reports ++ [(what, part)] } }

/-- A record to the die's fatal mailbox (R347). -/
def State.toMailbox (s : State) (ctx : Nat) (w : TrapRec) : State :=
  let die := ctx / 64
  let s := s.onDie die (fun d =>
    if d.fatalFull then { d with fatalCount := min (d.fatalCount + 1) 0xFFFF }
    else { d with fatalRec := w, fatalCtx := ctx % 64, fatalFull := true })
  (s.raiseIntr die 64).report 1 ctx

/-- A fatal cause of a context (R342, R346): it joins the chain of causes, and what follows is `evFatalCause`. -/
def State.fatal (s : State) (ctx : Nat) (r : RecInfo) : State :=
  let s := s.onContext ctx (fun c => { c with causes := c.causes ++ [{ r with fatal := true }.raw] })
  s.postEv s.now (.evFatalCause ctx (BitVec.ofNat 8 r.code))

/-- What a record says of its source (R386). -/
def RecInfo.src (r : RecInfo) : SigSrc :=
  { bundle := BitVec.ofNat 57 r.bundle, coord := r.coord, grp := r.grp, task := r.task, opid := word r.opid, unit := r.unit }

/-- A record that names its source (R386). -/
def infoOf (x : SigSrc) : RecInfo :=
  { bundle := x.bundle.toNat, coord := x.coord, grp := x.grp, task := x.task, opid := x.opid.toNat, unit := x.unit }

/-- How long a posted write is held while the link is down: 100 ms (R359). -/
def postedHold : Nat := 225000000

/-- A posted write is held (R359). -/
def State.holdPosted (s : State) (die : Nat) (w : Posted) : State :=
  (s.onDie die (fun d => { d with posted := d.posted ++ [{ w with until_ := s.now + postedHold }] })).postEv (s.now + postedHold)
    (.evPostedWriteDiscard die)

/-- Whether an Ewen port carries traffic (R360). -/
def EwenSt.carries : EwenSt → Bool
  | .up | .degraded => true
  | _ => false

/-- The Ewen port an access of a die to a host address goes to: that of the aperture it lies in (R360). -/
def State.portOf (s : State) (die a : Nat) : Option Nat :=
  ((s.die die).routes.find? (fun r => decide (r.1 ≤ a) && decide (a < r.1 + r.2.1))).map (fun r => r.2.2)

/-- Whether an access of a die to a host address meets a link that is down: the host link, or the Ewen port it is routed to (R359 to
R361). -/
def State.hostCut (s : State) (die a : Nat) : Bool :=
  match s.portOf die a with
  | some p => !(s.ewenPort p).st.carries
  | none => (s.die die).hostDown

/-- A write to host memory as a posted write (R358); while the link is down it is held, and what waits for it with it (R359). -/
def State.hostWrite (s : State) (die : Nat) (ctx : Option Nat) (a : Nat) (bs : List (Option Byte)) (r : RecInfo := {})
    (req : Option (Nat × Nat) := none) (op : Option Nat := none) : State :=
  if s.hostCut die a then
    s.holdPosted die { ctx := ctx, addr := a, bytes := bs, until_ := 0, src := r.src, req := req, op := op }
  else { s with mem := s.mem.writeMasked (Addr.host a) bs }

/-- Bytes of a window that the publication buffer of the context's die holds from now on (R364). -/
def State.pubHold (s : State) (ctx core w a : Nat) (bs : List (Option Byte)) : State :=
  s.onDie (ctx / 64) (fun d => { d with pubBuf := d.pubBuf ++ (List.range bs.length).filterMap (fun i =>
    (bs.getD i none).map (fun b => { ctx := ctx, win := w, addr := a + i, at_ := s.now, core := core, val := b })) })

/-- Whole words written at a home by the machinery: their check bits are new (R294). -/
def State.plainWrite (s : State) (ctx : Nat) (t : Tgt) (bs : List Byte) : State :=
  match t with
  | .loc d pa =>
    let s := { s.unveil (Addr.localMem d pa) bs.length with mem := s.mem.writeN (Addr.localMem d pa) bs }
    (List.range (bs.length / 32)).foldl (fun s i => s.setEcc d (pa + 32 * i) .correct) s
  | .host a => s.hostWrite (ctx / 64) (some ctx) a (bs.map some)
  | .pub w a => s.pubHold ctx (64 * (ctx / 64)) w a (bs.map some)

/-- The occupancy of a context's trap queue (R340). -/
def Context.tqOcc (c : Context) : Nat := (c.tqtail + 2 ^ 32 - c.tqhead % 2 ^ 32) % 2 ^ 32

/-- The records of a context that wait for the host link (R340, R359). -/
def State.tqHeld (s : State) (ctx : Nat) : Nat :=
  (s.die (ctx / 64)).posted.countP (fun w => w.trap.isSome && w.ctx == some ctx)

/-- A record stands in its slot: TQTAIL advances, and vector c is raised (R340). A fatal one that took the last slot shows in
FSLOT (R333). -/
def State.recordPosted (s : State) (ctx : Nat) (w : TrapRec) : State :=
  (s.onContext ctx (fun c =>
    { c with tqtail := (c.tqtail + 1) % 2 ^ 32, drops := 0,
             fslot := if recFatal w && c.tqOcc + 1 == 2 ^ c.tqlog then some c.tqtail else c.fslot })).raiseIntr (ctx / 64) (ctx % 64)

/-- The address of the slot the next record of a context goes to (R340). -/
def State.recordSlot (s : State) (ctx : Nat) : Nat :=
  let c := s.context ctx
  c.tqbase + 128 * ((c.tqtail + s.tqHeld ctx) % 2 ^ c.tqlog)

/-- Writes a record into its slot of the trap queue, or answers the fault its translation meets (R340). In a host page whose link
is down it is held like any posted write, and is posted when it leaves. -/
def State.writeRecord (s : State) (ctx : Nat) (w : TrapRec) : Except TFault State :=
  let c := s.context ctx
  match s.translate ctx (s.recordSlot ctx) { acc := 5 } with
  | .error f => .error f
  | .ok x =>
    let held : Option Nat := match x.tgt with
      | .host a => if s.hostCut (ctx / 64) a then some a else none
      | _ => none
    match held with
    | some a => .ok (s.holdPosted (ctx / 64) { ctx := some ctx, addr := a, bytes := [], until_ := 0, trap := some w })
    | none => .ok ((s.plainWrite ctx x.tgt (recBytes (stampRec w c.tqtail c.drops))).recordPosted ctx w)

/-- Posts a record by the table of R340: a fatal one may take the last slot, a replayable one waits, any other is
dropped and counted. A queue whose slot cannot be written makes the context fatal, and what it can no longer post goes to
the mailbox. -/
def State.postRecord (s : State) (ctx : Nat) (w : TrapRec) : State :=
  let c := s.context ctx
  let n := c.tqOcc + s.tqHeld ctx
  let room := if recFatal w then decide (n < 2 ^ c.tqlog) else decide (n + 1 < 2 ^ c.tqlog)
  if c.mailOnly then s.toMailbox ctx w
  else if room then
    let s := s.walkSeen ctx (s.recordSlot ctx % 2 ^ 57)
    match s.writeRecord ctx w with
    | .ok s' => s'
    | .error f =>
      let s := s.onContext ctx (fun c => { c with mailOnly := true })
      (s.toMailbox ctx w).fatal ctx { code := f.code, word5 := f.word5 }
  else if recFatal w then s.toMailbox ctx w
  else if recRepl w then s.onContext ctx (fun c => { c with waiting := c.waiting ++ [w] })
  else s.onContext ctx (fun c => { c with drops := min (c.drops + 1) 255 })

/-- A record posted from its fields. -/
def State.postInfo (s : State) (ctx : Nat) (r : RecInfo) : State := s.postRecord ctx r.raw

/-- A notice (R386). -/
def State.notice (s : State) (ctx : Nat) (r : RecInfo) : State := s.postInfo ctx { r with kind := 3, fatal := false, repl := false }

/-- Replayable records that waited for a slot are posted while slots are free (R340). -/
def State.flushWaiting (s : State) (ctx : Nat) : State :=
  let ws := (s.context ctx).waiting
  ws.foldl (fun s w => s.postRecord ctx w) (s.onContext ctx (fun c => { c with waiting := [] }))

/-! ### Writes at a home (R293, R294) -/

/-- One 32-byte word of local memory written under a byte mask (R294). A write from outside the package belongs to no context and
posts nothing. -/
def State.writeWord (s : State) (die pa : Nat) (bs : List (Option Byte)) (ctx : Nat) (r : RecInfo) : State :=
  let whole := bs.length == 32 && bs.all (fun b => b.isSome)
  let e := s.eccOf die pa
  let s0 := if whole then s.unveil (Addr.localMem die pa) bs.length
    else (List.range bs.length).foldl (fun s i => if (bs.getD i none).isSome then s.unveil (Addr.localMem die pa + i) 1 else s) s
  let s1 := { s0 with mem := s.mem.writeMasked (Addr.localMem die pa) bs }
  if bs.all (fun b => b.isNone) then s
  else if whole then s1.setEcc die pa .correct
  else if e.bad then
    let off := pa % 32
    let msk := ((List.range bs.length).foldl (fun acc i => if (bs.getD i none).isSome then acc + 2 ^ (off + i) else acc) 0)
    let vals := List.replicate off (0 : Byte) ++ bs.map (fun b => b.getD 0)
    let s2 := s1.setEcc die pa .poison
    if 512 ≤ ctx then s2
    else s2.notice ctx
      { r with code := Code.storeMergedPoison, detail := msk, word5 := (pa / 32 * 32) % 2 ^ 57,
               kspec := (chunks8 (vals ++ List.replicate 32 0)) }
  else
    let s2 := s1.setEcc die pa .correct
    if e == .correctable then s2.countCorrected die else s2
where
  chunks8 (bs : List Byte) : List Nat := (List.range 4).map (fun i => ofBytes ((bs.drop (8 * i)).take 8))

/-- A run of bytes written at a home, word by word: `n` words at most. -/
def State.writeLocal (s : State) (die ctx : Nat) (r : RecInfo) : Nat → Nat → List (Option Byte) → State
  | 0, _, _ => s
  | n + 1, pa, bs =>
    let k := 32 - pa % 32
    let s1 := if bs.isEmpty then s else s.writeWord die pa (bs.take k) ctx r
    State.writeLocal s1 die ctx r n (pa + k) (bs.drop k)

/-- A write performed at its home (R250): local memory with its check words, a posted write to the host, or the
publication buffer. `req` or `op` names what waits for a posted write that the link holds. -/
def State.homeWrite (s : State) (ctx : Nat) (r : RecInfo) (t : Tgt) (bs : List (Option Byte)) (req : Option (Nat × Nat) := none)
    (op : Option Nat := none) : State :=
  match t with
  | .loc d pa => s.writeLocal d ctx r (bs.length / 32 + 2) pa bs
  | .host a => s.hostWrite (ctx / 64) (some ctx) a bs r req op
  | .pub w a => s.pubHold ctx r.coord w a bs

/-! ### Scratchpad (R19, R295) -/

def State.padByte (s : State) (core x : Nat) : Byte := s.mem.read (Addr.pad core x)
def State.padBytes (s : State) (core x n : Nat) : List Byte := s.mem.readN (Addr.pad core x) n
def State.padWord (s : State) (core x n : Nat) : Nat := ofBytes (s.padBytes core x n)

/-- The key of a scratchpad line's poison bit. -/
def padLine (core x : Nat) : Nat := Addr.pad core x / 64

/-- Whether any line of a run of scratchpad reads as uncorrectable: its poison bit is set, or any of its eight words holds a
double-bit error (R295). -/
def State.padBad (s : State) (core x n : Nat) : Bool :=
  (List.range ((x + n + 63) / 64 - x / 64)).any (fun i =>
    NMap.get false s.padPoison (padLine core x + i)
      || (List.range 8).any (fun k => decide (2 ≤ NMap.get 0 s.padErr (8 * (padLine core x + i) + k))))

/-- The first line of a run that reads as uncorrectable. -/
def State.padFirstBad (s : State) (core x n : Nat) : Nat :=
  ((List.range ((x + n + 63) / 64 - x / 64)).find? (fun i => s.padBad core (x / 64 * 64 + 64 * i) 64)).elim x
    (fun i => x / 64 * 64 + 64 * i)

/-- A read corrects single-bit errors it meets, writes them back and counts them (R295). -/
def State.padScrub (s : State) (core x n : Nat) : State :=
  (List.range ((x + n + 7) / 8 - x / 8)).foldl (fun s i =>
    let key := Addr.pad core x / 8 + i
    if NMap.get 0 s.padErr key = 1 then { s with padErr := NMap.erase s.padErr key }.countCorrected (dieOf core) else s) s

/-- One 8-byte word of scratchpad written under a byte mask (R295); `cut` says that part of a byte is left out. -/
def State.padWriteWord (s : State) (core x : Nat) (bs : List (Option Byte)) (ctx : Nat) (r : RecInfo) (cut : Bool := false) : State :=
  let s1 := { s with mem := s.mem.writeMasked (Addr.pad core x) bs }
  let whole := !cut && bs.length == 8 && bs.all (fun b => b.isSome)
  let key := Addr.pad core x / 8
  if bs.all (fun b => b.isNone) then s
  else if whole then { s1 with padErr := NMap.erase s1.padErr key }
  else if NMap.get false s.padPoison (padLine core x) || decide (2 ≤ NMap.get 0 s.padErr key) then
    let off := x % 8
    let msk := ((List.range bs.length).foldl (fun acc i => if (bs.getD i none).isSome then acc + 2 ^ (off + i) else acc) 0)
    let s2 := { s1 with padPoison := NMap.set s1.padPoison (padLine core x) true, padErr := NMap.erase s1.padErr key }
    s2.notice ctx { r with code := Code.storeMergedPoison, detail := msk, word5 := x / 8 * 8,
                           kspec := [s2.padWord core (x / 8 * 8) 8] }
  else if NMap.get 0 s.padErr key = 1 then { s1 with padErr := NMap.erase s1.padErr key }.countCorrected (dieOf core)
  else s1

def State.padWriteAux (s : State) (core ctx : Nat) (r : RecInfo) : Nat → Nat → List (Option Byte) → State
  | 0, _, _ => s
  | n + 1, x, bs =>
    let k := 8 - x % 8
    let s1 := if bs.isEmpty then s else s.padWriteWord core x (bs.take k) ctx r
    State.padWriteAux s1 core ctx r n (x + k) (bs.drop k)

/-- A run of scratchpad bytes written under a byte mask. A write of a whole line clears its poison bit (R295). -/
def State.padWrite (s : State) (core x : Nat) (bs : List (Option Byte)) (r : RecInfo := {}) : State :=
  let ctx := ((s.core core).ctx).getD (64 * dieOf core)
  let whole := (List.range (bs.length / 64 + 1)).foldl (fun s i =>
    let lx := (x + 63) / 64 * 64 + 64 * i
    let part := (bs.drop (lx - x)).take 64
    if part.length == 64 && part.all (fun b => b.isSome) then
      { s with padPoison := NMap.erase s.padPoison (padLine core lx) }
    else s) s
  whole.padWriteAux core ctx r (bs.length / 8 + 2) x bs

/-- Plain bytes written to scratchpad. -/
def State.padPut (s : State) (core x : Nat) (bs : List Byte) (r : RecInfo := {}) : State := s.padWrite core x (bs.map some) r

/-- The stores of bays that other agents see in part: those of the last cycles. -/
def recentOf (now : Nat) (l : List BayStore) : List BayStore := l.filter (fun e => decide (now < e.cyc + 4))

/-- A line that a bay stores is noted before it is written: agents other than the bays of its core see it later (R136, R148). -/
def State.noteStore (s : State) (core at_ : Nat) (vst : Bool) (x : Nat) (bs : List (Option Byte)) : State :=
  let old := s.padBytes core x bs.length
  s.onCore core (fun c => { c with recent := recentOf s.now c.recent ++
    [{ cyc := s.now, at_ := at_, vst := vst, addr := x, bytes := (old.zip bs).map (fun p => p.2.map (fun b => (p.1, b))) }] })

/-- What a store covers of a byte: the byte it replaced and the one it wrote. -/
def BayStore.at? (e : BayStore) (x : Nat) : Option (Byte × Byte) := if e.addr ≤ x then (e.bytes.getD (x - e.addr) none) else none

/-- A byte as an agent reads it from which some stores are hidden: the one that stood there before the hidden stores that come after
every other one. The stores are given from the newest on, and `b` is the byte after them. -/
def seenByte (hide : BayStore → Bool) (x : Nat) : List BayStore → Byte → Byte
  | [], b => b
  | e :: l, b =>
    match e.at? x with
    | some p => if hide e then seenByte hide x l p.1 else b
    | none => seenByte hide x l b

/-- Scratchpad as an agent reads it from which some stores are hidden. -/
def State.padSeen (s : State) (core x n : Nat) (hide : BayStore → Bool) : List Byte :=
  let l := (s.core core).recent.reverse
  if l.isEmpty then s.padBytes core x n
  else (List.zip (List.range n) (s.padBytes core x n)).map (fun p => seenByte hide (x + p.1) l p.2)

/-- What a store covers of a byte, changed. -/
def BayStore.setAt (e : BayStore) (x : Nat) (v : Option (Byte × Byte)) : BayStore := { e with bytes := e.bytes.set (x - e.addr) v }

/-- Another agent writes a byte: a store that has taken its bank is past there, and the first that takes it later finds the agent's byte. -/
def landByte (now x : Nat) (b : Byte) : List BayStore → List BayStore
  | [] => []
  | e :: l =>
    match e.at? x with
    | none => e :: landByte now x b l
    | some p => if now < e.at_ then e.setAt x (some (b, p.2)) :: l else e.setAt x none :: landByte now x b l

/-- Another agent writes bytes from x on. -/
def landBytes (now : Nat) : Nat → List (Option Byte) → List BayStore → List BayStore
  | _, [], l => l
  | x, b :: bs, l => landBytes now (x + 1) bs (match b with
    | some b => landByte now x b l
    | none => l)

/-- What bays have stored is no longer what other agents find where another agent writes (R21, R148). -/
def State.passStores (s : State) (core x : Nat) (bs : List (Option Byte)) : State :=
  if (s.core core).recent.isEmpty then s else s.onCore core (fun c => { c with recent := landBytes s.now x bs c.recent })

/-- Scratchpad as the copy engine or a groom reads it for an operation: a `VST` is seen from its fourth cycle on (R136), and at once where
it issued before the command (R256). -/
def State.agentBytes (s : State) (core x n issued : Nat) : List Byte :=
  s.padSeen core x n (fun e => e.vst && decide (s.now < e.cyc + 4) && decide (issued ≤ e.cyc))

/-- A write of another agent, byte by byte from x on, without what a line of a `VST` overwrites that takes its bank later
(R134, R225). -/
def beneath (now : Nat) (l : List BayStore) : Nat → List (Option Byte) → List (Option Byte)
  | _, [] => []
  | x, b :: bs => (if l.any (fun e => decide (now < e.at_) && (e.at? x).isSome) then none else b) :: beneath now l (x + 1) bs

def State.agentWrite (s : State) (core x : Nat) (bs : List (Option Byte)) (r : RecInfo := {}) : State :=
  (s.passStores core x bs).padWrite core x (beneath s.now (s.core core).recent x bs) r

def State.agentPut (s : State) (core x : Nat) (bs : List Byte) (r : RecInfo := {}) : State := s.agentWrite core x (bs.map some) r

/-- The poison bit of every line of a run set. -/
def State.padPoisonLines (s : State) (core x n : Nat) : State :=
  (List.range ((x + n + 63) / 64 - x / 64)).foldl (fun s i =>
    { s with padPoison := NMap.set s.padPoison (padLine core x + i) true }) s

/-! ### Counting semaphores -/

/-- A semaphore's value (R230). -/
def State.sem (s : State) (core i : Nat) : Nat := NMap.get 0 (s.core core).c.sem i

def State.setSem (s : State) (core i v : Nat) : State :=
  s.onCtxSt core (fun c => { c with sem := NMap.put 0 c.sem i v })

/-- The context a core's work belongs to. -/
def State.ctxOf (s : State) (core : Nat) : Nat := ((s.core core).ctx).getD (64 * dieOf core)

/-- Listed tasks of a core are tested again at the end of the cycle (R323). -/
def State.wakeListed (s : State) (core : Nat) : State :=
  s.groups.foldl (fun s kg =>
    (List.range kg.2.tasks.length).foldl (fun s i =>
      match kg.2.tasks[i]? with
      | some t =>
        if t.st == .listed && (t.recd.headD 0).toNat / 2 ^ 32 % 64 == coordWord core % 64 && kg.2.ctx / 64 == dieOf core then
          if s.isDue (· == .ev (.evTaskReady kg.1 i)) then s else s.postEv s.now (.evTaskReady kg.1 i)
        else s
      | none => s) s) s

/-- An increment lands; above 65,535 it saturates and a notice is posted (R231). -/
def State.semAdd (s : State) (core i n : Nat) (src : SigSrc) : State :=
  let v := s.sem core i
  if n = 0 then s
  else if v + n ≤ 65535 then (s.setSem core i (v + n)).wakeListed core
  else
    ((s.setSem core i 65535).notice (s.ctxOf core)
      { infoOf src with code := Code.semOverflow, detail := i % 256 + n % 256 * 2 ^ 8 }).wakeListed core

/-- A consume (R71, R112). -/
def State.semTake (s : State) (core i n : Nat) : State := s.setSem core i (s.sem core i - n)

end Sys2Proof.Machine
end

