-- ==== Sys2Proof/Machine/Objects.lean ====
section
/-!
DEFINITION. The objects of a context on a core: queues (R165 to R177), barriers (R232 to R235), declared buffers (R236
to R238), and the tokens of commands that create no operation (R71).
-/

namespace Sys2Proof

/-! ### Tokens of commands without an operation -/

/-- The header of a command (R70). -/
def Instr.cmdHdr : Instr → Option CmdHdr
  | .mma h _ | .mdist h _ | .mtopk h _ _ _ _ _ _ _ _ _ | .mzero h _ _ | .mdrain h _ _ _ _ _ _ _ _ _
  | .mldacc h _ _ _ _ _ _ _ => some h
  | .cpy h _ _ _ _ | .cpyg h _ _ _ | .cpys h _ _ _ | .cpyx h _ _ _ | .cpysc h _ _ _ | .cplan h _ _ | .cstep h _
  | .subs h _ _ _ | .unsubs h _ => some h
  | .callred h _ _ _ | .cred h _ _ _ | .cbc h _ _ _ | .cag h _ _ _ | .crsc h _ _ _ => some h
  | .opwait h _ | .opcancel h _ | .opdetach h _ | .opadopt h _ | .opquery h _ => some h
  | .qinit h _ _ _ _ _ | .qspliceSend h _ _ _ _ _ | .qspliceRecv h _ _ _ _ _ | .qunsplice h _ | .qreset h _ _
  | .qstat h _ | .qpush h _ _ | .qpop h _ _ => some h
  | .binit h _ | .bexpect h _ _ | .barrive h _ _ _ _ | .bwait h _ _ | .bclear h _ _ | .bufdecl h _ _ _ _
  | .bufset h _ _ _ => some h
  | .bqpost h _ _ _ | .buprog h _ _ | .burun h _ _ _ | .bustat h _ => some h
  | .tlaunch h _ | .tdep h _ | .lease h _ _ _ _ | .leaseRcl h | .lfree h _ | .publish h _ => some h
  | _ => none

/-- The unit of the core a command goes to (R112): 0 and 1 the engines, 2 copy, 3 queue, 4 synchronisation, 5 operation,
6 bank query, 7 group, 8 lease, 9 host. -/
def Instr.cmdUnit : Instr → Nat
  | .mma _ p | .mdist _ p => if p.eng then 1 else 0
  | .mtopk _ e _ _ _ _ _ _ _ _ | .mzero _ e _ | .mdrain _ e _ _ _ _ _ _ _ _ | .mldacc _ e _ _ _ _ _ _ => if e then 1 else 0
  | .qinit _ _ _ _ _ _ | .qspliceSend _ _ _ _ _ _ | .qspliceRecv _ _ _ _ _ _ | .qunsplice _ _ | .qreset _ _ _
  | .qstat _ _ | .qpush _ _ _ | .qpop _ _ _ => 3
  | .binit _ _ | .bexpect _ _ _ | .barrive _ _ _ _ _ | .bwait _ _ _ | .bclear _ _ _ | .bufdecl _ _ _ _ _
  | .bufset _ _ _ _ => 4
  | .opwait _ _ | .opcancel _ _ | .opdetach _ _ | .opadopt _ _ | .opquery _ _ => 5
  | .bqpost _ _ _ _ | .buprog _ _ _ | .burun _ _ _ _ | .bustat _ _ => 6
  | .tlaunch _ _ | .tdep _ _ => 7
  | .lease _ _ _ _ _ | .leaseRcl _ | .lfree _ _ => 8
  | .publish _ _ => 9
  | _ => 2

/-- The entries of a unit's command queue (R146, R178, R201, R204, R240, R307, R326, R350, R365). -/
def Machine.unitDepth : Nat → Nat
  | 2 => 16
  | 8 => 4
  | 9 => 4
  | _ => 8

/-- The UNIT code of a status word (R188, R240, R326, R350, R365). -/
def Instr.unitCode : Instr → Nat
  | .subs _ _ _ _ | .unsubs _ _ => 0x31
  | .callred _ _ _ _ | .cred _ _ _ _ | .cbc _ _ _ _ | .cag _ _ _ _ | .crsc _ _ _ _ => 0x32
  | i =>
    match i.cmdUnit with
    | 0 => 0x10
    | 1 => 0x11
    | 2 => 0x30
    | 3 => 0x20
    | 4 => 0x28
    | 5 => 0x08
    | 6 => 0x40
    | 7 => 0x09
    | 8 => 0x0A
    | _ => 0x0B

end Sys2Proof

namespace Sys2Proof.Machine

/-- Where a command's signal comes from (R231). -/
def Cmd.src (c : Cmd) (core : Nat) (opid : Word := 0) : SigSrc :=
  { bundle := BitVec.ofNat 57 c.bundle, coord := coordWord core, grp := c.grp % 2 ^ 32, task := c.idx, opid := opid,
    unit := c.ins.unitCode }

/-- A command's signal (R71). From a head it is seen from the next cycle on (R385). -/
def State.signal (s : State) (core : Nat) (c : Cmd) (head : Bool) (opid : Word := 0) : State :=
  match c.ins.cmdHdr with
  | some h =>
    if h.sinc = 0 then s
    else if head then s.post s.now (.signal core h.ssem.toNat h.sinc.toNat (c.src core opid))
    else s.semAdd core h.ssem.toNat h.sinc.toNat (c.src core opid)
  | none => s

/-- Whether a command signals when it completes with a code (R71, R201): always, but for a non-zero code of a synchronisation,
group or host command (R240, R326, R365). -/
def signalsOn (unit code : Nat) : Bool := code == 0 || !(unit == 0x28 || unit == 0x09 || unit == 0x0B)

/-- Whether the task on a core is this one. -/
def TaskSt.isTask (t : TaskSt) (gk i : Nat) : Bool := t.mode != .none && t.grp == gk && t.idx == i

/-- A change to a task's own state, on its core or in a suspended slot. -/
def State.onOwner (s : State) (core gk i : Nat) (f : TaskSt → TaskSt) : State :=
  s.onCore core (fun c =>
    if c.t.isTask gk i then { c with t := f c.t }
    else { c with c := { c.c with susp := c.c.susp.map (fun x => if x.t.grp == gk && x.t.idx == i then { x with t := f x.t } else x) } })

/-- A task's watchdog counter is cleared: on its core, or in a suspended slot, where it stands as a count (R343). -/
def State.clearWatch (s : State) (core gk i : Nat) : State :=
  s.onCore core (fun c =>
    if c.t.isTask gk i then { c with t := { c.t with lastClear := s.now } }
    else { c with c := { c.c with susp := c.c.susp.map (fun x =>
      if x.t.grp == gk && x.t.idx == i then { x with t := { x.t with lastClear := 0 } } else x) } })

/-- A command without an operation completes: its token, and its signal (R71, R240). -/
def State.endCmd (s : State) (core : Nat) (c : Cmd) (code detail : Nat) (head : Bool) : State :=
  let s1 := match c.tok with
    | some r => s.onOwner core c.grp c.idx (fun t => t.endToken r (.cmd c.serial) (statusWord code c.ins.unitCode detail) s.now)
    | none => s
  if signalsOn c.ins.unitCode code then s1.signal core c head else s1

/-- A yard's clock runs again (R23), and from the next cycle on it is looked at for idleness anew. -/
def State.ungate (s : State) (die yard : Nat) : State :=
  let t := s.onDie die (fun d => { d with gated := NMap.put false d.gated yard false, wakeAt := NMap.erase d.wakeAt yard,
                                          idleSince := NMap.erase d.idleSince yard })
  if NMap.get false (s.die die).gated yard then t.postEv (s.now + 1) (.evYardGate die yard) else t

/-- Something held at a core of a gated yard lands in the cycle after the clock runs again, at most 32 cycles later (R23): what is
done when the yard runs, and what is made due again, in a cycle that is given, while it does not. -/
def State.atYard (s : State) (core : Nat) (hold : Nat → State → State) (f : State → State) : State :=
  let die := dieOf core
  let yard := yardOf core
  let d := s.die die
  if NMap.get false d.gated yard then
    match NMap.find d.wakeAt yard with
    | some w => if w < s.now then f (s.ungate die yard) else hold (w + 1) s
    | none =>
      let w := s.now + s.delay 32
      (hold (w + 1) (s.onDie die (fun d => { d with wakeAt := NMap.set d.wakeAt yard w }))).spend
  else f s

/-- An arrival at a core (R23). -/
def State.whenAwake (s : State) (core : Nat) (i : Instr) (f : State → State) : State :=
  s.atYard core (fun due s => s.postEv due i) f

/-! ### Queues -/

/-- Counters are 16 bits wide (R165). -/
def ctr (n : Nat) : Nat := n % 65536

def Queue.occ (q : Queue) : Nat := ctr (q.tail + 65536 - q.head)
def Queue.idx (q : Queue) (c : Nat) : Nat := if q.count = 0 then 0 else c % q.count
def Queue.slotAddr (q : Queue) (c : Nat) : Nat := q.base + q.idx c * q.size

/-- Room (R165): the credits of a sender, none while it is paused or its own core is saved (R177). -/
def Queue.room (q : Queue) : Nat :=
  match q.st with
  | .send => if q.paused || q.quiet ≠ 0 then 0 else q.cr
  | .pendS => 0
  | _ => q.count - ctr (q.tail + 65536 - q.rel)

/-- Whether the slot of a counter is present in a cycle (R167). -/
def Queue.present (q : Queue) (now c : Nat) : Bool :=
  match NMap.find q.pres (q.idx c) with
  | some from_ => decide (from_ ≤ now)
  | none => false

/-- Whether the queue is empty (R171). -/
def Queue.isEmpty (q : Queue) : Bool := q.rel == q.head && q.head == q.tail

def QState.mayRead : QState → Bool
  | .opened | .pendR | .recv | .subsR | .lost => true
  | _ => false

def QState.mayAppend : QState → Bool
  | .opened | .pendS | .send | .subsW => true
  | _ => false

/-- The code QSTAT gives a state (R183). -/
def QState.code : QState → Nat
  | .free => 0
  | .opened => 1
  | .pendS => 2
  | .send => 3
  | .pendR => 4
  | .recv => 5
  | .subsR => 6
  | .subsW => 6
  | .lost => 7

def State.queue (s : State) (core q : Nat) : Queue := NMap.get {} (s.core core).c.q q
def State.onQueue (s : State) (core q : Nat) (f : Queue → Queue) : State :=
  s.onCtxSt core (fun c => { c with q := NMap.set c.q q (f (NMap.get {} c.q q)) })

/-- A queue in a message: its number, with the queue that sends above it, so that a message of a partner that is no longer one is
known (R171). -/
def fromQueue (core q pq : Nat) : Nat := pq % 32 + 32 * (1 + 32 * core + q)

/-- Whether a message comes from the partner of a queue. -/
def Queue.isFrom (x : Queue) (qm : Nat) : Bool :=
  match x.partner with
  | some (c, q) => qm / 32 == 1 + 32 * c + q
  | none => false

/-- A change to the queue of a core that has a certain partner: it stands on the core, or in a context that is swapped out. -/
def State.onSpliced (s : State) (core q : Nat) (p : Nat × Nat) (f : Queue → Queue) : State :=
  if (s.queue core q).partner == some p then s.onQueue core q f
  else
    { s with ctxs := s.ctxs.map (fun (kc : Nat × Context) => (kc.1, { kc.2 with
        savedCores := kc.2.savedCores.map (fun (ks : Nat × CtxSt) =>
          if ks.1 = core then (ks.1, { ks.2 with q := ks.2.q.map (fun (kq : Nat × Queue) =>
            if kq.1 = q && kq.2.partner == some p then (kq.1, f kq.2) else kq) }) else ks) })) }

/-- The queues with a certain partner in contexts that are swapped out, each with its context. -/
def State.savedSpliced (s : State) (core q : Nat) (p : Nat × Nat) : List (Nat × Queue) :=
  s.ctxs.flatMap (fun (kc : Nat × Context) => kc.2.savedCores.flatMap (fun (ks : Nat × CtxSt) =>
    if ks.1 = core then ks.2.q.filterMap (fun (kq : Nat × Queue) => if kq.1 = q && kq.2.partner == some p then some (kc.1, kq.2) else none)
    else []))

/-- The queue of a core that has a certain partner, wherever its context is; one without a splice if there is none. -/
def State.spliced (s : State) (core q : Nat) (p : Nat × Nat) : Queue :=
  if (s.queue core q).partner == some p then s.queue core q
  else ((s.savedSpliced core q p).head?.map Prod.snd).getD {}

/-- The core and queue a queue message comes from. -/
def msgFrom (qm : Nat) : Nat × Nat := ((qm / 32 - 1) / 32, (qm / 32 - 1) % 32)

/-- The core a queue message comes from. -/
def senderOf (qm : Nat) : Nat := (msgFrom qm).1

/-- Whether a circuit takes messages: one in SETUP keeps them until it is UP or DEGRADED (R353). -/
def CircSt.carries : CircSt → Bool
  | .setup | .up | .degraded => true
  | _ => false

/-- A splice message that leaves in cycle t arrives (R175): exactly in the cycle given within a yard, at most 64 cycles later on the
die, at most 512 to another die, where it also waits for the circuit (R353). Messages of a sender arrive in the order in which they
were sent (R174), those over one circuit in the order of the circuit (notes/assumptions/71). -/
def State.sendSplice (s : State) (core q : Nat) (p : Nat × Nat) (t : Nat) (lines : Nat) (ordered : Bool) (i : Instr) : State :=
  let q0 := s.spliced core q p
  let a := dieOf core
  let b := dieOf p.1
  if a == b && yardOf core == yardOf p.1 then
    let due := t + 7 + lines
    let due := if ordered then max due q0.msgDue else due
    (s.onSpliced core q p (fun q => { q with msgDue := max due q.msgDue })).postEv due i
  else if a == b then
    let due := max (t + s.delay 64) q0.msgDue
    ((s.onSpliced core q p (fun q => { q with msgDue := due })).postEv due i).spend
  else if !(s.circuit a b).st.carries then s
  else
    let x := s.circuit a b
    let due := max (t + s.delay 512) (max q0.msgDue (if a < b then x.upDue else x.downDue))
    let due := if x.st == .setup then max due (x.passUntil + 1) else due
    (((s.onSpliced core q p (fun q => { q with msgDue := due })).onCircuit a b (fun x =>
      if a < b then { x with upDue := due } else { x with downDue := due })).postEv due i).spend

/-- A control message of a queue to its partner (R175). -/
def State.sendTo (s : State) (core q : Nat) (p : Nat × Nat) (i : Nat → Nat → Instr) : State :=
  s.sendSplice core q p s.now 1 true (i p.1 (fromQueue core q p.2))

/-- A control message to the partner of a queue. -/
def State.sendCtl (s : State) (core q : Nat) (i : Nat → Nat → Instr) : State :=
  match (s.queue core q).partner with
  | some p => s.sendTo core q p i
  | none => s

/-- A message from a die arrives at another: over a circuit in SETUP it waits, unless it was sent before a retrain, which resends it
first, and over one that has failed it is lost (R353, R355, R356). -/
def State.overDies (s : State) (a b : Nat) (i : Instr) (f : State → State) : State :=
  if a = b then f s
  else
    match (s.circuit a b).st with
    | .up | .degraded => f s
    | .setup => if s.now ≤ (s.circuit a b).passUntil then f s else s.onCircuit a b (fun x => { x with held := x.held ++ [i] })
    | _ => s

/-- A message from a core arrives. -/
def State.overCircuit (s : State) (fromCore core : Nat) (i : Instr) (f : State → State) : State := s.overDies (dieOf fromCore) (dieOf core) i f

/-- Slots a queue may release are released (R168): the longest run of popped slots without a reader. A receiver and a
read subscription reserve each released slot again (R174, R222). None is released while a save quiesces the queue or its partner:
the credits would meet a queue that is not there (R177). -/
def State.releaseRun (s : State) (core qi : Nat) : Nat → State
  | 0 => s
  | n + 1 =>
    let q := s.queue core qi
    if q.rel = q.head ∨ q.quiet ≠ 0 ∨ q.paused ∨ 0 < NMap.get 0 q.busy (q.idx q.rel) then s
    else
      let s := s.onQueue core qi (fun q =>
        { q with pres := NMap.erase q.pres (q.idx q.rel), rel := ctr (q.rel + 1),
                 tail := if q.st == .recv || q.st == .subsR then ctr (q.tail + 1) else q.tail })
      let s :=
        match q.st, q.partner, q.sub with
        | .recv, some p, _ => s.sendTo core qi p (fun pc pq => .evCredit pc pq q.hello)
        | .subsR, _, some op => s.postFree 64 (.evGroomTileFill op)
        | _, _, _ => s
      State.releaseRun s core qi n

def State.releaseQ (s : State) (core qi : Nat) : State := s.releaseRun core qi 65536

/-- The head moves (R168); the slots below it are released at the end of the cycle (R169). -/
def State.popTo (s : State) (core qi head : Nat) : State :=
  (s.onQueue core qi (fun q => { q with head := ctr head })).post s.now (.release core qi)

/-- A reserved slot: its counter and the reset count it belongs to (R167, R182). At a sender it is the number of the
append (R174, R377). -/
def State.reserveSlot (s : State) (core qi : Nat) : Nat × State :=
  let q := s.queue core qi
  if q.st == .send || q.st == .pendS then
    (q.gen * 65536 + q.sent % 65536, s.onQueue core qi (fun q => { q with cr := q.cr - 1, sent := q.sent + 1, unsent := q.unsent + 1 }))
  else (q.gen * 65536 + ctr q.tail, s.onQueue core qi (fun q => { q with tail := ctr (q.tail + 1) }))

/-- A local slot's bytes are complete and it is present from a cycle (R167); a write subscription's groom may take it. -/
def State.setPresent (s : State) (core qi c cyc : Nat) : State :=
  let q := s.queue core qi
  let s := s.onQueue core qi (fun q => { q with pres := NMap.set q.pres (q.idx c) cyc })
  match q.st, q.sub with
  | .subsW, some op => (s.postEv (cyc + s.delay 64) (.evGroomTileFill op)).spend
  | _, _ => s

/-- Bytes of an append on their way to the partner of a queue (R174, R175). -/
def State.sendBytes (s : State) (core qi : Nat) (p : Nat × Nat) (t c off : Nat) (bs : List Byte) (last poison : Bool) : State :=
  s.sendSplice core qi p t ((bs.length + 63) / 64) false
    (.evSpliceDataArrive p.1 (fromQueue core qi p.2) { seq := c, off := off, bytes := bs, last := last, poison := poison })

/-- How many appends of a sender have not left, but for those of loads that wait for their page (R177). -/
def State.leaving (s : State) (core qi : Nat) : Nat :=
  let q := s.queue core qi
  q.unsent - (((s.core core).t.replay.map (fun r => r.items)).getD []).countP (fun u => match u.req.dest with
    | .slot i c => i == qi && c / 65536 == q.gen
    | _ => false)

/-- The save of a sender has waited for its own appends to leave: its PAUSE follows them (R177). -/
def State.pauseBehind (s : State) (core qi : Nat) : State :=
  if (s.queue core qi).quiet = 3 ∧ s.leaving core qi = 0 then
    (s.onQueue core qi (fun q => { q with quiet := 1 })).sendCtl core qi (fun pc pq => .evPause pc pq)
  else s

/-- The bytes of an append at offset `off` of its slot, sent or written in cycle t, visible from `cyc`; `last` ends the
append (R166, R167, R174, R377). An append across a reset is discarded (R182). Without bytes of its own a poisoned one poisons its
whole slot (R192). Under a PAUSE the bytes of a sender stay behind (R177). -/
def State.fillSlot (s : State) (core qi slot t cyc off : Nat) (bs : List Byte) (last poison : Bool) : State :=
  let q := s.queue core qi
  if q.gen ≠ slot / 65536 then s
  else
    let c := slot % 65536
    match q.st, q.partner with
    | .send, some p =>
      let s := s.onQueue core qi (fun q =>
        { q with unsent := if last then q.unsent - 1 else q.unsent, lastSend := max q.lastSend t })
      if q.paused then (s.onQueue core qi (fun q => { q with heldOut := q.heldOut ++ [(c, off, bs, last, poison)] })).pauseBehind core qi
      else (s.sendBytes core qi p t c off bs last poison).pauseBehind core qi
    | .free, _ => s
    | .lost, _ => s
    | _, _ =>
      let a := q.slotAddr c + off
      let s := (s.passStores core a (bs.map some)).padPut core a bs
      let s := if poison then s.padPoisonLines core a (if bs.isEmpty then q.size else bs.length) else s
      if last then s.setPresent core qi c cyc else s

/-- What a PAUSE kept back leaves, once neither end is saved (R177). -/
def State.sendHeld (s : State) (core qi : Nat) : State :=
  let q := s.queue core qi
  match q.st, q.partner with
  | .send, some p =>
    if q.paused || q.quiet ≠ 0 then s
    else q.heldOut.foldl (fun s m => s.sendBytes core qi p s.now m.1 m.2.1 m.2.2.1 m.2.2.2.1 m.2.2.2.2)
      (s.onQueue core qi (fun q => { q with heldOut := [] }))
  | _, _ => s

/-- The bytes of a bay's append go on their way in the cycle before their result is ready (R167, R175): at once where that is the
issue cycle. -/
def State.fillLater (s : State) (core qi slot lat : Nat) (bs : List Byte) (lease : Option Nat := none) : State :=
  if lat ≤ 1 then s.fillSlot core qi slot s.now (s.now + 1) 0 bs true false
  else s.post (s.now + lat - 1) (.fill core qi slot bs lease)

/-- Reservations that are not filled are withdrawn (R171). -/
def lastPresent (q : Queue) : Nat → Nat → Nat
  | 0, best => best
  | n + 1, best =>
    let c := ctr (q.head + (q.occ - (n + 1)))
    lastPresent q n (if (NMap.find q.pres (q.idx c)).isSome then ctr (c + 1) else best)

def Queue.withdraw (q : Queue) : Queue := { q with tail := lastPresent q q.occ q.head }

/-- A queue whose splice is lost (R176). -/
def Queue.lost (q : Queue) : Queue :=
  { q with st := .lost, lostSend := q.st == .pendS || q.st == .send, partner := none, cr := 0, paused := false, quiet := 0, heldOut := [],
           spliceTok := none }

/-- Whether a queue stands in a splice (R171). -/
def QState.spliced : QState → Bool
  | .pendS | .pendR | .send | .recv => true
  | _ => false

/-- A queue's splice is lost at this side (R176). A pending splice's token completes with SPLICE_LOST (R180). -/
def State.loseSplice (s : State) (core qi : Nat) : State :=
  let q := s.queue core qi
  if q.st.spliced then
    let s1 := (s.onQueue core qi Queue.lost).post s.now (.release core qi)
    match q.spliceTok with
    | some (_, cmd) => s1.endCmd core cmd Code.spliceLost 0 false
    | none => s1
  else s

/-- A semaphore of a core whose context is swapped out takes an increment (R71, R231). -/
def State.semSaved (s : State) (ctx core i n : Nat) (src : SigSrc) : State :=
  match NMap.find (s.context ctx).savedCores core with
  | none => s
  | some k =>
    let v := NMap.get 0 k.sem i
    let s := s.onContext ctx (fun x => { x with savedCores := NMap.set x.savedCores core { k with sem := NMap.put 0 k.sem i (min 65535 (v + n)) } })
    if v + n ≤ 65535 then s
    else s.notice ctx { infoOf src with code := Code.semOverflow, detail := i % 256 + n % 256 * 2 ^ 8 }

/-- A command without an operation completes in a context that is swapped out: its token in the task that is saved there or in a
suspended one, and its signal (R71). -/
def State.endSaved (s : State) (ctx core : Nat) (cmd : Cmd) (code detail : Nat) : State :=
  let end_ (t : TaskSt) : TaskSt :=
    match cmd.tok with
    | some r => if t.grp == cmd.grp && t.idx == cmd.idx then t.endToken r (.cmd cmd.serial) (statusWord code cmd.ins.unitCode detail) s.now else t
    | none => t
  let s := s.onContext ctx (fun x => { x with
    savedCores := x.savedCores.map (fun kc => if kc.1 = core then (kc.1, { kc.2 with susp := kc.2.susp.map (fun y => { y with t := end_ y.t }) }) else kc),
    savedTask := x.savedTask.map (fun kt => if kt.1 = core then (kt.1, end_ kt.2) else kt) })
  match cmd.ins.cmdHdr with
  | some h =>
    if h.sinc = 0 || !signalsOn cmd.ins.unitCode code then s else s.semSaved ctx core h.ssem.toNat h.sinc.toNat (cmd.src core)
  | none => s

/-- The token of a pending splice completes (R180), wherever the queue's context is. -/
def State.endSpliceOf (s : State) (core q : Nat) (p : Nat × Nat) (code detail : Nat) (head : Bool) : State :=
  let live := (s.queue core q).partner == some p
  let tok := (s.spliced core q p).spliceTok
  let ctxs := (s.savedSpliced core q p).map Prod.fst
  let s := s.onSpliced core q p (fun x => { x with spliceTok := none })
  match tok with
  | some (_, cmd) => if live then s.endCmd core cmd code detail head else (ctxs.take 1).foldl (fun s ctx => s.endSaved ctx core cmd code detail) s
  | none => s

/-- The queues of a core in a saved context that meet a condition are lost, and the tokens of pending splices among them complete
(R176, R180). -/
def State.loseIn (s : State) (core : Nat) (p : Nat → Queue → Bool) (ctx : Nat) : State :=
  match NMap.find (s.context ctx).savedCores core with
  | none => s
  | some k =>
    let hit (kq : Nat × Queue) : Bool := kq.2.st.spliced && p kq.1 kq.2
    let toks := (k.q.filter hit).filterMap (fun kq => kq.2.spliceTok.map Prod.snd)
    let s := s.onContext ctx (fun x => { x with savedCores := NMap.set x.savedCores core { k with q := k.q.map (fun kq => if hit kq then (kq.1, kq.2.lost) else kq) } })
    toks.foldl (fun s cmd => s.endSaved ctx core cmd Code.spliceLost 0) s

/-- Queues of a core that meet a condition lose their splice, those of contexts that are swapped out too (R176). -/
def State.loseWhere (s : State) (core : Nat) (p : Nat → Queue → Bool) : State :=
  let live := ((s.core core).c.q.filter (fun kq => kq.2.st.spliced && p kq.1 kq.2)).map Prod.fst
  let s := live.foldl (fun s qi => s.loseSplice core qi) s
  (NMap.keys s.ctxs).foldl (fun s ctx => s.loseIn core p ctx) s

/-- The loss of a splice arrives at the partner of a queue (R176): at one that still is its partner, wherever its context is. -/
def State.lossArrives (s : State) (core qm : Nat) : State := s.loseWhere core (fun qi x => qi == qm % 32 && x.isFrom qm)

/-- Tells a queue's partner that the splice is lost (R176), at a time the spec does not give. -/
def State.tellLoss (s : State) (core qi : Nat) : State :=
  match (s.queue core qi).partner with
  | some p => s.sendTo core qi p (fun pc pq => .evSpliceLoss pc pq)
  | none => s

/-- A queue is set up anew (R171, R179). -/
def State.openQueue (s : State) (core qi base size count scope : Nat) (owner : Nat × Nat) : State :=
  s.onQueue core qi (fun q =>
    { base := base, size := size, count := count, scope := scope, st := .opened, gen := q.gen + 1, heldHello := q.heldHello,
      owner := owner })

/-- `QRESET`'s effect (R182), but for a subscription's end: the descriptor stays. -/
def State.resetQueue (s : State) (core qi : Nat) (free : Bool) : State :=
  let q := s.queue core qi
  let s1 := s.tellLoss core qi
  let s2 := match q.spliceTok with
    | some (_, cmd) => s1.endCmd core cmd Code.spliceLost 0 true
    | none => s1
  s2.onQueue core qi (fun q =>
    { base := q.base, size := q.size, count := q.count, scope := q.scope, st := if free then .free else .opened, gen := q.gen + 1,
      owner := if free then (0, 0) else q.owner })

/-- Reads still in progress on a slot (R168). -/
def State.addBusy (s : State) (core qi c : Nat) (n : Int) : State :=
  s.onQueue core qi (fun q => { q with busy := NMap.put 0 q.busy (q.idx c) (((NMap.get (0 : Nat) q.busy (q.idx c) : Nat) : Int) + n).toNat })

/-! ### Barriers -/

def State.barrier (s : State) (core b : Nat) : Barrier := NMap.get {} (s.core core).c.bar b
def State.setBarrier (s : State) (core b : Nat) (x : Barrier) : State :=
  s.onCtxSt core (fun c => { c with bar := NMap.put {} c.bar b x })

/-- A barrier is poisoned (R235): its waiters complete with the code in step 4 of R234, whatever a command does to it in step 2. -/
def State.poisonBarrier (s : State) (core b code : Nat) : State :=
  let x := s.barrier core b
  let s := if x.st = 1 then
      (s.setBarrier core b { x with st := 2, pcode := code }).onCtxSt core (fun c =>
        { c with waiters := c.waiters.map (fun w => if w.bar == b && w.cmd.code == 0 then { w with cmd := { w.cmd with code := code } } else w) })
    else s
  s.post s.now (.barTest core b)

/-- An arrival of n bytes (R234): counted, an overrun, discarded at a poisoned barrier, or a notice at a free one. -/
def State.arrive (s : State) (core b n : Nat) (r : RecInfo) : State :=
  let x := s.barrier core b
  match x.st with
  | 0 => s.notice (s.ctxOf core) { r with code := Code.barrierPoisoned, detail := b }
  | 1 =>
    let a := x.arrived + n
    if (x.posted && decide (x.expected < a)) || decide (2 ^ 48 - 1 < a) then s.poisonBarrier core b Code.barrierOverrun
    else (s.setBarrier core b { x with arrived := a }).post s.now (.barTest core b)
  | _ => s

/-- Answers waiters of a barrier that satisfy a condition (R234 step 4, R243). -/
def State.answer (s : State) (core b code : Nat) (p : Waiter → Bool) : State :=
  let ws := (s.core core).c.waiters
  let hit := ws.filter (fun w => w.bar == b && p w)
  let s := s.onCtxSt core (fun c => { c with waiters := c.waiters.filter (fun w => !(w.bar == b && p w)) })
  hit.foldl (fun s w => s.endCmd core w.cmd code w.phase true) s

/-- Whether phase p has completed at a barrier (R243). -/
def phaseDone (phase p : Nat) : Bool :=
  let d := (phase + 65536 - p % 65536) % 65536
  decide (1 ≤ d) && decide (d ≤ 0x7FFF)

/-- Steps 3 and 4 of R234. -/
def State.barTest (s : State) (core b : Nat) : State :=
  let hit := (s.core core).c.waiters.filter (fun w => w.bar == b && w.cmd.code != 0)
  let s := s.onCtxSt core (fun c => { c with waiters := c.waiters.filter (fun w => !(w.bar == b && w.cmd.code != 0)) })
  let s := hit.foldl (fun s w => s.endCmd core w.cmd w.cmd.code w.phase true) s
  let x := s.barrier core b
  if x.st = 2 then s.answer core b x.pcode (fun _ => true)
  else if x.st = 1 ∧ x.posted ∧ x.arrived = x.expected then
    let ph := (x.phase + 1) % 65536
    (s.setBarrier core b { x with phase := ph, arrived := 0, expected := 0, posted := false }).answer core b 0
      (fun w => phaseDone ph w.phase)
  else s

/-! ### Declared buffers -/

def State.buffer (s : State) (core k : Nat) : Buffer := NMap.get {} (s.core core).c.buf k
def State.onBuffer (s : State) (core k : Nat) (f : Buffer → Buffer) : State :=
  s.onCtxSt core (fun c => { c with buf := NMap.set c.buf k (f (NMap.get {} c.buf k)) })

/-- Whether a buffer holds any byte of a run (R237). -/
def Buffer.covers (b : Buffer) (x n : Nat) : Bool := b.v && decide (max x b.base < min (x + n) (b.base + b.size))

/-- Whether the buffer's state allows an access (R237). -/
def Buffer.allows (b : Buffer) (rd wr : Bool) : Bool :=
  (!rd || b.st == 2 || b.st == 3) && (!wr || b.st == 1)

/-- The buffers of a core that hold any byte of a run. -/
def State.buffersOf (s : State) (core x n : Nat) : List (Nat × Buffer) :=
  (s.core core).c.buf.filter (fun kb => kb.2.covers x n)

/-- Whether every buffer that holds a byte of the run allows the access (R237). -/
def State.bufOk (s : State) (core x n : Nat) (rd wr : Bool) : Bool := (s.buffersOf core x n).all (fun kb => kb.2.allows rd wr)

/-- Whether every buffer that holds a byte of the run carries a tag (R161, R209). -/
def State.tagOk (s : State) (core x n tag : Nat) : Bool := (s.buffersOf core x n).all (fun kb => kb.2.tag == tag)

/-- Use counts of buffers rise and fall (R237). -/
def State.useBuffers (s : State) (core : Nat) (ks : List Nat) : State :=
  ks.foldl (fun s k => s.onBuffer core k (fun b => { b with use := b.use + 1 })) s
def State.freeBuffers (s : State) (core : Nat) (ks : List Nat) : State :=
  ks.foldl (fun s k => s.onBuffer core k (fun b => { b with use := b.use - 1 })) s

/-! ### Waiters that are not waiters of an operation -/

/-- The key of an END on its way from a queue (R181). -/
def endKey (core q : Nat) : Nat := 2 ^ 32 + 32 * core + q

/-- The key of an `UNSUBS` that waits for a subscription's groom (R223). -/
def unsubsKey (op : Nat) : Nat := 2 ^ 33 + op

/-- Commands that wait under a key in a saved context complete with a code. -/
def State.answerIn (s : State) (key code ctx : Nat) : State :=
  let mine (w : Nat × Nat × Cmd) : Bool := w.2.1 == key
  (s.context ctx).savedCores.foldl (fun s (kc : Nat × CtxSt) =>
    let cs : List (Nat × Nat × Cmd) := kc.2.opWaits.filter mine
    if cs.isEmpty then s
    else
      cs.foldl (fun s w => s.endSaved ctx kc.1 w.2.2 code 0) (s.onContext ctx (fun x => { x with
        savedCores := x.savedCores.map (fun ks => if ks.1 = kc.1 then (ks.1, { ks.2 with opWaits := ks.2.opWaits.filter (fun w => !mine w) }) else ks) }))) s

/-- Commands that wait under a key complete, with success unless another code is given, those of contexts that are swapped out
too. -/
def State.answerKey (s : State) (key : Nat) (code : Nat := 0) : State :=
  let s := s.cores.foldl (fun s (kc : Nat × Core) =>
    kc.2.c.opWaits.foldl (fun s w =>
      if w.2.1 = key then
        (s.onCtxSt kc.1 (fun c => { c with opWaits := c.opWaits.filter (fun x => x.2.2.serial != w.2.2.serial) })).endCmd
          kc.1 w.2.2 code 0 false
      else s) s) s
  (NMap.keys s.ctxs).foldl (fun s ctx => s.answerIn key code ctx) s

/-- A subscription ends (R171, R222): the queue returns to OPEN, unfilled reservations withdrawn. -/
def State.closeSubs (s : State) (core op : Nat) : State :=
  s.onCtxSt core (fun c => { c with q := c.q.map (fun (kq : Nat × Queue) =>
    if kq.2.sub == some op then (kq.1, { kq.2.withdraw with st := .opened, sub := none }) else kq) })

end Sys2Proof.Machine
end

