-- ==== Sys2Proof/Machine/Port.lean ====
section
/-!
DEFINITION. The scalar memory port (R99): what holds a request (R104, R252 to R254), and the queues of the Escapement it
goes to (R284, R285).
-/

namespace Sys2Proof.Machine

/-- Whether two homes overlap. -/
def Tgt.covers (t : Tgt) (n : Nat) (u : Tgt) : Option Nat :=
  match t, u with
  | .loc d a, .loc d' b => if d = d' ∧ a ≤ b ∧ b < a + n then some (b - a) else none
  | .host a, .host b => if a ≤ b ∧ b < a + n then some (b - a) else none
  | .pub w a, .pub w' b => if w = w' ∧ a ≤ b ∧ b < a + n then some (b - a) else none
  | _, _ => none

/-- Whether two accesses touch a common byte. -/
def MemReq.meets (r o : MemReq) : Bool := (r.tgt.covers r.size o.tgt).isSome || (o.tgt.covers o.size r.tgt).isSome

/-- Whether two entries of a port belong to one task: one that is gone may have the numbers of the task that is there. -/
def MemReq.sameTask (r o : MemReq) : Bool := r.grp == o.grp && r.idx == o.idx && r.gone == o.gone

/-- Whether an access must be performed after an older one of its task because they touch a common byte (R97, R248, R255): a store or an
atomic after every one, a load after loads and atomics; it finds the bytes of a store before that is performed. -/
def MemReq.follows (r o : MemReq) : Bool :=
  o.kind != .fence && o.stage != .performed && r.sameTask o && (r.kind != .load || o.kind != .store) && r.meets o

/-- Whether a request is of a kind a release orders and has not been performed (R252). -/
def MemReq.ordered (r : MemReq) (uo : Bool) : Bool := r.kind != .fence && r.stage != .performed && (uo || r.pageKind != 2)

/-- Whether an older entry holds a request back (R104, R252 to R254). A fence entry is of kind `fence`, with `acq` and
`rel` for the two halves it has. It holds what its own task has made, and one that is itself held what must follow it at a common byte
(R97, R248). -/
def MemReq.holds (o r : MemReq) : Bool :=
  r.sameTask o &&
  match o.kind with
  | .fence => o.acq || (o.rel && (r.kind == .store || r.kind == .amo))
  | _ => o.acq || (r.rel && o.ordered r.uo) || (o.pageKind == 1 && r.pageKind == 1 && r.kind != .fence)
      || (o.stage == .held && r.kind != .fence && r.follows o)

/-- Whether a fence has nothing left to wait for, given the entries older than it (R254). -/
def MemReq.fenceDone (f : MemReq) (older : List MemReq) : Bool :=
  older.all (fun o => !f.sameTask o || (!f.acq || !(o.kind == .load || o.kind == .amo)) && (!f.rel || !o.ordered f.uo))

/-- Fences that have nothing left to wait for leave the port. -/
def dropFences (older : List MemReq) : List MemReq → List MemReq
  | [] => []
  | r :: l =>
    if r.kind == .fence && r.fenceDone older then dropFences older l else r :: dropFences (older ++ [r]) l

/-- The requests that nothing older holds any more. -/
def releasable (older : List MemReq) : List MemReq → List Nat
  | [] => []
  | r :: l =>
    let rest := releasable (older ++ [r]) l
    if r.stage == .held && r.kind != .fence && !older.any (fun o => o.holds r) then r.id :: rest else rest

/-- The entries that count toward the 64 of the port: an atomic frees its entry when its write is performed (R99). -/
def TaskSt.portUsed (t : TaskSt) : Nat := (t.port.filter (fun r => r.kind != .fence && !(r.kind == .amo && r.stage == .performed))).length

def TaskSt.onReq (t : TaskSt) (id : Nat) (f : MemReq → MemReq) : TaskSt :=
  { t with port := t.port.map (fun r => if r.id = id then f r else r) }

def TaskSt.req? (t : TaskSt) (id : Nat) : Option MemReq := t.port.find? (fun r => r.id == id)

/-- The translation of a core's access that missed its own TLB, through the die's TLB or by a walk, with both TLBs filled (R271). -/
def State.fetchXl (s : State) (core va acc : Nat) : Except TFault TlbEnt × State :=
  let ctx := s.ctxOf core
  match s.dieEnt ctx va acc with
  | .ok e => (.ok e, (s.fillTlb ctx va acc).onCore core (fun c => { c with tlb := tlbAdd 512 e c.tlb }))
  | .error f => (.error f, s.walkSeen ctx va)

/-- A request joins its core's queue at a pseudo-channel (R285). -/
def State.enterPc (s : State) (core id : Nat) (pa : Nat) : State :=
  let die := dieOf core
  let p := (placeOf (s.npc die) pa).p
  let n := inDie core
  let s := (s.touchPc die p).onPc die p (fun c =>
    { c with queues := NMap.put [] c.queues n (NMap.get [] c.queues n ++ [id]) })
  let due := nextSlot n p s.now
  if s.isDue (· == .ev (.evEscapementSlot die p n)) then s else s.postEv due (.evEscapementSlot die p n)

/-- The longest an access through a link is taken to need where the spec gives only the bounds of "The Link". -/
def linkBound : Nat := 4096

/-- A released request goes on its way: to its pseudo-channel, or through a link. -/
def State.sendReq (s : State) (core id : Nat) : State :=
  match (s.core core).t.req? id with
  | none => s
  | some r =>
    let s := s.onTask core (fun t => t.onReq id (fun r => { r with stage := .queued }))
    match r.tgt, r.peer with
    | .loc _ pa, false => s.enterPc core id pa
    | .pub _ _, _ =>
      if r.kind == .load then s.postEv (s.now + 1) (.evLoadDataArrive core id) else s.postEv (s.now + 1) (.evWritePerformed core id)
    | _, _ =>
      if r.kind == .load then s.postFree linkBound (.evLoadDataArrive core id) else s.postFree linkBound (.evWritePerformed core id)

/-- Whatever may leave the port leaves it. -/
def State.pumpPort (s : State) (core : Nat) : State :=
  let s := s.onTask core (fun t => { t with port := dropFences [] t.port })
  (releasable [] (s.core core).t.port).foldl (fun s id => s.sendReq core id) s

/-- A translated request of the core's task enters the port (R99). -/
def State.addReq (s : State) (core : Nat) (r : MemReq) : State :=
  (s.onTask core (fun t => { t with port := t.port ++ [{ r with grp := t.grp, idx := t.idx }] })).pumpPort core

/-- An entry leaves the port. -/
def State.dropReq (s : State) (core id : Nat) : State :=
  (s.onTask core (fun t => { t with port := t.port.filter (fun r => r.id != id) })).pumpPort core

/-- The accesses of a task that are not complete: those in the port, and one that waits for its translation. -/
def TaskSt.openReqs (t : TaskSt) : List MemReq :=
  t.port.filter (fun r => !r.gone) ++ (t.walk.toList ++ (t.replay.map (fun r => r.items)).getD []).filterMap (fun u => if u.target.isNone then some u.req else none)

/-- Whether an acquire or a fence older than a command holds it (R253, R254). -/
def State.portHolds (s : State) (core seq : Nat) : Bool :=
  (s.core core).t.openReqs.any (fun r => decide (r.id < seq) && (r.acq || r.kind == .fence))

/-- Whether every access older than a command, of the kinds a release orders, has been performed (R256). -/
def State.portClear (s : State) (core seq : Nat) : Bool :=
  !(s.core core).t.openReqs.any (fun r => decide (r.id < seq) && r.ordered false)

/-- A task leaves its core: its pending requests go on without its registers and hold nothing of the next task. -/
def TaskSt.orphan (t : TaskSt) : TaskSt := { t with port := t.port.map (fun r => { r with dest := .nowhere, gone := true }) }

end Sys2Proof.Machine
end

