-- ==== Sys2Proof/Machine/Ops.lean ====
section
/-!
DEFINITION. The life of child operations (R185 to R203), the killing of tasks, groups and contexts, and TAKING AN
EXCEPTION with the return from it (R338 to R342): which record is posted, what becomes of the task, and where issue
goes on.
-/

namespace Sys2Proof.Machine

/-! ### Tasks and groups -/

/-- A task of a group. -/
def State.task? (s : State) (gk i : Nat) : Option Task := (s.group? gk).bind (fun g => g.tasks[i]?)

/-- Whether a task keeps its group's watchdog counter still (R343). -/
def TState.busy : TState → Bool
  | .ready | .running | .parked | .retiring => true
  | _ => false

/-- A group's watchdog counter brought up to a cycle in which its tasks changed (R343). -/
def Group.settleIdle (g : Group) (now : Nat) : Group :=
  let busy := g.ended || g.tasks.any (fun t => t.st.busy)
  if g.idling && busy then { g with idle := g.idle + (now - g.idleFrom), idling := false }
  else if !g.idling && !busy then { g with idling := true, idleFrom := now }
  else g

def State.onTaskRec (s : State) (gk i : Nat) (f : Task → Task) : State :=
  s.onGroup gk (fun g => { g with tasks := g.tasks.modify i f }.settleIdle s.now)

/-- Fields of a tile-task record (R312). -/
def recEntry (r : List Word) : Nat := bits (r.getD 0 0).toNat 0 32
def recX (r : List Word) : Nat := bits (r.getD 0 0).toNat 32 3
def recY (r : List Word) : Nat := bits (r.getD 0 0).toNat 35 3
def recPrio (r : List Word) : Nat := bits (r.getD 0 0).toNat 38 3
def recCT (r : List Word) : Nat := bits (r.getD 0 0).toNat 41 2
def recCO (r : List Word) : Nat := bits (r.getD 0 0).toNat 43 2
def recNW (r : List Word) : Nat := bits (r.getD 0 0).toNat 45 4
def recPlan (r : List Word) : Nat := bits (r.getD 0 0).toNat 49 7
def recCycles (r : List Word) : Nat := bits (r.getD 1 0).toNat 0 48
def recDeps (r : List Word) : Nat := bits (r.getD 2 0).toNat 0 20
def recWait (r : List Word) (i : Nat) : Nat := bits (r.getD (4 + i / 2) 0).toNat (32 * (i % 2)) 32

/-- The core a record names on a die (R312). -/
def recCore (die : Nat) (r : List Word) : Nat := 64 * die + 8 * recY r + recX r

/-- The record of the task on a core; zero where there is no group. -/
def State.taskRec (s : State) (core : Nat) : List Word :=
  let t := (s.core core).t
  ((s.task? t.grp t.idx).map (fun x => x.recd)).getD []

/-- The task, bundle and coordinate fields of a record about a core's task, and the code of the `BRK` it waits in (R341). -/
def State.recBase (s : State) (core : Nat) : RecInfo :=
  let t := (s.core core).t
  { grp := t.grp, task := t.idx, coord := coordWord core, opid := (t.brk.map Prod.snd).getD 0 }

/-! ### The operation table -/

/-- The lowest entry of a die's table that nothing holds (R185 leaves the choice open: notes/assumptions/111). -/
def freeFrom (ks : List Nat) : Nat → Nat → Nat
  | 0, e => e
  | n + 1, e => if ks.contains e then freeFrom ks n (e + 1) else e

def State.freeEntry (s : State) (die : Nat) : Nat := freeFrom (NMap.keys s.ops) 8192 (8192 * die)

/-- Whether a context may take `n` more entries (R185). -/
def State.opRoom (s : State) (core n : Nat) : Bool :=
  let die := dieOf core
  let ctx := s.ctxOf core
  decide ((s.ops.filter (fun kv => kv.1 / 8192 == die)).length + n ≤ 8192)
    && decide ((s.ops.filter (fun kv => kv.2.ctx == ctx)).length + n ≤ (s.context ctx).opq)

/-- Whether an entry of the agenda is about an operation. -/
def Act.ofOp (k : Nat) : Act → Bool
  | .ev i =>
    match i with
    | .evOpStart j | .evCopyLine j | .evOpComplete j | .evGroomTileFill j | .evCollectiveJoin j => j == k
    | _ => false
  | _ => false

/-- Nothing of an operation is due any more, and no request of it waits for a slot. -/
def State.dropActs (s : State) (k : Nat) : State :=
  { s with
    agenda := s.agenda.filter (fun t => !t.act.ofOp k), posted := s.posted.filter (fun t => !t.act.ofOp k),
    dies := s.dies.map (fun (kd : Nat × Die) => (kd.1, { kd.2 with pcs := kd.2.pcs.map (fun (kp : Nat × PChan) =>
      (kp.1, { kp.2 with unslot := kp.2.unslot.filter (fun u => u.op != some k) })) })) }

/-- An entry is freed (R196); its generation stays (R186). -/
def State.freeOp (s : State) (k : Nat) : State := { s with ops := NMap.erase s.ops k }

/-- The generation an entry would have next. -/
def State.nextGen (s : State) (k : Nat) : Nat := (NMap.get 0 s.gens k + 1) % 2 ^ 24

/-- An operation is created at issue: its entry, its identifier in the token register, and the command in its unit's
queue (R185, R186, R194). -/
def State.newOp (s : State) (core : Nat) (cmd : Cmd) (prio : Nat) : State :=
  let k := s.freeEntry (dieOf core)
  let gen := s.nextGen k
  let cmd := { cmd with op := some k, prio := prio }
  let o : Op := { gen := gen, unit := cmd.ins.unitCode, core := core, ownCore := core, ctx := s.ctxOf core, grp := cmd.grp,
                  idx := cmd.idx, prio := prio, ord := bitOf cmd.ca.toNat 59, cmd := cmd, tokLive := cmd.tok.isSome }
  let s := { s with ops := NMap.set s.ops k o, gens := NMap.put 0 s.gens k gen }
  match cmd.tok with
  | some r => s.onTask core (fun t => t.setToken r (opIdent k gen) (.op k))
  | none => s

/-- Whether an identifier is live (R186). -/
def State.liveOp (s : State) (x : Word) : Option Nat :=
  match s.op? (identKey x) with
  | some o => if identOk x && o.gen == identGen x then some (identKey x) else none
  | none => none

/-- The operations a task owns that are not detached (R195). -/
def State.ownedOps (s : State) (gk i : Nat) : List Nat :=
  (s.ops.filter (fun kv => kv.2.owner == 0 && !kv.2.det && kv.2.grp == gk && kv.2.idx == i && kv.2.st != .done)).map Prod.fst

/-! ### Completion -/

/-- A decrement of a task's dependence counter (R322): of a LISTED task, and not below zero. -/
def State.depDecrement (s : State) (gk i : Nat) : State :=
  match s.task? gk i with
  | some t =>
    if t.st == .listed && decide (0 < t.cnt) then
      (s.onTaskRec gk i (fun t => { t with cnt := t.cnt - 1 })).postEv s.now (.evTaskReady gk i)
    else s
  | none => s

/-- The decrement of a DEP action lands (R322, R325). -/
def State.depLands (s : State) (ctx gk i unit : Nat) (src : SigSrc) : State :=
  match s.group? gk with
  | some g =>
    if i < g.tasks.length then s.depDecrement gk i
    else s.notice ctx { code := Code.shapeIndex, unit := unit, grp := src.grp, task := src.task, coord := src.coord,
                        bundle := src.bundle.toNat, opid := src.opid.toNat }
  | none => s

/-- The argument of a completion action: KIND and ARG (R190). -/
def caKind (ca : Word) : Nat := bits ca.toNat 60 4
def caArg (ca : Word) : Nat := bits ca.toNat 0 56

/-- A BAR action lands: after every completion of its cycle and in the order of the identifiers (R192, R234). -/
def State.barLands (s : State) (core b n code : Nat) (src : SigSrc) : State :=
  if code = 0 then s.arrive core b n (infoOf src) else s.poisonBarrier core b Code.barrierPoisoned

/-- The completion action of an operation (R190 to R192). -/
def State.applyAction (s : State) (k : Nat) (o : Op) : State :=
  let ca := o.cmd.ca
  let id := opIdent k o.gen
  let src : SigSrc := { bundle := BitVec.ofNat 57 o.cmd.bundle, coord := coordWord o.core, grp := o.cmd.grp, task := o.cmd.idx, opid := id,
                        unit := o.unit }
  match caKind ca with
  | 1 => if o.code = 0 then s.post s.now (.dep o.ctx o.cmd.grp (bits (caArg ca) 0 20) o.unit src) else s
  | 2 => s.post s.now (.bar o.core (bits (caArg ca) 0 8) o.bytes o.code k src)
  | 3 =>
    match o.cmd.res with
    | some (q, c, n) =>
      (List.range n).foldl (fun s j =>
        s.fillSlot o.core q (c / 65536 * 65536 + ctr (c + j)) s.now s.now 0 [] true (decide (o.code ≠ 0))) s
    | none => s
  | _ => s

/-- A token of `OPWAIT`, `OPCANCEL` or `OPADOPT` that waited for an operation (R202). -/
def State.endOpWait (s : State) (core : Nat) (kind : Nat) (c : Cmd) (o : Op) (head : Bool) : State :=
  if kind = 1 then s.endCmd core c 0 (o.code) head
  else
    let s1 := match c.tok with
      | some r => s.onOwner core c.grp c.idx (fun t => t.endToken r (.cmd c.serial) (statusWord o.code o.unit o.detail) s.now)
      | none => s
    s1.signal core c head

/-- Every waiter of an operation is answered. -/
def State.answerOp (s : State) (k : Nat) (o : Op) (head : Bool) : Nat × State :=
  s.cores.foldl (fun (acc : Nat × State) kc =>
    kc.2.c.opWaits.foldl (fun acc w =>
      if w.2.1 = k then
        let st := acc.2.onCtxSt kc.1 (fun c => { c with opWaits := c.opWaits.filter (fun x => x.2.2.serial != w.2.2.serial) })
        (if w.1 = 1 then acc.1 else acc.1 + 1, st.endOpWait kc.1 w.1 w.2.2 o head)
      else acc) acc) (0, s)

/-- An entry of a plan has ended (R220): the plan is tested again. -/
def State.planChild (s : State) (k : Nat) (parent : Nat × Nat) (o : Op) : State :=
  (s.onOp parent.1 (fun p => if p.gen ≠ parent.2 then p else
    { p with plan := { p.plan with children := p.plan.children.filter (· != k), bytes := p.plan.bytes + o.bytes,
                                   failed := if o.code = 0 then p.plan.failed
                                             else p.plan.failed.orElse (fun _ => some (o.tile, o.code, o.prog)) } })).postEv
    s.now (.evPlanEntryHandoff o.core)

/-- Whether a piece of work is an entry of an operation. -/
def BuWork.ofOp (k : Nat) : BuWork → Bool
  | .entry op _ => op == k
  | _ => false

/-- Work leaves a bank unit; what waits there is looked at again. The mode of its pseudo-channel is that of the rotation in which it
was posted (R299). -/
def State.dropUnitWork (s : State) (u : Nat) (p : BuWork → Bool) : State :=
  let s := (s.fixMode (u / 4096) (u / 32 % 128)).onPc (u / 4096) (u / 32 % 128) (fun c => { c with sharedTo := boundary (s.now + 1) })
  let first := (((s.unit u).work.head?).map p).getD false
  (s.onUnit u (fun b => { b with work := b.work.filter (fun w => !p w), running := b.running && !first })).postEv s.now (.evRowStep u)

/-- An operation's entries leave every bank unit (R304, R305). -/
def State.dropWork (s : State) (k : Nat) : State :=
  ((s.units.filter (fun kv => kv.2.work.any (BuWork.ofOp k))).map Prod.fst).foldl (fun s u => s.dropUnitWork u (BuWork.ofOp k)) s

/-- Whether the task that owns an operation has ended (R196). -/
def State.ownerOver (s : State) (o : Op) : Bool :=
  o.owner == 0 && !o.det && ((s.task? o.grp o.idx).map (fun t => t.st == .done || t.st == .killed)).getD false

/-- The signal of an operation comes after its action (R191): after a BAR action that lands in the cycle. -/
def State.signalOp (s : State) (k : Nat) (o : Op) (head : Bool) : State :=
  if caKind o.cmd.ca = 2 ∧ !head then
    match o.cmd.ins.cmdHdr with
    | some h =>
      if h.sinc = 0 then s
      else s.post s.now (.opSignal o.core h.ssem.toNat h.sinc.toNat k (o.cmd.src o.core (opIdent k o.gen)))
    | none => s
  else s.signal o.core o.cmd head (opIdent k o.gen)

/-- The completion of an operation (R187, R191, R192, R196): flags, token, action, signal, waiters, and the entry. -/
def State.completeOp (s : State) (k : Nat) (head : Bool) : State :=
  match s.op? k with
  | none => s
  | some o =>
    let o := { o with st := .done, finished := false, park := none }
    let s := { (s.dropWork k).dropActs k with ops := NMap.set s.ops k o, ended := (s.now, k, o) :: s.ended.filter (fun e => e.1 == s.now) }
    -- flags (R40)
    let s := if o.owner = 0 ∧ !o.det then
        s.onOwner o.ownCore o.grp o.idx (fun t => t.orFlags s.now o.flags) else s
    let s := if o.owner = 0 then s.clearWatch o.ownCore o.grp o.idx else s
    -- the token (R187)
    let st := statusWord o.code o.unit o.detail
    let tokHere : Bool :=
      match o.cmd.tok with
      | some r =>
        let c := s.core o.core
        if c.t.isTask o.cmd.grp o.cmd.idx then NMap.find c.t.tokOwner r == some (.op k)
        else c.c.susp.any (fun x => x.t.grp == o.cmd.grp && x.t.idx == o.cmd.idx && NMap.find x.t.tokOwner r == some (.op k))
      | none => false
    let s := match o.cmd.tok with
      | some r => s.onOwner o.core o.cmd.grp o.cmd.idx (fun t => t.endToken r (.op k) st s.now)
      | none => s
    -- buffers the operation used, the action, the signal
    let s := ((s.freeBuffers o.core o.uses).closeSubs o.core k).applyAction k o
    let s := if o.code = 0 then s.signalOp k o head else s
    let (n, s) := (s.answerKey (unsubsKey k)).answerOp k o head
    let s := match o.parent with
      | some p => (s.planChild k p o).freeOp k
      | none => if tokHere || decide (0 < n) || s.ownerOver o then s.freeOp k
        else s.onOp k (fun o => { o with retained := true })
    s.postEv s.now (.evGroupEnd o.grp)

/-- Whether an older operation of the same task and unit is outstanding (R193). The unit is the port the command was handed to
(notes/assumptions/112). -/
def State.olderOut (s : State) (o : Op) : Bool :=
  s.ops.any (fun kv => kv.2.core == o.core && kv.2.cmd.grp == o.cmd.grp && kv.2.cmd.idx == o.cmd.idx
    && kv.2.cmd.ins.cmdUnit == o.cmd.ins.cmdUnit && decide (kv.2.cmd.serial < o.cmd.serial) && kv.2.st != .done)

/-- Held completions (R193) that nothing holds any more. -/
def State.releaseOrd (s : State) (head : Bool) : Nat → State
  | 0 => s
  | n + 1 =>
    match s.ops.find? (fun kv => kv.2.finished && kv.2.st != .done && !s.olderOut kv.2) with
    | some kv => State.releaseOrd (s.completeOp kv.1 head) head n
    | none => s

/-- An operation's work ends with a status (R191, R193). A cancelled one with ORD is held like any other (notes/assumptions/113). -/
def State.endOp (s : State) (k code detail : Nat) (flags : BitVec 5) (head : Bool) : State :=
  match s.op? k with
  | none => s
  | some o =>
    if o.st == .done || o.finished then s
    else
      let o := { o with code := code, detail := detail, flags := flags, finished := true, park := none }
      let s := { s with ops := NMap.set s.ops k o }
      if o.ord && s.olderOut o then s
      else (s.completeOp k head).releaseOrd head (s.ops.length)

/-- An operation's work has ended in this cycle, with a status: it completes in the next, before the heads of that cycle (R191, R234,
R385), once its writes are complete. -/
def State.endLater (s : State) (k code detail : Nat) (flags : BitVec 5) : State :=
  (s.onOp k (fun o => { o with verdict := some (code, detail), flags := flags, stop := none })).postEv (s.now + 1) (.evOpComplete k)

/-- What a matrix command gives back when it ends without or after its fetch: queue slots read, buffers used (R168, R237). -/
def State.engFree (s : State) (core : Nat) (c : Cmd) : State :=
  (c.busy.foldl (fun s qc =>
    if (s.queue core qc.1).gen = qc.2 / 65536 then
      (s.addBusy core qc.1 (qc.2 % 65536) (-1)).post s.now (.release core qc.1)
    else s) s).freeBuffers core c.uses

/-- The reserved slot of an `MDRAIN` that ends without writing becomes present with poison (R156). -/
def State.engPoison (s : State) (core : Nat) (c : Cmd) : State :=
  match c.res with
  | some (q, sl, _) =>
    let size := (s.queue core q).size
    s.fillSlot core q sl s.now s.now 0 (List.replicate size 0) true true
  | none => s

/-- A copy or a scatter is cancelled (R200): a started one stops at its next line, any other ends at once. -/
def State.cancelCopy (s : State) (k code : Nat) (head : Bool) : State :=
  match s.op? k with
  | none => s
  | some o =>
    let s := s.onCtxSt o.core (fun c => { c with cmdq := NMap.set c.cmdq 2 ((NMap.get [] c.cmdq 2).filter (fun c => c.op != some k)) })
    if o.st == .done || o.finished || o.verdict.isSome then s
    else if o.st == .started then (s.onOp k (fun o => { o with stop := some code, need := 0 })).postFree 64 (.evCopyLine k)
    else s.endOp k code o.prog o.flags head

/-- What a suspended task keeps of an operation is gone (R194). -/
def State.dropSaved (s : State) (core k : Nat) : State :=
  let keep (e : Engine) : Engine := { e with q := e.q.filter (fun c => c.op != some k) }
  s.onCtxSt core (fun c => { c with susp := c.susp.map (fun x =>
    { x with t := { x.t with me0 := keep x.t.me0, me1 := keep x.t.me1 }, cmds := x.cmds.filter (fun u => u.2.op != some k) }) })

/-- A saved matrix command in its suspended task. -/
def State.savedCmd (s : State) (core k : Nat) : Option Cmd :=
  ((s.core core).c.susp.flatMap (fun x => x.t.me0.q ++ x.t.me1.q)).find? (fun c => c.op == some k)

/-- An engine's queue has a new head, if it has one (R146, R164). -/
def State.nextHead (s : State) (core u : Nat) : State :=
  let ev := Instr.evMatrixHead core u
  match ((s.core core).t.eng u).q with
  | [] => s
  | c :: _ => if c.h ≠ 0 || s.isDue (· == .ev ev) then s else s.postEv s.now ev

/-! ### The membership of a collective (R226) -/

/-- The collectives (R227). -/
def isColl : Instr → Bool
  | .callred _ _ _ _ | .cred _ _ _ _ | .cbc _ _ _ _ | .cag _ _ _ _ | .crsc _ _ _ _ => true
  | _ => false

/-- The rank of a core in a team. -/
def rankOf (t : Nat × List Nat) (core : Nat) : Option Nat := t.2.findIdx? (fun c => c == core)

/-- Whether an operation belongs to a collective: the same members, team and number, and on one die the same group. -/
def State.collFits (s : State) (c : Coll) (team : Nat) (t : Nat × List Nat) (o : Op) (n rank : Nat) : Bool :=
  c.team == team && c.n == n && c.root == t.1 && c.members == t.2 && !c.ops.any (fun j => j.1 == rank)
    && c.ops.all (fun j => decide (j.2 / 8192 ≠ dieOf o.core) || (s.op j.2).cmd.grp == o.cmd.grp)

/-- The next number of a participant on a team. -/
def State.takeNumber (s : State) (o : Op) (team rank : Nat) : Nat × State :=
  let key := 1024 * team + rank
  let n := ((s.group? o.cmd.grp).map (fun g => NMap.get 0 g.teamN key)).getD 0
  (n, s.onGroup o.cmd.grp (fun g => { g with teamN := NMap.set g.teamN key (n + 1) }))

/-- An operation takes its place in its collective, which is made if it is the first. One that has its place keeps it. -/
def State.enterColl (s : State) (k team : Nat) (t : Nat × List Nat) (rank : Nat) : Nat × State :=
  let o := s.op k
  match o.coll with
  | some i => (i, s)
  | none =>
    let (n, s) := s.takeNumber o team rank
    let i := (s.colls.findIdx? (fun c => s.collFits c team t o n rank)).getD s.colls.length
    let s : State := if i < s.colls.length then s
      else { s with colls := s.colls ++ [{ team := team, n := n, root := t.1, members := t.2 }] }
    let s : State := { s with colls := s.colls.modify i (fun c => { c with ops := c.ops ++ [(rank, k)] }) }
    (i, s.onOp k (fun o => { o with coll := some i, rank := rank }))

/-- The team that the second record of a collective names, where the record can be read. -/
def State.recTeam (s : State) (ctx : Nat) (i : Instr) : Option Nat :=
  let rec? : Option Nat := match i with
    | .callred _ _ b _ | .cred _ _ b _ | .cbc _ _ b _ | .cag _ _ b _ | .crsc _ _ b _ => some b.toNat
    | _ => none
  rec?.bind (fun r =>
    let c := s.context ctx
    if c.shlen ≤ r then none
    else
      match s.vread ctx (c.shbase + 64 * r) 64 4 with
      | .error _ => none
      | .ok bs => if bitOf (ofBytes (bs.take 8)) 63 then some (bits (ofBytes (bs.drop 56)) 30 2) else none)

/-- A collective that still waits in its copy queue takes its place, after those before it (R226: numbers follow the order of
issue). -/
def State.numberColls (s : State) (core : Nat) : List Cmd → State
  | [] => s
  | c :: cs =>
    let s := match c.op with
      | some k =>
        let o := s.op k
        match (s.recTeam o.ctx c.ins).bind (fun team =>
            ((s.group? o.cmd.grp).bind (fun g => g.teams[team]?)).bind (fun t => (rankOf t core).map (fun r => (team, t, r)))) with
        | some (team, t, r) => (s.enterColl k team t r).2
        | none => s
      | none => s
    State.numberColls s core cs

/-- The operations that belong to a collective now. -/
def State.collOps (s : State) (i : Nat) : List (Nat × Nat) :=
  (((s.colls[i]?).map (fun c => c.ops)).getD []).filter (fun j => ((s.op? j.2).map (fun o => o.coll == some i && o.rank == j.1)).getD false)

/-- A participant of a collective ends, wherever it stands. -/
def State.endColl (s : State) (k code detail : Nat) (head : Bool) : State :=
  match s.op? k with
  | none => s
  | some o =>
    let s := s.onCtxSt o.core (fun c => { c with cmdq := NMap.set c.cmdq 2 ((NMap.get [] c.cmdq 2).filter (fun c => c.op != some k)) })
    (s.dropSaved o.core k).endOp k code detail o.flags head

/-- A collective is cancelled at every participant, each with OP_CANCELLED (R200). Those that have not started find it so. -/
def State.cancelColl (s : State) (k code : Nat) (head : Bool) : State :=
  let o := s.op k
  let before := ((NMap.get [] (s.core o.core).c.cmdq 2).takeWhile (fun c => c.op != some k)).filter (fun c => isColl c.ins)
  let s := if o.coll.isSome then s else s.numberColls o.core (before ++ [o.cmd])
  match (s.op k).coll with
  | some i =>
    let ops := s.collOps i
    let s := { s with colls := s.colls.modify i (fun c => { c with dead := c.dead.orElse (fun _ => some (Code.opCancelled, 0)) }) }
    ops.foldl (fun s j => if j.2 = k then s else s.endColl j.2 Code.opCancelled 0 head) (s.endColl k code 0 head)
  | none => s.endColl k code 0 head

/-- A cancellation (R164, R200, R202): QUEUED, PARKED and SAVED operations end at once; started ones stop at their next
boundary; a matrix command whose array phase has begun runs to its end. -/
def State.cancelOp (s : State) (k code : Nat) (head : Bool) : State :=
  match s.op? k with
  | none => s
  | some o =>
    if o.st == .done || o.finished || o.verdict.isSome then s
    else
      let u := o.cmd.ins.cmdUnit
      if u < 2 then
        let e := (s.core o.core).t.eng u
        match (e.q.find? (fun c => c.op == some k)).orElse (fun _ => s.savedCmd o.core k) with
        | some c =>
          let s := (s.onTask o.core (fun t => t.onEng u (fun e => { e with q := e.q.filter (fun c => c.op != some k) }))).dropSaved o.core k
          (((s.engFree o.core c).engPoison o.core c).endOp k code 0 0 head).nextHead o.core u
        | none =>
        if o.st == .saved then s.endOp k code 0 0 head
        else
          match e.running.find? (fun c => c.op == some k && c.code == 0 && c.s == 0) with
          | some c =>
            let s := s.onTask o.core (fun t => t.onEng u (fun e =>
              { e with running := e.running.map (fun c =>
                  if c.op == some k then { c with code := code, c := 0, busy := [], uses := [], outs := [], res := none } else c) }))
            let s := (s.engFree o.core c).postEv s.now (.evMatrixArrayStart o.core u)
            (s.engPoison o.core c).endOp k code 0 0 head
          | none => s
      else
        let dq := (s.onCtxSt o.core (fun c => { c with cmdq := NMap.set c.cmdq u ((NMap.get [] c.cmdq u).filter (fun c => c.op != some k)) })).dropSaved
          o.core k
        if isColl o.cmd.ins then s.cancelColl k code head
        else
        match o.st with
        | .started =>
          match o.cmd.ins with
          | .subs _ _ _ _ => (dq.onOp k (fun o => { o with stop := some code })).postFree 64 (.evGroomTileFill k)
          | .bqpost _ _ _ _ => (dq.onOp k (fun o => { o with stop := some code })).postFree 120 (.evOpComplete k)
          | .cplan _ _ _ =>
            o.plan.children.foldl (fun s c => s.cancelCopy c code head)
              ((dq.onOp k (fun o => { o with plan := { o.plan with running := false } })).endOp k code 0 0 head)
          | _ => s.cancelCopy k code head
        | _ => dq.endOp k code o.prog o.flags head

/-! ### Killing -/

/-- Leases of a task end as by `LFREE` (R350): the words go back to the lenders. -/
def State.freeLeases (s : State) (core gk i : Nat) : State :=
  let mine := (s.core core).c.lease.filter (fun kl => kl.2.owner == (gk, i))
  let s := mine.foldl (fun s kl =>
    if kl.2.live then s.postEv (s.now + 8) (.evLeaseWordsReturn (coreOfYard core kl.2.core) core kl.1) else s) s
  s.onCtxSt core (fun c => { c with lease := c.lease.filter (fun kl => kl.2.owner != (gk, i)) })

/-- A queue is freed; a subscription of it stops after its tile (R171, R182). -/
def State.freeQueue (s : State) (core q : Nat) : State :=
  let s := match (s.queue core q).sub with
    | some k => (s.onOp k (fun o => { o with stop := some 0 })).postFree 64 (.evGroomTileFill k)
    | none => s
  s.resetQueue core q true

/-- Queues of TASK scope are freed when their task ends (R171). -/
def State.freeTaskQueues (s : State) (core gk i : Nat) : State :=
  (s.core core).c.q.foldl (fun s kq =>
    if kq.2.scope = 0 ∧ kq.2.st ≠ .free ∧ kq.2.owner = (gk, i) then s.freeQueue core kq.1 else s) s

/-- The task state of a core that no task is on: what ran is over, its registers keep their values until the next task starts (R25,
R26). -/
def TaskSt.leave (t : TaskSt) (now : Nat) : TaskSt :=
  { t.orphan.setMode now .none with
    grp := 0, idx := 0, pend := [], tokOwner := [], rdy := [], wait := [], walk := none, replay := none, jump := none, late := [], tries := 0,
    fetchTries := 0, codeScope := [], fetchWait := [], after := 0, released := false, drainAt := 0, saveFrom := .none, notBefore := 0,
    brk := none }

/-- The core is released: no task is on it any more. Both engines, and requests under way, go on (R164, R250). -/
def State.releaseCore (s : State) (core : Nat) : State :=
  let t := (s.core core).t
  let s := (s.freeTaskQueues core t.grp t.idx).freeLeases core t.grp t.idx
  let s := s.onCore core (fun c =>
    { c with t := c.t.leave s.now, gen := c.gen + 1,
             c := { c.c with waiters := c.c.waiters.filter (fun w => !(w.cmd.grp == t.grp && w.cmd.idx == t.idx)) } })
  (s.postEv s.now (.evTaskGrant core)).postEv (s.now + 1) (.evYardGate (dieOf core) (yardOf core))

/-- A task is killed: its micro-program runs stop at their next `BUROW`, those that wait are gone (R309). -/
def State.stopRuns (s : State) (core gk i : Nat) : State :=
  let mine : BuWork → Bool
    | .run c cmd _ => c == core && cmd.grp == gk && cmd.idx == i
    | .prog c cmd => c == core && cmd.grp == gk && cmd.idx == i
    | .entry _ _ => false
  ((s.units.filter (fun kv => kv.2.work.any mine)).map Prod.fst).foldl (fun s u =>
    let b := s.unit u
    if b.running && ((b.work.head?).map mine).getD false then
      (s.onUnit u (fun b => { b with stop := some Code.opCancelled, waitPage := false, work := b.work.take 1 ++ (b.work.drop 1).filter (fun w => !mine w) })).post
        s.now (.micro u)
    else s.dropUnitWork u mine) s

/-- The commands of a killed task that wait in its units leave them (notes/assumptions/22). -/
def State.dropCmds (s : State) (core gk i : Nat) : State :=
  (s.stopRuns core gk i).onCtxSt core (fun c => { c with
    cmdq := c.cmdq.map (fun kv => (kv.1, kv.2.filter (fun x => x.op.isSome || !(x.grp == gk && x.idx == i)))),
    opWaits := c.opWaits.filter (fun w => !(w.2.2.grp == gk && w.2.2.idx == i)) })

/-- A splice that a save quiesced goes on (R177): its partner is told, wherever its context is. -/
def State.resumeSplice (s : State) (core q : Nat) : State :=
  let s := if (s.queue core q).quiet = 0 then s
    else (s.onQueue core q (fun x => { x with quiet := 0 })).sendCtl core q (fun pc pq => .evResume pc pq)
  (s.sendHeld core q).releaseQ core q

/-- Every splice of a core goes on. -/
def State.resumeSplices (s : State) (core : Nat) : State := (NMap.keys (s.core core).c.q).foldl (fun s q => s.resumeSplice core q) s

/-- A suspended task is gone from its slot (R336), with what it held on the core. -/
def State.dropSusp (s : State) (core gk i : Nat) : State :=
  if (s.core core).c.susp.any (fun x => x.t.grp == gk && x.t.idx == i) then
    let s := ((s.freeTaskQueues core gk i).freeLeases core gk i).onCtxSt core (fun c =>
      { c with susp := c.susp.filter (fun x => !(x.t.grp == gk && x.t.idx == i)),
               waiters := c.waiters.filter (fun w => !(w.cmd.grp == gk && w.cmd.idx == i)) })
    (s.resumeSplices core).postEv s.now (.evTaskGrant core)
  else s

/-- A task is killed (R26, R195, R196): its operations are cancelled or pass upward, its retained statuses are gone, and its core is
free. -/
def State.killTask (s : State) (gk i cause opCode : Nat) : State :=
  match s.group? gk, s.task? gk i with
  | some g, some t =>
    if t.st == .done || t.st == .killed then s
    else
      let core := recCore (g.ctx / 64) t.recd
      let s := s.onTaskRec gk i (fun t => { t with st := .killed, cause := if t.cause = 0 then cause else t.cause })
      let s := s.onGroup gk (fun g => { g with firstKilled := g.firstKilled.orElse (fun _ => some (i, cause)) })
      let s := (s.ownedOps gk i).foldl (fun s k => s.cancelOp k opCode false) s
      let s := { s with ops := (s.ops.filter (fun (kv : Nat × Op) =>
          !(kv.2.owner == 0 && kv.2.grp == gk && kv.2.idx == i && !kv.2.det && kv.2.st == OpState.done && kv.2.retained))).map (fun (kv : Nat × Op) =>
        if kv.2.owner == 0 && kv.2.grp == gk && kv.2.idx == i && kv.2.det then (kv.1, { kv.2 with owner := 1 }) else kv) }
      let s := s.dropCmds core gk i
      let saving := (s.core core).t.mode == .saving && (s.context g.ctx).st == .active
      let s := if (s.core core).t.isTask gk i then (if saving then (s.releaseCore core).resumeSplices core else s.releaseCore core)
        else s.dropSusp core gk i
      s.postEv s.now (.evGroupEnd gk)
  | _, _ => s

/-- A group is killed (R331): every task that is not DONE becomes KILLED. -/
def State.killGroup (s : State) (gk cause : Nat) : State :=
  match s.group? gk with
  | some g =>
    let s := s.onGroup gk (fun g => { g with killedBy := g.killedBy.orElse (fun _ => some cause) })
    let s := (List.range g.tasks.length).foldl (fun s i => s.killTask gk i Code.killedByParent Code.killedByParent) s
    let own := (s.ops.filter (fun kv => kv.2.owner == 1 && !kv.2.det && kv.2.grp == gk && kv.2.st != .done)).map Prod.fst
    (own.foldl (fun s k => s.cancelOp k Code.killedByParent false) s).postEv s.now (.evGroupEnd gk)
  | none => s

/-! ### Containment (R342) -/

/-- The context level (R342): IGNORE and RETRY absorb; the other two are fatal, and KILL_PARENT copies the record to the
mailbox. -/
def State.faultContext (s : State) (ctx : Nat) (r : RecInfo) : State :=
  match (s.context ctx).cpol with
  | 0 => s.postInfo ctx r
  | 1 => s.postInfo ctx r
  | 2 => s.fatal ctx r
  | _ => (s.fatal ctx r).toMailbox ctx { r with fatal := true }.raw

/-- A killed task is listed again under its index (R26, R331, R337). -/
def State.relist (s : State) (gk i : Nat) : State :=
  ((s.onTaskRec gk i (fun t => { t with st := .listed, cnt := 0 })).onGroup gk (fun g =>
    { g with firstKilled := g.firstKilled.filter (fun e => e.1 != i) })).postEv s.now (.evTaskReady gk i)

/-- The group level (R331). `task` names the task that was killed, or is absent for a fault of an operation the group
owns. -/
def State.faultGroup (s : State) (gk : Nat) (task : Option Nat) (r : RecInfo) : State :=
  match s.group? gk with
  | none => s.faultContext (gk / 2 ^ 32 * 64) r
  | some g =>
    let s := s.postInfo g.ctx r
    let kill (s : State) : State := s.killGroup gk r.code
    match g.gpol, task with
    | 0, _ => s
    | 1, none => s
    | 1, some i =>
      let retries := ((g.tasks[i]?).map (fun t => t.retries)).getD 0
      if retries < 2 then
        ((s.onTaskRec gk i (fun t => { t with retries := t.retries + 1 })).relist gk i)
      else kill s
    | 2, _ => kill s
    | _, _ => (kill s).faultContext g.ctx r

/-- The task is killed by a fault, and under KILL_PARENT its group decides (R342). -/
def State.faultKills (s : State) (core : Nat) (parent : Bool) (r : RecInfo) : State :=
  let t := (s.core core).t
  let s1 := s.killTask t.grp t.idx r.code Code.killedByParent
  let s1 := if (s1.core core).t.isTask t.grp t.idx then s1.releaseCore core else s1
  if parent then s1.faultGroup t.grp (some t.idx) r else s1

/-- Issue goes on at an address from a cycle, unless the bundle ended the task (R111) or waits in `BRK` (R115). -/
def State.issueAt (s : State) (core pc due : Nat) : State :=
  match (s.core core).t.after with
  | 1 =>
    let s := s.onTask core (fun t => { t.setMode s.now .retiring with pc := pc, after := 0, jump := none, replay := none })
    (s.onTaskRec (s.core core).t.grp (s.core core).t.idx (fun t => { t with st := .retiring })).postEv s.now (.evTaskDone core)
  | 2 => s.onTask core (fun t => { t.setMode s.now .brk with pc := pc, after := 0, brk := t.brk.map (fun b => (s.now, b.2)) })
  | _ => (s.onTask core (fun t => { t with pc := pc, notBefore := due })).post due (.issue core (s.core core).gen)

/-- A fault found in the issue cycle is taken (R86, R338, R342): the bundle has no effect, and the task level decides.
IGNORE goes on with the next bundle, RETRY issues the bundle again, at most twice. -/
def State.takeFault (s : State) (code detail word5 : Nat) : State :=
  let core := s.cur
  let ctx := s.ctxOf core
  let r : RecInfo := { s.recBase core with code := code, bundle := s.iss.bundle, bays := s.iss.mask, detail := detail, word5 := word5 }
  let s := { s with iss := { s.iss with trapped := true } }
  match recCT (s.taskRec core) with
  | 0 => ((s.postInfo ctx r).onTask core (fun t => { t with tries := 0 })).issueAt core s.iss.npc (s.now + 1 + s.iss.idle)
  | 1 =>
    if (s.core core).t.tries < 2 then
      ((s.postInfo ctx r).onTask core (fun t => { t with tries := t.tries + 1 })).issueAt core s.iss.bundle (s.now + 1)
    else (s.postInfo ctx r).faultKills core false r
  | 2 => (s.postInfo ctx r).faultKills core false r
  | _ => (s.postInfo ctx r).faultKills core true r

/-- A bay that is marked finished without effect leaves nothing that waits for it: its destination keeps what it held, and a
slot it had reserved last is given back. -/
def State.forgetReq (s : State) (core : Nat) (u : Unfin) : State :=
  let s := s.onTask core (fun t => { t with wait := t.wait.filter (fun e => e.2 != u.req.id) })
  match u.req.dest with
  | .slot q c =>
    s.onQueue core q (fun q =>
      if q.gen ≠ c / 65536 then q
      else if q.st == .send then
        if ctr (c + 1) = ctr q.sent then { q with sent := q.sent - 1, cr := q.cr + 1, unsent := q.unsent - 1 } else q
      else if ctr (c + 1) = q.tail then { q with tail := c % 65536 }
      else q)
  | _ => s

/-- A fault that strikes after the other bays of its bundle have completed is taken (R86, R98, R339). The replay buffer
keeps the unfinished bays. PAGE_NOT_PRESENT holds the task and MIGRATE_WAIT parks it, each with a replayable record; any
other fault goes to the task level. -/
def State.takeLate (s : State) (core : Nat) (rp : Replay) (u : Unfin) (code detail word5 : Nat) : State :=
  let ctx := s.ctxOf core
  let r : RecInfo := { s.recBase core with code := code, bundle := rp.bundle, bays := rp.bays, done := rp.done, detail := detail, word5 := word5 }
  let s := s.onTask core (fun t => { t with replay := some { rp with code := code }, walk := none })
  let goOn (s : State) : State :=
    ((s.forgetReq core u).onTask core (fun t =>
      { t with replay := none, jump := if u.target.isSome then none else t.jump })).issueAt core rp.npc (s.now + 1)
  if code = Code.pageNotPresent then
    (s.postInfo ctx { r with repl := true }).onTask core (fun t => t.setMode s.now .held)
  else if code = Code.migrateWait then
    let s := (s.postInfo ctx { r with repl := true }).onTask core (fun t => t.setMode s.now .parked)
    s.onTaskRec (s.core core).t.grp (s.core core).t.idx (fun t => { t with st := .parked })
  else
    match recCT (s.taskRec core) with
    | 0 => goOn (s.postInfo ctx r)
    | 1 =>
      if rp.tries < 2 then
        let s := s.postInfo ctx r
        let s := s.onTask core (fun t => { t with replay := some { rp with tries := rp.tries + 1, code := 0 }, walk := some u })
        s.postFree 512 (.evPageWalkReturn core)
      else (s.postInfo ctx r).faultKills core false r
    | 2 => (s.postInfo ctx r).faultKills core false r
    | _ => (s.postInfo ctx r).faultKills core true r

/-- A 64-byte block of code that is there. -/
def Core.block (c : Core) (b : Nat) : Option (List Byte) := (NMap.find c.held b).orElse (fun _ => NMap.find c.fetched b)

/-- A fault raised against the oldest bundle that has not issued (R100, R279, R359): IGNORE and RETRY absorb it. For a
retiring task it names the `TEND` bundle, all of whose bays are complete; any other bundle's presence mask is known once its
header is fetched. -/
def State.takeUnissued (s : State) (core code loadBundle addr : Nat) : State :=
  let ctx := s.ctxOf core
  let t := (s.core core).t
  let ended := decide (t.mode = .retiring)
  let next := match (s.core core).block (t.pc / 64) with
    | some bs => bits (ofBytes ((bs.drop (t.pc % 64)).take 2)) 0 7
    | none => 0
  let b : Nat × Nat := if ended then t.last else (t.pc, next)
  let r : RecInfo := { s.recBase core with code := code, bundle := b.1, bays := b.2, done := if ended then b.2 else 0, detail := loadBundle, word5 := addr % 2 ^ 57 }
  let s := s.postInfo ctx r
  match recCT (s.taskRec core) with
  | 0 => s
  | 1 => s
  | 2 => s.faultKills core false r
  | _ => s.faultKills core true r

/-- A fetch fault that is not replayable (R342): RETRY tries the fetch twice more; IGNORE has no bundle to skip. -/
def State.takeFetch (s : State) (core : Nat) (f : TFault) : State :=
  let ctx := s.ctxOf core
  let t := (s.core core).t
  let r : RecInfo := { s.recBase core with code := f.code, bundle := t.pc, word5 := f.word5 }
  if f.code = Code.pageNotPresent then
    (s.postInfo ctx { r with repl := true }).onTask core (fun t =>
      { t.setMode s.now .held with replay := some { bundle := t.pc, npc := t.pc, code := f.code } })
  else
    match recCT (s.taskRec core) with
    | 1 =>
      if t.fetchTries < 2 then
        ((s.postInfo ctx r).onTask core (fun t => { t with fetchTries := t.fetchTries + 1 })).issueAt core t.pc (s.now + 1)
      else (s.postInfo ctx r).faultKills core false r
    | 3 => (s.postInfo ctx r).faultKills core true r
    | _ => (s.postInfo ctx r).faultKills core false r

/-- A start fault (R239): IGNORE and RETRY count as KILL_SELF. -/
def State.takeStart (s : State) (core code entry : Nat) : State :=
  let r : RecInfo := { s.recBase core with code := code, bundle := entry }
  (s.postInfo (s.ctxOf core) r).faultKills core (recCT (s.taskRec core) == 3) r

/-- The record of an operation (R197): the detail of the status word stands at its own place, above the low 16 bits, the owner and
the detached mark in the last word (notes/assumptions/114). -/
def Op.record (o : Op) (key : Nat) (code detail word5 : Nat) : RecInfo :=
  let enc := match encode o.cmd.ins with
    | some (.mx w) => w.toNat
    | some (.cx w) => w.toNat
    | _ => 0
  { kind := 1, unit := o.unit, code := code, grp := o.cmd.grp, task := o.cmd.idx, coord := coordWord o.core,
    bundle := o.cmd.bundle, bays := o.cmd.mask, done := o.cmd.mask, detail := detail * 2 ^ 16, word5 := word5, opid := (opIdent key o.gen).toNat, prog := o.prog,
    kspec := (([bits enc 0 64, bits enc 64 32] ++ (o.cmd.vals ++ [o.cmd.ca]).map BitVec.toNat) ++ List.replicate 5 0).take 7
      ++ [o.owner + (if o.det then 4 else 0)] }

/-- The policy of an operation (R190, R198). -/
def State.opPolicy (s : State) (o : Op) : Nat :=
  if bitOf o.cmd.ca.toNat 58 then bits o.cmd.ca.toNat 56 2
  else ((s.task? o.cmd.grp o.cmd.idx).map (fun t => recCO t.recd)).getD 0

/-- A fault of an operation reaches its owner (R198, R331, R342). -/
def State.faultOwner (s : State) (o : Op) (r : RecInfo) : State :=
  match o.owner with
  | 0 =>
    match ((s.task? o.grp o.idx).map (fun t => recCT t.recd)).getD 0 with
    | 0 => s.postInfo o.ctx r
    | 1 => s.postInfo o.ctx r
    | 2 => (s.postInfo o.ctx r).killTask o.grp o.idx r.code Code.killedByParent
    | _ => ((s.postInfo o.ctx r).killTask o.grp o.idx r.code Code.killedByParent).faultGroup o.grp (some o.idx) r
  | 1 => s.faultGroup o.grp none r
  | _ => s.faultContext o.ctx r

/-- An operation fault (R198): `restart` runs the operation again under RETRY. With `later` the operation completes in the next cycle. -/
def State.opFault (s : State) (k code detail word5 : Nat) (restart : State → State) (later : Bool := false) : State :=
  match s.op? k with
  | none => s
  | some o =>
    let r := o.record k code detail word5
    let end_ (s : State) : State := if later then s.endLater k code detail o.flags else s.endOp k code detail o.flags false
    match s.opPolicy o with
    | 0 => end_ s
    | 1 =>
      if o.tries < 2 then restart (s.onOp k (fun o => { o with tries := o.tries + 1, prog := 0, flags := 0, bytes := 0, oob := 0, st := .queued }))
      else end_ (s.postInfo o.ctx r)
    | 2 => end_ (s.postInfo o.ctx r)
    | _ => (end_ (s.postInfo o.ctx r)).faultOwner o r

/-- A started operation meets a replayable translation fault and parks (R199). -/
def State.parkOp (s : State) (k : Nat) (f : TFault) : State :=
  match s.op? k with
  | none => s
  | some o =>
    let s := s.onOp k (fun o => { o with st := .parked, park := some { code := f.code, va := f.va, acc := f.acc, level := f.level } })
    s.postInfo o.ctx { o.record k f.code 0 f.word5 with repl := true }

/-! ### The return from an exception (R26, R276, R339) -/

/-- A held or parked task goes on (R339): its unfinished bays translate afresh, and issue goes on after them. -/
def State.resumeTask (s : State) (core : Nat) : State :=
  let t := (s.core core).t
  match t.replay with
  | some rp =>
    let s := s.onTask core (fun t => t.setMode s.now .running)
    let s := s.onTaskRec t.grp t.idx (fun x => if x.st == .parked then { x with st := .running } else x)
    match rp.items with
    | u :: _ => (s.onTask core (fun t => { t with walk := some u })).postFree 512 (.evPageWalkReturn core)
    | [] => (s.onTask core (fun t => { t with replay := none })).issueAt core rp.npc (s.now + 1)
  | none => s

/-- A task waiting in `BRK` is released (R351): the next bundle issues in the cycle after; one saved from `BRK`, when it
resumes. -/
def State.releaseBrk (s : State) (core : Nat) : State :=
  if (s.core core).t.mode = .brk then
    (s.onTask core (fun t => { t.setMode s.now .running with brk := none, lastClear := t.brkClear s.now })).issueAt core (s.core core).t.pc (s.now + 1)
  else
    let mark (t : TaskSt) : TaskSt := if t.saveFrom == .brk then { t with released := true } else t
    (s.onTask core mark).onCtxSt core (fun c => { c with susp := c.susp.map (fun x => { x with t := mark x.t }) })

/-- Whether an operation is a copy, of which a port keeps four STARTED (R204). -/
def isCopyOp (i : Instr) : Bool :=
  match i with
  | .cplan _ _ _ => false
  | _ => i.cmdUnit == 2 && i.unitCode == 0x30

/-- Whether the copy port of a core may start another copy (R204): one that is PARKED keeps its place, and so does one whose completion
another holds (R193). -/
def State.copyRoom (s : State) (core : Nat) : Bool :=
  decide ((s.ops.filter (fun kv => kv.2.core == core && isCopyOp kv.2.cmd.ins
    && (kv.2.st == .started || kv.2.st == .parked
      || (kv.2.st == .queued && !kv.2.finished && s.isDue (fun a => a == .ev (.evOpStart kv.1) || a == .ev (.evCopyLine kv.1)))))).length < 4)

/-- Whether a write of an operation waits for the host link (R257, R359). -/
def State.writesHeld (s : State) (k : Nat) : Bool := s.dies.any (fun kd => kd.2.posted.any (fun w => w.op == some k))

/-- A parked operation whose page is resolved goes on from its kept progress (R194). -/
def State.resumeOp (s : State) (k : Nat) : State :=
  match s.op? k with
  | some o =>
    if o.st == .parked then
      let s := s.onOp k (fun o => { o with st := .started, park := none })
      match o.cmd.ins with
      | .subs _ _ _ _ => s.postFree 64 (.evOpStart k)
      | .bqpost _ _ _ _ => s.postEv s.now (.evOpStart k)
      | .callred _ _ _ _ | .cred _ _ _ _ | .cbc _ _ _ _ | .cag _ _ _ _ | .crsc _ _ _ _ =>
        s.postFree 64 (if o.recs.isEmpty then .evOpStart k else .evCollectiveJoin k)
      | .cpyx _ _ _ _ => s.postFree 64 (if o.lines.isEmpty && o.prog == 0 then .evOpStart k else .evCopyLine k)
      | _ => s.postFree 64 (if o.recs.isEmpty then .evOpStart k else .evCopyLine k)
    else s
  | none => s

end Sys2Proof.Machine
end

