-- ==== Sys2Proof/Machine/Operands.lean ====
section
/-!
DEFINITION. Operands: what every instruction reads and writes, what makes a bundle wait (R17), the checks a bundle's
registers and queues meet (R15, R81, R83, R170), and the one read and the one write of each operand form (R80 to R82, R87,
R120, R166).
-/

namespace Sys2Proof.Machine

/-- A source: scalar, vector, an identifier read whatever its pending bit holds (R201), a lane mask, a token register. -/
inductive Use where
  | s (o : Opd)
  | v (o : Opd)
  | id (o : Opd)
  | m (i : Nat)
  | tok (r : Nat)
  deriving DecidableEq, Repr

/-- A destination. -/
inductive Def where
  | s (o : Opd)
  | v (o : Opd)
  | m (i : Nat)
  | tok (r : Nat)
  deriving DecidableEq, Repr

def cmdUses (h : CmdHdr) (os : List Opd) : List Use := (if h.tv then [.tok h.tok.toNat] else []) ++ os.map .s
def cmdDefs (h : CmdHdr) : List Def := if h.tv then [.tok h.tok.toNat] else []
def optOpd : Option Opd → List Opd
  | some o => [o]
  | none => []
def vUses (h : VHdr) (os : List Opd) : List Use := .m h.msk.toNat :: os.map .v

/-- The sources of an instruction of a bay (R15, R80). -/
def uses : Instr → List Use
  | .jmpi a | .brz a _ | .brnz a _ | .ret a | .trap a _ => [.s a]
  | .loop d _ => [.s d]
  | .add _ _ x y | .sub _ _ x y | .mul _ _ x y | .mulh _ _ x y | .mulhn _ _ x y | .div _ _ x y | .divn _ _ x y
  | .rem _ _ x y | .remn _ _ x y | .and _ _ x y | .or _ _ x y | .xor _ _ x y | .andn _ _ x y | .orn _ _ x y
  | .shl _ _ x y | .shrl _ _ x y | .shra _ _ x y | .rotl _ _ x y | .rotr _ _ x y | .min _ _ x y | .max _ _ x y
  | .minn _ _ x y | .maxn _ _ x y | .cmp _ _ _ x y | .lea _ _ x y _ _ | .bfx _ _ x y _ _ => [.s x, .s y]
  | .addi _ _ x _ | .clz _ _ x | .ctz _ _ x | .popc _ _ x | .lui _ _ x _ | .sext _ _ x _ | .zext _ _ x _ | .mov _ _ x => [.s x]
  | .sel _ _ c x y => [.s x, .s y, .s c]
  | .bfi _ d x p _ => [.s x, .s p, .s d]
  | .ld _ b o _ | .ldsp _ b o _ _ => [.s b, .s o]
  | .st v b o _ | .stsp v b o _ => [.s v, .s b, .s o]
  | .amo d a v k _ _ _ => if k = 9 then [.s a, .s v, .s d] else [.s a, .s v]
  | .spst v i _ => [.s v, .s i]
  | .spld _ i _ => [.s i]
  | .swr a _ | .cycest a | .setprio a => [.s a]
  | .vadd h _ a b _ | .vsub h _ a b _ | .vmul h _ a b _ | .vmin h _ a b | .vmax h _ a b | .vcmp h _ a b _ _
  | .vand h _ a b | .vor h _ a b | .vxor h _ a b | .vshl h _ a b | .vshr h _ a b | .vshra h _ a b | .vperm h _ a b
  | .vbcast h _ a b | .viota h _ a b | .vpack h _ a b _ | .vgather h _ a b => vUses h [a, b]
  | .vfma h _ a b c | .vfms h _ a b c | .vsel h _ a b c | .vslide h _ a b c | .vosm h _ a b c _ => vUses h [a, b, c]
  | .vquant h _ a b c _ _ => vUses h [a, b, c]
  | .vneg h _ a _ | .vabs h _ a _ | .vrcp h _ a | .vrsq h _ a | .vsqrt h _ a | .vexp2 h _ a | .vlog2 h _ a | .vnot h _ a
  | .vcvt h _ a _ _ | .vredsum h _ a _ _ | .vredmax h _ a _ | .vredmin h _ a _ | .vscan h _ a _ _ | .vunpack h _ a _
  | .vld h _ a _ | .vmov h _ a => vUses h [a]
  | .vst h v a _ => vUses h [v, a]
  | .mand _ a b | .mor _ a b => [.m a.toNat, .m b.toNat]
  | .mnot _ a | .mpopc _ a => [.m a.toNat]
  | .mma h p | .mdist h p => cmdUses h [p.a, p.b, p.msk]
  | .mtopk h _ _ _ _ b _ _ _ m => cmdUses h [b, m]
  | .mzero h _ _ => cmdUses h []
  | .mdrain h _ _ _ d m _ _ _ _ => cmdUses h (match d with | .app _ => [m] | _ => [d, m])
  | .mldacc h _ _ _ s m _ _ => cmdUses h [s, m]
  | .sld _ _ a _ => [.s a]
  | .cpy h _ _ _ ca | .cpyg h _ _ ca | .cpys h _ _ ca | .cpyx h _ _ ca | .cpysc h _ _ ca | .subs h _ _ ca
  | .callred h _ _ ca | .cred h _ _ ca | .cbc h _ _ ca | .cag h _ _ ca | .crsc h _ _ ca => cmdUses h (optOpd ca)
  | .cplan h s0 ca => cmdUses h (s0 :: optOpd ca)
  | .cstep h n => cmdUses h [n]
  | .unsubs h _ => cmdUses h []
  | .opwait h i | .opcancel h i | .opdetach h i | .opadopt h i | .opquery h i => cmdUses h [] ++ [.id i]
  | .qinit h _ b _ _ _ => cmdUses h [b]
  | .qspliceSend h _ _ _ _ _ | .qspliceRecv h _ _ _ _ _ | .qunsplice h _ | .qreset h _ _ | .qstat h _ => cmdUses h []
  | .qpush h _ a | .qpop h _ a => cmdUses h [a]
  | .binit h _ | .bclear h _ _ | .bufset h _ _ _ => cmdUses h []
  | .bexpect h _ n | .barrive h _ n _ _ => cmdUses h [n]
  | .bwait h _ p => cmdUses h (optOpd p)
  | .bufdecl h _ b sz _ => cmdUses h [b, sz]
  | .bqpost h q d ca => cmdUses h (q :: d :: optOpd ca)
  | .buprog h v sp => cmdUses h [v, sp]
  | .burun h v d l => cmdUses h [v, d, l]
  | .bustat h v => cmdUses h [v]
  | .tlaunch h r => cmdUses h [r]
  | .tdep h i => cmdUses h [i]
  | .lease h _ _ w f => cmdUses h [w, f]
  | .leaseRcl h | .lfree h _ | .publish h _ => cmdUses h []
  | _ => []

/-- The destinations of an instruction of a bay (R83). -/
def defs : Instr → List Def
  | .call d _ | .loop d _ => [.s d]
  | .add _ d _ _ | .sub _ d _ _ | .mul _ d _ _ | .mulh _ d _ _ | .mulhn _ d _ _ | .div _ d _ _ | .divn _ d _ _
  | .rem _ d _ _ | .remn _ d _ _ | .and _ d _ _ | .or _ d _ _ | .xor _ d _ _ | .andn _ d _ _ | .orn _ d _ _
  | .shl _ d _ _ | .shrl _ d _ _ | .shra _ d _ _ | .rotl _ d _ _ | .rotr _ d _ _ | .min _ d _ _ | .max _ d _ _
  | .minn _ d _ _ | .maxn _ d _ _ | .cmp _ _ d _ _ | .lea _ d _ _ _ _ | .bfx _ d _ _ _ _ | .addi _ d _ _ | .clz _ d _
  | .ctz _ d _ | .popc _ d _ | .lui _ d _ _ | .sext _ d _ _ | .zext _ d _ _ | .mov _ d _ | .sel _ d _ _ _ | .bfi _ d _ _ _
  | .li _ d _ => [.s d]
  | .ld d _ _ _ | .ldsp d _ _ _ _ | .amo d _ _ _ _ _ _ | .spld d _ _ | .srd d _ => [.s d]
  | .vadd _ d _ _ _ | .vsub _ d _ _ _ | .vmul _ d _ _ _ | .vmin _ d _ _ | .vmax _ d _ _
  | .vand _ d _ _ | .vor _ d _ _ | .vxor _ d _ _ | .vshl _ d _ _ | .vshr _ d _ _ | .vshra _ d _ _ | .vperm _ d _ _
  | .vbcast _ d _ _ | .viota _ d _ _ | .vpack _ d _ _ _ | .vgather _ d _ _ | .vfma _ d _ _ _ | .vfms _ d _ _ _
  | .vsel _ d _ _ _ | .vslide _ d _ _ _ | .vosm _ d _ _ _ _ | .vquant _ d _ _ _ _ _ | .vneg _ d _ _ | .vabs _ d _ _
  | .vrcp _ d _ | .vrsq _ d _ | .vsqrt _ d _ | .vexp2 _ d _ | .vlog2 _ d _ | .vnot _ d _ | .vcvt _ d _ _ _
  | .vredsum _ d _ _ _ | .vredmax _ d _ _ | .vredmin _ d _ _ | .vscan _ d _ _ _ | .vunpack _ d _ _ | .vld _ d _ _
  | .vmov _ d _ => [.v d]
  | .vcmp _ d _ _ mw _ => [.v d, .m mw.toNat]
  | .mand d _ _ | .mor d _ _ | .mnot d _ => [.m d.toNat]
  | .mpopc d _ => [.v d]
  | .mdrain h _ _ _ d _ _ _ _ _ => cmdDefs h ++ (match d with | .app q => [.s (.app q)] | _ => [])
  | i =>
    match i.cmdHdr with
    | some h => cmdDefs h
    | none => []

/-! ### Register numbers of operands -/

def sKey : Opd → Option Nat
  | .ya => some RegKey.ya
  | .yb => some RegKey.yb
  | .file i => some (RegKey.k i.toNat)
  | .main i => some (RegKey.g i.toNat)
  | _ => none

def vKey : Opd → Option Nat
  | .yv => some RegKey.yv
  | .file i => some (RegKey.w i.toNat)
  | .main i => some (RegKey.v i.toNat)
  | _ => none

def Use.key : Use → Option Nat
  | .s o => sKey o
  | .v o => vKey o
  | .id o => sKey o
  | .m i => some (RegKey.m i)
  | .tok r => some (RegKey.g r)

def Def.key : Def → Option Nat
  | .s o => sKey o
  | .v o => vKey o
  | .m i => if i = 0 then none else some (RegKey.m i)
  | .tok r => some (RegKey.g r)

/-- The queue and offset a source reads, and whether it pops (R81). -/
def Use.chan : Use → Option (Nat × Nat × Bool)
  | .s (.peek q o) | .v (.peek q o) => some (q.toNat, o.toNat, false)
  | .s (.pop q o) | .v (.pop q o) => some (q.toNat, o.toNat, true)
  | _ => none

/-- The queue a destination appends to (R82). -/
def Def.app : Def → Option Nat
  | .s (.app q) | .v (.app q) => some q.toNat
  | _ => none

/-! ### Checks over a bundle -/

/-- How many different numbers a list names. -/
def distinct (l : List Nat) : Nat := l.eraseDups.length

/-- The limits of R15: six registers of the scalar main file and four of the vector main file as sources. -/
def portsOk (is : List Instr) : Bool :=
  let ks := is.flatMap (fun i => (uses i).filterMap Use.key)
  decide (distinct (ks.filter (fun k => decide (k < 64))) ≤ 6)
    && decide (distinct (ks.filter (fun k => decide (96 ≤ k) && decide (k < 128))) ≤ 4)

/-- The queues a bay pops. -/
def popsOf (i : Instr) : List Nat := ((uses i).filterMap (fun u => u.chan.bind (fun c => if c.2.2 then some c.1 else none))).eraseDups

/-- No queue is popped by two bays (R81). -/
def popsOk (is : List Instr) : Bool := let ps := is.flatMap popsOf; ps.eraseDups.length == ps.length

/-- No register is written by two bays (R83). -/
def writesOk (is : List Instr) : Bool :=
  let ws := is.flatMap (fun i => ((defs i).filterMap Def.key).eraseDups)
  ws.eraseDups.length == ws.length

/-! ### What makes a bundle wait (R17) -/

/-- A source that is not ready: a register, or a slot that is reserved and not present. A slot that raises a fault at
issue does not wait. -/
def Use.waits (c : Core) (now : Nat) (u : Use) : Bool :=
  let reg := match u with
    | .id o => (sKey o).elim false (fun k => !c.t.isReadyId now k)
    | _ => u.key.elim false (fun k => !c.t.isReady now k)
  let slot := match u.chan with
    | some (q, o, _) =>
      let qq := NMap.get {} c.c.q q
      qq.st.mayRead && qq.st != .lost && decide (o < qq.occ) && !qq.present now (ctr (qq.head + o))
    | none => false
  reg || slot

/-- The completion-action operand of a command (R190). -/
def caOpd : Instr → Option Opd
  | .cpy _ _ _ _ ca | .cpyg _ _ _ ca | .cpys _ _ _ ca | .cpyx _ _ _ ca | .cpysc _ _ _ ca | .subs _ _ _ ca
  | .callred _ _ _ ca | .cred _ _ _ ca | .cbc _ _ _ ca | .cag _ _ _ ca | .crsc _ _ _ ca | .cplan _ _ ca
  | .bqpost _ _ _ ca => ca
  | _ => none

/-- Appends a bundle makes to a queue, reservations of PRES actions included (R82, R190). -/
def presOf (c : Core) (i : Instr) : Option (Nat × Nat) :=
  match caOpd i with
  | some o =>
    let x := (sKey o).elim 0 (fun k => c.t.scalar k)
    if caKind x = 3 then some (bits (caArg x) 0 5, bits (caArg x) 5 9) else none
  | none => none

def appendsTo (c : Core) (is : List Instr) (q : Nat) : Nat :=
  (is.flatMap (fun i => (defs i).filterMap Def.app)).count q
    + (is.filterMap (presOf c)).foldl (fun acc p => if p.1 = q then acc + p.2 else acc) 0

/-- Whether every queue a bundle appends to has the room (R17, R82). A queue in a state that raises a fault does not
wait. -/
def roomOk (c : Core) (is : List Instr) : Bool :=
  let qs := ((is.flatMap (fun i => (defs i).filterMap Def.app)) ++ (is.filterMap (presOf c)).map Prod.fst).eraseDups
  qs.all (fun q =>
    let qq := NMap.get {} c.c.q q
    !qq.st.mayAppend || decide (appendsTo c is q ≤ qq.room))

/-- Whether a command creates a child operation (R77, R78). -/
def createsOp (i : Instr) : Bool :=
  match i with
  | .mma _ _ | .mdist _ _ | .mtopk _ _ _ _ _ _ _ _ _ _ | .mzero _ _ _ | .mdrain _ _ _ _ _ _ _ _ _ _ | .mldacc _ _ _ _ _ _ _ _ => true
  | .cpy _ _ _ _ _ | .cpyg _ _ _ _ | .cpys _ _ _ _ | .cpyx _ _ _ _ | .cpysc _ _ _ _ | .cplan _ _ _ | .subs _ _ _ _ => true
  | .callred _ _ _ _ | .cred _ _ _ _ | .cbc _ _ _ _ | .cag _ _ _ _ | .crsc _ _ _ _ | .bqpost _ _ _ _ => true
  | _ => false

/-- Whether a command finds its unit's queue full (R17). -/
def State.cmdFull (s : State) (core : Nat) (i : Instr) : Bool :=
  match i.cmdHdr with
  | some _ =>
    let c := s.core core
    let u := i.cmdUnit
    let n := if u < 2 then (c.t.eng u).q.length
             else (NMap.get [] c.c.cmdq u).length + (if u = 3 ∧ c.c.moving.isSome then 1 else 0)
    decide (unitDepth u ≤ n)
  | none => false

/-- Whether the instruction is one of the memory port (R99). -/
def usesPort : Instr → Bool
  | .ld _ _ _ _ | .st _ _ _ _ | .amo _ _ _ _ _ _ _ => true
  | _ => false

/-- The stall conditions of a bundle (R17). -/
def State.stalled (s : State) (core : Nat) (is : List Instr) : Bool :=
  let c := s.core core
  is.any (fun i => (uses i).any (fun u => u.waits c s.now))
    || !roomOk c is
    || is.any (fun i => s.cmdFull core i)
    || (is.any createsOp && !s.opRoom core (is.filter createsOp).length)
    || (is.any usesPort && decide (64 ≤ c.t.portUsed))
    || is.any (fun i => match i with
        | .waitc sm _ t => decide (NMap.get 0 c.c.sem sm.toNat < t.toNat)
        | _ => false)

/-! ### Issue-time faults of channels (R81, R170, R176) -/

/-- A fault found in the issue cycle: code, detail, word 5 of the record. -/
abbrev IssueFault := Nat × Nat × Nat

def srcFault (c : Core) (now : Nat) (u : Use) : Option IssueFault :=
  match u.chan with
  | some (q, o, _) =>
    let qq := NMap.get {} c.c.q q
    if !qq.st.mayRead then some (Code.queueState, 0, 0)
    else if qq.occ ≤ o then some (Code.queueUnderrun, 0, 0)
    else if qq.st == .lost && !qq.present now (ctr (qq.head + o)) then some (Code.spliceLost, 0, 0)
    else none
  | none => none

def dstFault (c : Core) (d : Def) : Option IssueFault :=
  match d.app with
  | some q =>
    let qq := NMap.get {} c.c.q q
    if qq.st == .lost && qq.lostSend then some (Code.spliceLost, 0, 0)
    else if !qq.st.mayAppend then some (Code.queueState, 0, 0)
    else none
  | none => none

/-- The first channel fault of a bay: sources in order, then destinations. -/
def chanFault (c : Core) (now : Nat) (us : List Use) (ds : List Def) : Option IssueFault :=
  (us.findSome? (srcFault c now)).orElse (fun _ => ds.findSome? (dstFault c))

/-- A check: the fault when the condition fails. -/
def require (ok : Bool) (code : Nat) (detail word5 : Nat := 0) : Option IssueFault := if ok then none else some (code, detail, word5)

/-- The first fault of a list of checks. -/
def firstFault (l : List (Option IssueFault)) : Option IssueFault := l.findSome? id

/-- A bay's meaning: its issue-time faults in their order, and its effect when there is none (R86). -/
def issueBay (s : State) (f : Option IssueFault) (eff : State → State) : Host.Outcome State Fault Refusal :=
  match f with
  | some e => .next (s.takeFault e.1 e.2.1 e.2.2)
  | none => .next (eff s)

/-! ### Reads (R80, R87, R120, R166) -/

/-- Bytes of the slot at an offset from the head, as they stood before the bundle. -/
def slotRead (s : State) (q o n : Nat) : List Byte :=
  let qq := NMap.get {} s.iss.pre.c.q q
  s.iss.mem.readN (Addr.pad s.cur (qq.slotAddr (ctr (qq.head + o)))) (min n qq.size)

/-- A scalar source (R87). -/
def rdS (s : State) : Opd → Word
  | .ya => s.iss.pre.t.ya
  | .yb => s.iss.pre.t.yb
  | .file i => s.iss.pre.t.scalar (RegKey.k i.toNat)
  | .main i => s.iss.pre.t.scalar (RegKey.g i.toNat)
  | .imm v => v.signExtend 64
  | .peek q o => word (ofBytes (slotRead s q.toNat o.toNat 8))
  | .pop q o => word (ofBytes (slotRead s q.toNat o.toNat 8))
  | .yv => 0
  | .app _ => 0

/-- An integer that fits in seven bits as an element of a floating-point format, exactly (R120). -/
def smallFloat (f : FFmt) (n : Int) : Nat := (f.round 0 (decide (n < 0)) n.natAbs 0).1

/-- An immediate of a vector operand as an element's bits (R120): a bit pattern for the bitwise instructions, else converted
for an F type, sign-extended and wrapped for an integer type, and free for an FP8 type. -/
def immElem (bitwise : Bool) (ty : Nat) (v : BitVec 7) : Nat :=
  if bitwise then (v.toInt % 2 ^ tyWidth ty).toNat
  else
    match ty with
    | 0 => smallFloat fmtF32 v.toInt
    | 1 => smallFloat fmtBF16 v.toInt
    | 2 => smallFloat fmtF16 v.toInt
    | 11 => (Config.immFp8 11 v).toNat
    | 12 => (Config.immFp8 12 v).toNat
    | _ => (v.toInt % 2 ^ tyWidth ty).toNat

/-- A register of n equal elements of w bits. -/
def splat (w n x : Nat) : Nat := (List.range n).foldl (fun acc i => acc + x % 2 ^ w * 2 ^ (w * i)) 0

/-- A vector source (R120): a register, an immediate broadcast to every element, or the slot's first 256 bytes. -/
def rdV (s : State) (bitwise : Bool) (ty : Nat) : Opd → VReg
  | .yv => s.iss.pre.t.yv
  | .file i => s.iss.pre.t.vector (RegKey.w i.toNat)
  | .main i => s.iss.pre.t.vector (RegKey.v i.toNat)
  | .imm v => BitVec.ofNat 2048 (splat (tyWidth ty) (tyCount ty) (immElem bitwise ty v))
  | .peek q o => BitVec.ofNat 2048 (ofBytes (slotRead s q.toNat o.toNat 256))
  | .pop q o => BitVec.ofNat 2048 (ofBytes (slotRead s q.toNat o.toNat 256))
  | .ya => 0
  | .yb => 0
  | .app _ => 0

/-- A "scalar from lane 0" (R120): bits [31:0] as a natural value; an immediate yields its sign-extended value. -/
def rdLane0 (s : State) (ty : Nat) (o : Opd) : Word :=
  match o with
  | .imm v => v.signExtend 64
  | _ => word ((rdV s false ty o).toNat % 2 ^ 32)

/-! ### Pops and writes (R13, R18, R81, R82) -/

/-- The pops of a bay: each queue's head passes the largest offset popped (R81). -/
def popAll (s : State) (us : List Use) : State :=
  let ps := us.filterMap (fun u => u.chan.bind (fun c => if c.2.2 then some (c.1, c.2.1) else none))
  (ps.map Prod.fst).eraseDups.foldl (fun s q =>
    let o := ps.foldl (fun acc p => if p.1 = q then max acc p.2 else acc) 0
    s.popTo s.cur q ((NMap.get {} s.iss.pre.c.q q).head + o + 1)) s

/-- The latch of a scalar bay. -/
def latch : Bay2 → Nat
  | .sa => RegKey.ya
  | .sb => RegKey.yb

/-- A scalar result: the bay's latch and the named destination, ready `lat` cycles after issue (R13, R18). -/
def wrS (s : State) (b : Bay2) (d : Opd) (x : Word) (lat : Nat := 1) : State :=
  let s := s.onTask s.cur (fun t => t.putScalar (latch b) x (s.now + lat))
  match d with
  | .app q =>
    let (slot, s) := s.reserveSlot s.cur q.toNat
    s.fillLater s.cur q.toNat slot lat (toBytes 8 x.toNat)
  | _ =>
    match sKey d with
    | some k => s.onTask s.cur (fun t => t.putScalar k x (s.now + lat))
    | none => s

/-- A register written by the BR bay, which has no latch (R108). -/
def wrBr (s : State) (d : Opd) (x : Word) : State :=
  match sKey d with
  | some k => s.onTask s.cur (fun t => t.putScalar k x (s.now + 1))
  | none => s

/-- The old contents a vector destination merges with: zero for a channel (R121). -/
def oldV (s : State) (d : Opd) : VReg :=
  match vKey d with
  | some k => s.iss.pre.t.vector k
  | none => 0

/-- A vector result: `yv` and the named destination, ready `lat` cycles after issue (R13, R122). -/
def wrV (s : State) (d : Opd) (x : VReg) (lat : Nat := 4) : State :=
  let s := s.onTask s.cur (fun t => t.putVector RegKey.yv x (s.now + lat))
  match d with
  | .app q =>
    let (slot, s) := s.reserveSlot s.cur q.toNat
    let n := min 256 (s.queue s.cur q.toNat).size
    s.fillLater s.cur q.toNat slot lat (toBytes n x.toNat)
  | _ =>
    match vKey d with
    | some k => s.onTask s.cur (fun t => t.putVector k x (s.now + lat))
    | none => s

/-- A lane mask written by a VX instruction (R122). -/
def wrM (s : State) (i : Nat) (x : LaneMask) : State :=
  if i = 0 then s else s.onTask s.cur (fun t => (t.setMask i x).setReady (RegKey.m i) (s.now + 4))

/-- The active lanes of an instruction (R121). -/
def activeMask (s : State) (h : VHdr) : LaneMask := s.iss.pre.t.mask h.msk.toNat

/-- A read of scratchpad by a bay: single-bit errors are corrected, and a line that reads as uncorrectable raises
MEM_UNCORRECTABLE against the oldest bundle that has not issued when the result is ready (R100, R134, R166, R295). -/
def State.bayRead (s : State) (x n ready : Nat) : State :=
  let bad := s.padBad s.cur x n
  let s := (s.padScrub s.cur x n).onTask s.cur (fun t => { t with dataAt := max t.dataAt ready })
  if bad then
    (s.onTask s.cur (fun t => { t with late := t.late ++ [(ready, Code.memUncorrectable, s.iss.bundle, x)] })).post ready (.late s.cur)
  else s

/-- The first slot among a bay's sources that reads as uncorrectable: its address (R166). -/
def State.slotBad (s : State) (us : List Use) : Option Nat :=
  us.findSome? (fun u => u.chan.bind (fun c =>
    let qq := NMap.get {} s.iss.pre.c.q c.1
    let x := qq.slotAddr (ctr (qq.head + c.2.1))
    if s.padBad s.cur x (min 8 qq.size) then some x else none))

/-- The slots a bay reads, checked as scratchpad (R166). A scalar result is ready `lat` cycles after issue; that of a memory access,
with `lat` zero, when its data arrives. -/
def State.readSlots (s : State) (us : List Use) (lat : Nat := 1) : State :=
  us.foldl (fun s u =>
    match u.chan with
    | some (q, o, _) =>
      let qq := NMap.get {} s.iss.pre.c.q q
      let (n, lat) := match u with
        | .v _ => (256, max 4 lat)
        | _ => (8, lat)
      if lat = 0 then s.padScrub s.cur (qq.slotAddr (ctr (qq.head + o))) (min n qq.size)
      else s.bayRead (qq.slotAddr (ctr (qq.head + o))) (min n qq.size) (s.now + lat)
    | none => s) s

/-- A bay whose only issue-time faults are those of its channels: its reads and pops, then the effect (R81, R82, R170). -/
def bayOp (s : State) (us : List Use) (ds : List Def) (eff : State → State) : Host.Outcome State Fault Refusal :=
  issueBay s (chanFault s.iss.pre s.now us ds) (fun s => eff (popAll (s.readSlots us) us))

/-- A bay with further issue-time faults, which rank after those of its channels. Its result is ready `lat` cycles after issue. -/
def bayOpF (s : State) (us : List Use) (ds : List Def) (f : Option IssueFault) (eff : State → State) (lat : Nat := 1) :
    Host.Outcome State Fault Refusal :=
  issueBay s ((chanFault s.iss.pre s.now us ds).orElse (fun _ => f)) (fun s => eff (popAll (s.readSlots us lat) us))

/-! ### Banks (R19, R21, R134) -/

/-- The address of a vector scratchpad access (R134). -/
def vecAddr (s : State) (a : Opd) (off : BitVec 7) : Nat := (rdLane0 s 3 a + word (64 * off.toNat)).toNat

/-- Word i of a vector register (R119). -/
def lane (v : VReg) (i : Nat) : Nat := (v >>> (32 * i)).toNat % 2 ^ 32

/-- The active lanes, in ascending order. -/
def lanesOf (m : LaneMask) : List Nat := (List.range 64).filter (fun i => m.getLsbD i)

/-- The addresses a gather reads, one for each active lane (R135). -/
def gatherAddrs (s : State) (h : VHdr) (a idx : Opd) : List (Nat × Nat) :=
  let base := rdLane0 s 3 a
  let iv := rdV s false 4 idx
  (lanesOf (activeMask s h)).map (fun i => (i, (base + word (lane iv i)).toNat))

/-- A list in ascending order without repeats. -/
def insertNat (x : Nat) : List Nat → List Nat
  | [] => [x]
  | y :: l => if x < y then x :: y :: l else if x = y then y :: l else y :: insertNat x l

def sortNat (l : List Nat) : List Nat := l.foldl (fun acc x => insertNat x acc) []

/-- The line of its fallback area that an access to a revoked lease uses (R107); none while the lease is live, and none for an
`SPLD` that waits until the area has been written. -/
def fallbackNeed (s : State) (lease : Nat) (idx : Opd) (load : Bool) : List (Nat × Nat) :=
  let l := NMap.get {} s.iss.pre.c.lease lease
  if !l.rev || (load && decide (s.now < l.readyFrom)) then [] else [((l.fb + 8 * (rdS s idx).toNat) / 2 ^ 14, 0)]

/-- The scratchpad lines a bay accesses, as a bank and a cycle after issue. A queue slot takes no bank
(notes/assumptions/13), and a store through a multicast window takes none of its own core (R19, R225). -/
def bankNeeds (s : State) (i : Instr) : List (Nat × Nat) :=
  let run (a n : Nat) : List (Nat × Nat) := (List.range n).map (fun k => ((a + 64 * k) / 2 ^ 14, k))
  let lines := match i with
    | .ldsp _ b o _ _ => run (rdS s b + rdS s o).toNat 1
    | .stsp _ b o _ => run (rdS s b + rdS s o).toNat 1
    | .spld _ idx l => fallbackNeed s l.toNat idx true
    | .spst _ idx l => fallbackNeed s l.toNat idx false
    | .vld _ _ a off => run (vecAddr s a off) 4
    | .vst _ _ a off => run (vecAddr s a off) 4
    | .sld _ _ a sz => run (rdS s a).toNat (if sz = 2 then 4 else 1)
    | .vgather h _ a idx =>
      let ls := sortNat ((gatherAddrs s h a idx).map (fun (p : Nat × Nat) => p.2 / 64))
      (List.range ls.length).map (fun k => (ls.getD k 0 / 2 ^ 8, k))
    | _ => []
  lines.filter (fun p => decide (p.1 < 192))

/-- The cycles in which writes that fall due in ascending cycles land at one bank, one a cycle (R225). -/
def landings (from_ : Nat) : List Nat → List Nat
  | [] => []
  | d :: ds => max d from_ :: landings (max d from_ + 1) ds

/-- The cycles in which multicast writes take a bank of a core: one that has landed in this cycle, and those under way. -/
def State.mcCycles (s : State) (core bank : Nat) : List Nat :=
  let dues := s.agenda.filterMap (fun t =>
    match t.act with
    | .ev (.evMulticastWriteLand c a _ _ _) => if c = core ∧ a / 2 ^ 14 = bank then some t.due else none
    | _ => none)
  if (s.core core).mcTaken.contains (bank, s.now) then s.now :: landings (s.now + 1) dues else landings 0 dues

/-- Whether a bank is free for a bay in a cycle: no older bay uses it and no multicast write takes it (R21, R134). -/
def State.bankFree (s : State) (core bank cyc : Nat) : Bool :=
  !(s.core core).bankUse.contains (bank, cyc) && !(s.mcCycles core bank).contains cyc

/-- Whether two bays want one bank in one cycle. -/
def shareBank (a b : List (Nat × Nat)) : Bool := a.any (fun p => b.contains p)

/-- The accesses of a bundle's bays in bay order, each with its turn: how many cycles before the issue cycle the bay is served
because a later bay wants a bank it uses (R21). -/
def bankTurns : List (List (Nat × Nat)) → List (Nat × List (Nat × Nat))
  | [] => []
  | n :: ns =>
    let r := bankTurns ns
    (((r.filter (fun x => shareBank n x.2)).map (fun x => x.1 + 1)).foldl max 0, n) :: r

def State.turnsOf (s : State) (is : List Instr) : List (Nat × List (Nat × Nat)) :=
  bankTurns ((is.map (bankNeeds s)).filter (fun l => !l.isEmpty))

/-- The turn that is to be served next: zero is the issue cycle's. -/
def State.turnNow (s : State) (core : Nat) (ts : List (Nat × List (Nat × Nat))) : Nat :=
  (ts.map Prod.fst).foldl max 0 - (s.core core).served

/-- The first cycle from one on in which a bank is not taken. -/
def openCycle (used : List (Nat × Nat)) (b : Nat) : Nat → Nat → Nat
  | 0, c => c
  | n + 1, c => if used.contains (b, c) then openCycle used b n (c + 1) else c

/-- The lines of one bay placed after those of the bays before it, each in its own cycle after issue or in the next in which its bank is
not taken by them (R21, R134). `from_` is the first cycle the next line may have. -/
def placeLines (used : List (Nat × Nat)) (from_ : Nat) : List (Nat × Nat) → List (Nat × Nat)
  | [] => []
  | p :: ps =>
    let c := openCycle used p.1 used.length (max p.2 from_)
    (p.1, c) :: placeLines used (c + 1) ps

/-- The banks a bundle uses from its issue cycle on: the lines of its bays in bay order, without the first line of a bay that was served
in an earlier turn (R21, R134, notes/assumptions/13). -/
def bundleLines (ts : List (Nat × List (Nat × Nat))) : List (Nat × Nat) :=
  ts.foldl (fun used x => used ++ placeLines used 0 (x.2.filter (fun p => x.1 == 0 || p.2 != 0))) []

/-- Whether every bank a bundle still needs is free. A bay that was served in an earlier turn has had its first line. -/
def State.banksOk (s : State) (core : Nat) (is : List Instr) : Bool :=
  let ts := s.turnsOf is
  s.turnNow core ts == 0 && (bundleLines ts).all (fun p => s.bankFree core p.1 (s.now + p.2))

/-- A bundle waits for a bank; the bays whose turn it is are served when their banks are free (R21). -/
def State.serveTurn (s : State) (core : Nat) (is : List Instr) : State :=
  let ts := s.turnsOf is
  let t := s.turnNow core ts
  let bs := ((ts.filter (fun x => x.1 == t)).flatMap Prod.snd).filterMap (fun (p : Nat × Nat) => if p.2 = 0 then some p.1 else none)
  if t ≠ 0 ∧ bs.all (fun b => s.bankFree core b s.now) then
    s.onCore core (fun c => { c with served := c.served + 1, bankUse := bs.map (fun b => (b, s.now)) ++ c.bankUse })
  else s

/-- The banks an issued bundle uses, from the issue cycle on. -/
def State.takeBanks (s : State) (core : Nat) (is : List Instr) : State :=
  let use := (bundleLines (s.turnsOf is)).map (fun p => (p.1, s.now + p.2))
  s.onCore core (fun c => { c with served := 0, bankUse := use ++ c.bankUse.filter (fun e => decide (s.now < e.2)) })

/-! ### Operand values that raise RESERVED_FIELD (R190, R326) -/

/-- The value of a completion-action operand; zero where there is none. -/
def caVal (s : State) : Option Opd → Word
  | some o => rdS s o
  | none => 0

/-- Whether an action descriptor keeps the rules of R190. -/
def caValid (ca : Word) : Bool :=
  let a := caArg ca
  (bitOf ca.toNat 58 || bits ca.toNat 56 2 == 0) &&
  match caKind ca with
  | 0 => a == 0
  | 1 => decide (a < 2 ^ 20)
  | 2 => decide (a < 2 ^ 8)
  | 3 => decide (a < 2 ^ 14) && (let n := bits a 5 9; decide (1 ≤ n) && decide (n ≤ 256))
  | _ => false

/-- Whether an operand value of a command breaks a rule that makes it RESERVED_FIELD at issue (R86, R190, R326). -/
def dataReserved (s : State) (i : Instr) : Bool :=
  match i with
  | .tdep _ idx => decide (2 ^ 20 ≤ (rdS s idx).toNat)
  | _ => !caValid (caVal s (caOpd i))

end Sys2Proof.Machine
end

