-- ==== Sys2Proof/Machine/Issue.lean ====
section
/-!
DEFINITION. Fetch and issue: the instruction buffer (R61, R314), the landing of a transfer (R63), the checks and the
order of one bundle (R80 to R86), and what follows it (R16, R62).
-/

namespace Sys2Proof.Machine

/-! ### Fetch (R61, R314) -/

/-- Whether the instruction buffer may hold a block: the first 64 KiB of the code section (R314). -/
def Core.mayHold (c : Core) (b : Nat) : Bool :=
  decide (c.code / 64 ≤ b) && decide (b < (c.code + min c.codeLen 65536 + 63) / 64)

/-- The longest a fetched block, a page walk or an operation's start is taken to need, where the spec states no bound. -/
def walkBound : Nat := 512

/-- A block is asked for once. -/
def State.askBlock (s : State) (core b : Nat) : State :=
  if (s.core core).fetching.contains b then s
  else (s.onCore core (fun c => { c with fetching := b :: c.fetching })).postFree walkBound (.evFetchBlockArrive core b)

/-- How many blocks the sequencer reads ahead of the one a bundle needs (notes/assumptions/130). -/
def readAhead : Nat := 32

/-- A block that the buffer may hold is asked for before it is needed. -/
def State.askAhead (s : State) (core b : Nat) : State :=
  if (s.core core).mayHold b && ((s.core core).block b).isNone then s.askBlock core b else s

/-- Blocks from one on are asked for before they are needed. -/
def State.askFrom (s : State) (core b : Nat) : State := (List.range readAhead).foldl (fun s i => s.askAhead core (b + i)) s

/-- The block a bundle needs is asked for, and those after it. -/
def State.askNeeded (s : State) (core b : Nat) : State := (s.askBlock core b).askFrom core (b + 1)

/-- The bytes of the bundle at an address, or the block that is missing. -/
def Core.bundleBytes (c : Core) (pc : Nat) : Except Nat (List Byte) :=
  match c.block (pc / 64) with
  | none => .error (pc / 64)
  | some b0 =>
    let bs := b0.drop (pc % 64)
    let n := bundleLen (BitVec.ofNat 16 (ofBytes (bs.take 2)))
    if n ≤ bs.length then .ok (bs.take n)
    else
      match c.block (pc / 64 + 1) with
      | none => .error (pc / 64 + 1)
      | some b1 => .ok ((bs ++ b1).take n)

/-- Whether the next bundle of a core waits for a block. -/
def Core.needs (c : Core) (b : Nat) : Bool :=
  c.t.mode == .running && (match c.bundleBytes c.t.pc with
    | .error b' => b' == b
    | .ok _ => false)

/-- A block arrives: it is translated and read as it stands now, and held where the buffer may hold it. A fetch waits for
the stores an `ISYNC` makes it wait for (R105); a fault is raised against the bundle that needs the block (R61), and a block that was read
ahead and meets one is asked for again when it is needed. -/
def State.blockArrive (s : State) (core b : Nat) : State :=
  let c := s.core core
  if !c.fetching.contains b then s
  else if c.t.port.any (fun r => c.t.fetchWait.contains r.id) then s.postEv (s.now + 1) (.evFetchBlockArrive core b)
  else
    let ctx := s.ctxOf core
    let s := s.onCore core (fun c => { c with fetching := c.fetching.filter (· != b) })
    let ask : Ask := { acc := 3 }
    let fail (s : State) (f : TFault) : State := if c.needs b then s.takeFetch core f else s
    let got (e : TlbEnt) (s : State) : State :=
      match checkLeaf s (dieOf core) e (64 * b) ask with
      | .error f => fail s f
      | .ok x =>
        let s := s.scrubRun x.tgt 64
        if s.homeBad x.tgt 64 then fail s { code := Code.memUncorrectable, va := 64 * b, acc := 3 }
        else
          let bs := s.homeBytes ctx x.tgt 64
          let s := s.onCore core (fun c =>
            if c.mayHold b then { c with held := NMap.set c.held b bs } else { c with fetched := NMap.set c.fetched b bs })
          (if c.needs b then s.post s.now (.issue core (s.core core).gen) else s).askAhead core (b + readAhead)
    if 2 ^ 57 ≤ 64 * b then fail s { code := Code.pagePermission, va := 64 * b % 2 ^ 57, acc := 3 }
    else
      match State.tlbLookup c.tlb ctx (64 * b) with
      | some e => got e s
      | none =>
        match s.fetchXl core (64 * b) 3 with
        | (.error f, s) => fail s f
        | (.ok e, s) => got e s

/-! ### What the bays of a bundle do -/

/-- The meanings of a bundle's bays, one after another. -/
def runBays (ex : Instr → State → Host.Outcome State Fault Refusal) : List Instr → State → Host.Outcome State Fault Refusal
  | [], s => .next s
  | i :: is, s =>
    match ex i s with
    | .next s' => runBays ex is s'
    | .fault r => .fault r
    | .refused r => .refused r

/-- The first bay that raises a fault in the issue cycle, taken in bay order (R86), or one without a meaning. -/
def firstTrap (ex : Instr → State → Host.Outcome State Fault Refusal) (s : State) : List Instr → Option (Host.Outcome State Fault Refusal)
  | [] => none
  | i :: is =>
    match ex i s with
    | .next s' => if s'.iss.trapped then some (.next s') else firstTrap ex s is
    | o => some o

/-- Whether an instruction belongs to the BR bay, whose effect comes last (R84). -/
def isBr : Instr → Bool
  | .nop | .jmp _ | .jmpi _ | .brz _ _ | .brnz _ _ | .call _ _ | .ret _ | .loop _ _ | .waitc _ _ _ | .sigc _ _ _ _ | .tend
  | .trap _ _ | .brk _ => true
  | _ => false

/-- The bays in the order of their effects: BR last (R82, R84). -/
def effectOrder (is : List Instr) : List Instr := is.filter (fun i => !isBr i) ++ is.filter isBr

/-- Faults that strike after the other bays have completed (R86): the first is taken, and the replay buffer keeps every
unfinished bay (R339). The tries of its bundle under RETRY count on (R342). -/
def State.strikeLate (s : State) (core : Nat) (iss : Issue) (npc tries : Nat) : State :=
  match iss.unfin with
  | [] => s
  | (u, code, detail, word5) :: _ =>
    let items := iss.unfin.map (fun e => e.1)
    let open_ := items.foldl (fun acc u => acc + 2 ^ u.bay) 0
    s.takeLate core { bundle := iss.bundle, npc := npc, bays := iss.mask, done := iss.mask - open_, items := items, tries := tries } u code detail word5

/-- The bundle has issued: issue goes on after it (R16, R62), or waits for a walk (R98), or its late fault is taken. -/
def State.commit (s : State) (core : Nat) : State :=
  let iss := s.iss
  let idle := iss.idle
  let tries := (s.core core).t.tries
  let (npc, due, jump) := match iss.transfer with
    | some t => (t, s.now + 2 + idle, some (iss.bundle, iss.npc, iss.mask))
    | none => (iss.npc, s.now + 1 + idle, none)
  let s := s.onCore core (fun c => { c with
    fetched := c.fetched.filter (fun e => iss.transfer.isNone && (e.1 == npc / 64 || e.1 == npc / 64 + 1)),
    t := { c.t with jump := jump, last := (iss.bundle, iss.mask), lastClear := s.now, tries := if iss.transfer.isSome then tries else 0, fetchTries := 0, pc := npc,
                    replay := none } })
  let s := { s with iss := {} }
  if !iss.unfin.isEmpty then s.strikeLate core iss npc tries
  else if (s.core core).t.walk.isSome then
    s.onTask core (fun t => { t with
      notBefore := due,
      replay := some { bundle := iss.bundle, npc := npc, bays := iss.mask,
                       done := iss.mask - ((t.walk.map (fun u => 2 ^ u.bay)).getD 0), items := t.walk.toList, tries := tries } })
  else s.issueAt core npc due

/-- The bays of a bundle that has met no stall, run in the order of R86: faults first, then effects. -/
def State.issueBays (s : State) (ex : Instr → State → Host.Outcome State Fault Refusal) (core : Nat) (is : List Instr) :
    Host.Outcome State Fault Refusal :=
  let is := if is.isEmpty then [.headerOnlyBundle] else is
  match firstTrap ex s is with
  | some (.next s') => .next { s' with iss := {} }
  | some o => o
  | none =>
    match runBays ex (effectOrder is) s with
    | .next s' => .next ((s'.takeBanks core is).commit core)
    | o => o

/-- The bytes of the bundle at the program counter are there. Its faults, the decode faults of R79 among them, are evaluated in
the cycle in which no stall condition holds (R16, R17), in the order of R86: ILLEGAL_BUNDLE, RESERVED_FIELD, BAY_CONFLICT, then
those of its bays. -/
def State.issueBytes (s : State) (ex : Instr → State → Host.Outcome State Fault Refusal) (core : Nat) (bs : List Byte) :
    Host.Outcome State Fault Refusal :=
  let c := s.core core
  let pc := c.t.pc
  let hdr := ofBytes (bs.take 2)
  let iss : Issue := { pre := c, bundle := pc, npc := pc + bundleLen (BitVec.ofNat 16 hdr), mask := bits hdr 0 7,
                       idle := bits hdr 8 4, mem := s.mem }
  let s1 := { s with cur := core, iss := iss }
  let clean (s : State) : Host.Outcome State Fault Refusal := .next { s with iss := {} }
  let is := bundleBays bs
  if s1.stalled core is then .next (s.post (s.now + 1) (.issue core c.gen))
  else if !s1.banksOk core is then
    .next { (s1.serveTurn core is).post (s.now + 1) (.issue core c.gen) with iss := {}, cur := s.cur }
  else
    match decodeBundle bs with
    | .error .illegalBundle => clean (s1.takeFault Code.illegalBundle 0 0)
    | .error _ =>
      clean (s1.takeFault (if portsOk is && popsOk is then Code.reservedField else Code.illegalBundle) 0 0)
    | .ok b =>
      if !(portsOk b.bays && popsOk b.bays) then clean (s1.takeFault Code.illegalBundle 0 0)
      else if b.bays.any (dataReserved s1) then clean (s1.takeFault Code.reservedField 0 0)
      else if !writesOk b.bays then clean (s1.takeFault Code.bayConflict 0 0)
      else s1.issueBays ex core b.bays

/-- The fault of a transfer whose target is not a marked, aligned bundle (R63, R109). -/
def State.badTarget (s : State) (core : Nat) (j : Nat × Nat × Nat) (target : Nat) : State :=
  let t := (s.core core).t
  let fresh : Replay := { bundle := j.1, npc := j.2.1, bays := j.2.2, done := j.2.2 - j.2.2 % 2,
                          items := [{ bay := 0, target := some target }], tries := t.tries }
  let rp := match t.replay with
    | some r => if r.bundle = j.1 then { r with npc := j.2.1 } else fresh
    | none => fresh
  s.takeLate core rp { bay := 0, target := some target } Code.targetUnmarked target 0

/-- A core's next bundle is due. -/
def State.issueAct (s : State) (ex : Instr → State → Host.Outcome State Fault Refusal) (core gen : Nat) :
    Host.Outcome State Fault Refusal :=
  let c := s.core core
  if c.gen ≠ gen ∨ c.t.mode ≠ .running ∨ c.t.walk.isSome ∨ s.now < c.t.notBefore then .next s
  else
    match c.t.late.find? (fun e => decide (e.1 ≤ s.now)) with
    | some e =>
      let s := (s.onTask core (fun t => { t with late := t.late.erase e })).takeUnissued core e.2.1 e.2.2.1 e.2.2.2
      .next (if (s.core core).gen = gen then s.post s.now (.issue core gen) else s)
    | none =>
      let pc := c.t.pc
      match c.t.jump with
      | some j =>
        if pc % 16 ≠ 0 ∨ 2 ^ 57 ≤ pc then .next (s.badTarget core j pc)
        else
          match c.block (pc / 64) with
          | none => .next (s.askNeeded core (pc / 64))
          | some b0 =>
            if bitOf (ofBytes ((b0.drop (pc % 64)).take 2)) 7 then
              match c.bundleBytes pc with
              | .error b => .next (s.askNeeded core b)
              | .ok bs => (s.onTask core (fun t => { t with jump := none, tries := 0 })).issueBytes ex core bs
            else .next (s.badTarget core j pc)
      | none =>
        match c.bundleBytes pc with
        | .error b => .next (s.askNeeded core b)
        | .ok bs => s.issueBytes ex core bs

end Sys2Proof.Machine
end

