-- ==== Sys2Proof/Machine/Control.lean ====
section
/-!
DEFINITION. The BR bay (R108 to R115): transfers, calls and loops, semaphore wait and signal, the end of a task, software
traps and breakpoints; and the events of fetch and of a landing increment.
-/

namespace Sys2Proof.Machine

/-- The address a label offset names (R57): 16-byte units from this bundle's address with its low four bits cleared. -/
def labelTarget (bundle : Nat) (t : BitVec 17) : Nat := (((bundle / 16 * 16 : Nat) + 16 * t.toInt : Int) % 2 ^ 57).toNat

/-- The bundle transfers control (R62). The target is checked where it lands (R63). -/
def State.transferTo (s : State) (target : Nat) : State := { s with iss := { s.iss with transfer := some target } }

/-- The return address of `CALL` (R109). -/
def returnAddr (npc : Nat) : Word := word ((npc + 15) / 16 * 16)

/-- Whether `dbg.BE` is set on a core (R115, R116, R352). -/
def State.breakOn (s : State) (core : Nat) : Bool :=
  let c := s.context (s.ctxOf core)
  bitOf (if c.dbgFrom ≤ s.now then c.dbgen else c.dbgPrev) (inDie core)

/-- Where a signal of the bundle comes from (R231). -/
def State.bundleSrc (s : State) : SigSrc :=
  { bundle := BitVec.ofNat 57 s.iss.bundle, coord := coordWord s.cur, grp := s.here.t.grp % 2 ^ 32, task := s.here.t.idx, opid := 0 }

/-- `NOP` (R108). -/
def execNop (s : State) : Host.Outcome State Fault Refusal := .next s

/-- `JMP` (R109). -/
def execJmp (t : BitVec 17) (s : State) : Host.Outcome State Fault Refusal :=
  .next (s.transferTo (labelTarget s.iss.bundle t))

/-- `JMPI` (R109): a value with a bit above bit 56 is a bad target. -/
def execJmpi (a : Opd) (s : State) : Host.Outcome State Fault Refusal :=
  bayOp s [.s a] [] (fun t => t.transferTo (rdS s a).toNat)

/-- `BRZ` (R109). -/
def execBrz (a : Opd) (t : BitVec 17) (s : State) : Host.Outcome State Fault Refusal :=
  bayOp s [.s a] [] (fun u => if rdS s a = 0 then u.transferTo (labelTarget s.iss.bundle t) else u)

/-- `BRNZ` (R109). -/
def execBrnz (a : Opd) (t : BitVec 17) (s : State) : Host.Outcome State Fault Refusal :=
  bayOp s [.s a] [] (fun u => if rdS s a ≠ 0 then u.transferTo (labelTarget s.iss.bundle t) else u)

/-- `CALL` (R109). -/
def execCall (d : Opd) (t : BitVec 17) (s : State) : Host.Outcome State Fault Refusal :=
  .next ((wrBr s d (returnAddr s.iss.npc)).transferTo (labelTarget s.iss.bundle t))

/-- `RET` (R109). -/
def execRet (a : Opd) (s : State) : Host.Outcome State Fault Refusal :=
  bayOp s [.s a] [] (fun t => t.transferTo (rdS s a).toNat)

/-- `LOOP` (R110). -/
def execLoop (d : Opd) (t : BitVec 17) (s : State) : Host.Outcome State Fault Refusal :=
  let v := rdS s d
  .next (if 1 < v.toNat then (wrBr s d (v - 1)).transferTo (labelTarget s.iss.bundle t) else wrBr s d 0)

/-- `WAITC` (R112): the bundle has waited for the condition (R17); with the consume bit the threshold is subtracted. -/
def execWaitc (c : BitVec 8) (consume : Bool) (t : BitVec 12) (s : State) : Host.Outcome State Fault Refusal :=
  .next (if consume then s.semTake s.cur c.toNat t.toNat else s)

/-- `SIGC` (R113): the own semaphore at once, another core's 8 cycles after issue. -/
def execSigc (c : BitVec 8) (remote : Bool) (n : BitVec 4) (i : BitVec 8) (s : State) : Host.Outcome State Fault Refusal :=
  .next (if remote then s.postEv (s.now + 8) (.evSemaphoreIncrementLand (coreOfYard s.cur n.toNat) c.toNat i.toNat s.bundleSrc)
         else s.semAdd s.cur c.toNat i.toNat s.bundleSrc)

/-- `TEND` (R111): issue ends, and the task retires when the bundle's other bays are complete. -/
def execTend (s : State) : Host.Outcome State Fault Refusal := .next (s.onTask s.cur (fun t => { t with after := 1 }))

/-- `TRAP` (R114): a software record; the task goes on, and no policy is consulted. -/
def execTrap (a : Opd) (code : BitVec 16) (s : State) : Host.Outcome State Fault Refusal :=
  bayOp s [.s a] [] (fun t => t.postInfo (t.ctxOf t.cur)
    { t.recBase t.cur with kind := 2, bundle := s.iss.bundle, bays := s.iss.mask, done := s.iss.mask,
                           detail := (rdS s a).toNat, opid := code.toNat })

/-- `BRK` (R115): with `dbg.BE` set the task waits on its core after the bundle. -/
def execBrk (code : BitVec 16) (s : State) : Host.Outcome State Fault Refusal :=
  .next (if s.breakOn s.cur then s.onTask s.cur (fun t => { t with after := 2, brk := some (s.now, code.toNat) }) else s)

/-- A header-only bundle issues as one empty cycle and its IDLE cycles (R60). -/
def execHeaderOnlyBundle (s : State) : Host.Outcome State Fault Refusal := .next s

/-- A 64-byte code block arrives (R61, R314). -/
def execEvFetchBlockArrive (core blk : Nat) (s : State) : Host.Outcome State Fault Refusal := .next (s.blockArrive core blk)

/-- A semaphore increment lands (R113, R231). -/
def execEvSemaphoreIncrementLand (core sem inc : Nat) (src : SigSrc) (s : State) : Host.Outcome State Fault Refusal :=
  .next (s.semAdd core (sem % 256) inc src)

end Sys2Proof.Machine
end

