-- ==== Sys2Proof/Machine/Escapement.lean ====
section
/-!
DEFINITION. The Escapement (R284 to R292): who takes a slot, what a slotted request costs, what unslotted traffic an
unclaimed slot serves, refresh, the heartbeat and the power states.
-/

namespace Sys2Proof.Machine

/-- L of R287. -/
def latency : PcMode → Nat
  | .active => 384
  | .shared => 504
  | .powerDown => 408
  | .selfRefresh => 1024

/-- The wait at a bank that L allows (R288). -/
def allowance : PcMode → Nat
  | .shared => 180
  | _ => 60

/-- A slot event at the next slot start after a cycle, for unslotted traffic (R286). -/
def State.wakeSlots (s : State) (die p : Nat) : State :=
  if (s.pchan die p).unslot.isEmpty then s
  else
    let due := (s.now + 1 + 3) / 4 * 4
    let ev := Instr.evEscapementSlot die p (slotOwner p due)
    if s.isDue (· == .ev ev) then s else s.postEv due ev

/-- The event by which an operation goes on with its line. -/
def Op.lineEv (o : Op) (k : Nat) : Instr :=
  match o.cmd.ins with
  | .subs _ _ _ _ => .evGroomTileFill k
  | .bqpost _ _ _ _ => .evOpComplete k
  | .callred _ _ _ _ | .cred _ _ _ _ | .cbc _ _ _ _ | .cag _ _ _ _ | .crsc _ _ _ _ => .evCollectiveJoin k
  | _ => .evCopyLine k

/-- An unslotted request joins a pseudo-channel (R286). -/
def State.joinUnslot (s : State) (die : Nat) (u : Unslot) : State :=
  let p := (placeOf (s.npc die) u.pa).p
  ((s.touchPc die p).onPc die p (fun c => { c with unslot := c.unslot ++ [u] })).wakeSlots die p

/-- A line of an operation joins a pseudo-channel. -/
def State.addUnslot (s : State) (die pa prio op : Nat) : State :=
  s.joinUnslot die { prio := prio, arrived := s.now, pa := pa, op := some op }

/-- Whether unslotted traffic is a scrub write. -/
def Unslot.isScrub (a : Unslot) : Bool := a.op.isNone && a.land.isNone

/-- The order of unslotted traffic: scrub writes last, then priority, then arrival (R286). -/
def Unslot.ahead (a b : Unslot) : Bool :=
  match a.isScrub, b.isScrub with
  | false, true => true
  | true, false => false
  | _, _ => decide (b.prio < a.prio)

/-- The first unslotted request in that order whose bank is free. -/
def pickUnslot (npc : Nat) (c : PChan) (now : Nat) : Option Unslot :=
  (c.unslot.filter (fun u => decide (NMap.get 0 c.bankFree (placeOf npc u.pa).bank ≤ now))).foldl
    (fun best u => match best with
      | none => some u
      | some b => if u.ahead b then some u else some b) none

/-- The first occurrence of an entry removed. -/
def dropFirst (u : Unslot) : List Unslot → List Unslot
  | [] => []
  | v :: l => if v = u then l else v :: dropFirst u l

/-- A bank is held from a cycle on, behind the claims already there (R288). -/
def PChan.claim (c : PChan) (bank now n : Nat) : PChan :=
  { c with bankFree := NMap.set c.bankFree bank (max now (NMap.get 0 c.bankFree bank) + n) }

/-- A bank that has been used is refreshed once in each interval of 3.9 µs from then on, in a phase that is free (R291). -/
def State.keepRefresh (s : State) (die p bank : Nat) : State :=
  let ev := Instr.evPerBankRefresh die p bank
  if s.isDue (· == .ev ev) then s else (s.postEv ((s.now / 8775 + 1) * 8775 + s.delay 8775 - 1) ev).spend

/-- Whether what an operation has asked for is to be written. -/
def Op.asksWrite (o : Op) : Bool := o.reqs.head? == some (5, 0)

/-- An unclaimed slot serves unslotted traffic (R286). A line that an operation reads is there L cycles later, and so are the bytes of a
bank unit; one that it writes is written as its bank serves it (R306); a scrub write makes its word correct. -/
def State.serveUnslot (s : State) (die p : Nat) : State :=
  let npc := s.npc die
  match pickUnslot npc (s.pchan die p) s.now with
  | none => s
  | some u =>
    let bank := (placeOf npc u.pa).bank
    let s := (s.onPc die p (fun c => { c.claim bank s.now 40 with unslot := dropFirst u c.unslot, idleFrom := s.now, pdFrom := 0 })).keepRefresh
      die p bank
    match u.op, u.land with
    | none, some (core, x, bs, src) => s.post (s.now + latency (s.pchan die p).mode) (.land core x bs src)
    | none, none => if s.eccOf die u.pa = .correctable then s.setEcc die u.pa .correct else s
    | some k, _ =>
      let s := s.onOp k (fun o => { o with need := o.need - 1 })
      if (s.op k).need = 0 then
        s.postEv (if (s.op k).asksWrite then s.now else s.now + latency (s.pchan die p).mode) ((s.op k).lineEv k)
      else s

/-- The owner of a slot takes it for its oldest request, if the bank admits that (R285, R288). -/
def State.takeSlot (s : State) (die p owner : Nat) : State :=
  let core := 64 * die + owner
  let c := s.pchan die p
  match NMap.get [] c.queues owner with
  | [] => s.serveUnslot die p
  | id :: rest =>
    match (s.core core).t.req? id with
    | none => s.onPc die p (fun c => { c with queues := NMap.put [] c.queues owner rest })
    | some r =>
      let pa := match r.tgt with
        | .loc _ pa => pa
        | _ => 0
      let bank := (placeOf (s.npc die) pa).bank
      let wait := NMap.get 0 c.bankFree bank - s.now
      if allowance c.mode < wait then s.serveUnslot die p
      else
        let l := latency c.mode
        let s := (s.onPc die p (fun c =>
          { c.claim bank s.now 40 with queues := NMap.put [] c.queues owner rest, idleFrom := s.now, pdFrom := 0 })).keepRefresh die p bank
        let s := s.onTask core (fun t => t.onReq id (fun r => { r with stage := .slotted, slot := s.now, lat := l }))
        match r.kind with
        | .load => (s.post (s.now + l - 192) (.sample core id)).postEv (s.now + l) (.evLoadDataArrive core id)
        | .amo => (s.postEv (s.now + l - 64) (.evWritePerformed core id)).postEv (s.now + l) (.evLoadDataArrive core id)
        | _ => s.postEv (s.now + l - 64) (.evWritePerformed core id)

/-- A slot begins (R284 to R286). -/
def State.slotStart (s : State) (die p owner : Nat) : State :=
  let s := s.fixMode die p
  let s := s.takeSlot die p owner
  let s := s.wakeSlots die p
  if (NMap.get [] (s.pchan die p).queues owner).isEmpty then s
  else
    let ev := Instr.evEscapementSlot die p owner
    if s.isDue (· == .ev ev) then s else s.postEv (nextSlot owner p (s.now + 1)) ev

/-- What is known of every pseudo-channel's low-power state is recorded, before what decides it changes (R290 to R292). -/
def State.recordModes (s : State) (die : Nat) : State :=
  (List.range (s.npc die)).foldl (fun s p =>
    let d := s.die die
    let c := d.pc p
    let r := (s.now - 1) / 256
    let m := c.modeAt d p (s.pcShared die p) (r * 256)
    let mode := if c.rot = r then c.mode else m.1
    s.onPc die p (fun c => { c with mode := mode, pdFrom := if mode == .active || mode == .shared then 0 else m.2, rot := r,
                                    before := c.modeBefore d p r })) s

/-- A pending write of MCTL takes effect at its rotation boundary (R292). -/
def State.applyMctl (s : State) (die : Nat) : State :=
  match (s.die die).mctlNext with
  | some (at_, v) =>
    if s.now < at_ then s
    else
      (s.recordModes die).onDie die (fun d =>
        { d with pdidle := bits v.toNat 0 16, sridle := bits v.toNat 16 32, mctlAt := s.now, mctlNext := none })
  | none => s

/-- A rotation boundary (R289, R290): a pending write of MCTL takes effect (R292), and the mode of the rotation is fixed. -/
def State.rotationStart (s : State) (die p : Nat) : State := (s.applyMctl die).fixMode die p

/-- A heartbeat of a stack management core is due every microsecond, and is missed where none comes (R291). -/
def heartbeatGap : Nat := 2250

/-- The stack management core's first heartbeat after a reset takes refresh back; any other heartbeat restarts the count
of missed ones (R291). The next one is due 1 µs later: two in a row that are missed let the fallback engine take over. -/
def State.heartbeat (s : State) (die stack : Nat) : State :=
  let back := NMap.get false (s.die die).fb stack && NMap.get false (s.die die).smcReset stack
  let s := (if back then s.recordModes die else s).onDie die (fun d =>
    { d with fb := if back then NMap.put false d.fb stack false else d.fb,
             smcReset := if back then NMap.put false d.smcReset stack false else d.smcReset,
             hbAt := NMap.set d.hbAt stack s.now, hbRow := NMap.put 0 d.hbRow stack 0 })
  let next := Instr.evStackHeartbeat die stack
  let s := if s.isDue (· == .ev next) then s else s.postEv (s.now + heartbeatGap) next
  let ev := Instr.evFallbackRefreshTakeover die stack
  if s.isDue (· == .ev ev) then s else s.postEv (s.now + heartbeatGap) ev

/-- The stack management core of a stack runs: its first heartbeat is due, and counts as missed where it does not come (R291). -/
def State.startHeartbeat (s : State) (die stack : Nat) : State :=
  ((s.onDie die (fun d => { d with hbAt := NMap.set d.hbAt stack s.now })).postEv (s.now + heartbeatGap) (.evStackHeartbeat die stack)).postEv
    (s.now + heartbeatGap) (.evFallbackRefreshTakeover die stack)

/-- A heartbeat's time has come (R291, R292): a missed one is counted, and the second in a row hands refresh to the fallback
engine, which is told to the crown controller. -/
def State.heartbeatDue (s : State) (die stack : Nat) : State :=
  let d := s.die die
  let last := NMap.get 0 d.hbAt stack
  let ev := Instr.evFallbackRefreshTakeover die stack
  if s.now < last + heartbeatGap then s.postEv (last + heartbeatGap) ev
  else
    let row := NMap.get 0 d.hbRow stack + 1
    let s := (s.onDie die (fun d => { d with hbRow := NMap.set d.hbRow stack row, hbmiss := min (d.hbmiss + 1) 255 })).postEv
      (s.now + heartbeatGap) ev
    if row < 2 ∨ NMap.get false d.fb stack then s
    else ((s.recordModes die).onDie die (fun d => { d with fb := NMap.set d.fb stack true })).report 2 (2 * die + stack)

/-- `ESCAPEMENT_SLOT` (R285, R286, R288). -/
def execEvEscapementSlot (die p owner : Nat) (s : State) : Host.Outcome State Fault Refusal := .next (s.slotStart die p owner)

/-- `ROTATION_BOUNDARY` (R289, R290, R292). -/
def execEvRotationBoundary (die p : Nat) (s : State) : Host.Outcome State Fault Refusal := .next (s.rotationStart die p)

/-- `PER_BANK_REFRESH` (R288, R291): the bank is held for 60 cycles; its phase is not fixed. -/
def execEvPerBankRefresh (die p bank : Nat) (s : State) : Host.Outcome State Fault Refusal :=
  .next ((s.onPc die p (fun c => c.claim bank s.now 60)).keepRefresh die p bank)

/-- `STACK_HEARTBEAT` (R291). -/
def execEvStackHeartbeat (die stack : Nat) (s : State) : Host.Outcome State Fault Refusal := .next (s.heartbeat die stack)

/-- `FALLBACK_REFRESH_TAKEOVER` (R291). -/
def execEvFallbackRefreshTakeover (die stack : Nat) (s : State) : Host.Outcome State Fault Refusal :=
  .next (s.heartbeatDue die stack)

/-- A write of MCTL takes effect at the next rotation boundary (R292), an earlier one at its own. -/
def State.writeMctl (s : State) (die : Nat) (v : Word) : State :=
  ((s.applyMctl die).onDie die (fun d => { d with mctlNext := some (boundary (s.now + 1), v) })).postEv (boundary (s.now + 1))
    (.evRotationBoundary die 0)

/-- `MCTL_WRITE` (R292). -/
def execEvMctlWrite (die : Nat) (v : Word) (s : State) : Host.Outcome State Fault Refusal := .next (s.writeMctl die v)

end Sys2Proof.Machine
end

