-- ==== Sys2Proof/Machine/Mem.lean ====
section
/-!
DEFINITION. The memory instructions of the SB bay (R96 to R107), the system registers (R116 to R118), and the life of an
access: its walk (R98), its slot, its reading and writing at its home (R250, R287), and the arrival of its data (R99, R100).
-/

namespace Sys2Proof.Machine

/-! ### Multicast (R224, R225) -/

/-- The window entry a multicast address names (R224). -/
def State.window (s : State) (core a : Nat) : Nat := (NMap.get (0 : Word) (s.die (dieOf core)).win (16 * yardOf core + a / 2 ^ 16 % 16)).toNat

/-- The cores a window reaches. -/
def windowCores (core e : Nat) : List Nat := ((List.range 16).filter (fun n => bitOf e (22 + n))).map (coreOfYard core)

/-- What wrote a multicast store: its core's number within the yard, and above it the task, group and bundle (R386). -/
def mcSource (core task grp bundle : Nat) : Nat := yardCore core + 16 * (task % 2 ^ 20 + 2 ^ 20 * (grp % 2 ^ 32 + 2 ^ 32 * bundle))

/-- The record fields of a multicast store that lands at a core of the same yard. -/
def mcInfo (core src : Nat) : RecInfo :=
  { coord := coordWord (coreOfYard core (src % 16)), task := bits src 4 20, grp := bits src 24 32, bundle := src / 2 ^ 56 }

/-- Bytes stored at a multicast address: they land in every core of the window's MASK, from a cycle on (R225). -/
def State.multicast (s : State) (core a due : Nat) (bs : List (Option Byte)) : State :=
  let e := s.window core a
  let t := (s.core core).t
  (windowCores core e).foldl (fun s c =>
    s.postEv due (.evMulticastWriteLand c (bits e 0 22 + a % 2 ^ 16) (mcSource core t.idx t.grp s.iss.bundle) due bs)) s

/-- A multicast write lands, or waits for its bank: the write that fell due earliest first, then the one of the lowest
issuing core (R225). -/
def State.multicastLand (s : State) (core a src fell : Nat) (bs : List (Option Byte)) : State :=
  let bank := a / 2 ^ 14
  let taken := (s.core core).mcTaken.contains (bank, s.now)
  let earlier := s.agenda.any (fun t => t.due == s.now && match t.act with
    | .ev (.evMulticastWriteLand c a' src' fell' _) =>
      c == core && a' / 2 ^ 14 == bank && (decide (fell' < fell) || (fell' == fell && decide (src' % 16 < src % 16)))
    | _ => false)
  let again (due : Nat) : State := s.postEv due (.evMulticastWriteLand core a src fell bs)
  if taken then again (s.now + 1)
  else if earlier then again s.now
  else
    (s.onCore core (fun c => { c with mcTaken := (bank, s.now) :: c.mcTaken.filter (fun e => e.2 == s.now) })).agentWrite core a bs (mcInfo core src)

/-! ### Scratchpad (R97, R101) -/

/-- The issue-time faults of `LDSP` and `STSP` (R101, R225): ALIGN, SHAPE_BOUNDS, BUFFER_STATE. -/
def padFault (s : State) (a n : Nat) (write : Bool) : Option IssueFault :=
  firstFault [
    require (a % n == 0) Code.align 0 (a % 2 ^ 57),
    require (decide (a < 0x300000) || (write && decide (a < 0x400000) && bitOf (s.window s.cur a) 63)) Code.shapeBounds 0 (a % 2 ^ 57),
    require (s.bufOk s.cur a n (!write) write) Code.bufferState 0 (a % 2 ^ 57)]

/-- A loaded value, extended (R97). -/
def extend (sx : Bool) (n : Nat) (v : Nat) : Word :=
  if sx && bitOf v (8 * n - 1) then word (v + (2 ^ 64 - 2 ^ (8 * n))) else word v

/-- `LDSP` (R97, R101). -/
def execLdsp (d base off : Opd) (wid : BitVec 2) (sx : Bool) (s : State) : Host.Outcome State Fault Refusal :=
  let n := 2 ^ wid.toNat
  let a := (rdS s base + rdS s off).toNat
  bayOpF s [.s base, .s off] [.s d] (padFault s a n false) (fun t =>
    (wrS t .sb d (extend sx n (ofBytes (s.iss.mem.readN (Addr.pad s.cur a) n))) 3).bayRead a n (s.now + 3)) 3

/-- A scalar store of a bay into the own scratchpad: other agents see it later (R148). -/
def State.storePad (s : State) (a : Nat) (bs : List Byte) : State :=
  (s.noteStore s.cur s.now false a (bs.map some)).padPut s.cur a bs { s.recBase s.cur with bundle := s.iss.bundle }

/-- `STSP` (R97, R101, R225). -/
def execStsp (v base off : Opd) (wid : BitVec 2) (s : State) : Host.Outcome State Fault Refusal :=
  let n := 2 ^ wid.toNat
  let a := (rdS s base + rdS s off).toNat
  let bs := toBytes n (rdS s v).toNat
  bayOpF s [.s v, .s base, .s off] [] (padFault s a n true) (fun t =>
    if a < 0x300000 then t.storePad a bs
    else t.multicast t.cur a (t.now + 6) (bs.map some))

/-! ### The way of an access to memory -/

/-- The translation an access asks for (R269, R97, R103, R255). -/
def MemReq.ask (r : MemReq) : Ask :=
  { acc := match r.kind with
      | .store => 1
      | .amo => 2
      | _ => 0,
    ordered := r.acq || r.rel, amoBad := r.kind == .amo && !(r.amo == 0 || r.amo == 8 || r.amo == 9) }

/-- A translated access, ready for the port, with the page whose translation it used (R273). -/
def MemReq.at (r : MemReq) (e : TlbEnt) (x : Xl) : MemReq :=
  { r with tgt := x.tgt, peer := x.peer, pageKind := x.kind, page := (e.base, e.log, bits e.leaf.toNat 38 10) }

/-- An access leaves its bay (R98): a hit in the first-level TLB resolves now, with its fault, if any, after the other bays;
a miss waits for the walk. -/
def State.issueReq (s : State) (core bay : Nat) (r : MemReq) : State :=
  let c := s.core core
  match State.tlbLookup c.tlb (s.ctxOf core) r.va with
  | some e =>
    match checkLeaf s (dieOf core) e r.va r.ask with
    | .ok x => s.addReq core (r.at e x)
    | .error f => { s with iss := { s.iss with unfin := s.iss.unfin ++ [({ bay := bay, req := r }, f.code, 0, f.word5)] } }
  | none => (s.onTask core (fun t => { t with walk := some { bay := bay, req := r } })).postFree walkBound (.evPageWalkReturn core)

/-- The issue-time faults of an access to memory (R97, R103): ALIGN, then PAGE_PERMISSION. -/
def memFault (a n acc : Nat) : Option IssueFault :=
  firstFault [
    require (a % n == 0) Code.align 0 (a % 2 ^ 57),
    require (decide (a < 2 ^ 57)) Code.pagePermission 0 (a % 2 ^ 57 + acc * 2 ^ 57)]

/-- The destination of a load waits for its data, and so does `yb` (R13, R18); a channel reserves its slot (R167). -/
def State.awaitDest (s : State) (core id : Nat) (d : Opd) : Dest × State :=
  let s := s.onTask core (fun t => t.setWait RegKey.yb id)
  match d with
  | .app q =>
    let (c, s) := s.reserveSlot core q.toNat
    (.slot q.toNat c, s)
  | _ =>
    match sKey d with
    | some k => (.reg k, s.onTask core (fun t => t.setWait k id))
    | none => (.nowhere, s)

/-- The number of a new request (R99). -/
def State.takeReqId (s : State) (core : Nat) : Nat × State :=
  ((s.core core).nextReq, s.onCore core (fun c => { c with nextReq := c.nextReq + 1 }))

/-- `LD` (R97 to R99). -/
def execLd (d base off : Opd) (m : MemMod) (s : State) : Host.Outcome State Fault Refusal :=
  let n := 2 ^ m.wid.toNat
  let a := (rdS s base + rdS s off).toNat
  bayOpF s [.s base, .s off] [.s d] (memFault a n 0) (fun t =>
    let (id, t) := t.takeReqId t.cur
    let (dest, t) := t.awaitDest t.cur id d
    t.issueReq t.cur 2 { id := id, kind := .load, va := a, size := n, sx := m.sx, dest := dest, acq := m.ord == 1,
                         scope := m.scope.toNat, bundle := s.iss.bundle, issued := s.now,
                         slotBad := s.slotBad [.s base, .s off] }) 0

/-- `ST` (R97 to R99). -/
def execSt (v base off : Opd) (m : MemMod) (s : State) : Host.Outcome State Fault Refusal :=
  let n := 2 ^ m.wid.toNat
  let a := (rdS s base + rdS s off).toNat
  bayOpF s [.s v, .s base, .s off] [] (memFault a n 1) (fun t =>
    let (id, t) := t.takeReqId t.cur
    t.issueReq t.cur 2 { id := id, kind := .store, va := a, size := n, val := rdS s v, rel := m.ord == 2, uo := m.uo,
                         scope := m.scope.toNat, bundle := s.iss.bundle, issued := s.now })

/-- `AMO` (R102, R103). -/
def execAmo (d addr v : Opd) (kind : BitVec 4) (ord : BitVec 2) (wid : Bool) (scope : BitVec 3) (s : State) :
    Host.Outcome State Fault Refusal :=
  let n := if wid then 8 else 4
  let a := (rdS s addr).toNat
  bayOpF s ([.s addr, .s v] ++ if kind = 9 then [.s d] else []) [.s d] (memFault a n 2) (fun t =>
    let (id, t) := t.takeReqId t.cur
    let (dest, t) := t.awaitDest t.cur id d
    t.issueReq t.cur 2 { id := id, kind := .amo, va := a, size := n, val := rdS s v, cmp := if kind = 9 then rdS s d else 0,
                         amo := kind.toNat, dest := dest, acq := ord == 1 || ord == 3, rel := ord == 2 || ord == 3,
                         scope := scope.toNat, bundle := s.iss.bundle, issued := s.now,
                         slotBad := s.slotBad ([.s addr, .s v] ++ if kind = 9 then [.s d] else []) }) 0

/-- What an atomic writes (R103): the new value from the old one, both of n bytes. -/
def amoNew (kind n old v cmp : Nat) : Nat :=
  let w := 8 * n
  let sg (x : Nat) : Int := if bitOf x (w - 1) then (x : Int) - 2 ^ w else x
  let old := old % 2 ^ w
  let v := v % 2 ^ w
  match kind with
  | 0 => (old + v) % 2 ^ w
  | 1 => Nat.land old v
  | 2 => Nat.lor old v
  | 3 => Nat.xor old v
  | 4 => if sg old ≤ sg v then old else v
  | 5 => if sg old ≤ sg v then v else old
  | 6 => min old v
  | 7 => max old v
  | 8 => v
  | _ => if old = cmp % 2 ^ w then v else old

/-- The old value as an atomic's destination receives it (R103). -/
def amoOld (kind n old : Nat) : Word := extend (!(kind == 6 || kind == 7)) n old

/-- The bytes a load reads at its home: for each byte the task's own youngest older store that is not performed yet, else
what the home holds (R248, R287). -/
def State.loadBytes (s : State) (core : Nat) (r : MemReq) : List Byte :=
  let ctx := s.ctxOf core
  let older := ((s.core core).t.port.filter (fun o =>
    decide (o.id < r.id) && o.kind == .store && o.stage != .performed && r.sameTask o)).reverse
  (List.range r.size).map (fun i =>
    let b := r.tgt.plus i
    match older.findSome? (fun o => (o.tgt.covers o.size b).map (fun k => (toBytes o.size o.val.toNat).getD k 0)) with
    | some x => x
    | none => s.homeByte ctx b)

/-- Whether an access waits for an older one of its task to a common byte (R97, R248, R255). -/
def State.olderMeets (s : State) (core : Nat) (r : MemReq) : Bool :=
  (s.core core).t.port.any (fun o => decide (o.id < r.id) && r.follows o)

/-- A slotted load is performed at its home (R287): it reads the writes performed in earlier cycles. One that must follow an older access
reads when its data are due (R97). -/
def State.sampleAct (s : State) (core id : Nat) : State :=
  match (s.core core).t.req? id with
  | some r =>
    if s.olderMeets core r then s
    else
    let v := word (ofBytes (s.loadBytes core r))
    let bad := s.homeBad r.tgt r.size
    (s.scrubRun r.tgt r.size).onTask core (fun t => t.onReq id (fun r => { r with data := v, err := bad, stage := .performed }))
  | none => s

/-- A fault that becomes known late (R100): a retiring task takes it at its `TEND` bundle, any other at its oldest bundle
that has not issued. -/
def State.lateFault (s : State) (core code bundle addr : Nat) : State :=
  match (s.core core).t.mode with
  | .none => s
  | _ => s.takeUnissued core code bundle addr

/-- A late fault of an access (R100), if the task that made it is still on the core. -/
def State.reqFault (s : State) (core : Nat) (r : MemReq) (code addr : Nat) : State :=
  if (s.core core).t.isTask r.grp r.idx then s.lateFault core code r.bundle addr else s

/-- What a record about an access names (R341): the task that made it and its bundle. -/
def MemReq.info (r : MemReq) (core : Nat) : RecInfo := { grp := r.grp, task := r.idx, coord := coordWord core, bundle := r.bundle }

/-- The late faults of a task's scratchpad reads whose results are ready now (R100, R134, R166). -/
def State.lateDue (s : State) (core : Nat) : Nat → State
  | 0 => s
  | n + 1 =>
    match (s.core core).t.late.find? (fun e => decide (e.1 ≤ s.now)) with
    | some e => State.lateDue ((s.onTask core (fun t => { t with late := t.late.erase e })).lateFault core e.2.1 e.2.2.1 e.2.2.2) core n
    | none => s

/-- A value reaches the destination of a request, if nothing younger has been written there (R18). -/
def State.deliver (s : State) (core : Nat) (r : MemReq) (x : Word) : State :=
  let put (s : State) (k : Nat) : State := s.onTask core (fun t =>
    if NMap.find t.wait k = some r.id then t.putScalar k x s.now else t)
  match r.dest with
  | .nowhere => put s RegKey.yb
  | .reg k => put (put s RegKey.yb) k
  | .slot q c => (put s RegKey.yb).fillSlot core q c (s.now - 1) s.now 0 (toBytes 8 x.toNat) true false

/-- A task that retires may be done now (R26). -/
def State.pokeDone (s : State) (core : Nat) : State :=
  if (s.core core).t.mode = .retiring ∧ !s.isDue (· == .ev (.evTaskDone core)) then s.postEv s.now (.evTaskDone core) else s

/-- Whether a request meets a host link that is down, or is routed to an Ewen port that carries nothing (R359 to R361). -/
def State.cutOff (s : State) (core : Nat) (r : MemReq) : Bool :=
  match r.tgt with
  | .host a => s.hostCut (dieOf core) a
  | _ => false

/-- An access through a failed link ends (R279, R359): a load and an atomic receive 0xFF bytes and a late fault. -/
def State.failReq (s : State) (core : Nat) (r : MemReq) (code : Nat) : State :=
  let v := word (2 ^ (8 * r.size) - 1)
  match r.kind with
  | .load => (((s.deliver core r (extend r.sx r.size v.toNat)).dropReq core r.id).reqFault core r code r.va).pokeDone core
  | .amo => (((s.deliver core r v).dropReq core r.id).reqFault core r code r.va).pokeDone core
  | _ =>
    ((s.dropReq core r.id).notice (s.ctxOf core)
      { r.info core with code := code, word5 := r.va % 2 ^ 57 + 2 ^ 57 }).pokeDone core

/-- Whether a peer access waits for its circuit, which is in SETUP (R353). -/
def State.peerWaits (s : State) (core : Nat) (r : MemReq) : Bool :=
  r.peer && match r.tgt with
  | .loc d _ => (s.circuit (dieOf core) d).st == .setup
  | _ => false

/-- Whether a request's home is host memory. -/
def MemReq.atHost (r : MemReq) : Bool :=
  match r.tgt with
  | .host _ => true
  | _ => false

/-- Whether a peer access has met a failed circuit (R279). -/
def State.peerFails (s : State) (core : Nat) (r : MemReq) : Bool :=
  r.peer && match r.tgt with
  | .loc d _ => s.peerDown (dieOf core) d
  | _ => false

/-- The data of a load or the old value of an atomic arrives (R99, R100). A host read of a link that is down waits for its
time-out (R359). -/
def State.loadArrive (s : State) (core id : Nat) : State :=
  match (s.core core).t.req? id with
  | none => s
  | some r =>
    if r.kind == .store || r.kind == .fence || r.stage == .held then s
    else if s.peerFails core r then s.failReq core r Code.peerWindow
    else
      if s.cutOff core r && r.stage != .performed then s.postEv (s.now + 112500000) (.evHostReadTimeout core id)
      else if r.kind == .load && r.stage != .performed && (s.olderMeets core r || s.peerWaits core r) then
        s.postEv (s.now + 1) (.evLoadDataArrive core id)
      else if r.kind == .amo && r.stage != .performed then s
      else
        let s := if r.stage == .performed then s else s.sampleAct core id
        let r := ((s.core core).t.req? id).getD r
        let x := if r.kind == .amo then amoOld r.amo r.size r.data.toNat else extend r.sx r.size r.data.toNat
        let s := (s.deliver core r x).dropReq core id
        let s := if r.err then s.reqFault core r Code.memUncorrectable r.va else s
        (match r.slotBad with
          | some x => s.reqFault core r Code.memUncorrectable x
          | none => s).pokeDone core

/-- The bytes the publication buffer of a die holds (R364). -/
def pubRoom : Nat := 65536

/-- A write is performed at its home (R250, R287, R294), or finds the publication buffer full (R364). An atomic's read and
write are one step (R255). A posted write that the host link holds is performed when it leaves (R99). -/
def State.writePerformed (s : State) (core id : Nat) : State :=
  match (s.core core).t.req? id with
  | none => s
  | some r =>
    let ctx := s.ctxOf core
    let info := r.info core
    let again : State := s.postEv (s.now + 1) (.evWritePerformed core id)
    let full := match r.tgt with
      | .pub _ _ => decide (pubRoom < (s.die (ctx / 64)).pubBuf.length + r.size)
      | _ => false
    if r.kind == .load || r.kind == .fence || r.stage == .held || r.stage == .performed then s
    else if s.peerFails core r then s.failReq core r Code.peerWindow
    else if full || s.olderMeets core r || s.peerWaits core r then again
    else
      match r.kind with
      | .amo =>
        if s.cutOff core r then s.postEv (s.now + 112500000) (.evHostReadTimeout core id)
        else
          let old := ofBytes (s.loadBytes core r)
          let bad := s.homeBad r.tgt r.size
          let new := amoNew r.amo r.size old r.val.toNat r.cmp.toNat
          let s := s.scrubRun r.tgt r.size
          let s := if r.amo == 9 && new == old % 2 ^ (8 * r.size) then s
                   else s.homeWrite ctx info r.tgt ((toBytes r.size new).map some)
          let s := s.onTask core (fun t => t.onReq id (fun r => { r with data := word old, err := bad, stage := .performed }))
          let s := if r.lat = 0 then s.postFree linkBound (.evLoadDataArrive core id) else s
          s.pumpPort core
      | _ =>
        let held := s.cutOff core r
        let s := s.homeWrite ctx info r.tgt ((toBytes r.size r.val.toNat).map some) (some (core, id))
        if held then s else (s.dropReq core id).pokeDone core

/-- `WRITE_PERFORMED` (R250, R287). -/
def execEvWritePerformed (core req : Nat) (s : State) : Host.Outcome State Fault Refusal := .next (s.writePerformed core req)

/-- `LOAD_DATA_ARRIVE` (R99, R287). -/
def execEvLoadDataArrive (core req : Nat) (s : State) : Host.Outcome State Fault Refusal := .next (s.loadArrive core req)

/-- Whether the host performed the write of an atomic whose answer failed is not known (R359): a free choice. -/
def State.maybeWritten (s : State) (core : Nat) (r : MemReq) : State :=
  match r.tgt with
  | .host a =>
    let old := ofBytes (s.loadBytes core r)
    let new := amoNew r.amo r.size old r.val.toNat r.cmp.toNat
    (if r.kind == .amo && r.stage != .performed && Config.freeDelay s.free % 2 == 0 then
      { s with mem := s.mem.writeN (Addr.host a) (toBytes r.size new) } else s).spend
  | _ => s

/-- `HOST_READ_TIMEOUT` (R359): a host read or atomic of a bay completes with an error status, or not in time. -/
def execEvHostReadTimeout (core req : Nat) (s : State) : Host.Outcome State Fault Refusal :=
  .next (match (s.core core).t.req? req with
    | some r =>
      if r.atHost && (r.kind == .load || r.kind == .amo) && r.stage != .held then (s.maybeWritten core r).failReq core r Code.linkDown else s
    | none => s)

/-- `MULTICAST_WRITE_LAND` (R225). -/
def execEvMulticastWriteLand (core addr src fell : Nat) (bytes : List (Option Byte)) (s : State) : Host.Outcome State Fault Refusal :=
  .next (s.multicastLand core addr src fell bytes)

/-! ### The walk (R98, R268, R271, R339) -/

/-- A page walk returns: the access goes on, and with it issue, or its fault is taken (R98). A BR bay that is replayed
makes its transfer again (R339). -/
def State.walkReturn (s : State) (core : Nat) : State :=
  let t := (s.core core).t
  match t.walk with
  | none => s
  | some u =>
    let rp := t.replay.getD {}
    let goOn (s : State) : State :=
      (s.onTask core (fun t => { t with walk := none, replay := none })).issueAt core rp.npc (max (s.now + 1) t.notBefore)
    match u.target with
    | some tgt =>
      (s.onTask core (fun t => { t with walk := none, jump := some (rp.bundle, rp.npc, rp.bays) })).issueAt core tgt (s.now + 1)
    | none =>
      match s.fetchXl core u.req.va u.req.ask.acc with
      | (.error f, s) => s.takeLate core rp u f.code 0 f.word5
      | (.ok e, s) =>
        match checkLeaf s (dieOf core) e u.req.va u.req.ask with
        | .error f => s.takeLate core rp u f.code 0 f.word5
        | .ok x => goOn (s.addReq core (u.req.at e x))

/-- `PAGE_WALK_RETURN` (R98, R271). -/
def execEvPageWalkReturn (core : Nat) (s : State) : Host.Outcome State Fault Refusal := .next (s.walkReturn core)

/-! ### Fences (R104, R105, R254, R263) -/

/-- `FENCE` (R104, R254): an entry of the port that holds later requests and commands; it never stalls issue. -/
def execFence (kind : BitVec 2) (scope : BitVec 3) (uo : Bool) (s : State) : Host.Outcome State Fault Refusal :=
  let (id, t) := s.takeReqId s.cur
  .next (t.addReq t.cur { id := id, kind := .fence, acq := kind == 1 || kind == 3, rel := kind == 2 || kind == 3, uo := uo,
                          scope := scope.toNat, bundle := s.iss.bundle, issued := s.now })

/-- `FENCE.CODE` (R105): the stores it covers, for which a fetch after an `ISYNC` waits. -/
def execFenceCode (_scope : BitVec 3) (s : State) : Host.Outcome State Fault Refusal :=
  .next (s.onTask s.cur (fun t =>
    { t with codeScope := ((t.port.filter (fun r => !r.gone && (r.kind == .store || r.kind == .amo))).map (fun r => r.id)) }))

/-- `ISYNC` (R105, R314): the instruction buffer and every fetched block are discarded. -/
def execIsync (s : State) : Host.Outcome State Fault Refusal :=
  .next (s.onCore s.cur (fun c =>
    { c with held := [], fetched := [], fetching := [], t := { c.t with fetchWait := c.t.codeScope } }))

/-! ### Spill (R106, R107, R349) -/

def State.leaseOf (s : State) (core e : Nat) : Lease := NMap.get {} (s.core core).c.lease e

/-- A word of a lender's pool (R349). -/
def State.poolWord (s : State) (core : Nat) (l : Lease) (i : Nat) : Word :=
  NMap.get 0 (s.core (coreOfYard core l.core)).c.pool (l.poolBase + i)

def State.setPool (s : State) (core : Nat) (l : Lease) (i : Nat) (v : Word) : State :=
  s.onCtxSt (coreOfYard core l.core) (fun c => { c with pool := NMap.put 0 c.pool (l.poolBase + i) v })

/-- The index rules of R106. -/
def leaseFault (s : State) (e : Nat) (i : Word) : Option IssueFault :=
  let l := NMap.get {} s.iss.pre.c.lease e
  require (l.live && decide (i.toNat < l.words)) Code.shapeBounds

/-- `SPST` (R106, R107). -/
def execSpst (v idx : Opd) (lease : BitVec 2) (s : State) : Host.Outcome State Fault Refusal :=
  let l := NMap.get {} s.iss.pre.c.lease lease.toNat
  let i := (rdS s idx).toNat
  bayOpF s [.s v, .s idx] [] (leaseFault s lease.toNat (rdS s idx)) (fun t =>
    if l.rev then
      let t := if t.now < l.readyFrom then t.setPool t.cur l i (rdS s v) else t
      t.storePad (l.fb + 8 * i) (toBytes 8 (rdS s v).toNat)
    else t.setPool t.cur l i (rdS s v))

/-- An `SPLD` waits for the write of a fallback area (R107). -/
def State.addLeaseWait (s : State) (core e : Nat) (w : Nat × Dest × Word × Nat) : State :=
  s.onCtxSt core (fun c =>
    let l : Lease := NMap.get {} c.lease e
    { c with lease := NMap.set c.lease e { l with waits := l.waits ++ [w] } })

/-- `SPLD` (R106, R107). One issued while the fallback area is being written waits for the end of that write. -/
def execSpld (d idx : Opd) (lease : BitVec 2) (s : State) : Host.Outcome State Fault Refusal :=
  let l := NMap.get {} s.iss.pre.c.lease lease.toNat
  let i := (rdS s idx).toNat
  bayOpF s [.s idx] [.s d] (leaseFault s lease.toNat (rdS s idx)) (fun t =>
    if l.rev && decide (s.now < l.readyFrom) then
      let (id, t) := t.takeReqId t.cur
      let (dest, t) := t.awaitDest t.cur id d
      t.addLeaseWait t.cur lease.toNat (id, dest, s.poolWord s.cur l i, s.now + 3)
    else if l.rev then
      (wrS t .sb d (word (ofBytes (s.iss.mem.readN (Addr.pad s.cur (l.fb + 8 * i)) 8))) 3).bayRead (l.fb + 8 * i) 8 (s.now + 3)
    else (wrS t .sb d (s.poolWord s.cur l i) 6).onTask t.cur (fun k => { k with dataAt := max k.dataAt (s.now + 6) })) (if l.rev then max 3 (l.readyFrom - s.now) else 6)

/-! ### System registers (R116 to R118) -/

/-- What `SRD` reads (R116). -/
def sysReg (s : State) (r : Nat) : Word :=
  let t := s.iss.pre.t
  match r with
  | 0 => (t.flagsAt s.now).zeroExtend 64
  | 1 => word s.now
  | 2 => word (t.tcountAt s.now)
  | 3 => word (t.estAt s.now)
  | 4 => word (t.prioAt s.now)
  | 5 => t.coordReg
  | 6 => t.groupReg
  | _ => if s.breakOn s.cur then 1 else 0

/-- `SRD` (R116). -/
def execSrd (d : Opd) (r : BitVec 10) (s : State) : Host.Outcome State Fault Refusal :=
  bayOp s [] [.s d] (fun t => wrS t .sb d (sysReg s r.toNat))

/-- `SWR` (R116): `fflags` takes effect in the next cycle, read-only registers discard it, and `dbg` raises PRIVILEGE. -/
def execSwr (a : Opd) (r : BitVec 10) (s : State) : Host.Outcome State Fault Refusal :=
  bayOpF s [.s a] [] (require (r != 16) Code.privilege) (fun t =>
    if r = 0 then t.onTask t.cur (fun k => k.writeFlags t.now ((rdS s a).setWidth 5)) else t)

/-- `CYCEST` (R117): the estimate from the next cycle on; a waiting newcomer is decided again (R337). -/
def execCycest (a : Opd) (s : State) : Host.Outcome State Fault Refusal :=
  bayOp s [.s a] [] (fun t =>
    let v := min (rdS s a).toNat (2 ^ 48 - 1)
    (t.onTask t.cur (fun k => { k.sync t.now with estSet := some (t.now + 1, v) })).postEv (t.now + 1) (.evPreemptionDecision t.cur))

/-- `SETPRIO` (R118). -/
def execSetprio (a : Opd) (s : State) : Host.Outcome State Fault Refusal :=
  bayOpF s [.s a] [] (require (decide ((rdS s a).toNat ≤ s.iss.pre.t.lprio)) Code.privilege) (fun t =>
    (t.onTask t.cur (fun k => { k with prioPrev := k.prioAt t.now, prio := (rdS s a).toNat, prioFrom := t.now + 1 })).postEv
      (t.now + 1) (.evPreemptionDecision t.cur))

end Sys2Proof.Machine
end

