-- ==== Sys2Proof/Machine/Page.lean ====
section
/-!
DEFINITION. Translation invalidation (R272 to R274) and the end of a migration (R276). A walk in flight reads the tree when it
returns, and an operation translates each line as it reaches it (R280), so only the two levels of TLB hold translations.
-/

namespace Sys2Proof.Machine

/-! ### What a command names (R272, R273) -/

def cmdDies (w : Word) : Nat := bits w.toNat 56 8
def cmdCtx (w : Word) : Nat := bits w.toNat 48 8
def cmdInvOp (w : Word) : Nat := bits w.toNat 44 4
def cmdSeq (w : Word) : Nat := bits w.toNat 0 32

/-- The commands a die may have outstanding (R272). -/
def invDepth : Nat := 16

/-- Whether an address lies in a range of 64 KiB units. -/
def inRange (va count a : Nat) : Bool := decide (va ≤ a) && decide (a < va + 65536 * count)

/-- Whether a cached translation is dropped (R273): by op, context of the die, range, and count or handle. -/
def TlbEnt.dropped (e : TlbEnt) (op ctx va count : Nat) : Bool :=
  match op with
  | 1 => e.ctx == ctx && decide (e.base < va + 65536 * count) && decide (va < e.base + 2 ^ e.log)
  | 2 => e.ctx == ctx
  | 3 => true
  | 4 => e.ctx == ctx && bits e.leaf.toNat 60 2 == 2 && bits e.leaf.toNat 38 10 == count % 1024
  | _ => false

/-- Whether an access in a memory port used a translation that is dropped. -/
def MemReq.uses (r : MemReq) (same : Bool) (op va count : Nat) : Bool :=
  r.kind != .fence &&
  match op with
  | 1 => same && decide (r.page.1 < va + 65536 * count) && decide (va < r.page.1 + 2 ^ r.page.2.1)
  | 2 => same
  | 3 => true
  | 4 => same && r.peer && r.page.2.2 == count % 1024
  | _ => false

/-- The dies that apply a command (R272, R274): the own die and those named that can be reached; the routing die
answers for the others. -/
def State.invDies (s : State) (die : Nat) (w : Word) : List Nat :=
  (List.range 8).filter (fun d => d == die || (bitOf (cmdDies w) d && !(s.die d).inReset && !s.peerDown die d))

/-- Translations of one die are dropped (R273). -/
def State.dropTlb (s : State) (d op ctx va count : Nat) : State :=
  let keep (l : List TlbEnt) : List TlbEnt := l.filter (fun e => !e.dropped op (64 * d + ctx) va count)
  let s := s.onDie d (fun x => { x with tlb := keep x.tlb })
  { s with cores := s.cores.map (fun (kc : Nat × Core) => if dieOf kc.1 = d then (kc.1, { kc.2 with tlb := keep kc.2.tlb }) else kc) }

/-- The accesses of one die that used a dropped translation: core and request. -/
def State.invOpen (s : State) (d op ctx va count : Nat) : List (Nat × Nat) :=
  (s.cores.filter (fun kc => dieOf kc.1 == d)).flatMap (fun kc =>
    ((kc.2.t.port.filter (fun r => r.uses (s.ctxOf kc.1 == 64 * d + ctx) op va count)).map (fun r => (kc.1, r.id))))

/-! ### The end of a migration (R276) -/

/-- Whether a replay buffer waits for a page in a range. -/
def Replay.waitsIn (rp : Replay) (va count : Nat) : Bool :=
  rp.code == Code.migrateWait && rp.items.any (fun u => inRange va count u.req.va)

/-- A task that is saved while it is held or parked translates afresh when it returns. -/
def TaskSt.freed (t : TaskSt) (from_ : TaskMode) (p : Replay → Bool) : TaskSt :=
  if t.saveFrom == from_ && (t.replay.map p).getD false then { t with saveFrom := .running } else t

/-- Whether the record of a task waits for a slot of the trap queue: the task stays held meanwhile (R340). -/
def Context.recordWaits (x : Context) (grp idx : Nat) : Bool :=
  x.waiting.any (fun w => bits (w.headD 0).toNat 20 2 == 0 && bits (w.getD 1 0).toNat 32 32 == grp % 2 ^ 32 && bits (w.getD 1 0).toNat 12 20 == idx)

/-- Whether the record of an operation waits for a slot (R340). -/
def Context.opRecordWaits (x : Context) (id : Nat) : Bool :=
  x.waiting.any (fun w => bits (w.headD 0).toNat 20 2 == 1 && (w.getD 6 0).toNat == id)

/-- The tasks of a context on a core that are held or parked for a reason go on, saved ones when they return (R276, R339). One whose
record waits for a slot goes on when the record has been posted (R340). -/
def State.freeTasks (s : State) (ctx core : Nat) (from_ : TaskMode) (p : Replay → Bool) : State :=
  let x := s.context ctx
  let hit (t : TaskSt) : Bool := t.mode == from_ && (t.replay.map p).getD false
  let mark (t : TaskSt) : TaskSt := { t with replay := t.replay.map (fun r => { r with freed := true }) }
  if (s.core core).ctx != some ctx then s
  else
    let t := (s.core core).t
    let s := if !hit t then s else if x.recordWaits t.grp t.idx then s.onTask core mark else s.resumeTask core
    (s.onTask core (fun t => if t.mode = .saving then t.freed from_ p else t)).onCtxSt core (fun c =>
      { c with susp := c.susp.map (fun x => { x with t := x.t.freed from_ p }) })

/-- The tasks of a context that is swapped out, freed in its saved state. -/
def Context.freeSaved (x : Context) (from_ : TaskMode) (p : Replay → Bool) : Context :=
  { x with
    savedCores := x.savedCores.map (fun kc => (kc.1, { kc.2 with susp := kc.2.susp.map (fun y => { y with t := y.t.freed from_ p }) })),
    savedTask := x.savedTask.map (fun kt => (kt.1, kt.2.freed from_ p)) }

/-- The operations of a context that are PARKED for a reason go on (R194), those whose record waits for a slot after it (R340). -/
def State.freeOps (s : State) (ctx : Nat) (p : Park → Bool) : State :=
  (s.ops.filter (fun kv => kv.2.ctx == ctx && kv.2.st == .parked && (kv.2.park.map p).getD false)).foldl
    (fun s kv =>
      if (s.context ctx).opRecordWaits (opIdent kv.1 kv.2.gen).toNat then
        s.onOp kv.1 (fun o => { o with park := o.park.map (fun k => { k with freed := true }) })
      else s.resumeOp kv.1) s

/-- What was freed while its record waited goes on once the record has been posted (R340). -/
def State.freeRecorded (s : State) (ctx : Nat) : State :=
  let s := (s.partCores ctx).foldl (fun s core =>
    (s.freeTasks ctx core .parked (fun rp => rp.freed)).freeTasks ctx core .held (fun rp => rp.freed)) s
  s.freeOps ctx (fun k => k.freed)

/-- MIGDONE on one die: the parked tasks and operations of the context, wherever they stand (R276). -/
def State.migDone (s : State) (d ctx va count : Nat) : State :=
  let c := 64 * d + ctx
  if 64 ≤ ctx then s
  else
    let p (rp : Replay) : Bool := rp.waitsIn va count
    let s := (s.partCores c).foldl (fun s core => s.freeTasks c core .parked p) s
    (s.onContext c (fun x => x.freeSaved .parked p)).freeOps c (fun k => k.code == Code.migrateWait && inRange va count k.va)

/-! ### Commands in turn -/

/-- The next command of a die is applied on every die that applies it (R272, R273). -/
def State.invApply (s : State) (die : Nat) : State :=
  match (s.die die).invQ with
  | [] => s
  | (w, va, count) :: _ =>
    let op := cmdInvOp w
    let ds := s.invDies die w
    let ctx := cmdCtx w
    let s := if op = 5 then ds.foldl (fun s d => s.migDone d ctx va count) s else ds.foldl (fun s d => s.dropTlb d op ctx va count) s
    let s := s.onDie die (fun x => { x with invWait := ds.flatMap (fun d => s.invOpen d op ctx va count), invAt := s.now })
    s.postFree (if ds.length = 1 then 64 else linkBound) (.evInvalidationAck die)

/-- A command is posted (R272): one too many, or with a reserved OP, is discarded and sets OVF. -/
def State.invPost (s : State) (die : Nat) (w : Word) : State :=
  let d := s.die die
  if invDepth ≤ d.invQ.length ∨ cmdInvOp w = 0 ∨ 5 < cmdInvOp w then s.onDie die (fun d => { d with invOvf := true })
  else
    let s := s.onDie die (fun d => { d with invQ := d.invQ ++ [(w, d.invVa, d.invCount)] })
    if d.invQ.isEmpty then s.post s.now (.inval die) else s

/-- A command word with its OP field set. -/
def withInvOp (w : Word) (op : Nat) : Word := word (w.toNat - cmdInvOp w * 2 ^ 44 + op * 2 ^ 44)

/-- Whether a link still holds a write that an operation made before the command under way was applied, in the context the command names:
its translation may be one of those dropped (R273). -/
def State.invHeld (s : State) (die : Nat) (w : Word) : Bool :=
  decide (cmdInvOp w ≤ 3) && (s.invDies die w).any (fun d => (s.die d).posted.any (fun p =>
    p.op.isSome && decide (p.until_ ≤ (s.die die).invAt + postedHold) && (cmdInvOp w == 3 || p.ctx == some (64 * d + cmdCtx w))))

/-- ACK takes SEQ once every access that used a dropped translation is complete on every die that answers (R273, R274). -/
def State.invAck (s : State) (die : Nat) : State :=
  let d := s.die die
  match d.invQ with
  | [] => s
  | (w, _, _) :: rest =>
    let left := d.invWait.filter (fun e => (dieOf e.1 == die || !((s.die (dieOf e.1)).inReset || s.peerDown die (dieOf e.1))) &&
      (((s.core e.1).t.req? e.2).map (fun r => r.stage != .performed || r.kind != .store)).getD false)
    if left.isEmpty && !s.invHeld die w then
      let s := s.onDie die (fun d => { d with invQ := rest, invAck := cmdSeq w, invWait := [] })
      if rest.isEmpty then s else s.post (s.now + 1) (.inval die)
    else (s.onDie die (fun d => { d with invWait := left })).postEv (s.now + 1) (.evInvalidationAck die)

/-- The routing dies of two dies whose circuit has failed answer for the other one (R356): what they wait for there no longer counts,
and an acknowledgement that waits for no other die is sent. -/
def State.answerRemote (s : State) (a b : Nat) : State :=
  let one (s : State) (die other : Nat) : State :=
    match (s.die die).invQ with
    | [] => s
    | (w, _, _) :: _ =>
      if !bitOf (cmdDies w) other then s
      else
        let s := s.onDie die (fun x => { x with invWait := x.invWait.filter (fun e => dieOf e.1 != other) })
        let ack (t : Timed) : Bool := t.act == .ev (.evInvalidationAck die)
        if s.invDies die w == [die] && (s.agenda ++ s.posted).any ack then
          { s with agenda := s.agenda.filter (fun t => !ack t), posted := s.posted.filter (fun t => !ack t) }.postEv s.now (.evInvalidationAck die)
        else s
  one (one s a b) b a

/-- `RANGE` (R273). -/
def execEvRange (die : Nat) (cmd : Word) (s : State) : Host.Outcome State Fault Refusal := .next (s.invPost die (withInvOp cmd 1))

/-- `CONTEXT` (R273). -/
def execEvContext (die : Nat) (cmd : Word) (s : State) : Host.Outcome State Fault Refusal := .next (s.invPost die (withInvOp cmd 2))

/-- `ALL` (R273). -/
def execEvAll (die : Nat) (cmd : Word) (s : State) : Host.Outcome State Fault Refusal := .next (s.invPost die (withInvOp cmd 3))

/-- `HANDLE` (R273). -/
def execEvHandle (die : Nat) (cmd : Word) (s : State) : Host.Outcome State Fault Refusal := .next (s.invPost die (withInvOp cmd 4))

/-- `MIGDONE` (R276). -/
def execEvMigdone (die : Nat) (cmd : Word) (s : State) : Host.Outcome State Fault Refusal := .next (s.invPost die (withInvOp cmd 5))

/-- `INVALIDATION_ACK` (R273, R274). -/
def execEvInvalidationAck (die : Nat) (s : State) : Host.Outcome State Fault Refusal := .next (s.invAck die)

end Sys2Proof.Machine
end

