-- ==== Sys2Proof/Machine/Launch.lean ====
section
/-!
DEFINITION. The kernel (R311 to R320) and peer launch (R362, R363): code objects, launch queues, and what taking a packet
creates.
-/

namespace Sys2Proof.Machine

/-! ### Code objects (R311 to R313) -/

/-- Word i of a header. -/
def hdrWord (h : List Word) (i : Nat) : Nat := (h.getD i 0).toNat

def hdrCodeOff (h : List Word) : Nat := bits (hdrWord h 1) 0 32
def hdrCodeSize (h : List Word) : Nat := bits (hdrWord h 1) 32 32
def hdrRecs (h : List Word) : Nat := bits (hdrWord h 4) 32 20
def hdrRecOff (h : List Word) : Nat := bits (hdrWord h 4) 0 32
def hdrDies (h : List Word) : Nat := bits (hdrWord h 5) 48 16
def hdrItems (h : List Word) : Nat := bits (hdrWord h 5) 32 16
def hdrItemOff (h : List Word) : Nat := bits (hdrWord h 5) 0 32
def hdrTeams (h : List Word) : Nat := bits (hdrWord h 6) 32 4
def hdrTeamOff (h : List Word) : Nat := bits (hdrWord h 6) 0 32
def hdrPlans (h : List Word) : Nat := bits (hdrWord h 7) 32 7
def hdrPlanOff (h : List Word) : Nat := bits (hdrWord h 7) 0 32

/-- Whether a header keeps R311, but for its regions. -/
def headerOk (h : List Word) : Bool :=
  hdrWord h 0 == 0x4B5A4F4B + 2 ^ 32 && bits (hdrWord h 4) 52 12 == 0 && bits (hdrWord h 6) 36 28 == 0
    && bits (hdrWord h 7) 39 25 == 0 && decide (1 ≤ hdrRecs h) && decide (hdrTeams h ≤ 4) && decide (hdrPlans h ≤ 126)
    && hdrCodeOff h % 16 == 0 && hdrRecOff h % 64 == 0 && hdrItemOff h % 16 == 0 && hdrTeamOff h % 8 == 0 && hdrPlanOff h % 16 == 0

/-- Whether every page of a region is mapped (R311). -/
def State.regionOk (s : State) (ctx va n : Nat) : Bool :=
  n == 0 || (List.range ((va + n + 65535) / 65536 - va / 65536)).all (fun i =>
    let a := (va / 65536 + i) * 65536
    decide (a < 2 ^ 57) && (match s.walk ctx a 4 with
      | .ok _ => true
      | .error _ => false))

/-- Little-endian words at an address; none where they cannot be read. -/
def State.readWords (s : State) (ctx va n : Nat) : Option (List Word) :=
  match s.vreadBytes ctx va (8 * n) 4 with
  | .ok bs => some (wordsOf n bs)
  | .error _ => none

/-- A team descriptor: its root and members (R226), and its size in bytes. -/
def State.readTeam (s : State) (ctx va : Nat) : Option ((Nat × List Nat) × Nat) :=
  match s.readWords ctx va 1 with
  | some [w] =>
    let p := bits w.toNat 0 10
    let root := bits w.toNat 16 10
    if p < 2 ∨ 512 < p ∨ p ≤ root ∨ bits w.toNat 10 6 ≠ 0 ∨ bits w.toNat 26 38 ≠ 0 then none
    else
      match s.vreadBytes ctx (va + 8) (2 * p) 4 with
      | .error _ => none
      | .ok bs =>
        let es := (List.range p).map (fun r => ofBytes ((bs.drop (2 * r)).take 2))
        if es.any (fun e => decide (2 ^ 9 ≤ e)) then none else some ((root, es), (8 + 2 * p + 7) / 8 * 8)
  | _ => none

/-- The teams of an object, and where they end. -/
def State.readTeams (s : State) (ctx : Nat) : Nat → Nat → Option (List (Nat × List Nat) × Nat)
  | 0, va => some ([], va)
  | n + 1, va =>
    match s.readTeam ctx va with
    | none => none
    | some (t, k) =>
      match State.readTeams s ctx n (va + k) with
      | none => none
      | some (ts, e) => some (t :: ts, e)

/-- Where the plans of an object end (R311). -/
def State.plansEnd (s : State) (ctx : Nat) : Nat → Nat → Option Nat
  | 0, va => some va
  | n + 1, va =>
    match s.readWords ctx va 1 with
    | some [w] =>
      let c := w.toNat
      if c = 0 ∨ 64 < c then none else State.plansEnd s ctx n (va + (8 + 12 * c + 15) / 16 * 16)
    | _ => none

/-- Whether an initialisation item keeps R313. -/
def itemOk (w0 w1 : Word) : Bool :=
  let w := w0.toNat
  w1 == 0 &&
  match bits w 60 4 with
  | 1 => bits w 16 8 == 0 && bits w 32 28 == 0
  | 2 =>
    let base := bits w 15 22
    let size := 2 ^ (bits w 5 4 + 6)
    bits w 37 23 == 0 && decide (bits w 5 4 ≤ 10) && decide (bits w 12 3 ≤ 4) && base % 64 == 0
      && decide (base + size * 2 ^ (bits w 9 3 + 1) ≤ 0x300000)
  | 3 => bits w 52 8 == 0 && decide (bits w 5 3 ≤ 4)
  | _ => false

/-- The items of an object, as their first words. -/
def State.readItems (s : State) (ctx va n : Nat) : Option (List Word) :=
  (List.range n).mapM (fun i =>
    match s.readWords ctx (va + 16 * i) 2 with
    | some [w0, w1] => if itemOk w0 w1 then some w0 else none
    | _ => none)

/-- Whether a core is in a context's partition. -/
def State.inPart (s : State) (ctx core : Nat) : Bool :=
  dieOf core == ctx / 64 && bitOf (s.context ctx).yards (yardOf core)

/-- Whether a task record keeps R312 against the code object `h` at `obj`. -/
def State.recordOk (s : State) (ctx obj : Nat) (h : List Word) (r : List Word) : Bool :=
  let w (i : Nat) : Nat := (r.getD i 0).toNat
  let entry := recEntry r
  bits (w 0) 56 8 == 0 && bits (w 1) 48 16 == 0 && bits (w 2) 20 44 == 0 && decide (recNW r ≤ 8)
    && (List.range 8).all (fun i => decide (recWait r i < 2 ^ 20) && (decide (i < recNW r) || recWait r i == 0))
    && (recPlan r == 0x7F || decide (recPlan r < hdrPlans h)) && entry % 16 == 0 && decide (entry < hdrCodeSize h)
    && s.inPart ctx (recCore (ctx / 64) r)
    && (match s.vreadBytes ctx (obj + hdrCodeOff h + entry) 2 3 with
      | .ok bs => bitOf (ofBytes bs) 7
      | .error _ => false)

/-- What a code object holds. -/
structure CodeObj where
  hdr : List Word
  items : List Word
  teams : List (Nat × List Nat)
  recs : List (List Word)
  deriving DecidableEq, Repr

/-- A code object, if all of it can be read and is well formed (R311 to R313). -/
def State.readObject (s : State) (ctx obj : Nat) : Option CodeObj := do
  let h ← s.readWords ctx obj 8
  if !headerOk h then none
  let (teams, te) ← s.readTeams ctx (hdrTeams h) (obj + hdrTeamOff h)
  let pe ← s.plansEnd ctx (hdrPlans h) (obj + hdrPlanOff h)
  let regions := [(hdrCodeOff h, hdrCodeSize h), (bits (hdrWord h 2) 0 32, bits (hdrWord h 2) 32 32),
    (bits (hdrWord h 3) 0 32, bits (hdrWord h 3) 32 32), (hdrRecOff h, 64 * hdrRecs h), (hdrItemOff h, 16 * hdrItems h),
    (hdrTeamOff h, te - (obj + hdrTeamOff h)), (hdrPlanOff h, pe - (obj + hdrPlanOff h))]
  if !regions.all (fun r => s.regionOk ctx (obj + r.1) r.2) then none
  let items ← s.readItems ctx (obj + hdrItemOff h) (hdrItems h)
  let recs ← (List.range (hdrRecs h)).mapM (fun i => s.readWords ctx (obj + hdrRecOff h + 64 * i) 8)
  if recs.all (fun r => s.recordOk ctx obj h r) then some { hdr := h, items := items, teams := teams, recs := recs } else none

/-- The words of a code object that its intake has read are checked (R293). -/
def State.objectSeen (s : State) (ctx obj : Nat) (o : CodeObj) : State :=
  let h := o.hdr
  let te := ((s.readTeams ctx (hdrTeams h) (obj + hdrTeamOff h)).map Prod.snd).getD (obj + hdrTeamOff h)
  let pe := (s.plansEnd ctx (hdrPlans h) (obj + hdrPlanOff h)).getD (obj + hdrPlanOff h)
  let s := [(hdrRecOff h, 64 * hdrRecs h), (hdrItemOff h, 16 * hdrItems h), (hdrTeamOff h, te - (obj + hdrTeamOff h)),
      (hdrPlanOff h, pe - (obj + hdrPlanOff h))].foldl (fun s (r : Nat × Nat) => if r.2 = 0 then s else s.bytesSeen ctx (obj + r.1) r.2 4) s
  o.recs.foldl (fun s r => s.bytesSeen ctx (obj + hdrCodeOff h + recEntry r) 2 3) s

/-! ### Launch queues (R315) -/

/-- Whether a queue takes packets. -/
def LaunchQ.fits (l : LaunchQ) : Bool := l.en && decide (6 ≤ l.lcnt) && decide (l.lcnt ≤ 15)

/-- Packets announced and not taken. -/
def LaunchQ.ahead (l : LaunchQ) : Nat := (l.tail + 2 ^ 32 - l.head % 2 ^ 32) % 2 ^ 32

/-- The address of the next packet. -/
def LaunchQ.slot (l : LaunchQ) : Nat := l.base + 64 * (l.head % 2 ^ l.lcnt)

/-- The longest that intake waits, within the bound of R319. -/
def intakeBound : Nat := 256

/-- The die looks at its launch queues some time later. -/
def State.postIntake (s : State) (die : Nat) : State :=
  if s.isDue (· == .ev (.evPacketTake die)) then s else s.postFree intakeBound (.evPacketTake die)

/-- A write of TAIL (R315, R362): it announces the packets up to its value, or is discarded and sets OVF. -/
def State.tailWrite (s : State) (ctx q v : Nat) (src : Option Nat) : State :=
  let l := s.launchQ (4 * ctx + q)
  let d := (v + 2 ^ 32 - l.head % 2 ^ 32) % 2 ^ 32
  if !l.fits ∨ 2 ^ l.lcnt < d ∨ d < l.ahead then s.onLaunch (4 * ctx + q) (fun l => { l with ovf := true })
  else (s.onLaunch (4 * ctx + q) (fun l => { l with tail := v, srcs := l.srcs ++ [(v, src)] })).postIntake (ctx / 64)

/-- The writer of the next packet (R362): that of the first applied write whose value exceeds it. -/
def LaunchQ.source (l : LaunchQ) : Option Nat :=
  ((l.srcs.find? (fun e => decide (0 < (e.1 + 2 ^ 32 - l.head % 2 ^ 32) % 2 ^ 32) && decide ((e.1 + 2 ^ 32 - l.head % 2 ^ 32) % 2 ^ 32 ≤ 2 ^ 15))).bind
    (fun e => e.2))

/-- A queue after its next packet was taken. -/
def LaunchQ.taken (l : LaunchQ) : LaunchQ :=
  let h := (l.head + 1) % 2 ^ 32
  { l with head := h, srcs := l.srcs.filter (fun e => e.1 != h) }

/-- Whether the next packet of a queue is held by BAR (R318). -/
def State.barred (s : State) (key : Nat) : Bool :=
  match s.vread (key / 4) (s.launchQ key).slot 64 4 with
  | .ok bs => bitOf (ofBytes bs) 8 && s.groups.any (fun kg => kg.2.ctx == key / 4 && kg.2.queue == key % 4 && !kg.2.ended)
  | .error _ => false

/-- The queues of a die whose next packet is announced and free to start (R318, R334). -/
def State.intakeReady (s : State) (die : Nat) : List Nat :=
  (NMap.keys s.launch).filter (fun k =>
    let l := s.launchQ k
    k / 256 == die && l.fits && decide (0 < l.ahead) && (s.context (k / 4)).st == .active && !s.barred k)

/-- The queue the die takes from (R318): of highest QPRIO, and round-robin among those. -/
def State.pickQueue (s : State) (die : Nat) : Option Nat :=
  let ks := s.intakeReady die
  let top := ks.foldl (fun m k => max m (s.launchQ k).qprio) 0
  let best := ks.filter (fun k => (s.launchQ k).qprio == top)
  (best.find? (fun k => decide ((s.die die).rr ≤ k))).orElse (fun _ => best.head?)

/-- An entry of the access-control table that opens a queue to a source for a code object (R363). -/
def Die.admits (d : Die) (src slot q kobj : Nat) : Bool :=
  (List.range 64).any (fun i =>
    let w (j : Nat) : Nat := (NMap.get 0 d.acl (4 * i + j)).toNat
    let base := bits (w 1) 12 45 * 4096
    bitOf (w 0) 63 && bits (w 0) 0 16 == src && bits (w 0) 20 6 == slot && bitOf (w 0) (16 + q)
      && decide (base ≤ kobj) && decide (kobj < base + bits (w 2) 0 32 * 4096))

/-! ### Completion records (R320) -/

/-- Writes a completion record; a CREC that does not translate, or is not aligned, gets none (notes/assumptions/26). -/
def State.writeCompletion (s : State) (ctx crec tag status gid first : Nat) : State :=
  if crec % 64 ≠ 0 then s
  else
    let s := s.walkSeen ctx (crec % 2 ^ 57)
    match s.translate ctx crec { acc := 5 } with
    | .error _ => s
    | .ok x => s.plainWrite ctx x.tgt (toBytes 8 (status + tag * 2 ^ 32) ++ toBytes 8 gid ++ toBytes 8 first ++ List.replicate 40 0)

/-! ### Taking a packet (R316 to R319) -/

/-- Whether packet word checks of R318 fail: VER, a reserved field, CREC. -/
def packetBad (w : List Word) : Bool :=
  let n (i : Nat) : Nat := (w.getD i 0).toNat
  bits (n 0) 0 8 != 1 || bits (n 0) 12 4 != 0 || bits (n 1) 57 7 != 0 || bits (n 2) 57 7 != 0
    || (w.drop 4).any (fun x => x != 0) || n 2 % 64 != 0 || (!bitOf (n 0) 9 && n 2 != 0)

/-- Whether a logical die is live (R317). -/
def State.liveDie (s : State) (d : Nat) : Bool := decide (d < 8) && !(s.die d).inReset

/-- A group is created (R319, R321): its SEM items are applied, and every record enters LISTED. -/
def State.createGroup (s : State) (ctx q : Nat) (w : List Word) (obj : Nat) (o : CodeObj) : State :=
  let die := ctx / 64
  let n (i : Nat) : Nat := (w.getD i 0).toNat
  let gid := (s.die die).gids
  let gk := 2 ^ 32 * die + gid
  let s := s.onDie die (fun d => { d with gids := (gid + 1) % (2 ^ 32 - 1) })
  let tasks : List Task := o.recs.map (fun r => { recd := r, arg := r.getD 3 0 + word (n 3), cnt := recDeps r })
  let g : Group := { ctx := ctx, gid := gid, queue := q, gpol := bits (n 0) 10 2, obj := obj, hdr := o.hdr, items := o.items,
                     teams := o.teams, tasks := tasks, tag := bits (n 0) 32 32, cpl := bitOf (n 0) 9, crec := n 2,
                     bar := bitOf (n 0) 8, created := s.now, order := s.order, idling := true, idleFrom := s.now }
  let s := { s with groups := NMap.set s.groups gk g, order := s.order + 1 }
  let s := o.items.foldl (fun s it =>
    if bits it.toNat 60 4 = 1 then
      o.recs.foldl (fun s r =>
        let c := recCore die r
        (s.setSem c (bits it.toNat 24 8) (bits it.toNat 0 16)).wakeListed c) s
    else s) s
  let s := (List.range tasks.length).foldl (fun s i => s.postEv s.now (.evTaskReady gk i)) s
  s.postEv (s.now + 2 ^ (s.context ctx).wdlog) (.evWatchdog ctx gk 0xFFFFF)

/-- A packet that was read meets the checks of R318 in order. -/
def State.admitPacket (s : State) (ctx q : Nat) (w : List Word) : State :=
  let die := ctx / 64
  let n (i : Nat) : Nat := (w.getD i 0).toNat
  let kobj := bits (n 1) 0 57
  let done (s : State) (status : Nat) : State :=
    if bitOf (n 0) 9 then s.writeCompletion ctx (n 2) (bits (n 0) 32 32) status 0xFFFFFFFF 0xFFFFF else s
  if packetBad w then done s Code.launchRejected
  else
    let named := bits (n 0) 16 16
    let fromHdr := match s.readWords ctx kobj 8 with
      | some h => bits (h.getD 5 0).toNat 48 16
      | none => 0
    let m := if named ≠ 0 then named else fromHdr
    let mask := if m = 0 then 2 ^ die else m
    if !bitOf mask die then
      done s (if (List.range 8).any (fun d => bitOf mask d && s.liveDie d) then 0xF1 else 0xF0)
    else
      match s.readObject ctx kobj with
      | none => done (s.bytesSeen ctx kobj 64 4) Code.launchRejected
      | some o => ((s.bytesSeen ctx kobj 64 4).objectSeen ctx kobj o).createGroup ctx q w kobj o

/-- The die takes its next packet (R318, R363). -/
def State.packetTake (s : State) (die : Nat) : State :=
  match s.pickQueue die with
  | none => s
  | some key =>
    let l := s.launchQ key
    let ctx := key / 4
    let s := (s.onLaunch key LaunchQ.taken).onDie die (fun d => { d with rr := key + 1 })
    let s :=
      match s.vread ctx l.slot 64 4 with
      | .error _ => s.notice ctx { code := Code.launchRejected, word5 := l.slot % 2 ^ 57 }
      | .ok bs =>
        let w := wordsOf 8 bs
        let s := s.readSeen ctx l.slot 64 4
        match l.source with
        | some src =>
          if (s.die die).admits src (ctx % 64) (key % 4) (bits (w.getD 1 0).toNat 0 57) then s.admitPacket ctx (key % 4) w
          else s.notice ctx { code := Code.launchRejected, detail := src }
        | none => s.admitPacket ctx (key % 4) w
    if (s.intakeReady die).isEmpty then s else s.postEv (s.now + 1) (.evPacketTake die)

/-- A write of TAIL arrives (R356, R361, R362): one of a peer die waits for its circuit or is lost with it, and one of a remote node is
lost where its port carries nothing. -/
def State.tailArrives (s : State) (ctx q : Nat) (v : BitVec 32) (src : Option (BitVec 16)) : State :=
  let write (s : State) : State := s.tailWrite ctx (q % 4) v.toNat (src.map BitVec.toNat)
  match src.map BitVec.toNat with
  | none => write s
  | some x =>
    if x < 8 then s.overDies x (ctx / 64) (.evLaunchTailWrite ctx q v src) write
    else if 0x1000 ≤ x ∧ x < 0x2000 ∧ !(s.ewenPort ((x - 0x1000) / 0x100)).st.carries then s
    else write s

/-- `LAUNCH_TAIL_WRITE` (R315, R362). -/
def execEvLaunchTailWrite (ctx q : Nat) (v : BitVec 32) (src : Option (BitVec 16)) (s : State) : Host.Outcome State Fault Refusal :=
  .next (s.tailArrives ctx q v src)

/-- `PACKET_TAKE` (R318, R319). -/
def execEvPacketTake (die : Nat) (s : State) : Host.Outcome State Fault Refusal := .next (s.packetTake die)

end Sys2Proof.Machine
end

