-- ==== Sys2Proof/Machine/Command.lean ====
section
/-!
DEFINITION. Commands of the MX and CX bays: handing one to its unit at issue (R70, R71, R85, R185, R190), and what a
command queue's head waits for (R71, R112, R253, R254).
-/

namespace Sys2Proof.Machine

/-- The event that tests the head of a unit's queue. -/
def headEv (core unit : Nat) : Instr := if unit < 2 then .evMatrixHead core unit else .evCommandHead core unit

/-- The head of a unit's queue is tested from a cycle on, once a cycle. -/
def State.postHead (s : State) (core unit due : Nat) : State :=
  if s.isDue (· == .ev (headEv core unit)) then s else s.postEv due (headEv core unit)

/-- A command joins its unit's queue. -/
def State.enqueue (s : State) (core : Nat) (cmd : Cmd) : State :=
  let u := cmd.ins.cmdUnit
  let s :=
    if u < 2 then s.onTask core (fun t => t.onEng u (fun e => { e with q := e.q ++ [cmd] }))
    else s.onCtxSt core (fun c => { c with cmdq := NMap.put [] c.cmdq u (NMap.get [] c.cmdq u ++ [cmd]) })
  s.postHead core u (s.now + 1)

/-- A command is handed to its unit at issue (R71, R85, R185): its operation or its pending token, and its place in the
queue. `c0` holds what it captured. -/
def State.handCmd (s : State) (i : Instr) (c0 : Cmd) : State :=
  let core := s.cur
  let c := s.core core
  let tok := i.cmdHdr.bind (fun h => if h.tv then some h.tok.toNat else none)
  let cmd := { c0 with ins := i, t := s.now, bundle := s.iss.bundle, mask := s.iss.mask, serial := c.serial, tok := tok,
                       seq := c.nextReq, grp := c.t.grp, idx := c.t.idx, prio := c.t.prioAt s.now }
  let s := s.onCore core (fun c => { c with serial := c.serial + 1 })
  if createsOp i then
    let k := s.freeEntry (dieOf core)
    (s.newOp core cmd cmd.prio).enqueue core { cmd with op := some k }
  else
    let s := match tok with
      | some r => s.onTask core (fun t => t.setToken r (t.scalar r) (.cmd cmd.serial))
      | none => s
    s.enqueue core cmd

/-- The meaning of a command at issue: its channel checks, then its own, then its pops and the hand-over. -/
def cmdOp (s : State) (i : Instr) (f : Option IssueFault) (eff : State → State) : Host.Outcome State Fault Refusal :=
  issueBay s ((chanFault s.iss.pre s.now (uses i) (defs i)).orElse (fun _ => f)) (fun t => eff (popAll t (uses i)))

/-- A command that captures operand values and nothing else. -/
def plainCmd (s : State) (i : Instr) (os : List Opd) : Host.Outcome State Fault Refusal :=
  cmdOp s i none (fun t => t.handCmd i { vals := os.map (rdS s) })

/-! ### Completion-action operands (R190) -/

/-- The issue-time checks of a completion action (R190): RESERVED_FIELD, then QUEUE_STATE of a PRES action's queue. -/
def caFault (s : State) (ca : Word) : Option IssueFault :=
  firstFault [
    require (caValid ca) Code.reservedField,
    require (caKind ca != 3 || (NMap.get {} s.iss.pre.c.q (bits (caArg ca) 0 5)).st.mayAppend) Code.queueState]

/-- The slots a PRES action reserves (R190): the queue, the first slot and how many. -/
def State.reservePres (s : State) (core : Nat) (ca : Word) : Option (Nat × Nat × Nat) × State :=
  if caKind ca = 3 then
    let q := bits (caArg ca) 0 5
    let n := bits (caArg ca) 5 9
    let first := (s.reserveSlot core q).1
    (some (q, first, n), (List.range n).foldl (fun s _ => (s.reserveSlot core q).2) s)
  else (none, s)

/-- A command with a completion action. -/
def caCmd (s : State) (i : Instr) (os : List Opd) (ca : Option Opd) : Host.Outcome State Fault Refusal :=
  let v := caVal s ca
  cmdOp s i (caFault s v) (fun t =>
    let r := t.reservePres t.cur v
    r.2.handCmd i { vals := os.map (rdS s), ca := v, res := r.1 })

/-! ### Heads (R71, R112) -/

/-- Whether a task is being saved on its core (R26). -/
def State.taskSaving (s : State) (core gk i : Nat) : Bool := (s.core core).t.mode == .saving && (s.core core).t.isTask gk i

/-- Whether an operation may neither start nor begin its next line, tile or row pair: its context does not run, or its owner is
being saved (R200, R335, R346). -/
def State.opFrozen (s : State) (o : Op) : Bool :=
  (s.context o.ctx).st != .active || (o.owner == 0 && !o.det && s.taskSaving o.ownCore o.grp o.idx)

/-- The same of a command in a unit's queue. -/
def State.cmdFrozen (s : State) (core : Nat) (c : Cmd) : Bool :=
  match c.op.bind s.op? with
  | some o => s.opFrozen o
  | none => (s.context (s.ctxOf core)).st != .active || s.taskSaving core c.grp c.idx

/-- Whether a command may start: its context runs, and its task is not being saved (R164, R200, R346). -/
def State.mayStart (s : State) (core : Nat) (c : Cmd) : Bool := !s.cmdFrozen core c

/-- Whether the wait of a command passes now: it may start, no older acquire or fence holds it, and its semaphore has the
value. -/
def State.waitOk (s : State) (core : Nat) (c : Cmd) : Bool :=
  s.mayStart core c && !s.portHolds core c.seq &&
  match c.ins.cmdHdr with
  | some h => !h.we || c.noWait || decide (h.wthr.toNat ≤ s.sem core h.wsem.toNat)
  | none => true

/-- The wait passes; a consuming one takes its threshold (R71). -/
def State.takeWait (s : State) (core : Nat) (c : Cmd) : State :=
  match c.ins.cmdHdr with
  | some h => if h.we && h.wc && !c.noWait then s.semTake core h.wsem.toNat h.wthr.toNat else s
  | none => s

end Sys2Proof.Machine
end

