-- ==== Sys2Proof/Machine/Blocks.lean ====
section
/-!
DEFINITION. The block formats: GQ blocks (R34 to R36) and MX blocks (R37, R38). A block is a natural number whose low
byte is its first byte.
-/

namespace Sys2Proof.Machine

/-- ⌊log2 |v|⌋ of a non-zero value, 128 for an infinity (R36). -/
def expoVal : FVal → Int
  | .nan => 0
  | .inf _ => 128
  | .fin _ m e => (bitLen m : Int) - 1 + e

/-- Whether a value is zero. -/
def FVal.isZero : FVal → Bool
  | .fin _ m _ => m == 0
  | _ => false

/-- Whether a value is a finite number. -/
def FVal.isFin : FVal → Bool
  | .fin _ _ _ => true
  | _ => false

/-- The sign of a value. -/
def FVal.sign : FVal → Bool
  | .nan => false
  | .inf n => n
  | .fin n _ _ => n

/-- mag(v, e, rm) of R36, for a finite value. -/
def magAt (v : FVal) (q : Int) (rm : Nat) : Nat :=
  match v with
  | .fin n m e => (roundTo rm n m e q).1
  | _ => 0

/-- The block of three fields (R34). -/
def gqPack (b sexp trim : Nat) (elems : List Nat) : Nat :=
  sexp + trim * 2 ^ 8 + (elems.foldr (fun e acc => e + acc * 2 ^ (b + 1)) 0) * 2 ^ 16

/-- Bytes of a GQ block with magnitudes of `b` bits. -/
def gqBytes (b : Nat) : Nat := 2 + 2 * (b + 1)

/-- Element j of a GQ block (R35), and whether the block is the reserved one. -/
def gqDecode (b blk j : Nat) : FVal × FFlags :=
  let sexp := blk % 256
  let t := blk / 2 ^ (8 + 2 * (j / 4)) % 4
  let el := blk / 2 ^ (16 + (b + 1) * j) % 2 ^ (b + 1)
  let m := el % 2 ^ b
  if sexp = 255 then (.fin false 0 0, flIV)
  else if sexp = 0 ∨ m = 0 then (.fin false 0 0, 0)
  else (.fin (decide (2 ^ b ≤ el)) m ((sexp : Int) - 127 - t - (b - 1)), 0)

/-- Whether trim c fits a quad (R36). -/
def gqFits (b : Nat) (rm : Nat) (emax : Int) (quad : List FVal) (c : Nat) : Bool :=
  quad.any (fun v => v.isFin && !v.isZero) && quad.all (fun v => v.isFin)
    && quad.all (fun v => decide (magAt v (emax - (b - 1) - c) rm ≤ 2 ^ b - 1))

/-- The deepest trim that fits a quad (R36). -/
def gqTrim (b rm : Nat) (emax : Int) (quad : List FVal) : Nat :=
  if gqFits b rm emax quad 3 then 3 else if gqFits b rm emax quad 2 then 2 else if gqFits b rm emax quad 1 then 1 else 0

/-- One element of a block being formed: its bits and its flags (R36). -/
def gqElem (b rm : Nat) (q : Int) (v : FVal) : Nat × FFlags :=
  let m := magAt v q rm
  let sat := !v.isFin || decide (2 ^ b - 1 < m)
  let m' := if sat then 2 ^ b - 1 else m
  let s := if 0 < m' && v.sign then 2 ^ b else 0
  let inexact :=
    match v with
    | .fin n vm ve => sat || (roundTo rm n vm ve q).2
    | _ => false
  (s + m', (if sat then flOF else 0) ||| (if inexact then flNX else 0))

/-- Four elements of one quad at its trim. -/
def gqQuad (b rm : Nat) (emax : Int) (quad : List FVal) : Nat × List (Nat × FFlags) :=
  let t := gqTrim b rm emax quad
  (t, quad.map (gqElem b rm (emax - (b - 1) - t)))

/-- A list cut into pieces of n. -/
def chunks {α : Type} (n : Nat) : Nat → List α → List (List α)
  | 0, _ => []
  | k + 1, l => l.take n :: chunks n k (l.drop n)

/-- gq_encode of R36: sixteen values into one block. -/
def gqEncode (b rm : Nat) (xs : List FVal) : Nat × FFlags :=
  let iv : FFlags := if xs.any (· == .nan) then flIV else 0
  let xs := xs.map (fun v => if v == .nan then .fin false 0 0 else v)
  if xs.all FVal.isZero then (0, iv)
  else
    let nz := xs.filter (fun v => !v.isZero)
    let emax := nz.foldl (fun acc v => if acc < expoVal v then expoVal v else acc) (-100000)
    let emax := if emax < -126 then -126 else if 127 < emax then 127 else emax
    let emax := if emax < 127 && xs.any (fun v => v.isFin && magAt v (emax - (b - 1)) rm == 2 ^ b) then emax + 1 else emax
    let qs := (chunks 4 4 xs).map (gqQuad b rm emax)
    let trim := (qs.foldr (fun q acc => q.1 + acc * 4) 0)
    let els := (qs.map Prod.snd).flatten
    (gqPack b (emax + 127).toNat trim (els.map Prod.fst), els.foldl (fun f e => f ||| e.2) iv)

/-! ### MX blocks -/

/-- The element format of an MX storage code (R27). -/
def mxElem : Nat → FFmt
  | 0x11 => fmtE4M3
  | 0x12 => fmtE5M2
  | 0x13 => fmtE2M3
  | 0x14 => fmtE3M2
  | _ => fmtE2M1

/-- Bytes of an MX block (R37). -/
def mxBytes (code : Nat) : Nat := 1 + 4 * (mxElem code).width

/-- A value times 2^k. -/
def FVal.scale (k : Int) : FVal → FVal
  | .fin n m e => .fin n m (e + k)
  | v => v

/-- The real value of element j of an MX block (R38); NaN under S = 0xFF. -/
def mxDecode (code blk j : Nat) : FVal :=
  let f := mxElem code
  let s := blk % 256
  let el := blk / 2 ^ (8 + f.width * j) % 2 ^ f.width
  if s = 255 then .nan else (f.decode el).scale ((s : Int) - 127)

/-- An MX element expanded to its own FP8 format: rounded and saturating, an infinity of E5M2 kept (R38). -/
def mxToFp8 (f : FFmt) (v : FVal) : Nat × FFlags :=
  match v with
  | .nan => (f.nanBits, 0)
  | .inf n => f.ofVal 0 (.inf n)
  | .fin n m e =>
    let (r, fl) := f.round 0 n m e
    if f.hasInf && r % f.signBits true == f.infBits false then (f.signBits n + f.maxMag, fl) else (r, fl)

/-- The magnitude of a finite value rounded by RNE to a format's precision without an upper limit, compared with the
format's largest finite value (R38). -/
def exceedsMax (f : FFmt) (v : FVal) : Bool :=
  match v with
  | .fin n m e =>
    if m = 0 then false
    else
      let q := e + (bitLen m : Int) - 1 - f.mb
      let qd := if q < f.qmin then f.qmin else q
      let r := (roundTo 0 n m e qd).1
      match f.decode f.maxMag with
      | .fin _ ml el => decide (cmpVal (.fin false ml el) (.fin false r qd) < 0)
      | _ => false
  | _ => false

/-- The unbiased exponent of a format's largest finite value. -/
def topExp (f : FFmt) : Int := expoVal (f.decode f.maxMag)

/-- mx_encode of R38: thirty-two values into one block. -/
def mxEncode (code : Nat) (xs : List FVal) : Nat × FFlags :=
  let f := mxElem code
  let iv : FFlags := if !f.hasNan && xs.any (· == .nan) then flIV else 0
  let xs := xs.map (fun v => if !f.hasNan && v == .nan then .fin false 0 0 else v)
  let big := xs.filter (fun v => (v.isFin && !v.isZero) || (!f.hasInf && (v == .inf false || v == .inf true)))
  let s : Int :=
    if big.isEmpty then 0
    else
      let emax := big.foldl (fun acc v => if acc < expoVal v then expoVal v else acc) (-100000)
      let s := emax - topExp f + 127
      let s := if xs.any (fun v => exceedsMax f (v.scale (127 - s))) then s + 1 else s
      if s < 0 then 0 else if 254 < s then 254 else s
  let els := xs.map (fun v => match v with
    | .nan => (f.nanBits, (0 : FFlags))
    | .inf n => f.ofVal 0 (.inf n)
    | .fin n m e => f.round 0 n m (e + 127 - s))
  (s.toNat + 2 ^ 8 * els.foldr (fun e acc => e.1 + acc * 2 ^ f.width) 0, els.foldl (fun a e => a ||| e.2) iv)

end Sys2Proof.Machine
end

