-- ==== Sys2Proof/Machine/Scalar.lean ====
section
/-!
DEFINITION. The arithmetic of the SA and SB bays (R87 to R95).
-/

namespace Sys2Proof.Machine

/-- Bits [127:64] of the signed product (R88). -/
def mulHigh (a b : Word) : Word := BitVec.ofInt 64 (a.toInt * b.toInt / 2 ^ 64)

/-- Bits [127:64] of the natural product (R88). -/
def mulHighN (a b : Word) : Word := word (a.toNat * b.toNat / 2 ^ 64)

/-- Division and its edge cases (R88, R89). -/
def divS (a b : Word) : Word := if b = 0 then BitVec.allOnes 64 else a.sdiv b
def divN (a b : Word) : Word := if b = 0 then BitVec.allOnes 64 else a / b
def remS (a b : Word) : Word := if b = 0 then a else a.srem b
def remN (a b : Word) : Word := if b = 0 then a else a % b

/-- A shift amount or a position: b[5:0] (R88, R94). -/
def shiftOf (b : Word) : Nat := b.toNat % 64

/-- How many zero bits stand above the highest one bit; 64 for zero (R88). -/
def leadingZeros (a : Word) : Nat := 64 - bitLen a.toNat

/-- How many zero bits stand below the lowest one bit; 64 for zero (R88). -/
def trailingZeros (a : Word) : Nat := ((List.range 64).find? (fun i => a.getLsbD i)).getD 64

/-- How many bits are one (R88). -/
def onesIn (a : BitVec 64) : Nat := ((List.range 64).filter (fun i => a.getLsbD i)).length

/-- The conditions of `CMP` (R90). -/
def cmpHolds (cc : Nat) (a b : Word) : Bool :=
  match cc with
  | 0 => a == b
  | 1 => a != b
  | 2 => a.slt b
  | 3 => !a.slt b
  | 4 => !b.slt a
  | 5 => b.slt a
  | 6 => a.ult b
  | 7 => !a.ult b
  | 8 => !b.ult a
  | _ => b.ult a

/-- A mask of the `n` low bits. -/
def lowMask (n : Nat) : Word := word (2 ^ n - 1)

/-- Bits [n − 1 : 0] sign-extended or zero-extended; n is at least 1 (R94, R95). -/
def keepLow (signed : Bool) (a : Word) (n : Nat) : Word :=
  let f := a &&& lowMask n
  if signed && a.getLsbD (n - 1) then f ||| ~~~lowMask n else f

/-- `BFX` (R94). -/
def bitsOut (signed : Bool) (a : Word) (p w : Nat) : Word := keepLow signed (a >>> p) w

/-- `BFI` (R94): the field is replaced, and what lands above bit 63 is dropped. -/
def bitsIn (old a : Word) (p w : Nat) : Word := (old &&& ~~~(lowMask w <<< p)) ||| ((a &&& lowMask w) <<< p)

/-- A scalar instruction with two sources (R88). -/
def aluTwo (s : State) (b : Bay2) (d x y : Opd) (f : Word → Word → Word) : Host.Outcome State Fault Refusal :=
  bayOp s [.s x, .s y] [.s d] (fun t => wrS t b d (f (rdS s x) (rdS s y)))

/-- A scalar instruction with one source (R88). -/
def aluOne (s : State) (b : Bay2) (d x : Opd) (f : Word → Word) : Host.Outcome State Fault Refusal :=
  bayOp s [.s x] [.s d] (fun t => wrS t b d (f (rdS s x)))

/-- `ADD` (R88). -/
def execAdd (b : Bay2) (d x y : Opd) (s : State) : Host.Outcome State Fault Refusal := aluTwo s b d x y (fun a b => a + b)

/-- `SUB` (R88). -/
def execSub (b : Bay2) (d x y : Opd) (s : State) : Host.Outcome State Fault Refusal := aluTwo s b d x y (fun a b => a - b)

/-- `MUL` (R88). -/
def execMul (b : Bay2) (d x y : Opd) (s : State) : Host.Outcome State Fault Refusal := aluTwo s b d x y (fun a b => a * b)

/-- `MULH` (R88). -/
def execMulh (b : Bay2) (d x y : Opd) (s : State) : Host.Outcome State Fault Refusal := aluTwo s b d x y (fun a b => mulHigh a b)

/-- `MULHN` (R88). -/
def execMulhn (b : Bay2) (d x y : Opd) (s : State) : Host.Outcome State Fault Refusal := aluTwo s b d x y (fun a b => mulHighN a b)

/-- `DIV` (R88, R89). -/
def execDiv (b : Bay2) (d x y : Opd) (s : State) : Host.Outcome State Fault Refusal := aluTwo s b d x y (fun a b => divS a b)

/-- `DIVN` (R88, R89). -/
def execDivn (b : Bay2) (d x y : Opd) (s : State) : Host.Outcome State Fault Refusal := aluTwo s b d x y (fun a b => divN a b)

/-- `REM` (R88, R89). -/
def execRem (b : Bay2) (d x y : Opd) (s : State) : Host.Outcome State Fault Refusal := aluTwo s b d x y (fun a b => remS a b)

/-- `REMN` (R88, R89). -/
def execRemn (b : Bay2) (d x y : Opd) (s : State) : Host.Outcome State Fault Refusal := aluTwo s b d x y (fun a b => remN a b)

/-- `AND` (R88). -/
def execAnd (b : Bay2) (d x y : Opd) (s : State) : Host.Outcome State Fault Refusal := aluTwo s b d x y (fun a b => a &&& b)

/-- `OR` (R88). -/
def execOr (b : Bay2) (d x y : Opd) (s : State) : Host.Outcome State Fault Refusal := aluTwo s b d x y (fun a b => a ||| b)

/-- `XOR` (R88). -/
def execXor (b : Bay2) (d x y : Opd) (s : State) : Host.Outcome State Fault Refusal := aluTwo s b d x y (fun a b => a ^^^ b)

/-- `ANDN` (R88). -/
def execAndn (b : Bay2) (d x y : Opd) (s : State) : Host.Outcome State Fault Refusal := aluTwo s b d x y (fun a b => a &&& ~~~b)

/-- `ORN` (R88). -/
def execOrn (b : Bay2) (d x y : Opd) (s : State) : Host.Outcome State Fault Refusal := aluTwo s b d x y (fun a b => a ||| ~~~b)

/-- `SHL` (R88). -/
def execShl (b : Bay2) (d x y : Opd) (s : State) : Host.Outcome State Fault Refusal := aluTwo s b d x y (fun a b => a <<< shiftOf b)

/-- `SHRL` (R88). -/
def execShrl (b : Bay2) (d x y : Opd) (s : State) : Host.Outcome State Fault Refusal := aluTwo s b d x y (fun a b => a >>> shiftOf b)

/-- `SHRA` (R88). -/
def execShra (b : Bay2) (d x y : Opd) (s : State) : Host.Outcome State Fault Refusal := aluTwo s b d x y (fun a b => a.sshiftRight (shiftOf b))

/-- `ROTL` (R88). -/
def execRotl (b : Bay2) (d x y : Opd) (s : State) : Host.Outcome State Fault Refusal := aluTwo s b d x y (fun a b => a.rotateLeft (shiftOf b))

/-- `ROTR` (R88). -/
def execRotr (b : Bay2) (d x y : Opd) (s : State) : Host.Outcome State Fault Refusal := aluTwo s b d x y (fun a b => a.rotateRight (shiftOf b))

/-- `MIN` (R88). -/
def execMin (b : Bay2) (d x y : Opd) (s : State) : Host.Outcome State Fault Refusal := aluTwo s b d x y (fun a b => if a.slt b then a else b)

/-- `MAX` (R88). -/
def execMax (b : Bay2) (d x y : Opd) (s : State) : Host.Outcome State Fault Refusal := aluTwo s b d x y (fun a b => if a.slt b then b else a)

/-- `MINN` (R88). -/
def execMinn (b : Bay2) (d x y : Opd) (s : State) : Host.Outcome State Fault Refusal := aluTwo s b d x y (fun a b => if a.ult b then a else b)

/-- `MAXN` (R88). -/
def execMaxn (b : Bay2) (d x y : Opd) (s : State) : Host.Outcome State Fault Refusal := aluTwo s b d x y (fun a b => if a.ult b then b else a)

/-- `CLZ` (R88). -/
def execClz (b : Bay2) (d x : Opd) (s : State) : Host.Outcome State Fault Refusal := aluOne s b d x (fun a => word (leadingZeros a))

/-- `CTZ` (R88). -/
def execCtz (b : Bay2) (d x : Opd) (s : State) : Host.Outcome State Fault Refusal := aluOne s b d x (fun a => word (trailingZeros a))

/-- `POPC` (R88). -/
def execPopc (b : Bay2) (d x : Opd) (s : State) : Host.Outcome State Fault Refusal := aluOne s b d x (fun a => word (onesIn a))

/-- `MOV` (R88). -/
def execMov (b : Bay2) (d x : Opd) (s : State) : Host.Outcome State Fault Refusal := aluOne s b d x (fun a => a)

/-- `CMP` (R90). -/
def execCmp (b : Bay2) (cc : BitVec 4) (d x y : Opd) (s : State) : Host.Outcome State Fault Refusal :=
  aluTwo s b d x y (fun a b => if cmpHolds cc.toNat a b then 1 else 0)

/-- `SEL` (R91): all three sources are read, and their pops apply, whichever is chosen. -/
def execSel (b : Bay2) (d c x y : Opd) (s : State) : Host.Outcome State Fault Refusal :=
  bayOp s [.s x, .s y, .s c] [.s d] (fun t => wrS t b d (if rdS s c ≠ 0 then rdS s x else rdS s y))

/-- `ADDI` (R92). -/
def execAddi (b : Bay2) (d x : Opd) (imm : BitVec 20) (s : State) : Host.Outcome State Fault Refusal :=
  aluOne s b d x (fun a => a + imm.signExtend 64)

/-- `LI` (R92). -/
def execLi (b : Bay2) (d : Opd) (imm : BitVec 20) (s : State) : Host.Outcome State Fault Refusal :=
  bayOp s [] [.s d] (fun t => wrS t b d (imm.signExtend 64))

/-- `LUI` (R92). -/
def execLui (b : Bay2) (d x : Opd) (imm : BitVec 20) (s : State) : Host.Outcome State Fault Refusal :=
  aluOne s b d x (fun a => (a <<< 20) ||| imm.zeroExtend 64)

/-- `LEA` (R93). -/
def execLea (b : Bay2) (d x y : Opd) (scale : BitVec 3) (off : BitVec 7) (s : State) : Host.Outcome State Fault Refusal :=
  aluTwo s b d x y (fun a b => a + (b <<< scale.toNat) + off.signExtend 64)

/-- `BFX` (R94). -/
def execBfx (b : Bay2) (d x p : Opd) (sx : Bool) (w : BitVec 6) (s : State) : Host.Outcome State Fault Refusal :=
  aluTwo s b d x p (fun a q => bitsOut sx a (shiftOf q) (w.toNat + 1))

/-- `BFI` (R94): the destination is a third source. -/
def execBfi (b : Bay2) (d x p : Opd) (w : BitVec 6) (s : State) : Host.Outcome State Fault Refusal :=
  bayOp s [.s x, .s p, .s d] [.s d] (fun t => wrS t b d (bitsIn (rdS s d) (rdS s x) (shiftOf (rdS s p)) (w.toNat + 1)))

/-- `SEXT` (R95). -/
def execSext (b : Bay2) (d x : Opd) (n : BitVec 6) (s : State) : Host.Outcome State Fault Refusal :=
  aluOne s b d x (fun a => keepLow true a (n.toNat + 1))

/-- `ZEXT` (R95). -/
def execZext (b : Bay2) (d x : Opd) (n : BitVec 6) (s : State) : Host.Outcome State Fault Refusal :=
  aluOne s b d x (fun a => keepLow false a (n.toNat + 1))

end Sys2Proof.Machine
end

