-- ==== Sys2Proof/Machine/Vector.lean ====
section
/-!
DEFINITION. The VX bay (R119 to R140).
-/

namespace Sys2Proof.Machine

/-! ### Elements -/

/-- Element e of w bits. -/
def elem (v : VReg) (w e : Nat) : Nat := v.toNat / 2 ^ (w * e) % 2 ^ w

/-- The floating-point format of a TYPE code (R68). -/
def tyFmt : Nat → FFmt
  | 0 => fmtF32
  | 1 => fmtBF16
  | 2 => fmtF16
  | 11 => fmtE4M3
  | _ => fmtE5M2

/-- Whether a TYPE code is a floating-point format. -/
def tyFloat (ty : Nat) : Bool := decide (ty < 3) || ty == 11 || ty == 12

/-- Whether an integer TYPE code is signed (R119). -/
def tySigned (ty : Nat) : Bool := ty % 2 == 1

/-- A register built element by element. An element that is not computed keeps what `old` holds; the flags of those that
are computed are joined. -/
def build (w n : Nat) (old : VReg) (f : Nat → Option (Nat × FFlags)) : VReg × FFlags :=
  let r := (List.range n).foldr (fun e (acc : Nat × FFlags) =>
    match f e with
    | some x => (acc.1 * 2 ^ w + x.1 % 2 ^ w, acc.2 ||| x.2)
    | none => (acc.1 * 2 ^ w + elem old w e, acc.2)) (0, 0)
  (BitVec.ofNat 2048 r.1, r.2)

/-- The same over the elements of active lanes (R121). -/
def buildActive (m : LaneMask) (w : Nat) (old : VReg) (f : Nat → Nat × FFlags) : VReg × FFlags :=
  build w (2048 / w) old (fun e => if m.getLsbD (w * e / 32) then some (f e) else none)

/-- A vector instruction whose result is a register: pops, the result and its flags four cycles after issue (R40, R122). -/
def vecOp (s : State) (d : Opd) (us : List Opd) (r : VReg × FFlags) : Host.Outcome State Fault Refusal :=
  bayOp s (us.map .v) [.v d] (fun t => (wrV t d r.1).onTask t.cur (fun k => k.queueFlags (t.now + 4) r.2))

/-- An instruction over the elements of one source. -/
def vecMap1 (s : State) (h : VHdr) (d a : Opd) (f : Nat → Nat × FFlags) : Host.Outcome State Fault Refusal :=
  let ty := h.ty.toNat
  let va := rdV s false ty a
  vecOp s d [a] (buildActive (activeMask s h) (tyWidth ty) (oldV s d) (fun e => f (elem va (tyWidth ty) e)))

/-- An instruction over the elements of two sources. -/
def vecMap2 (s : State) (h : VHdr) (bitwise : Bool) (d a b : Opd) (f : Nat → Nat → Nat × FFlags) :
    Host.Outcome State Fault Refusal :=
  let ty := h.ty.toNat
  let w := tyWidth ty
  let va := rdV s bitwise ty a
  let vb := rdV s bitwise ty b
  vecOp s d [a, b] (buildActive (activeMask s h) w (oldV s d) (fun e => f (elem va w e) (elem vb w e)))

/-- An instruction over the elements of three sources. -/
def vecMap3 (s : State) (h : VHdr) (d a b c : Opd) (f : Nat → Nat → Nat → Nat × FFlags) : Host.Outcome State Fault Refusal :=
  let ty := h.ty.toNat
  let w := tyWidth ty
  let va := rdV s false ty a
  let vb := rdV s false ty b
  let vc := rdV s false ty c
  vecOp s d [a, b, c] (buildActive (activeMask s h) w (oldV s d) (fun e => f (elem va w e) (elem vb w e) (elem vc w e)))

/-! ### Arithmetic (R124, R125) -/

/-- An exact integer result, wrapped or clamped (R124, R32). -/
def narrowInt (ty : Nat) (sat : Bool) (v : Int) : Nat × FFlags :=
  let w := tyWidth ty
  (if sat then ofInt w (clampInt (tySigned ty) w v) else ofInt w v, 0)

/-- An element as an integer of its type. -/
def tyInt (ty v : Nat) : Int := intOf (tySigned ty) (tyWidth ty) v

def addElem (ty rm : Nat) (sat : Bool) (a b : Nat) : Nat × FFlags :=
  if tyFloat ty then fadd (tyFmt ty) rm a b else narrowInt ty sat (tyInt ty a + tyInt ty b)
def subElem (ty rm : Nat) (sat : Bool) (a b : Nat) : Nat × FFlags :=
  if tyFloat ty then fsub (tyFmt ty) rm a b else narrowInt ty sat (tyInt ty a - tyInt ty b)
def mulElem (ty rm : Nat) (sat : Bool) (a b : Nat) : Nat × FFlags :=
  if tyFloat ty then fmul (tyFmt ty) rm a b else narrowInt ty sat (tyInt ty a * tyInt ty b)
def maxElem (ty : Nat) (a b : Nat) : Nat :=
  if tyFloat ty then fminmax (tyFmt ty) true a b else if tyInt ty a < tyInt ty b then b else a
def minElem (ty : Nat) (a b : Nat) : Nat :=
  if tyFloat ty then fminmax (tyFmt ty) false a b else if tyInt ty a < tyInt ty b then a else b

/-- `VADD` (R124). -/
def execVadd (h : VHdr) (d a b : Opd) (sat : Bool) (s : State) : Host.Outcome State Fault Refusal :=
  vecMap2 s h false d a b (addElem h.ty.toNat h.rnd.toNat sat)

/-- `VSUB` (R124). -/
def execVsub (h : VHdr) (d a b : Opd) (sat : Bool) (s : State) : Host.Outcome State Fault Refusal :=
  vecMap2 s h false d a b (subElem h.ty.toNat h.rnd.toNat sat)

/-- `VMUL` (R124). -/
def execVmul (h : VHdr) (d a b : Opd) (sat : Bool) (s : State) : Host.Outcome State Fault Refusal :=
  vecMap2 s h false d a b (mulElem h.ty.toNat h.rnd.toNat sat)

/-- `VFMA` (R124). -/
def execVfma (h : VHdr) (d a b c : Opd) (s : State) : Host.Outcome State Fault Refusal :=
  vecMap3 s h d a b c (ffma (tyFmt h.ty.toNat) h.rnd.toNat false)

/-- `VFMS` (R124). -/
def execVfms (h : VHdr) (d a b c : Opd) (s : State) : Host.Outcome State Fault Refusal :=
  vecMap3 s h d a b c (ffma (tyFmt h.ty.toNat) h.rnd.toNat true)

/-- `VNEG` (R124). -/
def execVneg (h : VHdr) (d a : Opd) (sat : Bool) (s : State) : Host.Outcome State Fault Refusal :=
  vecMap1 s h d a (fun x =>
    if tyFloat h.ty.toNat then (fneg (tyFmt h.ty.toNat) x, 0) else narrowInt h.ty.toNat sat (-(tyInt h.ty.toNat x)))

/-- `VABS` (R124). -/
def execVabs (h : VHdr) (d a : Opd) (sat : Bool) (s : State) : Host.Outcome State Fault Refusal :=
  vecMap1 s h d a (fun x =>
    if tyFloat h.ty.toNat then (fabs (tyFmt h.ty.toNat) x, 0) else narrowInt h.ty.toNat sat (tyInt h.ty.toNat x).natAbs)

/-- `VMIN` (R124). -/
def execVmin (h : VHdr) (d a b : Opd) (s : State) : Host.Outcome State Fault Refusal :=
  vecMap2 s h false d a b (fun x y => (minElem h.ty.toNat x y, 0))

/-- `VMAX` (R124). -/
def execVmax (h : VHdr) (d a b : Opd) (s : State) : Host.Outcome State Fault Refusal :=
  vecMap2 s h false d a b (fun x y => (maxElem h.ty.toNat x y, 0))

/-- `VRCP` (R125). -/
def execVrcp (h : VHdr) (d a : Opd) (s : State) : Host.Outcome State Fault Refusal :=
  vecMap1 s h d a (frcp (tyFmt h.ty.toNat) h.rnd.toNat)

/-- `VRSQ` (R125). -/
def execVrsq (h : VHdr) (d a : Opd) (s : State) : Host.Outcome State Fault Refusal :=
  vecMap1 s h d a (frsq (tyFmt h.ty.toNat) h.rnd.toNat)

/-- `VSQRT` (R125). -/
def execVsqrt (h : VHdr) (d a : Opd) (s : State) : Host.Outcome State Fault Refusal :=
  vecMap1 s h d a (fsqrt (tyFmt h.ty.toNat) h.rnd.toNat)

/-- `VLOG2` (R125). -/
def execVlog2 (h : VHdr) (d a : Opd) (s : State) : Host.Outcome State Fault Refusal :=
  vecMap1 s h d a (flog2 (tyFmt h.ty.toNat) h.rnd.toNat)

/-- kexp2 in a type: the source widened exactly to FP32, the result rounded with RNE (R125). -/
def expElem (f : FFmt) (x : Nat) : Nat × FFlags :=
  let r := kexp2 (fcvt f fmtF32 0 x).1
  let q := fcvt fmtF32 f 0 r.1
  (q.1, r.2 ||| q.2)

/-- `VEXP2` (R125). -/
def execVexp2 (h : VHdr) (d a : Opd) (s : State) : Host.Outcome State Fault Refusal :=
  vecMap1 s h d a (expElem (tyFmt h.ty.toNat))

/-! ### Compare, select, bitwise, shifts (R126, R127) -/

/-- Whether a condition of `VCMP` holds (R126). -/
def vcmpHolds (cc ty a b : Nat) : Bool :=
  let f := tyFmt ty
  if tyFloat ty && (f.isNan a || f.isNan b) then cc == 1 || cc == 6
  else
    let c : Int := if tyFloat ty then cmpVal (f.decode a) (f.decode b) else tyInt ty a - tyInt ty b
    match cc with
    | 0 => decide (c = 0)
    | 1 => decide (c ≠ 0)
    | 2 => decide (c < 0)
    | 3 => decide (c ≤ 0)
    | 4 => decide (0 < c)
    | 5 => decide (0 ≤ c)
    | _ => false

/-- A lane mask from a test of each lane. -/
def maskOf (f : Nat → Bool) : LaneMask := BitVec.ofNat 64 ((List.range 64).foldr (fun i acc => 2 * acc + (if f i then 1 else 0)) 0)

/-- `VCMP` (R126): the destination and the mask named in MOD. -/
def execVcmp (h : VHdr) (d a b : Opd) (mw : BitVec 3) (cc : BitVec 4) (s : State) : Host.Outcome State Fault Refusal :=
  let ty := h.ty.toNat
  let w := tyWidth ty
  let va := rdV s false ty a
  let vb := rdV s false ty b
  let act := activeMask s h
  let holds (e : Nat) : Bool := vcmpHolds cc.toNat ty (elem va w e) (elem vb w e)
  let r := buildActive act w (oldV s d) (fun e => (if holds e then 2 ^ w - 1 else 0, 0))
  let k := 32 / w
  let m := maskOf (fun i => act.getLsbD i && (List.range k).all (fun j => holds (k * i + j)))
  bayOp s [.v a, .v b] [.v d] (fun t => wrM (wrV t d r.1) mw.toNat m)

/-- `VSEL` (R127). -/
def execVsel (h : VHdr) (d a b c : Opd) (s : State) : Host.Outcome State Fault Refusal :=
  vecMap3 s h d a b c (fun x y z => (if z ≠ 0 then x else y, 0))

/-- `VAND` (R127). -/
def execVand (h : VHdr) (d a b : Opd) (s : State) : Host.Outcome State Fault Refusal :=
  vecMap2 s h true d a b (fun x y => (Nat.land x y, 0))

/-- `VOR` (R127). -/
def execVor (h : VHdr) (d a b : Opd) (s : State) : Host.Outcome State Fault Refusal :=
  vecMap2 s h true d a b (fun x y => (Nat.lor x y, 0))

/-- `VXOR` (R127). -/
def execVxor (h : VHdr) (d a b : Opd) (s : State) : Host.Outcome State Fault Refusal :=
  vecMap2 s h true d a b (fun x y => (Nat.xor x y, 0))

/-- `VNOT` (R127). -/
def execVnot (h : VHdr) (d a : Opd) (s : State) : Host.Outcome State Fault Refusal :=
  let w := tyWidth h.ty.toNat
  let va := rdV s true h.ty.toNat a
  vecOp s d [a] (buildActive (activeMask s h) w (oldV s d) (fun e => (2 ^ w - 1 - elem va w e, 0)))

/-- `VSHL` (R127). -/
def execVshl (h : VHdr) (d a b : Opd) (s : State) : Host.Outcome State Fault Refusal :=
  let w := tyWidth h.ty.toNat
  vecMap2 s h false d a b (fun x y => (x * 2 ^ (y % w), 0))

/-- `VSHR` (R127). -/
def execVshr (h : VHdr) (d a b : Opd) (s : State) : Host.Outcome State Fault Refusal :=
  let w := tyWidth h.ty.toNat
  vecMap2 s h false d a b (fun x y => (x / 2 ^ (y % w), 0))

/-- `VSHRA` (R127): the sign bit is bit w − 1, whatever the type. -/
def execVshra (h : VHdr) (d a b : Opd) (s : State) : Host.Outcome State Fault Refusal :=
  let w := tyWidth h.ty.toNat
  vecMap2 s h false d a b (fun x y => (ofInt w (intOf true w x / 2 ^ (y % w)), 0))

/-! ### Conversion (R128, R129) -/

/-- One element from a type to another (R128, R32, R33): between integers, a wider destination takes the source extended by
the source's signedness, any other saturates. -/
def cvtElem (src dst rm x : Nat) : Nat × FFlags :=
  if src = dst then (x, 0)
  else
    match tyFloat src, tyFloat dst with
    | true, true => fcvt (tyFmt src) (tyFmt dst) rm x
    | true, false => fToInt (tyFmt src) rm (tySigned dst) (tyWidth dst) x
    | false, true => intToF (tyFmt dst) rm (tyInt src x)
    | false, false =>
      if tyWidth src < tyWidth dst then (ofInt (tyWidth dst) (tyInt src x), 0)
      else (ofInt (tyWidth dst) (clampInt (tySigned dst) (tyWidth dst) (tyInt src x)), 0)

/-- The magnitude bits of a GQ TYPE code (R34, R68). -/
def gqTyBits (ty : Nat) : Nat := if ty = 13 then 2 else 4

/-- `VCVT` between element types: n elements at P · n of the wider side (R128). An immediate source is broadcast by the source
type (notes/assumptions/106). -/
def cvtPlain (s : State) (h : VHdr) (d a : Opd) (p src : Nat) : VReg × FFlags :=
  let dst := h.ty.toNat
  let es := tyCount src
  let ed := tyCount dst
  let n := min es ed
  let va := rdV s false src a
  let act := activeMask s h
  let wd := tyWidth dst
  build wd ed (oldV s d) (fun e =>
    if !act.getLsbD (wd * e / 32) then none
    else if ed > n then
      if p * n ≤ e ∧ e < p * n + n then some (cvtElem src dst h.rnd.toNat (elem va (tyWidth src) (e - p * n))) else none
    else some (cvtElem src dst h.rnd.toNat (elem va (tyWidth src) (if es > n then p * n + e else e))))

/-- `VCVT` into GQ blocks (R128, R36). -/
def cvtToGq (s : State) (h : VHdr) (a : Opd) (src : Nat) : VReg × FFlags :=
  let b := gqTyBits h.ty.toNat
  let va := rdV s false src a
  let f := tyFmt src
  let blocks := (List.range (tyCount src / 16)).map (fun i =>
    gqEncode b h.rnd.toNat ((List.range 16).map (fun j => f.decode (elem va (tyWidth src) (16 * i + j)))))
  (BitVec.ofNat 2048 (blocks.foldr (fun x acc => x.1 + acc * 2 ^ (8 * gqBytes b)) 0), blocks.foldl (fun acc x => acc ||| x.2) 0)

/-- `VCVT` from GQ blocks (R128, R35). An immediate source is the same 32-bit pattern, its value sign-extended, in every lane
(notes/assumptions/107). -/
def cvtFromGq (s : State) (h : VHdr) (d a : Opd) (src : Nat) : VReg × FFlags :=
  let b := gqTyBits src
  let va := rdV s true 0 a
  let f := tyFmt h.ty.toNat
  buildActive (activeMask s h) (tyWidth h.ty.toNat) (oldV s d) (fun e =>
    let blk := va.toNat / 2 ^ (8 * gqBytes b * (e / 16)) % 2 ^ (8 * gqBytes b)
    let v := gqDecode b blk (e % 16)
    let r := f.ofVal h.rnd.toNat v.1
    (r.1, r.2 ||| v.2))

/-- `VCVT` (R128). -/
def execVcvt (h : VHdr) (d a : Opd) (p : BitVec 3) (src : BitVec 4) (s : State) : Host.Outcome State Fault Refusal :=
  let dt := h.ty.toNat
  let st := src.toNat
  vecOp s d [a]
    (if 13 ≤ dt ∧ st = dt then
      let keep := if dt = 13 then 256 else 252
      (BitVec.ofNat 2048 ((rdV s true 0 a).toNat % 2 ^ (8 * keep)), 0)
    else if 13 ≤ dt then cvtToGq s h a st
    else if 13 ≤ st then cvtFromGq s h d a st
    else cvtPlain s h d a p.toNat st)

/-- One element of `VQUANT` (R129). -/
def quantElem (ty rm : Nat) (fp : Bool) (x f z : Nat) : Nat × FFlags :=
  let w := tyWidth ty
  let vx : FVal := if fp then fmtF32.decode x else
    let i := intOf true 32 x
    .fin (decide (i < 0)) i.natAbs 0
  let vf := fmtF32.decode f
  let zp := intOf true 32 z
  let fin (y : Int) (fl : FFlags) : Nat × FFlags :=
    let r := y + zp
    let c := clampInt (tySigned ty) w r
    (ofInt w c, fl ||| (if c = r then 0 else flIV))
  match vx, vf with
  | .nan, _ => fin 0 flIV
  | _, .nan => fin 0 flIV
  | _, _ =>
    match (mulVal vx vf).1 with
    | .nan => fin 0 flIV
    | .inf n => (ofInt w (if n then intMin (tySigned ty) w else intMax (tySigned ty) w), flIV)
    | .fin n m e =>
      let (y, nx) := roundInt rm n m e
      fin y (if nx then flNX else 0)

/-- `VQUANT` (R129): lane i of the source goes to element P · 64 + i of the destination. Immediate sources are broadcast by the
type each is read as: FP32 or I32, FP32, I32 (notes/assumptions/106). -/
def execVquant (h : VHdr) (d a sc z : Opd) (p : BitVec 3) (fp : Bool) (s : State) : Host.Outcome State Fault Refusal :=
  let ty := h.ty.toNat
  let va := rdV s false (if fp then 0 else 3) a
  let vs := rdV s false 0 sc
  let vz := rdV s false 3 z
  let act := activeMask s h
  vecOp s d [a, sc, z] (build (tyWidth ty) (tyCount ty) (oldV s d) (fun e =>
    let i := e - p.toNat * 64
    if p.toNat * 64 ≤ e ∧ i < 64 ∧ act.getLsbD i then some (quantElem ty h.rnd.toNat fp (elem va 32 i) (elem vs 32 i) (elem vz 32 i))
    else none))

/-! ### Reductions and scans (R130, R131, R41, R42) -/

/-- One level of the tree: neighbours are combined, and an absent one takes no part. An element whose neighbour is absent
passes with its bits as they are, a NaN too (notes/assumptions/103). -/
def pairUp (op : Nat → Nat → Nat × FFlags) : List (Option Nat) → List (Option Nat) × FFlags
  | some a :: some c :: l => let r := pairUp op l; (some (op a c).1 :: r.1, (op a c).2 ||| r.2)
  | some a :: none :: l => let r := pairUp op l; (some a :: r.1, r.2)
  | none :: x :: l => let r := pairUp op l; (x :: r.1, r.2)
  | l => (l, 0)

/-- The tree of R41, level by level. A lone NaN element comes out with its bits as they are (notes/assumptions/103). -/
def treeReduce (op : Nat → Nat → Nat × FFlags) : Nat → List (Option Nat) → FFlags → Option Nat × FFlags
  | 0, l, fl => (l.headD none, fl)
  | k + 1, l, fl => let r := pairUp op l; treeReduce op k r.1 (fl ||| r.2)

/-- A reduction (R130): the tree computes in `ct`, and the result fills elements of `ct`. -/
def reduce (s : State) (h : VHdr) (a : Opd) (wide : Bool) (op : Nat → Nat → Nat → Nat × FFlags) (empty : Nat → Nat) :
    VReg × FFlags :=
  let ty := h.ty.toNat
  let w := tyWidth ty
  let ct := if wide && decide (w < 32) then (if tyFloat ty then 0 else if tySigned ty then 3 else 4) else ty
  let cw := tyWidth ct
  let va := rdV s false ty a
  let act := activeMask s h
  let els := (List.range (tyCount ty)).map (fun e =>
    if act.getLsbD (w * e / 32) then some (cvtElem ty ct 0 (elem va w e)) else none)
  let r := treeReduce (op ct) 9 (els.map (fun x => x.map Prod.fst)) 0
  let v := r.1.getD (empty ct)
  (BitVec.ofNat 2048 (splat cw (2048 / cw) v), r.2)

/-- `VREDSUM` (R130). -/
def execVredsum (h : VHdr) (d a : Opd) (w sat : Bool) (s : State) : Host.Outcome State Fault Refusal :=
  vecOp s d [a] (reduce s h a w (fun ct => addElem ct h.rnd.toNat sat) (fun _ => 0))

/-- `VREDMAX` (R130). -/
def execVredmax (h : VHdr) (d a : Opd) (w : Bool) (s : State) : Host.Outcome State Fault Refusal :=
  vecOp s d [a] (reduce s h a w (fun ct x y => (maxElem ct x y, 0)) (fun ct =>
    if tyFloat ct then (tyFmt ct).infBits true else ofInt (tyWidth ct) (intMin (tySigned ct) (tyWidth ct))))

/-- `VREDMIN` (R130). -/
def execVredmin (h : VHdr) (d a : Opd) (w : Bool) (s : State) : Host.Outcome State Fault Refusal :=
  vecOp s d [a] (reduce s h a w (fun ct x y => (minElem ct x y, 0)) (fun ct =>
    if tyFloat ct then (tyFmt ct).infBits false else ofInt (tyWidth ct) (intMax (tySigned ct) (tyWidth ct))))

/-- The running values of a scan, in ascending element order (R42): what each selected element receives. The first selected
element starts the running value and receives itself, where element 0 is masked off too (notes/assumptions/104), a NaN with
its bits as they are (notes/assumptions/103). -/
def scanVals (op : Nat → Nat → Nat × FFlags) : Option Nat → List (Option Nat) → List (Option (Nat × FFlags))
  | _, [] => []
  | run, none :: l => none :: scanVals op run l
  | none, some x :: l => some (x, 0) :: scanVals op (some x) l
  | some r, some x :: l => some (op r x) :: scanVals op (some (op r x).1) l

/-- `VSCAN` (R131). -/
def execVscan (h : VHdr) (d a : Opd) (sat : Bool) (op : BitVec 2) (s : State) : Host.Outcome State Fault Refusal :=
  let ty := h.ty.toNat
  let w := tyWidth ty
  let va := rdV s false ty a
  let act := activeMask s h
  let f : Nat → Nat → Nat × FFlags :=
    if op = 0 then addElem ty h.rnd.toNat sat
    else if op = 1 then fun x y => (maxElem ty x y, 0)
    else fun x y => (minElem ty x y, 0)
  let vals := scanVals f none ((List.range (tyCount ty)).map (fun e =>
    if act.getLsbD (w * e / 32) then some (elem va w e) else none))
  let r := vals.foldr (fun x (acc : Nat × FFlags × Nat) =>
    match x with
    | some v => (acc.1 * 2 ^ w + v.1 % 2 ^ w, acc.2.1 ||| v.2, acc.2.2 - 1)
    | none => (acc.1 * 2 ^ w + elem (oldV s d) w (acc.2.2 - 1), acc.2.1, acc.2.2 - 1)) (0, 0, tyCount ty)
  vecOp s d [a] (BitVec.ofNat 2048 r.1, r.2.1)

/-! ### Permutes and sequences (R132) -/

/-- `VPERM` (R132). -/
def execVperm (h : VHdr) (d a idx : Opd) (s : State) : Host.Outcome State Fault Refusal :=
  let va := rdV s false h.ty.toNat a
  let vi := rdV s false h.ty.toNat idx
  vecOp s d [a, idx] (buildActive (activeMask s h) 32 (oldV s d) (fun i => (elem va 32 (elem vi 32 i % 64), 0)))

/-- `VBCAST` (R132). -/
def execVbcast (h : VHdr) (d a n : Opd) (s : State) : Host.Outcome State Fault Refusal :=
  let ty := h.ty.toNat
  let w := tyWidth ty
  let x := elem (rdV s false ty a) w ((rdLane0 s ty n).toNat % tyCount ty)
  vecOp s d [a, n] (buildActive (activeMask s h) w (oldV s d) (fun _ => (x, 0)))

/-- `VSLIDE` (R132). -/
def execVslide (h : VHdr) (d a b c : Opd) (s : State) : Host.Outcome State Fault Refusal :=
  let ty := h.ty.toNat
  let va := rdV s false ty a
  let vb := rdV s false ty b
  let k := (rdLane0 s ty c).toNat % 64
  vecOp s d [a, b, c] (buildActive (activeMask s h) 32 (oldV s d) (fun i =>
    (if i + k < 64 then elem va 32 (i + k) else elem vb 32 (i + k - 64), 0)))

/-- `VIOTA` (R132). -/
def execViota (h : VHdr) (d a b : Opd) (s : State) : Host.Outcome State Fault Refusal :=
  let ty := h.ty.toNat
  let x := (rdLane0 s ty a).toInt
  let y := (rdLane0 s ty b).toInt
  vecOp s d [a, b] (buildActive (activeMask s h) (tyWidth ty) (oldV s d) (fun e => (ofInt (tyWidth ty) (x + e * y), 0)))

/-! ### Pack and unpack (R133) -/

/-- `VPACK` (R133). An immediate source is broadcast at the width of TYPE, the destination type (R120, notes/assumptions/105). -/
def execVpack (h : VHdr) (d a b : Opd) (sat : Bool) (s : State) : Host.Outcome State Fault Refusal :=
  let ty := h.ty.toNat
  let w := tyWidth ty
  let half := tyCount ty / 2
  let va := rdV s false ty a
  let vb := rdV s false ty b
  vecOp s d [a, b] (buildActive (activeMask s h) w (oldV s d) (fun j =>
    narrowInt ty sat (intOf (tySigned ty) (2 * w) (if j < half then elem va (2 * w) j else elem vb (2 * w) (j - half)))))

/-- `VUNPACK` (R133). -/
def execVunpack (h : VHdr) (d a : Opd) (p : Bool) (s : State) : Host.Outcome State Fault Refusal :=
  let ty := h.ty.toNat
  let w := tyWidth ty
  let half := tyCount ty / 2
  let va := rdV s false ty a
  vecOp s d [a] (buildActive (activeMask s h) (2 * w) (oldV s d) (fun j =>
    (ofInt (2 * w) (tyInt ty (elem va w (if p then half + j else j))), 0)))

/-! ### Scratchpad (R134 to R136) -/

/-- The four-byte pieces of active lanes pass the buffers' check (R134). -/
def lanesOk (s : State) (m : LaneMask) (a : Nat) (write : Bool) : Bool :=
  (lanesOf m).all (fun i => s.bufOk s.cur (a + 4 * i) 4 (!write) write)

/-- `VLD` (R134). -/
def execVld (h : VHdr) (d a : Opd) (off : BitVec 7) (s : State) : Host.Outcome State Fault Refusal :=
  let x := vecAddr s a off
  let m := activeMask s h
  bayOpF s [.v a] [.v d]
    (firstFault [require (x % 64 == 0) Code.align 0 (x % 2 ^ 57),
                 require (decide (x + 255 ≤ 0x2FFFFF)) Code.shapeBounds 0 (x % 2 ^ 57),
                 require (lanesOk s m x false) Code.bufferState 0 (x % 2 ^ 57)])
    (fun t =>
      let v : VReg := BitVec.ofNat 2048 (ofBytes (s.iss.mem.readN (Addr.pad s.cur x) 256))
      let r := buildActive m 32 (oldV s d) (fun i => (elem v 32 i, 0))
      (wrV t d r.1).bayRead x 256 (s.now + 4)) 4

/-- The bytes of a store, those of inactive lanes left out (R134). -/
def storeBytes (m : LaneMask) (v : VReg) : List (Option Byte) :=
  (List.range 256).map (fun k => if m.getLsbD (k / 4) then some (BitVec.ofNat 8 (v.toNat / 2 ^ (8 * k))) else none)

/-- `VST` (R134, R225). -/
def execVst (h : VHdr) (v a : Opd) (off : BitVec 7) (s : State) : Host.Outcome State Fault Refusal :=
  let x := vecAddr s a off
  let m := activeMask s h
  let bs := storeBytes m (rdV s false h.ty.toNat v)
  let own := decide (x + 255 ≤ 0x2FFFFF)
  let mc := decide (0x300000 ≤ x) && decide (x + 255 ≤ 0x3FFFFF)
    && (List.range 4).all (fun j => bitOf (s.window s.cur (x + 64 * j)) 63)
  bayOpF s [.v v, .v a] []
    (firstFault [require (x % 64 == 0) Code.align 0 (x % 2 ^ 57),
                 require (own || mc) Code.shapeBounds 0 (x % 2 ^ 57),
                 require (!own || lanesOk s m x true) Code.bufferState 0 (x % 2 ^ 57)])
    (fun t =>
      if own then
        ((List.range 4).foldl (fun t j => t.noteStore t.cur (t.now + j) true (x + 64 * j) ((bs.drop (64 * j)).take 64)) t).padWrite t.cur x bs
          { t.recBase t.cur with bundle := s.iss.bundle }
      else (List.range 4).foldl (fun t j => t.multicast t.cur (x + 64 * j) (t.now + 6 + j) ((bs.drop (64 * j)).take 64)) t)

/-- `VGATHER` (R135). -/
def execVgather (h : VHdr) (d a idx : Opd) (s : State) : Host.Outcome State Fault Refusal :=
  let as_ := gatherAddrs s h a idx
  let m := activeMask s h
  let lines := sortNat (as_.map (fun p => p.2 / 64))
  let lat := if lines.isEmpty then 4 else 3 + lines.length
  bayOpF s [.v a, .v idx] [.v d]
    (firstFault [(as_.find? (fun p => p.2 % 4 != 0)).map (fun p => (Code.align, 0, p.2 % 2 ^ 57)),
                 (as_.find? (fun p => decide (0x2FFFFF < p.2))).map (fun p => (Code.shapeBounds, 0, p.2 % 2 ^ 57)),
                 (as_.find? (fun p => !s.bufOk s.cur p.2 4 true false)).map (fun p => (Code.bufferState, 0, p.2 % 2 ^ 57))])
    (fun t =>
      let r := buildActive m 32 (oldV s d) (fun i =>
        (ofBytes (s.iss.mem.readN (Addr.pad s.cur ((NMap.find as_ i).getD 0)) 4), 0))
      lines.foldl (fun t l => t.bayRead (64 * l) 64 (s.now + lat)) (wrV t d r.1 lat)) lat

/-- `VMOV` (R137). -/
def execVmov (h : VHdr) (d a : Opd) (s : State) : Host.Outcome State Fault Refusal :=
  let v := rdV s false h.ty.toNat a
  vecOp s d [a] (buildActive (activeMask s h) 32 (oldV s d) (fun i => (elem v 32 i, 0)))

/-! ### Masks (R138) -/

/-- `MAND` (R138). -/
def execMand (md ma mb : BitVec 3) (s : State) : Host.Outcome State Fault Refusal :=
  .next (wrM s md.toNat (s.iss.pre.t.mask ma.toNat &&& s.iss.pre.t.mask mb.toNat))

/-- `MOR` (R138). -/
def execMor (md ma mb : BitVec 3) (s : State) : Host.Outcome State Fault Refusal :=
  .next (wrM s md.toNat (s.iss.pre.t.mask ma.toNat ||| s.iss.pre.t.mask mb.toNat))

/-- `MNOT` (R138). -/
def execMnot (md ma : BitVec 3) (s : State) : Host.Outcome State Fault Refusal :=
  .next (wrM s md.toNat (~~~s.iss.pre.t.mask ma.toNat))

/-- `MPOPC` (R138). -/
def execMpopc (d : Opd) (ma : BitVec 3) (s : State) : Host.Outcome State Fault Refusal :=
  vecOp s d [] (BitVec.ofNat 2048 (splat 32 64 (onesIn (s.iss.pre.t.mask ma.toNat))), 0)

/-! ### The softmax merge (R139) -/

/-- A factor of the merge: omitted for −inf, else kexp2 of the rounded difference (R139, R302). -/
def mergeFactor (mk m : Nat) : Option Nat × FFlags :=
  if mk = 0xFF800000 then (none, 0)
  else
    let d := fsub fmtF32 0 mk m
    let e := kexp2 d.1
    (some e.1, d.2 ||| e.2)

/-- merge of R139. -/
def mergeVal (x1 x2 : Nat) (e1 e2 : Option Nat) : Nat × FFlags :=
  match e1, e2 with
  | none, none => (0, 0)
  | none, some f2 => fmul fmtF32 0 x2 f2
  | some f1, none => fmul fmtF32 0 x1 f1
  | some f1, some f2 =>
    let p := fmul fmtF32 0 x1 f1
    let r := ffma fmtF32 0 false x2 f2 p.1
    (r.1, p.2 ||| r.2)

/-- The shared steps of a merge: the new maximum, whether the result is NaN, the two factors, and their flags. -/
structure MergeHead where
  m : Nat
  bad : Bool
  e1 : Option Nat
  e2 : Option Nat
  flags : FFlags
  deriving DecidableEq, Repr

/-- The shared steps of R139. Both factors are computed and raise their flags whatever `bad` is; IV is raised for an infinite
m alone, and not by the difference inside a factor (notes/assumptions/28). -/
def mergeHead (m1 s1 m2 s2 : Nat) : MergeHead :=
  let m := fminmax fmtF32 true m1 m2
  let nan := [m1, s1, m2, s2].any fmtF32.isNan
  let inf := m == 0x7F800000
  let a := mergeFactor m1 m
  let b := mergeFactor m2 m
  { m := m, bad := nan || inf, e1 := a.1, e2 := b.1,
    flags := (if inf && !nan then flIV else 0) ||| ((a.2 ||| b.2) &&& ~~~flIV) }

/-- `VOSM` (R139). -/
def execVosm (h : VHdr) (d p q st : Opd) (out : Bool) (s : State) : Host.Outcome State Fault Refusal :=
  let vp := rdV s false 0 p
  let vq := rdV s false 0 q
  let vs := rdV s false 0 st
  let hd := mergeHead (elem vs 32 0) (elem vs 32 1) (elem vs 32 2) (elem vs 32 3)
  let act := activeMask s h
  let shared := if out then act.getLsbD 0 || act.getLsbD 1 else act != 0
  let r := buildActive act 32 (oldV s d) (fun i =>
    if out then
      if i = 0 then (if hd.bad then 0x7FC00000 else hd.m, 0)
      else if i = 1 then (if hd.bad then (0x7FC00000, 0) else mergeVal (elem vs 32 1) (elem vs 32 3) hd.e1 hd.e2)
      else (0, 0)
    else if hd.bad then (0x7FC00000, 0)
    else mergeVal (elem vp 32 i) (elem vq 32 i) hd.e1 hd.e2)
  vecOp s d [p, q, st] (r.1, r.2 ||| (if shared then hd.flags else 0))

end Sys2Proof.Machine
end

