-- ==== Sys2Proof/Machine/Matrix.lean ====
section
/-!
DEFINITION. The matrix engines (R141 to R164): commands at issue, the engine sequence of R146 and R147, operand images in bit
planes, the effect of each command on the accumulators, drains, and the SL bay.
-/

namespace Sys2Proof.Machine

/-! ### At issue (R144, R149, R160, R168) -/

/-- Whether an operand is a queue slot. -/
def isChan (o : Opd) : Bool := (Use.s o).chan.isSome

/-- The queue slots that source operands name, in order: each a queue and a counter with its reset count. -/
def slotsRead (s : State) (os : List Opd) : List (Nat × Nat) :=
  os.filterMap (fun o => (Use.s o).chan.map (fun (c : Nat × Nat × Bool) =>
    let q := NMap.get {} s.iss.pre.c.q c.1
    (c.1, q.gen * 65536 + ctr (q.head + c.2.1))))

/-- The scale entries a command captures in its issue cycle (R160). -/
def capScales (s : State) (eng : Bool) (sc : Nat) : List (BitVec 32) :=
  (List.range 16).map (fun n => NMap.get 0 (s.iss.pre.t.eng (if eng then 1 else 0)).scale (sc + n))

/-- An MX command: the slots it reads count as busy (R168), and a channel destination reserves its slot (R167). -/
def mxCmd (s : State) (i : Instr) (os : List Opd) (imgs : List Opd) (scales : List (BitVec 32) := []) (app : Option Nat := none) :
    Host.Outcome State Fault Refusal :=
  cmdOp s i none (fun t =>
    let slots := slotsRead s imgs
    let t := slots.foldl (fun t qc => t.addBusy t.cur qc.1 (qc.2 % 65536) 1) t
    let (res, t) := match app with
      | some q => let r := t.reserveSlot t.cur q; (some (q, r.1, 1), r.2)
      | none => (none, t)
    t.handCmd i { vals := os.map (rdS s), chans := slots, busy := slots, scales := scales, res := res })

/-- `MMA` (R150 to R152). -/
def execMma (h : CmdHdr) (p : MmaPay) (s : State) : Host.Outcome State Fault Refusal :=
  mxCmd s (.mma h p) [p.a, p.b, p.msk] [p.a, p.b]

/-- `MDIST` (R153). -/
def execMdist (h : CmdHdr) (p : MmaPay) (s : State) : Host.Outcome State Fault Refusal :=
  mxCmd s (.mdist h p) [p.a, p.b, p.msk] [p.a, p.b]

/-- `MTOPK` (R154). -/
def execMtopk (h : CmdHdr) (eng : Bool) (fmt dacc sacc : BitVec 5) (base : Opd) (km1 : BitVec 3) (dir init : Bool) (msk : Opd)
    (s : State) : Host.Outcome State Fault Refusal :=
  mxCmd s (.mtopk h eng fmt dacc sacc base km1 dir init msk) [base, msk] []

/-- `MZERO` (R155). -/
def execMzero (h : CmdHdr) (eng : Bool) (amask : BitVec 32) (s : State) : Host.Outcome State Fault Refusal :=
  mxCmd s (.mzero h eng amask) [] []

/-- `MDRAIN` (R156, R157). -/
def execMdrain (h : CmdHdr) (eng : Bool) (fmt acc : BitVec 5) (dst msk : Opd) (mode : BitVec 3) (rnd : BitVec 2) (sc : BitVec 10)
    (za : Bool) (s : State) : Host.Outcome State Fault Refusal :=
  mxCmd s (.mdrain h eng fmt acc dst msk mode rnd sc za) [dst, msk] []
    (if 2 ≤ mode.toNat then capScales s eng sc.toNat else []) (match dst with | .app q => some q.toNat | _ => none)

/-- `MLDACC` (R158). -/
def execMldacc (h : CmdHdr) (eng : Bool) (fmt acc : BitVec 5) (src msk : Opd) (mode : BitVec 3) (bro : Bool) (s : State) :
    Host.Outcome State Fault Refusal :=
  mxCmd s (.mldacc h eng fmt acc src msk mode bro) [src, msk] [src]

/-! ### The SL bay (R159, R160) -/

/-- A write of scale memory on its way: it lands at the end of cycle t + 5. -/
def State.postScale (s : State) (eng : Bool) (entry conv : Nat) (vals : List (BitVec 32)) : State :=
  let w : ScaleWrite := { due := s.now + 5, eng := if eng then 1 else 0, entry := entry, vals := vals, conv := conv }
  (s.onTask s.cur (fun t => { t with sl := t.sl ++ [w] })).postEv (s.now + 5) (.evScaleWriteLand s.cur)

/-- `SLD` (R159): a failed or poisoned line leaves the entries as they are. -/
def execSld (eng : Bool) (entry : BitVec 10) (a : Opd) (size : BitVec 2) (s : State) : Host.Outcome State Fault Refusal :=
  let n := if size = 0 then 4 else if size = 1 then 64 else 256
  let x := (rdS s a).toNat
  bayOpF s [.s a] []
    (firstFault [require (x % n == 0) Code.align 0 (x % 2 ^ 57),
                 require (decide (x + n ≤ 0x300000)) Code.shapeBounds 0 (x % 2 ^ 57),
                 require (s.bufOk s.cur x n true false) Code.bufferState 0 (x % 2 ^ 57)])
    (fun t =>
      let bad := t.padBad t.cur x n
      let t := t.bayRead x n (t.now + 6)
      if bad then t
      else t.postScale eng entry.toNat 3
        ((List.range (n / 4)).map (fun i => BitVec.ofNat 32 (ofBytes (s.iss.mem.readN (Addr.pad s.cur (x + 4 * i)) 4)))))

/-- `SFMT` (R159). -/
def execSfmt (eng : Bool) (entry : BitVec 10) (cv : BitVec 2) (s : State) : Host.Outcome State Fault Refusal :=
  .next (s.postScale eng entry.toNat cv.toNat [])

/-- A scale entry converted in place to FP32 (R159). -/
def convScale (cv v : Nat) : Nat :=
  match cv with
  | 0 => if v % 256 = 255 then 0x7FC00000 else (fmtF32.round 0 false 1 ((v % 256 : Nat) - 127 : Int)).1
  | 1 => (fcvt fmtF16 fmtF32 0 (v % 2 ^ 16)).1
  | _ => (fcvt fmtBF16 fmtF32 0 (v % 2 ^ 16)).1

/-- One write of scale memory. -/
def Engine.writeScale (e : Engine) (w : ScaleWrite) : Engine :=
  let put (m : NMap (BitVec 32)) (i : Nat) (v : BitVec 32) : NMap (BitVec 32) := NMap.put 0 m i v
  if w.conv = 3 then
    { e with scale := (List.range w.vals.length).foldl (fun m i => put m (w.entry + i) (w.vals.getD i 0)) e.scale }
  else
    { e with scale := (List.range 16).foldl (fun m i =>
        put m (w.entry + i) (BitVec.ofNat 32 (convScale w.conv (NMap.get 0 m (w.entry + i)).toNat))) e.scale }

/-- The SL writes that are due land in issue order (R160). -/
def State.scaleLand (s : State) (core : Nat) : State :=
  s.onTask core (fun t =>
    let due := t.sl.filter (fun w => decide (w.due ≤ s.now))
    due.foldl (fun t w => t.onEng w.eng (fun e => e.writeScale w)) { t with sl := t.sl.filter (fun w => decide (s.now < w.due)) })

/-- `SCALE_WRITE_LAND` (R160). -/
def execEvScaleWriteLand (core : Nat) (s : State) : Host.Outcome State Fault Refusal := .next (s.scaleLand core)

/-! ### Operand images (R142, R143) -/

/-- The shape of an image: K, magnitude planes, and what follows them. -/
structure ImgFmt where
  k : Nat
  b : Nat
  sgn : Bool
  ex : Nat
  blk : Bool
  deriving DecidableEq, Repr

/-- The table of R142. FP32 gives one of its BF16 slices (R152). -/
def imgFmt : Nat → ImgFmt
  | 0x00 | 0x01 => ⟨32, 8, false, 0, false⟩
  | 0x02 | 0x03 => ⟨64, 4, false, 0, false⟩
  | 0x0A => ⟨16, 11, true, 5, false⟩
  | 0x0B => ⟨32, 4, true, 4, false⟩
  | 0x0C => ⟨32, 3, true, 5, false⟩
  | 0x0D => ⟨64, 2, true, 2, false⟩
  | 0x0E => ⟨16, 7, true, 0, true⟩
  | 0x0F => ⟨32, 4, true, 0, true⟩
  | 0x10 => ⟨64, 2, true, 0, true⟩
  | _ => ⟨16, 8, true, 8, false⟩

def ImgFmt.planes (f : ImgFmt) : Nat := f.b + (if f.sgn then 1 else 0) + f.ex + (if f.blk then 1 else 0)

/-- The floating-point format of an image's elements. -/
def imgFloat : Nat → FFmt
  | 0x0A => fmtF16
  | 0x0B => fmtE4M3
  | 0x0C => fmtE5M2
  | 0x0D => fmtE2M1
  | _ => fmtBF16

/-- Whether a format code is one of the integer formats of an image. -/
def imgInt (fmt : Nat) : Bool := decide (fmt ≤ 3)

/-- The value of a floating-point element from its planes (R143). -/
def planeFloat (f : FFmt) (neg : Bool) (m ex : Nat) : FVal :=
  let frac := m % 2 ^ f.mb
  if f.hasInf && ex == 2 ^ f.eb - 1 then if frac == 0 then .inf neg else .nan
  else if !f.hasInf && f.hasNan && ex == 2 ^ f.eb - 1 && frac == 2 ^ f.mb - 1 then .nan
  else .fin neg m (f.qmin + (max ex 1 - 1 : Nat))

/-- The value of a GQ element from its block and its magnitude (R35). -/
def planeGq (b sexp trim j : Nat) (neg : Bool) (m : Nat) : FVal × FFlags :=
  if sexp = 255 then (.fin false 0 0, flIV)
  else if sexp = 0 ∨ m = 0 then (.fin false 0 0, 0)
  else (.fin neg m ((sexp : Int) - 127 - (bits trim (2 * (j / 4)) 2 : Nat) - (b - 1 : Nat)), 0)

/-- Element k of a lane (R143): `ws` holds the lane's K bits of each plane that is read, `width` how many magnitude planes. -/
def laneElem (fmt : Nat) (signed : Bool) (width : Nat) (ws : List Nat) (k : Nat) : FVal × FFlags :=
  let f := imgFmt fmt
  let bit (p : Nat) : Nat := bits (ws.getD p 0) k 1
  let mag (n : Nat) : Nat := (List.range n).foldl (fun acc j => acc + bit j * 2 ^ j) 0
  if imgInt fmt then
    let v := intOf signed width (mag width)
    (.fin (decide (v < 0)) v.natAbs 0, 0)
  else
    let m := mag f.b
    let neg := bit f.b == 1
    if f.blk then
      let blk := bits (ws.getD (f.b + 1) 0) (16 * (k / 16)) 16
      planeGq f.b (blk % 256) (blk / 256) (k % 16) neg m
    else
      let ex := (List.range f.ex).foldl (fun acc j => acc + bit (f.b + 1 + j) * 2 ^ j) 0
      (planeFloat (imgFloat fmt) neg m ex, 0)

/-- Where an image or a tile stands (R144): striped or in rows from an address, or packed in a queue slot. -/
structure ImgSrc where
  striped : Bool
  base : Nat
  room : Nat
  deriving DecidableEq, Repr

/-- The slot of operand i of a list, where it is a channel. -/
def nthChan (os : List Opd) (chans : List (Nat × Nat)) (i : Nat) : Option (Nat × Nat) :=
  if isChan (os.getD i .ya) then chans[(os.take i).countP isChan]? else none

def State.imgSrc (s : State) (core : Nat) (v : Word) (chan : Option (Nat × Nat)) : ImgSrc :=
  match chan with
  | some (q, c) => { striped := false, base := (s.queue core q).slotAddr (c % 65536), room := (s.queue core q).size }
  | none => { striped := true, base := v.toNat, room := 0 }

/-- Bytes of a plane (R142). -/
def planeSize (fmt : Nat) : Nat := 2 * (imgFmt fmt).k

/-- The address of plane p of slice j. -/
def ImgSrc.plane (i : ImgSrc) (fmt j p : Nat) : Nat :=
  if i.striped then i.base + p * 0x4000 + 32 * j else i.base + 544 * j + p * planeSize fmt

/-- Bytes of an image that is packed (R142, R152). -/
def imgSize (fmt : Nat) : Nat := if fmt = 8 then 1632 else (imgFmt fmt).planes * planeSize fmt

/-- The runs of bytes that `n` planes take. -/
def ImgSrc.spans (i : ImgSrc) (fmt n : Nat) : List (Nat × Nat) :=
  if i.striped then (List.range n).map (fun p => (i.base + p * 0x4000, if fmt = 8 then 96 else planeSize fmt))
  else [(i.base, if fmt = 8 then 1632 else n * planeSize fmt)]

/-- The first byte at which an image breaks the bounds of R144: its first one past scratchpad, or past its slot. -/
def ImgSrc.beyond (i : ImgSrc) (fmt : Nat) : Option Nat :=
  if i.striped then
    ((List.range (imgFmt fmt).planes).find? (fun p => decide (0x300000 < i.base + p * 0x4000 + if fmt = 8 then 96 else planeSize fmt))).map
      (fun p => max 0x300000 (i.base + p * 0x4000))
  else if i.room < imgSize fmt then some (i.base + i.room) else none

/-! ### Rows of `MDRAIN` and `MLDACC` (R149, R156, R158) -/

/-- Nibbles of an element of a format code. -/
def fmtNibs : Nat → Nat
  | 0 | 1 | 0x0B | 0x0C => 2
  | 2 | 3 => 1
  | 4 | 5 | 9 | 0x0A => 4
  | _ => 8

/-- The numbers of the set bits of a mask of 16. -/
def picks (m : Nat) : List Nat := (List.range 16).filter (fun i => bitOf m i)

/-- A tile in rows: its place, row pitch, element size in nibbles, the selected rows and columns, the last row that counts
for the bounds, and row 0 for every row under `.bro`. -/
structure Rows where
  src : ImgSrc
  pitch : Nat
  en : Nat
  rows : List Nat
  cols : List Nat
  last : Option Nat
  bro : Bool
  deriving DecidableEq, Repr

/-- The nibble address of element (m, n). -/
def Rows.nib (r : Rows) (m n : Nat) : Nat := 2 * (r.src.base + (if r.bro then 0 else m) * r.pitch) + n * r.en

/-- The bytes an element takes. -/
def Rows.span (r : Rows) (m n : Nat) : Nat × Nat := (r.nib m n / 2, max 1 (r.en / 2))

def Rows.elems (r : Rows) : List (Nat × Nat) := r.rows.flatMap (fun m => r.cols.map (fun n => (m, n)))

def Rows.spans (r : Rows) : List (Nat × Nat) := ((if r.bro then r.rows.take 1 else r.rows).flatMap (fun m => r.cols.map (fun n => (m, n)))).map
  (fun e => r.span e.1 e.2)

/-- The first address that is not a multiple of e: the base, or that of row 1 where only the pitch is not. -/
def Rows.misaligned (r : Rows) : Option Nat :=
  let e := r.en / 2
  if r.src.striped ∧ 2 < r.en then
    if r.src.base % e ≠ 0 then some r.src.base else if r.pitch % e ≠ 0 then some (r.src.base + r.pitch) else none
  else none

/-- The first byte at which the rows break the bounds of R156: that of row 1 for a pitch that is too small, else the first one past
scratchpad or past the slot. -/
def Rows.beyond (r : Rows) : Option Nat :=
  match r.last with
  | none => none
  | some l =>
    if r.src.striped then
      if r.pitch < 8 * r.en then some (r.src.base + r.pitch)
      else
        ((List.range (l + 1)).find? (fun m => decide (0x300000 < r.src.base + m * r.pitch + 8 * r.en))).map
          (fun m => max 0x300000 (r.src.base + m * r.pitch))
    else if r.src.room < (l + 1) * 8 * r.en then some (r.src.base + r.src.room) else none

/-- Rows from a mask word: a pitch of 0 or 0xFFFF, and every channel, is packed (R149, R156). -/
def mkRows (src : ImgSrc) (mk : Word) (en : Nat) (drain bro : Bool) : Rows :=
  let m := mk.toNat
  let p := bits m 32 16
  let cols := picks (bits m 16 16)
  let rows := if cols.isEmpty then [] else picks (bits m 0 16)
  { src := src, pitch := if !src.striped || p == 0 || p == 0xFFFF then 8 * en else p, en := en, rows := rows, cols := cols,
    last := if drain then some 15 else rows.getLast?.map (fun l => if bro then 0 else l), bro := bro }

/-! ### What a command touches, and its checks at fetch start (R161) -/

/-- A part of scratchpad a matrix command touches: the codes of R161 are tested over the parts in order. `align` and `beyond` are the
first addresses that break the alignment and the bounds. -/
structure Region where
  base : Nat
  chan : Option Nat
  align : Option Nat
  beyond : Option Nat
  spans : List (Nat × Nat)
  write : Bool
  tag : Nat
  deriving DecidableEq, Repr

/-- The magnitude planes of A that are streamed (R145). -/
def precBits (fmt prec : Nat) : Nat :=
  match fmt, prec with
  | 0, 1 => 6
  | 0, 2 => 4
  | 0, 3 => 2
  | 2, 3 => 2
  | _, _ => (imgFmt fmt).b

/-- The planes of an operand that are fetched (R145). -/
def planesRead (fmt prec : Nat) (isA : Bool) : Nat :=
  if imgInt fmt then (if isA then precBits fmt prec else (imgFmt fmt).b) else (imgFmt fmt).planes

/-- The image operands of `MMA` and `MDIST`. -/
def State.mmaSrc (s : State) (core : Nat) (c : Cmd) (p : MmaPay) (i : Nat) : ImgSrc :=
  s.imgSrc core (c.vals.getD i 0) (nthChan [p.a, p.b] c.chans i)

def State.mmaRegion (s : State) (core : Nat) (c : Cmd) (p : MmaPay) (i : Nat) : Region :=
  let fmt := p.fmt.toNat
  let src := s.mmaSrc core c p i
  let n := planesRead fmt p.prec.toNat (i == 0)
  { base := src.base, chan := (nthChan [p.a, p.b] c.chans i).map Prod.fst,
    align := if src.striped && src.base % planeSize fmt != 0 then some src.base else none, beyond := src.beyond fmt, spans := src.spans fmt n,
    write := false, tag := 2 }

/-- The rows of `MDRAIN` and `MLDACC`. -/
def State.cmdRows (s : State) (core : Nat) (c : Cmd) : Option Rows :=
  match c.ins with
  | .mdrain _ _ fmt _ _ _ mode _ _ _ =>
    let src := s.imgSrc core (c.vals.getD 0 0) (c.res.map (fun r => (r.1, r.2.1)))
    some (mkRows src (c.vals.getD 1 0) (if mode = 0 then 8 else fmtNibs fmt.toNat) true false)
  | .mldacc _ _ fmt _ src _ mode bro =>
    let i := s.imgSrc core (c.vals.getD 0 0) (nthChan [src] c.chans 0)
    some (mkRows i (c.vals.getD 1 0) (if mode = 0 then 8 else fmtNibs fmt.toNat) false bro)
  | _ => none

def State.matRegions (s : State) (core : Nat) (c : Cmd) : List Region :=
  match c.ins with
  | .mma _ p | .mdist _ p => [s.mmaRegion core c p 0, s.mmaRegion core c p 1]
  | _ =>
    match s.cmdRows core c with
    | some r =>
      let w := match c.ins with
        | .mdrain _ _ _ _ _ _ _ _ _ _ => true
        | _ => false
      [{ base := r.src.base, chan := if w then c.res.map Prod.fst else (c.chans.head?).map Prod.fst, align := r.misaligned,
         beyond := r.beyond, write := w, tag := 0,
         spans := if w && c.res.isSome then (if r.elems.isEmpty then [] else [(r.src.base, 128 * r.en)]) else r.spans }]
    | none => []

/-- The first byte of a run of spans at which a declared buffer fails a test: the lowest one of the first span that holds any. -/
def State.bufFirst (s : State) (core : Nat) (spans : List (Nat × Nat)) (ok : Buffer → Bool) : Option Nat :=
  spans.findSome? (fun x => (s.buffersOf core x.1 x.2).foldl (fun low kb =>
    if ok kb.2 then low else some (min (low.getD (x.1 + x.2)) (max x.1 kb.2.base))) none)

/-- The fault of a matrix command at fetch start, with the first offending address (R161, R170, R162). -/
def State.matFault (s : State) (core : Nat) (c : Cmd) : Option (Nat × Nat) :=
  let rs := s.matRegions core c
  let chan := rs.findSome? (fun r => r.chan.bind (fun q =>
    let x := s.queue core q
    if r.write then
      if x.st.mayAppend then none else some (if x.st == .lost && x.lostSend then Code.spliceLost else Code.queueState, 0)
    else if x.st.mayRead then none else some (Code.queueState, 0)))
  let own := rs.filter (fun r => r.chan.isNone)
  chan.orElse (fun _ =>
    (rs.findSome? (fun r => r.align.map (fun a => (Code.align, a % 2 ^ 22)))).orElse (fun _ =>
    (rs.findSome? (fun r => r.beyond.map (fun a => (Code.shapeBounds, a % 2 ^ 22)))).orElse (fun _ =>
    (own.findSome? (fun r => (s.bufFirst core r.spans (fun b => b.allows (!r.write) r.write)).map (fun a => (Code.bufferState, a)))).orElse (fun _ =>
    own.findSome? (fun r => (s.bufFirst core r.spans (fun b => b.tag == r.tag)).map (fun a => (Code.layoutMismatch, a)))))))

/-- The declared buffers a command uses from its check on (R237). -/
def State.matBuffers (s : State) (core : Nat) (c : Cmd) : List Nat :=
  (((s.matRegions core c).filter (fun r => r.chan.isNone)).flatMap (fun r =>
    r.spans.flatMap (fun x => (s.buffersOf core x.1 x.2).map Prod.fst))).eraseDups

/-- The 64-byte lines of runs of bytes, in ascending order. -/
def linesOf (spans : List (Nat × Nat)) : List Nat :=
  sortNat (spans.flatMap (fun x => (List.range ((x.1 + x.2 + 63) / 64 - x.1 / 64)).map (fun i => x.1 / 64 * 64 + 64 * i)))

/-- The lines a command reads, and those a drain will write, into scratchpad or into a slot that stands there. -/
def State.matReads (s : State) (core : Nat) (c : Cmd) : List Nat :=
  linesOf (((s.matRegions core c).filter (fun r => !r.write)).flatMap (fun r => r.spans))
def State.matWrites (s : State) (core : Nat) (c : Cmd) : List Nat :=
  let here (q : Nat) : Bool := !((s.queue core q).st == .send || (s.queue core q).st == .pendS)
  linesOf (((s.matRegions core c).filter (fun r => r.write && (r.chan.map here).getD true)).flatMap (fun r => r.spans))

/-- The array cycles of a command (R145). -/
def matCycles (i : Instr) : Nat :=
  let mma (p : MmaPay) : Nat :=
    let f := p.fmt.toNat
    if f = 8 then 12
    else
      let n := if imgInt f then precBits f p.prec.toNat else (imgFmt f).b
      (256 * (imgFmt f).k * n + 16383) / 16384
  match i with
  | .mma _ p => mma p
  | .mdist _ p => mma p + 1
  | .mzero _ _ _ => 1
  | _ => 4

/-- The accumulators a command reads (R147). -/
def accReads : Instr → List Nat
  | .mma _ p | .mdist _ p => if p.ac then [p.acc.toNat] else []
  | .mtopk _ _ _ d a _ _ _ init _ => if init then [a.toNat] else [a.toNat, d.toNat]
  | .mdrain _ _ _ a _ _ _ _ _ _ => [a.toNat]
  | _ => []

/-- The accumulators a command writes. -/
def accWrites : Instr → List Nat
  | .mma _ p | .mdist _ p => [p.acc.toNat]
  | .mtopk _ _ _ d _ _ _ _ _ _ => [d.toNat]
  | .mzero _ _ m => (List.range 32).filter (fun i => m.getLsbD i)
  | .mdrain _ _ _ a _ _ _ _ _ za => if za then [a.toNat] else []
  | .mldacc _ _ _ a _ _ _ _ => [a.toNat]
  | _ => []

/-- Whether an instruction multiplies into an accumulator, so that sums are passed on inside the array (R147). -/
def isMma : Instr → Bool
  | .mma _ _ | .mdist _ _ => true
  | _ => false

/-! ### The engine sequence (R146, R147, R164) -/

/-- A command of the engine's running list replaced by its serial number. -/
def Engine.upd (e : Engine) (c : Cmd) : Engine := { e with running := e.running.map (fun x => if x.serial = c.serial then c else x) }

/-- A command leaves the sequence; one with an array phase is noted as the last writer of the accumulators it wrote (R147). -/
def Engine.drop (e : Engine) (serial : Nat) : Engine :=
  let ws := (e.running.filter (fun x => x.serial == serial && x.c != 0)).flatMap (fun x => (accWrites x.ins).map (fun a => (a, isMma x.ins)))
  { e with running := e.running.filter (fun x => x.serial != serial),
           wrote := ws.foldl (fun m w => if (NMap.get (0, false) m w.1).1 < serial then NMap.set m w.1 (serial, w.2) else m) e.wrote }

def State.updEng (s : State) (core eng : Nat) (f : Engine → Engine) : State := s.onTask core (fun t => t.onEng eng f)
def State.engine (s : State) (core eng : Nat) : Engine := (s.core core).t.eng eng

/-- A test of the head of an engine's queue (R71, R146). A command whose operation is SAVED with a new owner waits for its return
(R194). -/
def State.matHead (s : State) (core eng : Nat) : State :=
  match (s.engine core eng).q with
  | [] => s
  | c :: rest =>
    let saved := ((c.op.bind s.op?).map (fun o => o.st == .saved)).getD false
    if c.h ≠ 0 then s
    else if s.now ≤ c.t ∨ saved ∨ !s.waitOk core c then s.postHead core eng (s.now + 1)
    else
      ((s.takeWait core c).updEng core eng (fun e => { e with q := { c with h := s.now } :: rest })).postEv s.now (.evMatrixFetchStart core eng)

/-- A matrix command ends with a fault of R161. Under RETRY it is fetched again; else it keeps its place in the sequence with
no array phase. -/
def State.matFail (s : State) (core eng : Nat) (c : Cmd) (code addr : Nat) : State :=
  match c.op with
  | none => s
  | some k =>
    let o := s.op k
    let detail := addr % 2 ^ 22
    if s.opPolicy o = 1 ∧ o.tries < 2 then
      let fresh : Cmd := { c with fs := 0, fe := 0, s := 0, c := 0, lines := [], got := [], bad := none, outs := [], uses := [] }
      ((s.freeBuffers core c.uses).opFault k code detail 0 (fun s =>
        s.updEng core eng (fun e => { e with running := e.running.filter (fun x => x.serial != c.serial), q := fresh :: e.q }))).postEv (s.now + 1) (.evMatrixFetchStart core eng)
    else
      let s := (s.engFree core c).engPoison core c
      let s := s.updEng core eng (fun e => e.upd { c with code := code, c := 0, busy := [], uses := [], outs := [], res := none })
      (s.opFault k code detail 0 (fun s => s)).postEv s.now (.evMatrixArrayStart core eng)

/-- A scratchpad line as an engine fetch of this cycle sees it (R148): without the stores of this cycle, and with or without those of
the three cycles before. -/
def State.fetchLine (s : State) (core l : Nat) : List Byte :=
  s.padSeen core l 64 (fun e => e.cyc == s.now
    || (decide (s.now < e.cyc + 4) && Config.freeDelay (s.free + e.addr / 64 + 2 ^ 16 * (s.now - e.cyc)) % 2 == 1))

/-- Whether a bank serves an engine in this cycle (R21). -/
def State.engBank (s : State) (core bank : Nat) : Bool :=
  let c := s.core core
  !(c.bankUse.contains (bank, s.now) || c.mcTaken.contains (bank, s.now) || c.engUse.contains (bank, s.now))

/-- The lines of a list that are served in one cycle, one for each bank that is free, and those that are left. -/
def serveLines (free : Nat → Bool) : List Nat → List Nat → List Nat × List Nat
  | _, [] => ([], [])
  | used, l :: ls =>
    let b := l / 2 ^ 14
    if !used.contains b && free l then
      let r := serveLines free (b :: used) ls
      (l :: r.1, r.2)
    else
      let r := serveLines free (b :: used) ls
      (r.1, l :: r.2)

def State.takeEng (s : State) (core : Nat) (ls : List Nat) : State :=
  s.onCore core (fun c => { c with engUse := ls.map (fun l => (l / 2 ^ 14, s.now)) ++ c.engUse.filter (fun e => e.2 == s.now) })

/-- The fetch of a command ends (R146, R168, R237, R161): slots and buffers read are given back, and a bad line is its fault. -/
def State.matFetched (s : State) (core eng : Nat) (c : Cmd) : State :=
  if c.code ≠ 0 then s.postEv s.now (.evMatrixArrayStart core eng)
  else
    match c.bad with
    | some a => s.matFail core eng c Code.memUncorrectable a
    | none =>
      let c' := if isMma c.ins then { c with busy := [], uses := [] } else { c with busy := [] }
      let s := s.engFree core (if isMma c.ins then c else { c with uses := [] })
      (s.updEng core eng (fun e => e.upd c')).postEv s.now (.evMatrixArrayStart core eng)

/-- One cycle of a fetch: lines are read at rank 3, one from a bank (R146); a line an older drain of the engine is still to
write waits for it (R148). -/
def State.matFetchStep (s : State) (core eng : Nat) : State :=
  let e := s.engine core eng
  match e.running.getLast? with
  | none => s
  | some c =>
    if c.fe ≠ 0 then (if c.fe ≤ s.now then s.matFetched core eng c else s)
    else
      let done (s : State) (c : Cmd) (fe : Nat) : State :=
        s.updEng core eng (fun e => { (e.upd { c with fe := fe }) with lastFe := fe })
      if c.lines.isEmpty then (done s c s.now).matFetched core eng { c with fe := s.now }
      else
        let blocked (l : Nat) : Bool := e.running.any (fun o => o.serial != c.serial && o.outs.any (fun x => x.1 == l))
        let r := serveLines (fun l => s.engBank core (l / 2 ^ 14) && !blocked l) [] c.lines
        let bad := c.bad.orElse (fun _ => r.1.find? (fun l => s.padBad core l 64))
        let c' : Cmd := { c with lines := r.2, bad := bad, got := c.got ++ r.1.map (fun l => (l, s.fetchLine core l)) }
        let s := { r.1.foldl (fun s l => s.padScrub core l 64) (s.takeEng core r.1) with free := s.free + 2 ^ 18 }
        let s := if r.2.isEmpty then done s c' (s.now + 1) else s.updEng core eng (fun e => e.upd c')
        s.postEv (s.now + 1) (.evMatrixFetchEnd core eng)

/-- Whether the command at the head may start its fetch (R146): the fetch before it has ended, and the array phase of the
command two places ahead has begun. -/
def Engine.fetchReady (e : Engine) (now : Nat) : Bool :=
  decide (e.lastFe ≤ now) && (match e.running.reverse with
    | c :: rest => c.fe != 0 && decide (c.fe ≤ now) && (match rest with
        | d :: _ => d.s != 0
        | [] => true)
    | [] => true)

/-- A fetch starts: the operation is STARTED and checked (R161, R194). -/
def State.matFetchStart (s : State) (core eng : Nat) : State :=
  let e := s.engine core eng
  match e.q with
  | [] => s
  | c :: rest =>
    if c.h = 0 then s
    else if !e.fetchReady s.now || ((c.op.bind s.op?).map (fun o => o.st == .saved)).getD false then
      if s.isDue (· == .ev (.evMatrixFetchStart core eng)) then s else s.postEv (s.now + 1) (.evMatrixFetchStart core eng)
    else
      let c : Cmd := { c with fs := s.now, c := matCycles c.ins }
      let s := s.onOp (c.op.getD 0) (fun o => { o with st := .started })
      let s := s.updEng core eng (fun e => { e with q := rest })
      let s := s.postEv s.now (.evMatrixHead core eng)
      match s.matFault core c with
      | some (code, addr) =>
        (s.updEng core eng (fun e => { e with running := e.running ++ [{ c with fe := s.now }], lastFe := s.now })).matFail core eng
          { c with fe := s.now } code addr
      | none =>
        let uses := s.matBuffers core c
        let c : Cmd := { c with lines := s.matReads core c, uses := uses, outs := (s.matWrites core c).map (fun l => (l, [])) }
        ((s.useBuffers core uses).updEng core eng (fun e => { e with running := e.running ++ [c] })).matFetchStep core eng

/-- The array start of the first command whose array phase has not begun, as R146 and R147 compute it; none while it is not
known yet. -/
def Engine.startOf (e : Engine) (c : Cmd) : Option Nat :=
  if c.fe = 0 then none
  else
    let older := e.running.takeWhile (fun o => o.serial != c.serial)
    let reads := accReads c.ins
    let clash (o : Cmd) : Bool := o.c != 0 && (accWrites o.ins).any reads.contains
    let lastMma (a : Nat) : Bool :=
      let gone := NMap.get (0, false) e.wrote a
      match (older.filter (fun o => o.c != 0 && (accWrites o.ins).contains a)).getLast? with
      | some o => if gone.1 < o.serial then isMma o.ins else gone.2
      | none => gone.2
    let chained := isMma c.ins && !reads.isEmpty && reads.all lastMma
    let base := max (c.fe + 1) (e.lastS + e.lastC)
    if chained || c.c == 0 then some base
    else
      (older.filter clash).foldl (fun acc o =>
        match acc with
        | none => none
        | some b => if o.dn ≠ 0 then some (max b o.dn) else none) (some base)

/-! ### Effects of the array phase (R151 to R158, R163) -/

/-- Bytes that a fetch has read. -/
def gotBytes (got : List (Nat × List Byte)) (a n : Nat) : List Byte :=
  (List.range n).map (fun i => (((got.find? (fun e => e.1 == (a + i) / 64 * 64)).map Prod.snd).getD []).getD ((a + i) % 64) 0)

/-- The planes of lane l of an image. -/
def laneWords (got : List (Nat × List Byte)) (src : ImgSrc) (fmt j n l : Nat) : List Nat :=
  let kb := (imgFmt fmt).k / 8
  (List.range n).map (fun p => ofBytes (gotBytes got (src.plane fmt j p + l * kb) kb))

/-- An operand decoded: 16 lanes of K elements. -/
def decodeImg (got : List (Nat × List Byte)) (src : ImgSrc) (fmt j : Nat) (signed : Bool) (n : Nat) : List (List (FVal × FFlags)) :=
  (List.range 16).map (fun l =>
    let ws := laneWords got src fmt j n l
    (List.range (imgFmt fmt).k).map (fun k => laneElem fmt signed n ws k))

/-- The exact sum of products, with the special cases of R151; NaN operands are tested first. -/
def groupSum (ps : List (FVal × FFlags)) : FVal × FFlags :=
  let fl := ps.foldl (fun acc p => acc ||| p.2) (0 : FFlags)
  let vs := ps.map Prod.fst
  if vs.any (· == .nan) then (.nan, fl)
  else if vs.any (· == .inf false) && vs.any (· == .inf true) then (.nan, fl ||| flIV)
  else if vs.any (· == .inf false) then (.inf false, fl)
  else if vs.any (· == .inf true) then (.inf true, fl)
  else
    (vs.foldl (fun acc v => (addVal 0 acc v).1) (.fin false 0 0), fl)

/-- One term of a squared distance (R153). -/
def distTerm (a b : FVal) : FVal × FFlags :=
  match a, b with
  | .inf m, .inf n => if m == n then (.nan, flIV) else (.inf false, 0)
  | .inf _, _ => (.inf false, 0)
  | _, .inf _ => (.inf false, 0)
  | _, _ => let d := (addVal 0 a b.neg).1; mulVal d d

/-- group_fp of R151: the rounded sum of a group; an exact zero is +0. -/
def groupFp (dist : Bool) (ab : List (FVal × FVal)) : Nat × FFlags :=
  if ab.any (fun p => p.1 == .nan || p.2 == .nan) then (0x7FC00000, 0)
  else
    let r := groupSum (ab.map (fun p => if dist then distTerm p.1 p.2 else mulVal p.1 p.2))
    if r.1.isZero then (0, r.2) else fmtF32.finish 0 r

/-- An exact integer held as a value. -/
def FVal.toI : FVal → Int
  | .fin n m _ => if n then -(m : Int) else m
  | _ => 0

/-- One element of a product (R151): its bits, its flags, and whether a SAT clamp took effect. -/
def mmaElem (fmt : Nat) (dist sat : Bool) (v0 : Nat) (a b : List FVal) (act : List Nat) : Nat × FFlags × Bool :=
  let pick (k : Nat) : FVal × FVal := (a.getD k (.fin false 0 0), b.getD k (.fin false 0 0))
  let kk := (imgFmt fmt).k
  if imgInt fmt then
    (List.range (kk / 32)).foldl (fun (acc : Nat × FFlags × Bool) g =>
      let sum := (act.filter (fun k => k / 32 == g)).foldl (fun t k =>
        let p := pick k
        t + (if dist then (p.1.toI - p.2.toI) * (p.1.toI - p.2.toI) else p.1.toI * p.2.toI)) (0 : Int)
      let x := intOf true 32 acc.1 + sum
      let y := clampInt true 32 x
      if sat then (ofInt 32 y, 0, acc.2.2 || y != x) else (ofInt 32 x, 0, acc.2.2)) (v0, 0, false)
  else
    (List.range (kk / 16)).foldl (fun (acc : Nat × FFlags × Bool) g =>
      let ks := act.filter (fun k => k / 16 == g)
      if ks.isEmpty then acc
      else
        let r := groupFp dist (ks.map pick)
        let v := fadd fmtF32 0 acc.1 r.1
        (v.1, acc.2.1 ||| r.2 ||| v.2, acc.2.2)) (v0, 0, false)

/-- The depth positions that take part (R149). -/
def depthOn (mk : Word) (k : Nat) : List Nat :=
  (List.range k).filter (fun j => bitOf mk.toNat (32 + (if k = 64 then j / 2 else j)))

/-- What an array phase leaves: accumulators, poison, flags and status. -/
structure ArrayOut where
  acc : NMap (BitVec 32)
  poison : NMap Bool
  parity : NMap Bool := []
  flags : FFlags := 0
  code : Nat := 0
  detail : Nat := 0
  outs : List (Nat × List (Byte × Byte)) := []
  outPoison : List Nat := []
  deriving DecidableEq, Repr

/-- The key of an element of a tile. -/
def accKey (a m n : Nat) : Nat := 256 * a + 16 * m + n

def accGet (acc : NMap (BitVec 32)) (a m n : Nat) : Nat := (NMap.get 0 acc (accKey a m n)).toNat

/-- A tile set to zero, with its parity valid and its poison clear. -/
def zeroTile (o : ArrayOut) (a : Nat) : ArrayOut :=
  { o with acc := o.acc.filter (fun e => e.1 / 256 != a), poison := o.poison.filter (fun e => e.1 / 256 != a),
           parity := o.parity.filter (fun e => e.1 / 256 != a) }

/-- One element written, with its parity. -/
def putElem (o : ArrayOut) (a m n v : Nat) : ArrayOut :=
  { o with acc := NMap.put 0 o.acc (accKey a m n) (BitVec.ofNat 32 v), parity := NMap.erase o.parity (accKey a m n) }

/-- Elements are read: one with a parity error is poisoned from now on (R141). -/
def ArrayOut.meet (o : ArrayOut) (a : Nat) (els : List (Nat × Nat)) : ArrayOut :=
  { o with poison := els.foldl (fun p e =>
      if NMap.get false o.parity (accKey a e.1 e.2) then NMap.set p (accKey a e.1 e.2) true else p) o.poison }

/-- The status of a command that reads poisoned elements, the lowest first (R162, R163). -/
def poisonStatus (o : ArrayOut) (a : Nat) (els : List (Nat × Nat)) : ArrayOut :=
  match els with
  | [] => o
  | (m, n) :: _ => { o with code := Code.memUncorrectable, detail := 16 * m + n + a * 2 ^ 9 }

/-- The poisoned elements of a list, in order. -/
def poisoned (p : NMap Bool) (a : Nat) (els : List (Nat × Nat)) : List (Nat × Nat) :=
  els.filter (fun e => NMap.get false p (accKey a e.1 e.2))

/-- One pass of R151 over a tile. -/
def mmaPass (o : ArrayOut) (fmt acc : Nat) (dist sat ac : Bool) (mk : Word) (a b : List (List (FVal × FFlags))) : ArrayOut × Nat :=
  let act := depthOn mk (imgFmt fmt).k
  let rows := picks (bits mk.toNat 0 16)
  let cols := picks (bits mk.toNat 16 16)
  let o0 := if ac then o else zeroTile o acc
  let r := rows.foldl (fun (st : ArrayOut × Nat) m =>
    let la := a.getD m []
    let av := la.map Prod.fst
    cols.foldl (fun (st : ArrayOut × Nat) n =>
      let lb := b.getD n []
      let e := mmaElem fmt dist sat (if ac then accGet o.acc acc m n else 0) av (lb.map Prod.fst) act
      let x := putElem st.1 acc m n e.1
      ({ x with flags := x.flags ||| e.2.1 }, st.2 + (if e.2.2 then 1 else 0))) st) (o0, 0)
  let df := act.foldl (fun acc k =>
    acc ||| (if cols.isEmpty then 0 else rows.foldl (fun acc m => acc ||| ((a.getD m []).getD k (.nan, 0)).2) 0)
        ||| (if rows.isEmpty then 0 else cols.foldl (fun acc n => acc ||| ((b.getD n []).getD k (.nan, 0)).2) 0)) (0 : FFlags)
  ({ r.1 with flags := r.1.flags ||| df }, r.2)

/-- `MMA` and `MDIST` in the array (R151 to R153, R163). -/
def State.mmaArray (s : State) (core : Nat) (c : Cmd) (p : MmaPay) (dist : Bool) (o : ArrayOut) : ArrayOut :=
  let fmt := p.fmt.toNat
  let acc := p.acc.toNat
  let mk := c.vals.getD 2 0
  let img (i j : Nat) (sg : Bool) : List (List (FVal × FFlags)) :=
    decodeImg c.got (s.mmaSrc core c p i) fmt j sg (planesRead fmt p.prec.toNat (i == 0))
  let els := (picks (bits mk.toNat 0 16)).flatMap (fun m => (picks (bits mk.toNat 16 16)).map (fun n => (m, n)))
  let o := if p.ac then o.meet acc els else o
  let bad := if p.ac then poisoned o.poison acc els else []
  let r :=
    if fmt = 8 then
      ([(2, 0), (0, 2), (1, 1), (1, 0), (0, 1), (0, 0)].foldl (fun (st : ArrayOut × Bool) ab =>
        ((mmaPass st.1 fmt acc dist p.sat st.2 mk (img 0 ab.1 false) (img 1 ab.2 false)).1, true)) (o, p.ac)).1
    else
      let r := mmaPass o fmt acc dist p.sat p.ac mk (img 0 0 p.sga) (img 1 0 p.sgb)
      { r.1 with detail := r.2 }
  poisonStatus r acc bad

/-- Whether a candidate goes before an entry of the list (R154). -/
def topBetter (fmt : Nat) (dir : Bool) (x y : Nat × Nat) : Bool :=
  let lt (a b : Nat) : Bool := if fmt = 8 then ltZero fmtF32 a b else decide (intOf (fmt == 6) 32 a < intOf (fmt == 6) 32 b)
  (if dir then lt y.1 x.1 else lt x.1 y.1) || (x.1 == y.1 && decide (x.2 < y.2))

/-- A candidate goes in before the first entry that it is better than. R154 gives the best k of a list that is sorted; where the row of
`DACC` is not, this is the model's choice (notes/assumptions/115). -/
def topInsert (fmt : Nat) (dir : Bool) (x : Nat × Nat) : List (Nat × Nat) → List (Nat × Nat)
  | [] => [x]
  | y :: l => if topBetter fmt dir x y then x :: y :: l else y :: topInsert fmt dir x l

/-- The fill value of an empty entry (R154). -/
def topFill (fmt : Nat) (dir : Bool) : Nat :=
  match fmt, dir with
  | 8, false => 0x7F800000
  | 8, true => 0xFF800000
  | 6, false => 0x7FFFFFFF
  | 6, true => 0x80000000
  | _, false => 0xFFFFFFFF
  | _, true => 0

/-- `MTOPK` in the array (R154, R163). -/
def topkArray (c : Cmd) (fmt d a k : Nat) (dir init : Bool) (o : ArrayOut) : ArrayOut :=
  let base := (c.vals.getD 0 0).toNat
  let mk := (c.vals.getD 1 0).toNat
  let cols := picks (bits mk 16 16)
  let empty : Nat × Nat := (topFill fmt dir, 0xFFFFFFFF)
  let rows := picks (bits mk 0 16)
  let fed (m : Nat) : List (Nat × Nat × Nat) :=
    cols.map (fun n => (a, m, n)) ++ (if init then [] else ((List.range k) ++ (List.range k).map (· + 8)).map (fun n => (d, m, n)))
  let o := rows.foldl (fun (o : ArrayOut) m => (fed m).foldl (fun (o : ArrayOut) e => o.meet e.1 [e.2]) o) o
  let isBad (e : Nat × Nat × Nat) : Bool := NMap.get false o.poison (accKey e.1 e.2.1 e.2.2)
  let out := rows.foldl (fun (x : ArrayOut) m =>
    let l0 := if init then [] else (List.range k).map (fun j => (accGet o.acc d m j, accGet o.acc d m (8 + j)))
    let l := cols.foldl (fun l n =>
      let v := accGet o.acc a m n
      let id := (base + n) % 2 ^ 32
      if (fmt == 8 && fmtF32.isNan v) || id == 0xFFFFFFFF then l else (topInsert fmt dir (v, id) l).take k) l0
    let x := (List.range 8).foldl (fun (x : ArrayOut) j =>
      let e := if j < k then l.getD j empty else empty
      putElem (putElem x d m j e.1) d m (8 + j) e.2) x
    if (fed m).any isBad then
      { x with poison := (List.range 16).foldl (fun p n => NMap.put false p (accKey d m n) true) x.poison }
    else x) o
  let place (e : Nat × Nat × Nat) : Nat := 16 * e.2.1 + e.2.2
  match (rows.flatMap fed).filter isBad with
  | e :: es =>
    let low := es.foldl (fun a b => if place b < place a then b else a) e
    poisonStatus out low.1 [low.2]
  | [] => out

/-- The bits of an element read from a fetch, at a nibble address. -/
def gotElem (got : List (Nat × List Byte)) (nib en : Nat) : Nat :=
  if en = 1 then bits (ofBytes (gotBytes got (nib / 2) 1)) (4 * (nib % 2)) 4 else ofBytes (gotBytes got (nib / 2) (en / 2))

/-- An element widened exactly (R158). -/
def widenElem (mode fmt v : Nat) : Nat :=
  if mode = 0 then v
  else
    match fmt with
    | 0x09 => (fcvt fmtBF16 fmtF32 0 v).1
    | 0x0A => (fcvt fmtF16 fmtF32 0 v).1
    | 0x0B => (fcvt fmtE4M3 fmtF32 0 v).1
    | 0x0C => (fcvt fmtE5M2 fmtF32 0 v).1
    | _ => ofInt 32 (intOf (fmt % 2 == 0) (4 * fmtNibs fmt) v)

/-- `MLDACC` in the array (R158). -/
def ldaccArray (c : Cmd) (r : Rows) (fmt a mode : Nat) (o : ArrayOut) : ArrayOut :=
  r.elems.foldl (fun (o : ArrayOut) e =>
    let x := putElem o a e.1 e.2 (widenElem mode fmt (gotElem c.got (r.nib e.1 e.2) r.en))
    { x with poison := NMap.erase x.poison (accKey a e.1 e.2) }) o

/-- The TYPE code of a drain's integer format (R68, R157). -/
def drainTy : Nat → Nat
  | 0 => 7
  | 1 => 8
  | 2 => 9
  | 3 => 10
  | 4 => 5
  | _ => 6

/-- One element of a drain (R157): its bits, its flags, and whether it was clamped. -/
def drainElem (mode fmt rnd : Nat) (x f : Nat) : Nat × FFlags × Bool :=
  let ff : FFmt := match fmt with
    | 0x08 => fmtF32
    | 0x09 => fmtBF16
    | 0x0A => fmtF16
    | 0x0B => fmtE4M3
    | _ => fmtE5M2
  match mode with
  | 0 => (x, 0, false)
  | 1 => let r := fcvt fmtF32 ff rnd x; (r.1, r.2, false)
  | 2 =>
    let r := quantElem (drainTy fmt) rnd false x f 0
    let i := intOf true 32 x
    let nan := (mulVal (.fin (decide (i < 0)) i.natAbs 0) (fmtF32.decode f)).1 == .nan
    (r.1, r.2, !nan && (r.2 &&& flIV) != 0)
  | 3 =>
    let sg := fmt % 2 == 0
    let w := 4 * fmtNibs fmt
    let i := intOf true 32 x
    let y := roundInt rnd (decide (i < 0)) (i.natAbs * bits f 8 24) (-(bits f 0 6 : Nat))
    let c := clampInt sg w y.1
    (ofInt w c, (if c = y.1 then 0 else flIV) ||| (if y.2 || c != y.1 then flNX else 0), c != y.1)
  | _ => let r := ff.finish rnd (mulVal (fmtF32.decode x) (fmtF32.decode f)); (r.1, r.2, false)

/-- The bytes an element's write touches, each with a mask and a value. -/
def elemBytes (nib en y : Nat) : List (Nat × Nat × Nat) :=
  if en = 1 then [(nib / 2, 15 * 16 ^ (nib % 2), (y % 16) * 16 ^ (nib % 2))]
  else (List.range (en / 2)).map (fun i => (nib / 2 + i, 255, bits y (8 * i) 8))

/-- Writes gathered into 64-byte lines. -/
def gatherLines (full : Bool) (lines : List Nat) (bs : List (Nat × Nat × Nat)) : List (Nat × List (Byte × Byte)) :=
  lines.map (fun l =>
    let here := bs.filter (fun b => b.1 / 64 * 64 == l)
    (l, (List.range 64).map (fun i =>
      let hit := here.filter (fun b => b.1 == l + i)
      let m := hit.foldl (fun acc b => Nat.lor acc b.2.1) 0
      let v := hit.foldl (fun acc b => Nat.lor acc b.2.2) 0
      ((if full then 255 else BitVec.ofNat 8 m), BitVec.ofNat 8 v))))

/-- `MDRAIN` in the array (R157, R163): the lines it writes, and the tile zeroed under `.za`. Lines of a slot are numbered
from the slot's address; with no selected element no line is written there either (notes/assumptions/121). -/
def drainArray (c : Cmd) (r : Rows) (chan : Bool) (fmt a mode rnd : Nat) (za : Bool) (o : ArrayOut) : ArrayOut :=
  let els := r.elems
  let o := o.meet a els
  let vals := els.map (fun e => (e, drainElem mode fmt rnd (accGet o.acc a e.1 e.2) (c.scales.getD e.2 0).toNat))
  let bs := vals.flatMap (fun v => elemBytes (r.nib v.1.1 v.1.2) r.en v.2.1)
  let lines := if chan && !els.isEmpty then (List.range (2 * r.en)).map (fun i => r.src.base + 64 * i) else linesOf r.spans
  let bad := poisoned o.poison a els
  let fl := vals.foldl (fun acc v => acc ||| v.2.2.1) (0 : FFlags)
  let cl := (vals.filter (fun v => v.2.2.2)).length
  let o := { o with outs := gatherLines chan lines bs, flags := fl, detail := if mode = 2 ∨ mode = 3 then cl else 0,
                    outPoison := (bad.map (fun e => r.nib e.1 e.2 / 2 / 64 * 64)).eraseDups }
  let o := poisonStatus o a bad
  if za then zeroTile o a else o

/-- The array phase of a command begins: its effect on the engine, and what it will end with. -/
def State.arrayOut (s : State) (core : Nat) (c : Cmd) (e : Engine) : ArrayOut :=
  let o : ArrayOut := { acc := e.acc, poison := e.poison, parity := e.parity }
  match c.ins with
  | .mma _ p => s.mmaArray core c p false o
  | .mdist _ p => s.mmaArray core c p true o
  | .mtopk _ _ fmt d a _ km1 dir init _ => topkArray c fmt.toNat d.toNat a.toNat (km1.toNat + 1) dir init o
  | .mzero _ _ m => ((List.range 32).filter (fun i => m.getLsbD i)).foldl zeroTile o
  | .mdrain _ _ fmt a _ _ mode rnd _ za =>
    match s.cmdRows core c with
    | some r => drainArray c r c.res.isSome fmt.toNat a.toNat mode.toNat rnd.toNat za o
    | none => o
  | .mldacc _ _ fmt a _ _ mode _ =>
    match s.cmdRows core c with
    | some r => ldaccArray c r fmt.toNat a.toNat mode.toNat o
    | none => o
  | _ => o

/-- The array phase of the next command begins, if its cycle has come (R146, R147). A command without one leaves the
sequence (R164). -/
def State.matArrayStart (s : State) (core eng : Nat) : State :=
  let e := s.engine core eng
  match e.running.find? (fun c => c.s == 0) with
  | none => s
  | some c =>
    match e.startOf c with
    | none => s
    | some t =>
      if s.now < t then
        if s.isDue (fun a => a == .ev (.evMatrixArrayStart core eng)) then s else s.postEv t (.evMatrixArrayStart core eng)
      else if c.c = 0 then
        (s.updEng core eng (fun e => { (e.drop c.serial) with lastS := t, lastC := 0 })).postEv s.now (.evMatrixArrayStart core eng)
      else
        let t := max t s.now
        let r := s.arrayOut core c e
        let drain := match c.ins with
          | .mdrain _ _ _ _ _ _ _ _ _ _ => true
          | _ => false
        let dn := if drain then (if r.outs.isEmpty && c.res.isNone then t + 7 else 0) else t + c.c + 6
        let c' : Cmd := { c with s := t, dn := dn, flags := r.flags, code := r.code, detail := r.detail, outs := r.outs,
                                 outPoison := r.outPoison, got := [] }
        let s := s.updEng core eng (fun e => { (e.upd c') with acc := r.acc, poison := r.poison, parity := r.parity, lastS := t, lastC := c.c })
        let s := if dn = 0 then s.postEv (t + 6) (.evMdrainLineWrite core (c.op.getD 0) 0) else s.postEv dn (.evOpComplete (c.op.getD 0))
        s.postEv s.now (.evMatrixArrayStart core eng)

/-! ### Drain writes and completion -/

/-- A line written under a bit mask: what the mask leaves out keeps its contents (R157). -/
def mergeMask (old : List Byte) (new : List (Byte × Byte)) : List (Option Byte) :=
  (List.range 64).map (fun i =>
    let n := new.getD i (0, 0)
    if n.1 = 0 then none else some ((old.getD i 0 &&& ~~~n.1) ||| (n.2 &&& n.1)))

/-- A scratchpad line written under a bit mask: a word of which part of a byte is left out is not written whole (R295). -/
def State.padWriteBits (s : State) (core l : Nat) (new : List (Byte × Byte)) (r : RecInfo) : State :=
  let new' := mergeMask (s.padBytes core l 64) new
  let bs := beneath s.now (s.core core).recent l new'
  let s := s.passStores core l new'
  if new.all (fun n => n.1 == 255) then s.padWrite core l bs r
  else
    (List.range 8).foldl (fun s i =>
      let cut := ((new.drop (8 * i)).take 8).any (fun n => n.1 != 0 && n.1 != 255)
      s.padWriteWord core (l + 8 * i) ((bs.drop (8 * i)).take 8) (s.ctxOf core) r cut) s

/-- One line of a drain leaves the engine: into scratchpad, or into the slot it reserved (R157, R163, R167, R377). -/
def State.drainLine (s : State) (core : Nat) (c : Cmd) (l : Nat) (bs : List (Byte × Byte)) (last : Bool) : State :=
  let bad := c.outPoison.contains l
  match c.res with
  | some (q, slot, _) =>
    let base := (s.queue core q).slotAddr (slot % 65536)
    s.fillSlot core q slot s.now (s.now + 1) (l - base) (bs.map Prod.snd) last bad
  | none =>
    let r : RecInfo := { grp := c.grp % 2 ^ 32, task := c.idx, coord := coordWord core, bundle := c.bundle, unit := c.ins.unitCode,
                         opid := ((c.op.map (fun k => (opIdent k (s.op k).gen).toNat))).getD 0 }
    let s := s.padWriteBits core l bs r
    if bad then s.padPoisonLines core l 1 else s

/-- Whether a drain goes to a queue that sends: its lines take no bank (R377). -/
def State.sends (s : State) (core : Nat) (c : Cmd) : Bool :=
  match c.res with
  | some (q, _, _) => (s.queue core q).st == .send || (s.queue core q).st == .pendS
  | none => false

/-- A cycle of a drain's writes (R157): one line in each bank that serves it, after the lines of an older drain in that bank.
The cycle after the last one is its done cycle. -/
def State.drainStep (s : State) (core k : Nat) : State :=
  let eng := ((s.op k).cmd.ins).cmdUnit
  match (s.engine core eng).running.find? (fun c => c.op == some k) with
  | none => s
  | some c =>
    let send := s.sends core c
    let ls := c.outs.map Prod.fst
    let older := (((s.engine core eng).running.takeWhile (fun o => o.serial != c.serial)).filter (fun o => !s.sends core o)).flatMap
      (fun o => o.outs.map (fun x => x.1 / 2 ^ 14))
    let r := serveLines (fun l => send || (s.engBank core (l / 2 ^ 14) && !older.contains (l / 2 ^ 14))) [] ls
    let s := if send then s else s.takeEng core ((r.1 ++ []).map id)
    let left := c.outs.filter (fun x => !r.1.contains x.1)
    let s := r.1.foldl (fun s l =>
      s.drainLine core c l (((c.outs.find? (fun x => x.1 == l)).map Prod.snd).getD []) (left.isEmpty && some l == r.1.getLast?)) s
    let s := match ls, c.res with
      | [], some (q, slot, _) => s.fillSlot core q slot s.now (s.now + 1) 0 [] true false
      | _, _ => s
    let c' : Cmd := { c with outs := left, dn := if left.isEmpty then s.now + 1 else 0 }
    let s := s.updEng core eng (fun e => e.upd c')
    if left.isEmpty then s.postEv (s.now + 1) (.evOpComplete k)
    else s.postEv (s.now + 1) (.evMdrainLineWrite core k (ls.length - left.length))

/-- A matrix command is done (R146, R162): buffers it used are free, and its operation ends. -/
def State.matDone (s : State) (core k : Nat) : State :=
  let eng := ((s.op k).cmd.ins).cmdUnit
  match (s.engine core eng).running.find? (fun c => c.op == some k) with
  | none => s
  | some c =>
    let s := (s.engFree core c).updEng core eng (fun e => e.drop c.serial)
    (s.endOp k c.code c.detail c.flags false).postEv s.now (.evMatrixArrayStart core eng)

/-- `MATRIX_HEAD` (R71, R112, R146). -/
def execEvMatrixHead (core eng : Nat) (s : State) : Host.Outcome State Fault Refusal := .next (s.matHead core eng)

/-- `MATRIX_FETCH_START` (R146, R161, R194). -/
def execEvMatrixFetchStart (core eng : Nat) (s : State) : Host.Outcome State Fault Refusal := .next (s.matFetchStart core eng)

/-- `MATRIX_FETCH_END` (R146, R168): one cycle of a fetch, or its end. -/
def execEvMatrixFetchEnd (core eng : Nat) (s : State) : Host.Outcome State Fault Refusal := .next (s.matFetchStep core eng)

/-- `MATRIX_ARRAY_START` (R146, R147, R151 to R158). -/
def execEvMatrixArrayStart (core eng : Nat) (s : State) : Host.Outcome State Fault Refusal := .next (s.matArrayStart core eng)

/-- `MDRAIN_LINE_WRITE` (R157). -/
def execEvMdrainLineWrite (core op _line : Nat) (s : State) : Host.Outcome State Fault Refusal := .next (s.drainStep core op)

end Sys2Proof.Machine
end

