-- ==== Sys2Proof/Machine/Lease.lean ====
section
/-!
DEFINITION. Register leases (R349, R350, R107): the commands at issue and at their heads, the request and the grant, and the
revocation with its writes to the fallback area.
-/

namespace Sys2Proof.Machine

/-- `LEASE` (R350). -/
def execLease (h : CmdHdr) (e : BitVec 2) (core : BitVec 4) (words fb : Opd) (s : State) : Host.Outcome State Fault Refusal :=
  plainCmd s (.lease h e core words fb) [words, fb]

/-- `LEASE.rcl` (R350). -/
def execLeaseRcl (h : CmdHdr) (s : State) : Host.Outcome State Fault Refusal := plainCmd s (.leaseRcl h) []

/-- `LFREE` (R350). -/
def execLfree (h : CmdHdr) (e : BitVec 2) (s : State) : Host.Outcome State Fault Refusal := plainCmd s (.lfree h e) []

/-- The words of a lend pool (R349). -/
def poolWords : Nat := 256

def State.onLease (s : State) (core e : Nat) (f : Lease → Lease) : State :=
  s.onCtxSt core (fun c => { c with lease := NMap.set c.lease e (f (NMap.get {} c.lease e)) })

/-- The checks of `LEASE` in their order (R350). An entry whose grant is on its way is taken (notes/assumptions/50). -/
def State.leaseCheck (s : State) (core e lender words fb : Nat) : Option Nat :=
  let l := s.leaseOf core e
  if l.live || l.tok.isSome then some Code.shapeIndex
  else if lender = yardCore core ∨ words = 0 ∨ poolWords < words then some Code.shapeBounds
  else if fb % 64 ≠ 0 then some Code.align
  else if 0x300000 < fb + 8 * words then some Code.shapeBounds
  else none

/-- The cycle a revocation, a request or a return needs between two cores of a yard (R350). -/
def leaseTrip : Nat := 8

/-- Every lease on a core's pool that is not yet being revoked (R350); `rcl` marks those a `LEASE.rcl` waits for. -/
def State.recallAll (s : State) (lender : Nat) (rcl : Bool) : State :=
  let ls := (s.core lender).c.lent
  let s := s.onCtxSt lender (fun c => { c with lent := c.lent.map (fun l => { l with rcl := l.rcl || rcl }) })
  ls.foldl (fun s l => s.postEv (s.now + leaseTrip) (.evLeaseRevocation l.holder l.entry)) s

/-- The key under which a `LEASE.rcl` waits for its last holder. -/
def recallKey (core : Nat) : Nat := 2 ^ 34 + core

/-- A value that waited reaches its destination, ready from a cycle, if nothing younger has been written there (R18). -/
def State.giveWait (s : State) (core : Nat) (w : Nat × Dest × Word × Nat) : State :=
  let at_ := max (s.now + 1) w.2.2.2
  let put (s : State) (k : Nat) : State := s.onTask core (fun t =>
    if NMap.find t.wait k = some w.1 then { t.putScalar k w.2.2.1 at_ with dataAt := max t.dataAt at_ } else t)
  let s := put s RegKey.yb
  match w.2.1 with
  | .nowhere => s
  | .reg k => put s k
  | .slot q c => s.fillLater core q c (at_ - s.now) (toBytes 8 w.2.2.1.toNat)

/-- The `SPLD`s that waited for the write of a fallback area have their values (R107). -/
def State.endWaits (s : State) (core e : Nat) : State :=
  let ws := (s.leaseOf core e).waits
  ws.foldl (fun s w => s.giveWait core w) (s.onLease core e (fun l => { l with waits := [] }))

/-- A command of the lease port at its head (R350). -/
def State.leaseHead (s : State) (core : Nat) (c : Cmd) : State :=
  let arg (i : Nat) : Nat := (c.vals.getD i 0).toNat
  match c.ins with
  | .lease _ e lender _ _ =>
    match s.leaseCheck core e.toNat lender.toNat (arg 0) (arg 1) with
    | some code => s.endCmd core c code 0 true
    | none =>
      (s.onLease core e.toNat (fun _ => { tok := some c, owner := (c.grp, c.idx) })).postEv (s.now + leaseTrip)
        (.evLeaseRequestLand (coreOfYard core lender.toNat) core e.toNat (arg 0) (arg 1))
  | .leaseRcl _ =>
    if (s.core core).c.lent.isEmpty then s.endCmd core c 0 0 true
    else (s.recallAll core true).onCtxSt core (fun x => { x with opWaits := x.opWaits ++ [(5, recallKey core, c)] })
  | .lfree _ e =>
    let l := s.leaseOf core e.toNat
    if !l.live then s.endCmd core c Code.shapeIndex 0 true
    else
      (((s.endWaits core e.toNat).onLease core e.toNat (fun _ => {})).postEv (s.now + leaseTrip)
        (.evLeaseWordsReturn (coreOfYard core l.core) core e.toNat)).endCmd core c 0 0 true
  | _ => s

/-- Words of its pool that a core has lent. -/
def CtxSt.lentWords (c : CtxSt) : Nat := c.lent.foldl (fun n l => n + l.words) 0

/-- Where the words of a lease stand in the lender's pool storage: apart from those of every other lease (notes/assumptions/51). -/
def leaseBase (holder e : Nat) : Nat := poolWords * (4 * yardCore holder + e)

/-- A request lands at the lender (R350): the words are set aside, all zero, if the pool has them. -/
def State.leaseRequest (s : State) (lender holder e words fb : Nat) : State :=
  let rev := decide (poolWords < (s.core lender).c.lentWords + words)
  let base := leaseBase holder e
  let s :=
    if rev then s
    else s.onCtxSt lender (fun c =>
      { c with lent := c.lent ++ [{ holder := holder, entry := e, base := base, words := words }],
               pool := c.pool.filter (fun kv => kv.1 < base || base + poolWords ≤ kv.1) })
  s.postEv (s.now + leaseTrip) (.evLeaseGrantLand holder e lender words fb rev)

/-- A grant lands at the holder (R350). A holder that is gone gives the words back. A grant without words starts on a fallback
area that reads as zero (R106). -/
def State.leaseGrant (s : State) (core e lender words fb : Nat) (rev : Bool) : State :=
  let l := s.leaseOf core e
  match l.tok with
  | none => if rev then s else s.postEv (s.now + leaseTrip) (.evLeaseWordsReturn lender core e)
  | some c =>
    let s := s.onLease core e (fun l =>
      { l with live := true, rev := rev, core := yardCore lender, words := words, fb := fb, poolBase := leaseBase core e, tok := none })
    let s := if rev then s.agentPut core fb (List.replicate (8 * words) 0) else s
    s.endCmd core c 0 (if rev then 1 else 0) false

/-- The lines of a fallback area (R350). -/
def Lease.lines (l : Lease) : Nat := (l.words + 7) / 8

/-- A revocation reaches the holder (R107, R350): from this cycle on its accesses use the fallback area. -/
def State.leaseRevoke (s : State) (core e : Nat) : State :=
  let l := s.leaseOf core e
  if !l.live || l.rev then s
  else
    (s.onLease core e (fun l => { l with rev := true, readyFrom := s.now + l.lines, waits := [] })).postEv s.now
      (.evFallbackLineWrite core e 0)

/-- A line of the fallback area is written, at rank 4 (R21, R350). A refused line is written a cycle later, and the last one ends the
wait of R107. -/
def State.fallbackLine (s : State) (core e line : Nat) : State :=
  let l := s.leaseOf core e
  let dst := l.fb + 64 * line
  if !l.live || !l.rev then s
  else if s.engBank core (dst / 2 ^ 14) then
    let n := min 8 (l.words - 8 * line)
    let bs := (List.range n).flatMap (fun i => toBytes 8 (s.poolWord core l (8 * line + i)).toNat)
    let s := (s.takeEng core [dst]).agentPut core dst bs
    if line + 1 < l.lines then s.postEv (s.now + 1) (.evFallbackLineWrite core e (line + 1))
    else
      (s.endWaits core e).postEv (s.now + leaseTrip) (.evLeaseWordsReturn (coreOfYard core l.core) core e)
  else
    (s.onLease core e (fun l => { l with readyFrom := l.readyFrom + 1 })).postEv (s.now + 1) (.evFallbackLineWrite core e line)

/-- Words come back to a lender (R350). A `LEASE.rcl` completes with the last of those it recalled. -/
def State.leaseReturn (s : State) (lender holder e : Nat) : State :=
  let s := s.onCtxSt lender (fun c => { c with lent := c.lent.filter (fun l => !(l.holder == holder && l.entry == e)) })
  if (s.core lender).c.lent.any (fun l => l.rcl) then s else s.answerKey (recallKey lender)

/-- `LEASE_REQUEST_LAND` (R350). -/
def execEvLeaseRequestLand (lender holder e words fb : Nat) (s : State) : Host.Outcome State Fault Refusal :=
  .next (s.leaseRequest lender holder (e % 4) words fb)

/-- `LEASE_GRANT_LAND` (R350). -/
def execEvLeaseGrantLand (core e lender words fb : Nat) (rev : Bool) (s : State) : Host.Outcome State Fault Refusal :=
  .next (s.leaseGrant core (e % 4) lender words fb rev)

/-- `LEASE_REVOCATION` (R107, R350). -/
def execEvLeaseRevocation (core e : Nat) (s : State) : Host.Outcome State Fault Refusal := .next (s.leaseRevoke core (e % 4))

/-- `FALLBACK_LINE_WRITE` (R350). -/
def execEvFallbackLineWrite (core e line : Nat) (s : State) : Host.Outcome State Fault Refusal := .next (s.fallbackLine core (e % 4) line)

/-- `LEASE_WORDS_RETURN` (R350). -/
def execEvLeaseWordsReturn (lender holder e : Nat) (s : State) : Host.Outcome State Fault Refusal :=
  .next (s.leaseReturn lender holder (e % 4))

end Sys2Proof.Machine
end

