-- ==== Sys2Proof/Machine/OpCmd.lean ====
section
/-!
DEFINITION. The operation controller (R201 to R203): the operation commands at issue and at their heads.
-/

namespace Sys2Proof.Machine

/-! ### At issue -/

/-- `OPWAIT` (R201, R202). -/
def execOpwait (h : CmdHdr) (id : Opd) (s : State) : Host.Outcome State Fault Refusal := plainCmd s (.opwait h id) [id]

/-- `OPCANCEL` (R201, R202). -/
def execOpcancel (h : CmdHdr) (id : Opd) (s : State) : Host.Outcome State Fault Refusal := plainCmd s (.opcancel h id) [id]

/-- `OPDETACH` (R201, R202). -/
def execOpdetach (h : CmdHdr) (id : Opd) (s : State) : Host.Outcome State Fault Refusal := plainCmd s (.opdetach h id) [id]

/-- `OPADOPT` (R201, R202). -/
def execOpadopt (h : CmdHdr) (id : Opd) (s : State) : Host.Outcome State Fault Refusal := plainCmd s (.opadopt h id) [id]

/-- `OPQUERY` (R201, R203). -/
def execOpquery (h : CmdHdr) (id : Opd) (s : State) : Host.Outcome State Fault Refusal := plainCmd s (.opquery h id) [id]

/-! ### At the head -/

def OpState.code : OpState → Nat
  | .queued => 0
  | .started => 1
  | .parked => 2
  | .saved => 3
  | .done => 4

/-- Whether a task owns an operation (R195). -/
def Op.ofTask (o : Op) (c : Cmd) : Bool := o.owner == 0 && o.grp == c.grp && o.idx == c.idx

/-- Whether a task's group or context owns an operation (R195). -/
def Op.ofLevel (o : Op) (c : Cmd) : Bool := (o.owner == 1 && o.grp == c.grp) || o.owner == 2

/-- Whether the command may name the operation (R202). -/
def Op.mayName (o : Op) (c : Cmd) : Bool :=
  match c.ins with
  | .opcancel _ _ => o.ofTask c || o.ofLevel c
  | .opdetach _ _ => o.ofTask c
  | .opadopt _ _ => o.det && o.ofLevel c
  | _ => true

/-- The detail of `OPQUERY` (R203). -/
def Op.queryDetail (o : Op) : Nat :=
  o.st.code + o.owner * 2 ^ 3 + (if o.det then 2 ^ 5 else 0) + (if o.ord then 2 ^ 6 else 0) + o.prio * 2 ^ 7
    + (if o.st == .done then o.code * 2 ^ 10 else 0) + o.prog % 2 ^ 30 * 2 ^ 18

/-- A command waits for an operation to be DONE. -/
def State.waitOp (s : State) (core kind k : Nat) (c : Cmd) : State :=
  s.onCtxSt core (fun x => { x with opWaits := x.opWaits ++ [(kind, k, c)] })

/-- `OPWAIT` and `OPADOPT` take the status of an operation that is DONE, and its entry is freed (R196). -/
def State.collect (s : State) (core k : Nat) (c : Cmd) (o : Op) : State := (s.endOpWait core 0 c o true).freeOp k

/-- A live operation that the command may name meets the command's effect (R202). -/
def State.opEffect (s : State) (core k : Nat) (c : Cmd) (o : Op) : State :=
  match c.ins with
  | .opwait _ _ => if o.st == .done then s.collect core k c o else s.waitOp core 0 k c
  | .opcancel _ _ =>
    if o.st == .done then s.endCmd core c 0 (o.code + 2 ^ 8) true
    else (s.waitOp core 1 k c).cancelOp k Code.opCancelled true
  | .opdetach _ _ =>
    if o.st == .done || o.det then s.endCmd core c 0 (2 ^ 8) true
    else
      let s := s.onOp k (fun o => { o with det := true })
      let s := match o.cmd.tok with
        | some r => s.onOwner o.core o.cmd.grp o.cmd.idx (fun t => t.dropToken r (.op k))
        | none => s
      s.endCmd core c 0 0 true
  | .opadopt _ _ =>
    if o.st == .done then s.collect core k c o
    else
      (s.onOp k (fun o => { o with owner := 0, det := false, grp := c.grp, idx := c.idx, ownCore := core })).waitOp core 2 k c
  | _ => s.endCmd core c 0 o.queryDetail true

/-- An operation that became DONE in this cycle, by its identifier (R202). -/
def State.justEnded (s : State) (x : Word) : Option Op :=
  (s.ended.find? (fun e => e.1 == s.now && e.2.1 == identKey x && e.2.2.gen == identGen x && identOk x)).map (fun e => e.2.2)

/-- A command of the operation controller at its head: a stale identifier, or one the task may not use, completes with
OP_TOKEN_INVALID. -/
def State.opHead (s : State) (core : Nat) (c : Cmd) : State :=
  let x := c.vals.getD 0 0
  let bad := s.endCmd core c Code.opTokenInvalid 0 true
  match s.liveOp x with
  | some k =>
    let o := s.op k
    if o.ctx == s.ctxOf core && o.mayName c then s.opEffect core k c o else bad
  | none =>
    match c.ins, s.justEnded x with
    | .opcancel _ _, some o =>
      if o.ctx == s.ctxOf core && o.mayName c then s.endCmd core c 0 (o.code + 2 ^ 8) true else bad
    | _, _ => bad

end Sys2Proof.Machine
end

