-- ==== Sys2Proof/Machine/Shape.lean ====
section
/-!
DEFINITION. Shape records (R206 to R208), where their elements stand (R207), and the in-flight transformations of `CPY`
(R210): a copy is a series of units, each with the bytes it writes, the bytes it is made from, and how.
-/

namespace Sys2Proof.Machine

/-! ### Records -/

/-- A shape record, field by field (R206, R208). -/
structure Shape where
  v : Bool
  sp : Bool
  nd : Nat
  scope : Nat
  base : Nat
  dims : List Nat
  strides : List Int
  fmt : Nat
  layout : Nat
  rd : Bool
  wr : Bool
  xc : Bool
  aux : Nat
  clean : Bool
  deriving DecidableEq, Repr

/-- A 64-bit stride, of which the upper bits repeat bit 47. -/
def strideOk (w : Nat) : Bool := bits w 47 17 == 0 || bits w 47 17 == 2 ^ 17 - 1

/-- A record from its eight words; `clean` says that its reserved bits and codes are as they must be. -/
def parseShape (ws : List Word) : Shape :=
  let w (i : Nat) : Nat := (ws.getD i 0).toNat
  { v := bitOf (w 0) 63, sp := bitOf (w 0) 62, nd := bits (w 0) 60 2, scope := bits (w 0) 57 3, base := bits (w 0) 0 57,
    dims := [bits (w 1) 0 32, bits (w 1) 32 32, bits (w 2) 0 32, bits (w 2) 32 32],
    strides := [(ws.getD 3 0).toInt, (ws.getD 4 0).toInt, (ws.getD 5 0).toInt],
    fmt := bits (w 6) 59 5, layout := bits (w 6) 56 3, rd := bitOf (w 6) 55, wr := bitOf (w 6) 54, xc := bitOf (w 6) 53,
    aux := w 7,
    clean := bits (w 6) 0 53 == 0 && decide (bits (w 0) 57 3 ≤ 4) && decide (bits (w 6) 56 3 ≤ 4) && decide (bits (w 6) 59 5 < 0x16)
      && strideOk (w 3) && strideOk (w 4) && strideOk (w 5) }

namespace Shape

def dim (sh : Shape) (i : Nat) : Nat := sh.dims.getD i 1
def stride (sh : Shape) (i : Nat) : Int := sh.strides.getD (i - 1) 0

/-- Whether the record names a queue (R208). -/
def isQueue (sh : Shape) : Bool := bitOf sh.aux 39
def queue (sh : Shape) : Nat := bits sh.aux 34 5
def red (sh : Shape) : Nat := bits sh.aux 32 2
def team (sh : Shape) : Nat := bits sh.aux 30 2
def fill (sh : Shape) : Byte := BitVec.ofNat 8 (bits sh.aux 20 8)
def gmask (sh : Shape) : Nat := if bits sh.aux 16 4 = 0 then 0xF else bits sh.aux 16 4
def link (sh : Shape) : Nat := bits sh.aux 0 16

end Shape

/-- Bytes of an element under ROW or COL (R207). -/
def fmtSize : Nat → Nat
  | 0x04 | 0x05 | 0x09 | 0x0A => 2
  | 0x06 | 0x07 | 0x08 => 4
  | _ => 1

/-- Whether a format is stored in GQ blocks, and in MX blocks (R34, R37). -/
def isGq (fmt : Nat) : Bool := decide (0x0E ≤ fmt) && decide (fmt ≤ 0x10)
def isMx (fmt : Nat) : Bool := decide (0x11 ≤ fmt) && decide (fmt ≤ 0x15)

/-- Magnitude bits of a GQ format. -/
def gqMag (fmt : Nat) : Nat := (imgFmt fmt).b

/-- Elements and bytes of a block (R34, R37). -/
def blockLen (fmt : Nat) : Nat := if isGq fmt then 16 else 32
def blockBytes (fmt : Nat) : Nat := if isGq fmt then gqBytes (gqMag fmt) else mxBytes fmt

/-- Whether a format has operand images: those of R142, and FP32 (R152, R207). -/
def hasImage (fmt : Nat) : Bool := decide (fmt ≤ 3) || (decide (8 ≤ fmt) && decide (fmt ≤ 0x10))

/-- The conditions of R207 on the tag and the format. -/
def Shape.paired (sh : Shape) : Bool :=
  match sh.layout with
  | 0 => !isGq sh.fmt && !isMx sh.fmt
  | 1 => decide (1 ≤ sh.nd) && !isGq sh.fmt && !isMx sh.fmt && !(sh.fmt == 2 || sh.fmt == 3 || sh.fmt == 0x0D)
  | 2 => hasImage sh.fmt
  | 3 => sh.fmt == 2 || sh.fmt == 3
  | _ => isGq sh.fmt || isMx sh.fmt

/-- The conditions of R207 on the extents. -/
def Shape.placed (sh : Shape) : Bool :=
  match sh.layout with
  | 0 | 1 => true
  | 2 => sh.dim 0 == (imgFmt sh.fmt).k && sh.dim 1 == 16
  | 3 => sh.dim 0 % 2 == 0
  | _ => sh.dim 0 % blockLen sh.fmt == 0

/-- Whether a record is malformed for a command that uses the AUX fields of a mask (R206 to R208). A queue record's extents
are not used. A reserved format code is one of the codes R206 names (notes/assumptions/110). -/
def Shape.malformed (sh : Shape) (auxMask : Nat) : Bool :=
  let dimsOk := (List.range 4).all (fun i => decide (1 ≤ sh.dim i) && (decide (i ≤ sh.nd) || sh.dim i == 1))
  let stridesOk := (List.range 4).all (fun i => i == 0 || decide (i ≤ sh.nd) || sh.stride i == 0)
  !sh.clean || Nat.land sh.aux auxMask != sh.aux || sh.red == 3 || !stridesOk || !sh.paired || !(sh.isQueue || (dimsOk && sh.placed))

/-- The AUX fields of copies, of gathers and scatters, of subscriptions and of collectives (R208). -/
def auxNone : Nat := 0
def auxGather : Nat := 2 ^ 28 - 1
def auxScatter : Nat := 2 ^ 20 - 1
def auxSubs : Nat := 2 ^ 40 - 2 ^ 34
def auxColl : Nat := 2 ^ 34 - 2 ^ 30

/-! ### Places -/

/-- A run of bytes: its first address and its length. -/
abbrev Span := Int × Nat

/-- The address of dimensions 1 to 3's part. -/
def Shape.outer (sh : Shape) (i1 i2 i3 : Nat) : Int := sh.base + i1 * sh.stride 1 + i2 * sh.stride 2 + i3 * sh.stride 3

/-- Indices from a unit number, with `n0` units in dimension 0. -/
def Shape.index (sh : Shape) (n0 u : Nat) : Nat × Nat × Nat × Nat :=
  (u % n0, u / n0 % sh.dim 1, u / n0 / sh.dim 1 % sh.dim 2, u / n0 / sh.dim 1 / sh.dim 2)

/-- The address of an element under ROW or COL (R207). -/
def Shape.elemAt (sh : Shape) (i : Nat × Nat × Nat × Nat) : Int :=
  let e := fmtSize sh.fmt
  if sh.layout = 1 then sh.base + i.2.1 * e + i.1 * sh.stride 1 + i.2.2.1 * sh.stride 2 + i.2.2.2 * sh.stride 3
  else sh.outer i.2.1 i.2.2.1 i.2.2.2 + i.1 * e

/-- The address of byte or block i0 of a row of bytes or blocks of `n` bytes. -/
def Shape.runAt (sh : Shape) (n : Nat) (i : Nat × Nat × Nat × Nat) : Int := sh.outer i.2.1 i.2.2.1 i.2.2.2 + i.1 * n

/-- The planes of image (i2, i3), slice by slice (R142, R144, R152). -/
def Shape.planes (sh : Shape) (u : Nat) : List Span :=
  let b := sh.outer 0 (u % sh.dim 2) (u / sh.dim 2)
  let n := planeSize sh.fmt
  let slices := if sh.fmt = 8 then 3 else 1
  (List.range slices).flatMap (fun j => (List.range (imgFmt sh.fmt).planes).map (fun p =>
    (b + (if sh.sp then p * 0x4000 + 32 * j else 544 * j + p * n : Nat), n)))

/-- The units a record's bytes are stored in, in index order: elements, bytes of NIB, blocks, or images. -/
def Shape.unitCount (sh : Shape) : Nat :=
  let outer := sh.dim 1 * sh.dim 2 * sh.dim 3
  match sh.layout with
  | 2 => sh.dim 2 * sh.dim 3
  | 3 => sh.dim 0 / 2 * outer
  | 4 => sh.dim 0 / blockLen sh.fmt * outer
  | _ => sh.dim 0 * outer

def Shape.unitSpans (sh : Shape) (u : Nat) : List Span :=
  match sh.layout with
  | 2 => sh.planes u
  | 3 => [(sh.runAt 1 (sh.index (sh.dim 0 / 2) u), 1)]
  | 4 => let n := blockBytes sh.fmt; [(sh.runAt n (sh.index (sh.dim 0 / blockLen sh.fmt) u), n)]
  | _ => [(sh.elemAt (sh.index (sh.dim 0) u), fmtSize sh.fmt)]

/-- Bytes of one unit, and of the whole tensor (R212, R222, R227). -/
def Shape.unitBytes (sh : Shape) : Nat :=
  match sh.layout with
  | 2 => imgSize sh.fmt
  | 3 => 1
  | 4 => blockBytes sh.fmt
  | _ => fmtSize sh.fmt

def Shape.byteCount (sh : Shape) : Nat := sh.unitCount * sh.unitBytes

/-- The lowest byte and the byte above the highest of a record. -/
def Shape.extent (sh : Shape) : Int × Int :=
  let reach (i : Nat) (n : Nat) (st : Int) : Int × Int :=
    let d : Int := (n - 1 : Nat) * st
    if i < 4 ∧ d < 0 then (d, 0) else (0, d)
  let part := match sh.layout with
    | 1 => [reach 0 (sh.dim 0) (sh.stride 1), reach 1 (sh.dim 1) (fmtSize sh.fmt), reach 2 (sh.dim 2) (sh.stride 2),
            reach 3 (sh.dim 3) (sh.stride 3)]
    | 2 => [reach 2 (sh.dim 2) (sh.stride 2), reach 3 (sh.dim 3) (sh.stride 3)]
    | 3 => [reach 0 (sh.dim 0 / 2) 1, reach 1 (sh.dim 1) (sh.stride 1), reach 2 (sh.dim 2) (sh.stride 2), reach 3 (sh.dim 3) (sh.stride 3)]
    | 4 => [reach 0 (sh.dim 0 / blockLen sh.fmt) (blockBytes sh.fmt), reach 1 (sh.dim 1) (sh.stride 1), reach 2 (sh.dim 2) (sh.stride 2),
            reach 3 (sh.dim 3) (sh.stride 3)]
    | _ => [reach 0 (sh.dim 0) (fmtSize sh.fmt), reach 1 (sh.dim 1) (sh.stride 1), reach 2 (sh.dim 2) (sh.stride 2),
            reach 3 (sh.dim 3) (sh.stride 3)]
  let unit : Nat := match sh.layout with
    | 2 => if sh.sp then ((imgFmt sh.fmt).planes - 1) * 0x4000 + (if sh.fmt = 8 then 96 else planeSize sh.fmt) else imgSize sh.fmt
    | _ => sh.unitBytes
  part.foldl (fun acc r => (acc.1 + r.1, acc.2 + r.2)) ((sh.base : Int), (sh.base : Int) + unit)

/-- Whether a scratchpad record reaches outside scratchpad below the multicast range (R209). -/
def Shape.exceeds (sh : Shape) : Bool := sh.sp && (decide (sh.extent.1 < 0) || decide (0x300000 < sh.extent.2))

/-- The alignment of BASE (R209). -/
def Shape.misaligned (sh : Shape) : Bool :=
  if sh.sp && sh.layout == 2 then sh.base % 64 != 0
  else sh.base % fmtSize sh.fmt != 0

/-- An address as it is used: addresses wrap at 64 bits, and a bit above bit 56 lacks permission (R270). -/
def addrOf (a : Int) : Nat := (a % 2 ^ 64).toNat

/-! ### In-flight transformations (R210) -/

/-- A copy as units in the index order of the destination: what each writes, what it is made from, and how. -/
structure CopyForm where
  count : Nat
  dst : Nat → List Span
  src : Nat → List Span
  conv : Nat → List Byte → List Byte × FFlags

/-- Bytes as they are. -/
def asIs (_ : Nat) (bs : List Byte) : List Byte × FFlags := (bs, 0)

/-- The 16-bit or 8-bit floating-point format of a code, and FP32. -/
def floatOf : Nat → FFmt
  | 0x08 => fmtF32
  | 0x09 => fmtBF16
  | 0x0A => fmtF16
  | 0x0B => fmtE4M3
  | 0x0C => fmtE5M2
  | _ => fmtE2M1

/-- The bit of plane p of an element of a format of R142 that is not GQ. -/
def planeBit (fmt el p : Nat) : Nat :=
  let f := imgFmt fmt
  if imgInt fmt then bits el p 1
  else
    let ff := imgFloat fmt
    let ex := bits el ff.mb ff.eb
    if p < ff.mb then bits el p 1
    else if p = ff.mb then (if ex = 0 then 0 else 1)
    else if p = f.b then bits el (ff.mb + ff.eb) 1
    else bits ex (p - f.b - 1) 1

/-- Bits, least significant first, as bytes. -/
def packBits : Nat → List Nat → List Byte
  | 0, _ => []
  | n + 1, bs => BitVec.ofNat 8 ((bs.take 8).foldr (fun b acc => b + 2 * acc) 0) :: packBits n (bs.drop 8)

/-- One plane from the 16 K bits of its lanes. -/
def planeFrom (k : Nat) (bit : Nat → Nat → Nat) : List Byte :=
  packBits (2 * k) ((List.range 16).flatMap (fun l => (List.range k).map (fun i => bit l i)))

/-- The slices of an FP32 element (R152). -/
def slicesOf (el : Nat) : List Nat :=
  match fmtF32.decode el with
  | .nan => [fmtBF16.nanBits, 0, 0]
  | .inf n => [fmtBF16.infBits n, 0, 0]
  | .fin n m e =>
    let x : FVal := .fin n m e
    let hi := (fmtBF16.ofVal 1 x).1
    let r1 := (addVal 1 x (fmtBF16.decode hi).neg).1
    let mid := (fmtBF16.ofVal 1 r1).1
    let r2 := (addVal 1 r1 (fmtBF16.decode mid).neg).1
    [hi, mid, (fmtBF16.ofVal 1 r2).1]

/-- Element number i of a byte list with e bytes each. -/
def elemOf (e : Nat) (bs : List Byte) (i : Nat) : Nat := ofBytes ((bs.drop (e * i)).take e)

/-- An image from its elements, lane by lane (R142, R152). -/
def imageOf (fmt : Nat) (bs : List Byte) : List Byte :=
  let f := imgFmt fmt
  let el (l i : Nat) : Nat := elemOf (fmtSize fmt) bs (l * f.k + i)
  if fmt = 8 then
    (List.range 3).flatMap (fun j => (List.range f.planes).flatMap (fun p =>
      planeFrom f.k (fun l i => planeBit 9 ((slicesOf (el l i)).getD j 0) p)))
  else (List.range f.planes).flatMap (fun p => planeFrom f.k (fun l i => planeBit fmt (el l i) p))

/-- An image of a GQ format from its blocks, lane by lane (R142). -/
def imageOfGq (fmt : Nat) (bs : List Byte) : List Byte :=
  let f := imgFmt fmt
  let n := blockBytes fmt
  let blk (l j : Nat) : List Byte := (bs.drop (n * (l * (f.k / 16) + j))).take n
  let el (l i : Nat) : Nat := bits (ofBytes (blk l (i / 16))) (16 + (f.b + 1) * (i % 16)) (f.b + 1)
  (List.range (f.b + 1)).flatMap (fun p => planeFrom f.k (fun l i => bits (el l i) p 1))
    ++ (List.range 16).flatMap (fun l => (List.range (f.k / 16)).flatMap (fun j => (blk l j).take 2))

/-- An element from its bits in the planes of an image (R143): its own encoding where the hidden bit agrees with the exponent,
else the value that the planes give, rounded. -/
def elemFromPlanes (fmt : Nat) (ps : List Nat) : Nat × FFlags :=
  let f := imgFmt fmt
  let bit (p : Nat) : Nat := ps.getD p 0
  let m := (List.range f.b).foldl (fun acc j => acc + bit j * 2 ^ j) 0
  if imgInt fmt then
    if fmt = 2 ∧ 8 ≤ m then (m + 0xF0, 0) else (m, 0)
  else
    let ff := imgFloat fmt
    let ex := (List.range f.ex).foldl (fun acc j => acc + bit (f.b + 1 + j) * 2 ^ j) 0
    let neg := bit f.b == 1
    if (bit (f.b - 1) == 1) == (ex != 0) then (m % 2 ^ ff.mb + ex * 2 ^ ff.mb + ff.signBits neg, 0)
    else ff.ofVal 0 (planeFloat ff neg m ex)

/-- Low nibbles of two bytes as one byte, and one nibble of a byte as an element (R210). -/
def toNib (_ : Nat) (bs : List Byte) : List Byte × FFlags :=
  ([BitVec.ofNat 8 ((bs.getD 0 0).toNat % 16 + 16 * ((bs.getD 1 0).toNat % 16))], 0)

def fromNib (fmt n0 u : Nat) (bs : List Byte) : List Byte × FFlags :=
  let n := bits (bs.getD 0 0).toNat (4 * (u % n0 % 2)) 4
  ([BitVec.ofNat 8 (if fmt = 2 ∧ 8 ≤ n then n + 0xF0 else n)], 0)

/-- Sixteen values as one GQ block (R36). -/
def gqBlockOf (fmt : Nat) (vs : List FVal) : List Byte × FFlags :=
  let r := gqEncode (gqMag fmt) 0 vs
  (toBytes (blockBytes fmt) r.1, r.2)

/-- The transformation of a pair of records, or none where R210 does not list the pair. -/
def copyForm (a d : Shape) : Option CopyForm :=
  let n0 := d.dim 0
  let elems : Nat := d.dim 0 * d.dim 1 * d.dim 2 * d.dim 3
  let eA := fmtSize a.fmt
  let eD := fmtSize d.fmt
  let row (l : Nat) : Bool := l == 0 || l == 1
  let elemSpan (sh : Shape) (u : Nat) : List Span := [(sh.elemAt (sh.index (sh.dim 0) u), fmtSize sh.fmt)]
  let blockSpan (sh : Shape) (b : Nat) : List Span :=
    [(sh.runAt (blockBytes sh.fmt) (sh.index (sh.dim 0 / blockLen sh.fmt) b), blockBytes sh.fmt)]
  -- the elements of image u, lane by lane
  let imgElems (sh : Shape) (u : Nat) : List Span :=
    (List.range 16).flatMap (fun l => (List.range (sh.dim 0)).map (fun i =>
      (sh.elemAt (i, l, u % sh.dim 2, u / sh.dim 2), fmtSize sh.fmt)))
  -- B elements of a block in one row
  let runOf (sh : Shape) (n b : Nat) : List Span :=
    (List.range n).map (fun j => (sh.elemAt (sh.index (sh.dim 0) (n * b + j)), fmtSize sh.fmt))
  if a.layout = d.layout ∧ a.fmt = d.fmt then
    some { count := d.unitCount, dst := d.unitSpans, src := a.unitSpans, conv := asIs }
  else if row a.layout ∧ row d.layout ∧ a.fmt = d.fmt then
    some { count := elems, dst := elemSpan d, src := elemSpan a, conv := asIs }
  else if row a.layout ∧ d.layout = 2 ∧ a.fmt = d.fmt ∧ !isGq a.fmt then
    some { count := d.unitCount, dst := d.unitSpans, src := imgElems a, conv := fun _ bs => (imageOf a.fmt bs, 0) }
  else if a.layout = 2 ∧ row d.layout ∧ a.fmt = d.fmt ∧ !isGq a.fmt ∧ a.fmt ≠ 8 then
    let k := (imgFmt a.fmt).k
    some { count := elems, dst := elemSpan d,
           src := fun u =>
             let i := d.index n0 u
             let off : Int := (i.2.1 * (k / 8) + i.1 / 8 : Nat)
             (a.planes (i.2.2.1 + a.dim 2 * i.2.2.2)).map (fun p => (p.1 + off, 1)),
           conv := fun u bs =>
             let r := elemFromPlanes a.fmt (bs.map (fun b => bits b.toNat ((d.index n0 u).1 % 8) 1))
             (toBytes eD r.1, r.2) }
  else if a.layout = 0 ∧ d.layout = 3 ∧ a.fmt = d.fmt then
    some { count := d.unitCount, dst := d.unitSpans, src := runOf a 2, conv := toNib }
  else if a.layout = 3 ∧ d.layout = 0 ∧ a.fmt = d.fmt then
    some { count := elems, dst := elemSpan d,
           src := fun u => let i := d.index n0 u; [(a.runAt 1 (i.1 / 2, i.2), 1)], conv := fromNib a.fmt n0 }
  else if a.layout = 0 ∧ d.layout = 4 ∧ isGq d.fmt ∧ (a.fmt = 8 ∨ a.fmt = 9 ∨ a.fmt = 0x0A) then
    some { count := d.unitCount, dst := d.unitSpans, src := runOf a 16,
           conv := fun _ bs => gqBlockOf d.fmt ((List.range 16).map (fun j => (floatOf a.fmt).decode (elemOf eA bs j))) }
  else if a.layout = 4 ∧ isGq a.fmt ∧ d.layout = 0 ∧ (d.fmt = 8 ∨ d.fmt = 9 ∨ d.fmt = 0x0A) then
    some { count := elems, dst := elemSpan d, src := fun u => blockSpan a (u / 16),
           conv := fun u bs =>
             let v := gqDecode (gqMag a.fmt) (ofBytes bs) (u % 16)
             let r := (floatOf d.fmt).finish 0 v
             (toBytes eD r.1, r.2) }
  else if a.layout = 4 ∧ isGq a.fmt ∧ d.layout = 2 ∧ a.fmt = d.fmt then
    let n := (imgFmt a.fmt).k / 16
    some { count := d.unitCount, dst := d.unitSpans,
           src := fun u => (List.range 16).flatMap (fun l => (List.range n).map (fun j =>
             (a.runAt (blockBytes a.fmt) (j, l, u % a.dim 2, u / a.dim 2), blockBytes a.fmt))),
           conv := fun _ bs => (imageOfGq a.fmt bs, 0) }
  else if a.layout = 4 ∧ d.layout = 0 ∧ ((a.fmt = 0x11 ∧ d.fmt = 0x0B) ∨ (a.fmt = 0x12 ∧ d.fmt = 0x0C)) then
    some { count := elems, dst := elemSpan d, src := fun u => blockSpan a (u / 32),
           conv := fun u bs => let r := mxToFp8 (floatOf d.fmt) (mxDecode a.fmt (ofBytes bs) (u % 32)); (toBytes 1 r.1, r.2) }
  else if a.layout = 4 ∧ d.layout = 4 ∧ (((a.fmt = 0x13 ∨ a.fmt = 0x14) ∧ d.fmt = 0x0E) ∨ (a.fmt = 0x15 ∧ d.fmt = 0x0F)) then
    some { count := a.unitCount, dst := fun u => d.unitSpans (2 * u) ++ d.unitSpans (2 * u + 1), src := blockSpan a,
           conv := fun _ bs =>
             let vs := (List.range 32).map (fun j => mxDecode a.fmt (ofBytes bs) j)
             let r0 := gqBlockOf d.fmt (vs.take 16)
             let r1 := gqBlockOf d.fmt (vs.drop 16)
             (r0.1 ++ r1.1, r0.2 ||| r1.2) }
  else if a.layout = 0 ∧ a.fmt = 8 ∧ d.layout = 4 ∧ isMx d.fmt then
    some { count := d.unitCount, dst := d.unitSpans, src := runOf a 32,
           conv := fun _ bs =>
             let r := mxEncode d.fmt ((List.range 32).map (fun j => fmtF32.decode (elemOf 4 bs j)))
             (toBytes (blockBytes d.fmt) r.1, r.2) }
  else none

/-- Whether two records have the same extents (R210). -/
def sameExtents (a d : Shape) : Bool := (List.range 4).all (fun i => a.dim i == d.dim i)

end Sys2Proof.Machine
end

