-- ==== Sys2Proof/Machine/Granule.lean ====
section
/-!
DEFINITION. How a copy-engine operation moves one destination line (R204, R211, R217, R218): the granules it asks for and
reads, each once, the line it writes whole, and what it meets on the way.
-/

namespace Sys2Proof.Machine

/-- A 16-byte granule of a source (R211): in scratchpad or in memory, its address over 16, and which reading of it is meant. -/
structure Gran where
  pad : Bool
  g : Nat
  tag : Nat := 0
  deriving DecidableEq, Repr

def Gran.key (x : Gran) : Nat := x.tag * 2 ^ 62 + (if x.pad then 2 ^ 61 else 0) + x.g

/-- Runs one after another as one run. -/
def joinSpans (l : List Span) : List Span :=
  (l.foldl (fun (acc : List Span) sp => match acc with
    | [] => [sp]
    | p :: r => if p.1 + p.2 = sp.1 then (p.1, p.2 + sp.2) :: r else sp :: p :: r) []).reverse

/-- The granules of a list of runs. -/
def granulesOf (pad : Bool) (tag : Nat) (spans : List Span) : List Gran :=
  (spans.flatMap (fun sp =>
    let a := addrOf sp.1
    (List.range ((a + sp.2 + 15) / 16 - a / 16)).map (fun i => ({ pad := pad, g := a / 16 + i, tag := tag } : Gran)))).eraseDups

/-- The granules that have not been read yet. -/
def Op.missing (o : Op) (gs : List Gran) : List Gran := gs.filter (fun x => (NMap.find o.srcs x.key).isNone)

/-- The bytes of a run, from the granules read. -/
def Op.runBytes (o : Op) (pad : Bool) (tag : Nat) (sp : Span) : List Byte :=
  let a := addrOf sp.1
  let gs := (List.range ((a + sp.2 + 15) / 16 - a / 16)).flatMap (fun i =>
    NMap.get (List.replicate 16 0) o.srcs (Gran.key { pad := pad, g := a / 16 + i, tag := tag }))
  (gs.drop (a % 16)).take sp.2

def Op.spanBytes (o : Op) (pad : Bool) (tag : Nat) (spans : List Span) : List Byte := spans.flatMap (fun sp => o.runBytes pad tag sp)

/-- What the operation does next: it needs granules; it writes bytes at addresses; it adds elements of a format into what
stands there (R215); it keeps bytes it has decoded (R213); it fails; or it has no line left. `next` is the place of a scatter after the line. -/
inductive LineStep where
  | need (gs : List Gran)
  | write (pad : Bool) (parts : List (Nat × Byte)) (flags : FFlags) (next : Nat × Nat)
  | add (pad : Bool) (fmt : Nat) (parts : List (Nat × Nat)) (next : Nat × Nat)
  | keep (key : Nat) (bs : List Byte)
  | fail (code : Nat)
  | done
  deriving DecidableEq, Repr

/-! ### Destination lines (R204) -/

/-- The lines a run touches. -/
def lineNumbers (sp : Span) : List Nat :=
  let a := addrOf sp.1
  (List.range ((a + sp.2 + 63) / 64 - a / 64)).map (fun i => a / 64 + i)

/-- A unit touches a line: the lines are kept newest first. -/
def touchLine (u : Nat) (l : Nat) : List (Nat × List Nat) → List (Nat × List Nat)
  | [] => [(l, [u])]
  | (l', us) :: r => if l' = l then (l', if us.head? == some u then us else u :: us) :: r else (l', us) :: touchLine u l r

/-- The destination's lines in the order of the first unit that touches each, with their units ascending. -/
def destLines (count : Nat) (dst : Nat → List Span) : List (Nat × List Nat) :=
  let ls := (List.range count).foldl (fun ls u =>
    ((dst u).flatMap lineNumbers).foldl (fun ls l => if ls.any (fun e => e.1 == l) then touchLine u l ls else (l, [u]) :: ls) ls) []
  ls.reverse.map (fun e => (e.1, e.2.reverse))

/-- The bytes of a unit that stand in a line. -/
def partsIn (l : Nat) (spans : List Span) (bs : List Byte) : List (Nat × Byte) :=
  match spans with
  | [] => []
  | sp :: r =>
    ((List.range sp.2).filterMap (fun (i : Nat) =>
      let a := addrOf (sp.1 + i)
      if a / 64 = l then some (a, bs.getD i 0) else none)) ++ partsIn l r (bs.drop sp.2)

/-- Whether a line holds a unit's first byte. -/
def startsIn (l : Nat) (spans : List Span) : Bool := (spans.head?.map (fun sp => addrOf sp.1 / 64)) == some l

/-! ### Requests -/

/-- The distinct lines of a list of granules. -/
def granLines (gs : List Gran) : List (Bool × Nat) := (gs.map (fun x => (x.pad, x.g / 4))).eraseDups

/-- Whether a line is of the die's own memory. -/
def State.nearLine (s : State) (o : Op) (acc : Nat) (l : Bool × Nat) : Bool :=
  !l.1 && (match s.lineXl o.ctx (64 * l.2) { acc := acc } with
    | .ok x => (match x.tgt with
      | .loc _ _ => !x.peer
      | _ => false)
    | .error _ => false)

/-- The lines of later destination lines that a copy asks for with the line at hand: at most 64, all of the die's own memory. -/
def State.moreLines (s : State) (o : Op) (acc : Nat) (ls more : List (Bool × Nat)) : List (Bool × Nat) :=
  (more.eraseDups.filter (fun l => !ls.contains l && s.nearLine o acc l)).take 64

/-- Whether every line is of scratchpad, or was asked for with an earlier one. -/
def Op.hasLines (o : Op) (acc : Nat) (ls : List (Bool × Nat)) : Bool := ls.all (fun l => l.1 || o.ahead.contains (acc, l.2))

/-- Requests for lines (R204, R286): one in local memory waits for an unclaimed slot, any other is back within a bound. -/
def State.askLines (s : State) (k : Nat) (o : Op) (acc : Nat) (ls : List (Bool × Nat)) (more : List (Bool × Nat) := []) : State :=
  let more := s.moreLines o acc ls more
  let s := s.onOp k (fun o => { o with ahead := o.ahead.filter (fun e => e.1 != acc) ++ more.map (fun l => (acc, l.2)) })
  let homes := (ls ++ more).filterMap (fun l => if l.1 then none else
    match s.lineXl o.ctx (64 * l.2) { acc := acc } with
    | .ok x => some x
    | .error _ => none)
  let near := homes.filterMap (fun x => match x.tgt, x.peer with
    | .loc d pa, false => some (d, pa)
    | _, _ => none)
  let far := homes.filterMap (fun x => match x.tgt, x.peer with
    | .loc d _, true => some d
    | .loc _ _, false => none
    | .host _, _ => some (o.core / 64)
    | .pub _ _, _ => none)
  let s := s.onOp k (fun o => { o with need := near.length, reqs := (acc, 0) :: near, via := far })
  if near.isEmpty then s.postFree (if far.isEmpty then 64 else linkBound) (o.lineEv k)
  else near.foldl (fun s h => s.addUnslot h.1 h.2 o.prio k) s

/-- An operation starts again from line 0 (R217). -/
def State.restartOp (s : State) (k : Nat) : State :=
  (s.onOp k (fun o => { o with srcs := [], ahead := [], lines := [], reqs := [], need := 0, via := [], row := 0, sub_ := 0, hostWait := 0 })).postFree
    walkBound (.evOpStart k)

/-- A fault in flight (R217): a page that is not there parks the operation with its progress, any other ends it. -/
def State.copyFault (s : State) (k : Nat) (f : TFault) : State :=
  let s := s.onOp k (fun o => { o with reqs := [], ahead := [], need := 0, via := [] })
  if f.code = Code.pageNotPresent ∨ f.code = Code.migrateWait then s.parkOp k f
  else s.opFault k f.code (s.op k).prog f.word5 (fun s => s.restartOp k) true

/-- A line of scratchpad that an operation asks for takes its bank at rank 4, or waits (R21, R204). -/
def State.padTurn (s : State) (o : Op) (pad : Bool) (l : Nat) : Bool := !pad || s.engBank o.core (64 * l / 2 ^ 14)

/-- Some lines of scratchpad have taken their banks. -/
def State.padTaken (s : State) (o : Op) (pad : Bool) (ls : List Nat) : State :=
  if pad then s.takeEng o.core (ls.map (fun l => 64 * l)) else s

/-- Whether the request for a line carries a granule (R283): all of them but for the rows of a gather, which carry those of the granule
mask, counted from the row's first byte (R214, notes/assumptions/124). -/
def Op.carries (o : Op) (x : Gran) : Bool :=
  match o.cmd.ins with
  | .cpyg _ _ _ _ =>
    let ls := parseShape (o.recs.getD 0 [])
    let t := parseShape (o.recs.getD 2 [])
    let i := ofBytes (o.runBytes ls.sp 0 ((ls.base + 4 * (x.tag - 1) : Nat), 4))
    let off : Int := (16 * x.g : Nat) - (t.base + i * t.stride 1)
    x.tag == 0 || bitOf t.gmask (off / 16 % 4).toNat || (off % 16 != 0 && bitOf t.gmask ((off / 16 + 1) % 4).toNat)
  | _ => true

/-- The other granules that a request for some of a line carries and that can be read with them: the line has one translation (R280). -/
def Op.alsoIn (o : Op) (l : Nat) (gs : List Gran) (bad : Nat → Bool) : List Gran :=
  ((gs.map (fun x => x.tag)).eraseDups).flatMap (fun tag => (List.range 4).filterMap (fun i =>
    let x : Gran := { pad := false, g := 4 * l + i, tag := tag }
    if gs.contains x || (NMap.find o.srcs x.key).isSome || bad (16 * i) || !o.carries x then none else some x))

/-- The words of a line that hold a granule read are checked, and no other (R283, R293). -/
def State.scrubGrans (s : State) (t : Tgt) (gs : List Gran) : State :=
  (((gs.map (fun x => x.g % 4 / 2)).eraseDups)).foldl (fun s w => s.scrubRun (t.plus (32 * w)) 32) s

/-- A source line is read where an operation needs some granules of it (R211, R217, R280, R295). A line of memory is translated
once: what else its request carries is read with it. -/
def State.readLine (s : State) (o : Op) (l : Bool × Nat) (gs : List Gran) : Except TFault (List (Nat × List Byte) × State) :=
  if l.1 then
    if s.padBad o.core (64 * l.2) 64 then .error { code := Code.memUncorrectable, va := 16 * ((gs.head?).map (fun x => x.g)).getD 0, acc := 4 }
    else .ok (gs.map (fun x => (x.key, s.agentBytes o.core (16 * x.g) 16 o.cmd.t)), s.padScrub o.core (64 * l.2) 64)
  else
    match s.lineXl o.ctx (64 * l.2) { acc := 4 } with
    | .error f => .error f
    | .ok h =>
      let at_ (x : Gran) : Tgt := h.tgt.plus (16 * (x.g % 4))
      match gs.find? (fun x => s.homeBad (at_ x) 16) with
      | some x => .error { code := Code.memUncorrectable, va := 16 * x.g % 2 ^ 57, acc := 4 }
      | none =>
        let all := gs ++ o.alsoIn l.2 gs (fun i => s.homeBad (h.tgt.plus i) 16)
        .ok (all.map (fun x => (x.key, s.homeBytes o.ctx (at_ x) 16)), (s.fillTlb o.ctx (64 * l.2) 4).scrubGrans h.tgt all)

/-- Whether any of the lines is read from host memory over a link that is down (R359). -/
def State.needsHost (s : State) (o : Op) (ls : List (Bool × Nat)) : Bool :=
  ls.any (fun l => !l.1 &&
    match s.lineXl o.ctx (64 * l.2) { acc := 4 } with
    | .ok h => (match h.tgt with
      | .host a => s.hostCut (dieOf o.core) a
      | _ => false)
    | .error _ => false)

/-- Whether any of the lines lies behind a circuit that is in SETUP: it waits (R353). -/
def State.needsCircuit (s : State) (o : Op) (acc : Nat) (ls : List (Bool × Nat)) : Bool :=
  ls.any (fun l => !l.1 &&
    match s.lineXl o.ctx (64 * l.2) { acc := acc } with
    | .ok h => h.peer && (match h.tgt with
      | .loc d _ => (s.circuit (dieOf o.core) d).st == .setup
      | _ => false)
    | .error _ => false)

/-- How long a read over a link that is down waits before it fails: 50 ms (R358). -/
def hostTimeout : Nat := 112500000

/-- What lines of an operation wait for before they can be read: a circuit in SETUP (R353), or the time-out of a link that is down, which
ends it with LINK_DOWN as `fail` says (R359). Nothing, where they can be read now. -/
def State.lineWait (s : State) (k : Nat) (o : Op) (ls : List (Bool × Nat)) (ev : Instr) (fail : State → State) : Option State :=
  if s.needsHost o ls then
    some (if o.hostWait = 0 then (s.onOp k (fun o => { o with hostWait := s.now + hostTimeout })).postEv (s.now + hostTimeout) ev
      else if s.now < o.hostWait then s.postEv o.hostWait ev
      else fail s)
  else if s.needsCircuit o 4 ls then some (s.postEv (s.now + 1) ev)
  else none

/-- Lines read one after another: all of them, or the first fault. -/
def State.readLines (s : State) (o : Op) (gs : List Gran) : List (Bool × Nat) → NMap (List Byte) → Except TFault (NMap (List Byte) × State)
  | [], m => .ok (m, s)
  | l :: ls, m =>
    match s.readLine o l (gs.filter (fun x => x.pad == l.1 && x.g / 4 == l.2)) with
    | .error f => .error f
    | .ok (bs, s') => State.readLines s' o gs ls (bs.foldl (fun m e => NMap.set m e.1 e.2) m)

/-- The lines of granules read one after another. -/
def State.readAll (s : State) (o : Op) (gs : List Gran) (m : NMap (List Byte)) : Except TFault (NMap (List Byte) × State) :=
  s.readLines o gs (granLines gs) m

/-- The first cycle in which the copy port of a core may move a line (R204). -/
def State.portFrom (s : State) (core : Nat) : Nat := NMap.get 0 (s.core core).c.free 16

/-- A line has moved through the copy port of a core (R204). -/
def State.portMoved (s : State) (core : Nat) : State := s.onCtxSt core (fun c => { c with free := NMap.set c.free 16 (s.now + 1) })

/-- The requests for granules are served: their lines are read, one in a cycle (R204), by an operation that goes on with an event and
meets a fault as `fail` says. -/
def State.readGransBy (s : State) (k : Nat) (o : Op) (gs : List Gran) (ev : Instr) (fail : TFault → State → State) : State :=
  match s.lineWait k o (granLines gs) ev (fail { code := Code.linkDown, va := 0, acc := 4 }) with
  | some s => s
  | none =>
    match granLines gs with
    | [] => s.postEv (s.now + 1) ev
    | l :: ls =>
      if s.now < s.portFrom o.core then s.postEv (s.portFrom o.core) ev
      else if !s.padTurn o l.1 l.2 then s.postEv (s.now + 1) ev
      else
        match s.readLine o l (gs.filter (fun x => x.pad == l.1 && x.g / 4 == l.2)) with
        | .error f => fail f s
        | .ok (bs, s) =>
          let s := s.onOp k (fun o => { o with srcs := bs.foldl (fun m e => NMap.set m e.1 e.2) o.srcs, hostWait := 0 })
          let s := if ls.isEmpty then s.onOp k (fun o => { o with reqs := [], via := [] }) else s
          ((s.padTaken o l.1 [l.2]).portMoved o.core).postEv (s.now + 1) ev

/-- The granules of a copy are read. -/
def State.readGrans (s : State) (k : Nat) (o : Op) (gs : List Gran) : State :=
  s.readGransBy k o gs (.evCopyLine k) (fun f s => s.copyFault k f)

/-! ### Writing -/

/-- What a notice about an operation says of its source (R386). -/
def Op.info (o : Op) (k : Nat) : RecInfo :=
  { unit := o.unit, grp := o.cmd.grp, task := o.cmd.idx, coord := coordWord o.core, bundle := o.cmd.bundle,
    opid := (opIdent k o.gen).toNat }

/-- Bytes at addresses as masks of lines; of two at one address the later remains. -/
def lineMasks (parts : List (Nat × Byte)) : List (Nat × List (Option Byte)) :=
  ((parts.map (fun p => p.1 / 64)).eraseDups).map (fun l =>
    (l, (List.range 64).map (fun i => (parts.reverse.find? (fun p => p.1 == 64 * l + i)).map Prod.snd)))

/-- Where a line of a destination is written; scratchpad needs no translation. -/
inductive Place2 where
  | pad (x : Nat)
  | home (t : Tgt) (kind : Nat)
  deriving DecidableEq, Repr

def State.placeLine (s : State) (o : Op) (pad : Bool) (l acc : Nat) : Except TFault Place2 :=
  if pad then .ok (.pad (64 * l))
  else
    match s.lineXl o.ctx (64 * l) { acc := acc } with
    | .error f => .error f
    | .ok x => .ok (.home x.tgt x.kind)

/-- The places of several lines, or the first fault. -/
def State.placeLines (s : State) (o : Op) (pad : Bool) (acc : Nat) : List Nat → Except TFault (List Place2)
  | [] => .ok []
  | l :: ls =>
    match s.placeLine o pad l acc with
    | .error f => .error f
    | .ok p =>
      match s.placeLines o pad acc ls with
      | .error f => .error f
      | .ok ps => .ok (p :: ps)

/-- Whether a place is a publication window and the buffer of the die has no room (R364). -/
def State.windowFull (s : State) (o : Op) : Place2 → Bool
  | .home (.pub _ _) _ => decide (pubRoom < (s.die (o.ctx / 64)).pubBuf.length + 64)
  | _ => false

/-- Whether a line of a page in strong order waits for a write of the operation that the host link holds: it must not be performed before
it (R252). Held writes leave in order. -/
def State.strongWaits (s : State) (k : Nat) : Place2 → Bool
  | .home (.loc _ _) kind => kind == 1 && s.writesHeld k
  | _ => false

/-- One line written under its mask. -/
def State.writeLine (s : State) (k : Nat) (o : Op) (p : Place2) (bs : List (Option Byte)) : State :=
  match p with
  | .pad x => s.agentWrite o.core x bs (o.info k)
  | .home t _ => s.homeWrite o.ctx (o.info k) t bs none (some k)

/-- The translations of lines that an operation writes are held by the die's TLB (R271). -/
def State.linesSeen (s : State) (o : Op) (pad : Bool) (acc : Nat) (ls : List Nat) : State :=
  if pad then s else ls.foldl (fun s l => s.fillTlb o.ctx (64 * l) acc) s

/-- A line is complete (R204): progress, bytes and flags, and the next line follows. -/
def State.lineDone (s : State) (k n : Nat) (flags : FFlags) (next : Nat × Nat) : State :=
  let s := s.onOp k (fun o =>
    { o with prog := o.prog + 1, bytes := o.bytes + n, flags := o.flags ||| flags, lines := o.lines.drop 1,
             row := next.1, sub_ := next.2, reqs := [], via := [] })
  let o := s.op k
  let s := s.portMoved o.core
  let s := if o.owner = 0 then s.clearWatch o.ownCore o.grp o.idx else s
  s.postEv (s.now + 1) (.evCopyLine k)

/-- Bytes of a destination whose source overlaps it are undefined (R211). -/
def State.spoil (s : State) (o : Op) (parts : List (Nat × Byte)) : List (Nat × Byte) × State :=
  if o.undef then
    ((List.range parts.length).map (fun i => ((parts.getD i (0, 0)).1, Config.freeByte (s.free + i))),
      { s with free := s.free + parts.length })
  else (parts, s)

/-- The bytes of a line are written, whole or not at all (R217). -/
def State.writeParts (s : State) (k : Nat) (o : Op) (pad : Bool) (parts : List (Nat × Byte)) (flags : FFlags) (next : Nat × Nat) : State :=
  let (parts, s) := s.spoil o parts
  let ms := lineMasks parts
  match s.placeLines o pad 5 (ms.map Prod.fst) with
  | .error f => s.copyFault k f
  | .ok ps =>
    let ls := ms.map Prod.fst
    if s.needsCircuit o 5 (ls.map (fun l => (pad, l))) || ps.any (fun p => s.windowFull o p || s.strongWaits k p) || ls.any (fun l => !s.padTurn o pad l) then s.postEv (s.now + 1) (.evCopyLine k)
    else
      let s := (List.zip ps ms).foldl (fun s pm => s.writeLine k o pm.1 pm.2.2) ((s.padTaken o pad ls).linesSeen o pad 5 ls)
      s.lineDone k parts.length flags next

/-- The sum an addition of `CPYSC` leaves (R215). -/
def scatterSum (fmt old v : Nat) : Nat × FFlags := if fmt = 8 then fadd fmtF32 0 old v else ((old + v) % 2 ^ 32, 0)

/-- What stands in a line now; none where it cannot be read. -/
def State.lineBytes (s : State) (o : Op) : Place2 → Option (List Byte)
  | .pad x => if s.padBad o.core x 64 then none else some (s.agentBytes o.core x 64 o.cmd.t)
  | .home t _ => if s.homeBad t 64 then none else some (s.homeBytes o.ctx t 64)

/-- A line that was read is checked (R293, R295). -/
def State.lineSeen (s : State) (o : Op) : Place2 → State
  | .pad x => s.padScrub o.core x 64
  | .home t _ => s.scrubRun t 64

/-- Elements added into what stands at their addresses, each in one step (R215). -/
def State.addParts (s : State) (k : Nat) (o : Op) (pad : Bool) (fmt : Nat) (parts : List (Nat × Nat)) (next : Nat × Nat) : State :=
  let ls := (parts.flatMap (fun p => [p.1 / 64, (p.1 + 3) / 64])).eraseDups
  match s.placeLines o pad 4 ls, s.placeLines o pad 5 ls with
  | .error f, _ => s.copyFault k f
  | _, .error f => s.copyFault k f
  | .ok rs, .ok _ =>
    match s.lineWait k o (ls.map (fun l => (pad, l))) (.evCopyLine k) (fun s => s.copyFault k { code := Code.linkDown, va := 0, acc := 4 }) with
    | some s => s
    | none =>
    let olds := (List.zip ls rs).map (fun lr => (lr.1, s.lineBytes o lr.2))
    if olds.any (fun l => l.2.isNone) then s.copyFault k { code := Code.memUncorrectable, va := 64 * ls.headD 0 % 2 ^ 57, acc := 4 }
    else
      let byte (a : Nat) : Byte := (((olds.find? (fun l => l.1 == a / 64)).bind Prod.snd).getD []).getD (a % 64) 0
      let sums := parts.map (fun p => (p.1, scatterSum fmt (ofBytes ((List.range 4).map (fun i => byte (p.1 + i)))) p.2))
      let s := if ls.any (fun l => !s.padTurn o pad l) then s else rs.foldl (fun s p => s.lineSeen o p) s
      s.writeParts k o pad (sums.flatMap (fun p => (List.range 4).map (fun i => (p.1 + i, (toBytes 4 p.2.1).getD i 0))))
        (sums.foldl (fun acc p => acc ||| p.2.2) 0) next

/-- The lines of a destination that a write asks for. -/
def partLines (pad : Bool) (as : List Nat) : List (Bool × Nat) := ((as.map (fun a => a / 64)).eraseDups).map (fun l => (pad, l))

/-- An operation that is to be saved, or whose context is dumped, makes no further line (R200, R346). -/
def State.holdLine (s : State) (k prog : Nat) (next : Op → LineStep) : State :=
  match s.op? k with
  | none => s
  | some o =>
    let over_ := match next o with
      | .done => true
      | _ => false
    if o.prog ≠ prog ∧ o.st == .started ∧ s.opFrozen o ∧ !over_ then s.dropActs k else s

/-- A line of an operation goes on (R204), as `next` says: requests, reading, writing, or the end. `more` names source lines
of the destination lines to come. -/
def State.copyLine (s : State) (k : Nat) (next : Op → LineStep) (more : Op → List (Bool × Nat)) : State :=
  match s.op? k with
  | none => s
  | some o =>
    if o.st != .started || o.finished || o.verdict.isSome then s
    else
      match o.stop with
      | some code => s.endLater k code o.prog o.flags
      | none =>
        let portFree := s.portFrom o.core
        if 0 < o.need then s
        else
          match next o with
          | .done => s.postEv (s.now + 1) (.evOpComplete k)
          | .fail code => s.copyFault k { code := code, va := 0, acc := 0 }
          | .keep key bs => (s.onOp k (fun o => { o with srcs := NMap.set o.srcs key bs })).postEv s.now (.evCopyLine k)
          | .need gs =>
            if o.reqs.isEmpty && !o.hasLines 4 (granLines gs) then s.askLines k o 4 (granLines gs) (more o) else s.readGrans k o gs
          | .write pad parts fl nx =>
            let ls := partLines pad (parts.map Prod.fst)
            if o.reqs.isEmpty && !o.hasLines 5 ls then s.askLines k o 5 ls
            else if s.now < portFree then s.postEv portFree (.evCopyLine k)
            else (s.writeParts k o pad parts fl nx).holdLine k o.prog next
          | .add pad fmt parts nx =>
            let ls := partLines pad (parts.map Prod.fst)
            if o.reqs.isEmpty && !o.hasLines 5 ls then s.askLines k o 5 ls
            else if s.now < portFree then s.postEv portFree (.evCopyLine k)
            else (s.addParts k o pad fmt parts nx).holdLine k o.prog next

end Sys2Proof.Machine
end

