-- ==== Sys2Proof/Machine/Gather.lean ====
section
/-!
DEFINITION. What each line of a copy is made of: the pairs of `CPY` (R210, R211), the weight streams of `CPYX` (R212, R213),
and the rows of gathers and scatters (R214, R215).
-/

namespace Sys2Proof.Machine

/-- A record an operation read at start (R209). -/
def Op.shape (o : Op) (i : Nat) : Shape := parseShape (o.recs.getD i [])

/-- Asks for granules that are missing, or goes on. -/
def Op.withGrans (o : Op) (gs : List Gran) (f : LineStep) : LineStep :=
  let ms := (o.missing gs).eraseDups
  if ms.isEmpty then f else .need ms

/-! ### `CPY` -/

/-- The next line of `CPY`. -/
def Op.cpyStep (o : Op) : LineStep :=
  let a := o.shape 0
  let d := o.shape 1
  match copyForm a d, o.lines with
  | none, _ => .fail Code.layoutMismatch
  | _, [] => .done
  | some f, (l, us) :: _ =>
    o.withGrans (granulesOf a.sp 0 (joinSpans (us.flatMap f.src)))
      (let made := us.map (fun u => (u, f.conv u (o.spanBytes a.sp 0 (f.src u))))
       .write d.sp (made.flatMap (fun m => partsIn l (f.dst m.1) m.2.1))
         (made.foldl (fun acc m => if startsIn l (f.dst m.1) then acc ||| m.2.2 else acc) 0) (0, 0))

/-- The source lines of the next destination lines of `CPY`. -/
def Op.cpyMore (o : Op) : List (Bool × Nat) :=
  match o.cmd.ins with
  | .cpy _ _ _ _ _ =>
    let a := o.shape 0
    (match copyForm a (o.shape 1) with
    | some f => (o.lines.take 65).flatMap (fun l => granLines (o.missing (granulesOf a.sp 0 (joinSpans (l.2.flatMap f.src)))))
    | none => [])
  | _ => []

/-! ### `CPYX` -/

/-- The code length of every symbol (R212). -/
def lensOf (hdr : List Byte) : List Nat :=
  (List.range 256).map (fun sy => bits (hdr.getD (128 + sy / 2) 0).toNat (4 * (sy % 2)) 4)

/-- Whether the header of a weight stream is as it must be (R212). -/
def streamHeaderOk (hdr : List Byte) : Bool :=
  let lens := lensOf hdr
  (hdr.getD 0 0).toNat == 1 && ((hdr.drop 1).take 3).all (· == 0) && ((hdr.drop 8).take 120).all (· == 0)
    && lens.all (fun n => decide (n ≤ 12)) && lens.any (fun n => n != 0)
    && decide (lens.foldl (fun acc n => if n = 0 then acc else acc + 2 ^ (12 - n)) 0 ≤ 2 ^ 12)

/-- The canonical codes (R213): code, previous length, and for each symbol its length and codeword. -/
def codeTable (lens : List Nat) : List ((Nat × Nat) × Nat) :=
  (((List.range 12).flatMap (fun i => ((List.range 256).filter (fun sy => lens.getD sy 0 == i + 1)).map (fun sy => (i + 1, sy)))).foldl
    (fun (acc : Nat × Nat × List ((Nat × Nat) × Nat)) e =>
      let code := acc.1 * 2 ^ (e.1 - acc.2.1)
      (code + 1, e.1, ((e.1, code), e.2) :: acc.2.2)) (0, 0, [])).2.2

/-- One symbol read from the bits, in at most n more of them. -/
def readSym (tbl : List ((Nat × Nat) × Nat)) : Nat → Nat → Nat → List Nat → Option (Nat × List Nat)
  | 0, _, _, _ => none
  | _, _, _, [] => none
  | n + 1, len, code, b :: bs =>
    match tbl.find? (fun e => e.1.1 == len + 1 && e.1.2 == 2 * code + b) with
    | some e => some (e.2, bs)
    | none => readSym tbl n (len + 1) (2 * code + b) bs

/-- D symbols, and whether they were all there. -/
def readSyms (tbl : List ((Nat × Nat) × Nat)) : Nat → List Nat → List Byte → List Byte × Bool
  | 0, _, acc => (acc.reverse, true)
  | n + 1, bs, acc =>
    match readSym tbl 12 0 0 bs with
    | some (sy, rest) => readSyms tbl n rest (BitVec.ofNat 8 sy :: acc)
    | none => (acc.reverse, false)

/-- A block of a weight stream decoded (R213). -/
def decodeBlock (tbl : List ((Nat × Nat) × Nat)) (blk : List Byte) : List Byte × Bool :=
  let bh := ofBytes (blk.take 4)
  if bh / 2 ^ 15 ≠ 0 ∨ bh % 2 ^ 15 = 0 then ([], false)
  else readSyms tbl bh ((blk.drop 4).flatMap (fun b => (List.range 8).map (fun i => bits b.toNat (7 - i) 1))) []

/-- Where a decoded block is kept, its first byte saying that it decoded whole. -/
def blockKey (b : Nat) : Nat := 3 * 2 ^ 62 + b

/-- How the decoded bytes so far end: more is needed, the stream is invalid there, or it is at its end. -/
inductive StreamEnd where
  | more (st : LineStep)
  | bad
  | fin
  deriving DecidableEq, Repr

/-- The bytes decoded so far, from block b on with n blocks left. -/
def Op.stream (o : Op) (a : Shape) : Nat → Nat → List Byte × StreamEnd
  | 0, _ => ([], .fin)
  | n + 1, b =>
    let gs := granulesOf a.sp 0 [((a.base + 256 + 4096 * b : Nat), 4096)]
    match NMap.find o.srcs (blockKey b) with
    | some (flag :: bs) =>
      if flag = 1 then
        let r := Op.stream o a n (b + 1)
        (bs ++ r.1, r.2)
      else (bs, .bad)
    | _ =>
      ([], .more (o.withGrans gs
        (let hdr := o.runBytes a.sp 0 ((a.base : Int), 256)
         let r := decodeBlock (codeTable (lensOf hdr)) (o.runBytes a.sp 0 ((a.base + 256 + 4096 * b : Nat), 4096))
         .keep (blockKey b) ((if r.2 then 1 else 0) :: r.1))))

/-- The next line of `CPYX` (R213). -/
def Op.cpyxStep (o : Op) : LineStep :=
  let a := o.shape 0
  let d := o.shape 1
  let r := o.stream a ((a.dim 0 - 256) / 4096) 0
  match o.lines with
  | [] =>
    match r.2 with
    | .more st => st
    | .bad => .fail Code.layoutMismatch
    | .fin => if r.1.length = d.byteCount then .done else .fail Code.shapeBounds
  | (l, us) :: _ =>
    let n := d.unitBytes
    if us.all (fun u => decide (n * (u + 1) ≤ r.1.length)) then
      .write d.sp (us.flatMap (fun u => partsIn l (d.unitSpans u) ((r.1.drop (n * u)).take n))) 0 (0, 0)
    else
      match r.2 with
      | .more st => st
      | .bad => .fail Code.layoutMismatch
      | .fin => .fail Code.shapeBounds

/-! ### Gathers and scatters -/

/-- Set bits of a granule mask. -/
def maskBits (g : Nat) : List Nat := (List.range 4).filter (fun i => bitOf g i)

/-- Bytes of a selected row (R214). -/
def selSize (rb g : Nat) : Nat := rb * (maskBits g).length / 4

/-- The byte of a row that byte o of its selected row is (R214). -/
def selOff (g o : Nat) : Nat :=
  if g = 15 then o
  else
    let c := 16 * (maskBits g).length
    64 * (o / c) + 16 * (maskBits g).getD (o % c / 16) 0 + o % 16

/-- Bytes of a row. -/
def Shape.rowBytes (sh : Shape) : Nat := sh.dim 0 * fmtSize sh.fmt

/-- The run of index j of a list. -/
def indexRun (ls : Shape) (j : Nat) : Span := ((ls.base + 4 * j : Nat), 4)

/-- Index j, once its granule is read. -/
def Op.index (o : Op) (ls : Shape) (j : Nat) : Nat := ofBytes (o.runBytes ls.sp 0 (indexRun ls j))

/-- Whether an index names a row of the table. -/
def Shape.hasRow (t : Shape) (x : Nat) : Bool := decide (x < t.dim 1)

/-- The run of an element of a selected row. -/
def Shape.selRun (t : Shape) (x o n : Nat) : Span := (t.base + x * t.stride 1 + selOff t.gmask o, n)

/-- The next line of `CPYG` (R215): a row read again for each index that names it. -/
def Op.gatherStep (o : Op) : LineStep :=
  let ls := o.shape 0
  let d := o.shape 1
  let t := o.shape 2
  let e := fmtSize d.fmt
  match o.lines with
  | [] => .done
  | (l, us) :: _ =>
    o.withGrans (us.flatMap (fun u => granulesOf ls.sp 0 [indexRun ls (u / d.dim 0)]))
      (let run (u : Nat) : Span := t.selRun (o.index ls (u / d.dim 0)) (u % d.dim 0 * e) e
       let bytes (u : Nat) : List Byte :=
         let x := o.index ls (u / d.dim 0)
         if x = 0xFFFFFFFF then List.replicate e 0
         else if t.hasRow x then o.runBytes t.sp (u / d.dim 0 + 1) (run u)
         else List.replicate e ls.fill
       o.withGrans (us.flatMap (fun u => if t.hasRow (o.index ls (u / d.dim 0)) then granulesOf t.sp (u / d.dim 0 + 1) [run u] else []))
         (.write d.sp (us.flatMap (fun u => partsIn l (d.unitSpans u) (bytes u))) 0 (0, 0)))

/-- The places of a row that a scatter writes: the address and the offset in the row it comes from, `n` bytes each. -/
def scatterCells (t : Shape) (x n : Nat) : List (Nat × Nat) :=
  (List.range (selSize t.rowBytes t.gmask / n)).map (fun i => (addrOf (t.base + x * t.stride 1 + selOff t.gmask (n * i)), n * i))

/-- The next line of a scatter from a row on (R215): rows in ascending j, lines of a row in the order of its bytes. -/
def Op.scatterFrom (o : Op) (ls a t : Shape) (adds : Bool) : Nat → Nat → Nat → LineStep
  | 0, _, _ => .done
  | n + 1, j, sub =>
    o.withGrans (granulesOf ls.sp 0 [indexRun ls j])
      (let x := o.index ls j
       let w := if adds then 4 else 1
       let cells := if t.hasRow x then scatterCells t x w else []
       match ((cells.map (fun c => c.1 / 64)).eraseDups)[sub]? with
       | none => Op.scatterFrom o ls a t adds n (j + 1) 0
       | some l =>
         let cs := cells.filter (fun c => c.1 / 64 == l)
         let run (c : Nat × Nat) : Span := (a.base + j * a.stride 1 + c.2, w)
         o.withGrans (granulesOf a.sp 0 (cs.map run))
           (if adds then .add t.sp t.fmt (cs.map (fun c => (c.1, ofBytes (o.runBytes a.sp 0 (run c))))) (j, sub + 1)
            else .write t.sp (cs.map (fun c => (c.1, (o.runBytes a.sp 0 (run c)).getD 0 0))) 0 (j, sub + 1)))

/-- The next line of `CPYS` and `CPYSC`. -/
def Op.scatterStep (o : Op) (adds : Bool) : LineStep :=
  let ls := o.shape 1
  o.scatterFrom ls (o.shape 0) (o.shape 2) adds (ls.dim 0 - o.row) o.row o.sub_

/-- The list record of a gather or a scatter. -/
def Op.listRec (o : Op) : Shape :=
  match o.cmd.ins with
  | .cpyg _ _ _ _ => o.shape 0
  | _ => o.shape 1

/-- The detail of a gather or a scatter (R216): rows handled, and indices out of range. -/
def Op.gatherDetail (o : Op) : Nat :=
  let ls := o.listRec
  let t := o.shape 2
  let out := ((List.range (ls.dim 0)).filter (fun j => let x := o.index ls j; x != 0xFFFFFFFF && !t.hasRow x)).length
  ls.dim 0 % 2 ^ 24 + out % 2 ^ 24 * 2 ^ 24

end Sys2Proof.Machine
end

