-- ==== Sys2Proof/Machine/Queue.lean ====
section
/-!
DEFINITION. The queue controller and splicing (R165 to R184, R377): queue commands at issue and at their heads, the lines
`QPUSH` and `QPOP` move, and the messages of a splice.
-/

namespace Sys2Proof.Machine

/-! ### At issue (R178) -/

/-- `QINIT` (R178, R179). -/
def execQinit (h : CmdHdr) (q : BitVec 5) (base : Opd) (lsz : BitVec 5) (lcnt scope : BitVec 3) (s : State) :
    Host.Outcome State Fault Refusal :=
  plainCmd s (.qinit h q base lsz lcnt scope) [base]

/-- `QSPLICE.send` (R178, R180). -/
def execQspliceSend (h : CmdHdr) (ql qr : BitVec 5) (die x y : BitVec 3) (s : State) : Host.Outcome State Fault Refusal :=
  plainCmd s (.qspliceSend h ql qr die x y) []

/-- `QSPLICE.recv` (R178, R180). -/
def execQspliceRecv (h : CmdHdr) (ql qr : BitVec 5) (die x y : BitVec 3) (s : State) : Host.Outcome State Fault Refusal :=
  plainCmd s (.qspliceRecv h ql qr die x y) []

/-- `QUNSPLICE` (R178, R181). -/
def execQunsplice (h : CmdHdr) (q : BitVec 5) (s : State) : Host.Outcome State Fault Refusal := plainCmd s (.qunsplice h q) []

/-- `QRESET` (R178, R182). -/
def execQreset (h : CmdHdr) (q : BitVec 5) (free : Bool) (s : State) : Host.Outcome State Fault Refusal := plainCmd s (.qreset h q free) []

/-- `QSTAT` (R178, R183). -/
def execQstat (h : CmdHdr) (q : BitVec 5) (s : State) : Host.Outcome State Fault Refusal := plainCmd s (.qstat h q) []

/-- `QPUSH` (R178, R184). -/
def execQpush (h : CmdHdr) (q : BitVec 5) (a : Opd) (s : State) : Host.Outcome State Fault Refusal := plainCmd s (.qpush h q a) [a]

/-- `QPOP` (R178, R184). -/
def execQpop (h : CmdHdr) (q : BitVec 5) (a : Opd) (s : State) : Host.Outcome State Fault Refusal := plainCmd s (.qpop h q a) [a]

/-! ### Subscriptions -/

/-- A subscription is to stop after the tile its groom is moving (R222, R223): with code 0 it succeeds. -/
def State.stopSubs (s : State) (op code : Nat) : State :=
  (s.onOp op (fun o => { o with stop := some code })).postFree 64 (.evGroomTileFill op)

/-! ### Splices (R174, R180) -/

/-- The reach of a core toward another (R172). -/
def reachOf (a b : Nat) : Nat :=
  if dieOf a = dieOf b then (if yardOf a = yardOf b then 1 else 2) else 3

/-- A sender's HELLO, and the time at which it is sent again (R174). -/
def State.sendHello (s : State) (core q : Nat) : State :=
  let qq := s.queue core q
  match qq.partner with
  | some (pc, pq) =>
    (s.sendSplice core q (pc, pq) s.now 1 true (.evHello pc pq core q qq.size (reachOf core pc))).postEv (s.now + 1024)
      (.evHelloResend core q qq.hello)
  | none => s

/-- The token of a pending splice of a core's queue completes. -/
def State.endSplice (s : State) (core q code detail : Nat) (head : Bool) : State :=
  match (s.queue core q).partner with
  | some p => s.endSpliceOf core q p code detail head
  | none => s

/-- A receiver answers the HELLO of the sender it names (R171, R174). -/
def State.meetHello (s : State) (core q size reach : Nat) (head : Bool) : State :=
  let qq := s.queue core q
  let refuse (code : Nat) : State :=
    let s := s.sendCtl core q (fun pc pq => .evRefuse pc pq code)
    (s.endSplice core q code 0 head).onQueue core q (fun x => { x with st := .opened, partner := none })
  if size ≠ qq.size then refuse Code.queueState
  else if qq.scope < reach then refuse Code.queueScope
  else
    let n := qq.count - ctr (qq.tail + 65536 - qq.rel)
    let serial := (qq.partner.map (fun p => (s.spliced p.1 p.2 (core, q)).hello)).getD 0
    let s := s.onQueue core q (fun x => { x with st := .recv, reserved := x.tail, tail := ctr (x.rel + x.count), hello := serial })
    (s.sendCtl core q (fun pc pq => .evGrant pc pq n)).endSplice core q 0 n head

/-- Whether a queue still sends its HELLO to another (R174, R181). -/
def State.helloStands (s : State) (core q pc pq : Nat) : Bool :=
  (s.spliced core q (pc, pq)).st == .pendS

/-- A HELLO arrives: the sender a pending receiver names is answered, any other is held back (R174). -/
def State.helloArrives (s : State) (core q fromCore fromQ size reach : Nat) : State :=
  let qq := s.queue core q
  if !s.helloStands fromCore fromQ core q then s
  else if qq.st == .pendR && qq.partner == some (fromCore, fromQ) then s.meetHello core q size reach false
  else
    s.onQueue core q (fun x =>
      { x with heldHello := x.heldHello.filter (fun e => !(e.1 == fromCore && e.2.1 == fromQ)) ++ [(fromCore, fromQ, size, reach)] })

/-- A receiver that has just named its sender takes the HELLO it held back (R174). -/
def State.takeHeld (s : State) (core q : Nat) : State :=
  let qq := s.queue core q
  match qq.heldHello.find? (fun e => qq.partner == some (e.1, e.2.1)) with
  | some e =>
    let s := s.onQueue core q (fun x => { x with heldHello := x.heldHello.filter (fun y => y != e) })
    if s.helloStands e.1 e.2.1 core q then s.meetHello core q e.2.2.1 e.2.2.2 true else s
  | none => s

/-- `QSPLICE` at its head (R171, R180). -/
def State.spliceHead (s : State) (core : Nat) (c : Cmd) (q pc pq : Nat) (send : Bool) : State :=
  let qq := s.queue core q
  if qq.st != .opened || !qq.isEmpty || pc == core then s.endCmd core c Code.queueState 0 true
  else if qq.scope < reachOf core pc then s.endCmd core c Code.queueScope 0 true
  else
    let s := s.onQueue core q (fun x =>
      { x with st := if send then .pendS else .pendR, partner := some (pc, pq), spliceTok := some (0, c), cr := 0, sent := 0,
               unsent := 0, paused := false, hello := if send then c.serial else x.hello })
    if send then s.sendHello core q else s.takeHeld core q

/-- `QUNSPLICE` at its head (R181); none while an append is not sent, or while the receiver is saved (R177). -/
def State.unspliceHead (s : State) (core : Nat) (c : Cmd) (q : Nat) : Option State :=
  let qq := s.queue core q
  let opened (s : State) : State := s.onQueue core q (fun x => { x with st := .opened, partner := none, cr := 0, paused := false })
  match qq.st, qq.partner with
  | .send, some _ =>
    if qq.unsent ≠ 0 ∨ s.now ≤ qq.lastSend ∨ qq.paused then none
    else
      let s := opened (s.sendCtl core q (fun pc pq => .evEnd pc pq))
      some (s.onCtxSt core (fun x => { x with opWaits := x.opWaits ++ [(3, endKey core q, c)] }))
  | .pendS, _ => some ((opened (s.endSplice core q Code.spliceLost 0 true)).endCmd core c 0 0 true)
  | _, _ => some (s.endCmd core c Code.queueState 0 true)

/-- `QRESET` at its head (R182); none while a read of the queue is in progress. -/
def State.resetHead (s : State) (core : Nat) (c : Cmd) (q : Nat) (free : Bool) : Option State :=
  let qq := s.queue core q
  if qq.st == .free then some (s.endCmd core c Code.queueState 0 true)
  else if qq.busy.any (fun e => decide (0 < e.2)) then none
  else
    let s := match qq.sub with
      | some op => s.stopSubs op 0
      | none => s
    some ((s.resetQueue core q free).endCmd core c 0 0 true)

/-- The detail of `QSTAT` (R183). -/
def Queue.statDetail (q : Queue) : Nat :=
  q.occ % 2 ^ 9 + q.room % 2 ^ 9 * 2 ^ 9 + (if q.paused then 2 ^ 20 else 0) + q.st.code * 2 ^ 21 + q.idx q.head % 2 ^ 8 * 2 ^ 24

/-- `QINIT` at its head (R179). -/
def State.initHead (s : State) (core : Nat) (c : Cmd) (q size count scope : Nat) : State :=
  let base := (c.vals.getD 0 0).toNat
  if (s.queue core q).st != .free then s.endCmd core c Code.queueState 0 true
  else if base % 64 ≠ 0 then s.endCmd core c Code.align 0 true
  else if 0x300000 < base + size * count then s.endCmd core c Code.shapeBounds 0 true
  else (s.openQueue core q base size count scope (c.grp, c.idx)).endCmd core c 0 0 true

/-! ### `QPUSH` and `QPOP` (R184) -/

/-- The state a queue command of the two needs (R170): an append on a lost sender is SPLICE_LOST (R176, notes/assumptions/76). -/
def moveState (qq : Queue) (now : Nat) (push : Bool) : Option Nat :=
  if push then
    if qq.st == .lost && qq.lostSend then some Code.spliceLost else if qq.st.mayAppend then none else some Code.queueState
  else if !qq.st.mayRead then some Code.queueState
  else if qq.st == .lost && decide (0 < qq.occ) && !qq.present now qq.head then some Code.spliceLost
  else none

/-- Whether the condition on the head cycle holds. -/
def moveReady (qq : Queue) (now : Nat) (push : Bool) : Bool :=
  if push then decide (1 ≤ qq.room) else decide (1 ≤ qq.occ) && qq.present now qq.head

/-- The checks on the address (R184, R237). -/
def State.moveFault (s : State) (core a size : Nat) (push : Bool) : Option Nat :=
  if a % 64 ≠ 0 then some Code.align
  else if 0x300000 < a + size then some Code.shapeBounds
  else if !s.bufOk core a size push (!push) then some Code.bufferState
  else none

/-- `QPUSH` or `QPOP` at its head: the slot is reserved or popped, and the lines begin to move in the next cycle. -/
def State.moveHead (s : State) (core : Nat) (c : Cmd) (q : Nat) (push : Bool) : Option State :=
  let qq := s.queue core q
  let a := (c.vals.getD 0 0).toNat
  match moveState qq s.now push with
  | some code => some (s.endCmd core c code 0 true)
  | none =>
    if !moveReady qq s.now push then none
    else
      match s.moveFault core a qq.size push with
      | some code => some (s.endCmd core c code 0 true)
      | none =>
        let ks := (s.buffersOf core a qq.size).map Prod.fst
        let n := qq.size / 64
        let start (slot : Nat) (s : State) : State :=
          let c := { c with vals := [word a, word (qq.slotAddr slot)], lines := List.range n, uses := ks,
                            res := some (q, slot, n), got := [], bad := none, fe := 0 }
          ((s.useBuffers core ks).onCtxSt core (fun x => { x with moving := some c })).post (s.now + 1) (.move core)
        if push then
          let r := s.reserveSlot core q
          some (start r.1 r.2)
        else
          some (start (qq.gen * 65536 + qq.head) ((s.popTo core q (qq.head + 1)).addBusy core q qq.head 1))

/-- Where line j of the move is read and where it is written. -/
def moveAddrs (c : Cmd) (push : Bool) (j : Nat) : Nat × Nat :=
  let a := (c.vals.getD 0 0).toNat + 64 * j
  let b := (c.vals.getD 1 0).toNat + 64 * j
  if push then (a, b) else (b, a)

def Cmd.isPush (c : Cmd) : Bool :=
  match c.ins with
  | .qpush _ _ _ => true
  | _ => false

/-- The line read in an earlier cycle is written, if its bank is free (R21, R377). -/
def State.moveWrite (s : State) (core : Nat) (c : Cmd) : Cmd × State :=
  match c.got.drop c.fe, c.res with
  | (_, bs) :: _, some (q, slot, _) =>
    let dst := (moveAddrs c c.isPush c.fe).2
    let qq := s.queue core q
    let far := c.isPush && (qq.st == .send || qq.st == .pendS)
    if far then ({ c with fe := c.fe + 1 }, s)
    else if s.engBank core (dst / 2 ^ 14) then
      let s := s.takeEng core [dst]
      ({ c with fe := c.fe + 1 },
        if c.isPush then s.fillSlot core q slot s.now s.now (64 * c.fe) bs false false else s.agentPut core dst bs)
    else (c, s)
  | _, _ => (c, s)

/-- The next line is read, if no line is waiting to be written and its bank is free. -/
def State.moveRead (s : State) (core : Nat) (c : Cmd) : Cmd × State :=
  match c.lines with
  | [] => (c, s)
  | j :: ls =>
    let src := (moveAddrs c c.isPush j).1
    if c.got.length ≠ c.fe ∨ !s.engBank core (src / 2 ^ 14) then (c, s)
    else
      let bad := s.padBad core src 64
      ({ c with lines := ls, got := c.got ++ [(j, s.padBytes core src 64)], bad := if bad then c.bad.orElse (fun _ => some src) else c.bad },
        (s.takeEng core [src]).padScrub core src 64)

/-- One cycle of a move (R184). -/
def State.moveStep (s : State) (core : Nat) : State :=
  match (s.core core).c.moving with
  | none => s
  | some c =>
    let w := s.moveWrite core c
    let r := w.2.moveRead core w.1
    let s := r.2.onCtxSt core (fun x => { x with moving := some r.1 })
    if r.1.lines.isEmpty ∧ r.1.fe = r.1.got.length then s.postEv (s.now + 1) (.evQpushQpopCompletion core)
    else s.post (s.now + 1) (.move core)

/-- The completion cycle of a move (R168, R175, R184): the slot is present or its bytes are sent, BUSY falls, the token
completes, and the next command may have its head. -/
def State.moveDone (s : State) (core : Nat) : State :=
  match (s.core core).c.moving with
  | none => s
  | some c =>
    let s := (s.onCtxSt core (fun x => { x with moving := none, free := NMap.set x.free 3 s.now })).freeBuffers core c.uses
    let s := match c.res with
      | some (q, slot, _) =>
        let qq : Queue := s.queue core q
        if c.isPush then
          if qq.st == QState.send then s.fillSlot core q slot (s.now - 1) s.now 0 (c.got.flatMap Prod.snd) true false
          else s.fillSlot core q slot s.now s.now 0 [] true false
        else if qq.gen = slot / 65536 then (s.addBusy core q (slot % 65536) (-1)).post s.now (.release core q)
        else s
      | none => s
    (s.endCmd core c (if c.bad.isSome then Code.memUncorrectable else 0) 0 false).postHead core 3 s.now

/-- A command of the queue controller at its head; none while its own condition does not hold (R178). -/
def State.queueHead (s : State) (core : Nat) (c : Cmd) : Option State :=
  match c.ins with
  | .qinit _ q _ lsz lcnt sc => some (s.initHead core c q.toNat (2 ^ lsz.toNat) (2 ^ (lcnt.toNat + 1)) sc.toNat)
  | .qspliceSend _ ql qr d x y => some (s.spliceHead core c ql.toNat (64 * d.toNat + 8 * y.toNat + x.toNat) qr.toNat true)
  | .qspliceRecv _ ql qr d x y => some (s.spliceHead core c ql.toNat (64 * d.toNat + 8 * y.toNat + x.toNat) qr.toNat false)
  | .qunsplice _ q => s.unspliceHead core c q.toNat
  | .qreset _ q free => s.resetHead core c q.toNat free
  | .qstat _ q => some (s.endCmd core c 0 (s.queue core q.toNat).statDetail true)
  | .qpush _ q _ => s.moveHead core c q.toNat true
  | .qpop _ q _ => s.moveHead core c q.toNat false
  | _ => some s

/-! ### Messages -/

/-- Bytes of an append arrive at a receiver (R174, R175): the n-th append fills the n-th slot reserved for the sender. They are there
in the cycle R175 gives, and each line of them takes its bank at rank 4 of R21 in the first cycle from then on in which it is free
(notes/assumptions/13). -/
def State.dataArrives (s : State) (core qm : Nat) (m : SpliceMsg) : State :=
  let q := qm % 32
  let qq := s.queue core q
  if qq.st != .recv || !qq.isFrom qm then s
  else
    let c := ctr (qq.reserved + m.seq)
    let a := qq.slotAddr c
    let n := if m.bytes.isEmpty && m.poison then qq.size else m.bytes.length
    let ls := (List.range ((m.off % 64 + m.bytes.length + 63) / 64)).map (fun i => (a + m.off) / 64 * 64 + 64 * i)
    let s := (ls.foldl (fun s l => s.post s.now (.padBank core l)) s).agentPut core (a + m.off) m.bytes
    let s := if m.poison then s.padPoisonLines core (a + m.off) n else s
    if m.last then s.setPresent core q c s.now else s

/-- A line that a splice neighbour wrote takes its bank, or waits for the next free cycle (R21). -/
def State.padBank (s : State) (core l : Nat) : State :=
  if s.engBank core (l / 2 ^ 14) then s.takeEng core [l] else s.post (s.now + 1) (.padBank core l)

/-- What a message does to the queue it is for, wherever that queue's context is. -/
def State.onMsg (s : State) (core qm : Nat) (f : Queue → Queue) : State := s.onSpliced core (qm % 32) (msgFrom qm) f

/-- The queue a message is for. -/
def State.msgQueue (s : State) (core qm : Nat) : Queue := s.spliced core (qm % 32) (msgFrom qm)

/-- GRANT (R171, R175). -/
def State.grantArrives (s : State) (core qm n : Nat) : State :=
  if (s.msgQueue core qm).st == .pendS then
    (s.onMsg core qm (fun x => { x with st := .send, cr := n })).endSpliceOf core (qm % 32) (msgFrom qm) 0 n false
  else s

/-- REFUSE (R171, R180). -/
def State.refuseArrives (s : State) (core qm code : Nat) : State :=
  if (s.msgQueue core qm).st == .pendS then
    (s.endSpliceOf core (qm % 32) (msgFrom qm) code 0 false).onMsg core qm (fun x => { x with st := .opened, partner := none })
  else s

/-- A credit (R174); one that reaches a queue that has left SEND is discarded (R377). -/
def State.creditArrives (s : State) (core qm serial : Nat) : State :=
  s.onMsg core qm (fun x => if x.st == .send && x.hello == serial then { x with cr := x.cr + 1 } else x)

/-- END (R171, R181): unfilled reservations are withdrawn, the slots a save held back are released, and the sender's `QUNSPLICE`
completes. -/
def State.endArrives (s : State) (core qm : Nat) : State :=
  ((s.onMsg core qm (fun x =>
    if x.st == .recv then { x.withdraw with st := .opened, partner := none, paused := false, quiet := 0 } else x)).post s.now
      (.release core (qm % 32))).answerKey (2 ^ 32 + (qm / 32 - 1))

/-- PAUSE (R177): discarded at a queue that is not spliced. -/
def State.pauseArrives (s : State) (core qm : Nat) : State :=
  let x := s.msgQueue core qm
  if x.st == .send || x.st == .recv then
    (s.onMsg core qm (fun x => { x with paused := true })).sendTo core (qm % 32) (msgFrom qm) (fun pc pq => .evPauseAck pc pq)
  else s

/-- The acknowledgement of a PAUSE (R177). -/
def State.pauseAckArrives (s : State) (core qm : Nat) : State :=
  s.onMsg core qm (fun x => if x.quiet = 1 then { x with quiet := 2 } else x)

/-- RESUME (R177): traffic goes on: what was kept back leaves, and the slots released meanwhile give their credits. -/
def State.resumeArrives (s : State) (core qm : Nat) : State :=
  ((s.onMsg core qm (fun x => { x with paused := false })).sendHeld core (qm % 32)).post s.now (.release core (qm % 32))

/-! ### Events -/

/-- `SPLICE_DATA_ARRIVE` (R174, R175, R167). -/
def execEvSpliceDataArrive (core q : Nat) (m : SpliceMsg) (s : State) : Host.Outcome State Fault Refusal :=
  .next (s.overCircuit (senderOf q) core (.evSpliceDataArrive core q m) (fun s => s.dataArrives core q m))

/-- `HELLO` (R174). -/
def execEvHello (core q fromCore fromQ size reach : Nat) (s : State) : Host.Outcome State Fault Refusal :=
  .next (s.overCircuit fromCore core (.evHello core q fromCore fromQ size reach) (fun s =>
    s.whenAwake core (.evHello core q fromCore fromQ size reach) (fun s => s.helloArrives core (q % 32) fromCore fromQ size reach)))

/-- `HELLO_RESEND` (R174). -/
def execEvHelloResend (core q serial : Nat) (s : State) : Host.Outcome State Fault Refusal :=
  let qq := s.queue core (q % 32)
  .next (if qq.st == .pendS && qq.hello == serial then s.sendHello core (q % 32) else s)

/-- `GRANT` (R171, R174). -/
def execEvGrant (core q n : Nat) (s : State) : Host.Outcome State Fault Refusal :=
  .next (s.overCircuit (senderOf q) core (.evGrant core q n) (fun s => s.grantArrives core q n))

/-- `REFUSE` (R171, R174). -/
def execEvRefuse (core q code : Nat) (s : State) : Host.Outcome State Fault Refusal :=
  .next (s.overCircuit (senderOf q) core (.evRefuse core q code) (fun s => s.refuseArrives core q code))

/-- `CREDIT` (R174, R377). -/
def execEvCredit (core q serial : Nat) (s : State) : Host.Outcome State Fault Refusal :=
  .next (s.overCircuit (senderOf q) core (.evCredit core q serial) (fun s =>
    s.whenAwake core (.evCredit core q serial) (fun s => s.creditArrives core q serial)))

/-- `END` (R171, R181). -/
def execEvEnd (core q : Nat) (s : State) : Host.Outcome State Fault Refusal :=
  .next (s.overCircuit (senderOf q) core (.evEnd core q) (fun s => s.endArrives core q))

/-- `PAUSE` (R177). -/
def execEvPause (core q : Nat) (s : State) : Host.Outcome State Fault Refusal :=
  .next (s.overCircuit (senderOf q) core (.evPause core q) (fun s =>
    s.whenAwake core (.evPause core q) (fun s => s.pauseArrives core q)))

/-- `PAUSE_ACK` (R177). -/
def execEvPauseAck (core q : Nat) (s : State) : Host.Outcome State Fault Refusal :=
  .next (s.overCircuit (senderOf q) core (.evPauseAck core q) (fun s => s.pauseAckArrives core q))

/-- `RESUME` of a splice (R177). -/
def execEvResume (core q : Nat) (s : State) : Host.Outcome State Fault Refusal :=
  .next (s.overCircuit (senderOf q) core (.evResume core q) (fun s => s.resumeArrives core q))

/-- `SPLICE_LOSS` (R176). -/
def execEvSpliceLoss (core q : Nat) (s : State) : Host.Outcome State Fault Refusal :=
  .next (s.whenAwake core (.evSpliceLoss core q) (fun s => s.lossArrives core q))

/-- `QPUSH_QPOP_COMPLETION` (R184). -/
def execEvQpushQpopCompletion (core : Nat) (s : State) : Host.Outcome State Fault Refusal := .next (s.moveDone core)

end Sys2Proof.Machine
end

