-- ==== Sys2Proof/Machine/Copy.lean ====
section
/-!
DEFINITION. Copies, gathers and scatters (R204 to R218): the commands at issue, the shape records and the checks of the start
(R209), and the end.
-/

namespace Sys2Proof.Machine

/-! ### At issue (R190, R211, R215) -/

/-- `CPY` (R211). -/
def execCpy (h : CmdHdr) (s0 s1 : BitVec 16) (fmt : BitVec 5) (ca : Option Opd) (s : State) : Host.Outcome State Fault Refusal :=
  caCmd s (.cpy h s0 s1 fmt ca) [] ca

/-- `CPYG` (R215). -/
def execCpyg (h : CmdHdr) (s0 s1 : BitVec 16) (ca : Option Opd) (s : State) : Host.Outcome State Fault Refusal :=
  caCmd s (.cpyg h s0 s1 ca) [] ca

/-- `CPYS` (R215). -/
def execCpys (h : CmdHdr) (s0 s1 : BitVec 16) (ca : Option Opd) (s : State) : Host.Outcome State Fault Refusal :=
  caCmd s (.cpys h s0 s1 ca) [] ca

/-- `CPYX` (R211, R212). -/
def execCpyx (h : CmdHdr) (s0 s1 : BitVec 16) (ca : Option Opd) (s : State) : Host.Outcome State Fault Refusal :=
  caCmd s (.cpyx h s0 s1 ca) [] ca

/-- `CPYSC` (R215). -/
def execCpysc (h : CmdHdr) (s0 s1 : BitVec 16) (ca : Option Opd) (s : State) : Host.Outcome State Fault Refusal :=
  caCmd s (.cpysc h s0 s1 ca) [] ca

/-! ### Records (R209) -/

/-- A record of the context's shape table; nothing at or beyond its length. -/
def State.readRec (s : State) (ctx i : Nat) : Except TFault (List Word) :=
  let c := s.context ctx
  if c.shlen ≤ i then .ok []
  else
    match s.vread ctx (c.shbase + 64 * i) 64 4 with
    | .error f => .error f
    | .ok bs => .ok (wordsOf 8 bs)

/-- The lines of the records an operation names that it has not read yet. -/
def State.recLines (s : State) (ctx : Nat) (is : List Nat) : List (Bool × Nat) :=
  let c := s.context ctx
  (is.filter (fun i => decide (i < c.shlen))).map (fun i => (false, c.shbase / 64 + i))

/-- Several records, or the first fault. -/
def State.readRecs (s : State) (ctx : Nat) : List Nat → Except TFault (List (List Word))
  | [] => .ok []
  | i :: is =>
    match s.readRec ctx i with
    | .error f => .error f
    | .ok r =>
      match s.readRecs ctx is with
      | .error f => .error f
      | .ok rs => .ok (r :: rs)

/-- The two records a command names, and which of them is an index list. -/
def recRefs : Instr → List Nat × Option Nat
  | .cpy _ a b _ _ => ([a.toNat, b.toNat], none)
  | .cpyx _ a b _ | .subs _ a b _ | .callred _ a b _ | .cred _ a b _ | .cbc _ a b _ | .cag _ a b _ | .crsc _ a b _ =>
    ([a.toNat, b.toNat], none)
  | .cpyg _ a b _ => ([a.toNat, b.toNat], some 0)
  | .cpys _ a b _ | .cpysc _ a b _ => ([a.toNat, b.toNat], some 1)
  | _ => ([], none)

/-- Every record an operation reads at start: those it names, and the one an index list links to. -/
def State.opRecs (s : State) (o : Op) : Except TFault (List (List Word)) :=
  let refs := recRefs o.cmd.ins
  match s.readRecs o.ctx refs.1, refs.2 with
  | .error f, _ => .error f
  | .ok rs, none => .ok rs
  | .ok rs, some i =>
    if (rs.getD i []).isEmpty then .ok (rs ++ [[]])
    else
      match s.readRec o.ctx (parseShape (rs.getD i [])).link with
      | .error f => .error f
      | .ok t => .ok (rs ++ [t])

/-- The words of the records an operation has read are checked (R293). -/
def State.recsSeen (s : State) (o : Op) (rs : List (List Word)) : State :=
  let c := s.context o.ctx
  let refs := recRefs o.cmd.ins
  let is := refs.1 ++ (refs.2.map (fun i => (parseShape (rs.getD i [])).link)).toList
  is.foldl (fun s i => if c.shlen ≤ i then s else s.readSeen o.ctx (c.shbase + 64 * i) 64 4) s

/-! ### Checks (R209) -/

/-- A record as a command uses it: read, written, or both. -/
structure Part where
  sh : Shape
  rd : Bool
  wr : Bool
  deriving DecidableEq, Repr

/-- The scratchpad runs of a record. -/
def Shape.padRuns (sh : Shape) : List (Nat × Nat) :=
  if sh.sp then (List.range sh.unitCount).flatMap (fun u => (sh.unitSpans u).map (fun sp => (addrOf sp.1, sp.2))) else []

/-- The first check that fails. -/
def firstCode (l : List (Bool × Nat)) : Option Nat := (l.find? (fun e => !e.1)).map Prod.snd

/-- The checks of R209 in their order, with what a command's own entry adds to the third and the fourth. -/
def State.recChecks (s : State) (core mask : Nat) (ps : List Part) (bounds layout : Bool) : Option Nat :=
  firstCode [
    (ps.all (fun p => p.sh.v && !p.sh.malformed mask), Code.shapeIndex),
    (ps.all (fun p => (!p.rd || p.sh.rd) && (!p.wr || p.sh.wr)), Code.shapeRights),
    (bounds && ps.all (fun p => !p.sh.exceeds), Code.shapeBounds),
    (layout && ps.all (fun p => p.sh.padRuns.all (fun r => s.tagOk core r.1 r.2 p.sh.layout)), Code.layoutMismatch),
    (ps.all (fun p => !p.sh.misaligned), Code.align),
    (ps.all (fun p => p.sh.padRuns.all (fun r => s.bufOk core r.1 r.2 p.rd p.wr)), Code.bufferState)]

/-- The records of a copy, each as it is used. -/
def Op.parts (o : Op) : List Part :=
  let a := o.shape 0
  let d := o.shape 1
  match o.cmd.ins with
  | .cpyg _ _ _ _ => [⟨a, true, false⟩, ⟨d, false, true⟩, ⟨o.shape 2, true, false⟩]
  | .cpys _ _ _ _ => [⟨a, true, false⟩, ⟨d, true, false⟩, ⟨o.shape 2, false, true⟩]
  | .cpysc _ _ _ _ => [⟨a, true, false⟩, ⟨d, true, false⟩, ⟨o.shape 2, true, true⟩]
  | _ => [⟨a, true, false⟩, ⟨d, false, true⟩]

/-- The AUX fields a copy uses (R208). -/
def auxOf : Instr → Nat
  | .cpyg _ _ _ _ => auxGather
  | .cpys _ _ _ _ | .cpysc _ _ _ _ => auxScatter
  | _ => auxNone

/-- Whether a record is the source of a weight stream, as far as its extent says (R212). -/
def streamExtent (a : Shape) : Bool := decide (256 + 4096 ≤ a.dim 0) && (a.dim 0 - 256) % 4096 == 0

/-- The first 256 bytes of a stream, once they are read. -/
def Op.streamHeader (o : Op) : List Byte := o.runBytes (o.shape 0).sp 0 (((o.shape 0).base : Int), 256)

/-- The shapes of a gather or a scatter (R214, R215): the list, the rows, the table. -/
def gatherBounds (ls rows t : Shape) (adds : Bool) : Bool :=
  ls.nd == 0 && rows.nd == 1 && t.nd == 1 && rows.dim 1 == ls.dim 0 && rows.rowBytes == selSize t.rowBytes t.gmask
    && (t.gmask == 15 || (t.rowBytes % 64 == 0 && !adds))

def gatherLayout (ls rows t : Shape) (adds : Bool) : Bool :=
  ls.layout == 0 && ls.fmt == 7 && rows.layout == 0 && t.layout == 0 && rows.fmt == t.fmt
    && (!adds || t.fmt == 8 || t.fmt == 6 || t.fmt == 7)

/-- The bounds and layout conditions of a copy's own entry (R210 to R215). -/
def Op.ownChecks (o : Op) : Bool × Bool :=
  let a := o.shape 0
  let d := o.shape 1
  let t := o.shape 2
  match o.cmd.ins with
  | .cpyg _ _ _ _ => (gatherBounds a d t false, gatherLayout a d t false)
  | .cpys _ _ _ _ => (gatherBounds d a t false, gatherLayout d a t false)
  | .cpysc _ _ _ _ => (gatherBounds d a t true, gatherLayout d a t true)
  | .cpyx _ _ _ _ =>
    let hdr := o.streamHeader
    let form := a.fmt == 1 && a.layout == 0 && a.nd == 0
    (!form || (streamExtent a && ofBytes ((hdr.drop 4).take 4) == d.byteCount),
     form && d.sp && (d.layout == 0 || d.layout == 3 || d.layout == 4) && streamHeaderOk hdr)
  | .cpy _ _ _ fmt _ => (sameExtents a d, (copyForm a d).isSome && (fmt == 0 || fmt.toNat == d.fmt))
  | _ => (true, true)

/-- The first check of R209 a copy fails. -/
def State.copyChecks (s : State) (o : Op) : Option Nat :=
  let own := o.ownChecks
  s.recChecks o.core (auxOf o.cmd.ins) o.parts own.1 own.2

/-! ### The start -/

/-- Whether a waiting operation starts before another: by priority, then by issue cycle, then by (x, y) (R189). -/
def Op.startsBefore (a b : Op) : Bool :=
  let w (o : Op) : Nat × Nat × Nat × Nat := (8 - o.prio, o.cmd.t, xOf o.core, yOf o.core)
  let x := w a
  let y := w b
  decide (x.1 < y.1) || (x.1 == y.1 && (decide (x.2.1 < y.2.1) || (x.2.1 == y.2.1 &&
    (decide (x.2.2.1 < y.2.2.1) || (x.2.2.1 == y.2.2.1 && decide (x.2.2.2 < y.2.2.2))))))

/-- The homes of runs: where they begin and how long they are, as an access finds them. -/
def State.runHomes (s : State) (o : Op) (pad : Bool) (acc : Nat) (spans : List Span) : List (Nat × Nat) :=
  spans.flatMap (fun sp => (lineNumbers sp).filterMap (fun l =>
    let a := addrOf sp.1
    let lo := max a (64 * l)
    let n := min (a + sp.2) (64 * l + 64) - lo
    if pad then some (Addr.pad o.core lo, n)
    else
      match s.lineXl o.ctx lo { acc := acc } with
      | .ok x => (match x.tgt with
        | .loc d pa => some (Addr.localMem d pa, n)
        | .host h => some (Addr.host h, n)
        | .pub _ h => some (Addr.host h, n))
      | .error _ => none))

/-- Whether source and destination overlap (R211), as far as their pages are there. -/
def State.overlaps (s : State) (o : Op) (src dst : Shape) : Bool :=
  let homes (sh : Shape) (acc : Nat) := s.runHomes o sh.sp acc (joinSpans ((List.range sh.unitCount).flatMap sh.unitSpans))
  let hd := homes dst 5
  (homes src 4).any (fun a => hd.any (fun b => decide (a.1 < b.1 + b.2) && decide (b.1 < a.1 + a.2)))

/-- The destination lines of a copy; a scatter counts its lines as it goes. -/
def Op.startLines (o : Op) : List (Nat × List Nat) :=
  let d := o.shape 1
  match o.cmd.ins with
  | .cpys _ _ _ _ | .cpysc _ _ _ _ => []
  | .cpy _ _ _ _ _ =>
    match copyForm (o.shape 0) d with
    | some f => destLines f.count f.dst
    | none => []
  | _ => destLines d.unitCount d.unitSpans

/-- Whether source and destination of the command may not overlap. -/
def noOverlap : Instr → Bool
  | .cpy _ _ _ _ _ | .cpyx _ _ _ _ => true
  | _ => false

/-- The declared buffers that records hold (R237). -/
def State.partBuffers (s : State) (core : Nat) (ps : List Part) : List Nat :=
  (ps.flatMap (fun p => p.sh.padRuns.flatMap (fun r => (s.buffersOf core r.1 r.2).map Prod.fst))).eraseDups

/-- An operation that has passed its checks is STARTED, with its buffers in use (R194, R237). -/
def State.startWith (s : State) (k : Nat) (ps : List Part) (f : Op → Op) : State :=
  let o := s.op k
  let ks := if o.uses.isEmpty then s.partBuffers o.core ps else []
  (s.useBuffers o.core ks).onOp k (fun o => { f o with st := .started, uses := o.uses ++ ks })

/-- The command of an operation leaves its queue. -/
def State.dequeue (s : State) (core unit serial : Nat) : State :=
  s.onCtxSt core (fun c => { c with cmdq := NMap.put [] c.cmdq unit ((NMap.get [] c.cmdq unit).filter (fun c => c.serial != serial)) })

/-- A fault while an operation starts: a page that is not there parks it. Where it was met in a record, the records are read afresh
(R209). -/
def State.startFault (s : State) (k : Nat) (f : TFault) (keep : Bool := false) : State :=
  if f.code = Code.pageNotPresent ∨ f.code = Code.migrateWait then (s.onOp k (fun o => { o with recs := if keep then o.recs else [] })).parkOp k f
  else s.opFault k f.code 0 f.word5 (fun s => s.restartOp k)

/-- The granules of the header of a weight stream that are still to be read: it is read before it is checked (R212), after the checks that
come first (R209). -/
def State.headerLeft (s : State) (o : Op) : List Gran :=
  let a := o.shape 0
  let early := s.recChecks o.core (auxOf o.cmd.ins) o.parts (streamExtent a) true
  match o.cmd.ins with
  | .cpyx _ _ _ _ =>
    if streamExtent a && early != some Code.shapeIndex && early != some Code.shapeRights && early != some Code.shapeBounds then
      o.missing (granulesOf a.sp 0 [((a.base : Int), 256)])
    else []
  | _ => []

/-- A copy's records are read: its checks, and its first line. The header of a weight stream comes before, line by line (R204). -/
def State.startCopy (s : State) (k : Nat) : State :=
  let o := s.op k
  if !(s.headerLeft o).isEmpty then s.postEv (s.now + 1) (.evCopyLine k)
  else
    match s.copyChecks o with
    | some code => s.opFault k code 0 0 (fun s => s.restartOp k)
    | none =>
      (s.startWith k o.parts (fun x =>
        { x with lines := o.startLines, undef := noOverlap o.cmd.ins && s.overlaps o (o.shape 0) (o.shape 1) })).postEv
        (s.now + 1) (.evCopyLine k)

/-- Whether a copy is reading the header of its weight stream. -/
def State.atHeader (s : State) (o : Op) : Bool :=
  !o.recs.isEmpty && o.lines.isEmpty && o.prog == 0 && !o.finished && o.verdict.isNone && o.stop.isNone
    && (o.st == .queued || o.st == .started) && !(s.headerLeft o).isEmpty

/-- A line of the header is read, and the start goes on after the last. -/
def State.headerLine (s : State) (k : Nat) (o : Op) : State :=
  let gs := s.headerLeft o
  s.readGransBy k o gs (if (granLines gs).length < 2 then .evOpStart k else .evCopyLine k) (fun f s => s.startFault k f true)

/-- The next line of a copy. -/
def Op.nextLine (o : Op) : LineStep :=
  match o.cmd.ins with
  | .cpyg _ _ _ _ => o.gatherStep
  | .cpys _ _ _ _ => o.scatterStep false
  | .cpysc _ _ _ _ => o.scatterStep true
  | .cpyx _ _ _ _ => o.cpyxStep
  | _ => o.cpyStep

/-- The detail of a copy that ends well (R216). -/
def Op.copyDetail (o : Op) : Nat :=
  match o.cmd.ins with
  | .cpyg _ _ _ _ | .cpys _ _ _ _ | .cpysc _ _ _ _ => o.gatherDetail
  | _ => o.bytes

/-- A copy whose source and destination overlap leaves undefined bytes in all of its destination (R211). -/
def State.spoilAll (s : State) (k : Nat) : State :=
  let o := s.op k
  let d := o.shape 1
  if noOverlap o.cmd.ins && (o.undef || s.overlaps o (o.shape 0) d) then
    let spans := (List.range d.unitCount).flatMap d.unitSpans
    let as := spans.flatMap (fun (sp : Span) => (List.range sp.2).map (fun i => addrOf (sp.1 + (i : Int))))
    let ms := lineMasks ((List.range as.length).map (fun i => (as.getD i 0, Config.freeByte (s.free + i))))
    ms.foldl (fun s m => match s.placeLine o d.sp m.1 5 with
      | .ok p => s.writeLine k o p m.2
      | .error _ => s) { s with free := s.free + as.length }
  else s

/-- Whether a copy has no line left. -/
def Op.lastLine (o : Op) : Bool :=
  match o.nextLine with
  | .done => true
  | _ => false

/-- `COPY_LINE` (R204, R211, R217, R218). -/
def execEvCopyLine (op : Nat) (s : State) : Host.Outcome State Fault Refusal :=
  let o := s.op op
  if s.atHeader o then .next (s.headerLine op o)
  else
  let s := if o.st == .started && !o.finished && o.verdict.isNone && o.stop.isNone && o.need == 0 && o.lastLine then s.spoilAll op else s
  .next (s.copyLine op Op.nextLine Op.cpyMore)

end Sys2Proof.Machine
end

