-- ==== Sys2Proof/Machine/Groom.lean ====
section
/-!
DEFINITION. Subscriptions (R205, R222, R223): `SUBS` and `UNSUBS`, and the tiles a groom moves between a tensor and a queue.
-/

namespace Sys2Proof.Machine

/-- `SUBS` (R222). -/
def execSubs (h : CmdHdr) (s0 s1 : BitVec 16) (ca : Option Opd) (s : State) : Host.Outcome State Fault Refusal :=
  caCmd s (.subs h s0 s1 ca) [] ca

/-- `UNSUBS` (R223). -/
def execUnsubs (h : CmdHdr) (q : BitVec 5) (s : State) : Host.Outcome State Fault Refusal := plainCmd s (.unsubs h q) []

/-- Whether a subscription reads its tensor into the queue, the tensor's record, and the queue. -/
def Op.subsReads (o : Op) : Bool := (o.shape 1).isQueue
def Op.subsTensor (o : Op) : Shape := if o.subsReads then o.shape 0 else o.shape 1
def Op.subsQueue (o : Op) : Nat := if o.subsReads then (o.shape 1).queue else (o.shape 0).queue

/-- The units of a tensor that hold bytes `off` to `off + n - 1`, and where `off` lies in the first. -/
def Shape.unitsOf (sh : Shape) (off n : Nat) : List Nat :=
  let u := sh.unitBytes
  (List.range ((off + n + u - 1) / u - off / u)).map (fun i => off / u + i)

/-- The runs of those units. -/
def Shape.runsOf (sh : Shape) (off n : Nat) : List Span := (sh.unitsOf off n).flatMap sh.unitSpans

/-- The address of byte i of a list of runs. -/
def runAddr (spans : List Span) (i : Nat) : Nat :=
  match spans with
  | [] => 0
  | sp :: r => if i < sp.2 then addrOf (sp.1 + i) else runAddr r (i - sp.2)

/-- The access code of a groom (R269): reads of an operation, or writes. -/
def Op.groomAcc (o : Op) : Nat := if o.subsReads then 4 else 5

/-- The home of every line of a tensor, or the fault of its translation. -/
def State.tensorHomes (s : State) (o : Op) (sh : Shape) : List (Except TFault Xl) :=
  ((((List.range sh.unitCount).flatMap sh.unitSpans).flatMap lineNumbers).eraseDups).map (fun l => s.lineXl o.ctx (64 * l) { acc := o.groomAcc })

/-- Whether a home lies in a peer window or in host memory (R222). -/
def Xl.away (x : Xl) : Bool :=
  x.peer || match x.tgt with
  | .loc _ _ => false
  | _ => true

/-- The die and stack of a tensor's first byte, counted from 1 (R205). -/
def State.groomStack (s : State) (o : Op) (sh : Shape) : Except TFault Nat :=
  match s.lineXl o.ctx (runAddr ((List.range sh.unitCount).flatMap sh.unitSpans) 0) { acc := o.groomAcc } with
  | .error f => .error f
  | .ok x =>
    match x.tgt with
    | .loc d pa => .ok (2 * d + (s.die d).stackOf (placeOf (s.npc d) pa).p + 1)
    | _ => .ok 0

/-- Whether a groom context of the stack is free (R205). -/
def State.groomFree (s : State) (k stack : Nat) : Bool :=
  decide ((s.ops.filter (fun kv => kv.1 != k && kv.2.row == stack && kv.2.st != .queued && kv.2.st != .done
    && (match kv.2.cmd.ins with
      | .subs _ _ _ _ => true
      | _ => false))).length < 64)

/-- A subscription waits for a groom context behind those that start before it (R189). -/
def State.groomTurn (s : State) (k stack : Nat) : Bool :=
  let o := s.op k
  !s.ops.any (fun kv => kv.1 != k && kv.2.row == stack && kv.2.st == .queued && kv.2.ctx / 64 == o.ctx / 64
    && (match kv.2.cmd.ins with
      | .subs _ _ _ _ => true
      | _ => false) && kv.2.startsBefore o)

/-- The stack a subscription waits for, where its records name one and no groom context of it is free for it (R205). -/
def State.groomWait (s : State) (k : Nat) (o : Op) : Option Nat :=
  let a := o.shape 0
  let d := o.shape 1
  if !(a.v && d.v && !a.malformed auxSubs && !d.malformed auxSubs) || a.isQueue == d.isQueue || o.subsTensor.sp then none
  else
    match s.groomStack o o.subsTensor with
    | .error _ => none
    | .ok st => if s.groomFree k st && s.groomTurn k st then none else some st

/-- A subscription starts (R222), or stays QUEUED for want of a groom context: one that has left its queue tries again by itself, any other
with its head. One that has its queue goes on. -/
def State.startSubs (s : State) (k : Nat) : State :=
  let o := s.op k
  if (s.queue o.core o.subsQueue).sub == some k then s.postFree 64 (.evGroomTileFill k)
  else
  let a := o.shape 0
  let d := o.shape 1
  let sh := o.subsTensor
  let qi := o.subsQueue
  let q := s.queue o.core qi
  let leave (s : State) : State := s.dequeue o.core 2 o.cmd.serial
  let fail (code : Nat) : State := (leave s).opFault k code 0 0 (fun s => s.restartOp k)
  let part : Part := ⟨sh, o.subsReads, !o.subsReads⟩
  match s.groomWait k o with
  | some st =>
    let s := s.onOp k (fun o => { o with row := st })
    if ((NMap.get [] (s.core o.core).c.cmdq 2).any (fun c => c.op == some k)) then s else s.postEv (s.now + 1) (.evOpStart k)
  | none =>
  if !(a.v && d.v && !a.malformed auxSubs && !d.malformed auxSubs) then fail Code.shapeIndex
  else if a.isQueue == d.isQueue then fail Code.layoutMismatch
  else
    match s.recChecks o.core auxSubs [part] true (!sh.sp) with
    | some code => fail code
    | none =>
      if q.st != .opened || !q.isEmpty then fail Code.queueState
      else if q.scope < 2 then fail Code.queueScope
      else if (s.tensorHomes o sh).any (fun h => match h with
          | .ok x => x.away
          | .error _ => false) then fail Code.peerWindow
      else
        match s.groomStack o sh with
        | .error f => (leave s).startFault k f true
        | .ok st =>
          let s := (leave s).startWith k [part] (fun o => { o with row := st, tile := 0, sub_ := 0, reqs := [] })
          let s := s.onQueue o.core qi (fun q =>
            if o.subsReads then { q with st := .subsR, sub := some k, reserved := q.tail, tail := ctr (q.rel + q.count) }
            else { q with st := .subsW, sub := some k })
          s.postFree 64 (.evGroomTileFill k)

/-- A fault of a subscription in flight. -/
def State.groomFault (s : State) (k : Nat) (f : TFault) : State :=
  let o := s.op k
  let s := s.onOp k (fun o => { o with reqs := [], need := 0, via := [] })
  if f.code = Code.pageNotPresent ∨ f.code = Code.migrateWait then s.parkOp k f
  else s.opFault k f.code o.prog f.word5 (fun s => (s.closeSubs o.core k).restartOp k) true

/-- A line of the tile is moved (R200, R222). -/
def State.groomLine (s : State) (k n : Nat) : State :=
  let s := s.onOp k (fun o => { o with sub_ := o.sub_ + 1, bytes := o.bytes + n, prog := o.prog + 1, reqs := [], via := [] })
  let o := s.op k
  let s := if o.owner = 0 then s.clearWatch o.ownCore o.grp o.idx else s
  s.postFree 64 (.evGroomTileFill k)

/-- The tile at hand is moved, and the next follows. -/
def State.tileDone (s : State) (k : Nat) : State := s.onOp k (fun o => { o with tile := o.tile + 1, sub_ := 0 })

/-- The tensor bytes of line j of the tile at hand: where they begin, and how many there are. -/
def Op.tileLine (o : Op) (size : Nat) : Nat × Nat :=
  let off := o.tile * size + 64 * o.sub_
  (off, min 64 (o.subsTensor.byteCount - off))

/-- A line of the tile is read from the tensor into its slot (R222, R280). What else a line of the tensor holds is read with it, for the
next line of the slot. -/
def State.fillTile (s : State) (k : Nat) (o : Op) (q : Queue) : State :=
  let sh := o.subsTensor
  let (off, n) := o.tileLine q.size
  let c := ctr (q.reserved + o.tile)
  let a := q.slotAddr c + 64 * o.sub_
  let spans := sh.runsOf off n
  if !s.padTurn o true (a / 64) then s.postEv (s.now + 1) (.evGroomTileFill k)
  else
    let gs := if n = 0 then [] else granulesOf false 0 spans
    match s.readAll o (o.missing gs) o.srcs with
    | .error f => s.groomFault k f
    | .ok (m, s) =>
      let s := s.onOp k (fun o => { o with srcs := m.filter (fun e => gs.any (fun x => decide (x.g / 4 = e.1 / 4))) })
      let bs := if n = 0 then [] else ((({ o with srcs := m }).spanBytes false 0 spans).drop (off % sh.unitBytes)).take n
      let s := ((s.padTaken o true [a / 64]).agentPut o.core a (bs ++ List.replicate (64 - n) 0) (o.info k)).groomLine k n
      if 64 * (o.sub_ + 1) < q.size then s else (s.setPresent o.core o.subsQueue c (s.now + 1)).tileDone k

/-- The lines of the tensor that a tile is written to, each with the bytes of the slot that stand in it. -/
def Op.drainLines (o : Op) (size : Nat) : List (Nat × List (Nat × Nat)) :=
  let sh := o.subsTensor
  let off := o.tile * size
  let n := min size (sh.byteCount - off)
  let spans := sh.runsOf off n
  let cells := (List.range n).map (fun i => (runAddr spans (off % sh.unitBytes + i), i))
  ((cells.map (fun c => c.1 / 64)).eraseDups).map (fun l => (l, cells.filter (fun c => c.1 / 64 == l)))

/-- A line of the tensor is written from the slot, which is released after the last (R222, R275, R280). -/
def State.drainTile (s : State) (k : Nat) (o : Op) (q : Queue) : State :=
  let a := q.slotAddr q.head
  let ls := o.drainLines q.size
  match ls[o.sub_]? with
  | none => (s.popTo o.core o.subsQueue (q.head + 1)).tileDone k
  | some (l, cells) =>
    let lo := cells.foldl (fun m c => min m c.2) q.size
    let hi := cells.foldl (fun m c => max m c.2) 0
    let ps := (List.range (hi / 64 + 1 - lo / 64)).map (fun i => a / 64 + lo / 64 + i)
    if ps.any (fun p => !s.padTurn o true p) then s.postEv (s.now + 1) (.evGroomTileFill k)
    else if s.padBad o.core (a + lo) (hi + 1 - lo) then s.groomFault k { code := Code.memUncorrectable, va := a + lo, acc := 4 }
    else
      let bs := s.agentBytes o.core a q.size o.cmd.t
      let mask := (List.range 64).map (fun i => (cells.find? (fun c => c.1 == 64 * l + i)).map (fun c => bs.getD c.2 0))
      match s.placeLine o false l 5 with
      | .error f => s.groomFault k f
      | .ok p =>
        let s := ((s.padTaken o true ps).padScrub o.core (a + lo) (hi + 1 - lo)).linesSeen o false 5 [l]
        let s := (s.writeLine k o p mask).groomLine k cells.length
        if o.sub_ + 1 < ls.length then s else (s.popTo o.core o.subsQueue (q.head + 1)).tileDone k

/-- The lines of the tensor that a groom asks for with the line of the tile at hand. -/
def Op.groomAsks (o : Op) (size : Nat) : List (Bool × Nat) :=
  if o.subsReads then
    let (off, n) := o.tileLine size
    if n = 0 then [] else granLines (o.missing (granulesOf false 0 (o.subsTensor.runsOf off n)))
  else (((o.drainLines size)[o.sub_]?).map (fun l => (false, l.1))).toList

/-- A groom goes on with its subscription (R222, R223). `UNSUBS` stops it after its tile, a cancellation and a save at the next
line (R200). -/
def State.groomStep (s : State) (k : Nat) : State :=
  match s.op? k with
  | none => s
  | some o =>
    let q := s.queue o.core o.subsQueue
    let sh := o.subsTensor
    let moving := !o.reqs.isEmpty
    if o.st != .started || o.finished || o.verdict.isSome || decide (0 < o.need) || s.writesHeld k then s
    else if q.sub != some k then s.endLater k ((o.stop).getD 0) o.bytes 0
    else if o.stop.any (fun code => code != 0 || o.sub_ == 0) && !moving then
      let code := o.stop.getD 0
      s.endLater k code (if code = 0 then o.bytes else o.prog) 0
    else if sh.byteCount ≤ o.tile * q.size then s.endLater k 0 o.bytes 0
    else
      let free := if o.subsReads then
          let d := ctr (q.tail + 65536 - ctr (q.reserved + o.tile))
          decide (1 ≤ d) && decide (d ≤ q.count)
        else decide (1 ≤ q.occ) && q.present s.now q.head
      if !free then s
      else if !moving then
        if s.opFrozen o then s else s.askLines k o o.groomAcc (o.groomAsks q.size)
      else if o.subsReads then s.fillTile k o q
      else s.drainTile k o q

/-- `GROOM_TILE_FILL` (R222). -/
def execEvGroomTileFill (op : Nat) (s : State) : Host.Outcome State Fault Refusal := .next (s.groomStep op)

/-- `UNSUBS` at its head (R223). -/
def State.unsubsHead (s : State) (core : Nat) (c : Cmd) (q : Nat) : State :=
  match (s.queue core q).sub with
  | some k => (s.onCtxSt core (fun x => { x with opWaits := x.opWaits ++ [(4, unsubsKey k, c)] })).stopSubs k 0
  | none => s.endCmd core c Code.queueState 0 true

end Sys2Proof.Machine
end

