-- ==== Sys2Proof/Machine/Coll.lean ====
section
/-!
DEFINITION. Collectives (R226 to R229): the commands at issue, the start, who has joined, and what every participant receives
when the last has and every source is read.
-/

namespace Sys2Proof.Machine

/-- `CALLRED` (R227). -/
def execCallred (h : CmdHdr) (s0 s1 : BitVec 16) (ca : Option Opd) (s : State) : Host.Outcome State Fault Refusal :=
  caCmd s (.callred h s0 s1 ca) [] ca

/-- `CRED` (R227). -/
def execCred (h : CmdHdr) (s0 s1 : BitVec 16) (ca : Option Opd) (s : State) : Host.Outcome State Fault Refusal :=
  caCmd s (.cred h s0 s1 ca) [] ca

/-- `CBC` (R227). -/
def execCbc (h : CmdHdr) (s0 s1 : BitVec 16) (ca : Option Opd) (s : State) : Host.Outcome State Fault Refusal :=
  caCmd s (.cbc h s0 s1 ca) [] ca

/-- `CAG` (R227). -/
def execCag (h : CmdHdr) (s0 s1 : BitVec 16) (ca : Option Opd) (s : State) : Host.Outcome State Fault Refusal :=
  caCmd s (.cag h s0 s1 ca) [] ca

/-- `CRSC` (R227). -/
def execCrsc (h : CmdHdr) (s0 s1 : BitVec 16) (ca : Option Opd) (s : State) : Host.Outcome State Fault Refusal :=
  caCmd s (.crsc h s0 s1 ca) [] ca

/-- The kinds of collective. -/
inductive CollKind where
  | allReduce
  | reduce
  | broadcast
  | gather
  | reduceScatter
  deriving DecidableEq, Repr

def collKind : Instr → CollKind
  | .cred _ _ _ _ => .reduce
  | .cbc _ _ _ _ => .broadcast
  | .cag _ _ _ _ => .gather
  | .crsc _ _ _ _ => .reduceScatter
  | _ => .allReduce

def CollKind.reduces : CollKind → Bool
  | .broadcast => false
  | .gather => false
  | _ => true

/-- Whether a participant's source is read, and whether its destination is written (R227). -/
def CollKind.reads (c : CollKind) (isRoot : Bool) : Bool := c != .broadcast || isRoot
def CollKind.writes (c : CollKind) (isRoot : Bool) : Bool := c != .reduce || isRoot

/-- The extent SH1 must have, from n and P (R227). -/
def CollKind.extentOk (c : CollKind) (isRoot : Bool) (n p m : Nat) : Bool :=
  match c with
  | .gather => m == p * n
  | .reduceScatter => n % p == 0 && m == n / p
  | .reduce => !isRoot || m == n
  | _ => m == n

/-! ### The start -/

/-- The team a record names (R226). -/
def State.teamOf (s : State) (o : Op) : Option (Nat × List Nat) := (s.group? o.cmd.grp).bind (fun g => g.teams[(o.shape 1).team]?)

/-- The destination bytes of a participant of a failed collective are undefined (R229), as far as its records say where they are. -/
def State.spoilDest (s : State) (k : Nat) : State :=
  let o := s.op k
  let d := o.shape 1
  let spans := (List.range d.unitCount).flatMap d.unitSpans
  let parts := (List.range d.byteCount).map (fun i => (runAddr spans i, Config.freeByte (s.free + i)))
  (lineMasks parts).foldl (fun s m => match s.placeLine o d.sp m.1 5 with
    | .ok p => s.writeLine k o p m.2
    | .error _ => s) { s with free := s.free + parts.length }

/-- The root of a collective. -/
def State.collRoot (s : State) (i : Nat) : Nat := ((s.colls[i]?).map (fun c => c.root)).getD 0

/-- A participant of a failed collective that writes a destination leaves undefined bytes there (R229). -/
def State.spoilOf (s : State) (i rank k : Nat) : State :=
  let o := s.op k
  if o.st != .done && (collKind o.cmd.ins).writes (decide (rank = s.collRoot i)) then s.spoilDest k else s

/-- A collective has ended at a participant with a code: those that have not started find it so. -/
def State.markDead (s : State) (i code rank : Nat) : State :=
  { s with colls := s.colls.modify i (fun c => { c with dead := c.dead.orElse (fun _ => some (code, rank)) }) }

/-- A participant takes its place anew (R198): it has not joined, and keeps its number, its rank and its records. One that had its
bytes writes them again. -/
def State.restartColl (s : State) (i rank k : Nat) (was : Op) : State :=
  if was.row = 1 then (s.onOp k (fun o => { o with bytes := was.bytes, flags := was.flags })).postFree walkBound (.evOpStart k)
  else State.restartOp { s with colls := s.colls.modify i (fun c => { c with joined := c.joined.filter (· != rank) }) } k

/-- Whether a fault of an operation makes it start again (R198). -/
def State.retries (s : State) (k : Nat) : Bool := s.opPolicy (s.op k) == 1 && decide ((s.op k).tries < 2)

/-- A fault at one participant (R198, R229): where RETRY restarts it, the others wait for it (notes/assumptions/116); else it takes the
fault, with its progress in lines (R216), and the collective ends at every other participant with its code and the rank. -/
def State.collFail (s : State) (i rank k code word5 : Nat) : State :=
  let prog := (s.op k).prog
  if s.retries k then s.opFault k code prog word5 (fun t => t.restartColl i rank k (s.op k))
  else
    let ops := s.collOps i
    let s := ops.foldl (fun s j => s.spoilOf i j.1 j.2) (s.markDead i code rank)
    let s := s.opFault k code prog word5 id
    ops.foldl (fun s j => if j.2 = k then s else s.endColl j.2 code rank false) s

/-- A record of a collective could not be read (R209): the collective ends where the record of its destination names it. -/
def State.collRecFault (s : State) (k : Nat) (f : TFault) : State :=
  if f.code = Code.pageNotPresent ∨ f.code = Code.migrateWait then s.startFault k f
  else
    let s := s.numberColls (s.op k).core [(s.op k).cmd]
    match (s.op k).coll with
    | some i => s.collFail i (s.op k).rank k f.code f.word5
    | none => s.startFault k f

/-- A collective operation starts (R209, R227). Where its destination's record has V set and names a team that the core is in, a fault
ends the collective at every participant, though the record be malformed (notes/assumptions/125). -/
def State.startColl (s : State) (k : Nat) : State :=
  let o := s.op k
  let a := o.shape 0
  let d := o.shape 1
  let kind := collKind o.cmd.ins
  let own : Option Nat := if a.v && d.v && !a.malformed auxColl && !d.malformed auxColl then none else some Code.shapeIndex
  let place := if d.v then (s.teamOf o).bind (fun t => (rankOf t o.core).map (fun r => (t, r))) else none
  match place with
  | none => s.opFault k (own.getD Code.shapeRights) 0 0 (fun s => s.restartOp k)
  | some (t, rank) =>
    let root := decide (rank = t.1)
    let (i, s) := s.enterColl k d.team t rank
    let parts : List Part := [⟨a, kind.reads root, false⟩, ⟨d, false, kind.writes root⟩]
    let fmtOk := !kind.reduces || ((a.fmt == 8 || a.fmt == 9 || a.fmt == 6 || a.fmt == 7) && d.fmt == a.fmt)
    match (s.colls[i]?).bind (fun c => c.dead), own with
    | some (code, r), _ =>
      if code = Code.opCancelled then s.endOp k code 0 0 false else (s.spoilOf i rank k).endOp k code r 0 false
    | none, some code => s.collFail i rank k code 0
    | none, none =>
      if !(a.xc && d.xc) then s.collFail i rank k Code.shapeRights 0
      else
        match s.recChecks o.core auxColl parts (kind.extentOk root a.byteCount t.2.length d.byteCount) fmtOk with
        | some code => s.collFail i rank k code 0
        | none => (s.startWith k parts id).postFree walkBound (.evCollectiveJoin k)

/-! ### What the participants receive -/

/-- Two elements combined at a router stage (R228). -/
def combine2 (fmt red a b : Nat) : Nat × FFlags :=
  let f := floatOf fmt
  if fmt = 8 ∨ fmt = 9 then
    if red = 0 then fadd f 0 a b else (fminmax f (red == 1) a b, 0)
  else
    let sg := fmt == 6
    let lt := decide (intOf sg 32 a < intOf sg 32 b)
    match red with
    | 0 => ((a + b) % 2 ^ 32, 0)
    | 1 => (if lt then b else a, 0)
    | _ => (if lt then a else b, 0)

/-- Elements combined pairwise, in an order the spec leaves to the routes (R228): `pick` chooses the pairs. -/
def combineAll (fmt red : Nat) (pick : Nat → Nat) : Nat → List Nat → FFlags → Nat × FFlags
  | 0, l, fl => (l.headD 0, fl)
  | n + 1, l, fl =>
    if l.length < 2 then (l.headD 0, fl)
    else
      let i := pick (2 * n) % l.length
      let x := l.getD i 0
      let l := l.eraseIdx i
      let j := pick (2 * n + 1) % l.length
      let r := combine2 fmt red x (l.getD j 0)
      combineAll fmt red pick n (r.1 :: l.eraseIdx j) (fl ||| r.2)

/-- An FP32 element from its slices (R152): their sum, with the sign of the first where it is zero. -/
def f32OfSlices (l : List Nat) : Nat :=
  let r := (fmtF32.ofVal 0 (l.foldl (fun acc b => (addVal 0 acc (fmtBF16.decode b)).1) (.fin false 0 0))).1
  if r % 2 ^ 31 = 0 then l.headD 0 / 2 ^ 15 % 2 * 2 ^ 31 else r

/-- The elements of an image, lane by lane (R142, R152, notes/assumptions/126). -/
def planeElems (fmt : Nat) (bs : List Byte) : List Nat :=
  let f := imgFmt fmt
  let n := planeSize fmt
  let bit (off p x : Nat) : Nat := bits (bs.getD (off + p * n + x / 8) 0).toNat (x % 8) 1
  (List.range (16 * f.k)).map (fun x =>
    let el (off : Nat) : Nat := (elemFromPlanes (if fmt = 8 then 9 else fmt) ((List.range f.planes).map (fun p => bit off p x))).1
    if fmt = 8 then f32OfSlices ((List.range 3).map (fun j => el (544 * j))) else el 0)

/-- The elements of a tensor from its bytes, in the order of their index, and its bytes from its elements (R207, R228). -/
def Shape.elemsOf (sh : Shape) (bs : List Byte) : List Nat :=
  if sh.layout = 2 then
    (List.range sh.unitCount).flatMap (fun u => planeElems sh.fmt ((bs.drop (sh.unitBytes * u)).take sh.unitBytes))
  else (List.range (bs.length / fmtSize sh.fmt)).map (elemOf (fmtSize sh.fmt) bs)

def Shape.bytesOf (sh : Shape) (els : List Nat) : List Byte :=
  let raw := els.flatMap (fun x => toBytes (fmtSize sh.fmt) x)
  if sh.layout = 2 then
    let n := 16 * (imgFmt sh.fmt).k * fmtSize sh.fmt
    (List.range sh.unitCount).flatMap (fun u => imageOf sh.fmt ((raw.drop (n * u)).take n))
  else raw

/-- The reduction of the participants' elements. -/
def reduceElems (fmt red : Nat) (pick : Nat → Nat) (srcs : List (List Nat)) : List Nat × FFlags :=
  (List.range (srcs.headD []).length).foldl (fun (acc : List Nat × FFlags) i =>
    let r := combineAll fmt red pick srcs.length (srcs.map (fun els => els.getD i 0)) 0
    (acc.1 ++ [r.1], acc.2 ||| r.2)) ([], 0)

/-- What a rank's destination becomes (R227), from every rank's source and the reduction. -/
def CollKind.result (c : CollKind) (root rank : Nat) (srcs : List (List Byte)) (sum : List Byte) : List Byte :=
  match c with
  | .broadcast => srcs.getD root []
  | .gather => srcs.flatMap id
  | .reduceScatter =>
    let n := sum.length / srcs.length
    (sum.drop (n * rank)).take n
  | _ => sum

/-- The first mismatch among the commands of a collective (R227). -/
def State.collMismatch (s : State) (ops : List (Nat × Nat)) : Option Nat :=
  let os := ops.map (fun j => s.op j.2)
  let o0 := os.headD {}
  if os.any (fun o => (o.shape 0).byteCount != (o0.shape 0).byteCount) then some Code.shapeBounds
  else if os.any (fun o => collKind o.cmd.ins != collKind o0.cmd.ins || (o.shape 0).fmt != (o0.shape 0).fmt || (o.shape 1).red != (o0.shape 1).red) then
    some Code.layoutMismatch
  else none

/-- Ranks in ascending order with their operations. -/
def Coll.byRank (c : Coll) : List (Nat × Nat) := (List.range c.members.length).filterMap (fun r => c.ops.find? (fun j => j.1 == r))

/-- A circuit between participants that is not there: the rank it is missing for (R229). -/
def State.collCut (s : State) (c : Coll) : Option (Nat × Nat) :=
  c.byRank.find? (fun j => c.members.any (fun m =>
    decide (dieOf m ≠ dieOf (c.members.getD j.1 0)) && s.peerDown (dieOf m) (dieOf (c.members.getD j.1 0))))

/-- The runs of a participant's source. -/
def Op.collSpans (o : Op) : List Span := (List.range (o.shape 0).unitCount).flatMap (o.shape 0).unitSpans

/-- Whether a participant's source is read. -/
def State.collReads (s : State) (c : Coll) (j : Nat × Nat) : Bool := (collKind (s.op j.2).cmd.ins).reads (decide (j.1 = c.root))

/-- The granules of its source that a participant has still to read. -/
def State.collLeft (s : State) (c : Coll) (j : Nat × Nat) : List Gran :=
  let o := s.op j.2
  if s.collReads c j then o.missing (granulesOf (o.shape 0).sp 0 o.collSpans) else []

/-- A participant's source bytes, all of them read. -/
def State.collSource (s : State) (c : Coll) (j : Nat × Nat) : List Byte :=
  let o := s.op j.2
  if s.collReads c j then o.spanBytes (o.shape 0).sp 0 o.collSpans else []

/-- The lines of a participant's destination with what is written there. -/
def Op.collLines (o : Op) (bs : List Byte) : List (Nat × List (Option Byte)) :=
  let d := o.shape 1
  let spans := (List.range d.unitCount).flatMap d.unitSpans
  lineMasks ((List.range bs.length).map (fun i => (runAddr spans i, bs.getD i 0)))

/-- A fault of one participant while the collective runs: a page that is not there parks its operation alone. -/
def State.collFault (s : State) (i rank k : Nat) (f : TFault) : State :=
  let s := s.onOp k (fun o => { o with reqs := [], ahead := [], need := 0, via := [], hostWait := 0 })
  if f.code = Code.pageNotPresent ∨ f.code = Code.migrateWait then s.parkOp k f else s.collFail i rank k f.code f.word5

/-- A participant reads its source line by line (R204, R217). -/
def State.collRead (s : State) (i k : Nat) (o : Op) (gs : List Gran) : State :=
  if 0 < o.need then s
  else if o.reqs.isEmpty && !o.hasLines 4 (granLines gs) then s.askLines k o 4 (granLines gs)
  else s.readGransBy k o gs (.evCollectiveJoin k) (fun f s => s.collFault i o.rank k f)

/-- One participant is given its bytes, which it writes line by line some time later (R227). -/
def State.collGive (s : State) (c : Coll) (srcs : List (List Byte)) (els : List Nat) (flags : FFlags) (j : Nat × Nat) : State :=
  let o := s.op j.2
  let kind := collKind o.cmd.ins
  let sum := if kind.reduces then (o.shape 0).bytesOf els else []
  let bs := if kind.writes (decide (j.1 = c.root)) then kind.result c.root j.1 srcs sum else []
  (s.onOp j.2 (fun o => { o with bytes := bs.length, flags := flags, row := 1, srcs := [(0, bs)], reqs := [], via := [] })).postFree
    linkBound (.evCollectiveJoin j.2)

/-- Every source is read: each participant is given its bytes (R227, R228). -/
def State.collGiveAll (s : State) (c : Coll) : State :=
  let srcs := c.byRank.map (fun j => s.collSource c j)
  let o := s.op ((c.byRank.headD (0, 0)).2)
  let free := s.free
  let r := if (collKind o.cmd.ins).reduces then
      reduceElems (o.shape 0).fmt (o.shape 1).red (fun n => Config.freeOrder (free + n))
        (c.byRank.map (fun j => ((s.op j.2).shape 0).elemsOf (s.collSource c j)))
    else ([], 0)
  c.byRank.foldl (fun s j => s.collGive c srcs r.1 r.2 j) { s with free := free + 2 * srcs.length }

/-- A participant has written all it writes. The collective completes at every one of them when the last has (R229). -/
def State.collWritten (s : State) (i rank : Nat) : State :=
  let s := { s with colls := s.colls.modify i (fun c => { c with written := if c.written.contains rank then c.written else c.written ++ [rank] }) }
  match s.colls[i]? with
  | none => s
  | some c =>
    if c.written.length = c.members.length then
      (s.collOps i).foldl (fun s j => s.endLater j.2 0 (s.op j.2).bytes (s.op j.2).flags) s
    else s

/-- The next line of a participant's destination is written, or its work ends (R204, R227, R275, R280). -/
def State.collWrite (s : State) (i k : Nat) (o : Op) : State :=
  let pad := (o.shape 1).sp
  let lines := (o.collLines (NMap.get [] o.srcs 0)).drop o.prog
  match lines with
  | [] => s.collWritten i o.rank
  | (l, bs) :: _ =>
    if 0 < o.need then s
    else if o.reqs.isEmpty && !o.hasLines 5 [(pad, l)] then s.askLines k o 5 [(pad, l)]
    else if s.now < s.portFrom o.core then s.postEv (s.portFrom o.core) (.evCollectiveJoin k)
    else
      match s.placeLine o pad l 5 with
      | .error f => s.collFault i o.rank k f
      | .ok p =>
        if s.needsCircuit o 5 [(pad, l)] || s.windowFull o p || s.strongWaits k p || !s.padTurn o pad l then
          s.postEv (s.now + 1) (.evCollectiveJoin k)
        else
          let s := ((s.padTaken o pad [l]).linesSeen o pad 5 [l]).writeLine k o p bs
          ((s.onOp k (fun o => { o with prog := o.prog + 1, reqs := [], via := [] })).portMoved o.core).postEv (s.now + 1) (.evCollectiveJoin k)

/-- The collective runs as far as one participant goes on with it (R227 to R229): it reads its source, and the one that is last gives every
participant its bytes. -/
def State.runColl (s : State) (i k : Nat) (c0 : Coll) : State :=
  let c := { c0 with ops := s.collOps i }
  match s.collMismatch c.ops with
  | some code =>
    let s := c.ops.foldl (fun s j => (s.spoilOf i j.1 j.2).onOp j.2 (fun o => { o with tries := 2 })) (s.markDead i code 0)
    c.ops.foldl (fun s j => s.opFault j.2 code 0 0 id) s
  | none =>
    match s.collCut c with
    | some j => s.collFail i j.1 j.2 Code.linkDown 0
    | none =>
      let o := s.op k
      let gs := s.collLeft c (o.rank, k)
      if !gs.isEmpty then s.collRead i k o gs
      else if c.byRank.all (fun j => (s.collLeft c j).isEmpty) then s.collGiveAll c
      else s

/-- The last participant has joined: those that wait for it go on. -/
def State.wakeColl (s : State) (i k : Nat) : State :=
  (s.collOps i).foldl (fun s j =>
    let o := s.op j.2
    let ev := Instr.evCollectiveJoin j.2
    if j.2 = k || o.st != .started || o.finished || decide (0 < o.need) || s.isDue (· == .ev ev) then s else s.postEv s.now ev) s

/-- A participant joins (R226), reads its source, and writes the bytes it is given; a parked one whose page has come tries again. -/
def State.joinColl (s : State) (k : Nat) : State :=
  match s.op? k with
  | none => s
  | some o =>
    if o.st != .started || o.finished || o.verdict.isSome then s
    else
      match o.coll with
      | none => s
      | some i =>
        if o.row = 1 then s.collWrite i k o
        else
          let new := !(((s.colls[i]?).map (fun c => c.joined)).getD []).contains o.rank
          let s := if new then { s with colls := s.colls.modify i (fun c => { c with joined := c.joined ++ [o.rank] }) } else s
          match s.colls[i]? with
          | none => s
          | some c =>
            if c.joined.length = c.members.length ∧ c.dead.isNone then (if new then s.wakeColl i k else s).runColl i k c else s

/-- `COLLECTIVE_JOIN` (R226, R227). -/
def execEvCollectiveJoin (op : Nat) (s : State) : Host.Outcome State Fault Refusal := .next (s.joinColl op)

end Sys2Proof.Machine
end

