-- ==== Sys2Proof/Machine/Bank.lean ====
section
/-!
DEFINITION. Bank units (R297 to R309): the queries of `BQPOST` and their row steps, and the commands at issue and at their
heads.
-/

namespace Sys2Proof.Machine

/-! ### At issue (R307) -/

/-- `BQPOST` (R300, R307). -/
def execBqpost (h : CmdHdr) (qb dst : Opd) (ca : Option Opd) (s : State) : Host.Outcome State Fault Refusal :=
  caCmd s (.bqpost h qb dst ca) [qb, dst] ca

/-- `BUPROG` (R307, R309). -/
def execBuprog (h : CmdHdr) (va sp : Opd) (s : State) : Host.Outcome State Fault Refusal := plainCmd s (.buprog h va sp) [va, sp]

/-- `BURUN` (R307, R309). -/
def execBurun (h : CmdHdr) (va dst lim : Opd) (s : State) : Host.Outcome State Fault Refusal :=
  plainCmd s (.burun h va dst lim) [va, dst, lim]

/-- `BUSTAT` (R307, R309). -/
def execBustat (h : CmdHdr) (va : Opd) (s : State) : Host.Outcome State Fault Refusal := plainCmd s (.bustat h va) [va]

/-! ### The query block (R300) -/

/-- A query block: positions per row, formats, head dimension, entries, scale and query lanes. -/
structure Query where
  ppr : Nat
  vfmt : Nat
  kfmt : Nat
  d : Nat
  nb : Nat
  scale : Nat
  q : List Nat
  deriving DecidableEq, Repr

def parseQuery (bs : List Byte) : Query :=
  let w0 := ofBytes (bs.take 8)
  { ppr := bits w0 32 16, vfmt := bits w0 21 5, kfmt := bits w0 16 5, d := bits w0 8 7, nb := bits w0 0 8,
    scale := ofBytes ((bs.drop 8).take 4), q := (List.range 64).map (fun i => ofBytes ((bs.drop (64 + 4 * i)).take 4)) }

/-- Whether a block keeps R300. -/
def queryOk (bs : List Byte) : Bool :=
  let q := parseQuery bs
  let w0 := ofBytes (bs.take 8)
  let fmtOk (f : Nat) : Bool := decide (8 ≤ f) && decide (f ≤ 0x0C)
  decide (1 ≤ q.ppr) && decide (q.ppr ≤ 1024) && decide (1 ≤ q.d) && decide (q.d ≤ 64) && decide (1 ≤ q.nb) && decide (q.nb ≤ 32)
    && fmtOk q.vfmt && fmtOk q.kfmt && decide (q.ppr * q.d * fmtSize q.vfmt ≤ 1024) && decide (q.ppr * q.d * fmtSize q.kfmt ≤ 1024)
    && bits w0 48 16 == 0 && bits w0 26 6 == 0 && bits w0 15 1 == 0
    && ((bs.drop 12).take 52).all (· == 0)
    && (List.range q.nb).all (fun i =>
      let w (j : Nat) : Nat := ofBytes ((bs.drop (320 + 32 * i + 8 * j)).take 8)
      decide (w 0 < 2 ^ 57) && decide (w 1 < 2 ^ 57) && decide (w 2 < 2 ^ 32) && w 3 == 0)

/-- The entries of a block. One without positions is finished at once (R302). -/
def queryEntries (bs : List Byte) : List QEntry :=
  (List.range (parseQuery bs).nb).map (fun i =>
    let w (j : Nat) : Nat := ofBytes ((bs.drop (320 + 32 * i + 8 * j)).take 8)
    { krow := w 0, vrow := w 1, npos := w 2, acc := List.replicate 64 0, fin := w 2 == 0 })

/-- The block a query read at its start (R308). -/
def Op.block (o : Op) : List Byte := NMap.get [] o.srcs 0

/-! ### Areas of scratchpad (R308, R309) -/

/-- The first check an area fails: its range, its alignment, the buffers that cover it. -/
def State.areaFault (s : State) (core a n : Nat) (rd wr : Bool) : Option Nat :=
  if 0x300000 < a + n then some Code.shapeBounds
  else if a % 64 ≠ 0 then some Code.align
  else if !s.bufOk core a n rd wr then some Code.bufferState
  else if !s.tagOk core a n 0 then some Code.layoutMismatch
  else none

/-- NB of the query block at an address, and the block, as a command issued in a cycle reads them (R256, R300). -/
def State.queryCount (s : State) (core qb t : Nat) : Nat := bits (ofBytes (s.agentBytes core qb 1 t)) 0 8
def State.queryBlock (s : State) (core qb t : Nat) : List Byte := s.agentBytes core qb (320 + 32 * s.queryCount core qb t) t

/-- The check a query that issued in cycle t fails at its start (R308). -/
def State.queryFault0 (s : State) (core qb dst t : Nat) : Option Nat :=
  let nb := s.queryCount core qb t
  let n := 320 + 32 * nb
  let out := 512 * nb
  if 0x300000 < qb + n ∨ 0x300000 < dst + out then some Code.shapeBounds
  else if qb % 64 ≠ 0 ∨ dst % 64 ≠ 0 then some Code.align
  else if !s.bufOk core qb n true false || !s.bufOk core dst out false true then some Code.bufferState
  else if !s.tagOk core qb n 0 || !s.tagOk core dst out 0 || !queryOk (s.queryBlock core qb t) then some Code.layoutMismatch
  else if s.padBad core qb n then some Code.memUncorrectable
  else none

/-! ### Rows (R298, R301) -/

/-- RS of R301 for a die. -/
def State.rowStride (s : State) (die : Nat) : Nat := 32768 * s.npc die

/-- A row's home: its pseudo-channel, bank and bank row, and the local address of its line 0. -/
structure RowHome where
  p : Nat
  bank : Nat
  row : Nat
  pa : Nat
  deriving DecidableEq, Repr

/-- A line of a row translated, through the die's TLB (R271, R280). -/
def State.rowXl (s : State) (ctx va : Nat) : Except TFault (TlbEnt × Xl) :=
  match s.dieEnt ctx (va % 2 ^ 57) 4 with
  | .error f => .error f
  | .ok e =>
    match checkLeaf s (ctx / 64) e (va % 2 ^ 57) { acc := 4, high := decide (2 ^ 57 ≤ va) } with
    | .error f => .error f
    | .ok x => .ok (e, x)

/-- A row of a query translated (R301): one that breaks a condition is SHAPE_BOUNDS. -/
def State.rowHome (s : State) (ctx va : Nat) : Except TFault RowHome :=
  let die := ctx / 64
  let n := s.npc die
  let a := va % 2 ^ 57
  let bad : Except TFault RowHome := .error { code := Code.shapeBounds, va := a, acc := 4 }
  match s.rowXl ctx va with
  | .error f => .error f
  | .ok (e, x) =>
    match x.tgt with
    | .loc d pa =>
      let pa := pa / 64 * 64
      let pl := placeOf n pa
      if x.peer || e.log < 21 || decide (2 ^ e.log < a % 2 ^ e.log / 64 * 64 + 15 * 64 * n + 64) || pl.column != 0 || d != die then bad
      else .ok { p := pl.p, bank := pl.bank, row := pl.row, pa := pa }
    | _ => bad

/-- The lines of a row. -/
def State.rowLines (s : State) (die : Nat) (h : RowHome) : List Nat := (List.range 16).map (fun c => h.pa + 64 * s.npc die * c)

/-- A write that its bank has served before a row step and that is not performed yet (R306): where it writes, how much, and what it
makes of the bytes there. -/
def MemReq.served (r : MemReq) (die now : Nat) : Option (Nat × Nat × Nat × (Nat → Nat)) :=
  match r.tgt, r.kind, r.stage with
  | .loc d pa, .store, .slotted => if d = die ∧ r.slot ≤ now then some (r.slot, pa, r.size, fun _ => r.val.toNat) else none
  | .loc d pa, .amo, .slotted =>
    if d = die ∧ r.slot ≤ now then some (r.slot, pa, r.size, fun old => amoNew r.amo r.size old r.val.toNat r.cmp.toNat) else none
  | _, _, _ => none

/-- Those writes in the order in which their banks served them. -/
def State.servedWrites (s : State) (die : Nat) : List (Nat × Nat × Nat × (Nat → Nat)) :=
  (s.cores.flatMap (fun (kc : Nat × Core) => kc.2.t.port.filterMap (fun r => r.served die s.now))).foldl (fun l w => put w l) []
where
  put (w : Nat × Nat × Nat × (Nat → Nat)) : List (Nat × Nat × Nat × (Nat → Nat)) → List (Nat × Nat × Nat × (Nat → Nat))
    | [] => [w]
    | v :: l => if w.1 < v.1 then w :: v :: l else v :: put w l

/-- A line with such a write applied to it. -/
def overlay (pa : Nat) (bs : List Byte) (w : Nat × Nat × Nat × (Nat → Nat)) : List Byte :=
  if w.2.1 / 64 = pa / 64 then
    let o := w.2.1 % 64
    let new := toBytes w.2.2.1 (w.2.2.2 (ofBytes ((bs.drop o).take w.2.2.1)))
    (List.range bs.length).map (fun i => if o ≤ i ∧ i < o + w.2.2.1 then new.getD (i - o) 0 else bs.getD i 0)
  else bs

/-- The bytes of a row as a row step reads them, with every write that the bank served before it (R306), and whether a word of it reads
as uncorrectable. -/
def State.rowBytes (s : State) (die : Nat) (h : RowHome) : List Byte :=
  let ws := s.servedWrites die
  (s.rowLines die h).flatMap (fun a => ws.foldl (overlay a) (s.localBytes die a 64))
def State.rowBad (s : State) (die : Nat) (h : RowHome) : Bool := (s.rowLines die h).any (fun a => s.homeBad (.loc die a) 64)

/-- A unit's number (R297). -/
def unitKey (die p bank : Nat) : Nat := 4096 * die + 32 * p + bank
def unitDie (u : Nat) : Nat := u / 4096
def unitPc (u : Nat) : Nat := u / 32 % 128
def unitBank (u : Nat) : Nat := u % 32

/-- When a unit may make a row step: in a shared rotation, from a boundary at which its work was posted on, or after another step of its
own in the rotation (R381), once its pseudo-channel's exit is complete and its bank has served what claims it (R298, R299). -/
def State.rowWait (s : State) (u : Nat) : Option Nat :=
  let c := s.pchan (unitDie u) (unitPc u)
  let b := s.unit u
  let free := max (NMap.get 0 c.bankFree (unitBank u)) c.exitAt
  if c.mode ≠ .shared ∨ (s.now < boundary b.since ∧ b.stepRot ≠ s.now / 256 + 1) then some (boundary (s.now + 1))
  else if s.now < free then some free
  else none

/-- The bank is held for a row step (R288, R298), which the pseudo-channel's port counts as a request (R290). -/
def State.holdBank (s : State) (u : Nat) : State :=
  (((s.touchPc (unitDie u) (unitPc u)).onPc (unitDie u) (unitPc u) (fun c => c.claim (unitBank u) s.now 120)).keepRefresh (unitDie u) (unitPc u)
    (unitBank u)).onUnit u (fun b => { b with stepRot := s.now / 256 + 1 })

/-- The next row step of a unit, or the next look at its work. -/
def State.postRow (s : State) (u due : Nat) : State :=
  if s.isDue (· == .ev (.evRowStep u)) then s else s.postEv due (.evRowStep u)

/-- Work is handed to a unit (R299, R307): an entry or a run is posted from this cycle on, and a rotation that begins in it is
shared. -/
def State.pushWork (s : State) (u : Nat) (w : BuWork) : State :=
  let s := (s.touchPc (unitDie u) (unitPc u)).onUnit u (fun b =>
    { b with work := b.work ++ [w], since := if w.posted && !b.work.any BuWork.posted then s.now else b.since })
  (if w.posted then s.atBoundary (unitDie u) (unitPc u) else s).postRow u s.now

/-! ### Queries (R302 to R305) -/

def State.onEntry (s : State) (k i : Nat) (f : QEntry → QEntry) : State := s.onOp k (fun o => { o with entries := o.entries.modify i f })

/-- An address in the bank of a unit. -/
def State.unitPa (s : State) (u : Nat) : Nat := 64 * (16 * unitBank u * s.npc (unitDie u) + unitPc u)

/-- The query writes its records when every entry has finished: the lines of each wait for unclaimed slots at the pseudo-channel of its
unit (R286, R303); an entry without positions has no unit, and its record goes with the first one's (notes/assumptions/117). -/
def State.queryCheck (s : State) (k : Nat) : State :=
  let o := s.op k
  if !o.entries.all (fun e => e.fin) || o.need != 0 || o.row != 0 || o.st != .started || s.isDue (· == .ev (.evOpComplete k)) then s
  else
    let u0 := ((o.entries.findSome? (fun e => e.unit))).getD (unitKey (o.ctx / 64) 0 0)
    let s := s.onOp k (fun o => { o with need := 8 * o.entries.length })
    o.entries.foldl (fun s e => (List.range 8).foldl (fun s _ => s.addUnslot (o.ctx / 64) (s.unitPa (e.unit.getD u0)) o.prio k) s) s

/-- A query starts again. -/
def State.restartQuery (s : State) (k : Nat) : State :=
  ((s.dropWork k).onOp k (fun o => { o with entries := [], srcs := [], need := 0, row := 0 })).postFree walkBound (.evOpStart k)

/-- A fault of the query itself (R304, R308). -/
def State.queryFault (s : State) (k i : Nat) (f : TFault) : State :=
  let e := ((s.op k).entries[i]?).getD { krow := 0, vrow := 0, npos := 0 }
  if f.code = Code.pageNotPresent then s.parkOp k f
  else s.opFault k f.code (i + 32 * e.row) f.word5 (fun s => s.restartQuery k)

/-- An entry goes to the unit of the bank its first key row stands in (R300, R301). -/
def State.handQuery (s : State) (k i : Nat) : State :=
  let o := s.op k
  match o.entries[i]? with
  | none => s
  | some e =>
    if e.fin then s
    else
      match e.unit with
      | some u => if (s.unit u).work.contains (.entry k i) then s.postRow u s.now else s.pushWork u (.entry k i)
      | none =>
        match s.rowHome o.ctx (e.krow + e.row * s.rowStride (o.ctx / 64)) with
        | .error f => s.queryFault k i f
        | .ok h =>
          let u := unitKey (o.ctx / 64) h.p h.bank
          ((s.fillTlb o.ctx ((e.krow + e.row * s.rowStride (o.ctx / 64)) % 2 ^ 57) 4).onEntry k i (fun e =>
            { e with unit := some u, row0 := h.row - e.row })).pushWork u (.entry k i)

/-- Every entry that has not finished goes to its unit. -/
def State.handAll (s : State) (k : Nat) : State :=
  ((List.range (s.op k).entries.length).foldl (fun s i => if (s.op k).finished || (s.op k).st == .queued then s else s.handQuery k i) s).queryCheck k

/-- Whether an operation is a query of a core that has started and is not DONE: one that stands PARKED, or whose completion another holds
(R193), keeps its place (R307). -/
def Op.queryOn (o : Op) (core : Nat) : Bool :=
  o.core == core && o.unit == 0x40 && (o.st == .parked || o.st == .started)

/-- Whether a query may take one of the four places of its core (R307): those that wait take them in the order of R189, behind one that
goes on. -/
def State.queryTurn (s : State) (k : Nat) : Bool :=
  let o := s.op k
  decide ((s.ops.filter (fun kv => kv.1 != k && kv.2.queryOn o.core)).length < 4)
    && (!o.entries.isEmpty || !s.ops.any (fun kv => kv.1 != k && kv.2.core == o.core && kv.2.unit == 0x40 && kv.2.st == .queued && !kv.2.finished
      && s.isDue (· == .ev (.evOpStart kv.1)) && kv.2.startsBefore o))

/-- A query starts (R307, R308), or one that was parked or saved goes on: it needs a place as any other. -/
def State.startQuery (s : State) (k : Nat) : State :=
  let o := s.op k
  if !s.queryTurn k then s.postEv (s.now + 1) (.evOpStart k)
  else if !o.entries.isEmpty then (s.onOp k (fun o => { o with st := .started })).handAll k
  else
    let qb := (o.cmd.vals.getD 0 0).toNat
    let dst := (o.cmd.vals.getD 1 0).toNat
    match s.queryFault0 o.core qb dst o.cmd.t with
    | some code => s.opFault k code 0 0 (fun s => s.restartQuery k)
    | none =>
      let nb := s.queryCount o.core qb o.cmd.t
      let n := 320 + 32 * nb
      let bs := s.queryBlock o.core qb o.cmd.t
      let ks := if o.uses.isEmpty then ((s.buffersOf o.core qb n ++ s.buffersOf o.core dst (512 * nb)).map Prod.fst).eraseDups else []
      let s := (s.padScrub o.core qb n).useBuffers o.core ks
      (s.onOp k (fun o => { o with st := .started, srcs := [(0, bs)], entries := queryEntries bs, uses := o.uses ++ ks })).handAll k

/-- BST (R303). -/
def QEntry.status (e : QEntry) (i : Nat) : Nat :=
  let u := e.unit.getD 0
  (if e.err then 1 else 0) + (if e.npos = 0 then 2 else 0) + (if e.err && e.vr then 4 else 0)
    + (if e.npos = 0 then 0 else unitPc u * 2 ^ 8 + unitBank u * 2 ^ 15) + (if e.err then e.errRow * 2 ^ 20 else 0) + i * 2 ^ 42

/-- Positions of an entry that were scored (R308). -/
def QEntry.scored (e : QEntry) (ppr : Nat) : Nat := if e.err then min e.npos ((e.row + if e.vr then 1 else 0) * ppr) else e.npos

/-- An entry's record (R303). -/
def QEntry.record (e : QEntry) (i : Nat) : List Byte :=
  let acc := if e.err then List.replicate 64 (0 : BitVec 32) else e.acc
  let m : BitVec 32 := if e.err then 0xFF800000 else e.m
  let l : BitVec 32 := if e.err then 0 else e.l
  acc.flatMap (fun x => toBytes 4 x.toNat) ++ toBytes 4 m.toNat ++ toBytes 4 l.toNat ++ toBytes 8 (e.status i) ++ List.replicate 240 0

/-- A query's work ends (R303, R305, R308): its records are written and its completion cycle follows, whatever comes between; or its
triples are discarded. -/
def State.finishQuery (s : State) (k : Nat) : State :=
  let o := s.op k
  match o.stop with
  | some code => s.endOp k code 0 o.flags false
  | none =>
    if o.entries.any (fun e => !e.fin) || o.st != .started then s
    else
      let q := parseQuery o.block
      let dst := (o.cmd.vals.getD 1 0).toNat
      if o.need ≠ 0 then s
      else
        let s := (List.range o.entries.length).foldl (fun s i =>
          match o.entries[i]? with
          | some e => s.agentPut o.core (dst + 512 * i) (e.record i) (o.info k)
          | none => s) s
        let errs := (o.entries.filter (fun e => e.err)).length
        let scored := o.entries.foldl (fun acc e => acc + e.scored q.ppr) 0
        (s.onOp k (fun o => { o with row := 1, bytes := 512 * o.entries.length })).endLater k 0 (errs + 2 ^ 8 * scored) o.flags

/-- The score of position t from its key row (R302). -/
def keyScore (q : Query) (row : List Byte) (t : Nat) : Nat × FFlags :=
  let e := fmtSize q.kfmt
  let at_ := t % q.ppr * q.d * e
  let p := groupFp false ((List.range q.d).map (fun d =>
    (fmtF32.decode (q.q.getD d 0), (floatOf q.kfmt).decode (elemOf e (row.drop at_) d))))
  let r := fmul fmtF32 0 p.1 q.scale
  (r.1, p.2 ||| r.2)

/-- A triple merged with one position (R302). -/
def mergePos (q : Query) (row : List Byte) (t score : Nat) (x : Nat × Nat × List Nat × FFlags) : Nat × Nat × List Nat × FFlags :=
  let e := fmtSize q.vfmt
  let at_ := t % q.ppr * q.d * e
  let v (d : Nat) : Nat := if d < q.d then (fmtF32.ofVal 0 ((floatOf q.vfmt).decode (elemOf e (row.drop at_) d))).1 else 0
  let hd := mergeHead x.1 x.2.1 score 0x3F800000
  if hd.bad then (0x7FC00000, 0x7FC00000, List.replicate 64 0x7FC00000, x.2.2.2 ||| hd.flags)
  else
    let l := mergeVal x.2.1 0x3F800000 hd.e1 hd.e2
    let as := (List.range 64).map (fun d => mergeVal (x.2.2.1.getD d 0) (v d) hd.e1 hd.e2)
    (hd.m, l.1, as.map Prod.fst, as.foldl (fun acc a => acc ||| a.2) (x.2.2.2 ||| hd.flags ||| l.2))

/-- The positions of row pair k of an entry. -/
def rowPositions (q : Query) (e : QEntry) : List Nat :=
  (List.range (min q.ppr (e.npos - e.row * q.ppr))).map (fun i => e.row * q.ppr + i)

/-- An entry after its key row, and after its value row (R302). -/
def QEntry.afterKey (e : QEntry) (q : Query) (row : List Byte) : QEntry × FFlags :=
  let rs := (rowPositions q e).map (fun t => keyScore q row t)
  ({ e with inValue := true, scores := rs.map (fun r => BitVec.ofNat 32 r.1) }, rs.foldl (fun acc r => acc ||| r.2) 0)

def QEntry.afterValue (e : QEntry) (q : Query) (row : List Byte) : QEntry × FFlags :=
  let ts := rowPositions q e
  let r := (List.range ts.length).foldl (fun x i => mergePos q row (ts.getD i 0) (e.scores.getD i 0).toNat x)
    (e.m.toNat, e.l.toNat, e.acc.map BitVec.toNat, 0)
  let next := e.row + 1
  ({ e with inValue := false, scores := [], row := next, pos := min e.npos (next * q.ppr), m := BitVec.ofNat 32 r.1,
            l := BitVec.ofNat 32 r.2.1, acc := r.2.2.1.map (BitVec.ofNat 32), fin := decide (e.npos ≤ next * q.ppr) }, r.2.2.2)

/-- A row with an uncorrectable word ends its entry (R304). -/
def State.entryError (s : State) (k i va row : Nat) : State :=
  let o := s.op k
  match o.entries[i]? with
  | none => s
  | some e =>
    let e := { e with err := true, vr := e.inValue, errRow := row, fin := true }
    (s.onEntry k i (fun _ => e)).notice o.ctx { o.info k with code := Code.bankUnitError, detail := e.status i, word5 := va % 2 ^ 57 }

/-- The accumulators of a unit that scans: lane 8i + j of the vector is lane j of b_i (R297). -/
def accRegs (acc : List (BitVec 32)) : NMap (BitVec 256) :=
  (List.range 8).foldl (fun m i => NMap.put 0 m i
    (BitVec.ofNat 256 ((List.range 8).foldl (fun v j => v + (acc.getD (8 * i + j) 0).toNat * 2 ^ (32 * j)) 0))) []

/-- One row step of an entry on its unit (R298, R301, R302, R306). A query that is to stop begins no other row step (R305). -/
def State.entryStep (s : State) (u k i : Nat) : State :=
  let o := s.op k
  match o.entries[i]? with
  | none => s.dropUnitWork u (fun w => w == .entry k i)
  | some e =>
    if e.fin then ((s.dropUnitWork u (fun w => w == .entry k i)).queryCheck k)
    else if o.stop.isSome || (!e.inValue && s.opFrozen o) then s
    else
      let s := s.fixMode (unitDie u) (unitPc u)
      match s.rowWait u with
      | some due => s.postRow u due
      | none =>
        let va := (if e.inValue then e.vrow else e.krow) + e.row * s.rowStride (unitDie u)
        match s.rowHome o.ctx va with
        | .error f => s.queryFault k i f
        | .ok h =>
          if unitKey (unitDie u) h.p h.bank ≠ u ∨ (!e.inValue && h.row != e.row0 + e.row) then
            s.queryFault k i { code := Code.shapeBounds, va := va % 2 ^ 57, acc := 4 }
          else
            let q := parseQuery o.block
            let bs := s.rowBytes (unitDie u) h
            let bad := s.rowBad (unitDie u) h
            let s := ((s.fillTlb o.ctx (va % 2 ^ 57) 4).holdBank u).postRow u (s.now + 120)
            let s := (s.rowLines (unitDie u) h).foldl (fun s a => s.scrubRun (.loc (unitDie u) a) 64) s
            let s := s.onUnit u (fun b => { b with row := bs, rowErr := bad })
            if bad then s.entryError k i va h.row
            else
              let r := if e.inValue then e.afterValue q bs else e.afterKey q bs
              let s := (s.onUnit u (fun b => { b with b := accRegs r.1.acc })).onOp k (fun o => { o with entries := o.entries.modify i (fun _ => r.1), flags := o.flags ||| r.2, prog := o.prog + 16 })
              if o.owner = 0 then s.clearWatch o.ownCore o.grp o.idx else s

/-! ### Which work a unit runs (R189, R307) -/

/-- Priority, issue cycle and core of a piece of work. -/
def State.workRank (s : State) : BuWork → Nat × Nat × Nat
  | .entry op _ => ((s.op op).prio, (s.op op).cmd.t, (s.op op).core)
  | .run core c _ => (c.prio, c.t, core)
  | .prog core c => (c.prio, c.t, core)

/-- Whether one piece of work is taken before another: higher priority, then earlier issue, then lower (x, y). -/
def workBefore (a b : Nat × Nat × Nat) : Bool :=
  decide (b.1 < a.1) || (a.1 == b.1 && (decide (a.2.1 < b.2.1) || (a.2.1 == b.2.1
    && decide (8 * xOf a.2.2 + yOf a.2.2 < 8 * xOf b.2.2 + yOf b.2.2))))

/-- The first of the best pieces of work. -/
def State.pickWork (s : State) (ws : List BuWork) : Option BuWork :=
  ws.foldl (fun best w => match best with
    | none => some w
    | some b => if workBefore (s.workRank w) (s.workRank b) then some w else some b) none

/-- Whether a piece of work may not begin (R200, R346). -/
def State.workFrozen (s : State) : BuWork → Bool
  | .entry op _ => s.opFrozen (s.op op)
  | .run core c _ => s.cmdFrozen core c
  | .prog _ _ => false

/-- One piece of work taken out of a list. -/
def dropWorkOnce (w : BuWork) : List BuWork → List BuWork
  | [] => []
  | v :: l => if v = w then l else v :: dropWorkOnce w l

/-- The micro-ops at an address of scratchpad (R309). -/
def State.readStore (s : State) (core a t : Nat) : NMap (BitVec 32) :=
  let bs := s.agentBytes core a 256 t
  (List.range 64).foldl (fun m j => NMap.put 0 m j (BitVec.ofNat 32 (ofBytes ((bs.drop (4 * j)).take 4)))) []

/-- A command of the bank-query port that is not an operation ends: its token, its signal, its buffers. -/
def State.endBank (s : State) (core : Nat) (c : Cmd) (code detail : Nat) (head : Bool) : State :=
  (s.freeBuffers core c.uses).endCmd core c code detail head

/-- A unit takes up a piece of work (R309). -/
def State.beginWork (s : State) (u : Nat) (w : BuWork) : State :=
  let b := s.unit u
  let s := s.onUnit u (fun b => { b with work := w :: dropWorkOnce w b.work, running := true, stop := none, waitPage := false })
  match w with
  | .entry k i => (s.onUnit u (fun b => { b with b := accRegs ((((s.op k).entries[i]?).map (fun e => e.acc)).getD []) })).postRow u s.now
  | .prog core c =>
    let store := s.readStore core (c.vals.getD 1 0).toNat c.t
    let s := s.padScrub core (c.vals.getD 1 0).toNat 256
    ((s.onUnit u (fun b => { b with store := store, tag := some (s.ctxOf core) })).endBank core c 0 0 false).dropUnitWork u (· == w)
  | .run core c snap =>
    match snap with
    | some r =>
      (s.onUnit u (fun b => { b with store := r.store, tag := some (s.ctxOf core), mpc := r.mpc, b := r.b, lc := r.lc, rp := r.rp,
                                     emits := r.emits, flags := r.flags })).post (s.now + 1) (.micro u)
    | none =>
      if b.tag.isSome ∧ b.tag ≠ some (s.ctxOf core) then (s.endBank core c Code.bankUnitError 0 false).dropUnitWork u (· == w)
      else
        (s.onUnit u (fun b => { b with mpc := 0, b := [], lc := 0, rp := 0, row := [], rowErr := false, emits := 0, flags := 0 })).post
          (s.now + 1) (.micro u)

/-- A unit goes on: the row step that is due, or the next piece of work. -/
def State.unitStep (s : State) (u : Nat) : State :=
  let b := s.unit u
  if b.running then
    match b.work with
    | .entry k i :: _ => s.entryStep u k i
    | _ => s
  else
    match s.pickWork (b.work.filter (fun w => !s.workFrozen w)) with
    | some w => s.beginWork u w
    | none => s

/-- `ROW_STEP` (R298, R306). -/
def execEvRowStep (unit : Nat) (s : State) : Host.Outcome State Fault Refusal := .next (s.unitStep unit)

/-! ### Commands at their head (R307, R309) -/

/-- The unit of the bank that holds the line at an address, with that line's place; else the code of the fault. -/
def State.unitAt (s : State) (ctx va : Nat) : Except Nat (Nat × Place) :=
  match s.lineXl ctx va { acc := 4 } with
  | .error f => .error f.code
  | .ok x =>
    match x.tgt, x.peer with
    | .loc d pa, false =>
      let pl := placeOf (s.npc d) pa
      .ok (unitKey d pl.p pl.bank, pl)
    | _, _ => .error Code.pagePermission

/-- The detail of `BUSTAT` (R309). -/
def BankUnit.stat (b : BankUnit) (ctx : Nat) : Nat :=
  (if b.running then 1 else 0) + (if b.tag = some ctx then 2 else 0) + b.mpc % 64 * 4 + b.lc % 2 ^ 16 * 2 ^ 8 + b.rp % 2 ^ 24 * 2 ^ 24

/-- A command of the bank-query port at its head. A LIM outside 1 to 4,096 is SHAPE_BOUNDS (notes/assumptions/118). -/
def State.bankHead (s : State) (core : Nat) (c : Cmd) : State :=
  let ctx := s.ctxOf core
  let va := (c.vals.getD 0 0).toNat
  let s := match c.ins with
    | .bqpost _ _ _ _ => s
    | _ => s.fillTlb ctx (va % 2 ^ 57) 4
  let fail (code : Nat) : State := s.endCmd core c code 0 true
  match c.ins with
  | .bqpost _ _ _ _ => s.postFree walkBound (.evOpStart (c.op.getD 0))
  | .buprog _ _ _ =>
    let sp := (c.vals.getD 1 0).toNat
    match s.unitAt ctx va with
    | .error code => fail code
    | .ok (u, _) =>
      match s.areaFault core sp 256 true false with
      | some code => fail code
      | none =>
        let ks := (s.buffersOf core sp 256).map Prod.fst
        (s.useBuffers core ks).pushWork u (.prog core { c with uses := ks })
  | .burun _ _ _ _ =>
    let dst := (c.vals.getD 1 0).toNat
    let lim := (c.vals.getD 2 0).toNat
    let n := 32 * lim
    match s.unitAt ctx va with
    | .error code => fail code
    | .ok (u, pl) =>
      match (if lim = 0 ∨ 4096 < lim then some Code.shapeBounds else s.areaFault core dst n false true) with
      | some code => fail code
      | none =>
        let ks := (s.buffersOf core dst n).map Prod.fst
        (s.useBuffers core ks).pushWork u (.run core { c with uses := ks, h := pl.column, fe := pl.row } none)
  | _ =>
    match s.unitAt ctx va with
    | .error code => fail code
    | .ok (u, _) => (s.touchPc (unitDie u) (unitPc u)).endCmd core c 0 ((s.unit u).stat ctx) true

end Sys2Proof.Machine
end

