-- ==== Sys2Proof/Machine/Micro.lean ====
section
/-!
DEFINITION. The micro-ops of a bank unit (R309, R310). Each is performed by the unit `curUnit`, whose micro-PC already points
behind it.
-/

namespace Sys2Proof.Machine

/-- The eight lanes of an accumulator (R297). -/
def lanes8 (x : BitVec 256) : List Nat := (List.range 8).map (fun j => bits x.toNat (32 * j) 32)
def pack8 (l : List Nat) : BitVec 256 := BitVec.ofNat 256 ((List.range 8).foldl (fun acc j => acc + l.getD j 0 % 2 ^ 32 * 2 ^ (32 * j)) 0)

/-- An accumulator of a unit. -/
def BankUnit.acc (b : BankUnit) (i : BitVec 3) : List Nat := lanes8 (NMap.get 0 b.b i.toNat)

/-- The unit that executes. -/
def State.bu (s : State) : BankUnit := s.unit s.curUnit

/-- An accumulator written with what its lanes become, and the flags they raise. -/
def State.setAcc (s : State) (d : BitVec 3) (rs : List (Nat × FFlags)) : State :=
  s.onUnit s.curUnit (fun b =>
    { b with b := NMap.put 0 b.b d.toNat (pack8 (rs.map Prod.fst)), flags := rs.foldl (fun acc r => acc ||| r.2) b.flags })

/-- A lane operation of two accumulators. -/
def State.lanes2 (s : State) (d a b : BitVec 3) (f : Nat → Nat → Nat × FFlags) : State :=
  s.setAcc d (List.zipWith f (s.bu.acc a) (s.bu.acc b))

/-- The run of the unit that executes: the core and the command. -/
def BankUnit.run? (b : BankUnit) : Option (Nat × Cmd) :=
  match b.work with
  | .run core c _ :: _ => some (core, c)
  | _ => none

/-- Whether bytes of a bank unit are on their way to an area of a scratchpad (R286, R309). -/
def State.emitsOut (s : State) (core a n : Nat) : Bool :=
  let hit (c x : Nat) : Bool := c == core && decide (a ≤ x) && decide (x < a + n)
  s.dies.any (fun (kd : Nat × Die) => kd.2.pcs.any (fun (kp : Nat × PChan) => kp.2.unslot.any (fun u => u.land.any (fun l => hit l.1 l.2.1))))
    || s.isDue (fun act => match act with
      | .land c x _ _ => hit c x
      | _ => false)

/-- Whether emits of a run are on their way. -/
def State.runOut (s : State) (core : Nat) (c : Cmd) : Bool := s.emitsOut core (c.vals.getD 1 0).toNat (32 * (c.vals.getD 2 0).toNat)

/-- A run ends (R309, R310), with the flags it raised in its status word: the unit is free for its next work, and the token completes
once every emit is written. -/
def State.endRun (s : State) (code detail : Nat) : State :=
  let u := s.curUnit
  let detail := detail + 2 ^ 13 * (Config.runFlags s.bu.flags).toNat
  match s.bu.run? with
  | some (core, c) =>
    let s := if s.runOut core c then s.onUnit u (fun b => { b with ends := b.ends ++ [(core, c, code, detail)] })
      else s.endBank core c code detail false
    match s.bu.work with
    | w :: _ => s.dropUnitWork u (· == w)
    | [] => s
  | none => s.onUnit u (fun b => { b with running := false })

/-- Bytes of a bank unit have landed at a core: the runs that waited for nothing else end (R309). -/
def State.emitsLanded (s : State) (core : Nat) : State :=
  s.units.foldl (fun s (ku : Nat × BankUnit) => ku.2.ends.foldl (fun s e =>
    if e.1 ≠ core ∨ s.runOut e.1 e.2.1 then s
    else (s.onUnit ku.1 (fun b => { b with ends := b.ends.filter (fun x => x.2.1.serial != e.2.1.serial || x.1 != e.1) })).endBank
      e.1 e.2.1 e.2.2.1 e.2.2.2 false) s) s

/-- A micro-op that may not be executed (R310): the micro-PC of the micro-op stands in DETAIL. -/
def State.microError (s : State) (pc : Nat) : State := s.endRun Code.bankUnitError (pc % 64)

/-- The micro-op stays the next one and is tried again. -/
def State.microAgain (s : State) (due : Nat) : State :=
  (s.onUnit s.curUnit (fun b => { b with mpc := b.mpc - 1 })).post due (.micro s.curUnit)

/-- The next micro-op is due. -/
def State.microNext (s : State) : State :=
  let u := s.curUnit
  if !s.bu.running || s.bu.waitPage || s.isDue (· == .micro u) then s
  else (s.post (s.now + s.delay 64) (.micro u)).spend

/-- `BUHALT` (R310). -/
def execBuhalt (s : State) : Host.Outcome State Fault Refusal :=
  .next (s.endRun 0 s.bu.emits)

/-- A run's page is not there: the run waits at its `BUROW`, and a replayable record is posted (R310). -/
def State.runParks (s : State) (core : Nat) (c : Cmd) (f : TFault) : State :=
  let o : Op := { unit := 0x40, core := core, cmd := c }
  ((s.onUnit s.curUnit (fun b => { b with waitPage := true, mpc := b.mpc - 1 })).postInfo (s.ctxOf core)
    { o.record 0 f.code 0 f.word5 with repl := true, opid := 0 })

/-- The lines of a row of a run translated one by one: their homes, or the first fault (R310). -/
def State.runHomesOf (s : State) (ctx : Nat) : List Nat → Except TFault (List Xl)
  | [] => .ok []
  | va :: vas =>
    match s.rowXl ctx va with
    | .error f => .error f
    | .ok (_, x) =>
      match State.runHomesOf s ctx vas with
      | .error f => .error f
      | .ok xs => .ok (x :: xs)

/-- Whether a translated line is line c of a bank row. -/
def RowHome.isLine (h : RowHome) (die n : Nat) (x : Xl) (c : Nat) : Bool :=
  !x.peer && (match x.tgt with
    | .loc d pa => d == die && pa / 64 * 64 == h.pa + 64 * n * c
    | _ => false)

/-- The bank row that is row RP of a run (R310): the row of VA's line plus RP. -/
def State.runRowHome (s : State) (c : Cmd) : RowHome :=
  let u := s.curUnit
  let row := c.fe + s.bu.rp
  { p := unitPc u, bank := unitBank u, row := row, pa := 64 * ((512 * row + 16 * unitBank u) * s.npc (unitDie u) + unitPc u) }

/-- A row is read into the row buffer (R310). A line that is translated to another place than the line of that row is read with free
values (notes/assumptions/119). -/
def State.runRow (s : State) (core : Nat) (c : Cmd) : State :=
  let u := s.curUnit
  let die := unitDie u
  let s := s.fixMode die (unitPc u)
  match s.bu.stop with
  | some code => s.endRun code 0
  | none =>
    if s.cmdFrozen core c then s.onUnit u (fun b => { b with waitPage := true, mpc := b.mpc - 1 })
    else
    match s.rowWait u with
    | some due => s.microAgain due
    | none =>
      let n := s.npc die
      let ctx := s.ctxOf core
      let v0 := (c.vals.getD 0 0).toNat / 64 * 64 - c.h * 64 * n
      let vas := (List.range 16).map (fun i => v0 + s.bu.rp * s.rowStride die + 64 * n * i)
      match s.runHomesOf ctx vas with
      | .error f => if f.code = Code.pageNotPresent then s.runParks core c f else s.endRun f.code 0
      | .ok xs =>
        let h := s.runRowHome c
        let own (i : Nat) : Bool := xs[i / 64]?.any (fun x => h.isLine die n x (i / 64))
        let bs := s.rowBytes die h
        let row := (List.range 1024).map (fun i => if own i then bs.getD i 0 else Config.freeByte (s.free + i))
        let bad := s.rowBad die h
        let s := vas.foldl (fun s va => s.fillTlb ctx (va % 2 ^ 57) 4) { s with free := s.free + 1024 }
        let s := (s.rowLines die h).foldl (fun s a => s.scrubRun (.loc die a) 64) (s.holdBank u)
        let s := s.onUnit u (fun b => { b with row := row, rowErr := bad, rp := (b.rp + 1) % 2 ^ 32 })
        if bad then s.endRun Code.memUncorrectable 0 else s.post (s.now + 120) (.micro u)

/-- `BUROW` (R298, R310). -/
def execBurow (s : State) : Host.Outcome State Fault Refusal :=
  .next (match s.bu.run? with
    | some (core, c) => s.runRow core c
    | none => s.microError (s.bu.mpc - 1))

/-- `BULDW` (R310). -/
def execBuldw (d : BitVec 3) (w : BitVec 5) (s : State) : Host.Outcome State Fault Refusal :=
  .next (s.setAcc d ((lanes8 (BitVec.ofNat 256 (ofBytes ((s.bu.row.drop (32 * w.toNat)).take 32)))).map (fun x => (x, 0)))).microNext

/-- `BUWID` (R310). -/
def execBuwid (d : BitVec 3) (off : BitVec 10) (fmt : BitVec 5) (s : State) : Host.Outcome State Fault Refusal :=
  let e := fmtSize fmt.toNat
  .next (s.setAcc d ((List.range 8).map (fun j =>
    ((fmtF32.ofVal 0 ((floatOf fmt.toNat).decode (elemOf e (s.bu.row.drop off.toNat) j))).1, 0)))).microNext

/-- `BUFADD` (R310). -/
def execBufadd (d a b : BitVec 3) (s : State) : Host.Outcome State Fault Refusal := .next (s.lanes2 d a b (fadd fmtF32 0)).microNext

/-- `BUFMUL` (R310). -/
def execBufmul (d a b : BitVec 3) (s : State) : Host.Outcome State Fault Refusal := .next (s.lanes2 d a b (fmul fmtF32 0)).microNext

/-- `BUFMAX` (R124, R310). -/
def execBufmax (d a b : BitVec 3) (s : State) : Host.Outcome State Fault Refusal :=
  .next (s.lanes2 d a b (fun x y => (fminmax fmtF32 true x y, 0))).microNext

/-- `BUFMA` (R310): bD := fma(bA, bB, bD). -/
def execBufma (d a b : BitVec 3) (s : State) : Host.Outcome State Fault Refusal :=
  let c := s.bu.acc d
  .next (s.setAcc d ((List.range 8).map (fun j =>
    ffma fmtF32 0 false ((s.bu.acc a).getD j 0) ((s.bu.acc b).getD j 0) (c.getD j 0)))).microNext

/-- `BUIADD` (R310). -/
def execBuiadd (d a b : BitVec 3) (s : State) : Host.Outcome State Fault Refusal :=
  .next (s.lanes2 d a b (fun x y => ((x + y) % 2 ^ 32, 0))).microNext

/-- `BUBC` (R310). -/
def execBubc (d a : BitVec 3) (j : BitVec 3) (s : State) : Host.Outcome State Fault Refusal :=
  .next (s.setAcc d (List.replicate 8 ((s.bu.acc a).getD j.toNat 0, 0))).microNext

/-- `BURSUM` (R41, R310). -/
def execBursum (d a : BitVec 3) (s : State) : Host.Outcome State Fault Refusal :=
  let r := treeReduce (fadd fmtF32 0) 3 ((s.bu.acc a).map some) 0
  .next (s.setAcc d ((r.1.getD 0, r.2) :: List.replicate 7 (0, 0))).microNext

/-- `BUEXP` (R43, R310). -/
def execBuexp (d a : BitVec 3) (s : State) : Host.Outcome State Fault Refusal := .next (s.setAcc d ((s.bu.acc a).map kexp2)).microNext

/-- `BUZERO` (R310). -/
def execBuzero (d : BitVec 3) (s : State) : Host.Outcome State Fault Refusal := .next (s.setAcc d (List.replicate 8 (0, 0))).microNext

/-- `BUSETLC` (R310). -/
def execBusetlc (n : BitVec 16) (s : State) : Host.Outcome State Fault Refusal :=
  .next (s.onUnit s.curUnit (fun b => { b with lc := n.toNat })).microNext

/-- `BULOOP` (R310). -/
def execBuloop (j : BitVec 6) (s : State) : Host.Outcome State Fault Refusal :=
  .next (s.onUnit s.curUnit (fun b => if 1 < b.lc then { b with lc := b.lc - 1, mpc := j.toNat } else { b with lc := 0 })).microNext

/-- `BUEMIT` (R310): the bytes go to scratchpad through an unclaimed slot (R286); one emit beyond LIM ends the run. -/
def execBuemit (a : BitVec 3) (s : State) : Host.Outcome State Fault Refusal :=
  .next (match s.bu.run? with
    | some (core, c) =>
      if (c.vals.getD 2 0).toNat ≤ s.bu.emits then s.microError (s.bu.mpc - 1)
      else
        let bs := (s.bu.acc a).flatMap (toBytes 4)
        let dest : Nat × Nat × List Byte × SigSrc := (core, (c.vals.getD 1 0).toNat + 32 * s.bu.emits, bs, c.src core)
        let w : Unslot := { prio := c.prio, arrived := s.now, pa := s.unitPa s.curUnit, op := none, land := some dest }
        ((s.joinUnslot (unitDie s.curUnit) w).onUnit s.curUnit (fun b => { b with emits := b.emits + 1 })).microNext
    | none => s.microError (s.bu.mpc - 1))

/-- The next micro-op of a unit (R310). -/
def State.microAct (s : State) (ex : Instr → State → Host.Outcome State Fault Refusal) (u : Nat) : Host.Outcome State Fault Refusal :=
  let b := s.unit u
  let s := { s with curUnit := u }
  if !b.running || b.waitPage then .next s
  else if 64 ≤ b.mpc then .next (s.microError 63)
  else
    match decode (.bu (NMap.get 0 b.store b.mpc)) with
    | .error _ => .next (s.microError b.mpc)
    | .ok i => ex i (s.onUnit u (fun b => { b with mpc := b.mpc + 1 }))

/-- Runs of a context that wait for a page go on (R276). -/
def State.resumeRuns (s : State) (ctx : Nat) : State :=
  (s.units.filter (fun kv => kv.2.waitPage && ((kv.2.run?).map (fun r => s.ctxOf r.1 == ctx)).getD false)).foldl (fun s kv =>
    (s.onUnit kv.1 (fun b => { b with waitPage := false })).post (s.now + 1) (.micro kv.1)) s

end Sys2Proof.Machine
end

