-- ==== Sys2Proof/Machine/Plan.lean ====
section
/-!
DEFINITION. Copy plans (R219 to R221): `CPLAN`, its entries handed to the copy port one after another, and `CSTEP`.
-/

namespace Sys2Proof.Machine

/-- `CPLAN` (R220). -/
def execCplan (h : CmdHdr) (s0 : Opd) (ca : Option Opd) (s : State) : Host.Outcome State Fault Refusal := caCmd s (.cplan h s0 ca) [s0] ca

/-- `CSTEP` (R221). -/
def execCstep (h : CmdHdr) (n : Opd) (s : State) : Host.Outcome State Fault Refusal := plainCmd s (.cstep h n) [n]

/-! ### The plan of a code object (R219, R311) -/

/-- The address of plan i of a code object, its descriptors standing one behind another. -/
def State.planAt (s : State) (ctx : Nat) : Nat → Nat → Except TFault Nat
  | 0, va => .ok va
  | i + 1, va =>
    match s.vreadBytes ctx va 8 4 with
    | .error f => .error f
    | .ok bs => s.planAt ctx i (va + (8 + 12 * (ofBytes bs % 128) + 15) / 16 * 16)

/-- The entries of the plan a task has; none where it has no plan, or one that is malformed. -/
def State.planEntries (s : State) (ctx gk idx : Nat) : Except TFault (Option (List (BitVec 96))) :=
  match s.group? gk, s.task? gk idx with
  | some g, some t =>
    let n := recPlan t.recd
    let w := (g.hdr.getD 7 0).toNat
    if n = 0x7F ∨ bits w 32 7 ≤ n then .ok none
    else
      match s.planAt ctx n (g.obj + bits w 0 32) with
      | .error f => .error f
      | .ok va =>
        match s.vreadBytes ctx va 8 4 with
        | .error f => .error f
        | .ok h =>
          let count := ofBytes h
          if count = 0 ∨ 64 < count then .ok none
          else
            match s.vreadBytes ctx (va + 8) (12 * count) 4 with
            | .error f => .error f
            | .ok bs => .ok (some ((List.range count).map (fun i => BitVec.ofNat 96 (ofBytes ((bs.drop (12 * i)).take 12)))))
  | _, _ => .ok none

/-- An entry of a plan as a command: its TV, TOK and MOD are 0 (R219); TV is set for the decoder and cleared again. -/
def planIns (w : BitVec 96) : Option Instr :=
  if bits w.toNat 47 7 ≠ 0 then none
  else
    match decode (.cx (w ||| BitVec.ofNat 96 (2 ^ 53))) with
    | .ok (.cpy h a b f none) => some (.cpy { h with tv := false, tok := 0 } a b f none)
    | .ok (.cpyx h a b none) => some (.cpyx { h with tv := false, tok := 0 } a b none)
    | _ => none

/-- Whether a plan of a task is running on a core. -/
def State.planOf (s : State) (core gk idx : Nat) : Option Nat :=
  (s.ops.find? (fun kv => kv.2.plan.running && kv.2.core == core && kv.2.cmd.grp == gk && kv.2.cmd.idx == idx)).map Prod.fst

/-- The words of a plan that has been read are checked (R293). -/
def State.planSeen (s : State) (ctx gk idx n : Nat) : State :=
  match s.group? gk, s.task? gk idx with
  | some g, some t =>
    let base := g.obj + bits (g.hdr.getD 7 0).toNat 0 32
    match s.planAt ctx (recPlan t.recd) base with
    | .ok va => s.bytesSeen ctx va (8 + 12 * n) 4
    | .error _ => s
  | _, _ => s

/-- A `CPLAN` starts (R220). It keeps its place in the copy queue until its plan is read and its start has succeeded or failed for good, so
that a `CSTEP` behind it finds the counter set (R221). -/
def State.startPlan (s : State) (k : Nat) : State :=
  let o := s.op k
  let stage := (o.cmd.vals.getD 0 0).toNat
  let found := s.planEntries o.ctx o.cmd.grp o.cmd.idx
  -- one that has failed for good leaves its place
  let leave (t : State) : State :=
    if (t.op? k).any (fun x => x.st == .parked || (x.st == .queued && !x.finished)) then t else t.dequeue o.core 2 o.cmd.serial
  let fail (code : Nat) : State := leave (s.opFault k code 0 0 (fun s => s.restartOp k))
  match found with
  | .error f => leave (s.startFault k f)
  | .ok none => fail Code.opTokenInvalid
  | .ok (some es) =>
    if (s.planOf o.core o.cmd.grp o.cmd.idx).isSome ∨ es.any (fun w => (planIns w).isNone) then fail Code.opTokenInvalid
    else if 64 < stage then fail Code.shapeBounds
    else
      let s := s.dequeue o.core 2 o.cmd.serial
      ((s.planSeen o.ctx o.cmd.grp o.cmd.idx es.length).onOp k (fun o => { o with st := .started, plan := { running := true, stage := stage, entries := es } })).postEv
        (s.now + 1) (.evPlanEntryHandoff o.core)

/-- Entry j of a plan is handed to the copy port as though it issued now (R220). -/
def State.handEntry (s : State) (k j : Nat) (w : BitVec 96) : State :=
  let o := s.op k
  match planIns w with
  | none => s
  | some i =>
    let c := s.core o.core
    let prio := if c.t.isTask o.cmd.grp o.cmd.idx then c.t.prioAt s.now else o.prio
    let cmd : Cmd := { ins := i, t := s.now, bundle := o.cmd.bundle, mask := o.cmd.mask, serial := c.serial, seq := c.nextReq,
                       grp := o.cmd.grp, idx := o.cmd.idx, prio := prio }
    let s := s.onCore o.core (fun c => { c with serial := c.serial + 1 })
    let e := s.freeEntry (dieOf o.core)
    let s := (s.newOp o.core cmd prio).enqueue o.core { cmd with op := some e }
    let s := s.onOp e (fun x => { x with ctx := o.ctx, owner := o.owner, det := o.det, grp := o.grp, idx := o.idx, ownCore := o.ownCore,
                                         tile := j, parent := some (k, o.gen) })
    s.onOp k (fun o => { o with plan := { o.plan with next := j + 1, children := o.plan.children ++ [e] } })

/-- Whether the copy port and the table take another entry (R185, R204). -/
def State.portRoom (s : State) (o : Op) : Bool :=
  decide ((NMap.get [] (s.core o.core).c.cmdq 2).length < unitDepth 2)
    && decide ((s.ops.filter (fun kv => kv.1 / 8192 == dieOf o.core)).length < 8192)
    && decide ((s.ops.filter (fun kv => kv.2.ctx == o.ctx)).length < (s.context o.ctx).opq)

/-- A running plan is tested (R220): the next entry is handed over, or the plan ends. -/
def State.planStep (s : State) (k : Nat) : State :=
  let o := s.op k
  let p := o.plan
  let stop (s : State) : State := s.onOp k (fun o => { o with bytes := p.bytes, plan := { o.plan with running := false } })
  if !p.running || o.st != .started then s
  else
    match p.failed with
    | some (j, code, prog) => if p.children.isEmpty then (stop s).endOp k code (j + 64 * prog) 0 false else s
    | none =>
      match p.entries[p.next]? with
      | none => if p.children.isEmpty then (stop s).endOp k 0 p.bytes 0 false else s
      | some w =>
        if p.stage ≤ p.next ∨ s.opFrozen o then s
        else if s.portRoom o then
          let s := s.handEntry k p.next w
          if s.isDue (· == .ev (.evPlanEntryHandoff o.core)) then s else s.postEv (s.now + 1) (.evPlanEntryHandoff o.core)
        else s.postEv (s.now + 1) (.evPlanEntryHandoff o.core)

/-- `PLAN_ENTRY_HANDOFF` (R220): every plan that runs on the core is tested. -/
def execEvPlanEntryHandoff (core : Nat) (s : State) : Host.Outcome State Fault Refusal :=
  .next (((s.ops.filter (fun kv => kv.2.plan.running && kv.2.core == core)).map Prod.fst).foldl (fun s k => s.planStep k) s)

/-- `CSTEP` at its head (R221). -/
def State.stepHead (s : State) (core : Nat) (c : Cmd) : State :=
  match s.planOf core c.grp c.idx with
  | none => s.endCmd core c Code.opTokenInvalid 0 true
  | some k =>
    let s := s.onOp k (fun o => { o with plan := { o.plan with stage := min 64 (o.plan.stage + (c.vals.getD 0 0).toNat) } })
    (s.endCmd core c 0 0 true).postEv s.now (.evPlanEntryHandoff core)

end Sys2Proof.Machine
end

