-- ==== Sys2Proof/Machine/OpEvents.lean ====
section
/-!
DEFINITION. The two events every child operation shares (R189, R194): its start and the end of its work.
-/

namespace Sys2Proof.Machine

/-- Whether an older operation of the same task and unit has not started (R189). -/
def State.olderQueued (s : State) (o : Op) : Bool :=
  s.ops.any (fun kv => kv.2.core == o.core && kv.2.cmd.grp == o.cmd.grp && kv.2.cmd.idx == o.cmd.idx
    && kv.2.cmd.ins.cmdUnit == o.cmd.ins.cmdUnit && decide (kv.2.cmd.serial < o.cmd.serial) && kv.2.st == .queued && !kv.2.finished)

/-- The collectives before an operation that its task has issued and that have no number yet, in the order of issue. -/
def State.unnumbered (s : State) (o : Op) : List Cmd :=
  (s.ops.filter (fun kv => kv.2.core == o.core && kv.2.cmd.grp == o.cmd.grp && kv.2.cmd.idx == o.cmd.idx && isColl kv.2.cmd.ins
    && decide (kv.2.cmd.serial < o.cmd.serial) && kv.2.coll.isNone && kv.2.st != .done && !kv.2.finished)).foldl
    (fun l kv => l.takeWhile (fun c => decide (c.serial < kv.2.cmd.serial)) ++ kv.2.cmd :: l.dropWhile (fun c => decide (c.serial < kv.2.cmd.serial))) []

/-- Whether the page of the record that names a collective's team is not there. -/
def State.teamHidden (s : State) (ctx : Nat) (i : Instr) : Bool :=
  match (recRefs i).1.getLast? with
  | some r =>
    let c := s.context ctx
    decide (r < c.shlen) && (match s.vread ctx (c.shbase + 64 * r) 64 4 with
      | .error f => f.code == Code.pageNotPresent || f.code == Code.migrateWait
      | .ok _ => false)
  | none => false

/-- Numbers of a team follow the order of issue (R226): a collective takes its own after those before it, and waits where the record of
one cannot be read yet. -/
def State.numberWaits (s : State) (o : Op) : Bool := isColl o.cmd.ins && o.coll.isNone && (s.unnumbered o).any (fun c => s.teamHidden o.ctx c.ins)

/-- Whether an operation that was saved after its start finds a place: a copy among the four of its port (R204), a query among the four of
its core (R307). -/
def State.placeFor (s : State) (k : Nat) (o : Op) (i : Instr) : Bool :=
  match i with
  | .bqpost _ _ _ _ => s.queryTurn k
  | _ => !isCopyOp i || s.copyRoom o.core

/-- An operation starts. A query is handed to its units once the accesses before it are performed (R256); a command of the copy
port leaves its queue, its records are read, and its own checks follow, but a subscription keeps its place until it has a groom
context. One that was saved after its start waits here for its place. -/
def State.opStart (s : State) (k : Nat) : State :=
  match s.op? k with
  | none => s
  | some o =>
    let waits := match o.cmd.ins with
      | .subs _ _ _ _ => true
      | _ => false
    if o.st == .saved && !o.finished then
      if s.placeFor k o o.cmd.ins then (s.onOp k (fun o => { o with st := .parked })).resumeOp k else s.postEv (s.now + 1) (.evOpStart k)
    else if o.finished || !(o.st == .queued || o.st == .started) || s.opFrozen o then s
    else
      match o.cmd.ins with
      | .bqpost _ _ _ _ =>
        if s.portClear o.core o.cmd.seq && !s.olderQueued o then s.startQuery k else s.postEv (s.now + 1) (.evOpStart k)
      | .cplan _ _ _ => s.startPlan k
      | _ =>
        let fault (f : TFault) (s : State) : State :=
          let s := s.dequeue o.core 2 o.cmd.serial
          if isColl o.cmd.ins then s.collRecFault k f else s.startFault k f
        let wait := if o.recs.isEmpty then
            s.lineWait k o (s.recLines o.ctx (recRefs o.cmd.ins).1) (.evOpStart k) (fault { code := Code.linkDown, va := 0, acc := 4 })
          else none
        match wait with
        | some s => s
        | none =>
        if s.numberWaits o then s.postEv (s.now + 1) (.evOpStart k)
        else
        let s := if isColl o.cmd.ins && o.coll.isNone then s.numberColls o.core (s.unnumbered o) else s
        let s := if waits then s else s.dequeue o.core 2 o.cmd.serial
        let read := if o.recs.isEmpty then s.opRecs o else .ok o.recs
        match read with
        | .error f => fault f s
        | .ok rs =>
          let s := (if o.recs.isEmpty then s.recsSeen o rs else s).onOp k (fun o => { o with recs := rs, hostWait := 0 })
          match o.cmd.ins with
          | .subs _ _ _ _ => s.startSubs k
          | .callred _ _ _ _ | .cred _ _ _ _ | .cbc _ _ _ _ | .cag _ _ _ _ | .crsc _ _ _ _ => s.startColl k
          | _ => s.startCopy k

/-- `OP_START` (R189, R194, R209). -/
def execEvOpStart (op : Nat) (s : State) : Host.Outcome State Fault Refusal := .next (s.opStart op)

/-- The work of an operation ends (R191, R194): what each kind does in its completion cycle. One whose writes wait for the host link
ends when they have left (R257, R359). -/
def State.opComplete (s : State) (k : Nat) : State :=
  match s.op? k with
  | none => s
  | some o =>
    if o.finished || o.st == .done || s.writesHeld k then s
    else if o.cmd.ins.cmdUnit < 2 then s.matDone o.core k
    else
    match o.verdict with
    | some (code, detail) => s.endOp k code detail o.flags false
    | none =>
    if o.st != .started then s
    else
      match o.cmd.ins with
      | .bqpost _ _ _ _ => s.finishQuery k
      | .cpy _ _ _ _ _ | .cpyg _ _ _ _ | .cpys _ _ _ _ | .cpyx _ _ _ _ | .cpysc _ _ _ _ =>
        match o.stop with
        | some code => s.endOp k code o.prog o.flags false
        | none => s.endOp k 0 o.copyDetail o.flags false
      | _ => s

/-- `OP_COMPLETE` (R191, R194). -/
def execEvOpComplete (op : Nat) (s : State) : Host.Outcome State Fault Refusal := .next (s.opComplete op)

end Sys2Proof.Machine
end

