-- ==== Sys2Proof/Machine/Save.lean ====
section
/-!
DEFINITION. Saving a task and its operations, and their return (R26, R164, R177, R200, R264, R305, R309, R335, R339, R350): what a
pre-emption by checkpoint and a context swap have in common.
-/

namespace Sys2Proof.Machine

/-! ### The beginning of a save -/

/-- Both ends of a splice come to rest (R177): the saving side takes no more appends and releases no more slots, and sends a PAUSE
behind the appends that have begun. -/
def State.quiesceQueue (s : State) (core q : Nat) : State :=
  let qq := s.queue core q
  if qq.quiet = 0 ∧ (qq.st = .send ∨ qq.st = .recv) then (s.onQueue core q (fun x => { x with quiet := 3 })).pauseBehind core q else s

/-- Every splice of a core comes to rest. -/
def State.quiesce (s : State) (core : Nat) : State := (NMap.keys (s.core core).c.q).foldl (fun s q => s.quiesceQueue core q) s

/-- The leases of a core are revoked (R350): those on its pool, and those its tasks hold. -/
def State.revokeAll (s : State) (core : Nat) : State :=
  ((s.core core).c.lease.filter (fun kl => (kl.2.live && !kl.2.rev) || kl.2.tok.isSome)).foldl (fun s kl =>
    s.postEv (s.now + (if kl.2.live then leaseTrip else 2 * leaseTrip)) (.evLeaseRevocation core kl.1)) (s.recallAll core false)

/-- The save of a core begins (R177, R200, R350): its task issues nothing more, its leases are revoked, its splices come to
rest. -/
def State.beginSave (s : State) (core : Nat) : State :=
  let t := (s.core core).t
  let s :=
    if t.mode = .none ∨ t.mode = .saving then s
    else s.onCore core (fun c =>
      { c with gen := c.gen + 1, t := { c.t.setMode s.now .saving with saveFrom := t.mode, walk := none } })
  (s.revokeAll core).quiesce core

/-! ### When everything has come to rest -/

/-- Whether a unit is in the middle of a row pair of an operation's entry. -/
def State.midPair (s : State) (k : Nat) : Bool :=
  s.units.any (fun kv => kv.2.running && ((kv.2.work.head?).map (BuWork.ofOp k)).getD false && s.isDue (· == .ev (.evRowStep kv.1)))

/-- Whether an operation can be saved now (R200): it has not started, or it stands at a boundary of its work. A started matrix
command or collective runs to its end first. -/
def State.opAtRest (s : State) (k : Nat) (o : Op) : Bool :=
  o.finished || (o.st != .started && !s.midPair k) ||
    (decide (2 ≤ o.cmd.ins.cmdUnit) && !isColl o.cmd.ins && o.reqs.isEmpty && o.need == 0 && !s.midPair k
      && !s.writesHeld k && !s.isDue (fun a => a == .ev (.evCopyLine k) || a == .ev (.evOpComplete k)))

/-- Whether a command is saved with a task: it has no operation, or one the task owns that is not detached (R200). -/
def State.savedWith (s : State) (gk i : Nat) (c : Cmd) : Bool :=
  c.grp == gk && c.idx == i &&
  match c.op.bind s.op? with
  | some o => o.owner == 0 && !o.det && o.grp == gk && o.idx == i
  | none => true

/-- Whether a piece of a unit's work belongs to a task. -/
def BuWork.ofTask (core gk i : Nat) : BuWork → Bool
  | .run c cmd _ => c == core && cmd.grp == gk && cmd.idx == i
  | .prog c cmd => c == core && cmd.grp == gk && cmd.idx == i
  | .entry _ _ => false

/-- Whether the micro-program runs of a task stand where they can be saved (R309): at a `BUROW`, or not begun. -/
def State.runsAtRest (s : State) (core gk i : Nat) : Bool :=
  s.units.all (fun kv =>
    kv.2.work.all (fun w => match w with
      | .prog _ _ => !w.ofTask core gk i
      | _ => true)
    && (!(kv.2.running && ((kv.2.work.head?).map (BuWork.ofTask core gk i)).getD false) || kv.2.waitPage))

/-- Whether an engine holds only commands that have not passed their wait (R164). -/
def Engine.atRest (e : Engine) : Bool := e.running.isEmpty && e.q.all (fun c => c.h == 0)

/-- Whether a core can be saved now: loads and drains have landed, started commands are done, splices and leases are at rest. -/
def State.coreAtRest (s : State) (core : Nat) : Bool :=
  let c := s.core core
  let t := c.t
  t.port.isEmpty && t.wait.all (fun e => ((t.replay.map (fun r => r.items)).getD []).any (fun u => u.req.id == e.2))
    && t.late.isEmpty && t.me0.atRest && t.me1.atRest && t.sl.isEmpty
    && c.c.moving.isNone && c.c.q.all (fun kq => kq.2.quiet == 0 || kq.2.quiet == 2)
    && c.c.lease.all (fun kl => kl.2.tok.isNone && (!kl.2.live || kl.2.rev) && kl.2.waits.isEmpty) && c.c.lent.isEmpty
    && !s.isDue (fun a => match a with
      | .ev (.evFallbackLineWrite n _ _) => n == core
      | .fill n _ _ _ _ => n == core
      | _ => false) && !s.emitsOut core 0 0x300000

/-- Whether a task that is being saved can be saved now. -/
def State.saveReady (s : State) (core : Nat) : Bool :=
  let t := (s.core core).t
  s.coreAtRest core && s.runsAtRest core t.grp t.idx && (s.ownedOps t.grp t.idx).all (fun k => s.opAtRest k (s.op k))

/-! ### The end of a save -/

/-- An operation is saved (R194, R200, R305): nothing of it is due, and its bank units are freed. -/
def State.saveOp (s : State) (k : Nat) : State :=
  match s.op? k with
  | none => s
  | some o =>
    if o.finished || o.st == .done || o.st == .saved then s
    else
      let q := decide (o.st = .queued)
      ((s.dropWork k).dropActs k).onOp k (fun o =>
        { o with st := .saved, wasQueued := q, reqs := [], ahead := [], need := 0, via := [], hostWait := 0 })

/-- A run as it is saved (R309). -/
def BankUnit.snap (b : BankUnit) : RunSnap :=
  { store := b.store, mpc := b.mpc, b := b.b, lc := b.lc, rp := b.rp, emits := b.emits, flags := b.flags }

/-- The runs that satisfy a condition leave their units, each with its unit and what it has reached. -/
def State.takeRuns (s : State) (p : BuWork → Bool) : List (Nat × BuWork) × State :=
  s.units.foldl (fun acc kv =>
    let mine := kv.2.work.filter p
    if mine.isEmpty then acc
    else
      let out := mine.map (fun w => match w with
        | .run c cmd r => (kv.1, BuWork.run c cmd (if kv.2.running && kv.2.work.head? == some w then some kv.2.snap else r))
        | _ => (kv.1, w))
      (acc.1 ++ out, acc.2.dropUnitWork kv.1 p)) ([], s)

/-- An engine with the commands of its queue that satisfy a condition. -/
def Engine.keep (e : Engine) (p : Cmd → Bool) : Engine := { e with q := e.q.filter p }

/-! ### The save area (R336) -/

/-- The size of a core's region in the save area and the Loft, of the scratchpad image at its start, and of a task slot; the place of
the first slot. -/
def regionSize : Nat := 4 * 2 ^ 20
def padSize : Nat := 3 * 2 ^ 20
def slotSize : Nat := 96 * 2 ^ 10
def slotsAt : Nat := 0x320000

/-- The task slots of a core. -/
def taskSlots : Nat := 8

/-- Whether a run of local memory exists (R3). -/
def State.hasLocal (s : State) (die base n : Nat) : Bool := decide (base + n ≤ s.npc die * 2 ^ 30)

/-- The place of a core in its context's areas: by ascending yard, then in row-major core order. -/
def State.regionOf (s : State) (core : Nat) : Nat := ((s.partCores (s.ctxOf core)).findIdx? (· == core)).getD 0

/-- The first task slot of a core that no suspended task holds; past the last one where each is held, which only a swap meets
(notes/assumptions/120). -/
def State.freeSlot (s : State) (core : Nat) : Nat :=
  ((List.range taskSlots).find? (fun i => !(s.core core).c.susp.any (fun x => x.slot == i))).getD taskSlots

/-- The local address of a task slot of a core. -/
def State.slotAt (s : State) (core slot : Nat) : Nat :=
  (s.context (s.ctxOf core)).save + regionSize * s.regionOf core + slotsAt + slotSize * slot

/-- A run of local memory holds what no rule gives a layout (notes/assumptions/15), with correct check bits. -/
def State.veilRun (s : State) (die base n : Nat) : State :=
  let a := Addr.localMem die base
  let s := s.unveil a n
  { s with ecc := s.ecc.filter (fun e => decide (e.1 < a / 32) || decide ((a + n) / 32 ≤ e.1)), veils := (a, n, s.free) :: s.veils,
           free := s.free + 1 }

/-- A task that a pre-emption suspended is written to its slot (R336). -/
def State.writeSlot (s : State) (core slot : Nat) : State :=
  let a := s.slotAt core slot
  if decide (taskSlots ≤ slot) || !s.hasLocal (dieOf core) a slotSize then s else s.veilRun (dieOf core) a slotSize

/-- Whether a word of local memory in a run that exists reads as uncorrectable. -/
def State.badRun (s : State) (die base n : Nat) : Bool :=
  let a := Addr.localMem die base / 32
  s.hasLocal die base n && s.ecc.any (fun e => decide (a ≤ e.1) && decide (e.1 < a + n / 32) && e.2.bad)

/-- The correctable words of a run of local memory are read: each is corrected, counted and written back (R293). -/
def State.scrubArea (s : State) (die base n : Nat) : State :=
  let a := Addr.localMem die base / 32
  if !s.hasLocal die base n then s
  else
    (s.ecc.filter (fun e => decide (a ≤ e.1) && decide (e.1 < a + n / 32) && e.2 == .correctable)).foldl (fun s e =>
      s.scrubWord die (32 * e.1 - Addr.localMem die 0)) s

/-- The task of a core is saved into a slot and the core is free (R26, R164, R336). Of the cycles its watchdog has counted those up to
now are kept (R343). -/
def State.finishSave (s : State) (core : Nat) : State :=
  let t := (s.core core).t
  let gk := t.grp
  let i := t.idx
  let mine := s.savedWith gk i
  let cmds := (s.core core).c.cmdq.flatMap (fun kv => (kv.2.filter mine).map (fun c => (kv.1, c)))
  let r := s.takeRuns (BuWork.ofTask core gk i)
  let s := (s.ownedOps gk i).foldl (fun s k => s.saveOp k) r.2
  let t := { t.sync s.now with me0 := t.me0.keep mine, me1 := t.me1.keep mine, lastClear := s.now - t.brkClear s.now, drainAt := 0 }
  let slot := s.freeSlot core
  let s := s.onCore core (fun c =>
    { c with
      t := { me0 := t.me0.keep (fun x => !mine x), me1 := t.me1.keep (fun x => !mine x), pc := t.pc },
      c := { c.c with susp := c.c.susp ++ [{ slot := slot, t := t, cmds := cmds, runs := r.1 }],
                      cmdq := c.c.cmdq.map (fun kv => (kv.1, kv.2.filter (fun x => !mine x))) } })
  ((s.onTaskRec gk i (fun x => { x with st := .suspended, readyAt := s.now })).postEv s.now (.evTaskGrant core)).postEv
    (s.now + 1) (.evYardGate (dieOf core) (yardOf core))

/-! ### The return of a saved task -/

/-- A saved operation is what it was before the save (R194): QUEUED, or STARTED from its kept progress. -/
def State.unsaveOp (s : State) (k : Nat) : State :=
  match s.op? k with
  | none => s
  | some o =>
    if o.st != .saved then s
    else if o.wasQueued then
      let s := s.onOp k (fun o => { o with st := .queued, wasQueued := false })
      let c := s.core o.core
      let u := o.cmd.ins.cmdUnit
      let waits := (if u < 2 then (c.t.eng u).q else NMap.get [] c.c.cmdq u).any (fun c => c.op == some k)
      if waits then s.postHead o.core u (s.now + 1) else s.postFree 64 (.evOpStart k)
    else
      match o.cmd.ins with
      | .cplan _ _ _ =>
        if o.plan.running then (s.onOp k (fun o => { o with st := .started, park := none })).postEv (s.now + 1) (.evPlanEntryHandoff o.core)
        else (s.onOp k (fun o => { o with st := .parked })).resumeOp k
      | i =>
        if s.placeFor k o i then (s.onOp k (fun o => { o with st := .parked })).resumeOp k else s.postEv (s.now + 1) (.evOpStart k)

/-- The head of every unit queue of a core that holds a command is tested. -/
def State.postHeads (s : State) (core : Nat) : State :=
  let c := s.core core
  let busy (u : Nat) : Bool := if u < 2 then !(c.t.eng u).q.isEmpty else !(NMap.get [] c.c.cmdq u).isEmpty
  ((List.range 10).filter busy).foldl (fun s u => s.postHead core u (s.now + 1)) s

/-- A task that was saved is RUNNING again (R26, R115, R339, R351): its unfinished bays translate afresh, a bundle issues, or it
waits as before. -/
def State.goOn (s : State) (core : Nat) : State :=
  let t := (s.core core).t
  match t.mode with
  | .running =>
    match t.replay with
    | some rp =>
      match rp.items with
      | u :: _ => (s.onTask core (fun t => { t with walk := some u })).postFree 512 (.evPageWalkReturn core)
      | [] => (s.onTask core (fun t => { t with replay := none })).issueAt core rp.npc (s.now + 1)
    | none =>
      let due := max t.notBefore (s.now + s.delay 64)
      ((s.onTask core (fun t => { t with notBefore := due })).post due (.issue core (s.core core).gen)).spend
  | .retiring => s.postEv s.now (.evTaskDone core)
  | .brk => if t.released then (s.onTask core (fun t => { t with released := false })).releaseBrk core else s
  | _ => s

/-- The instruction buffer for a task of an object: kept if it holds that object's code, else emptied (R314). -/
def Core.forCode (c : Core) (obj code len : Nat) : Core :=
  if c.obj = obj ∧ c.code = code then { c with codeLen := len, fetched := [], fetching := [] }
  else { c with obj := obj, code := code, codeLen := len, held := [], fetched := [], fetching := [] }

/-- The instruction buffer of a core for a group's code (R314). -/
def State.loadCode (s : State) (core gk : Nat) : State :=
  match s.group? gk with
  | some g =>
    let h (i : Nat) : Nat := (g.hdr.getD i 0).toNat
    s.onCore core (fun c => c.forCode g.obj (g.obj + bits (h 1) 0 32) (bits (h 1) 32 32))
  | none => s

/-- What a saved task is when it returns (R26): RETIRING with the retiring mark, else RUNNING. One that was PARKED translates afresh;
one whose record still waits for a slot of the trap queue stays held until it is posted (R340). -/
def State.returnsAs (s : State) (core : Nat) (x : Saved) : TaskMode :=
  match x.t.saveFrom with
  | .parked => if (s.context (s.ctxOf core)).recordWaits x.t.grp x.t.idx then .held else .running
  | m => m

/-- A saved task takes its core again (R26, R164, R200). Its slot is read: an uncorrectable word in it is fatal (R342). The accesses
that a killed task has left on the core go on. -/
def State.resumeSaved (s : State) (core : Nat) (x : Saved) : State :=
  let gk := x.t.grp
  let i := x.t.idx
  let mode := s.returnsAs core x
  let s := if s.badRun (dieOf core) (s.slotAt core x.slot) slotSize then
      s.fatal (s.ctxOf core) { grp := gk, task := i, coord := coordWord core, code := Code.memUncorrectable }
    else if x.slot < taskSlots then s.scrubArea (dieOf core) (s.slotAt core x.slot) slotSize
    else s
  let parked := x.t.saveFrom == .parked
  let t := { x.t with port := (s.core core).t.port ++ x.t.port, mode := mode, saveFrom := .none, stamp := s.now, lastClear := s.now - x.t.lastClear,
                      brk := x.t.brk.map (fun b => (s.now, b.2)),
                      replay := x.t.replay.map (fun r => { r with freed := r.freed || (parked && mode == .held) }) }
  let s := s.onCore core (fun c =>
    { c with gen := c.gen + 1, t := t, resv := none,
             c := { c.c with susp := c.c.susp.filter (fun y => !(y.t.grp == gk && y.t.idx == i)),
                             cmdq := x.cmds.foldl (fun m uc => NMap.put [] m uc.1 (NMap.get [] m uc.1 ++ [uc.2])) c.c.cmdq } })
  let s := s.loadCode core gk
  let s := s.onTaskRec gk i (fun r =>
    { r with st := match mode with
      | .retiring => .retiring
      | _ => .running })
  let s := s.postHeads core
  let s := (s.ownedOps gk i).foldl (fun s k => s.unsaveOp k) s
  let s := x.runs.foldl (fun s uw => s.pushWork uw.1 uw.2) s
  let s := (s.resumeSplices core).postEv (s.now + 1) (.evWatchdog (s.ctxOf core) gk i)
  s.goOn core

end Sys2Proof.Machine
end

