-- ==== Sys2Proof/Machine/Sync.lean ====
section
/-!
DEFINITION. The synchronisation controller (R232 to R246): barrier and buffer commands at issue and at their heads, and
remote arrivals.
-/

namespace Sys2Proof.Machine

/-! ### At issue -/

/-- `BINIT` (R240, R242). -/
def execBinit (h : CmdHdr) (b : BitVec 8) (s : State) : Host.Outcome State Fault Refusal := plainCmd s (.binit h b) []

/-- `BEXPECT` (R240, R242). -/
def execBexpect (h : CmdHdr) (b : BitVec 8) (n : Opd) (s : State) : Host.Outcome State Fault Refusal := plainCmd s (.bexpect h b n) [n]

/-- `BARRIVE` (R240, R242). -/
def execBarrive (h : CmdHdr) (b : BitVec 8) (n : Opd) (rem : Bool) (core : BitVec 4) (s : State) : Host.Outcome State Fault Refusal :=
  plainCmd s (.barrive h b n rem core) [n]

/-- `BWAIT` (R240, R243). -/
def execBwait (h : CmdHdr) (b : BitVec 8) (p : Option Opd) (s : State) : Host.Outcome State Fault Refusal :=
  plainCmd s (.bwait h b p) (optOpd p)

/-- `BCLEAR` (R240, R242). -/
def execBclear (h : CmdHdr) (b : BitVec 8) (free : Bool) (s : State) : Host.Outcome State Fault Refusal := plainCmd s (.bclear h b free) []

/-- `BUFDECL` (R240, R244). -/
def execBufdecl (h : CmdHdr) (k : BitVec 5) (base size : Opd) (tag : BitVec 3) (s : State) : Host.Outcome State Fault Refusal :=
  plainCmd s (.bufdecl h k base size tag) [base, size]

/-- `BUFSET` (R240, R244). -/
def execBufset (h : CmdHdr) (k : BitVec 5) (st : BitVec 3) (force : Bool) (s : State) : Host.Outcome State Fault Refusal :=
  plainCmd s (.bufset h k st force) []

/-! ### At the head (R242 to R244) -/

/-- What a record about a command says of its source (R386). -/
def Cmd.info (c : Cmd) (core : Nat) : RecInfo :=
  { unit := c.ins.unitCode, grp := c.grp % 2 ^ 32, task := c.idx, coord := coordWord core, bundle := c.bundle }

/-- The fault of a barrier that is FREE or POISONED, for the commands that need an active one (R242). -/
def Barrier.blocks (x : Barrier) : Option Nat :=
  if x.st = 0 then some Code.barrierPoisoned else if x.st = 2 then some x.pcode else none

/-- A barrier command's effect (R235, R242, R243); none while it must wait. -/
def State.barHead (s : State) (core : Nat) (c : Cmd) (b : Nat) : Option State :=
  let x := s.barrier core b
  let n := (c.vals.getD 0 0).toNat
  match c.ins with
  | .binit _ _ =>
    let s := s.answer core b Code.barrierPoisoned (fun w => w.cmd.code == 0)
    some ((s.setBarrier core b { st := 1 }).endCmd core c 0 0 true)
  | .bclear _ _ free =>
    if free then
      let s := s.answer core b Code.barrierPoisoned (fun w => w.cmd.code == 0)
      some ((s.setBarrier core b {}).endCmd core c 0 0 true)
    else
      let s := if x.st = 0 then s else s.setBarrier core b { st := 1, phase := x.phase }
      some (s.endCmd core c 0 0 true)
  | .bexpect _ _ _ =>
    match x.blocks with
    | some code => some (s.endCmd core c code 0 true)
    | none =>
      if x.posted ∨ 2 ^ 48 - 1 < n ∨ n < x.arrived then
        some ((s.poisonBarrier core b Code.barrierOverrun).endCmd core c Code.barrierOverrun 0 true)
      else some (((s.setBarrier core b { x with expected := n, posted := true }).post s.now (.barTest core b)).endCmd core c 0 0 true)
  | .barrive _ _ _ rem tgt =>
    if rem then
      some ((s.postEv (s.now + 8) (.evRemoteArrivalLand (coreOfYard core tgt.toNat) b (word n) (c.src core))).endCmd core c 0 0 true)
    else
      match x.blocks with
      | some code => some (s.endCmd core c code 0 true)
      | none => some ((s.arrive core b n (c.info core)).endCmd core c 0 0 true)
  | .bwait _ _ p =>
    let ph := if p.isNone then x.phase else n % 65536
    match x.blocks with
    | some code => some (s.endCmd core c code ph true)
    | none =>
      if phaseDone x.phase ph then some (s.endCmd core c 0 ph true)
      else if 32 ≤ (s.core core).c.waiters.length then none
      else some (s.onCtxSt core (fun k => { k with waiters := k.waiters ++ [{ bar := b, phase := ph, cmd := c }] }))
  | _ => some s

/-- The checks of `BUFDECL` (R244). -/
def State.declFault (s : State) (core k base size : Nat) : Option Nat :=
  let x := s.buffer core k
  let others := (s.core core).c.buf.filter (fun kb => kb.1 != k)
  if x.v ∧ x.use ≠ 0 then some Code.bufferState
  else if base % 64 ≠ 0 ∨ size % 64 ≠ 0 then some Code.align
  else if 0x300000 < base + size ∨ (others.any (fun kb => kb.2.covers base size)) then some Code.shapeBounds
  else none

/-- A declaration (R239, R244): a size of 0 removes it. -/
def State.declare (s : State) (core k base size tag : Nat) : State :=
  s.onBuffer core k (fun _ => if size = 0 then {} else { v := true, st := 0, tag := tag, size := size, base := base, use := 0 })

/-- Whether `BUFSET` may move a buffer from one state to another (R238). -/
def bufMoves (cur st : Nat) (force : Bool) : Bool := (force && st == 0) || st == (cur + 1) % 4

/-- A buffer command's effect (R244); none while the buffer is in use. -/
def State.bufHead (s : State) (core : Nat) (c : Cmd) : Option State :=
  match c.ins with
  | .bufdecl _ k _ _ tag =>
    let base := (c.vals.getD 0 0).toNat
    let size := (c.vals.getD 1 0).toNat
    match s.declFault core k.toNat base size with
    | some code => some (s.endCmd core c code 0 true)
    | none => some ((s.declare core k.toNat base size tag.toNat).endCmd core c 0 0 true)
  | .bufset _ k st force =>
    let x := s.buffer core k.toNat
    if !x.v then some (s.endCmd core c Code.bufferState 0 true)
    else if x.use ≠ 0 then none
    else if bufMoves x.st st.toNat force then
      some ((s.onBuffer core k.toNat (fun x => { x with st := st.toNat })).endCmd core c 0 0 true)
    else some (s.endCmd core c Code.bufferState 0 true)
  | _ => some s

/-- A command of the synchronisation controller at its head. -/
def State.syncHead (s : State) (core : Nat) (c : Cmd) : Option State :=
  match c.ins with
  | .binit _ b | .bclear _ b _ | .bexpect _ b _ | .barrive _ b _ _ _ | .bwait _ b _ => s.barHead core c b.toNat
  | _ => s.bufHead core c

/-- A remote arrival lands (R234, R242). -/
def execEvRemoteArrivalLand (core bar : Nat) (n : Word) (src : SigSrc) (s : State) : Host.Outcome State Fault Refusal :=
  .next (s.arrive core (bar % 256) n.toNat
    { unit := 0x28, grp := src.grp, task := src.task, coord := src.coord, bundle := src.bundle.toNat, opid := src.opid.toNat })

end Sys2Proof.Machine
end

