-- ==== Sys2Proof/Machine/Group.lean ====
section
/-!
DEFINITION. The group (R321 to R331) and a task's life on its core (R23, R25, R26): `TLAUNCH` and `TDEP`, readiness, the grant
and the start of a task, its end, and the end of its group.
-/

namespace Sys2Proof.Machine

/-- `TLAUNCH` (R326, R327). -/
def execTlaunch (h : CmdHdr) (rec : Opd) (s : State) : Host.Outcome State Fault Refusal := plainCmd s (.tlaunch h rec) [rec]

/-- `TDEP` (R326, R328). -/
def execTdep (h : CmdHdr) (idx : Opd) (s : State) : Host.Outcome State Fault Refusal := plainCmd s (.tdep h idx) [idx]

/-! ### At the head (R325, R327, R328) -/

/-- The most tasks a group holds (R321). -/
def maxTasks : Nat := 1048575

/-- The current priority of the task that issued a command. -/
def State.issuerPrio (s : State) (core : Nat) (c : Cmd) : Nat :=
  let t := (s.core core).t
  if t.isTask c.grp c.idx then t.prioAt s.now else c.prio

/-- The record of a `TLAUNCH`, if it passes the checks of R327; else the code of the first that fails. -/
def State.launchRec (s : State) (core : Nat) (c : Cmd) (g : Group) : Except Nat (List Word) :=
  let a := (c.vals.getD 0 0).toNat
  if a % 64 ≠ 0 then .error Code.align
  else if 0x300000 < a + 64 then .error Code.shapeBounds
  else if !s.bufOk core a 64 true false then .error Code.bufferState
  else if s.padBad core a 64 then .error Code.memUncorrectable
  else
    let r := wordsOf 8 (s.padBytes core a 64)
    if !s.recordOk g.ctx g.obj g.hdr r ∨ maxTasks ≤ g.tasks.length then .error Code.launchRejected
    else if s.issuerPrio core c < recPrio r then .error Code.privilege
    else .ok r

/-- `TLAUNCH` at its head (R321, R327): the next task of the group is LISTED. -/
def State.tlaunchHead (s : State) (core : Nat) (c : Cmd) : State :=
  match s.group? c.grp with
  | none => s.endCmd core c Code.launchRejected 0 true
  | some g =>
    match s.launchRec core c g with
    | .error code => s.endCmd core c code 0 true
    | .ok r =>
      let i := g.tasks.length
      let s := (s.padScrub core (c.vals.getD 0 0).toNat 64).onGroup c.grp (fun g =>
        { g with tasks := g.tasks ++ [{ recd := r, arg := r.getD 3 0, cnt := recDeps r }] })
      (s.postEv s.now (.evTaskReady c.grp i)).endCmd core c 0 i true

/-- The decrement of a `TDEP` (R322, R328). -/
def State.tdepAct (s : State) (core : Nat) (c : Cmd) : State :=
  let i := (c.vals.getD 0 0).toNat % 2 ^ 20
  match s.task? c.grp i with
  | none => s.endCmd core c Code.shapeIndex 0 true
  | some t =>
    let gone := !(t.st == .listed && decide (0 < t.cnt))
    (s.depDecrement c.grp i).endCmd core c 0 (if gone then 1 else 0) true

/-- A command of the group port at its head (R325, R329); none while an access it releases has not been performed. -/
def State.groupHead (s : State) (core : Nat) (c : Cmd) : Option State :=
  if !s.portClear core c.seq then none
  else
    match c.ins with
    | .tlaunch _ _ => some (s.tlaunchHead core c)
    | .tdep _ _ => some (s.post s.now (.tdep core c))
    | _ => some s

/-! ### Readiness (R323) -/

/-- Whether the waits of a record hold on its core's semaphores (R312, R323). -/
def State.waitsHold (s : State) (core : Nat) (r : List Word) : Bool :=
  (List.range (recNW r)).all (fun i => decide (bits (recWait r i) 8 12 ≤ s.sem core (bits (recWait r i) 0 8)))

/-- A LISTED task is tested (R323). -/
def State.taskReady (s : State) (gk i : Nat) : State :=
  match s.group? gk, s.task? gk i with
  | some g, some t =>
    let core := recCore (g.ctx / 64) t.recd
    if t.st == .listed && t.cnt == 0 && !g.ended && (s.context g.ctx).st == .active && s.waitsHold core t.recd then
      (s.onTaskRec gk i (fun t => { t with st := .ready, readyAt := s.now })).postEv s.now (.evTaskGrant core)
    else s
  | _, _ => s

/-- `TASK_READY` (R323). -/
def execEvTaskReady (grp idx : Nat) (s : State) : Host.Outcome State Fault Refusal := .next (s.taskReady grp idx)

/-! ### The choice (R324) -/

/-- A millisecond in cycles (R22). -/
def msCycles : Nat := 2250000

/-- A task that waits for its core: its group and index, its effective priority, since when, its group's place in creation order,
and whether it is suspended. -/
structure Waiting where
  gk : Nat
  idx : Nat
  eff : Nat
  since : Nat
  order : Nat
  susp : Bool
  deriving DecidableEq, Repr

/-- The effective priority (R324). -/
def effPrio (prio since now : Nat) : Nat := min 7 (prio + (now - since) / msCycles)

/-- The tasks that wait for a core: READY ones, and suspended ones (R324, R334). -/
def State.waitingFor (s : State) (core : Nat) : List Waiting :=
  s.groups.flatMap (fun kg =>
    if kg.2.ctx ≠ s.ctxOf core ∨ kg.2.ended then []
    else
      (List.range kg.2.tasks.length).filterMap (fun i =>
        match kg.2.tasks[i]? with
        | some t =>
          if recCore (kg.2.ctx / 64) t.recd == core && (t.st == .ready || t.st == .suspended) then
            some { gk := kg.1, idx := i, eff := effPrio (recPrio t.recd) t.readyAt s.now, since := t.readyAt, order := kg.2.order,
                   susp := t.st == .suspended }
          else none
        | none => none))

/-- Whether one waiting task is chosen before another (R324). -/
def Waiting.before (a b : Waiting) : Bool :=
  decide (b.eff < a.eff) || (a.eff == b.eff && (decide (a.since < b.since) || (a.since == b.since
    && (decide (a.order < b.order) || (a.order == b.order && decide (a.idx < b.idx))))))

/-- The first of several. -/
def bestOf (ws : List Waiting) : Option Waiting :=
  ws.foldl (fun best w => match best with
    | none => some w
    | some b => if w.before b then some w else some b) none

/-- The choice for a core: the task it is reserved for (R337), else the first of R324. -/
def State.chosen (s : State) (core : Nat) : Option Waiting :=
  let ws := s.waitingFor core
  (((s.core core).resv.bind (fun r => ws.find? (fun w => w.gk == r.1 && w.idx == r.2)))).orElse (fun _ => bestOf ws)

/-- Whether an engine holds no command. -/
def Engine.isEmpty (e : Engine) : Bool := e.q.isEmpty && e.running.isEmpty

/-- The conditions of R324 on the core. -/
def State.coreFree (s : State) (core : Nat) : Bool :=
  let c := s.core core
  c.t.mode == .none && c.t.me0.isEmpty && c.t.me1.isEmpty && c.c.moving.isNone
    && [3, 4, 5, 6].all (fun u => (NMap.get [] c.c.cmdq u).isEmpty)

/-! ### The start (R25, R173, R239, R314) -/

/-- A QUEUE item at a task's start (R173). -/
def State.startQueue (s : State) (core gk i : Nat) (w : Nat) : State :=
  let q := bits w 0 5
  let size := 2 ^ (bits w 5 4 + 6)
  let count := 2 ^ (bits w 9 3 + 1)
  let scope := bits w 12 3
  let base := bits w 15 22
  let x := s.queue core q
  if x.st != .free && x.st != .lost && x.base == base && x.size == size && x.count == count && x.scope == scope then s
  else (if x.st == .free then s else s.freeQueue core q).openQueue core q base size count scope (gk, i)

/-- A BUFFER item at a task's start (R239), or the start fault it raises. -/
def State.startBuffer (s : State) (core w : Nat) : Except Nat State :=
  let k := bits w 0 5
  let tag := bits w 5 3
  let base := bits w 8 22
  let size := bits w 30 22
  let x := s.buffer core k
  if x.v && x.base == base && x.size == size && x.tag == tag then .ok s
  else
    match s.declFault core k base size with
    | some code => .error (if code = Code.bufferState then code else Code.shapeBounds)
    | none => .ok (s.declare core k base size tag)

/-- The items of the object, in order, up to the first that fails. -/
def State.startItems (s : State) (core gk i : Nat) : List Word → State × Option Nat
  | [] => (s, none)
  | w :: ws =>
    match bits w.toNat 60 4 with
    | 2 => State.startItems (s.startQueue core gk i w.toNat) core gk i ws
    | 3 =>
      match s.startBuffer core w.toNat with
      | .ok s => State.startItems s core gk i ws
      | .error code => (s, some code)
    | _ => State.startItems s core gk i ws

/-- A block of code is asked for at a task's start; the code of a launch is there within the bounds of R319 and R327. -/
def State.askEntry (s : State) (core b : Nat) : State :=
  if ((s.core core).block b).isSome || (s.core core).fetching.contains b then s
  else (s.onCore core (fun c => { c with fetching := b :: c.fetching })).postFree 48 (.evFetchBlockArrive core b)

/-- The state of a core's task at its start (R25, R116). -/
def freshTask (old : TaskSt) (core gk i gid entry now : Nat) (t : Task) : TaskSt :=
  { mode := .running, grp := gk, idx := i, pc := entry,
    g := NMap.put 0 (NMap.put 0 (NMap.put 0 [] 0 (word (coordWord core))) 1 t.arg) 2 (word gid),
    est := recCycles t.recd, left := recCycles t.recd, stamp := now, lastClear := now,
    prio := recPrio t.recd, prioPrev := recPrio t.recd, lprio := recPrio t.recd,
    coordReg := word (coordWord core), groupReg := word gid,
    me0 := { lastFe := old.me0.lastFe, lastS := old.me0.lastS, lastC := old.me0.lastC },
    me1 := { lastFe := old.me1.lastFe, lastS := old.me1.lastS, lastC := old.me1.lastC },
    port := old.port }

/-- A READY task is granted its core (R25, R26). -/
def State.startTask (s : State) (core gk i : Nat) : State :=
  match s.group? gk, s.task? gk i with
  | some g, some t =>
    let die := dieOf core
    let asleep := NMap.get false (s.die die).gated (yardOf core)
    let s := (s.ungate die (yardOf core)).loadCode core gk
    let entry := (s.core core).code + recEntry t.recd
    let s := s.onCore core (fun c => { c with gen := c.gen + 1, resv := none, t := freshTask c.t core gk i g.gid entry s.now t })
    let s := s.onTaskRec gk i (fun t => { t with st := .running })
    let r := s.startItems core gk i g.items
    let s := r.1
    match r.2 with
    | some code => s.takeStart core code entry
    | none =>
      let s := ((s.askEntry core (entry / 64)).askEntry core (entry / 64 + 1)).askFrom core (entry / 64 + 2)
      let due := s.now + s.delay (if asleep then 64 else 32)
      let s := ((s.onTask core (fun t => { t with notBefore := due })).post due (.issue core (s.core core).gen)).spend
      s.postEv (s.now + 2 ^ (s.context g.ctx).wdlog) (.evWatchdog g.ctx gk i)
  | _, _ => s

/-- The chosen task takes the core. -/
def State.grantTo (s : State) (core : Nat) (w : Waiting) : State :=
  if w.susp then
    match (s.core core).c.susp.find? (fun x => x.t.grp == w.gk && x.t.idx == w.idx) with
    | some x => (s.ungate (dieOf core) (yardOf core)).resumeSaved core x
    | none => s
  else s.startTask core w.gk w.idx

/-- The grant is looked at again when an effective priority rises. -/
def State.againAt (s : State) (core : Nat) : State :=
  let ws := (s.waitingFor core).filter (fun w => decide (w.eff < 7))
  match ws with
  | [] => s
  | w :: r =>
    let next (w : Waiting) : Nat := w.since + ((s.now - w.since) / msCycles + 1) * msCycles
    if s.isDue (· == .ev (.evTaskGrant core)) then s
    else s.postEv (r.foldl (fun m w => min m (next w)) (next w)) (.evTaskGrant core)

/-- The scheduler looks at a core (R324, R337): it grants the core, waits until it may, or has a pre-emption decided. -/
def State.taskGrant (s : State) (core : Nat) : State :=
  let c := s.core core
  if (s.context (s.ctxOf core)).st != .active || c.ctx.isNone then s
  else
    match s.chosen core with
    | none => s
    | some w =>
      if c.t.mode == .none then
        if (s.die (dieOf core)).throttled then s
        else if s.coreFree core then s.grantTo core w
        else s.postEv (s.now + 1) (.evTaskGrant core)
      else if (s.die (dieOf core)).throttled then s
      else
        let top := bestOf ((s.waitingFor core).filter (fun w => !w.susp))
        let s := match top with
          | some n => if c.t.prioAt s.now < n.eff then s.postEv s.now (.evPreemptionDecision core) else s
          | none => s
        s.againAt core

/-- `TASK_GRANT` (R324, R325). -/
def execEvTaskGrant (core : Nat) (s : State) : Host.Outcome State Fault Refusal := .next (s.taskGrant core)

/-! ### The end of a task (R26, R195) -/

/-- Whether a retiring task is done (R26, R246). -/
def State.retired (s : State) (core : Nat) : Bool :=
  let c := s.core core
  let t := c.t
  (s.ownedOps t.grp t.idx).isEmpty && t.port.all (fun r => r.gone) && t.walk.isNone && t.wait.isEmpty && t.late.isEmpty
    && decide (t.dataAt ≤ s.now)
    && (NMap.get [] c.c.cmdq 4).all (fun x => !(x.grp == t.grp && x.idx == t.idx))

/-- A task ends: what it retained is freed, its detached operations pass to its group, and its core is free (R195, R196). -/
def State.endTask (s : State) (core : Nat) : State :=
  let t := (s.core core).t
  let mine (o : Op) : Bool := o.owner == 0 && o.grp == t.grp && o.idx == t.idx
  let kept := s.ops.filter (fun (kv : Nat × Op) => !(mine kv.2 && !kv.2.det && kv.2.st == .done))
  let s := { s with ops := kept.map (fun (kv : Nat × Op) => if mine kv.2 && kv.2.det then (kv.1, { kv.2 with owner := 1 }) else kv) }
  ((s.onTaskRec t.grp t.idx (fun t => { t with st := .done })).releaseCore core).postEv s.now (.evGroupEnd t.grp)

/-- A retiring task is looked at: a late fault of it is taken (R100), or it is DONE, or it waits on. -/
def State.taskDone (s : State) (core : Nat) : State :=
  let t := (s.core core).t
  if t.mode ≠ .retiring then s
  else
    match t.late.find? (fun e => decide (e.1 ≤ s.now)) with
    | some e =>
      let s := (s.onTask core (fun t => { t with late := t.late.erase e })).takeUnissued core e.2.1 e.2.2.1 e.2.2.2
      s.postEv s.now (.evTaskDone core)
    | none => if s.retired core then s.endTask core else s.postEv (s.now + 1) (.evTaskDone core)

/-- `TASK_DONE` (R26). -/
def execEvTaskDone (core : Nat) (s : State) : Host.Outcome State Fault Refusal := .next (s.taskDone core)

/-! ### The end of a group (R330) -/

/-- Whether a command launches or releases tasks. -/
def isGroupCmd : Instr → Bool
  | .tlaunch _ _ | .tdep _ _ => true
  | _ => false

/-- Whether a group has ended (R330). -/
def State.groupOver (s : State) (gk : Nat) (g : Group) : Bool :=
  g.tasks.all (fun t => t.st == .done || t.st == .killed)
    && !s.cores.any (fun kc => (NMap.get [] kc.2.c.cmdq 7).any (fun c => isGroupCmd c.ins && c.grp == gk))
    && !s.isDue (fun a => match a with
      | .tdep _ c => c.grp == gk
      | _ => false)
    && !s.ops.any (fun kv => kv.2.owner == 1 && kv.2.grp == gk && !kv.2.det && kv.2.st != .done)

/-- Whether every write of a group's tasks and of their operations that are not detached has been performed, publication windows apart
(R261). -/
def State.groupWritten (s : State) (gk : Nat) : Bool :=
  !s.cores.any (fun kc => kc.2.t.port.any (fun r =>
      r.grp == gk && (r.kind == .store || r.kind == .amo) && r.stage != .performed && (match r.tgt with
        | .pub _ _ => false
        | _ => true)))
    && !s.ops.any (fun kv => kv.2.grp == gk && !kv.2.det && kv.2.st != .done)

/-- The completion record of a group that has ended (R320), after every write it reports (R261). -/
def State.reportGroup (s : State) (gk : Nat) (g : Group) : State :=
  if !g.cpl then s
  else if !s.groupWritten gk then s.postEv (s.now + 1) (.evGroupEnd gk)
  else
    let r := if g.tasks.all (fun t => t.st == .done) then (0, 0xFFFFF) else (g.firstKilled.map (fun e => (e.2, e.1))).getD (0, 0xFFFFF)
    (s.onGroup gk (fun g => { g with cpl := false })).writeCompletion g.ctx g.crec g.tag r.1 g.gid r.2

/-- A group ends (R195, R320, R330). -/
def State.endGroup (s : State) (gk : Nat) (g : Group) : State :=
  let s := { s with ops := s.ops.map (fun (kv : Nat × Op) => if kv.2.owner == 1 && kv.2.grp == gk then (kv.1, { kv.2 with owner := 2 }) else kv) }
  let s := s.onGroup gk (fun g => { g with ended := true }.settleIdle s.now)
  (s.reportGroup gk g).postIntake (g.ctx / 64)

/-- `GROUP_END` (R330), and the completion record that waits for a group's writes (R261). -/
def execEvGroupEnd (grp : Nat) (s : State) : Host.Outcome State Fault Refusal :=
  .next (match s.group? grp with
    | some g => if g.ended then s.reportGroup grp g else if s.groupOver grp g then s.endGroup grp g else s
    | none => s)

/-! ### Clock gating (R23) -/

/-- Whether a core does nothing, as R23 counts. -/
def State.coreIdle (s : State) (core : Nat) : Bool :=
  let c := s.core core
  c.t.mode == .none && c.t.me0.isEmpty && c.t.me1.isEmpty && c.c.moving.isNone && c.c.cmdq.all (fun kv => kv.2.isEmpty)
    && c.c.q.all (fun kq => kq.2.st == .free || kq.2.st == .opened || kq.2.st == .lost)
    && c.c.lease.all (fun kl => !kl.2.live && kl.2.tok.isNone) && c.c.lent.isEmpty && c.c.waiters.isEmpty
    && !s.ops.any (fun kv => kv.2.core == core && kv.2.st != .done)

/-- Whether a yard is idle. -/
def State.yardIdle (s : State) (die yard : Nat) : Bool := (yardCores die yard).all (fun n => s.coreIdle n)

/-- The cycles a yard stays idle before its clock is gated (R23). -/
def gateAfter : Nat := 4096

/-- A yard without a task is looked at, until a task comes or its clock is gated. -/
def State.yardGate (s : State) (die yard : Nat) : State :=
  let d := s.die die
  let again (due : Nat) (s : State) : State :=
    if s.isDue (· == .ev (.evYardGate die yard)) then s else s.postEv due (.evYardGate die yard)
  if NMap.get false d.gated yard || (yardCores die yard).any (fun n => (s.core n).t.mode != .none) then s
  else if !s.yardIdle die yard then
    again (s.now + 1) (s.onDie die (fun d => { d with idleSince := NMap.erase d.idleSince yard }))
  else
    match NMap.find d.idleSince yard with
    | none => again (s.now + gateAfter) (s.onDie die (fun d => { d with idleSince := NMap.set d.idleSince yard s.now }))
    | some t =>
      if t + gateAfter ≤ s.now then
        s.onDie die (fun d => { d with gated := NMap.set d.gated yard true, idleSince := NMap.erase d.idleSince yard })
      else again (t + gateAfter) s

/-- `YARD_GATE` (R23). -/
def execEvYardGate (die yard : Nat) (s : State) : Host.Outcome State Fault Refusal := .next (s.yardGate die (yard % 4))

end Sys2Proof.Machine
end

