-- ==== Sys2Proof/Machine/Preempt.lean ====
section
/-!
DEFINITION. Pre-emption (R337) and the hang watchdog (R343).
-/

namespace Sys2Proof.Machine

/-- The newcomer of a core (R324, R337): its first READY task, if that is above the priority of the task there. -/
def State.newcomer (s : State) (core : Nat) : Option Waiting :=
  (bestOf ((s.waitingFor core).filter (fun w => !w.susp))).filter (fun w => decide ((s.core core).t.prioAt s.now < w.eff))

/-- Whether a pre-emption may act on what a core's task is doing (R26, R337). -/
def TaskMode.preemptible : TaskMode → Bool
  | .running | .held | .brk | .parked => true
  | _ => false

/-- The rows of R337 in order; `skip` leaves out the first. -/
def State.preempt (s : State) (core : Nat) (w : Waiting) (skip : Bool) : State :=
  let c := s.core core
  let t := c.t
  let ctx := s.ctxOf core
  let x := s.context ctx
  if !skip && decide (t.estAt s.now ≤ x.drain) then
    (s.onCore core (fun c => { c with resv := some (w.gk, w.idx), t := { c.t with drainAt := s.now + x.drain } })).postEv
      (s.now + x.drain) (.evDrainLimit core)
  else if !x.nockpt && decide (c.c.susp.length < taskSlots) then
    (s.beginSave core).postEv (s.now + 1) (.evPreemptionDecision core)
  else if x.restart && decide (2 ≤ x.tokens) then
    ((s.onContext ctx (fun c => { c with tokens := c.tokens - 2 })).killTask t.grp t.idx Code.preemptKill Code.opCancelled).relist t.grp t.idx
  else s.postEv (s.now + 1) (.evPreemptionDecision core)

/-- What a decision is taken on: the newcomer, the task and whether its drain has run out, `est`, and the task slots in use. While a
newcomer waits the decision is taken again only when one of these changes (R337). -/
def State.decidedOn (s : State) (core : Nat) (w : Waiting) : List Nat :=
  let c := s.core core
  [w.gk, w.idx, c.t.grp, c.t.idx, c.t.drainAt, c.t.estAt s.now, c.c.susp.length]

/-- Whether a decision leaves out the first row of R337: the one at the limit of a drain, and those that follow for the same newcomer. -/
def State.drained (s : State) (core : Nat) (w : Waiting) : Bool :=
  let c := s.core core
  c.t.drainAt != 0 && (s.now == c.t.drainAt || c.decided.take 2 == [w.gk, w.idx])

/-- A pre-emption is decided, or a save that one began goes on (R337). A core that drains is left alone until its limit. -/
def State.preemptDecide (s : State) (core : Nat) : State :=
  let t := (s.core core).t
  let again : State := s.postEv (s.now + 1) (.evPreemptionDecision core)
  if (s.context (s.ctxOf core)).st != .active then s
  else if t.mode == .saving then
    if s.saveReady core then (s.finishSave core).writeSlot core (s.freeSlot core) else again
  else if !t.mode.preemptible || decide (s.now < t.drainAt) || (s.die (dieOf core)).throttled then s
  else
    match s.newcomer core with
    | some w =>
      let on_ := s.decidedOn core w
      if (s.core core).decided == on_ then again
      else (s.onCore core (fun c => { c with decided := on_ })).preempt core w (s.drained core w)
    | none => s

/-- `PREEMPTION_DECISION` (R337). -/
def execEvPreemptionDecision (core : Nat) (s : State) : Host.Outcome State Fault Refusal := .next (s.preemptDecide core)

/-- `DRAIN_LIMIT` (R337): a drained task that still runs is decided again, without the first row. -/
def execEvDrainLimit (core : Nat) (s : State) : Host.Outcome State Fault Refusal :=
  .next (if (s.core core).t.drainAt = 0 then s else s.preemptDecide core)

/-- TOKENS rises every millisecond (R337), in every state. -/
def State.tokenRefill (s : State) (ctx : Nat) : State :=
  (s.onContext ctx (fun c => { c with tokens := min c.tokmax (c.tokens + c.tokrate) })).postEv (s.now + msCycles) (.evTokenRefill ctx)

/-- The contexts of a die have their first refill a millisecond from now. -/
def State.startTokens (s : State) (die : Nat) : State :=
  (List.range 64).foldl (fun s i => s.postEv (s.now + msCycles) (.evTokenRefill (64 * die + i))) s

/-- `TOKEN_REFILL` (R337). -/
def execEvTokenRefill (ctx : Nat) (s : State) : Host.Outcome State Fault Refusal := .next (s.tokenRefill ctx)

/-! ### The hang watchdog (R343) -/

/-- A group's counter. -/
def Group.idleCount (g : Group) (now : Nat) : Nat := g.idle + if g.idling then now - g.idleFrom else 0

/-- The counter of a group is read. -/
def State.groupWatchdog (s : State) (ctx gk limit : Nat) (g : Group) : State :=
  if g.ended then s
  else if limit ≤ g.idleCount s.now then
    s.fatal ctx { code := Code.watchdog, grp := g.gid, task := 0xFFFFF }
  else s.postEv (s.now + (limit - g.idleCount s.now)) (.evWatchdog ctx gk 0xFFFFF)

/-- The counter of a task is read; cycles in `BRK` do not count. -/
def State.taskWatchdog (s : State) (ctx gk i limit core : Nat) : State :=
  let t := (s.core core).t
  let from_ := t.brkClear s.now
  if !t.isTask gk i then s
  else if limit ≤ s.now - from_ then s.fatal ctx { s.recBase core with code := Code.watchdog, bundle := t.pc }
  else s.postEv (from_ + limit) (.evWatchdog ctx gk i)

/-- A watchdog counter is read (R343): at 2^WDLOG the context takes a fatal cause. -/
def State.watchdog (s : State) (ctx gk i : Nat) : State :=
  let limit := 2 ^ (s.context ctx).wdlog
  match s.group? gk with
  | none => s
  | some g =>
    if i = 0xFFFFF then s.groupWatchdog ctx gk limit g
    else
      match g.tasks[i]? with
      | some t => s.taskWatchdog ctx gk i limit (recCore (ctx / 64) t.recd)
      | none => s

/-- `WATCHDOG` (R343). -/
def execEvWatchdog (ctx grp idx : Nat) (s : State) : Host.Outcome State Fault Refusal := .next (s.watchdog ctx grp idx)

end Sys2Proof.Machine
end

