-- ==== Sys2Proof/Machine/Context.lean ====
section
/-!
DEFINITION. The context (R332 to R347, R351, R352): its states and commands, the swap with its save area, and the fatal order
with the Loft.
-/

namespace Sys2Proof.Machine

/-! ### Which yards a context holds (R332) -/

def CState.holds : CState → Bool
  | .active | .saving | .dumping => true
  | _ => false

/-- Whether a context other than `ctx` on its die names a yard of the mask while its state satisfies a condition. -/
def State.othersOn (s : State) (ctx mask : Nat) (p : CState → Bool) : Bool :=
  (List.range 64).any (fun i =>
    let c := ctx / 64 * 64 + i
    c != ctx && p (s.context c).st && (List.range 4).any (fun y => bitOf mask y && bitOf (s.context c).yards y))

/-- The conditions on ACTIVATE (R334, R345). Between a thermal trip and the standing state none is met (R370). -/
def State.mayActivate (s : State) (ctx : Nat) : Bool :=
  let c := s.context ctx
  let n := (s.partCores ctx).length
  c.yards != 0 && !s.crown.tripped && !s.othersOn ctx c.yards CState.holds && !s.othersOn ctx c.yards (fun st => st == .restoring)
    && decide (regionSize * n ≤ c.savesz * 4096) && decide (regionSize * n + 4096 ≤ c.loftsz * 4096)

/-- Whether the package runs and the die is there: a register write reaches it (R370). -/
def State.dieRuns (s : State) (die : Nat) : Bool := s.crown.pstate == 2 && !(s.die die).inReset

/-- A core with nothing of any context on it; its translations stay (R271). -/
def Core.blank (c : Core) (ctx : Option Nat) : Core :=
  { ctx := ctx, tlb := c.tlb, nextReq := c.nextReq, serial := c.serial, gen := c.gen + 1 }

/-- One half of the banks of a core from an address on, with its check state, set to zero. -/
def State.clearHalf (s : State) (a : Nat) : State :=
  { s with mem := s.mem.clear a padSize,
           padPoison := s.padPoison.filter (fun e => decide (e.1 < a / 64) || decide ((a + padSize) / 64 ≤ e.1)),
           padErr := s.padErr.filter (fun e => decide (e.1 < a / 8) || decide ((a + padSize) / 8 ≤ e.1)) }

/-- The cores of a partition are set as at context creation (R334). -/
def State.freshCores (s : State) (ctx : Nat) : State :=
  (s.partCores ctx).foldl (fun s core => (s.clearHalf (Addr.pad core 0)).onCore core (fun c => c.blank (some ctx))) s

/-! ### Commands (R333, R334, R351) -/

/-- A refused command (R333). -/
def State.refuseCmd (s : State) (ctx : Nat) : State := s.onContext ctx (fun c => { c with cmdst := 2 })

/-- A command that is done as it is taken. -/
def State.cmdDone (s : State) (ctx : Nat) : State := s.onContext ctx (fun c => { c with cmdst := 0 })

/-- A command in progress is done. -/
def State.cmdEnds (s : State) (ctx : Nat) : State := s.onContext ctx (fun c => { c with cmdst := if c.cmdst = 1 then 0 else c.cmdst })

/-- A command of the driver: refused while one is in progress. -/
def State.ctxCmd (s : State) (ctx : Nat) (f : State → State) : State :=
  if !s.dieRuns (ctx / 64) then s else if (s.context ctx).cmdst = 1 then s.refuseCmd ctx else f s

/-- The bytes of a context leave the publication buffer of its die. -/
def State.dropPub (s : State) (ctx : Nat) : State := s.onDie (ctx / 64) (fun d => { d with pubBuf := d.pubBuf.filter (fun e => e.ctx != ctx) })

/-- ACTIVATE (R334). -/
def State.activate (s : State) (ctx : Nat) : State :=
  if (s.context ctx).st == .free && s.mayActivate ctx then
    let s := ((s.freshCores ctx).dropPub ctx).onContext ctx (fun c =>
      { c with st := .active, tokens := c.tokmax, cause := 0, dbgen := 0, dbgPrev := 0, dbgFrom := 0, version := [], causes := [],
               incomplete := false, mailOnly := false, waiting := [], drops := 0 })
    let s := if s.isDue (· == .ev (.evTokenRefill ctx)) then s else s.postEv (s.now + msCycles) (.evTokenRefill ctx)
    let s := (s.context ctx).yardList.foldl (fun s y => (s.ungate (ctx / 64) y).postEv (s.now + 1) (.evYardGate (ctx / 64) y)) s
    (s.cmdDone ctx).postIntake (ctx / 64)
  else s.refuseCmd ctx

/-- SWAPOUT (R334, R335): every core of the partition is halted and saved. -/
def State.swapout (s : State) (ctx : Nat) : State :=
  if (s.context ctx).st == .active then
    let s := s.onContext ctx (fun c => { c with st := .saving, cmdst := 1, flipped := false })
    ((s.partCores ctx).foldl (fun s core => s.beginSave core) s).postEv (s.now + 1) (.evContextFlip ctx)
  else s.refuseCmd ctx

/-- The longest a preload, a write-back or a dump is taken to need (R335, R344). -/
def swapBound : Nat := 200000

/-- Whether a word of the save area reads as uncorrectable. -/
def State.saveBad (s : State) (ctx : Nat) : Bool := s.badRun (ctx / 64) (s.context ctx).save (regionSize * (s.partCores ctx).length)

/-- SWAPIN (R334, R335): the shadows are filled. What became fatal while the context was SAVED acts now, and so does an
uncorrectable word in the save area (R342). -/
def State.swapin (s : State) (ctx : Nat) : State :=
  let c := s.context ctx
  if c.st == .saved && !s.othersOn ctx c.yards (fun st => st == .restoring) then
    let s := (s.onContext ctx (fun c => { c with st := .restoring, cmdst := 1, preloaded := false, passed := [] })).postFree swapBound (.evContextFlip ctx)
    let s := if s.saveBad ctx then s.fatal ctx { code := Code.memUncorrectable } else s
    if c.causes.isEmpty then s else s.postEv s.now (.evFatalCause ctx 0)
  else s.refuseCmd ctx

/-- KILL (R334): the cause is KILLED_BY_PARENT. -/
def State.killCmd (s : State) (ctx : Nat) : State :=
  match (s.context ctx).st with
  | .active | .saving | .restoring => (s.onContext ctx (fun c => { c with cmdst := 1 })).fatal ctx { code := Code.killedByParent }
  | _ => s.refuseCmd ctx

/-- A splice of a saved queue is lost at its partner (R176), saved or not. -/
def State.loseSaved (s : State) (core q : Nat) (qq : Queue) : State :=
  match qq.partner with
  | some (pc, pq) =>
    if dieOf core = dieOf pc ∨ (s.circuit (dieOf core) (dieOf pc)).st.carries then s.postFree linkBound (.evSpliceLoss pc (fromQueue core q pq))
    else s
  | none => s

/-- The groups of a context end (R331, R195), and the entries it holds are freed. -/
def State.killGroups (s : State) (ctx : Nat) : State :=
  ((s.groups.filter (fun kg => kg.2.ctx == ctx && !kg.2.ended)).map Prod.fst).foldl (fun s gk => s.killGroup gk Code.killedByParent) s

/-- Every operation of a context is cancelled with KILLED_BY_PARENT, a collective at every participant, and the entries are freed (R195,
R200, R346). -/
def State.cancelAll (s : State) (ctx : Nat) : State :=
  let mine (s : State) : List Nat := (s.ops.filter (fun kv => kv.2.ctx == ctx)).map Prod.fst
  let s := (mine s).foldl (fun s k => s.cancelOp k Code.killedByParent false) s
  (mine s).foldl (fun s k => ((s.dropWork k).dropActs k).freeOp k) s

/-- TEARDOWN (R195, R334). -/
def State.teardown (s : State) (ctx : Nat) : State :=
  match (s.context ctx).st with
  | .saved | .halted =>
    let s := s.cancelAll ctx
    let s := s.killGroups ctx
    let s := (s.context ctx).savedCores.foldl (fun s ks => ks.2.q.foldl (fun s kq => s.loseSaved ks.1 kq.1 kq.2) s) s
    ((s.dropPub ctx).onContext ctx (fun c =>
      { c with st := .free, savedCores := [], savedTask := [], savedRuns := [], savedPoison := [], causes := [], waiting := [] })).cmdDone ctx
  | _ => s.refuseCmd ctx

/-- REPLAY (R339): what the context holds on PAGE_NOT_PRESENT translates afresh. -/
def State.replayAll (s : State) (ctx : Nat) : State :=
  let p (rp : Replay) : Bool := rp.code == Code.pageNotPresent
  let s := (s.partCores ctx).foldl (fun s core => s.freeTasks ctx core .held p) s
  ((s.onContext ctx (fun x => x.freeSaved .held p)).freeOps ctx (fun k => k.code == Code.pageNotPresent)).resumeRuns ctx

/-- A core of a context's die by coordinate (R333). -/
def coordCore (ctx coord : Nat) : Nat := 64 * (ctx / 64) + coord % 64

/-- REPLAY and RELEASE are accepted in ACTIVE only (R334, R351). -/
def State.replayCmd (s : State) (ctx : Nat) : State :=
  if (s.context ctx).st == .active then (s.replayAll ctx).cmdDone ctx else s.refuseCmd ctx

def State.releaseCmd (s : State) (ctx coord : Nat) : State :=
  if (s.context ctx).st == .active then
    let core := coordCore ctx coord
    (if s.inPart ctx core then s.releaseBrk core else s).cmdDone ctx
  else s.refuseCmd ctx

/-- A write of TQHEAD (R333): one that moves it back, or beyond TQTAIL, is discarded. FSLOT clears once the fatal record is
consumed. Records that waited for a slot follow, and what waited for them goes on (R340). -/
def State.tqheadWrite (s : State) (ctx v : Nat) : State :=
  let c := s.context ctx
  let d := (v + 2 ^ 32 - c.tqhead % 2 ^ 32) % 2 ^ 32
  let past (n : Nat) : Bool := decide ((v + 2 ^ 32 - (n + 1) % 2 ^ 32) % 2 ^ 32 < 2 ^ 31)
  if !s.dieRuns (ctx / 64) ∨ c.tqOcc < d then s
  else ((s.onContext ctx (fun c => { c with tqhead := v, fslot := c.fslot.filter (fun n => !past n) })).flushWaiting ctx).freeRecorded ctx

/-- The DBGEN bits of a partition's cores. -/
def State.partMask (s : State) (ctx : Nat) : Nat := (s.partCores ctx).foldl (fun m core => m + 2 ^ inDie core) 0

/-- A write of DBGEN (R352), from the next cycle on. -/
def State.dbgenWrite (s : State) (ctx v : Nat) : State :=
  if !s.dieRuns (ctx / 64) then s
  else
    s.onContext ctx (fun c =>
      { c with dbgPrev := if c.dbgFrom ≤ s.now then c.dbgen else c.dbgPrev, dbgen := v &&& s.partMask ctx, dbgFrom := s.now + 1 })

/-! ### The flip and the write-back (R335, R336) -/

/-- Nothing that was sent to a core from its own yard is still to land. -/
def State.noLandings (s : State) (core : Nat) : Bool :=
  !s.isDue (fun a => match a with
    | .ev (.evSemaphoreIncrementLand n _ _ _) | .ev (.evRemoteArrivalLand n _ _ _) | .ev (.evMulticastWriteLand n _ _ _ _)
    | .ev (.evLeaseGrantLand n _ _ _ _ _) | .ev (.evLeaseRequestLand n _ _ _ _) | .ev (.evLeaseWordsReturn n _ _) => n == core
    | _ => false)

/-- Whether a piece of work of a bank unit belongs to a core of the partition. -/
def State.runOfPart (s : State) (ctx : Nat) : BuWork → Bool
  | .run c _ _ => s.inPart ctx c
  | .prog c _ => s.inPart ctx c
  | .entry _ _ => false

/-- Whether every unit that runs a program for the partition stands at a `BUROW`. -/
def State.partRunsAtRest (s : State) (ctx : Nat) : Bool :=
  s.units.all (fun kv => !(kv.2.running && ((kv.2.work.head?).map (s.runOfPart ctx)).getD false) || kv.2.waitPage)

/-- The operations of a context that are not DONE. -/
def State.ctxOps (s : State) (ctx : Nat) : List Nat := (s.ops.filter (fun kv => kv.2.ctx == ctx && kv.2.st != .done)).map Prod.fst

/-- Whether every core of a context can be saved now. -/
def State.swapReady (s : State) (ctx : Nat) : Bool :=
  (s.partCores ctx).all (fun core => s.coreAtRest core && s.noLandings core) && s.partRunsAtRest ctx
    && (s.ctxOps ctx).all (fun k => s.opAtRest k (s.op k))

/-- The live and the shadow half of every bank of a core exchange (R335). -/
def State.exchange (s : State) (core : Nat) : State :=
  let a := Addr.pad core 0
  let b := Addr.shadow core 0
  { s with mem := NMap.swapRuns s.mem a b padSize, padPoison := NMap.swapRuns s.padPoison (a / 64) (b / 64) (padSize / 64),
           padErr := NMap.swapRuns s.padErr (a / 8) (b / 8) (padSize / 8) }

/-- A context in RESTORING whose image stands in the shadow half of a core has it in the live half once the core's halves exchange. -/
def State.notePassed (s : State) (core : Nat) : State :=
  (List.range 64).foldl (fun s i =>
    let c := 64 * dieOf core + i
    if (s.context c).st == .restoring && (s.context c).preloaded && s.inPart c core then
      s.onContext c (fun x => { x with passed := core :: x.passed })
    else s) s

/-- The outgoing flip (R335): tasks go to their slots, operations are saved, live and shadow exchange, and the cores are free of the
context. -/
def State.flipOut (s : State) (ctx : Nat) : State :=
  let cores := s.partCores ctx
  let s := cores.foldl (fun s core => if (s.core core).t.mode == .saving then s.finishSave core else s) s
  let s := (s.ctxOps ctx).foldl (fun s k => s.saveOp k) s
  let r := s.takeRuns (s.runOfPart ctx)
  let s := r.2.onContext ctx (fun c =>
    { c with savedRuns := r.1, flipped := true,
             savedCores := cores.foldl (fun m core => NMap.set m core (r.2.core core).c) [],
             savedTask := cores.foldl (fun m core => NMap.set m core (r.2.core core).t) [] })
  let s := cores.foldl (fun s core => ((s.notePassed core).exchange core).onCore core (fun c => c.blank (some ctx))) s
  s.postFree swapBound (.evWritebackComplete ctx)

/-- A region of the save area or the Loft written: the scratchpad image that stands at `p`, with the corrections the read makes, or zeros
where there is none, and behind it what no rule gives a layout (notes/assumptions/15). A region past the die's memory does not exist, and
nothing is written there (R3). -/
def State.writeRegion (s : State) (die base : Nat) (p : Option Nat) : State :=
  let a := Addr.localMem die base
  let single (e : Nat × Nat) : Bool := e.2 == 1 && (p.map (fun p => decide (p / 8 ≤ e.1) && decide (e.1 < (p + padSize) / 8))).getD false
  let s := (s.padErr.filter single).foldl (fun s _ => s.countCorrected die) s
  let s := { s with padErr := s.padErr.filter (fun e => !single e) }
  if !s.hasLocal die base regionSize then s
  else
    let s := (s.veilRun die base regionSize).unveil a padSize
    { s with mem := match p with
        | some p => s.mem.copyRegion p a padSize
        | none => s.mem.clear a padSize }

/-- Where the scratchpad image of a core of a context stands: in the shadow half between the flip and the write-back, in the live half
while the context holds the core, else in its save area, if that exists. -/
def State.imageAt (s : State) (ctx j core : Nat) : Option Nat :=
  let base := (s.context ctx).save + regionSize * j
  if (s.context ctx).flipped then some (Addr.shadow core 0)
  else if (s.core core).ctx == some ctx then some (Addr.pad core 0)
  else if s.hasLocal (ctx / 64) base regionSize then some (Addr.localMem (ctx / 64) base)
  else none

/-- The cores of a partition, each with its place. -/
def State.placedCores (s : State) (ctx : Nat) : List (Nat × Nat) :=
  List.zip (List.range (s.partCores ctx).length) (s.partCores ctx)

/-- The regions of a partition, in ascending yard and then row-major core order (R336). -/
def State.writeRegions (s : State) (ctx base : Nat) : State :=
  (s.placedCores ctx).foldl (fun s jc => s.writeRegion (ctx / 64) (base + regionSize * jc.1) (s.imageAt ctx jc.1 jc.2)) s

/-- The scratchpad lines of a partition's outgoing images that carry poison or read as uncorrectable (R295), as lines of the live
halves. -/
def State.poisonOf (s : State) (ctx : Nat) : List Nat :=
  (s.partCores ctx).flatMap (fun core =>
    let a := Addr.shadow core 0 / 64
    let mine (k : Nat) : Bool := decide (a ≤ k) && decide (k < a + padSize / 64)
    let bad : List Nat := NMap.keys (s.padPoison.filter (fun (e : Nat × Bool) => e.2 && mine e.1))
      ++ (s.padErr.filter (fun (e : Nat × Nat) => decide (2 ≤ e.2) && mine (e.1 / 8))).map (fun (e : Nat × Nat) => e.1 / 8)
    bad.map (fun k => k - a + padLine core 0))

/-- What happens to every group of a context. -/
def State.onGroupsOf (s : State) (ctx : Nat) (f : Group → Group) : State :=
  { s with groups := s.groups.map (fun (kg : Nat × Group) => if kg.2.ctx = ctx then (kg.1, f kg.2) else kg) }

/-- Yards are released, or shadows written back: contexts in RESTORING that wait for them look again (R332, R335). -/
def State.wakeRestoring (s : State) (die : Nat) : State :=
  (List.range 64).foldl (fun s i =>
    let c := 64 * die + i
    if (s.context c).st == .restoring && !s.isDue (· == .ev (.evContextFlip c)) then
      if (s.context c).preloaded then s.postEv s.now (.evContextFlip c) else s.postFree swapBound (.evContextFlip c)
    else s) s

/-- The cores of a partition belong to no context any more. -/
def State.dropCores (s : State) (ctx : Nat) : State :=
  (s.partCores ctx).foldl (fun s core => s.onCore core (fun c => c.blank none)) s

/-- The time limit on what a context writes is lifted (R344). -/
def State.dropLimit (s : State) (ctx : Nat) : State :=
  let late : Act → Bool := fun a => a == .ev (.evLoftDumpComplete ctx) || a == .ev (.evDumpTimeout ctx)
  { s with agenda := s.agenda.filter (fun t => !late t.act), posted := s.posted.filter (fun t => !late t.act) }

/-- The last byte of a write-back is performed (R334, R335): the context is SAVED, and its shadows may take another image. One that
became fatal meanwhile is dumped from them. -/
def State.writebackDone (s : State) (ctx : Nat) : State :=
  let c := s.context ctx
  if !c.flipped then s
  else
    let bad := s.poisonOf ctx
    let s := (s.writeRegions ctx c.save).onContext ctx (fun c => { c with savedPoison := bad })
    match c.st with
    | .saving =>
      let s := (s.partCores ctx).foldl (fun s core => s.clearHalf (Addr.shadow core 0)) s
      let s := (s.dropCores ctx).onContext ctx (fun c => { c with st := .saved, flipped := false })
      (s.cmdEnds ctx).wakeRestoring (ctx / 64)
    | .dumping => (s.dropLimit ctx).postEv s.now (.evContextFlip ctx)
    | _ => s

/-- The preload of a core (R335): its shadow half takes the scratchpad image of the save area as it stands now. -/
def State.preloadCore (s : State) (ctx j core : Nat) : State :=
  let die := ctx / 64
  let base := (s.context ctx).save + regionSize * j
  let b := Addr.shadow core 0
  let s := s.clearHalf b
  if !s.hasLocal die base regionSize then s
  else
    let s := s.scrubArea die base regionSize
    { s with mem := s.mem.copyRegion (Addr.localMem die base) b padSize }

/-- The preload of a context (R335), with the poison its image carries. -/
def State.preload (s : State) (ctx : Nat) : State :=
  let s := (s.placedCores ctx).foldl (fun s jc => s.preloadCore ctx jc.1 jc.2) s
  let up (core k : Nat) : Nat := k - padLine core 0 + Addr.shadow core 0 / 64
  let mine (core k : Nat) : Bool := decide (padLine core 0 ≤ k) && decide (k < padLine core padSize)
  let bad := (s.partCores ctx).flatMap (fun core => (((s.context ctx).savedPoison.filter (fun k => mine core k)).map (fun k => up core k)))
  { s with padPoison := bad.foldl (fun m k => NMap.set m k true) s.padPoison }.onContext ctx (fun c => { c with preloaded := true, passed := [] })

/-- The core of a context that comes back (R335): its image becomes the live one, unless an earlier flip of the core has made it so,
and its state comes from the register shadow. -/
def State.loadCore (s : State) (ctx core : Nat) : State :=
  let c := s.context ctx
  let s := if c.passed.contains core then s else (s.exchange core).clearHalf (Addr.shadow core 0)
  s.onCore core (fun k =>
    { k.blank (some ctx) with c := NMap.get {} c.savedCores core, t := NMap.get {} c.savedTask core })

/-- A core's splices, barriers and commands go on after a swap (R177, R246). -/
def State.wakeCore (s : State) (core : Nat) : State :=
  let s := s.resumeSplices core
  let s := (s.core core).c.q.foldl (fun s kq => if kq.2.st == .pendS then s.sendHello core kq.1 else s) s
  let s := (s.core core).c.bar.foldl (fun s kb => s.post s.now (.barTest core kb.1)) s
  (s.postHeads core).postEv s.now (.evTaskGrant core)

/-- Operations whose owner is not a suspended task go on with the context (R200). -/
def State.unsaveOps (s : State) (ctx : Nat) : State :=
  (s.ctxOps ctx).foldl (fun s k =>
    let o := s.op k
    let susp := o.owner == 0 && !o.det && ((s.task? o.grp o.idx).map (fun t => t.st == .suspended)).getD false
    if susp then s else s.unsaveOp k) s

/-- The incoming flip (R334, R335): the context is ACTIVE, and its tasks compete for their cores. -/
def State.flipIn (s : State) (ctx : Nat) : State :=
  let cores := s.partCores ctx
  let c := s.context ctx
  let s := cores.foldl (fun s core => s.loadCore ctx core) s
  let s := c.yardList.foldl (fun s y => (s.ungate (ctx / 64) y).postEv (s.now + 1) (.evYardGate (ctx / 64) y)) s
  let s := s.onContext ctx (fun c =>
    { c with st := .active, savedCores := [], savedTask := [], savedRuns := [], savedPoison := [], preloaded := false,
             passed := [] })
  let s := s.cmdEnds ctx
  let s := s.unsaveOps ctx
  let s := c.savedRuns.foldl (fun s uw => s.pushWork uw.1 uw.2) s
  let s := cores.foldl (fun s core => s.wakeCore core) s
  let s := s.onGroupsOf ctx (fun g => g.settleIdle s.now)
  let s := s.groups.foldl (fun s kg =>
    if kg.2.ctx = ctx ∧ !kg.2.ended then (List.range kg.2.tasks.length).foldl (fun s i => s.postEv s.now (.evTaskReady kg.1 i)) s else s) s
  s.postIntake (ctx / 64)

/-! ### The fatal order (R342, R344 to R346) -/

/-- Every core of the partition stops issue at a bundle boundary (R346 step 1). -/
def State.haltCores (s : State) (ctx : Nat) : State :=
  (s.partCores ctx).foldl (fun s core =>
    if (s.core core).ctx != some ctx ∨ (s.core core).t.mode == .none ∨ (s.core core).t.mode == .saving then s
    else s.onCore core (fun c => { c with gen := c.gen + 1, t := { c.t.setMode s.now .saving with saveFrom := c.t.mode, walk := none } })) s

/-- The time R344 leaves a dump after a second cause: 100 µs. -/
def dumpLimit : Nat := 225000

/-- Whether a swap or a dump of a context is writing (R344). -/
def State.writing (s : State) (ctx : Nat) : Bool :=
  s.isDue (fun a => a == .ev (.evWritebackComplete ctx) || a == .ev (.evLoftDumpComplete ctx))

/-- A fatal cause acts (R334, R344): the first begins the order of R346, and one that meets a swap or a dump that is writing
leaves it 100 µs. -/
def State.fatalCause (s : State) (ctx : Nat) : State :=
  let begin_ (s : State) : State :=
    (s.onContext ctx (fun c => { c with st := .dumping, preloaded := false, passed := [] })).haltCores ctx
  let limited (s : State) : State :=
    if s.isDue (· == .ev (.evDumpTimeout ctx)) then s else s.postEv (s.now + dumpLimit) (.evDumpTimeout ctx)
  match (s.context ctx).st with
  | .active | .restoring => (begin_ s).postEv (s.now + 1) (.evContextFlip ctx)
  | .saving => if s.writing ctx then limited (begin_ s) else (begin_ s).postEv (s.now + 1) (.evContextFlip ctx)
  | .dumping => if s.writing ctx then limited s else s
  | _ => s

/-- Whether what was started has reached a boundary (R346 step 1), collectives apart. -/
def State.haltReady (s : State) (ctx : Nat) : Bool :=
  (s.partCores ctx).all (fun core =>
    let t := (s.core core).t
    (s.core core).ctx != some ctx || t.me0.running.isEmpty && t.me1.running.isEmpty && t.sl.isEmpty && (s.core core).c.moving.isNone)
    && (s.ctxOps ctx).all (fun k => isColl (s.op k).cmd.ins || s.opAtRest k (s.op k))

/-- The capture (R346 step 2), and the core regions of the dump (step 3). -/
def State.capture (s : State) (ctx : Nat) : State :=
  (s.writeRegions ctx ((s.context ctx).loft + 4096)).postFree swapBound (.evLoftDumpComplete ctx)

/-- Whether a shadow of the partition holds a state that has not been written back (R335). -/
def State.shadowsTaken (s : State) (ctx : Nat) : Bool :=
  (List.range 64).any (fun i =>
    let c := ctx / 64 * 64 + i
    c != ctx && (s.context c).flipped && (List.range 4).any (fun y => bitOf (s.context ctx).yards y && bitOf (s.context c).yards y))

/-- `CONTEXT_FLIP`: the save, the return or the halt of a context is looked at (R335, R346). None returns once the package is to stand
(R370). -/
def State.contextFlip (s : State) (ctx : Nat) : State :=
  let c := s.context ctx
  let again : State := if s.isDue (· == .ev (.evContextFlip ctx)) then s else s.postEv (s.now + 1) (.evContextFlip ctx)
  match c.st with
  | .saving => if c.flipped then s else if s.swapReady ctx then s.flipOut ctx else again
  | .restoring =>
    if s.crown.tripped || s.crown.pstate == 3 || (!c.preloaded && s.shadowsTaken ctx) then s
    else
      let s := if c.preloaded then s else s.preload ctx
      if s.othersOn ctx c.yards CState.holds then s else s.flipIn ctx
  | .dumping => if s.writing ctx then s else if s.haltReady ctx then s.capture ctx else again
  | _ => s

/-- The header of a Loft (R345): COMPLETE or INCOMPLETE, and the chain of causes, oldest first. -/
def loftHeader (causes : List TrapRec) (incomplete : Bool) : List Byte :=
  toBytes 4 0x4B5A4C46 ++ [1, if incomplete then 2 else 1] ++ toBytes 1 (min 31 causes.length) ++ List.replicate 121 0
    ++ ((causes.take 31).flatMap recBytes)

/-- What a context held is released (R346 step 4): operations, splices, tasks, cores and yards. -/
def State.releaseAll (s : State) (ctx : Nat) : State :=
  let cores := (s.partCores ctx).filter (fun core => (s.core core).ctx == some ctx)
  let s := s.cancelAll ctx
  let s := cores.foldl (fun s core => (NMap.keys (s.core core).c.q).foldl (fun s q => s.tellLoss core q) s) s
  let s := (s.context ctx).savedCores.foldl (fun s ks => ks.2.q.foldl (fun s kq => s.loseSaved ks.1 kq.1 kq.2) s) s
  let s := s.killGroups ctx
  let s := (s.takeRuns (s.runOfPart ctx)).2
  let s := if (s.context ctx).flipped then (s.partCores ctx).foldl (fun s core => s.clearHalf (Addr.shadow core 0)) s else s
  cores.foldl (fun s core => s.onCore core (fun c => c.blank none)) s

/-- The package enters the standing state after a thermal trip once no context is left to be halted (R370). -/
def State.tripStands (s : State) : State :=
  if s.crown.tripped && !s.ctxs.any (fun kc => kc.2.st == .dumping) then
    { s with crown := { s.crown with pstate := 3, cause := 6, tripped := false }, launch := [] }
  else s

/-- The dump ends (R346 steps 3 to 5). -/
def State.dumpEnds (s : State) (ctx : Nat) : State :=
  let c := s.context ctx
  if c.st != .dumping then s
  else
    let s := if s.hasLocal (ctx / 64) c.loft 4096 then
        s.plainWrite ctx (.loc (ctx / 64) c.loft) ((loftHeader c.causes c.incomplete ++ List.replicate 4096 0).take 4096)
      else s
    let s := s.releaseAll ctx
    let first := c.causes.headD []
    let s := s.onContext ctx (fun c =>
      { c with st := .halted, cause := recCode first, savedCores := [], savedTask := [], savedRuns := [], savedPoison := [],
               flipped := false, preloaded := false, passed := [] })
    let s := ((s.cmdEnds ctx).postRecord ctx first).dropLimit ctx
    (s.wakeRestoring (ctx / 64)).tripStands

/-- A dump that did not end in time (R344): the context is killed where it stands, and its Loft is INCOMPLETE. -/
def State.dumpTimeout (s : State) (ctx : Nat) : State :=
  if (s.context ctx).st == .dumping then (s.onContext ctx (fun c => { c with incomplete := true })).dumpEnds ctx else s

/-! ### Events -/

/-- `ACTIVATE` (R334). -/
def execEvActivate (ctx : Nat) (s : State) : Host.Outcome State Fault Refusal := .next (s.ctxCmd ctx (fun s => s.activate ctx))

/-- `SWAPOUT` (R334). -/
def execEvSwapout (ctx : Nat) (s : State) : Host.Outcome State Fault Refusal := .next (s.ctxCmd ctx (fun s => s.swapout ctx))

/-- `SWAPIN` (R334). -/
def execEvSwapin (ctx : Nat) (s : State) : Host.Outcome State Fault Refusal := .next (s.ctxCmd ctx (fun s => s.swapin ctx))

/-- `KILL` (R334). -/
def execEvKill (ctx : Nat) (s : State) : Host.Outcome State Fault Refusal := .next (s.ctxCmd ctx (fun s => s.killCmd ctx))

/-- `TEARDOWN` (R334). -/
def execEvTeardown (ctx : Nat) (s : State) : Host.Outcome State Fault Refusal := .next (s.ctxCmd ctx (fun s => s.teardown ctx))

/-- `REPLAY` (R339). -/
def execEvReplay (ctx : Nat) (s : State) : Host.Outcome State Fault Refusal := .next (s.ctxCmd ctx (fun s => s.replayCmd ctx))

/-- `RELEASE` (R351). -/
def execEvRelease (ctx coord : Nat) (s : State) : Host.Outcome State Fault Refusal :=
  .next (s.ctxCmd ctx (fun s => s.releaseCmd ctx coord))

/-- `TQHEAD_WRITE` (R333, R340). -/
def execEvTqheadWrite (ctx : Nat) (v : BitVec 32) (s : State) : Host.Outcome State Fault Refusal := .next (s.tqheadWrite ctx v.toNat)

/-- `DBGEN_WRITE` (R352). -/
def execEvDbgenWrite (ctx : Nat) (v : Word) (s : State) : Host.Outcome State Fault Refusal := .next (s.dbgenWrite ctx v.toNat)

/-- `CONTEXT_FLIP` (R335). -/
def execEvContextFlip (ctx : Nat) (s : State) : Host.Outcome State Fault Refusal := .next (s.contextFlip ctx)

/-- `WRITEBACK_COMPLETE` (R335). -/
def execEvWritebackComplete (ctx : Nat) (s : State) : Host.Outcome State Fault Refusal := .next (s.writebackDone ctx)

/-- `FATAL_CAUSE` (R342, R346). -/
def execEvFatalCause (ctx : Nat) (_code : BitVec 8) (s : State) : Host.Outcome State Fault Refusal := .next (s.fatalCause ctx)

/-- `LOFT_DUMP_COMPLETE` (R346). -/
def execEvLoftDumpComplete (ctx : Nat) (s : State) : Host.Outcome State Fault Refusal := .next (s.dumpEnds ctx)

/-- `DUMP_TIMEOUT` (R344). -/
def execEvDumpTimeout (ctx : Nat) (s : State) : Host.Outcome State Fault Refusal := .next (s.dumpTimeout ctx)

end Sys2Proof.Machine
end

