-- ==== Sys2Proof/Machine/Link.lean ====
section
/-!
DEFINITION. The link (R353 to R365): circuits of the Switchyard, dies in reset, the Ewen ports, the host link, and `PUBLISH`.
-/

namespace Sys2Proof.Machine

/-! ### What a failed circuit means to those that used it (R356) -/

/-- Bay accesses from one die to memory of another fail (R279). -/
def State.failReqs (s : State) (from_ to_ : Nat) : State :=
  (s.cores.filter (fun kc => dieOf kc.1 == from_)).foldl (fun s kc =>
    (kc.2.t.port.filter (fun r => r.peer && r.stage != .held && (match r.tgt with
      | .loc d _ => d == to_
      | _ => false))).foldl (fun s r => s.failReq kc.1 r Code.peerWindow) s) s

/-- Copy-engine operations and subscriptions of one die whose line goes to another end with LINK_DOWN (R217). -/
def State.failOps (s : State) (from_ to_ : Nat) : State :=
  ((s.ops.filter (fun kv => kv.2.ctx / 64 == from_ && kv.2.st == .started && kv.2.via.contains to_)).map Prod.fst).foldl (fun s k =>
    let f : TFault := { code := Code.linkDown, va := 0, acc := 0 }
    match (s.op k).cmd.ins, (s.op k).coll with
    | .subs _ _ _ _, _ => s.groomFault k f
    | _, some i => s.collFault i (s.op k).rank k f
    | _, none => s.copyFault k f) s

/-- Collectives between two dies end with LINK_DOWN at every participant, for the first rank the failure is met at (R229). -/
def State.failColls (s : State) (a b : Nat) : State :=
  (List.range s.colls.length).foldl (fun s i =>
    match s.colls[i]? with
    | none => s
    | some c =>
      let on (d : Nat) : Bool := c.members.any (fun m => dieOf m == d)
      let open_ := c.byRank.filter (fun j => !(s.op j.2).finished && (s.op j.2).st != .done && (s.op j.2).verdict.isNone)
      match open_ with
      | j :: _ => if on a && on b && c.dead.isNone then s.collFail i j.1 j.2 Code.linkDown 0 else s
      | [] => s) s

/-- Splices between two dies are lost at both ends, those of contexts that are swapped out too (R176). -/
def State.failSplices (s : State) (a b : Nat) : State :=
  let far (core : Nat) (x : Queue) : Bool :=
    match x.partner with
    | some (pc, _) => (dieOf core == a && dieOf pc == b) || (dieOf core == b && dieOf pc == a)
    | none => false
  let all := s.cores.map Prod.fst ++ s.ctxs.flatMap (fun kc => NMap.keys kc.2.savedCores)
  all.eraseDups.foldl (fun s core => s.loseWhere core (fun _ x => far core x)) s

/-- The two cores between which an event is a message of a splice. -/
def spliceEnds : Instr → Option (Nat × Nat)
  | .evSpliceDataArrive c q _ | .evGrant c q _ | .evRefuse c q _ | .evCredit c q _ | .evEnd c q | .evPause c q | .evPauseAck c q
  | .evResume c q | .evSpliceLoss c q => some (senderOf q, c)
  | .evHello c _ f _ _ _ => some (f, c)
  | _ => none

/-- Whether an event is a message between two dies that is lost with their circuit (R356). -/
def evCrosses (a b : Nat) (i : Instr) : Bool :=
  match i with
  | .evLaunchTailWrite ctx _ _ (some src) => (ctx / 64 == a && src.toNat == b) || (ctx / 64 == b && src.toNat == a)
  | .evSpliceLoss _ _ => false
  | _ =>
    match spliceEnds i with
    | some (x, y) => (dieOf x == a && dieOf y == b) || (dieOf x == b && dieOf y == a)
    | none => false

def Act.crosses (a b : Nat) : Act → Bool
  | .ev i => evCrosses a b i
  | _ => false

/-- The `QUNSPLICE` whose END is lost completes with SPLICE_LOST (notes/assumptions/108). -/
def State.loseEnd (s : State) (i : Instr) : State :=
  match i with
  | .evEnd _ q => s.answerKey (2 ^ 32 + (q / 32 - 1)) Code.spliceLost
  | _ => s

/-- A circuit enters DOWN or RESET (R356): what was in flight on it, or waited for it, is lost, and the invalidations that wait for the
other die are answered. -/
def State.circuitFails (s : State) (a b : Nat) : State :=
  let gone := (s.agenda ++ s.posted).filterMap (fun t => match t.act with
    | .ev i => if evCrosses a b i then some i else none
    | _ => none)
  let held := (s.circuit a b).held
  let s := { s with agenda := s.agenda.filter (fun t => !t.act.crosses a b), posted := s.posted.filter (fun t => !t.act.crosses a b) }
  let s := s.onCircuit a b (fun x => { x with held := [], upDue := 0, downDue := 0 })
  let s := ((s.failReqs a b).failReqs b a).failOps a b
  let s := ((s.failOps b a).failColls a b).failSplices a b
  ((gone ++ held).foldl State.loseEnd s).answerRemote a b

/-! ### Circuits (R354, R355) -/

/-- A transition of a circuit: EPOCH advances and the crown controller is told (R355). A limit of the state that ends is no longer due;
a circuit that is UP or DEGRADED delivers what waited for it, in order and before what is due over it in this cycle (R353). -/
def State.circuitTo (s : State) (a b : Nat) (st : CircSt) (wl : Nat) : State :=
  let limit (t : Timed) : Bool := match t.act with
    | .setupEnds x y _ => min x y == min a b && max x y == max a b
    | _ => false
  let s := { s with agenda := s.agenda.filter (fun t => !limit t), posted := s.posted.filter (fun t => !limit t) }
  let live := st == .up || st == .degraded
  let now_ (t : Timed) : Bool := live && decide (t.due ≤ s.now) && t.act.crosses a b
  let out := (if live then (s.circuit a b).held else []) ++ (s.agenda ++ s.posted).filterMap (fun t => match t.act with
    | .ev i => if now_ t then some i else none
    | _ => none)
  let s := { s with agenda := s.agenda.filter (fun t => !now_ t), posted := s.posted.filter (fun t => !now_ t) }
  let s := (s.onCircuit a b (fun c =>
    { c with st := st, wl := wl, ver := if live then 1 else c.ver, epoch := (c.epoch + 1) % 2 ^ 32,
             held := if live then [] else c.held })).report 4 (8 * min a b + max a b)
  let s := out.foldl (fun s i => s.postEv s.now i) s
  if st == .down || st == .reset then s.circuitFails a b else s

/-- The training of a circuit ends (R355, R357): no wavelength that has failed in it has trained. -/
def State.circuitTrained (s : State) (a b wl : Nat) (common : Bool) : State :=
  let c := s.circuit a b
  let wl := min wl c.training
  if c.st != .setup then s
  else if wl = 0 ∨ !common then s.circuitTo a b .down 0
  else if c.wcfg ≤ wl then s.circuitTo a b .up c.wcfg
  else s.circuitTo a b .degraded wl

/-- A wavelength of a circuit fails (R355). -/
def State.wavelengthFail (s : State) (a b : Nat) : State :=
  let c := s.circuit a b
  match c.st with
  | .up | .degraded => if c.wl ≤ 1 then s.circuitTo a b .down 0 else s.circuitTo a b .degraded (c.wl - 1)
  | .setup => if c.training ≤ 1 then s.circuitTo a b .down 0 else s.onCircuit a b (fun c => { c with training := c.training - 1 })
  | _ => s

/-- The longest a circuit stays in SETUP: 1 ms (R355). -/
def setupLimit : Nat := 2250000

/-- A circuit enters SETUP: every configured wavelength trains. The table gives WL no new value there (R355). Unless training ends before,
SETUP ends after 1 ms with as many wavelengths as have trained, which the spec leaves open: a free number. -/
def State.circuitSetup (s : State) (a b : Nat) : State :=
  let c := s.circuit a b
  ((((s.circuitTo a b .setup c.wl).onCircuit a b (fun c => { c with training := c.wcfg, passUntil := 0 })).post (s.now + setupLimit)
    (.setupEnds a b (s.delay (c.wcfg + 1) - 1)))).spend

/-- Accesses of bays that are on their way over a circuit arrive: a retrain of a circuit that works resends them first (R355). -/
def State.resendReqs (s : State) (from_ to_ : Nat) : State :=
  (s.cores.filter (fun kc => dieOf kc.1 == from_)).foldl (fun s kc =>
    (kc.2.t.port.filter (fun r => r.peer && r.stage == .queued && (match r.tgt with
      | .loc d _ => d == to_
      | _ => false))).foldl (fun s r => if r.kind == .load then s.loadArrive kc.1 r.id else s.writePerformed kc.1 r.id) s) s

/-- RETRAIN (R354, R355): of circuits that are DEGRADED or DOWN. What is in flight over a DEGRADED one is delivered first. -/
def State.circuitRetrain (s : State) (die mask : Nat) : State :=
  ((List.range 8).filter (fun d => d != die && bitOf mask d)).foldl (fun s d =>
    let c := s.circuit die d
    match c.st with
    | .degraded =>
      (((s.resendReqs die d).resendReqs d die).circuitSetup die d).onCircuit die d (fun x => { x with passUntil := max c.upDue c.downDue })
    | .down => s.circuitSetup die d
    | _ => s) s

/-! ### Dies in reset (R274, R355) -/

/-- The die an entry of the agenda belongs to, if it belongs to one. -/
def evDie : Instr → Option Nat
  | .evFetchBlockArrive c _ | .evPageWalkReturn c | .evLoadDataArrive c _ | .evWritePerformed c _ | .evScaleWriteLand c
  | .evMatrixHead c _ | .evMatrixFetchStart c _ | .evMatrixFetchEnd c _ | .evMatrixArrayStart c _ | .evMdrainLineWrite c _ _
  | .evPlanEntryHandoff c | .evCommandHead c _ | .evSemaphoreIncrementLand c _ _ _ | .evRemoteArrivalLand c _ _ _
  | .evMulticastWriteLand c _ _ _ _ | .evSpliceDataArrive c _ _ | .evHello c _ _ _ _ _ | .evHelloResend c _ _ | .evGrant c _ _
  | .evRefuse c _ _ | .evCredit c _ _ | .evEnd c _ | .evPause c _ | .evPauseAck c _ | .evResume c _ | .evSpliceLoss c _
  | .evLeaseGrantLand c _ _ _ _ _ | .evLeaseRevocation c _ | .evFallbackLineWrite c _ _ | .evTaskGrant c | .evTaskDone c
  | .evPreemptionDecision c | .evDrainLimit c | .evHostReadTimeout c _ | .evLeaseRequestLand c _ _ _ _ | .evLeaseWordsReturn c _ _
  | .evQpushQpopCompletion c => some (dieOf c)
  | .evEscapementSlot d _ _ | .evRotationBoundary d _ | .evFallbackRefreshTakeover d _ | .evYardGate d _ | .evPacketTake d
  | .evInvalidationAck d | .evPostedWriteDiscard d | .evThrottleResume d => some d
  | .evOpStart k | .evCopyLine k | .evOpComplete k | .evGroomTileFill k | .evCollectiveJoin k => some (k / 8192)
  | .evTaskReady g _ | .evGroupEnd g => some (g / 2 ^ 32)
  | .evLaunchTailWrite c _ _ _ | .evTokenRefill c | .evWatchdog c _ _ | .evContextFlip c | .evWritebackComplete c | .evFatalCause c _
  | .evLoftDumpComplete c | .evDumpTimeout c => some (c / 64)
  | .evRowStep u => some (unitDie u)
  | _ => none

def Act.die : Act → Option Nat
  | .ev i => evDie i
  | .issue c _ | .sample c _ | .fill c _ _ _ _ | .land c _ _ _ | .move c | .padBank c _ | .release c _ | .signal c _ _ _
  | .bar c _ _ _ _ _ | .barTest c _ | .tdep c _ | .late c | .opSignal c _ _ _ _ => some (dieOf c)
  | .micro u => some (unitDie u)
  | .dep _ g _ _ _ => some (g / 2 ^ 32)
  | .crown | .setupEnds _ _ _ | .trainEnds _ _ _ _ _ => none
  | .inval d | .unthrottle d => some d

/-- What stands on a die is gone: its cores, contexts, queues, operations, groups, bank units and registers are as after reset, and
nothing of it is due. Its memory stays as it stands, and so do what bring-up found and the mailbox (notes/assumptions/60). -/
def State.wipeDie (s : State) (d : Nat) : State :=
  let old := s.die d
  { s with
    agenda := s.agenda.filter (fun t => t.act.die != some d), posted := s.posted.filter (fun t => t.act.die != some d),
    cores := s.cores.filter (fun kc => dieOf kc.1 != d), ops := s.ops.filter (fun kv => kv.1 / 8192 != d),
    gens := s.gens.filter (fun kv => kv.1 / 8192 != d), units := s.units.filter (fun kv => unitDie kv.1 != d),
    groups := s.groups.filter (fun kg => kg.1 / 2 ^ 32 != d), launch := s.launch.filter (fun kl => kl.1 / 256 != d),
    ctxs := s.ctxs.filter (fun kc => kc.1 / 64 != d),
    dies := NMap.set s.dies d { inReset := old.inReset, pcmap0 := old.pcmap0, pcmap1 := old.pcmap1, hostDown := old.hostDown, routes := old.routes, mbox := old.mbox } }

/-- A die enters reset (R274, R355, R356). -/
def State.dieReset (s : State) (d : Nat) : State :=
  if (s.die d).inReset then s
  else
    let s := s.onDie d (fun x => { x with inReset := true })
    let s := ((List.range 8).filter (fun e => e != d && (s.circuit d e).st != .none)).foldl (fun s e => s.circuitTo d e .reset 0) s
    s.wipeDie d

/-- The yards of a die are looked at for clock gating from now on (R23). -/
def State.watchYards (s : State) (d : Nat) : State :=
  (List.range 4).foldl (fun s y => s.postEv (s.now + 1) (.evYardGate d y)) s

/-- A die leaves reset (R274, R355). -/
def State.dieResetExit (s : State) (d : Nat) : State :=
  if !(s.die d).inReset then s
  else
    let s := ((s.onDie d (fun x => { x with inReset := false })).watchYards d).startTokens d
    ((List.range 8).filter (fun e => e != d && !(s.die e).inReset && (s.circuit d e).st == .reset)).foldl (fun s e => s.circuitSetup d e) s

/-! ### The host link (R358, R359) -/

/-- The key under which a `PUBLISH` waits for the host link of a die (R365). -/
def hostKey (die : Nat) : Nat := 2 ^ 35 + die

/-- What waited for a posted write goes on when the write is held no longer (R99, R257): a store leaves its port, an operation may
complete. -/
def State.unhold (s : State) (w : Posted) : State :=
  let s := match w.req with
    | some (core, id) => (s.dropReq core id).pokeDone core
    | none => s
  match w.op with
  | some k =>
    match (s.op k).cmd.ins, (s.op k).verdict with
    | .subs _ _ _ _, none => s.postEv s.now (.evGroomTileFill k)
    | _, _ => s.postEv s.now (.evOpComplete k)
  | none => s

/-- A held write is sent. A record of a trap queue is posted as if it were new, as those before it may have been discarded (R340). -/
def State.sendPosted (s : State) (w : Posted) : State :=
  let s := match w.trap, w.ctx with
    | some r, some ctx => s.postRecord ctx r
    | _, _ => { s with mem := s.mem.writeMasked (Addr.host w.addr) w.bytes }
  s.unhold w

/-- The link goes down. -/
def State.linkDown (s : State) (die : Nat) : State := s.onDie die (fun d => { d with hostDown := true })

/-- Host reads of a die's bays that wait for their time-out are sent, where their link works now (R359). -/
def State.retryReads (s : State) (die : Nat) : State :=
  let ready (t : Timed) : Bool := match t.act with
    | .ev (.evHostReadTimeout core id) => dieOf core == die && (((s.core core).t.req? id).map (fun r => !s.cutOff core r)).getD true
    | _ => false
  let reads := (s.agenda ++ s.posted).filterMap (fun t => match t.act with
    | .ev (.evHostReadTimeout core id) => if ready t then ((s.core core).t.req? id).map (fun r => (core, r)) else none
    | _ => none)
  let s := { s with agenda := s.agenda.filter (fun t => !ready t), posted := s.posted.filter (fun t => !ready t) }
  reads.foldl (fun s x => s.postEv s.now (if x.2.kind == .amo then .evWritePerformed x.1 x.2.id else .evLoadDataArrive x.1 x.2.id)) s

/-- A link of a die works again: held writes that can be sent are sent in order (R358, R359), and what waited for its record goes on
(R340). -/
def State.sendAllHeld (s : State) (die : Nat) : State :=
  let ws := (s.die die).posted.filter (fun w => !s.hostCut die w.addr)
  let s := s.onDie die (fun d => { d with posted := d.posted.filter (fun w => s.hostCut die w.addr) })
  let s := ws.foldl (fun s w => s.sendPosted w) s
  let s := if (s.die die).posted.isEmpty then s.answerKey (hostKey die) else s
  ((ws.filterMap (fun w => if w.trap.isSome then w.ctx else none)).eraseDups.foldl (fun s ctx => s.freeRecorded ctx) s).retryReads die

/-- The link returns. -/
def State.linkUp (s : State) (die : Nat) : State := (s.onDie die (fun d => { d with hostDown := false })).sendAllHeld die

/-! ### The Ewen ports (R360, R361) -/

/-- The longest a port stays in TRAIN: 1 ms (R361). -/
def trainLimit : Nat := 2250000

/-- What can have trained by then: lanes, the peer's version range, and its identifier, which the spec leaves open. -/
def State.freeTraining (s : State) (p : Nat) : Act :=
  let n (i m : Nat) : Nat := Config.freeDelay (s.free + i) % m
  .trainEnds p (n 0 17) (n 1 256) (n 2 256) (n 3 65536)

/-- A transition of a port is reported to the crown controller. A port that enters TRAIN leaves it within 1 ms (R361). -/
def State.ewenTo (s : State) (p : Nat) (st : EwenSt) (f : Ewen → Ewen) : State :=
  let limit (t : Timed) : Bool := match t.act with
    | .trainEnds x _ _ _ _ => x == p
    | _ => false
  let s := { s with agenda := s.agenda.filter (fun t => !limit t), posted := s.posted.filter (fun t => !limit t) }
  let s := (s.onEwen p (fun e => { f e with st := st })).report 5 p
  if st == .train then { s.post (s.now + trainLimit) (s.freeTraining p) with free := s.free + 4 } else s

/-- The flits of a port that have been replayed: a count that saturates (R360). How many of them a failure replays, and how many single
errors have replayed before it, the spec leaves open (notes/assumptions/127). -/
def State.replayed (s : State) (e : Ewen) (n : Nat) : Nat := min (e.retry + n + Config.freeDelay s.free % 2 ^ 32) (2 ^ 32 - 1)

/-- The version two ranges agree on (R357); what is above 0x01 is read as 0x01. -/
def agreed (vmin vmax pmin pmax : Nat) : Option Nat :=
  let v := min (min vmax 1) pmax
  if max (min vmin 1) pmin ≤ v then some v else none

/-- TAIL writes of a port's peers that are in flight are lost (R361). -/
def State.loseInbound (s : State) (p : Nat) : State :=
  let keep (t : Timed) : Bool := match t.act with
    | .ev (.evLaunchTailWrite _ _ _ (some src)) => src.toNat / 256 != 16 + p
    | _ => true
  { s with agenda := s.agenda.filter keep, posted := s.posted.filter keep }

/-- Reads of bays that a port carried complete with an error (R359, R361). -/
def State.loseOutbound (s : State) (p : Nat) : State :=
  s.cores.foldl (fun s kc =>
    (kc.2.t.port.filter (fun r => (r.kind == .load || r.kind == .amo) && r.stage != .held && (match r.tgt with
      | .host a => s.portOf (dieOf kc.1) a == some p
      | _ => false))).foldl (fun s r => (s.maybeWritten kc.1 r).failReq kc.1 r Code.linkDown) s) s

/-- What a port carries is lost as it leaves UP or DEGRADED for another state (R361). -/
def State.portLost (s : State) (p : Nat) : State := (s.loseInbound p).loseOutbound p

/-- The training of a port ends (R361). -/
def State.ewenTrained (s : State) (p lanes vmin vmax peer : Nat) : State :=
  let e := s.ewenPort p
  if e.st != .train then s
  else if lanes = 0 then s.ewenTo p .down (fun e => { e with lanes := 0 })
  else
    match agreed e.vmin e.vmax vmin vmax with
    | none => s.ewenTo p .verr id
    | some v =>
      let s := s.ewenTo p (if lanes = 16 then .up else .degraded) (fun e => { e with lanes := lanes, ver := v, peer := peer % 2 ^ 16 })
      (NMap.keys s.dies).foldl (fun s d => s.sendAllHeld d) s

/-- A lane of a port fails, or 8 replays of a flit fail in a row (R361). -/
def State.ewenLaneFail (s : State) (p : Nat) (replays : Bool) : State :=
  let e := s.ewenPort p
  match e.st with
  | .up | .degraded =>
    if replays ∨ e.lanes ≤ 1 then
      ((s.ewenTo p .down (fun e => { e with lanes := 0, retry := s.replayed e (if replays then 8 else 0) })).spend).portLost p
    else (s.ewenTo p .degraded (fun e => { e with lanes := e.lanes - 1, retry := s.replayed e 0 })).spend
  | _ => s

/-- RETRAIN of a port (R361). -/
def State.ewenRetrain (s : State) (p : Nat) : State :=
  match (s.ewenPort p).st with
  | .train => s
  | .up | .degraded => (s.ewenTo p .train (fun e => { e with lanes := 0 })).portLost p
  | _ => s.ewenTo p .train id

/-! ### Discards (R359) -/

/-- A held write is discarded (R359): a notice names what wrote it. A record of a trap queue that cannot be written makes its context
fatal and goes to the mailbox (R340). -/
def State.discardOne (s : State) (die : Nat) (w : Posted) : State :=
  let s := (s.report 3 die).unhold w
  match w.ctx, w.trap with
  | some c, some r => ((s.onContext c (fun x => { x with mailOnly := true })).toMailbox c r).fatal c { code := Code.linkDown, word5 := w.addr % 2 ^ 57 }
  | some c, none => s.notice c { infoOf w.src with code := Code.linkDown, word5 := w.addr % 2 ^ 57 }
  | none, _ => s

/-- Writes held for 100 ms are discarded, and the crown controller is told of each (R359). -/
def State.discardPosted (s : State) (die : Nat) : State :=
  let old := (s.die die).posted.filter (fun w => decide (w.until_ ≤ s.now))
  let s := s.onDie die (fun d => { d with posted := d.posted.filter (fun w => !decide (w.until_ ≤ s.now)) })
  let s := old.foldl (fun s w => s.discardOne die w) s
  if (s.die die).posted.isEmpty then s.answerKey (hostKey die) else s

/-! ### `PUBLISH` (R364, R365) -/

/-- `PUBLISH` (R365). -/
def execPublish (h : CmdHdr) (win : BitVec 3) (s : State) : Host.Outcome State Fault Refusal := plainCmd s (.publish h win) []

/-- Whether every store and atomic of the issuing task to a window that precedes a `PUBLISH` is held (R365 step 1). -/
def State.windowHeld (s : State) (core seq win : Nat) : Bool :=
  let t := (s.core core).t
  !t.openReqs.any (fun r => decide (r.id < seq) && (r.kind == .store || r.kind == .amo) && r.stage != .performed
    && (match r.tgt with
      | .pub w _ => w == win
      | _ => r.stage == .held && r.lat == 0 && r.tgt == .host 0))

/-- `PUBLISH` at its head (R365): the held writes of the window, its version and the counter; none while a store before it is not
held. While the link is down the token waits with them. Of the writes of this cycle those of the own core come before. -/
def State.publishHead (s : State) (core : Nat) (c : Cmd) (win : Nat) : Option State :=
  let ctx := s.ctxOf core
  let die := dieOf core
  let x := s.context ctx
  if !NMap.get false x.pubEn win then some (s.endCmd core c Code.shapeIndex 0 true)
  else if !s.windowHeld core c.seq win then none
  else
    let mine (e : PubByte) : Bool := e.ctx == ctx && e.win == win && (decide (e.at_ < s.now) || e.core == core)
    let out := (s.die die).pubBuf.filter mine
    let at_ : Nat := NMap.get 0 x.caddr win
    let v : Word := NMap.get 0 x.version win + 1
    let s := (s.onContext ctx (fun x => { x with version := NMap.put 0 x.version win v })).onDie die (fun d =>
      { d with pubBuf := d.pubBuf.filter (fun e => !mine e) })
    let s := out.foldl (fun s e => s.hostWrite die (some ctx) e.addr [some e.val] (c.info core)) s
    let s := s.hostWrite die (some ctx) at_ ((toBytes 8 v.toNat).map some) (c.info core)
    if s.hostCut die at_ || out.any (fun e => s.hostCut die e.addr) then
      some (s.onCtxSt core (fun k => { k with opWaits := k.opWaits ++ [(6, hostKey die, c)] }))
    else some (s.endCmd core c 0 0 true)

/-! ### Events -/

/-- `CIRCUIT_TRAINED` (R355). -/
def execEvCircuitTrained (a b wl : Nat) (common : Bool) (s : State) : Host.Outcome State Fault Refusal :=
  .next (s.circuitTrained a b wl common)

/-- `WAVELENGTH_FAIL` (R355, R356). -/
def execEvWavelengthFail (a b : Nat) (s : State) : Host.Outcome State Fault Refusal := .next (s.wavelengthFail a b)

/-- `DIE_RESET` (R274, R355). -/
def execEvDieReset (die : Nat) (s : State) : Host.Outcome State Fault Refusal := .next (s.dieReset die)

/-- `DIE_RESET_EXIT` (R274, R355). -/
def execEvDieResetExit (die : Nat) (s : State) : Host.Outcome State Fault Refusal := .next (s.dieResetExit die)

/-- `CIRCUIT_RETRAIN` (R354, R355). -/
def execEvCircuitRetrain (die : Nat) (mask : BitVec 8) (s : State) : Host.Outcome State Fault Refusal :=
  .next (s.circuitRetrain die mask.toNat)

/-- `EWEN_TRAINED` (R361). -/
def execEvEwenTrained (port lanes vmin vmax peer : Nat) (s : State) : Host.Outcome State Fault Refusal :=
  .next (s.ewenTrained port lanes vmin vmax peer)

/-- `EWEN_LANE_FAIL` (R361). -/
def execEvEwenLaneFail (port : Nat) (replays : Bool) (s : State) : Host.Outcome State Fault Refusal := .next (s.ewenLaneFail port replays)

/-- `EWEN_RETRAIN` (R361). -/
def execEvEwenRetrain (port : Nat) (s : State) : Host.Outcome State Fault Refusal := .next (s.ewenRetrain port)

/-- `POSTED_WRITE_DISCARD` (R359). -/
def execEvPostedWriteDiscard (die : Nat) (s : State) : Host.Outcome State Fault Refusal := .next (s.discardPosted die)

/-- `HOST_LINK_DOWN` (R359). -/
def execEvHostLinkDown (die : Nat) (s : State) : Host.Outcome State Fault Refusal := .next (s.linkDown die)

/-- `HOST_LINK_UP` (R359). -/
def execEvHostLinkUp (die : Nat) (s : State) : Host.Outcome State Fault Refusal := .next (s.linkUp die)

end Sys2Proof.Machine
end

