-- ==== Sys2Proof/Machine/CommandHead.lean ====
section
/-!
DEFINITION. The heads of the command queues of a core's units (R71, R112, R189, R385): when a command's head cycle may be, its
wait, and its effect.
-/

namespace Sys2Proof

/-- The cycles from issue to the first cycle a command's head may be in (R178, R201, R221, R242, R307, R326, R350, R365). -/
def Instr.headDelay : Instr → Nat
  | .barrive _ _ _ _ _ | .bufset _ _ _ _ => 4
  | i => if 7 ≤ i.cmdUnit then 4 else 1

end Sys2Proof

namespace Sys2Proof.Machine

/-- The commands that wait in a unit's queue. -/
def State.cmdsOf (s : State) (core unit : Nat) : List Cmd := NMap.get [] (s.core core).c.cmdq unit

/-! ### The copy port (R189, R204, R221) -/

/-- The first command of each task in the copy port's queue (R189). -/
def firstOfTasks : List (Nat × Nat) → List Cmd → List Cmd
  | _, [] => []
  | seen, c :: cs =>
    if seen.contains (c.grp, c.idx) then firstOfTasks seen cs else c :: firstOfTasks ((c.grp, c.idx) :: seen) cs

/-- Whether a command starts before another: by priority, then by issue cycle (R189). -/
def Cmd.startsBefore (a b : Cmd) : Bool := decide (b.prio < a.prio) || (a.prio == b.prio && decide (a.t < b.t))

/-- A list of commands in the order they start in. -/
def byStart (cs : List Cmd) : List Cmd := cs.foldl (fun l c => put c l) []
where
  put (c : Cmd) : List Cmd → List Cmd
    | [] => [c]
    | d :: ds => if c.startsBefore d then c :: d :: ds else d :: put c ds

/-- The wait of a command passes and is not tested again (R71). -/
def State.passWait (s : State) (core unit : Nat) (c : Cmd) : State :=
  if c.noWait then s
  else (s.takeWait core c).onCtxSt core (fun x =>
    { x with cmdq := NMap.put [] x.cmdq unit ((NMap.get [] x.cmdq unit).map (fun d =>
        if d.serial = c.serial then { d with noWait := true } else d)) })

/-- One candidate of the copy port is tested: a command without an operation has its effect, an operation starts some time later
if nothing holds it (R189, R204, R256). -/
def State.copyTry (s : State) (core : Nat) (c : Cmd) : State :=
  if s.now < c.t + 1 ∨ !s.waitOk core c then s
  else
    match c.ins with
    | .cstep _ _ => ((s.takeWait core c).stepHead core c).dequeue core 2 c.serial
    | .unsubs _ q => ((s.takeWait core c).unsubsHead core c q.toNat).dequeue core 2 c.serial
    | i =>
      let k := c.op.getD 0
      let s := s.passWait core 2 c
      if s.isDue (· == .ev (.evOpStart k)) then s
      else if s.portClear core c.seq && (!isCopyOp i || s.copyRoom core) then s.postFree walkBound (.evOpStart k)
      else s

/-- The copy port of a core in one cycle. -/
def State.copyHead (s : State) (core : Nat) : State :=
  let s := (byStart (firstOfTasks [] (s.cmdsOf core 2))).foldl (fun s c => s.copyTry core c) s
  if (s.cmdsOf core 2).isEmpty then s else s.postHead core 2 (s.now + 1)

/-! ### The other units -/

/-- The effect of a command at its head; none while a condition of its own does not hold. -/
def State.headEffect (s : State) (core unit : Nat) (c : Cmd) : Option State :=
  match unit with
  | 3 => s.queueHead core c
  | 4 => s.syncHead core c
  | 5 => some (s.opHead core c)
  | 6 => some (s.bankHead core c)
  | 7 => (s.groupHead core c).map (fun s => s.postEv s.now (.evGroupEnd c.grp))
  | 8 => some (s.leaseHead core c)
  | _ =>
    match c.ins with
    | .publish _ win => s.publishHead core c win.toNat
    | _ => some s

/-- A command has had its head: it leaves the queue, and the next may have its own in the next cycle, or when the move of a
`QPUSH` or `QPOP` ends (R184). -/
def State.headTaken (s : State) (core unit : Nat) (c : Cmd) : State :=
  let s := s.dequeue core unit c.serial
  if unit = 3 ∧ (s.core core).c.moving.isSome then s
  else
    let s := s.onCtxSt core (fun x => { x with free := NMap.set x.free unit (s.now + 1) })
    if (s.cmdsOf core unit).isEmpty then s else s.postHead core unit (s.now + 1)

/-- The head of a unit's queue is tested: its wait passes once, and its effect comes when a condition of its own holds too. -/
def State.unitHead (s : State) (core unit : Nat) : State :=
  match s.cmdsOf core unit with
  | [] => s
  | c :: _ =>
    let from_ := max (c.t + c.ins.headDelay) (NMap.get 0 (s.core core).c.free unit)
    if s.now < from_ then s.postHead core unit from_
    else if unit = 3 ∧ (s.core core).c.moving.isSome then s
    else if !s.waitOk core c then s.postHead core unit (s.now + 1)
    else
      match (s.takeWait core c).headEffect core unit c with
      | some s' => s'.headTaken core unit c
      | none => (s.passWait core unit c).postHead core unit (s.now + 1)

/-- `COMMAND_HEAD` (R71, R112, R385). -/
def execEvCommandHead (core unit : Nat) (s : State) : Host.Outcome State Fault Refusal :=
  .next (if unit = 2 then s.copyHead core else s.unitHead core unit)

end Sys2Proof.Machine
end

