-- ==== Sys2Proof/Machine/Sha.lean ====
section
/-!
DEFINITION. SHA-256, which R367 and R372 name (notes/assumptions/14: the function is the one of FIPS 180-4).
-/

namespace Sys2Proof.Machine

/-- The largest r + d with d below 2^n whose k-th power is at most x, found bit by bit. -/
def rootFrom (k x : Nat) : Nat → Nat → Nat
  | 0, r => r
  | n + 1, r => rootFrom k x n (if (r + 2 ^ n) ^ k ≤ x then r + 2 ^ n else r)

/-- The first 32 bits of the fraction of p's k-th root: FIPS 180-4 takes every constant of SHA-256 from these. -/
def rootBits (k p : Nat) : BitVec 32 :=
  BitVec.ofNat 32 (rootFrom k (p * 2 ^ (32 * k)) 37 0)

/-- The first 64 primes: the ones up to 311. -/
def shaPrimes : List Nat :=
  (List.range 312).filter fun n => 2 ≤ n && (List.range n).all fun d => d < 2 || n % d != 0

def shaK : List (BitVec 32) := shaPrimes.map (rootBits 3)

def shaInit : List (BitVec 32) := (shaPrimes.take 8).map (rootBits 2)

/-- A word turned right by each count, the results added without carry. -/
def turns (x : BitVec 32) (ns : List Nat) : BitVec 32 :=
  ns.foldl (fun acc n => acc ^^^ x.rotateRight n) 0

/-- The message schedule, newest word first. -/
def shaSchedule : Nat → List (BitVec 32) → List (BitVec 32)
  | 0, w => w
  | n + 1, w =>
    let back := fun i => w.getD (i - 1) 0
    let small := fun x ns k => turns x ns ^^^ (x >>> k)
    shaSchedule n ((back 16 + back 7 + small (back 15) [7, 18] 3 + small (back 2) [17, 19] 10) :: w)

/-- One round over the eight working words, a first: the words move one place on, and the sums enter at a and e. -/
def shaRound (st : List (BitVec 32)) (kw : BitVec 32 × BitVec 32) : List (BitVec 32) :=
  let at' := fun i => st.getD i 0
  let pick := at' 6 ^^^ (at' 4 &&& (at' 5 ^^^ at' 6))
  let most := (at' 0 &&& at' 1) ||| (at' 2 &&& (at' 0 ||| at' 1))
  let sum := at' 7 + turns (at' 4) [6, 11, 25] + pick + kw.1 + kw.2
  ((sum + turns (at' 0) [2, 13, 22] + most) :: st.take 7).set 4 (at' 3 + sum)

/-- Big-endian words of a byte list. -/
def beWords : Nat → List Byte → List (BitVec 32)
  | 0, _ => []
  | n + 1, bs => (bs.getD 0 0 ++ bs.getD 1 0 ++ bs.getD 2 0 ++ bs.getD 3 0) :: beWords n (bs.drop 4)

/-- One 64-byte block. -/
def shaBlock (st : List (BitVec 32)) (blk : List Byte) : List (BitVec 32) :=
  let w := (shaSchedule 48 (beWords 16 blk).reverse).reverse
  let out := (shaK.zip w).foldl shaRound st
  List.zipWith (· + ·) st out

def shaBlocks : Nat → List (BitVec 32) → List Byte → List (BitVec 32)
  | 0, st, _ => st
  | n + 1, st, bs => shaBlocks n (shaBlock st (bs.take 64)) (bs.drop 64)

/-- The message padded to whole blocks. -/
def shaPad (msg : List Byte) : List Byte :=
  let l := msg.length
  let z := (119 - l % 64) % 64
  msg ++ [0x80#8] ++ List.replicate z 0#8 ++ (List.range 8).map (fun i => BitVec.ofNat 8 (8 * l / 2 ^ (8 * (7 - i))))

/-- SHA-256 of a byte list: 32 bytes. -/
def sha256 (msg : List Byte) : List Byte :=
  let p := shaPad msg
  (shaBlocks (p.length / 64) shaInit p).flatMap (fun w =>
    [w.extractLsb' 24 8, w.extractLsb' 16 8, w.extractLsb' 8 8, w.extractLsb' 0 8])

end Sys2Proof.Machine
end

