-- ==== Sys2Proof/Machine/Boot.lean ====
section
/-!
DEFINITION. Bring-up, the crown controller's mailbox, the standing state, identity and attestation, and the limits of the package
(R366 to R373).
-/

namespace Sys2Proof.Machine

/-! ### Power-up (R366) -/

/-- The pairs of live dies. -/
def diePairs : List (Nat × Nat) := (List.range 8).flatMap (fun a => ((List.range 8).filter (fun b => decide (a < b))).map (fun b => (a, b)))

/-- Step 4 and step 6 of R366: circuits pass from NONE to SETUP, the Ewen ports begin to train (R361), and the dies run. -/
def State.bringUp (s : State) : State :=
  let s := diePairs.foldl (fun s p => if (s.circuit p.1 p.2).st == .none then s.circuitSetup p.1 p.2 else s) s
  let s := (List.range 16).foldl (fun s p => if (s.ewenPort p).st == .down then s.ewenTo p .train id else s) s
  let s := (List.range 8).foldl (fun s d => ((((s.watchYards d).startTokens d).startHeartbeat d 0).startHeartbeat d 1)) s
  { s with crown := { s.crown with pstate := 2, cause := 0 } }

/-! ### Firmware images (R367) -/

/-- The loaded image of a KIND: its VER, its SVN and its body. -/
def Crown.image (c : Crown) (kind : Nat) : Nat × Nat × List Byte :=
  match NMap.find c.images kind with
  | some i => i
  | none => ((Config.bootImage kind).1.toNat, (Config.bootImage kind).2.1.toNat, (Config.bootImage kind).2.2)

/-- The fused minimum of a KIND. -/
def Crown.minOf (c : Crown) (kind : Nat) : Nat := NMap.get 0 c.minSvn kind

/-- `n` bytes of the staging image from one on; a byte that was not staged is zero (notes/assumptions/14). -/
def Crown.staged (c : Crown) (a n : Nat) : List Byte := (List.range n).map (fun i => NMap.get 0 c.stage (a + i))

/-- The size of an image's header. -/
def imageHeader : Nat := 1024

/-- The staged image, if R367 accepts it: KIND, VER, SVN and body. -/
def Crown.accept (c : Crown) : Option (Nat × Nat × Nat × List Byte) :=
  let field (a : Nat) : Nat := (NMap.get (0 : Byte) c.stage a).toNat
  let key := c.staged 512 384
  let body := c.staged imageHeader (ofBytes (c.staged 8 4))
  let kind := field 6
  if sha256 key == Config.fusedKeyHash && Config.rsaVerify key (c.staged 0 128) (c.staged 128 384) && sha256 body == c.staged 32 32
      && decide (kind < 4) && decide (c.minOf kind ≤ field 5) then
    some (kind, field 4, field 5, body)
  else none

/-- Whether the loaded image of a KIND has at least the fused minimum for its SVN. -/
def Crown.current (c : Crown) (kind : Nat) : Bool := c.minOf kind == 0 || decide (c.minOf kind ≤ (c.image kind).2.1)

/-- The package stands with a cause. -/
def State.stand (s : State) (cause : Nat) : State := { s with crown := { s.crown with pstate := 3, cause := cause } }

/-- Channels and wavelengths that the self-test has disabled (R292, R354, R366). -/
def State.degrade (s : State) (maps : List (Nat × BitVec 64 × BitVec 64)) (waves : List (Nat × Nat × Nat)) : State :=
  let s := maps.foldl (fun s m => s.onDie m.1 (fun d => { d with pcmap0 := m.2.1.toNat, pcmap1 := m.2.2.toNat })) s
  waves.foldl (fun s w => s.onCircuit w.1 w.2.1 (fun c => { c with wcfg := w.2.2 })) s

/-- The steps of R366: the controller's own image is verified first, and those of the dies after what the finding says of the steps
between. An image that fails its key, signature, digest or KIND is a finding (notes/assumptions/128). -/
def State.powerSteps (s : State) (f : PowerFinding) : State :=
  let loads (s : State) : State := if (List.range 3).all (fun i => s.crown.current (i + 1)) then s.bringUp else s.stand 2
  if !s.crown.current 0 then s.stand 2
  else
    match f with
    | .ok => loads s
    | .degraded maps waves => loads (s.degrade maps waves)
    | .fail cause => s.stand cause.toNat

/-- Power-up ends (R366): the package is READY, or STANDING with the cause of the step that failed. -/
def State.powerUp (s : State) (f : PowerFinding) : State := if s.crown.pstate ≠ 0 then s else s.powerSteps f

/-! ### Identity and attestation (R371, R372) -/

/-- The site of a logical die: ascending, without the harvested one (R1). -/
def dieSite (d : Nat) : Nat := if d < Config.harvestedSite.val then d else d + 1

/-- The identity record (R371). -/
def Crown.identity (c : Crown) : List Byte :=
  [0x4B, 0x5A, 0x2D, 0x38, 0x31, 0x36, 0x30, 0] ++ (List.range 16).map Config.serial ++ toBytes 1 Config.harvestedSite.val
    ++ (List.range 8).flatMap (fun d => toBytes 1 (dieSite d)) ++ List.replicate 3 0
    ++ (List.range 4).flatMap (fun k => toBytes 1 (c.image k).1 ++ toBytes 1 (c.image k).2.1) ++ List.replicate 4 0
    ++ (List.range 4).flatMap (fun k => toBytes 1 (c.minOf k)) ++ List.replicate 12 0
    ++ (List.range 384).map Config.deviceModulus ++ List.replicate 64 0

/-- The ATTEST report (R372) for a nonce. -/
def Crown.attest (c : Crown) (nonce : List Byte) : List Byte :=
  let said := nonce ++ sha256 c.identity ++ (List.range 4).flatMap (fun k => sha256 (c.image k).2.2)
  said ++ (List.range 384).map (Config.rsaSign said)

/-! ### The mailbox (R368, R369) -/

/-- The bytes of DATA. -/
def Mailbox.bytes (m : Mailbox) (n : Nat) : List Byte := (List.range n).map (fun i => NMap.get 0 m.data i)

/-- DATA with a result at its start. -/
def Mailbox.withResult (m : Mailbox) (bs : List Byte) : NMap Byte :=
  (List.zip (List.range bs.length) bs) ++ m.data.filter (fun e => decide (bs.length ≤ e.1))

/-- A command of a die's mailbox is complete. -/
def State.mailEnds (s : State) (die seq status : Nat) (bs : List Byte) : State :=
  s.onDie die (fun d =>
    { d with mbox := { d.mbox with busy := false, status := status, ack := seq, len := bs.length, data := d.mbox.withResult bs } })

def State.onCrown (s : State) (f : Crown → Crown) : State := { s with crown := f s.crown }

/-- STAGE (R369). One that follows a COMMIT begins a new image. -/
def State.mailStage (s : State) (die seq : Nat) (arg : Word) : State :=
  let n := bits arg.toNat 32 12
  let off := bits arg.toNat 0 32
  if n = 0 ∨ 2048 < n then s.mailEnds die seq 3 []
  else
    let bs := (s.die die).mbox.bytes n
    (s.onCrown (fun c =>
      { c with stageNew := false,
               stage := (List.zip (List.range n) bs).foldl (fun m e => NMap.set m (off + e.1) e.2) (if c.stageNew then [] else c.stage) })).mailEnds
      die seq 0 []

/-- COMMIT (R369). -/
def State.mailCommit (s : State) (die seq : Nat) : State :=
  match s.crown.accept with
  | some (kind, ver, svn, body) =>
    (s.onCrown (fun c =>
      { c with stageNew := true, committed := some (kind, ver, svn, body), minSvn := NMap.set c.minSvn kind (max svn (c.minOf kind)) })).mailEnds
      die seq 0 []
  | none => (s.onCrown (fun c => { c with stageNew := true })).mailEnds die seq 3 []

/-- SMCRESET (R291, R369): refresh returns to a stack with the first heartbeat after it. -/
def State.mailSmcreset (s : State) (die seq : Nat) (arg : Word) : State :=
  let st := bits arg.toNat 0 4
  let s := s.onDie (st / 2) (fun d => if NMap.get false d.fb (st % 2) then { d with smcReset := NMap.set d.smcReset (st % 2) true } else d)
  s.mailEnds die seq 0 []

/-- A package reset (R369): the image committed last is loaded from now on, every register is as after reset, and R366 begins again.
Storage, the time, the pseudo-channels found present, the fuses and the host links stay as they are (notes/assumptions/61). -/
def State.packageReset (s : State) : State :=
  let c := s.crown
  let images := match c.committed with
    | some (kind, ver, svn, body) => NMap.set c.images kind (ver, svn, body)
    | none => c.images
  { now := s.now, free := s.free + 1, mem := s.mem, veils := s.veils, ecc := s.ecc, padPoison := s.padPoison, padErr := s.padErr,
    dies := s.dies.map (fun (kd : Nat × Die) =>
      (kd.1, { pcmap0 := kd.2.pcmap0, pcmap1 := kd.2.pcmap1, hostDown := kd.2.hostDown, routes := kd.2.routes })),
    crown := { images := images, minSvn := c.minSvn },
    agenda := [{ due := s.now + s.delay 1024, act := .ev (.evPowerUp .ok) }] }

/-- A command of the mailbox (R369): its result, or STATUS 1 for an unknown one and 2 for one that STANDING refuses. -/
def State.mailCommand (s : State) (die op seq : Nat) (arg : Word) : State :=
  match op with
  | 1 => s.mailEnds die seq 0 s.crown.identity
  | 2 => s.mailEnds die seq 0 (s.crown.attest ((s.die die).mbox.bytes 32))
  | 3 => s.mailEnds die seq 0 (Config.selfTestLog.take 2048)
  | 4 => s.mailStage die seq arg
  | 5 => s.mailCommit die seq
  | 6 => if s.crown.pstate = 3 then s.mailEnds die seq 2 [] else s.mailSmcreset die seq arg
  | 7 => s.packageReset
  | _ => s.mailEnds die seq 1 []

/-- A command joins the controller's queue: by the cycle of its posting, and by die within a cycle (R368). -/
def putMail (e : Nat × Nat × Nat × Word) : List (Nat × Nat × Nat × Word) → List (Nat × Nat × Nat × Word)
  | [] => [e]
  | x :: xs => if e.1 < x.1 then e :: x :: xs else x :: putMail e xs

/-- The longest the controller is taken to need for a command. -/
def crownBound : Nat := 4096

/-- The controller turns to its next command some time later. -/
def State.postCrown (s : State) : State :=
  if s.isDue (· == .crown) then s else (s.post (s.now + s.delay crownBound) .crown).spend

/-- A write that posts a command (R368): it is discarded, and sets OVF, while one of this mailbox is in progress. -/
def State.mailPost (s : State) (die op seq : Nat) : State :=
  let m := (s.die die).mbox
  if m.busy then s.onDie die (fun d => { d with mbox := { d.mbox with ovf := true } })
  else
    ((s.onDie die (fun d => { d with mbox := { d.mbox with op := op, seq := seq, busy := true } })).onCrown (fun c =>
      { c with queue := putMail (8 * s.now + die, op, seq, m.arg) c.queue })).postCrown

/-- The controller's next command (R368). -/
def State.crownStep (s : State) : State :=
  match s.crown.queue with
  | [] => s
  | (key, op, seq, arg) :: rest =>
    let s := (s.onCrown (fun c => { c with queue := rest })).mailCommand (key % 8) op seq arg
    if s.crown.queue.isEmpty then s else s.postCrown

/-- The command a die's mailbox holds is carried out now, as one of a given kind. -/
def State.mailEvent (s : State) (die op : Nat) : State :=
  let m := (s.die die).mbox
  (s.onCrown (fun c => { c with queue := c.queue.filter (fun e => e.1 % 8 != die) })).mailCommand die op m.seq m.arg

/-! ### Limits (R370, R373) -/

/-- A thermal trip (R370, R373): every ACTIVE context meets the fatal order, within the bound of R344, and the package then stands. -/
def State.trip (s : State) : State :=
  if s.crown.pstate ≠ 2 then s
  else
    let s := s.onCrown (fun c => { c with tripped := true })
    let live := (NMap.keys s.ctxs).filter (fun c => (s.context c).st == .active)
    if live.isEmpty then s.tripStands
    else live.foldl (fun s c => (s.fatal c { code := Code.killedByParent }).postEv (s.now + dumpLimit) (.evDumpTimeout c)) s

/-- Whether an entry is the end of a throttle of a die. -/
def Act.unthrottles (die : Nat) : Act → Bool
  | .unthrottle d => d == die
  | _ => false

/-- The hottest die takes no new task (R324, R373). -/
def State.throttle (s : State) (die : Nat) : State :=
  { s with agenda := s.agenda.filter (fun t => !t.act.unthrottles die), posted := s.posted.filter (fun t => !t.act.unthrottles die) }.onDie die
    (fun d => { d with throttled := true })

/-- Grants of a die resume (R373). -/
def State.unthrottle (s : State) (die : Nat) : State :=
  let s := s.onDie die (fun d => { d with throttled := false })
  ((NMap.keys s.cores).filter (fun c => dieOf c == die)).foldl (fun s c => s.postEv s.now (.evTaskGrant c)) s

/-- The quantity has fallen far enough below its limit: grants resume 1 ms later (R373, notes/assumptions/129). -/
def State.throttleResume (s : State) (die : Nat) : State :=
  if s.isDue (Act.unthrottles die) then s else s.post (s.now + msCycles) (.unthrottle die)

/-! ### Events -/

/-- `POWER_UP` (R366). -/
def execEvPowerUp (f : PowerFinding) (s : State) : Host.Outcome State Fault Refusal := .next (s.powerUp f)

/-- `IDENT` (R369, R371). -/
def execEvIdent (die : Nat) (s : State) : Host.Outcome State Fault Refusal := .next (s.mailEvent die 1)

/-- `ATTEST` (R369, R372). -/
def execEvAttest (die : Nat) (s : State) : Host.Outcome State Fault Refusal := .next (s.mailEvent die 2)

/-- `LOG` (R369). -/
def execEvLog (die : Nat) (s : State) : Host.Outcome State Fault Refusal := .next (s.mailEvent die 3)

/-- `STAGE` (R369). -/
def execEvStage (die : Nat) (s : State) : Host.Outcome State Fault Refusal := .next (s.mailEvent die 4)

/-- `COMMIT` (R367, R369). -/
def execEvCommit (die : Nat) (s : State) : Host.Outcome State Fault Refusal := .next (s.mailEvent die 5)

/-- `SMCRESET` (R291, R369). -/
def execEvSmcreset (die : Nat) (s : State) : Host.Outcome State Fault Refusal := .next (s.mailEvent die 6)

/-- `RESET` (R369). -/
def execEvReset (die : Nat) (s : State) : Host.Outcome State Fault Refusal := .next (s.mailEvent die 7)

/-- `THERMAL_TRIP` (R370, R373). -/
def execEvThermalTrip (s : State) : Host.Outcome State Fault Refusal := .next s.trip

/-- `THROTTLE` (R373). -/
def execEvThrottle (die : Nat) (s : State) : Host.Outcome State Fault Refusal := .next (s.throttle die)

/-- `THROTTLE_RESUME` (R373). -/
def execEvThrottleResume (die : Nat) (s : State) : Host.Outcome State Fault Refusal := .next (s.throttleResume die)

end Sys2Proof.Machine
end

