-- ==== Sys2Proof/Machine/Registers.lean ====
section
/-!
DEFINITION. The register block of a die (BAR0) and its local memory in BAR2 (R358), as the host reaches them: what a write of each
register does, what a read of it returns, and accesses to memory. A register is read and written whole, as 64 bits.
-/

namespace Sys2Proof.Machine

/-- The bits `lo` to `lo + n - 1` of a value, where they stand. -/
def field (v lo n : Nat) : Nat := bits v lo n * 2 ^ lo

/-- A bit as a number. -/
def ofBit (b : Bool) : Nat := if b then 1 else 0

/-- Whether the driver may write a context's registers (R333). -/
def CState.writable : CState → Bool
  | .free | .saved => true
  | _ => false

def CState.code : CState → Nat
  | .free => 0
  | .active => 1
  | .saving => 2
  | .saved => 3
  | .restoring => 4
  | .dumping => 5
  | .halted => 6

/-! ### Contexts (R333, R364) -/

/-- A context after a write of a configuration register. -/
def Context.configured (c : Context) (r v : Nat) : Context :=
  match r with
  | 0x00 => { c with opq := bits v 31 13, cpol := bits v 29 2, restart := bitOf v 28, nockpt := bitOf v 27, yards := bits v 20 4 }
  | 0x08 => { c with root := field v 8 40 }
  | 0x10 => { c with shbase := field v 6 51 }
  | 0x18 => { c with shlen := bits v 0 17 }
  | 0x20 => { c with htbase := field v 4 53 }
  | 0x28 => { c with tqbase := field v 7 50 }
  | 0x40 => { c with loft := field v 12 45 }
  | 0x48 => { c with save := field v 12 45 }
  | 0x50 => { c with savesz := bits v 32 32, loftsz := bits v 0 32 }
  | 0x58 => { c with tokmax := bits v 32 16, tokrate := bits v 16 16 }
  | 0x60 => { c with wdlog := bits v 32 6, drain := bits v 0 32 }
  | _ =>
    let w := (r - 0x80) / 8
    if 0x80 ≤ r ∧ r < 0xC0 then { c with caddr := NMap.set c.caddr w (field v 3 61), pubEn := NMap.set c.pubEn w (bitOf v 0) } else c

/-- The command a write of OP gives (R333); a reserved one is refused. -/
def State.opWrite (s : State) (ctx v : Nat) : State :=
  s.ctxCmd ctx (fun s =>
    match bits v 60 4 with
    | 1 => s.activate ctx
    | 2 => s.swapout ctx
    | 3 => s.swapin ctx
    | 4 => s.killCmd ctx
    | 5 => s.teardown ctx
    | 6 => s.replayCmd ctx
    | 7 => s.releaseCmd ctx (bits v 0 6)
    | _ => s.refuseCmd ctx)

/-- A write of a context's register (R333). -/
def State.ctxWrite (s : State) (ctx r v : Nat) : State :=
  match r with
  | 0x30 =>
    let s := if (s.context ctx).st.writable then s.onContext ctx (fun c => { c with tqlog := bits v 32 5 }) else s
    s.tqheadWrite ctx (bits v 0 32)
  | 0x68 => s.opWrite ctx v
  | 0x78 => s.dbgenWrite ctx v
  | _ => if (s.context ctx).st.writable then s.onContext ctx (fun c => c.configured r v) else s

/-- A read of a context's register. -/
def State.ctxRead (s : State) (ctx r : Nat) : Nat :=
  let c := s.context ctx
  match r with
  | 0x00 => c.opq * 2 ^ 31 + c.cpol * 2 ^ 29 + ofBit c.restart * 2 ^ 28 + ofBit c.nockpt * 2 ^ 27 + c.st.code * 2 ^ 24 + c.yards * 2 ^ 20
  | 0x08 => c.root
  | 0x10 => c.shbase
  | 0x18 => c.shlen
  | 0x20 => c.htbase
  | 0x28 => c.tqbase
  | 0x30 => c.tqhead + c.tqlog * 2 ^ 32
  | 0x38 => c.tqtail + ofBit c.fslot.isSome * 2 ^ 32
  | 0x40 => c.loft
  | 0x48 => c.save
  | 0x50 => c.loftsz + c.savesz * 2 ^ 32
  | 0x58 => c.tokens + c.tokrate * 2 ^ 16 + c.tokmax * 2 ^ 32
  | 0x60 => c.drain + c.wdlog * 2 ^ 32
  | 0x70 => c.cause + c.cmdst * 2 ^ 8
  | 0x78 => c.dbgen &&& s.partMask ctx
  | _ =>
    let w := (r - 0x80) / 8
    if 0x80 ≤ r ∧ r < 0xC0 then NMap.get 0 c.caddr w + ofBit (NMap.get false c.pubEn w) else 0

/-! ### Launch queues (R315) -/

/-- A write of a launch queue's register. One of TAIL is applied after those of its cycle that come from peers (R362). -/
def State.launchWrite (s : State) (key r v : Nat) : State :=
  match r with
  | 0x00 => (s.onLaunch key (fun l => { l with base := field v 6 51 })).postIntake (key / 256)
  | 0x08 => (s.onLaunch key (fun l => { l with en := bitOf v 7, qprio := bits v 4 3, lcnt := bits v 0 4 })).postIntake (key / 256)
  | 0x10 =>
    let s := if bitOf v 32 then s.onLaunch key (fun l => { l with ovf := false }) else s
    s.postEv s.now (.evLaunchTailWrite (key / 4) (key % 4) (BitVec.ofNat 32 v) none)
  | _ => s

def State.launchRead (s : State) (key r : Nat) : Nat :=
  let l := s.launchQ key
  match r with
  | 0x00 => l.base
  | 0x08 => l.lcnt + l.qprio * 2 ^ 4 + ofBit l.en * 2 ^ 7
  | 0x10 => l.tail + ofBit l.ovf * 2 ^ 32
  | _ => l.head

/-! ### Multicast windows (R224, R332) -/

/-- Whether a context holds a yard, or one in RESTORING names it. -/
def State.yardTaken (s : State) (die yard : Nat) : Bool :=
  (List.range 64).any (fun i =>
    let c := s.context (64 * die + i)
    (c.st.holds || c.st == .restoring) && bitOf c.yards yard)

/-- A write of a window entry. -/
def State.winWrite (s : State) (die yard w v : Nat) : State :=
  let tb := bits v 0 22
  if tb % 64 ≠ 0 ∨ 0x2FFFFF < tb + 0xFFFF ∨ s.yardTaken die yard then s
  else s.onDie die (fun d => { d with win := NMap.put 0 d.win (16 * yard + w) (word (field v 63 1 + field v 22 16 + tb)) })

/-! ### The other blocks -/

/-- The bits of a word of an access-control entry that hold something (R363). -/
def aclField (j v : Nat) : Nat :=
  match j with
  | 0 => field v 63 1 + bits v 0 26
  | 1 => field v 12 45
  | 2 => bits v 0 32
  | _ => 0

/-- A write of the second register of an Ewen port (R360). -/
def State.ewenWrite (s : State) (p v : Nat) : State :=
  let s := s.onEwen p (fun e => { e with vmin := bits v 8 8, vmax := bits v 0 8 })
  if bitOf v 16 then s.ewenRetrain p else s

/-- A write of the mailbox (R368). -/
def State.mailWrite (s : State) (die r v : Nat) : State :=
  match r with
  | 0x00 => s.mailPost die (bits v 32 8) (bits v 0 32)
  | 0x08 => s.onDie die (fun d => { d with mbox := { d.mbox with arg := word v } })
  | 0x10 => if bitOf v 41 then s.onDie die (fun d => { d with mbox := { d.mbox with ovf := false } }) else s
  | _ =>
    if 0x100 ≤ r ∧ r < 0x900 then
      s.onDie die (fun d => { d with mbox := { d.mbox with
        data := (List.zip (List.range 8) (toBytes 8 v)).foldl (fun m e => NMap.put 0 m (r - 0x100 + e.1) e.2) d.mbox.data } })
    else s

def State.mailRead (s : State) (die r : Nat) : Nat :=
  let m := (s.die die).mbox
  match r with
  | 0x00 => m.op * 2 ^ 32
  | 0x08 => m.arg.toNat
  | 0x10 => m.ack + m.status * 2 ^ 32 + ofBit m.busy * 2 ^ 40 + ofBit m.ovf * 2 ^ 41
  | 0x18 => m.len
  | 0x20 => s.crown.pstate + s.crown.cause * 2 ^ 8
  | _ => if 0x100 ≤ r ∧ r < 0x900 then ofBytes ((List.range 8).map (fun i => NMap.get 0 m.data (r - 0x100 + i))) else 0

/-- A circuit's entry as a die reads it (R354). -/
def State.circuitRead (s : State) (die d : Nat) : Nat :=
  let c := s.circuit die d
  let st := match c.st with
    | .none => 0
    | .setup => 1
    | .up => 2
    | .degraded => 3
    | .down => 4
    | .reset => 5
  if d = die then 0 else c.epoch + c.ver * 2 ^ 32 + c.wcfg * 2 ^ 47 + c.wl * 2 ^ 54 + st * 2 ^ 61

/-- An Ewen port's registers (R360). -/
def State.ewenRead (s : State) (p r : Nat) : Nat :=
  let e := s.ewenPort p
  let st := match e.st with
    | .down => 0
    | .train => 1
    | .up => 2
    | .degraded => 3
    | .verr => 4
  match r with
  | 0x00 => e.retry + e.peer * 2 ^ 32 + e.ver * 2 ^ 48 + e.lanes * 2 ^ 56 + st * 2 ^ 61
  | 0x08 => min e.vmax 1 + min e.vmin 1 * 2 ^ 8
  | _ => 0

/-- The memory-control registers (R292). -/
def State.mstat (s : State) (die : Nat) : Nat :=
  let d := s.die die
  d.cecnt + ofBit (NMap.get false d.fb 0) * 2 ^ 32 + ofBit (NMap.get false d.fb 1) * 2 ^ 33 + d.hbmiss * 2 ^ 40 + s.npc die * 2 ^ 48

/-! ### The register block -/

/-- A write below the blocks of queues and contexts (R272, R292). -/
def State.dieWrite (s : State) (die off : Nat) (v : Word) : State :=
  match off with
  | 0x00 => s.onDie die (fun d => { d with invVa := field v.toNat 16 41 })
  | 0x08 => s.onDie die (fun d => { d with invCount := bits v.toNat 0 41 })
  | 0x10 => s.invPost die v
  | 0x18 => if bitOf v.toNat 33 then s.onDie die (fun d => { d with invOvf := false }) else s
  | 0x100 => s.writeMctl die v
  | _ => s

def State.dieRead (s : State) (die off : Nat) : Nat :=
  let d := s.die die
  match off with
  | 0x00 => d.invVa
  | 0x08 => d.invCount
  | 0x18 => d.invAck + ofBit d.invOvf * 2 ^ 33
  | 0x100 =>
    match d.mctlNext with
    | some v => bits v.2.toNat 0 48
    | none => d.pdidle + d.sridle * 2 ^ 16
  | 0x108 => s.mstat die
  | 0x110 => d.pcmap0
  | 0x118 => d.pcmap1
  | 0x800 => 1
  | _ => 0

/-- A write of a register of a die that runs. -/
def State.blockWrite (s : State) (die off : Nat) (v : Word) : State :=
  let n := v.toNat
  let r := off % 0x10000
  match off / 0x10000 with
  | 0 => s.dieWrite die off v
  | 1 => if r < 0x2000 then s.launchWrite (4 * (64 * die + r / 0x80) + r / 0x20 % 4) (r % 0x20) n else s
  | 2 => if r < 0x4000 then s.ctxWrite (64 * die + r / 0x100) (r % 0x100) n else s
  | 3 => if r < 0x200 then s.winWrite die (r / 0x80) (r / 8 % 16) n else s
  | 4 => if r = 0x80 ∧ bitOf n 8 then s.onDie die (fun d => { d with fatalFull := false }) else s
  | 5 => if r = 0x40 then s.circuitRetrain die (bits n 0 8) else s
  | 6 => if r < 0x400 ∧ r % 0x40 = 8 then s.ewenWrite (r / 0x40) n else s
  | 7 => if r < 0x800 then s.onDie die (fun d => { d with acl := NMap.put 0 d.acl (r / 8) (word (aclField (r / 8 % 4) n)) }) else s
  | _ => s

/-- A read of a register of a die that runs. -/
def State.blockRead (s : State) (die off : Nat) : Nat :=
  let r := off % 0x10000
  let d := s.die die
  match off / 0x10000 with
  | 0 => s.dieRead die off
  | 1 => if r < 0x2000 then s.launchRead (4 * (64 * die + r / 0x80) + r / 0x20 % 4) (r % 0x20) else 0
  | 2 => if r < 0x4000 then s.ctxRead (64 * die + r / 0x100) (r % 0x100) else 0
  | 3 => if r < 0x200 then (NMap.get (0 : Word) d.win (16 * (r / 0x80) + r / 8 % 16)).toNat else 0
  | 4 =>
    if r < 0x80 then (d.fatalRec.getD (r / 8) 0).toNat
    else if r = 0x80 then d.fatalCtx + ofBit d.fatalFull * 2 ^ 8 + d.fatalCount * 2 ^ 16
    else 0
  | 5 => if r < 0x40 then s.circuitRead die (r / 8) else 0
  | 6 => if r < 0x400 then s.ewenRead (r / 0x40) (r % 0x40) else 0
  | 7 => if r < 0x800 then (NMap.get (0 : Word) d.acl (r / 8)).toNat else 0
  | _ => 0

/-- A host write of a register (R358): in STANDING only the mailbox takes one (R370). -/
def State.regWrite (s : State) (die off : Nat) (v : Word) : State :=
  if (s.die die).inReset ∨ off % 8 ≠ 0 ∨ s.crown.pstate < 2 then s
  else if off / 0x10000 = 8 then s.mailWrite die (off % 0x10000) v.toNat
  else if s.crown.pstate = 2 then s.blockWrite die off v
  else s

/-- A host read of a register (R358): in STANDING every register outside the mailbox reads zero (R370). -/
def State.regRead (s : State) (die off : Nat) : Word :=
  if (s.die die).inReset ∨ off % 8 ≠ 0 ∨ s.crown.pstate < 2 then 0
  else if off / 0x10000 = 8 then word (s.mailRead die (off % 0x10000))
  else if s.crown.pstate = 2 then word (s.blockRead die off)
  else 0

/-! ### BAR2 (R358) -/

/-- The context number of an access that belongs to none: a SYSTEM agent's. -/
def noContext : Nat := 512

/-- A write to local memory from outside the package. -/
def State.systemWrite (s : State) (die pa len v : Nat) : State :=
  s.writeLocal die noContext {} (len / 32 + 2) pa ((toBytes len v).map some)

/-- What an access to BAR2 completes with (R358): a read with its data, an AtomicOp with the old value, and nothing for a posted write. A
read above N GiB, and every access while the function enumerates with BAR0 only, is an Unsupported Request (R370). -/
def State.bar2Answer (s : State) (die : Nat) (k : BarKind) (pa len : Nat) : Completion :=
  match k with
  | .write => (s.die die).cpl
  | _ => if !s.dieRuns die ∨ s.npc die * 2 ^ 30 < pa + len then .unsupported else .data (toBytes len (s.localWord die pa len))

/-- An access to BAR2: reads check and scrub what they read (R293), writes follow R294, and AtomicOps of 4 and 8 bytes are done at
the home (R255, R358). Beyond N GiB a write is discarded. -/
def State.bar2 (s : State) (die : Nat) (k : BarKind) (pa len : Nat) (data cmp : Word) : State :=
  let cpl := s.bar2Answer die k pa len
  let answered (s : State) : State := match k with
    | .write => s
    | _ => s.onDie die (fun d => { d with cpl := cpl })
  if !s.dieRuns die ∨ s.npc die * 2 ^ 30 < pa + len then answered s
  else
    let old := s.localWord die pa len
    let atom (v : Nat) : State := if len = 4 ∨ len = 8 then (s.scrubRun (.loc die pa) len).systemWrite die pa len v else s
    answered (match k with
    | .read => s.scrubRun (.loc die pa) len
    | .write => s.systemWrite die pa len data.toNat
    | .fetchAdd => atom (old + data.toNat)
    | .swap => atom data.toNat
    | .cas => if old = cmp.toNat % 2 ^ (8 * len) then atom data.toNat else atom old)

/-! ### Events -/

/-- `REGISTER_WRITE` (R358). -/
def execEvRegisterWrite (die off : Nat) (v : Word) (s : State) : Host.Outcome State Fault Refusal := .next (s.regWrite die off v)

/-- `BAR2_ACCESS` (R358). -/
def execEvBar2Access (die : Nat) (k : BarKind) (addr len : Nat) (data cmp : Word) (s : State) : Host.Outcome State Fault Refusal :=
  .next (s.bar2 die k addr len data cmp)

end Sys2Proof.Machine
end

