-- ==== Sys2Proof/Machine/Acts.lean ====
section
/-!
DEFINITION. What each entry of the agenda does when it is due, and where an instruction is placed so that the next step
runs it.
-/

namespace Sys2Proof.Machine

/-- Performs one entry of the agenda: an event's meaning, the issue of a bundle, or a part of the machine's own work. -/
def State.perform (s : State) (ex : Instr → State → Host.Outcome State Fault Refusal) : Act → Host.Outcome State Fault Refusal
  | .ev i => if i.wf then ex i s else .next s
  | .issue core gen => s.issueAct ex core gen
  | .sample core req => .next (s.sampleAct core req)
  | .move core => .next (s.moveStep core)
  | .padBank core l => .next (s.padBank core l)
  | .micro u => s.microAct ex u
  | .fill core q slot bs _ => .next (s.fillSlot core q slot s.now (s.now + 1) 0 bs true false)
  | .land core x bs r => .next ((s.atYard core (fun w s => s.post w (.land core x bs r)) (fun s => s.agentPut core x bs (infoOf r))).emitsLanded core)
  | .bar core b n code _ src => .next (s.barLands core b n code src)
  | .late core => .next (s.lateDue core (s.core core).t.late.length)
  | .release core q => .next (s.releaseQ core q)
  | .signal core sem n src => .next (s.semAdd core sem n src)
  | .barTest core bar => .next (s.barTest core bar)
  | .tdep core c => .next ((s.tdepAct core c).postEv s.now (.evGroupEnd c.grp))
  | .dep ctx grp idx unit src => .next (s.depLands ctx grp idx unit src)
  | .crown => .next s.crownStep
  | .inval die => .next (s.invApply die)
  | .setupEnds a b wl => .next (s.circuitTrained a b wl true)
  | .opSignal core sem n _ src => .next (s.semAdd core sem n src)
  | .trainEnds port lanes vmin vmax peer => .next (s.ewenTrained port lanes vmin vmax peer)
  | .unthrottle die => .next (s.unthrottle die)

/-- The state with the entry `t` of the agenda under way. -/
def State.takeDue (s : State) (t : Timed) (rest : List Timed) : State := { s with now := max s.now t.due, agenda := rest }

/-- The outcome with everything that was posted in the agenda. -/
def settleOutcome (n : Nat) : Host.Outcome State Fault Refusal → Host.Outcome State Fault Refusal
  | .next s => .next (s.settle n)
  | .fault r => .fault r
  | .refused r => .refused r

/-- The bytes of a bundle that holds one instruction of the opcode table and nothing else (R60). -/
def tableBytes (nbits w : Nat) : List Byte :=
  match decodeTableEnc nbits w with
  | some (.hdr, _) => leBytes 2 w
  | some (e, _) => oneBayBundle false 0 e
  | none =>
    match tableEncs nbits w with
    | e :: _ => oneBayBundle false 0 e
    | [] => leBytes (nbits / 8) w

/-- Whether a table word is read as a micro-op of a bank unit. -/
def tableIsMicro (nbits w : Nat) : Bool :=
  match decodeTableEnc nbits w with
  | some (.bu _, _) => true
  | _ => false

/-- A task runs on core 0 of die 0 in an active context 0, its program counter at address 0, and its instruction buffer
holds these bytes there. -/
def State.placeBundle (s : State) (bs : List Byte) : State :=
  let blk := (bs ++ List.replicate 128 0).take 64
  let s := s.onContext 0 (fun c => { c with st := .active, yards := 1, opq := 8191 })
  let s := s.onCore 0 (fun c => { c with
    ctx := some 0, codeLen := 128, held := [(0, blk), (1, List.replicate 64 0)],
    t := { c.t with mode := .running, pc := 0 } })
  { s with agenda := { due := s.now, act := .issue 0 (s.core 0).gen } :: s.agenda }

/-- Bank unit 0 runs a program whose first micro-op is this word, handed to it by a `BURUN` of core 0 in an active context 0 that
may emit 4,096 blocks at scratchpad address 0. -/
def State.placeMicro (s : State) (w : Nat) : State :=
  let s := s.onContext 0 (fun c => { c with st := .active, yards := 1, opq := 8191 })
  let s := s.onCore 0 (fun c => { c with ctx := some 0 })
  let run : Cmd :=
    { ins := .burun { we := false, wsem := 0, wthr := 0, wc := false, ssem := 0, sinc := 0, tv := false, tok := 0 } (.imm 0) (.imm 0) (.imm 0),
      vals := [0, 0, 4096] }
  let s := s.onUnit 0 (fun u => { u with store := NMap.set u.store 0 (BitVec.ofNat 32 w), running := true, mpc := 0,
                                         work := [.run 0 run none] })
  { s with agenda := { due := s.now, act := .micro 0 } :: s.agenda }

end Sys2Proof.Machine
end

