-- ==== Sys2Proof/Machine/Dispatch.lean ====
section
/-!
DEFINITION. Which meaning each instruction has: one arm for each constructor of `Instr`.
-/

namespace Sys2Proof.Machine

def exec (i : Instr) (s : State) : Host.Outcome State Fault Refusal :=
  match i with
  | .nop => Sys2Proof.Machine.execNop s
  | .jmp t => Sys2Proof.Machine.execJmp t s
  | .jmpi a => Sys2Proof.Machine.execJmpi a s
  | .brz a t => Sys2Proof.Machine.execBrz a t s
  | .brnz a t => Sys2Proof.Machine.execBrnz a t s
  | .call d t => Sys2Proof.Machine.execCall d t s
  | .ret a => Sys2Proof.Machine.execRet a s
  | .loop d t => Sys2Proof.Machine.execLoop d t s
  | .waitc c consume t => Sys2Proof.Machine.execWaitc c consume t s
  | .sigc c remote n ix => Sys2Proof.Machine.execSigc c remote n ix s
  | .tend => Sys2Proof.Machine.execTend s
  | .trap a code => Sys2Proof.Machine.execTrap a code s
  | .brk code => Sys2Proof.Machine.execBrk code s
  | .add b d x y => Sys2Proof.Machine.execAdd b d x y s
  | .sub b d x y => Sys2Proof.Machine.execSub b d x y s
  | .addi b d x imm => Sys2Proof.Machine.execAddi b d x imm s
  | .mul b d x y => Sys2Proof.Machine.execMul b d x y s
  | .mulh b d x y => Sys2Proof.Machine.execMulh b d x y s
  | .mulhn b d x y => Sys2Proof.Machine.execMulhn b d x y s
  | .div b d x y => Sys2Proof.Machine.execDiv b d x y s
  | .divn b d x y => Sys2Proof.Machine.execDivn b d x y s
  | .rem b d x y => Sys2Proof.Machine.execRem b d x y s
  | .remn b d x y => Sys2Proof.Machine.execRemn b d x y s
  | .and b d x y => Sys2Proof.Machine.execAnd b d x y s
  | .or b d x y => Sys2Proof.Machine.execOr b d x y s
  | .xor b d x y => Sys2Proof.Machine.execXor b d x y s
  | .andn b d x y => Sys2Proof.Machine.execAndn b d x y s
  | .orn b d x y => Sys2Proof.Machine.execOrn b d x y s
  | .shl b d x y => Sys2Proof.Machine.execShl b d x y s
  | .shrl b d x y => Sys2Proof.Machine.execShrl b d x y s
  | .shra b d x y => Sys2Proof.Machine.execShra b d x y s
  | .rotl b d x y => Sys2Proof.Machine.execRotl b d x y s
  | .rotr b d x y => Sys2Proof.Machine.execRotr b d x y s
  | .clz b d x => Sys2Proof.Machine.execClz b d x s
  | .ctz b d x => Sys2Proof.Machine.execCtz b d x s
  | .popc b d x => Sys2Proof.Machine.execPopc b d x s
  | .min b d x y => Sys2Proof.Machine.execMin b d x y s
  | .max b d x y => Sys2Proof.Machine.execMax b d x y s
  | .minn b d x y => Sys2Proof.Machine.execMinn b d x y s
  | .maxn b d x y => Sys2Proof.Machine.execMaxn b d x y s
  | .cmp b cc d x y => Sys2Proof.Machine.execCmp b cc d x y s
  | .sel b d c x y => Sys2Proof.Machine.execSel b d c x y s
  | .li b d imm => Sys2Proof.Machine.execLi b d imm s
  | .lui b d x imm => Sys2Proof.Machine.execLui b d x imm s
  | .lea b d x y scale off => Sys2Proof.Machine.execLea b d x y scale off s
  | .bfx b d x p sx w => Sys2Proof.Machine.execBfx b d x p sx w s
  | .bfi b d x p w => Sys2Proof.Machine.execBfi b d x p w s
  | .sext b d x n => Sys2Proof.Machine.execSext b d x n s
  | .zext b d x n => Sys2Proof.Machine.execZext b d x n s
  | .mov b d x => Sys2Proof.Machine.execMov b d x s
  | .ld d base off m => Sys2Proof.Machine.execLd d base off m s
  | .st v base off m => Sys2Proof.Machine.execSt v base off m s
  | .ldsp d base off wid sx => Sys2Proof.Machine.execLdsp d base off wid sx s
  | .stsp v base off wid => Sys2Proof.Machine.execStsp v base off wid s
  | .amo d addr v kind ord wid scope => Sys2Proof.Machine.execAmo d addr v kind ord wid scope s
  | .fence kind scope uo => Sys2Proof.Machine.execFence kind scope uo s
  | .fenceCode scope => Sys2Proof.Machine.execFenceCode scope s
  | .isync => Sys2Proof.Machine.execIsync s
  | .spst v idx lease => Sys2Proof.Machine.execSpst v idx lease s
  | .spld d idx lease => Sys2Proof.Machine.execSpld d idx lease s
  | .srd d r => Sys2Proof.Machine.execSrd d r s
  | .swr a r => Sys2Proof.Machine.execSwr a r s
  | .cycest a => Sys2Proof.Machine.execCycest a s
  | .setprio a => Sys2Proof.Machine.execSetprio a s
  | .vadd h d a b sat => Sys2Proof.Machine.execVadd h d a b sat s
  | .vsub h d a b sat => Sys2Proof.Machine.execVsub h d a b sat s
  | .vmul h d a b sat => Sys2Proof.Machine.execVmul h d a b sat s
  | .vfma h d a b c => Sys2Proof.Machine.execVfma h d a b c s
  | .vfms h d a b c => Sys2Proof.Machine.execVfms h d a b c s
  | .vneg h d a sat => Sys2Proof.Machine.execVneg h d a sat s
  | .vabs h d a sat => Sys2Proof.Machine.execVabs h d a sat s
  | .vmin h d a b => Sys2Proof.Machine.execVmin h d a b s
  | .vmax h d a b => Sys2Proof.Machine.execVmax h d a b s
  | .vrcp h d a => Sys2Proof.Machine.execVrcp h d a s
  | .vrsq h d a => Sys2Proof.Machine.execVrsq h d a s
  | .vsqrt h d a => Sys2Proof.Machine.execVsqrt h d a s
  | .vexp2 h d a => Sys2Proof.Machine.execVexp2 h d a s
  | .vlog2 h d a => Sys2Proof.Machine.execVlog2 h d a s
  | .vcmp h d a b mw cc => Sys2Proof.Machine.execVcmp h d a b mw cc s
  | .vsel h d a b c => Sys2Proof.Machine.execVsel h d a b c s
  | .vand h d a b => Sys2Proof.Machine.execVand h d a b s
  | .vor h d a b => Sys2Proof.Machine.execVor h d a b s
  | .vxor h d a b => Sys2Proof.Machine.execVxor h d a b s
  | .vnot h d a => Sys2Proof.Machine.execVnot h d a s
  | .vshl h d a b => Sys2Proof.Machine.execVshl h d a b s
  | .vshr h d a b => Sys2Proof.Machine.execVshr h d a b s
  | .vshra h d a b => Sys2Proof.Machine.execVshra h d a b s
  | .vcvt h d a p sh => Sys2Proof.Machine.execVcvt h d a p sh s
  | .vquant h d a sh z p fp => Sys2Proof.Machine.execVquant h d a sh z p fp s
  | .vredsum h d a w sat => Sys2Proof.Machine.execVredsum h d a w sat s
  | .vredmax h d a w => Sys2Proof.Machine.execVredmax h d a w s
  | .vredmin h d a w => Sys2Proof.Machine.execVredmin h d a w s
  | .vscan h d a sat op => Sys2Proof.Machine.execVscan h d a sat op s
  | .vperm h d a idx => Sys2Proof.Machine.execVperm h d a idx s
  | .vbcast h d a n => Sys2Proof.Machine.execVbcast h d a n s
  | .vslide h d a b sh => Sys2Proof.Machine.execVslide h d a b sh s
  | .viota h d a b => Sys2Proof.Machine.execViota h d a b s
  | .vpack h d a b sat => Sys2Proof.Machine.execVpack h d a b sat s
  | .vunpack h d a p => Sys2Proof.Machine.execVunpack h d a p s
  | .vld h d a off => Sys2Proof.Machine.execVld h d a off s
  | .vst h v a off => Sys2Proof.Machine.execVst h v a off s
  | .vgather h d a idx => Sys2Proof.Machine.execVgather h d a idx s
  | .vmov h d a => Sys2Proof.Machine.execVmov h d a s
  | .mand md ma mb => Sys2Proof.Machine.execMand md ma mb s
  | .mor md ma mb => Sys2Proof.Machine.execMor md ma mb s
  | .mnot md ma => Sys2Proof.Machine.execMnot md ma s
  | .mpopc d ma => Sys2Proof.Machine.execMpopc d ma s
  | .vosm h d p q st out => Sys2Proof.Machine.execVosm h d p q st out s
  | .mma h p => Sys2Proof.Machine.execMma h p s
  | .mdist h p => Sys2Proof.Machine.execMdist h p s
  | .mtopk h eng fmt dacc sacc base km1 dir init msk => Sys2Proof.Machine.execMtopk h eng fmt dacc sacc base km1 dir init msk s
  | .mzero h eng amask => Sys2Proof.Machine.execMzero h eng amask s
  | .mdrain h eng fmt acc dst msk mode rnd sc za => Sys2Proof.Machine.execMdrain h eng fmt acc dst msk mode rnd sc za s
  | .mldacc h eng fmt acc src msk mode bro => Sys2Proof.Machine.execMldacc h eng fmt acc src msk mode bro s
  | .sld eng entry a size => Sys2Proof.Machine.execSld eng entry a size s
  | .sfmt eng entry cv => Sys2Proof.Machine.execSfmt eng entry cv s
  | .cpy h s0 s1 fmt ca => Sys2Proof.Machine.execCpy h s0 s1 fmt ca s
  | .cpyg h s0 s1 ca => Sys2Proof.Machine.execCpyg h s0 s1 ca s
  | .cpys h s0 s1 ca => Sys2Proof.Machine.execCpys h s0 s1 ca s
  | .cpyx h s0 s1 ca => Sys2Proof.Machine.execCpyx h s0 s1 ca s
  | .cpysc h s0 s1 ca => Sys2Proof.Machine.execCpysc h s0 s1 ca s
  | .cplan h s0 ca => Sys2Proof.Machine.execCplan h s0 ca s
  | .cstep h n => Sys2Proof.Machine.execCstep h n s
  | .subs h s0 s1 ca => Sys2Proof.Machine.execSubs h s0 s1 ca s
  | .unsubs h q => Sys2Proof.Machine.execUnsubs h q s
  | .callred h s0 s1 ca => Sys2Proof.Machine.execCallred h s0 s1 ca s
  | .cred h s0 s1 ca => Sys2Proof.Machine.execCred h s0 s1 ca s
  | .cbc h s0 s1 ca => Sys2Proof.Machine.execCbc h s0 s1 ca s
  | .cag h s0 s1 ca => Sys2Proof.Machine.execCag h s0 s1 ca s
  | .crsc h s0 s1 ca => Sys2Proof.Machine.execCrsc h s0 s1 ca s
  | .opwait h id => Sys2Proof.Machine.execOpwait h id s
  | .opcancel h id => Sys2Proof.Machine.execOpcancel h id s
  | .opdetach h id => Sys2Proof.Machine.execOpdetach h id s
  | .opadopt h id => Sys2Proof.Machine.execOpadopt h id s
  | .opquery h id => Sys2Proof.Machine.execOpquery h id s
  | .qinit h q base lsz lcnt scope => Sys2Proof.Machine.execQinit h q base lsz lcnt scope s
  | .qspliceSend h ql qr die x y => Sys2Proof.Machine.execQspliceSend h ql qr die x y s
  | .qspliceRecv h ql qr die x y => Sys2Proof.Machine.execQspliceRecv h ql qr die x y s
  | .qunsplice h q => Sys2Proof.Machine.execQunsplice h q s
  | .qreset h q free => Sys2Proof.Machine.execQreset h q free s
  | .qstat h q => Sys2Proof.Machine.execQstat h q s
  | .qpush h q a => Sys2Proof.Machine.execQpush h q a s
  | .qpop h q a => Sys2Proof.Machine.execQpop h q a s
  | .binit h b => Sys2Proof.Machine.execBinit h b s
  | .bexpect h b n => Sys2Proof.Machine.execBexpect h b n s
  | .barrive h b n rem core => Sys2Proof.Machine.execBarrive h b n rem core s
  | .bwait h b p => Sys2Proof.Machine.execBwait h b p s
  | .bclear h b free => Sys2Proof.Machine.execBclear h b free s
  | .bufdecl h k base size tag => Sys2Proof.Machine.execBufdecl h k base size tag s
  | .bufset h k st force => Sys2Proof.Machine.execBufset h k st force s
  | .bqpost h qb dst ca => Sys2Proof.Machine.execBqpost h qb dst ca s
  | .buprog h va sp => Sys2Proof.Machine.execBuprog h va sp s
  | .burun h va dst lim => Sys2Proof.Machine.execBurun h va dst lim s
  | .bustat h va => Sys2Proof.Machine.execBustat h va s
  | .tlaunch h rec => Sys2Proof.Machine.execTlaunch h rec s
  | .tdep h idx => Sys2Proof.Machine.execTdep h idx s
  | .lease h e core words fb => Sys2Proof.Machine.execLease h e core words fb s
  | .leaseRcl h => Sys2Proof.Machine.execLeaseRcl h s
  | .lfree h e => Sys2Proof.Machine.execLfree h e s
  | .publish h win => Sys2Proof.Machine.execPublish h win s
  | .buhalt => Sys2Proof.Machine.execBuhalt s
  | .burow => Sys2Proof.Machine.execBurow s
  | .buldw d w => Sys2Proof.Machine.execBuldw d w s
  | .buwid d off fmt => Sys2Proof.Machine.execBuwid d off fmt s
  | .bufadd d a b => Sys2Proof.Machine.execBufadd d a b s
  | .bufmul d a b => Sys2Proof.Machine.execBufmul d a b s
  | .bufmax d a b => Sys2Proof.Machine.execBufmax d a b s
  | .bufma d a b => Sys2Proof.Machine.execBufma d a b s
  | .buiadd d a b => Sys2Proof.Machine.execBuiadd d a b s
  | .bubc d a j => Sys2Proof.Machine.execBubc d a j s
  | .bursum d a => Sys2Proof.Machine.execBursum d a s
  | .buexp d a => Sys2Proof.Machine.execBuexp d a s
  | .buzero d => Sys2Proof.Machine.execBuzero d s
  | .busetlc n => Sys2Proof.Machine.execBusetlc n s
  | .buloop j => Sys2Proof.Machine.execBuloop j s
  | .buemit a => Sys2Proof.Machine.execBuemit a s
  | .evFetchBlockArrive core blk => Sys2Proof.Machine.execEvFetchBlockArrive core blk s
  | .evPageWalkReturn core => Sys2Proof.Machine.execEvPageWalkReturn core s
  | .evLoadDataArrive core req => Sys2Proof.Machine.execEvLoadDataArrive core req s
  | .evWritePerformed core req => Sys2Proof.Machine.execEvWritePerformed core req s
  | .evEscapementSlot die p owner => Sys2Proof.Machine.execEvEscapementSlot die p owner s
  | .evRotationBoundary die p => Sys2Proof.Machine.execEvRotationBoundary die p s
  | .evFallbackRefreshTakeover die stack => Sys2Proof.Machine.execEvFallbackRefreshTakeover die stack s
  | .evScaleWriteLand core => Sys2Proof.Machine.execEvScaleWriteLand core s
  | .evMatrixHead core eng => Sys2Proof.Machine.execEvMatrixHead core eng s
  | .evMatrixFetchStart core eng => Sys2Proof.Machine.execEvMatrixFetchStart core eng s
  | .evMatrixFetchEnd core eng => Sys2Proof.Machine.execEvMatrixFetchEnd core eng s
  | .evMatrixArrayStart core eng => Sys2Proof.Machine.execEvMatrixArrayStart core eng s
  | .evMdrainLineWrite core op line => Sys2Proof.Machine.execEvMdrainLineWrite core op line s
  | .evOpStart op => Sys2Proof.Machine.execEvOpStart op s
  | .evCopyLine op => Sys2Proof.Machine.execEvCopyLine op s
  | .evOpComplete op => Sys2Proof.Machine.execEvOpComplete op s
  | .evPlanEntryHandoff core => Sys2Proof.Machine.execEvPlanEntryHandoff core s
  | .evGroomTileFill op => Sys2Proof.Machine.execEvGroomTileFill op s
  | .evCollectiveJoin op => Sys2Proof.Machine.execEvCollectiveJoin op s
  | .evCommandHead core unit => Sys2Proof.Machine.execEvCommandHead core unit s
  | .evSemaphoreIncrementLand core sem inc src => Sys2Proof.Machine.execEvSemaphoreIncrementLand core sem inc src s
  | .evRemoteArrivalLand core bar n src => Sys2Proof.Machine.execEvRemoteArrivalLand core bar n src s
  | .evMulticastWriteLand core addr src fell bytes => Sys2Proof.Machine.execEvMulticastWriteLand core addr src fell bytes s
  | .evSpliceDataArrive core q m => Sys2Proof.Machine.execEvSpliceDataArrive core q m s
  | .evHello core q fromCore fromQ size reach => Sys2Proof.Machine.execEvHello core q fromCore fromQ size reach s
  | .evHelloResend core q serial => Sys2Proof.Machine.execEvHelloResend core q serial s
  | .evGrant core q n => Sys2Proof.Machine.execEvGrant core q n s
  | .evRefuse core q code => Sys2Proof.Machine.execEvRefuse core q code s
  | .evCredit core q serial => Sys2Proof.Machine.execEvCredit core q serial s
  | .evEnd core q => Sys2Proof.Machine.execEvEnd core q s
  | .evPause core q => Sys2Proof.Machine.execEvPause core q s
  | .evPauseAck core q => Sys2Proof.Machine.execEvPauseAck core q s
  | .evResume core q => Sys2Proof.Machine.execEvResume core q s
  | .evSpliceLoss core q => Sys2Proof.Machine.execEvSpliceLoss core q s
  | .evLeaseGrantLand core e lender words fb rev => Sys2Proof.Machine.execEvLeaseGrantLand core e lender words fb rev s
  | .evLeaseRevocation core e => Sys2Proof.Machine.execEvLeaseRevocation core e s
  | .evFallbackLineWrite core e line => Sys2Proof.Machine.execEvFallbackLineWrite core e line s
  | .evYardGate die yard => Sys2Proof.Machine.execEvYardGate die yard s
  | .evTaskReady grp idx => Sys2Proof.Machine.execEvTaskReady grp idx s
  | .evTaskGrant core => Sys2Proof.Machine.execEvTaskGrant core s
  | .evTaskDone core => Sys2Proof.Machine.execEvTaskDone core s
  | .evGroupEnd grp => Sys2Proof.Machine.execEvGroupEnd grp s
  | .evLaunchTailWrite ctx q v src => Sys2Proof.Machine.execEvLaunchTailWrite ctx q v src s
  | .evPacketTake die => Sys2Proof.Machine.execEvPacketTake die s
  | .evPreemptionDecision core => Sys2Proof.Machine.execEvPreemptionDecision core s
  | .evDrainLimit core => Sys2Proof.Machine.execEvDrainLimit core s
  | .evTokenRefill ctx => Sys2Proof.Machine.execEvTokenRefill ctx s
  | .evWatchdog ctx grp idx => Sys2Proof.Machine.execEvWatchdog ctx grp idx s
  | .evContextFlip ctx => Sys2Proof.Machine.execEvContextFlip ctx s
  | .evWritebackComplete ctx => Sys2Proof.Machine.execEvWritebackComplete ctx s
  | .evFatalCause ctx code => Sys2Proof.Machine.execEvFatalCause ctx code s
  | .evLoftDumpComplete ctx => Sys2Proof.Machine.execEvLoftDumpComplete ctx s
  | .evDumpTimeout ctx => Sys2Proof.Machine.execEvDumpTimeout ctx s
  | .evInvalidationAck die => Sys2Proof.Machine.execEvInvalidationAck die s
  | .evRowStep unit => Sys2Proof.Machine.execEvRowStep unit s
  | .evHostReadTimeout core req => Sys2Proof.Machine.execEvHostReadTimeout core req s
  | .evPostedWriteDiscard die => Sys2Proof.Machine.execEvPostedWriteDiscard die s
  | .evPowerUp f => Sys2Proof.Machine.execEvPowerUp f s
  | .evThrottleResume die => Sys2Proof.Machine.execEvThrottleResume die s
  | .evLeaseRequestLand lender holder e words fb => Sys2Proof.Machine.execEvLeaseRequestLand lender holder e words fb s
  | .evLeaseWordsReturn lender holder e => Sys2Proof.Machine.execEvLeaseWordsReturn lender holder e s
  | .evQpushQpopCompletion core => Sys2Proof.Machine.execEvQpushQpopCompletion core s
  | .evPerBankRefresh die p bank => Sys2Proof.Machine.execEvPerBankRefresh die p bank s
  | .evStackHeartbeat die stack => Sys2Proof.Machine.execEvStackHeartbeat die stack s
  | .evMctlWrite die v => Sys2Proof.Machine.execEvMctlWrite die v s
  | .evActivate ctx => Sys2Proof.Machine.execEvActivate ctx s
  | .evSwapout ctx => Sys2Proof.Machine.execEvSwapout ctx s
  | .evSwapin ctx => Sys2Proof.Machine.execEvSwapin ctx s
  | .evKill ctx => Sys2Proof.Machine.execEvKill ctx s
  | .evTeardown ctx => Sys2Proof.Machine.execEvTeardown ctx s
  | .evReplay ctx => Sys2Proof.Machine.execEvReplay ctx s
  | .evRelease ctx coord => Sys2Proof.Machine.execEvRelease ctx coord s
  | .evTqheadWrite ctx v => Sys2Proof.Machine.execEvTqheadWrite ctx v s
  | .evDbgenWrite ctx v => Sys2Proof.Machine.execEvDbgenWrite ctx v s
  | .evRange die cmd => Sys2Proof.Machine.execEvRange die cmd s
  | .evContext die cmd => Sys2Proof.Machine.execEvContext die cmd s
  | .evAll die cmd => Sys2Proof.Machine.execEvAll die cmd s
  | .evHandle die cmd => Sys2Proof.Machine.execEvHandle die cmd s
  | .evMigdone die cmd => Sys2Proof.Machine.execEvMigdone die cmd s
  | .evCircuitTrained a b wl common => Sys2Proof.Machine.execEvCircuitTrained a b wl common s
  | .evWavelengthFail a b => Sys2Proof.Machine.execEvWavelengthFail a b s
  | .evDieReset die => Sys2Proof.Machine.execEvDieReset die s
  | .evCircuitRetrain die mask => Sys2Proof.Machine.execEvCircuitRetrain die mask s
  | .evEwenTrained port lanes vmin vmax peer => Sys2Proof.Machine.execEvEwenTrained port lanes vmin vmax peer s
  | .evEwenLaneFail port replays => Sys2Proof.Machine.execEvEwenLaneFail port replays s
  | .evEwenRetrain port => Sys2Proof.Machine.execEvEwenRetrain port s
  | .evIdent die => Sys2Proof.Machine.execEvIdent die s
  | .evAttest die => Sys2Proof.Machine.execEvAttest die s
  | .evLog die => Sys2Proof.Machine.execEvLog die s
  | .evStage die => Sys2Proof.Machine.execEvStage die s
  | .evCommit die => Sys2Proof.Machine.execEvCommit die s
  | .evSmcreset die => Sys2Proof.Machine.execEvSmcreset die s
  | .evReset die => Sys2Proof.Machine.execEvReset die s
  | .evThermalTrip => Sys2Proof.Machine.execEvThermalTrip s
  | .evThrottle die => Sys2Proof.Machine.execEvThrottle die s
  | .evRegisterWrite die off v => Sys2Proof.Machine.execEvRegisterWrite die off v s
  | .headerOnlyBundle => Sys2Proof.Machine.execHeaderOnlyBundle s
  | .evBar2Access die k addr len data cmp => Sys2Proof.Machine.execEvBar2Access die k addr len data cmp s
  | .evDieResetExit die => Sys2Proof.Machine.execEvDieResetExit die s
  | .evHostLinkDown die => Sys2Proof.Machine.execEvHostLinkDown die s
  | .evHostLinkUp die => Sys2Proof.Machine.execEvHostLinkUp die s

end Sys2Proof.Machine
end

