-- ==== Sys2Proof/Machine/Step.lean ====
section
/-!
DEFINITION. One step of the package: the first entry of the agenda is performed, at its cycle (R7, R22, R385). When
nothing is due, a cycle passes.
-/

namespace Sys2Proof.Machine

def step (s : State) : Host.Outcome State Fault Refusal :=
  match s.agenda with
  | [] => .next { s with now := s.now + 1 }
  | t :: rest => settleOutcome (max s.now t.due) ((s.takeDue t rest).perform exec t.act)

/-- The state with an instruction of the opcode table placed so that the next step runs it (notes/assumptions/7). -/
def State.withFetchWord (s : State) (nbits w : Nat) : State :=
  if tableIsMicro nbits w then s.placeMicro w else s.placeBundle (tableBytes nbits w)

end Sys2Proof.Machine
end

