-- ==== Sys2Proof/Safety.lean ====
section
/-!
DEFINITION. What counts as a well-formed state and a safe run, in the terms the statements use.
-/

namespace Sys2Proof.Machine

/-- An agenda in the order of R385: what comes first is due no later. -/
def inOrder : List Timed → Bool
  | [] => true
  | [_] => true
  | a :: b :: l => a.before b && inOrder (b :: l)

/-- Everything that is due is due now or later, in order, and nothing waits to enter the agenda. -/
def State.agendaOk (s : State) : Bool :=
  inOrder s.agenda && s.agenda.all (fun t => decide (s.now ≤ t.due)) && s.posted.isEmpty

/-- A run of `n` steps that meets no fault and no refusal. -/
def State.runsSafely : Nat → State → Prop
  | 0, _ => True
  | n + 1, s => ∃ s', step s = .next s' ∧ State.runsSafely n s'

/-! ### What a bay may rely on, and what it leaves alone -/

/-- The task of the core that executes. -/
def State.me (s : State) : TaskSt := (s.core s.cur).t

/-- Whether a source may be read: a queue slot may be when the queue's state admits reads, the slot lies below the tail, and
after a loss its append is there (R81, R170, R176). Any other source always may. -/
def State.canRead (s : State) : Opd → Prop
  | .peek q o | .pop q o =>
    let x := NMap.get {} s.iss.pre.c.q q.toNat
    x.st.mayRead = true ∧ o.toNat < x.occ ∧ (x.st = .lost → x.present s.now (ctr (x.head + o.toNat)) = true)
  | _ => True

/-- Whether a destination may be written: an append needs a queue whose state admits appends (R82, R170). -/
def State.canWrite (s : State) : Opd → Prop
  | .app q => (NMap.get {} s.iss.pre.c.q q.toNat).st.mayAppend = true
  | _ => True

/-- Whether a destination is an append. -/
def isAppend : Opd → Bool
  | .app _ => true
  | _ => false

/-- Every register of the task is as before, but for those whose numbers are listed. -/
def keepsRegs (s t : State) (ks : List Nat) : Prop :=
  (∀ k, k ≤ RegKey.yb → k ∉ ks → t.me.scalar k = s.me.scalar k)
    ∧ (∀ k, (k = RegKey.yv ∨ RegKey.w 0 ≤ k) → k ∉ ks → t.me.vector k = s.me.vector k)
    ∧ ∀ i, RegKey.m i ∉ ks → t.me.mask i = s.me.mask i

/-- Nothing of a task but its registers, their readiness, and the faults and data that await its next bundle differs: its flags, its
counters, its priority, its engines and its memory port are the same. -/
def TaskSt.onlyRegs (t u : TaskSt) : Prop :=
  ∃ g pend tok k ya yb v w yv m rdy wait late at_, u = { t with
    g := g, pend := pend, tokOwner := tok, k := k, ya := ya, yb := yb, v := v, w := w, yv := yv, m := m, rdy := rdy, wait := wait, late := late,
    dataAt := at_ }

/-- Nothing of the executing core's task but its registers, their readiness and the faults that await its next bundle has changed. -/
def keepsTask (s t : State) : Prop := s.me.onlyRegs t.me

/-- Nothing of the package has changed but the core that executes, its queues, the storage and the check bits of scratchpad,
the counts of corrected errors, and what is posted: contexts with their trap queues and every other core are as before. -/
def keepsRest (s t : State) : Prop :=
  (∃ po fr me di pe pp co, t = { s with posted := po, free := fr, mem := me, dies := di, padErr := pe, padPoison := pp, cores := co })
    ∧ (∀ d, ∃ n, t.die d = { s.die d with cecnt := n })
    ∧ (∀ n, n ≠ s.cur → t.core n = s.core n)
    ∧ ∃ q, (t.core s.cur) = { s.core s.cur with t := (t.core s.cur).t, c := { (s.core s.cur).c with q := q } }

/-- What a bay leaves alone that writes the registers `ks` and stores nothing. -/
def quiet (s t : State) (ks : List Nat) : Prop :=
  keepsRegs s t ks ∧ keepsTask s t ∧ keepsRest s t ∧ ∀ a, t.mem.read a = s.mem.read a

/-- Nothing has changed but the semaphores of one core and what is posted. -/
def onlySems (s t : State) (core : Nat) : Prop :=
  (∃ po co, t = { s with posted := po, cores := co }) ∧ (∀ n, n ≠ core → t.core n = s.core n)
    ∧ ∃ sm, t.core core = { s.core core with c := { (s.core core).c with sem := sm } }

/-- Nothing has changed but one core's task and what is posted. -/
def onlyTask (s t : State) (core : Nat) (u : TaskSt) : Prop :=
  (∃ po co, t = { s with posted := po, cores := co }) ∧ (∀ n, n ≠ core → t.core n = s.core n)
    ∧ t.core core = { s.core core with t := u }

/-- Nothing but one core, its part of memory's traffic and what is posted has changed: storage, contexts, operations and groups
are as before. -/
def keepsStore (s t : State) (core : Nat) : Prop :=
  (∃ po fr di pe co, t = { s with posted := po, free := fr, dies := di, padErr := pe, cores := co })
    ∧ (∀ n, n ≠ core → t.core n = s.core n) ∧ ∀ a, t.mem.read a = s.mem.read a

/-- Something posted is due in a cycle. -/
def State.hasPosted (s : State) (due : Nat) (a : Act) : Prop := { due := due, act := a } ∈ s.posted

end Sys2Proof.Machine
end

