-- ==== Sys2Proof/Certificates/Slice0/Obligations.lean ====
section
/-!
DEFINITION. What the provers are to show of the machine. Lists of instructions of one shape give each with what the rules
say of it.
-/

namespace Sys2Proof.Machine

/-! ### The scalar bays (R87 to R95) -/

/-- Whether a condition of `CMP` holds of two values: integers for the signed ones, naturals for the others (R90). -/
def cmpRule (cc : BitVec 4) (a e : Word) : Bool :=
  match cc.toNat with
  | 0 => decide (a = e)
  | 1 => decide (a ≠ e)
  | 2 => decide (a.toInt < e.toInt)
  | 3 => decide (e.toInt ≤ a.toInt)
  | 4 => decide (a.toInt ≤ e.toInt)
  | 5 => decide (e.toInt < a.toInt)
  | 6 => decide (a.toNat < e.toNat)
  | 7 => decide (e.toNat ≤ a.toNat)
  | 8 => decide (a.toNat ≤ e.toNat)
  | _ => decide (e.toNat < a.toNat)

/-- Every instruction of the scalar bays that only computes, with its sources and its result (R88 to R95). -/
def scalarForms (s : State) (b : Bay2) (d x y c : Opd) (i20 : BitVec 20) (i7 : BitVec 7) (sc : BitVec 3) (w : BitVec 6)
    (cc : BitVec 4) (sx : Bool) : List (Instr × List Opd × Word) :=
  let a := rdS s x
  let e := rdS s y
  let n := e.toNat % 64
  let low (v : Word) : Word := v &&& BitVec.ofNat 64 (2 ^ (w.toNat + 1) - 1)
  let ones : Word := BitVec.ofNat 64 (2 ^ (w.toNat + 1) - 1)
  [ (.add b d x y, [x, y], a + e),
    (.sub b d x y, [x, y], a - e),
    (.addi b d x i20, [x], a + BitVec.ofInt 64 i20.toInt),
    (.mul b d x y, [x, y], BitVec.ofInt 64 (a.toInt * e.toInt)),
    (.mulh b d x y, [x, y], BitVec.ofInt 64 (a.toInt * e.toInt / 2 ^ 64)),
    (.mulhn b d x y, [x, y], BitVec.ofNat 64 (a.toNat * e.toNat / 2 ^ 64)),
    (.div b d x y, [x, y], if e = 0 then -1 else BitVec.ofInt 64 (a.toInt.tdiv e.toInt)),
    (.divn b d x y, [x, y], if e = 0 then -1 else BitVec.ofNat 64 (a.toNat / e.toNat)),
    (.rem b d x y, [x, y], if e = 0 then a else BitVec.ofInt 64 (a.toInt.tmod e.toInt)),
    (.remn b d x y, [x, y], if e = 0 then a else BitVec.ofNat 64 (a.toNat % e.toNat)),
    (.and b d x y, [x, y], a &&& e),
    (.or b d x y, [x, y], a ||| e),
    (.xor b d x y, [x, y], a ^^^ e),
    (.andn b d x y, [x, y], a &&& ~~~e),
    (.orn b d x y, [x, y], a ||| ~~~e),
    (.shl b d x y, [x, y], BitVec.ofNat 64 (a.toNat * 2 ^ n)),
    (.shrl b d x y, [x, y], BitVec.ofNat 64 (a.toNat / 2 ^ n)),
    (.shra b d x y, [x, y], BitVec.ofInt 64 (a.toInt / 2 ^ n)),
    (.rotl b d x y, [x, y], (a <<< n) ||| (a >>> (64 - n))),
    (.rotr b d x y, [x, y], (a >>> n) ||| (a <<< (64 - n))),
    (.clz b d x, [x], BitVec.ofNat 64 (if a = 0 then 64 else 63 - Nat.log2 a.toNat)),
    (.ctz b d x, [x], BitVec.ofNat 64 (((List.range 64).find? (fun i => a.getLsbD i)).getD 64)),
    (.popc b d x, [x], BitVec.ofNat 64 ((List.range 64).countP (fun i => a.getLsbD i))),
    (.min b d x y, [x, y], BitVec.ofInt 64 (min a.toInt e.toInt)),
    (.max b d x y, [x, y], BitVec.ofInt 64 (max a.toInt e.toInt)),
    (.minn b d x y, [x, y], BitVec.ofNat 64 (min a.toNat e.toNat)),
    (.maxn b d x y, [x, y], BitVec.ofNat 64 (max a.toNat e.toNat)),
    (.cmp b cc d x y, [x, y], if cmpRule cc a e then 1 else 0),
    (.sel b d c x y, [x, y, c], if rdS s c ≠ 0 then a else e),
    (.li b d i20, [], BitVec.ofInt 64 i20.toInt),
    (.lui b d x i20, [x], (a <<< 20) ||| BitVec.ofNat 64 i20.toNat),
    (.lea b d x y sc i7, [x, y], a + BitVec.ofNat 64 (e.toNat * 2 ^ sc.toNat) + BitVec.ofInt 64 i7.toInt),
    (.bfx b d x y sx w, [x, y],
      if sx && (a >>> n).getLsbD w.toNat then low (a >>> n) ||| ~~~ones else low (a >>> n)),
    (.bfi b d x y w, [x, y, d], (rdS s d &&& ~~~(ones <<< n)) ||| (low a <<< n)),
    (.sext b d x w, [x], if a.getLsbD w.toNat then low a ||| ~~~ones else low a),
    (.zext b d x w, [x], low a),
    (.mov b d x, [x], a) ]

end Sys2Proof.Machine

open Sys2Proof Sys2Proof.Machine

/-- Every scalar instruction completes on readable sources: the bay's latch and the named register hold the result the rules give,
ready in the next cycle, and nothing else changes. -/
def Obligations.ScalarResult : Prop :=
  ∀ s b d x y c i20 i7 sc w cc sx, isAppend d = false →
    ∀ f ∈ scalarForms s b d x y c i20 i7 sc w cc sx, (∀ o ∈ f.2.1, s.canRead o) →
      ∃ t, exec f.1 s = .next t
        ∧ (∀ k ∈ latch b :: (sKey d).toList, t.me.scalar k = f.2.2 ∧ NMap.get 0 t.me.rdy k = s.now + 1)
        ∧ quiet s t (latch b :: (sKey d).toList)

/-- What an append of eight bytes whose result is ready in the next cycle does to a queue of the own core (R82, R166, R167): the slot at
the tail holds them and is present from then on. -/
def Sys2Proof.Machine.appendsHere (s t : State) (q : BitVec 5) (x : Word) : Prop :=
  let z := s.queue s.cur q.toNat
  let a := Addr.pad s.cur (z.slotAddr (ctr z.tail))
  (t.queue s.cur q.toNat).tail = ctr (z.tail + 1)
    ∧ NMap.find (t.queue s.cur q.toNat).pres (z.idx (ctr z.tail)) = some (s.now + 1)
    ∧ t.mem = s.mem.writeN a (toBytes 8 x.toNat)
    ∧ ∀ m, m < a ∨ a + 8 ≤ m → t.mem.read m = s.mem.read m

/-- The message of an append of the queue `q` of the own core that is on its way to its partner (R174, R175): on the die, or over a circuit
that takes messages; within the yard it arrives in a cycle that is given. Under a PAUSE it stays behind (R177). -/
def Sys2Proof.Machine.sendsBytes (s t : State) (q : BitVec 5) (pc pq : Nat) (bs : List Byte) : Prop :=
  let z := s.queue s.cur q.toNat
  (z.paused = true → (t.queue s.cur q.toNat).heldOut = z.heldOut ++ [(z.sent % 65536, 0, bs, true, false)])
  ∧ (z.paused = false → dieOf s.cur = dieOf pc ∨ (s.circuit (dieOf s.cur) (dieOf pc)).st.carries = true →
    ∃ e ∈ t.posted, e.act = .ev (.evSpliceDataArrive pc (fromQueue s.cur q.toNat pq)
        { seq := (s.queue s.cur q.toNat).sent % 65536, off := 0, bytes := bs, last := true, poison := false })
      ∧ (dieOf s.cur = dieOf pc → yardOf s.cur = yardOf pc → e.due = s.now + 7 + (bs.length + 63) / 64))

/-- What it does at a sender (R174): a credit and a number are taken, and the bytes are on their way to the receiver. -/
def Sys2Proof.Machine.appendsThere (s t : State) (q : BitVec 5) (pc pq : Nat) (x : Word) : Prop :=
  let z := s.queue s.cur q.toNat
  (t.queue s.cur q.toNat).sent = z.sent + 1 ∧ (t.queue s.cur q.toNat).cr = z.cr - 1
    ∧ sendsBytes s t q pc pq (toBytes 8 x.toNat) ∧ ∀ m, t.mem.read m = s.mem.read m

/-- What an append does whose result takes more than a cycle (R82, R167, R174): the slot, or the credit and the number, is taken at issue,
and the bytes are due in the cycle before the result is ready. -/
def Sys2Proof.Machine.appendsLater (s t : State) (q : BitVec 5) (bs : List Byte) (lat : Nat) : Prop :=
  let z := s.queue s.cur q.toNat
  let y := t.queue s.cur q.toNat
  (∀ m, t.mem.read m = s.mem.read m)
    ∧ ((z.st = .send ∨ z.st = .pendS) → y.sent = z.sent + 1 ∧ y.cr = z.cr - 1
        ∧ t.hasPosted (s.now + lat - 1) (.fill s.cur q.toNat (z.gen * 65536 + z.sent % 65536) bs none))
    ∧ ((z.st = .opened ∨ z.st = .subsW) → y.tail = ctr (z.tail + 1)
        ∧ t.hasPosted (s.now + lat - 1) (.fill s.cur q.toNat (z.gen * 65536 + ctr z.tail) bs none))

/-- The state before an instruction, with another note of what bays have stored of late, which an append to the own core brings up to date
(R148). -/
def Sys2Proof.Machine.State.noted (s : State) (e : List BayStore) : State := s.onCore s.cur (fun c => { c with recent := e })

/-- The same instructions with an append as their destination: the slot at the tail holds the result and is present from the next cycle; at
a sender the bytes go to the receiver instead. Nothing else changes but the bay's latch. -/
def Obligations.ScalarAppend : Prop :=
  ∀ s b (q : BitVec 5) x y c i20 i7 sc w cc sx,
    let z := s.queue s.cur q.toNat
    s.canWrite (.app q) →
    ∀ f ∈ scalarForms s b (.app q) x y c i20 i7 sc w cc sx, (∀ o ∈ f.2.1, s.canRead o) →
      let done (v t : State) : Prop := exec f.1 s = .next t ∧ t.me.scalar (latch b) = f.2.2
        ∧ keepsRegs v t [latch b] ∧ keepsTask v t ∧ keepsRest v t
      ((z.st = .opened ∨ z.st = .subsW) → z.slotAddr (ctr z.tail) % 8 = 0 → ∃ t e, done (s.noted e) t ∧ appendsHere s t q f.2.2)
      ∧ (∀ pc pq, z.st = .send → z.partner = some (pc, pq) →
        ∃ t ci, done { s with circuits := ci } t ∧ appendsThere s t q pc pq f.2.2)

/-- The fault a channel source raises in the issue cycle (R81, R170, R176). -/
def Sys2Proof.Machine.sourceRule (s : State) : Use → Option Nat
  | .s (.peek q o) | .s (.pop q o) | .v (.peek q o) | .v (.pop q o) =>
    let z := NMap.get {} s.iss.pre.c.q q.toNat
    if z.st.mayRead = false then some Code.queueState
    else if z.occ ≤ o.toNat then some Code.queueUnderrun
    else if z.st = .lost ∧ z.present s.now (ctr (z.head + o.toNat)) = false then some Code.spliceLost
    else none
  | _ => none

/-- The fault an append raises in the issue cycle (R170, R176): a queue that lost its splice as the sender is told apart. -/
def Sys2Proof.Machine.appendRule (s : State) : Def → Option Nat
  | .s (.app q) | .v (.app q) =>
    let z := NMap.get {} s.iss.pre.c.q q.toNat
    if z.st = .lost ∧ z.lostSend = true then some Code.spliceLost
    else if z.st.mayAppend = false then some Code.queueState else none
  | _ => none

/-- A bay that reads or appends to a queue in a state that forbids it, or reads at or beyond the tail, takes the first such fault. That its
sources in order come before its destinations is read from the rules by inference (notes/assumptions/19). -/
def Obligations.ChannelFaults : Prop :=
  ∀ (i : Instr) (s : State) (code : Nat), i.wf = true →
    ((uses i).filterMap (sourceRule s) ++ (defs i).filterMap (appendRule s)).head? = some code → exec i s = .next (s.takeFault code 0 0)

/-! ### The machine's step -/

/-- A due event of the opcode table is performed by `exec` at its cycle, and what it posts enters the agenda. -/
def Obligations.StepPerformsEvent : Prop :=
  ∀ s d i rest, s.agenda = { due := d, act := .ev i } :: rest → i.wf = true →
    step s = settleOutcome (max s.now d) (exec i { s with now := max s.now d, agenda := rest })

/-- A core whose next bundle is due, there in its instruction buffer, decoded to one instruction, and held back by nothing,
executes exactly that instruction and goes on after the bundle. -/
def Obligations.StepIssuesBundle : Prop :=
  ∀ s core rest bs b i t,
    s.agenda = { due := s.now, act := .issue core (s.core core).gen } :: rest →
    (s.core core).t.mode = .running → (s.core core).t.walk = none → (s.core core).t.late = [] → (s.core core).t.jump = none →
    (s.core core).t.notBefore ≤ s.now →
    (s.core core).bundleBytes (s.core core).t.pc = .ok bs → decodeBundle bs = .ok b → b.bays = [i] → 2 ≤ bs.length →
    let u : State := { s with
      agenda := rest, cur := core,
      iss := { pre := s.core core, bundle := (s.core core).t.pc, npc := (s.core core).t.pc + bundleLen (BitVec.ofNat 16 (ofBytes (bs.take 2))),
               mask := bits (ofBytes (bs.take 2)) 0 7, idle := bits (ofBytes (bs.take 2)) 8 4, mem := s.mem } }
    u.stalled core [i] = false → u.banksOk core [i] = true → portsOk [i] = true → popsOk [i] = true → dataReserved u i = false →
    writesOk [i] = true → exec i u = .next t → t.iss.trapped = false →
    step s = .next (((t.takeBanks core [i]).commit core).settle s.now)

/-- A bank unit whose next micro-op is due decodes it from its program store and executes it. -/
def Obligations.StepRunsMicroOp : Prop :=
  ∀ s u rest i, s.agenda = { due := s.now, act := .micro u } :: rest →
    (s.unit u).running = true → (s.unit u).waitPage = false → (s.unit u).mpc < 64 →
    decode (.bu (NMap.get 0 (s.unit u).store (s.unit u).mpc)) = .ok i →
    step s = settleOutcome s.now (exec i (State.onUnit { s with agenda := rest, curUnit := u } u (fun b => { b with mpc := b.mpc + 1 })))

/-- Every step keeps the agenda in the order of one cycle and of the cycles, with nothing due in the past and nothing left over, and
time never runs backward. -/
def Obligations.StepKeepsAgenda : Prop :=
  ∀ s s', s.agendaOk = true → step s = .next s' → s'.agendaOk = true ∧ s.now ≤ s'.now

/-- After reset the agenda is in order: only the power-up of the package is due. -/
def Obligations.ResetAgenda : Prop := State.reset.agendaOk = true ∧ State.reset.agenda = [{ due := 0, act := .ev (.evPowerUp .ok) }]

/-! ### Faults and records (R86, R338 to R342) -/

/-- In the cycle in which nothing holds a bundle, one whose bays name a register twice as a destination has no effect but the fault
BAY_CONFLICT; one that reads too many main-file registers, pops a queue in two bays, or names an unassigned opcode has none but
ILLEGAL_BUNDLE; one with a field or an operand value the encoding forbids has none but RESERVED_FIELD, which comes between the two.
A bundle that is held has no fault. -/
def Obligations.BundleChecks : Prop :=
  ∀ (s : State) core bs,
    let c := s.core core
    let is := bundleBays bs
    let u : State := { s with
      cur := core,
      iss := { pre := c, bundle := c.t.pc, npc := c.t.pc + bundleLen (BitVec.ofNat 16 (ofBytes (bs.take 2))),
               mask := bits (ofBytes (bs.take 2)) 0 7, idle := bits (ofBytes (bs.take 2)) 8 4, mem := s.mem } }
    let only (code : Nat) : Prop := s.issueBytes exec core bs = .next { u.takeFault code 0 0 with iss := {} }
    let legal : Prop := portsOk is = true ∧ popsOk is = true
    (u.stalled core is = true → s.issueBytes exec core bs = .next (s.post (s.now + 1) (.issue core c.gen)))
    ∧ (u.stalled core is = false → u.banksOk core is = true →
      (decodeBundle bs = .error .illegalBundle → only Code.illegalBundle)
      ∧ (¬ legal → only Code.illegalBundle)
      ∧ (legal → decodeBundle bs = .error .reservedField → only Code.reservedField)
      ∧ ∀ b, legal → decodeBundle bs = .ok b →
        (b.bays.any (dataReserved u) = true → only Code.reservedField)
        ∧ (b.bays.any (dataReserved u) = false → writesOk b.bays = false → only Code.bayConflict))

/-- A fault taken in the issue cycle leaves every register as it was. Under IGNORE issue goes on after the bundle, under RETRY the same bundle
issues again, at most twice (in the next cycle: the cycle is the model's, notes/assumptions/143); where the bundle ends the task it retires, where
it waits in BRK it waits. A third fault under RETRY counts as KILL_SELF: the task is killed with the fault as its cause, and its core is free.
Under KILL_PARENT the group then decides. -/
def Obligations.FaultTaken : Prop :=
  ∀ s code detail word5,
    let t := s.takeFault code detail word5
    let ct := recCT (s.taskRec s.cur)
    -- issue goes on at an address from a cycle, or the task ends or waits there
    let goes (pc due : Nat) : Prop := t.iss.trapped = true ∧ t.me.pc = pc ∧ keepsRegs s t []
      ∧ (s.me.after = 0 → { due := due, act := .issue s.cur (s.core s.cur).gen } ∈ t.posted)
      ∧ (s.me.after = 1 → t.me.mode = .retiring ∧ t.hasPosted s.now (.ev (.evTaskDone s.cur)))
      ∧ (s.me.after = 2 → t.me.mode = .brk)
    -- the task is killed and its core is free
    let killed (v : State) : Prop := (v.core s.cur).t.isTask s.me.grp s.me.idx = false
      ∧ ∀ x, s.task? s.me.grp s.me.idx = some x → x.st ≠ .done → x.st ≠ .killed → s.ownedOps s.me.grp s.me.idx = [] →
          ∃ y, v.task? s.me.grp s.me.idx = some y ∧ y.st = .killed ∧ (x.cause = 0 → y.cause = code)
    (ct = 0 → goes s.iss.npc (s.now + 1 + s.iss.idle) ∧ t.me.tries = 0)
    ∧ (ct = 1 → s.me.tries < 2 → goes s.iss.bundle (s.now + 1) ∧ t.me.tries = s.me.tries + 1)
    ∧ ((ct = 1 ∧ 2 ≤ s.me.tries) ∨ ct = 2 → killed t)
    ∧ (ct = 3 → ∃ (v : State) (r : RecInfo), killed v ∧ r.code = code ∧ t = v.faultGroup s.me.grp (some s.me.idx) r)

/-- The sixteen words of a record hold its fields where the layout puts them. -/
def Obligations.RecordLayout : Prop :=
  ∀ (r : RecInfo) seq drops,
    let w := stampRec r.raw seq drops
    let field (i lo n : Nat) : Nat := bits (w.getD i 0).toNat lo n
    w.length = 16 ∧ field 0 0 8 = r.code % 2 ^ 8 ∧ field 0 8 8 = r.unit % 2 ^ 8 ∧ field 0 20 2 = r.kind % 4
      ∧ (field 0 22 1 = 1 ↔ r.repl = true) ∧ (field 0 23 1 = 1 ↔ r.fatal = true)
      ∧ field 0 24 8 = drops % 2 ^ 8 ∧ field 0 32 32 = seq % 2 ^ 32
      ∧ field 1 0 9 = r.coord % 2 ^ 9 ∧ field 1 12 20 = r.task % 2 ^ 20 ∧ field 1 32 32 = r.grp % 2 ^ 32
      ∧ field 2 0 57 = r.bundle % 2 ^ 57 ∧ field 3 0 7 = r.done % 2 ^ 7 ∧ field 3 8 7 = r.bays % 2 ^ 7
      ∧ field 4 0 64 = r.detail % 2 ^ 64 ∧ field 5 0 64 = r.word5 % 2 ^ 64 ∧ field 6 0 64 = r.opid % 2 ^ 64
      ∧ field 7 0 64 = r.prog % 2 ^ 64

/-- A record is posted by the table of R340: with room, its words stand in the slot at the tail with SEQ and DROPS set, the tail moves and
the interrupt is raised; a replayable record without room waits; any other that is not fatal is dropped and counted; a fatal
one takes the last slot. Records that wait for the host link count as posted. -/
def Obligations.RecordPosted : Prop :=
  ∀ (s : State) (ctx : Nat) (w : TrapRec),
    let c := s.context ctx
    let n := s.tqHeld ctx
    let room := if recFatal w then c.tqOcc + n < 2 ^ c.tqlog else c.tqOcc + n + 1 < 2 ^ c.tqlog
    c.mailOnly = false →
    (∀ a x, room → s.translate ctx (c.tqbase + 128 * ((c.tqtail + n) % 2 ^ c.tqlog)) { acc := 5 } = .ok x → x.tgt = .host a →
      s.hostCut (ctx / 64) a = false →
      let t := s.postRecord ctx w
      t.mem = s.mem.writeN (Addr.host a) (recBytes (stampRec w c.tqtail c.drops))
        ∧ (t.context ctx).tqtail = (c.tqtail + 1) % 2 ^ 32 ∧ (t.context ctx).drops = 0
        ∧ NMap.get 0 (t.die (ctx / 64)).intr (ctx % 64) = NMap.get 0 (s.die (ctx / 64)).intr (ctx % 64) + 1
        ∧ t.cores = s.cores)
    ∧ (¬ room → recFatal w = false → recRepl w = true →
      s.postRecord ctx w = s.onContext ctx (fun c => { c with waiting := c.waiting ++ [w] }))
    ∧ (¬ room → recFatal w = false → recRepl w = false →
      s.postRecord ctx w = s.onContext ctx (fun c => { c with drops := min (c.drops + 1) 255 }))

/-! ### The BR bay (R108 to R115) -/

namespace Sys2Proof.Machine

/-- The address a label names: 16 times the signed offset from the bundle's address with its low four bits cleared (R57). -/
def labelRule (bundle : Nat) (t : BitVec 17) : Nat :=
  ((BitVec.ofNat 57 bundle &&& ~~~15#57) + (t.signExtend 57 <<< 4)).toNat

/-- What the transfers of the BR bay read, where they go if they go anywhere, and the registers they write (R108 to R110). -/
def controlForms (s : State) (a d : Opd) (t : BitVec 17) : List (Instr × List Opd × Option Nat × List (Nat × Word)) :=
  let goal := some (labelRule s.iss.bundle t)
  let write (v : Word) : List (Nat × Word) := (sKey d).toList.map (fun k => (k, v))
  let n := rdS s d
  [ (.nop, [], none, []),
    (.headerOnlyBundle, [], none, []),
    (.jmp t, [], goal, []),
    (.jmpi a, [a], some (rdS s a).toNat, []),
    (.brz a t, [a], if rdS s a = 0 then goal else none, []),
    (.brnz a t, [a], if rdS s a ≠ 0 then goal else none, []),
    (.call d t, [], goal, write (BitVec.ofNat 64 ((s.iss.npc + 15) / 16 * 16))),
    (.ret a, [a], some (rdS s a).toNat, []),
    (.loop d t, [], if 1 < n.toNat then goal else none, write (if 1 < n.toNat then n - 1 else 0)) ]

end Sys2Proof.Machine

/-- The transfers, the empty bundle and the empty bay complete: the bundle goes to the target the rules give, or on; a call leaves the
aligned address after it, a loop the count less one; nothing else changes. That a target wraps modulo 2^57 is read from R12 and R57 by
inference (notes/assumptions/67). -/
def Obligations.ControlTransfers : Prop :=
  ∀ s a d t, ∀ f ∈ controlForms s a d t, (∀ o ∈ f.2.1, s.canRead o) →
    let v : State := match f.2.2.1 with
      | some x => { s with iss := { s.iss with transfer := some x } }
      | none => s
    ∃ u, exec f.1 s = .next u
      ∧ (∀ e ∈ f.2.2.2, u.me.scalar e.1 = e.2 ∧ NMap.get 0 u.me.rdy e.1 = s.now + 1)
      ∧ quiet v u (f.2.2.2.map Prod.fst)

/-- A bundle without a transfer is followed by the next one in the next cycle, one with a transfer by its target a cycle later; IDLE
cycles come on top. -/
def Obligations.IssueGoesOn : Prop :=
  ∀ (s : State) (core : Nat), s.iss.unfin = [] → (s.core core).t.walk = none → (s.core core).t.after = 0 →
    let t := s.commit core
    let gen := (s.core core).gen
    (∀ x, s.iss.transfer = some x →
      (t.core core).t.pc = x ∧ (t.core core).t.jump = some (s.iss.bundle, s.iss.npc, s.iss.mask)
        ∧ t.posted = s.posted ++ [{ due := s.now + 2 + s.iss.idle, act := .issue core gen }])
    ∧ (s.iss.transfer = none →
      (t.core core).t.pc = s.iss.npc ∧ (t.core core).t.jump = none
        ∧ t.posted = s.posted ++ [{ due := s.now + 1 + s.iss.idle, act := .issue core gen }])

/-- `WAITC` passes with its threshold subtracted if it consumes; `SIGC` on the own core and a landing increment add, up to 65535, where a
sum beyond it leaves 65535 and posts the notice SEM_OVERFLOW; a remote `SIGC` sends its increment to land 8 cycles later. -/
def Obligations.Semaphores : Prop :=
  ∀ s core (c : BitVec 8) consume (thr : BitVec 12) (n : BitVec 4) (i : BitVec 8) inc src,
    let overflows (i : Instr) (core n : Nat) (src : SigSrc) : Prop := ∃ t po, exec i s = .next t
      ∧ t = { (s.setSem core c.toNat 65535).notice (s.ctxOf core)
                { code := 0x3A, detail := c.toNat + n % 256 * 256, bundle := src.bundle.toNat, coord := src.coord,
                  opid := src.opid.toNat, grp := src.grp, task := src.task, unit := src.unit } with posted := po }
    (thr.toNat ≤ s.sem s.cur c.toNat →
      ∃ t, exec (.waitc c consume thr) s = .next t ∧ onlySems s t s.cur
        ∧ ∀ j, t.sem s.cur j = if consume = true ∧ j = c.toNat then s.sem s.cur j - thr.toNat else s.sem s.cur j)
    ∧ (s.sem s.cur c.toNat + i.toNat ≤ 65535 →
      ∃ t, exec (.sigc c false n i) s = .next t ∧ onlySems s t s.cur
        ∧ ∀ j, t.sem s.cur j = if j = c.toNat then s.sem s.cur j + i.toNat else s.sem s.cur j)
    ∧ (i ≠ 0 → 65535 < s.sem s.cur c.toNat + i.toNat → overflows (.sigc c false n i) s.cur i.toNat s.bundleSrc)
    ∧ exec (.sigc c true n i) s = .next (s.postEv (s.now + 8)
        (.evSemaphoreIncrementLand (coreOfYard s.cur n.toNat) c.toNat i.toNat s.bundleSrc))
    ∧ (s.sem core c.toNat + inc ≤ 65535 →
      ∃ t, exec (.evSemaphoreIncrementLand core c.toNat inc src) s = .next t ∧ onlySems s t core
        ∧ ∀ j, t.sem core j = if j = c.toNat then s.sem core j + inc else s.sem core j)
    ∧ (inc ≠ 0 → 65535 < s.sem core c.toNat + inc → overflows (.evSemaphoreIncrementLand core c.toNat inc src) core inc src)

/-- `TEND` ends issue after its bundle: the task is RETIRING and is tested for DONE, and no bundle follows. `BRK` holds the task after its
bundle when the core's bit of the break mask is set, and does nothing when it is clear. -/
def Obligations.TaskEndAndBreak : Prop :=
  ∀ s code core pc due,
    (∃ t, exec .tend s = .next t ∧ onlyTask s t s.cur { s.me with after := 1 })
    ∧ (s.breakOn s.cur = true → ∃ t, exec (.brk code) s = .next t ∧ onlyTask s t s.cur
        { s.me with after := 2, brk := some (s.now, code.toNat) })
    ∧ (s.breakOn s.cur = false → exec (.brk code) s = .next s)
    ∧ ((s.core core).t.after = 1 →
      let t := s.issueAt core pc due
      (t.core core).t.mode = .retiring ∧ t.posted = s.posted ++ [{ due := s.now, act := .ev (.evTaskDone core) }])
    ∧ ((s.core core).t.after = 2 →
      let t := s.issueAt core pc due
      (t.core core).t.mode = .brk ∧ (t.core core).t.pc = pc ∧ t.posted = s.posted
        ∧ (t.core core).t.brk = (s.core core).t.brk.map (fun b => (s.now, b.2)))

/-- `TRAP` posts a software record with its value and its code, and the task goes on as it was. -/
def Obligations.SoftwareTrap : Prop :=
  ∀ s a code, s.canRead a →
    ∃ u, quiet s u [] ∧ exec (.trap a code) s = .next (u.postInfo (s.ctxOf s.cur)
      { kind := 2, grp := s.me.grp, task := s.me.idx, coord := coordWord s.cur, bundle := s.iss.bundle, bays := s.iss.mask,
        done := s.iss.mask, detail := (rdS s a).toNat, opid := code.toNat })

/-! ### Scratchpad, spill and system registers (R96, R97, R101, R106, R107, R116 to R118) -/

namespace Sys2Proof.Machine

/-- A loaded value of `n` bytes, extended to a register (R97). -/
def extendRule (sx : Bool) (n v : Nat) : Word :=
  if sx then (BitVec.ofNat (8 * n) v).signExtend 64 else (BitVec.ofNat (8 * n) v).setWidth 64

/-- What `SRD` reads (R116): fflags, cycle, tcount, est, prio, coord, group, dbg. -/
def sregRule (s : State) (r : Nat) : Word :=
  let t := s.iss.pre.t
  match r with
  | 0 => (t.flagsAt s.now).setWidth 64
  | 1 => BitVec.ofNat 64 s.now
  | 2 => BitVec.ofNat 64 (t.tcountAt s.now)
  | 3 => BitVec.ofNat 64 (t.estAt s.now)
  | 4 => BitVec.ofNat 64 (t.prioAt s.now)
  | 5 => t.coordReg
  | 6 => t.groupReg
  | _ => if s.breakOn s.cur then 1 else 0

/-- The entry of the lease table a spill names, before the bundle. -/
def leaseNow (s : State) (e : BitVec 2) : Lease := NMap.get {} s.iss.pre.c.lease e.toNat

/-- The SB instructions that read one word into a register: their sources, when they raise no fault of their own, the value, and the
cycles it takes (R18, R97, R101, R106, R107, R116). -/
def readForms (s : State) (d x y : Opd) (wid : BitVec 2) (sx : Bool) (e : BitVec 2) (r : BitVec 10) :
    List (Instr × List Opd × Prop × Word × Nat) :=
  let n := 2 ^ wid.toNat
  let a := (rdS s x + rdS s y).toNat
  let l := leaseNow s e
  let i := (rdS s x).toNat
  let spill : Word := BitVec.ofNat 64 (ofBytes (s.iss.mem.readN (Addr.pad s.cur (l.fb + 8 * i)) 8))
  [ (.ldsp d x y wid sx, [x, y], a % n = 0 ∧ a < 0x300000 ∧ s.bufOk s.cur a n true false = true,
      extendRule sx n (ofBytes (s.iss.mem.readN (Addr.pad s.cur a) n)), 3),
    (.spld d x e, [x], l.live = true ∧ i < l.words ∧ (l.rev = true → l.readyFrom ≤ s.now),
      if l.rev = true then spill else s.poolWord s.cur l i, if l.rev = true then 3 else 6),
    (.srd d r, [], True, sregRule s r.toNat, 1) ]

end Sys2Proof.Machine

/-- `LDSP`, `SPLD` and `SRD` complete: `yb` and the named register hold the value, ready after the latency, and nothing else changes. -/
def Obligations.ReadResult : Prop :=
  ∀ s d x y wid sx e r, isAppend d = false → ∀ f ∈ readForms s d x y wid sx e r, (∀ o ∈ f.2.1, s.canRead o) → f.2.2.1 →
    ∃ t, exec f.1 s = .next t
      ∧ (∀ k ∈ latch .sb :: (sKey d).toList, t.me.scalar k = f.2.2.2.1 ∧ NMap.get 0 t.me.rdy k = s.now + f.2.2.2.2)
      ∧ quiet s t (latch .sb :: (sKey d).toList)

/-- The same instructions with an append as their destination: the slot, or the sender's credit, is taken at issue; the bytes of a value that
takes more than a cycle are due in the cycle before it is ready, and when that step comes the slot of an append that no reset has overtaken
holds them and is present, or they go to the receiver, or stay behind under a PAUSE. -/
def Obligations.ReadAppend : Prop :=
  (∀ s (q : BitVec 5) x y wid sx e r,
    let z := s.queue s.cur q.toNat
    s.canWrite (.app q) →
    ∀ f ∈ readForms s (.app q) x y wid sx e r, (∀ o ∈ f.2.1, s.canRead o) → f.2.2.1 →
      let done (v t : State) : Prop := exec f.1 s = .next t ∧ t.me.scalar (latch .sb) = f.2.2.2.1
        ∧ keepsRegs v t [latch .sb] ∧ keepsTask v t ∧ keepsRest v t
      (f.2.2.2.2 = 1 → (z.st = .opened ∨ z.st = .subsW) → z.slotAddr (ctr z.tail) % 8 = 0 →
        ∃ t e, done (s.noted e) t ∧ appendsHere s t q f.2.2.2.1)
      ∧ (∀ pc pq, f.2.2.2.2 = 1 → z.st = .send → z.partner = some (pc, pq) →
        ∃ t ci, done { s with circuits := ci } t ∧ appendsThere s t q pc pq f.2.2.2.1)
      ∧ (1 < f.2.2.2.2 →
        ∃ t, done s t ∧ appendsLater s t q (toBytes 8 f.2.2.2.1.toNat) f.2.2.2.2))
  ∧ ∀ s core rest q slot bs lease,
      s.agenda = { due := s.now, act := .fill core q slot bs lease } :: rest →
      let z := s.queue core q
      let a := Addr.pad core (z.slotAddr (slot % 65536))
      z.gen = slot / 65536 →
        (bs.length = 8 → (z.st = .opened ∨ z.st = .subsW) → z.slotAddr (slot % 65536) % 8 = 0 →
          ∃ t, step s = .next t ∧ NMap.find (t.queue core q).pres (z.idx (slot % 65536)) = some (s.now + 1)
            ∧ t.mem = s.mem.writeN a bs ∧ ∀ m, m < a ∨ a + 8 ≤ m → t.mem.read m = s.mem.read m)
        ∧ (∀ pc pq, z.st = .send → z.partner = some (pc, pq) → z.paused = true →
          ∃ t, step s = .next t ∧ (∀ m, t.mem.read m = s.mem.read m)
            ∧ (t.queue core q).heldOut = z.heldOut ++ [(slot % 65536, 0, bs, true, false)])
        ∧ (∀ pc pq, z.st = .send → z.partner = some (pc, pq) → z.paused = false →
            (dieOf core = dieOf pc ∨ (s.circuit (dieOf core) (dieOf pc)).st.carries = true) →
          ∃ t, step s = .next t ∧ (∀ m, t.mem.read m = s.mem.read m)
            ∧ ∃ e ∈ t.agenda, e.act = .ev (.evSpliceDataArrive pc (fromQueue core q pq)
                { seq := slot % 65536, off := 0, bytes := bs, last := true, poison := false }))

/-- `STSP` writes its bytes to the core's scratchpad and nothing else, but for the notice STORE_MERGED_POISON of a part of a poisoned word; at an address of a multicast window it sends them to every core of
the window's mask, to land 6 cycles later, and writes nothing here. -/
def Obligations.ScratchpadStore : Prop :=
  ∀ s v x y wid,
    let n := 2 ^ wid.toNat
    let a := (rdS s x + rdS s y).toNat
    let bs := toBytes n (rdS s v).toNat
    let w := s.window s.cur a
    (∀ o ∈ [v, x, y], s.canRead o) → a % n = 0 → s.bufOk s.cur a n false true = true →
      (a < 0x300000 → (n = 8 ∨ NMap.get false s.padPoison (padLine s.cur a) = false ∧ NMap.get 0 s.padErr (Addr.pad s.cur a / 8) < 2) →
        ∃ t e, exec (.stsp v x y wid) s = .next t
          ∧ t.mem = s.mem.writeN (Addr.pad s.cur a) bs
          ∧ (∀ m, m < Addr.pad s.cur a ∨ Addr.pad s.cur a + n ≤ m → t.mem.read m = s.mem.read m)
          ∧ (let u := s.onCore s.cur (fun c => { c with recent := e })
            keepsRegs u t [] ∧ keepsTask u t ∧ keepsRest u t))
      ∧ (a < 0x300000 → n < 8 →
        (NMap.get false s.padPoison (padLine s.cur a) = true ∨ 2 ≤ NMap.get 0 s.padErr (Addr.pad s.cur a / 8)) →
        ∃ u r e, exec (.stsp v x y wid) s = .next (u.notice (s.ctxOf s.cur) r) ∧ r.code = Code.storeMergedPoison
          ∧ u.mem = s.mem.writeN (Addr.pad s.cur a) bs ∧ NMap.get false u.padPoison (padLine s.cur a) = true
          ∧ (let w := s.onCore s.cur (fun c => { c with recent := e })
            keepsRegs w u [] ∧ keepsTask w u ∧ keepsRest w u))
      ∧ (0x300000 ≤ a → a < 0x400000 → bitOf w 63 = true →
        ∃ t, exec (.stsp v x y wid) s = .next t ∧ quiet s t []
          ∧ ∀ c, bitOf w (22 + c) = true → c < 16 →
            t.hasPosted (s.now + 6) (.ev (.evMulticastWriteLand (coreOfYard s.cur c) (w % 2 ^ 22 + a % 2 ^ 16)
              (mcSource s.cur s.me.idx s.me.grp s.iss.bundle) (s.now + 6) (bs.map some))))

/-- A declared buffer admits reads while FULL (2) or DRAINING (3) and writes while FILLING (1); where no buffer lies, every access is admitted. -/
def Obligations.BufferRights : Prop :=
  ∀ (s : State) core x n rd wr,
    s.bufOk core x n rd wr = true ↔
      ∀ k b, (k, b) ∈ (s.core core).c.buf → b.v = true →
        (∃ y, x ≤ y ∧ y < x + n ∧ b.base ≤ y ∧ y < b.base + b.size) →
        (rd = true → b.st = 2 ∨ b.st = 3) ∧ (wr = true → b.st = 1)

/-- `SPST` writes one word of a live lease: in the lender's pool, in the fallback once the lease is revoked, and, by the model's reading of
R107 (notes/assumptions/95), in both while the words are on their way to the fallback; an `SPLD` of that time leaves `yb` and its destination waiting for the end of that write, with the word it
reads. An index at or beyond the lease's words, or an entry that holds none, is SHAPE_BOUNDS for both spill instructions. -/
def Obligations.Spill : Prop :=
  ∀ s d v x e,
    let l := leaseNow s e
    let i := (rdS s x).toNat
    let lender := coreOfYard s.cur l.core
    s.canRead v → s.canRead x →
      (l.live = true → i < l.words → l.rev = false →
        ∃ t, exec (.spst v x e) s = .next t
          ∧ (∀ j, NMap.get 0 (t.core lender).c.pool j
              = if j = l.poolBase + i then rdS s v else NMap.get 0 (s.core lender).c.pool j)
          ∧ ∃ p, quiet (s.onCtxSt lender (fun c => { c with pool := p })) t [])
      ∧ (l.live = true → i < l.words → l.rev = true → (l.fb + 8 * i) % 8 = 0 →
        ∃ t p b, exec (.spst v x e) s = .next t
          ∧ t.mem = s.mem.writeN (Addr.pad s.cur (l.fb + 8 * i)) (toBytes 8 (rdS s v).toNat)
          ∧ (∀ j, NMap.get 0 p j = if s.now < l.readyFrom ∧ j = l.poolBase + i then rdS s v else NMap.get 0 (s.core lender).c.pool j)
          ∧ (let u := (s.onCtxSt lender (fun c => { c with pool := p })).onCore s.cur (fun c => { c with recent := b })
            keepsRegs u t [] ∧ keepsTask u t ∧ keepsRest u t))
      ∧ (l.live = true → i < l.words → l.rev = true → s.now < l.readyFrom → s.canWrite d →
        ∃ t dest, exec (.spld d x e) s = .next t ∧ keepsRegs s t [] ∧ keepsStore s t s.cur
          ∧ (∀ k ∈ RegKey.yb :: (sKey d).toList, NMap.find t.me.wait k = some s.here.nextReq)
          ∧ (t.leaseOf s.cur e.toNat).waits
              = (s.leaseOf s.cur e.toNat).waits ++ [(s.here.nextReq, dest, s.poolWord s.cur l i, s.now + 3)])
      ∧ (¬ (l.live = true ∧ i < l.words) → exec (.spst v x e) s = .next (s.takeFault Code.shapeBounds 0 0)
        ∧ (s.canWrite d → exec (.spld d x e) s = .next (s.takeFault Code.shapeBounds 0 0)))

/-- `SWR` of `fflags` replaces the flags in the next cycle, where flags raised in that cycle are ORed into the value written; a write of a read-only register is discarded, and one of `dbg` raises PRIVILEGE.
`CYCEST` sets the estimate, cut at 48 bits, from the next cycle on. `SETPRIO` sets the priority from the next cycle on, and raises
PRIVILEGE above the launch priority. -/
def Obligations.SystemWrites : Prop :=
  ∀ s a (r : BitVec 10), s.canRead a →
    let v := rdS s a
    (r = 0 → ∃ t x y z, exec (.swr a r) s = .next t ∧ t.me.flagsAt s.now = s.me.flagsAt s.now
        ∧ (∀ i, i < 5 → ((t.me.flagsAt (s.now + 1)).getLsbD i = true ↔
            v.getLsbD i = true ∨ ∃ e ∈ s.me.flagq, e.1 = s.now + 1 ∧ e.2.getLsbD i = true))
        ∧ quiet (s.onTask s.cur (fun k => { k with fflags := x, flagq := y, flagSet := z })) t [])
    ∧ (1 ≤ r.toNat → r.toNat ≤ 6 → ∃ t, exec (.swr a r) s = .next t ∧ quiet s t [])
    ∧ (r = 16 → exec (.swr a r) s = .next (s.takeFault Code.privilege 0 0))
    ∧ (∃ t, exec (.cycest a) s = .next t ∧ t.me.estAt (s.now + 1) = min v.toNat (2 ^ 48 - 1)
        ∧ ∃ e c l f, quiet (s.onTask s.cur (fun k => { k with
            est := e, tcount := c, left := l, estFree := f, stamp := s.now, estSet := some (s.now + 1, min v.toNat (2 ^ 48 - 1)) })) t [])
    ∧ (v.toNat ≤ s.iss.pre.t.lprio → ∃ t, exec (.setprio a) s = .next t
        ∧ t.me.prioAt s.now = s.me.prioAt s.now ∧ t.me.prioAt (s.now + 1) = v.toNat
        ∧ ∃ p q f, quiet (s.onTask s.cur (fun k => { k with prioPrev := p, prio := q, prioFrom := f })) t [])
    ∧ (s.iss.pre.t.lprio < v.toNat → exec (.setprio a) s = .next (s.takeFault Code.privilege 0 0))

/-! ### Memory through translation (R97 to R105, R250 to R255) -/

namespace Sys2Proof.Machine

/-- The memory accesses of the SB bay: sources, destination, address, bytes, the access code of its checks, and what goes to the
port (R97 to R103). -/
def memForms (s : State) (d x y v : Opd) (m : MemMod) (kind ord : BitVec 4) (wid : Bool) (scope : BitVec 3) :
    List (Instr × List Opd × List Opd × Nat × Nat × Nat × MemReq) :=
  let n := 2 ^ m.wid.toNat
  let a := (rdS s x + rdS s y).toNat
  let b := (rdS s x).toNat
  let k := if wid then 8 else 4
  let o : BitVec 2 := ord.setWidth 2
  let id := s.here.nextReq
  [ (.ld d x y m, [x, y], [d], a, n, 0,
      { id := id, kind := .load, va := a, size := n, sx := m.sx, acq := m.ord == 1, scope := m.scope.toNat,
        bundle := s.iss.bundle, issued := s.now, slotBad := s.slotBad [.s x, .s y] }),
    (.st v x y m, [v, x, y], [], a, n, 1,
      { id := id, kind := .store, va := a, size := n, val := rdS s v, rel := m.ord == 2, uo := m.uo, scope := m.scope.toNat,
        bundle := s.iss.bundle, issued := s.now }),
    (.amo d x v kind o wid scope, [x, v] ++ (if kind = 9 then [d] else []), [d], b, k, 2,
      { id := id, kind := .amo, va := b, size := k, val := rdS s v, cmp := if kind = 9 then rdS s d else 0, amo := kind.toNat,
        acq := o == 1 || o == 3, rel := o == 2 || o == 3, scope := scope.toNat, bundle := s.iss.bundle, issued := s.now,
        slotBad := s.slotBad ([.s x, .s v] ++ (if kind = 9 then [.s d] else [])) }) ]

end Sys2Proof.Machine

/-- An access to scratchpad that is not aligned, leaves the address range, or meets a buffer whose state forbids it takes the fault ALIGN,
SHAPE_BOUNDS or BUFFER_STATE, in that order, and does nothing else. An access to memory whose address is no multiple of its size takes ALIGN;
one with an address bit above bit 56 takes PAGE_PERMISSION, whose record names the kind of access beside the address. That the record of ALIGN,
SHAPE_BOUNDS and BUFFER_STATE names the address of the access is read from the rules by inference (notes/assumptions/74). -/
def Obligations.AccessFaults : Prop :=
  (∀ s d v x y wid sx,
    let n := 2 ^ wid.toNat
    let a := (rdS s x + rdS s y).toNat
    let out (w : Bool) : Prop := 0x300000 ≤ a ∧ ¬ (w = true ∧ a < 0x400000 ∧ bitOf (s.window s.cur a) 63 = true)
    ∀ f ∈ [(Instr.ldsp d x y wid sx, [x, y], [d], false), (Instr.stsp v x y wid, [v, x, y], [], true)],
      (∀ o ∈ f.2.1, s.canRead o) → (∀ o ∈ f.2.2.1, s.canWrite o) →
        (a % n ≠ 0 → exec f.1 s = .next (s.takeFault Code.align 0 (a % 2 ^ 57)))
        ∧ (a % n = 0 → out f.2.2.2 → exec f.1 s = .next (s.takeFault Code.shapeBounds 0 (a % 2 ^ 57)))
        ∧ (a % n = 0 → ¬ out f.2.2.2 → s.bufOk s.cur a n (!f.2.2.2) f.2.2.2 = false →
          exec f.1 s = .next (s.takeFault Code.bufferState 0 (a % 2 ^ 57))))
  ∧ ∀ s d x y v m kind ord wid scope, ∀ f ∈ memForms s d x y v m kind ord wid scope,
    let (i, src, dst, a, n, acc, _) := f
    (∀ o ∈ src, s.canRead o) → (∀ o ∈ dst, s.canWrite o) →
      (a % n ≠ 0 → exec i s = .next (s.takeFault Code.align 0 (a % 2 ^ 57)))
      ∧ (a % n = 0 → 2 ^ 57 ≤ a → exec i s = .next (s.takeFault Code.pagePermission 0 (a % 2 ^ 57 + acc * 2 ^ 57)))

/-- A load, a store or an atomic completes its bay: its translation, cached, sends the access to the memory port; one that is not cached
waits for a walk; one whose translation fails strikes after the other bays. A load and an atomic leave `yb` and the destination waiting,
or reserve the slot of an append. No value and no byte changes in the issue cycle. The spec bounds no walk: 512 cycles are the model's choice
(notes/assumptions/2). -/
def Obligations.MemoryIssue : Prop :=
  ∀ s d x y v m kind ord wid scope, ∀ f ∈ memForms s d x y v m kind ord wid scope,
    let (i, src, dst, a, n, _, r) := f
    let waits := if dst.isEmpty then [] else RegKey.yb :: (sKey d).toList
    let die := dieOf s.cur
    let done (t : State) : Prop := exec i s = .next t ∧ keepsRegs s t [] ∧ keepsStore s t s.cur
      ∧ (∀ k ∈ waits, NMap.find t.me.wait k = some r.id)
      ∧ ∀ q, dst = [.app q] →
          let z := s.queue s.cur q.toNat
          if z.st = .send ∨ z.st = .pendS then (t.queue s.cur q.toNat).sent = z.sent + 1
          else (t.queue s.cur q.toNat).tail = ctr (z.tail + 1)
    (∀ o ∈ src, s.canRead o) → (∀ o ∈ dst, s.canWrite o) → a % n = 0 → a < 2 ^ 57 →
      (∀ e l, State.tlbLookup s.here.tlb (s.ctxOf s.cur) a = some e → checkLeaf s die e a r.ask = .ok l →
        ∃ t q st, done t ∧ { r with
          tgt := l.tgt, peer := l.peer, pageKind := l.kind, page := (e.base, e.log, bits e.leaf.toNat 38 10), grp := s.me.grp, idx := s.me.idx,
          dest := q, stage := st } ∈ t.me.port)
      ∧ (∀ e l, State.tlbLookup s.here.tlb (s.ctxOf s.cur) a = some e → checkLeaf s die e a r.ask = .error l →
        ∃ t q, exec i s = .next t ∧ keepsRegs s t [] ∧ keepsStore { s with iss := t.iss } t s.cur
          ∧ t.iss.unfin = s.iss.unfin ++ [({ bay := 2, req := { r with dest := q } }, l.code, 0, l.word5)])
      ∧ (State.tlbLookup s.here.tlb (s.ctxOf s.cur) a = none →
        ∃ t q, done t ∧ t.me.walk = some { bay := 2, req := { r with dest := q } }
          ∧ ∃ c, s.now < c ∧ c ≤ s.now + 512 ∧ t.hasPosted c (.ev (.evPageWalkReturn s.cur)))

/-- `FENCE` leaves an entry in the port while something it orders is not performed, and none over an empty port; no older access waits for
it. `FENCE.CODE` notes the stores under way, and `ISYNC` discards every fetched block and makes the next fetch wait for them. -/
def Obligations.Fences : Prop :=
  ∀ s kind scope uo,
    (s.me.port = [] → ∃ t, exec (.fence kind scope uo) s = .next t ∧ t.me.port = [] ∧ keepsRegs s t [] ∧ keepsStore s t s.cur)
    ∧ (∀ r ∈ s.me.port, r.grp = s.me.grp → r.idx = s.me.idx → r.gone = false → ((kind = 1 ∨ kind = 3) ∧ (r.kind = .load ∨ r.kind = .amo) ∨ (kind = 2 ∨ kind = 3) ∧ r.ordered uo = true) →
      ∃ t, exec (.fence kind scope uo) s = .next t ∧ keepsRegs s t [] ∧ keepsStore s t s.cur
        ∧ ∃ f ∈ t.me.port, f.kind = .fence ∧ f.acq = (kind == 1 || kind == 3) ∧ f.rel = (kind == 2 || kind == 3)
            ∧ f.id = s.here.nextReq)
    ∧ (∃ t, exec (.fenceCode scope) s = .next t ∧ onlyTask s t s.cur
        { s.me with codeScope := (s.me.port.filter (fun r => !r.gone && (r.kind == .store || r.kind == .amo))).map (fun r => r.id) })
    ∧ (∃ t, exec .isync s = .next t ∧ (∃ co, t = { s with cores := co }) ∧ (∀ n, n ≠ s.cur → t.core n = s.core n)
        ∧ t.core s.cur = { s.here with held := [], fetched := [], fetching := [], t := { s.me with fetchWait := s.me.codeScope } })

/-- What holds a younger access of its task in the port (R104, R248, R252 to R254): an acquire or an acquire fence older than it holds every
access, a release fence the stores and atomics, a release waits for the older accesses it orders, and an access that shares a byte with an older
one that is held waits for it, but for a load behind a store, whose bytes it finds. A fence itself leaves when no older access of its task is of a
kind it waits for. What nothing holds leaves the port for its home. An access of another task holds nothing. -/
def Obligations.PortOrder : Prop :=
  ∀ (o r : MemReq) (older : List MemReq),
    let same (x : MemReq) : Prop := r.grp = x.grp ∧ r.idx = x.idx ∧ r.gone = x.gone
    let share : Prop := match r.tgt, o.tgt with
      | .loc d a, .loc e b => d = e ∧ a < b + o.size ∧ b < a + r.size
      | .host a, .host b => a < b + o.size ∧ b < a + r.size
      | .pub w a, .pub v b => w = v ∧ a < b + o.size ∧ b < a + r.size
      | _, _ => False
    (¬ same o → o.holds r = false)
    ∧ (same o → r.kind ≠ .fence → 1 ≤ r.size → 1 ≤ o.size →
      (o.kind = .fence → (o.holds r = true ↔ o.acq = true ∨ o.rel = true ∧ (r.kind = .store ∨ r.kind = .amo)))
      ∧ (o.kind ≠ .fence → (o.holds r = true ↔ o.acq = true ∨ r.rel = true ∧ o.ordered r.uo = true ∨ o.pageKind = 1 ∧ r.pageKind = 1
          ∨ o.stage = .held ∧ share ∧ (r.kind = .load → o.kind ≠ .store))))
    ∧ (r.kind ≠ .fence → r.stage = .held → (r.id ∈ releasable older [r] ↔ ∀ x ∈ older, x.holds r = false))
    ∧ (r.kind = .fence → (dropFences older [r] = [] ↔ ∀ x ∈ older, same x →
        ¬ (r.acq = true ∧ (x.kind = .load ∨ x.kind = .amo)) ∧ ¬ (r.rel = true ∧ x.ordered r.uo = true)))

/-! ### The VX bay (R119 to R140) -/

namespace Sys2Proof.Machine

/-- An exact integer result in the elements of a type: wrapped, or clamped to the type's range (R32, R124). -/
def narrowRule (ty : Nat) (sat : Bool) (v : Int) : Nat :=
  let w := tyWidth ty
  let lo : Int := if ty % 2 = 1 then -2 ^ (w - 1) else 0
  let hi : Int := if ty % 2 = 1 then 2 ^ (w - 1) - 1 else 2 ^ w - 1
  ((if sat then max lo (min hi v) else v) % 2 ^ w).toNat

/-- An element as the integer its type makes of it (R119). -/
def intRule (ty x : Nat) : Int := if ty % 2 = 1 then (BitVec.ofNat (tyWidth ty) x).toInt else (BitVec.ofNat (tyWidth ty) x).toNat

/-- The vector instructions whose result is a register of elements: their sources, the width of an element, and what element `e` becomes
with the flags it raises (R124 to R133, R137 to R139). Floating-point types use the one rounding of R31. -/
def vectorForms (s : State) (h : VHdr) (d a b c : Opd) (sat fp pb : Bool) (p : BitVec 3) (st cc : BitVec 4) :
    List (Instr × List Opd × Nat × (Nat → Option (Nat × FFlags))) :=
  let ty := h.ty.toNat
  let rm := h.rnd.toNat
  let w := tyWidth ty
  let f := tyFmt ty
  let fl := tyFloat ty
  let x (e : Nat) : Nat := elem (rdV s false ty a) w e
  let y (e : Nat) : Nat := elem (rdV s false ty b) w e
  let z (e : Nat) : Nat := elem (rdV s false ty c) w e
  let bx (e : Nat) : Nat := elem (rdV s true ty a) w e
  let by_ (e : Nat) : Nat := elem (rdV s true ty b) w e
  let on (l e : Nat) : Bool := (activeMask s h).getLsbD (l * e / 32)
  let each (l : Nat) (g : Nat → Nat × FFlags) (e : Nat) : Option (Nat × FFlags) := if on l e then some (g e) else none
  let int (sat : Bool) (v : Int) : Nat × FFlags := (narrowRule ty sat v, 0)
  let lane (o : Opd) : Word := rdLane0 s ty o
  let src := st.toNat
  let n := min (tyCount src) (tyCount ty)
  -- the type a reduction computes in (R130), and its tree (R41)
  let ct := if fp = true ∧ w < 32 then (if fl then 0 else if ty % 2 = 1 then 3 else 4) else ty
  let tree (op : Nat → Nat → Nat × FFlags) (empty : Nat) (_ : Nat) : Option (Nat × FFlags) :=
    let els := (List.range (tyCount ty)).map (fun e => if on w e then some (cvtElem ty ct 0 (x e)).1 else none)
    let r := treeReduce op 9 els 0
    some (r.1.getD empty, r.2)
  let ends (hi : Bool) : Nat :=
    if tyFloat ct then (tyFmt ct).infBits (!hi) else ofInt (tyWidth ct) (if hi then intMax (tySigned ct) (tyWidth ct) else intMin (tySigned ct) (tyWidth ct))
  -- the running values of a scan (R42)
  let scan (op : Nat → Nat → Nat × FFlags) (e : Nat) : Option (Nat × FFlags) :=
    (scanVals op none ((List.range (tyCount ty)).map (fun e => if on w e then some (x e) else none))).getD e none
  [ (.vredsum h d a fp sat, [a], tyWidth ct, tree (addElem ct rm sat) 0),
    (.vredmax h d a fp, [a], tyWidth ct, tree (fun x y => (maxElem ct x y, 0)) (ends false)),
    (.vredmin h d a fp, [a], tyWidth ct, tree (fun x y => (minElem ct x y, 0)) (ends true)),
    (.vscan h d a sat 0, [a], w, scan (addElem ty rm sat)),
    (.vscan h d a sat 1, [a], w, scan (fun x y => (maxElem ty x y, 0))),
    (.vscan h d a sat 2, [a], w, scan (fun x y => (minElem ty x y, 0))),
    (.mpopc d p, [], 32, fun _ => some ((List.range 64).countP (fun i => (s.iss.pre.t.mask p.toNat).getLsbD i), 0)),
    (.vadd h d a b sat, [a, b], w, each w (fun e => if fl then fadd f rm (x e) (y e) else int sat (intRule ty (x e) + intRule ty (y e)))),
    (.vsub h d a b sat, [a, b], w, each w (fun e => if fl then fsub f rm (x e) (y e) else int sat (intRule ty (x e) - intRule ty (y e)))),
    (.vmul h d a b sat, [a, b], w, each w (fun e => if fl then fmul f rm (x e) (y e) else int sat (intRule ty (x e) * intRule ty (y e)))),
    (.vfma h d a b c, [a, b, c], w, each w (fun e => ffma f rm false (x e) (y e) (z e))),
    (.vfms h d a b c, [a, b, c], w, each w (fun e => ffma f rm true (x e) (y e) (z e))),
    (.vneg h d a sat, [a], w, each w (fun e => if fl then (fneg f (x e), 0) else int sat (-intRule ty (x e)))),
    (.vabs h d a sat, [a], w, each w (fun e => if fl then (fabs f (x e), 0) else int sat (intRule ty (x e)).natAbs)),
    (.vmin h d a b, [a, b], w, each w (fun e =>
      if fl then (fminmax f false (x e) (y e), 0) else int false (min (intRule ty (x e)) (intRule ty (y e))))),
    (.vmax h d a b, [a, b], w, each w (fun e =>
      if fl then (fminmax f true (x e) (y e), 0) else int false (max (intRule ty (x e)) (intRule ty (y e))))),
    (.vrcp h d a, [a], w, each w (fun e => frcp f rm (x e))),
    (.vrsq h d a, [a], w, each w (fun e => frsq f rm (x e))),
    (.vsqrt h d a, [a], w, each w (fun e => fsqrt f rm (x e))),
    (.vlog2 h d a, [a], w, each w (fun e => flog2 f rm (x e))),
    (.vexp2 h d a, [a], w, each w (fun e =>
      let k := kexp2 (fcvt f fmtF32 0 (x e)).1
      let q := fcvt fmtF32 f 0 k.1
      (q.1, k.2 ||| q.2))),
    (.vcmp h d a b p cc, [a, b], w, each w (fun e => (if vcmpHolds cc.toNat ty (x e) (y e) then 2 ^ w - 1 else 0, 0))),
    (.vsel h d a b c, [a, b, c], w, each w (fun e => (if z e ≠ 0 then x e else y e, 0))),
    (.vand h d a b, [a, b], w, each w (fun e => (bx e &&& by_ e, 0))),
    (.vor h d a b, [a, b], w, each w (fun e => (bx e ||| by_ e, 0))),
    (.vxor h d a b, [a, b], w, each w (fun e => (bx e ^^^ by_ e, 0))),
    (.vnot h d a, [a], w, each w (fun e => (2 ^ w - 1 - bx e, 0))),
    (.vshl h d a b, [a, b], w, each w (fun e => (x e <<< (y e % w), 0))),
    (.vshr h d a b, [a, b], w, each w (fun e => (x e >>> (y e % w), 0))),
    (.vshra h d a b, [a, b], w, each w (fun e => (((BitVec.ofNat w (x e)).sshiftRight (y e % w)).toNat, 0))),
    (.vperm h d a b, [a, b], 32, each 32 (fun i =>
      (elem (rdV s false ty a) 32 (elem (rdV s false ty b) 32 i % 64), 0))),
    (.vbcast h d a b, [a, b], w, each w (fun _ => (x ((lane b).toNat % tyCount ty), 0))),
    (.vslide h d a b c, [a, b, c], 32, each 32 (fun i =>
      let j := i + (lane c).toNat % 64
      (if j < 64 then elem (rdV s false ty a) 32 j else elem (rdV s false ty b) 32 (j - 64), 0))),
    (.viota h d a b, [a, b], w, each w (fun e => int false ((lane a).toInt + e * (lane b).toInt))),
    (.vpack h d a b sat, [a, b], w, each w (fun e =>
      let half := tyCount ty / 2
      let v := if e < half then elem (rdV s false ty a) (2 * w) e else elem (rdV s false ty b) (2 * w) (e - half)
      int sat (if ty % 2 = 1 then (BitVec.ofNat (2 * w) v).toInt else v))),
    (.vunpack h d a pb, [a], 2 * w, each (2 * w) (fun e =>
      let v := intRule ty (x (if pb then tyCount ty / 2 + e else e))
      ((BitVec.ofInt (2 * w) v).toNat, 0))),
    (.vmov h d a, [a], 32, each 32 (fun i => (elem (rdV s false ty a) 32 i, 0))),
    (.vosm h d a b c fp, [a, b, c], 32, fun i =>
      let v (j : Nat) : Nat := elem (rdV s false 0 c) 32 j
      let m := fminmax fmtF32 true (v 0) (v 2)
      let nan := (List.range 4).any (fun j => fmtF32.isNan (v j))
      let bad := nan || m == 0x7F800000
      let minf (x : Nat) : Bool := x == 0xFF800000
      let factor (x : Nat) : Nat × FFlags :=
        let k := kexp2 (fsub fmtF32 0 x m).1
        (k.1, (fsub fmtF32 0 x m).2 ||| k.2)
      let shared : FFlags := (if bad && !nan then flIV else 0) |||
        (((if minf (v 0) then 0 else (factor (v 0)).2) ||| (if minf (v 2) then 0 else (factor (v 2)).2)) &&& ~~~flIV)
      let merge (x1 x2 : Nat) : Nat × FFlags :=
        if bad then (0x7FC00000, 0)
        else if minf (v 0) && minf (v 2) then (0, 0)
        else if minf (v 0) then fmul fmtF32 0 x2 (factor (v 2)).1
        else if minf (v 2) then fmul fmtF32 0 x1 (factor (v 0)).1
        else
          let p := fmul fmtF32 0 x1 (factor (v 0)).1
          let r := ffma fmtF32 0 false x2 (factor (v 2)).1 p.1
          (r.1, p.2 ||| r.2)
      let r : Nat × FFlags :=
        if fp = false then merge (elem (rdV s false 0 a) 32 i) (elem (rdV s false 0 b) 32 i)
        else if i = 0 then (if bad then 0x7FC00000 else m, 0)
        else if i = 1 then merge (v 1) (v 3)
        else (0, 0)
      if (activeMask s h).getLsbD i then some (r.1, r.2 ||| (if fp = true ∧ 1 < i then 0 else shared)) else none),
    (.vquant h d a b c p fp, [a, b, c], w, fun e =>
      let i := e - p.toNat * 64
      if p.toNat * 64 ≤ e ∧ i < 64 ∧ (activeMask s h).getLsbD i then
        some (quantElem ty rm fp (elem (rdV s false (if fp then 0 else 3) a) 32 i) (elem (rdV s false 0 b) 32 i)
          (elem (rdV s false 3 c) 32 i))
      else none) ]
  ++ (if ty < 13 ∧ src < 13 then
    [ (.vcvt h d a p st, [a], w, fun e =>
        let at_ (i : Nat) : Nat × FFlags := cvtElem src ty rm (elem (rdV s false src a) (tyWidth src) i)
        if on w e = false then none
        else if n < tyCount ty then (if p.toNat * n ≤ e ∧ e < p.toNat * n + n then some (at_ (e - p.toNat * n)) else none)
        else some (at_ (if n < tyCount src then p.toNat * n + e else e))) ]
    else [])
  ++ (if ty < 13 ∧ 13 ≤ src then
    [ (.vcvt h d a p st, [a], w, each w (fun e =>
        let m := gqTyBits src
        let blk := (rdV s true 0 a).toNat / 2 ^ (8 * gqBytes m * (e / 16)) % 2 ^ (8 * gqBytes m)
        let v := gqDecode m blk (e % 16)
        let r := f.ofVal rm v.1
        (r.1, r.2 ||| v.2))) ]
    else [])

/-- What a result of elements of `w` bits is: those that are computed, and the destination's old ones. -/
def isElements (s : State) (d : Opd) (w : Nat) (g : Nat → Option (Nat × FFlags)) (r : VReg) : Prop :=
  ∀ e, e < 2048 / w → elem r w e = (match g e with
    | some x => x.1 % 2 ^ w
    | none => elem (oldV s d) w e)

/-- The flags of all elements that are computed. -/
def allFlags (w : Nat) (g : Nat → Option (Nat × FFlags)) : FFlags :=
  (List.range (2048 / w)).foldl (fun acc e => acc ||| ((g e).map Prod.snd).getD 0) 0

/-- The mask a vector instruction writes beside its result (R126). -/
def maskKey : Instr → List Nat
  | .vcmp _ _ _ _ mw _ => if mw = 0 then [] else [RegKey.m mw.toNat]
  | _ => []

/-- What a vector result in registers does: `yv` and the destination hold it from `lat` cycles on, its flags are ORed in then, and
nothing else changes but the registers `ks` (R40, R122). -/
def putsVector (s t : State) (d : Opd) (r : VReg) (fl : FFlags) (lat : Nat) (ks : List Nat) : Prop :=
  (∀ k ∈ RegKey.yv :: (vKey d).toList, t.me.vector k = r ∧ NMap.get 0 t.me.rdy k = s.now + lat)
    ∧ t.me.flagq = (if fl = 0 then s.me.flagq else s.me.flagq ++ [(s.now + lat, fl)])
    ∧ quiet s (t.onTask t.cur (fun k => { k with flagq := s.me.flagq })) (RegKey.yv :: (vKey d).toList ++ ks)

end Sys2Proof.Machine

/-- What a vector result in an append does: `yv` holds it and its flags are ORed in as for a register; of registers no other changes
but `ks`. -/
def Sys2Proof.Machine.sendsVector (s t : State) (r : VReg) (fl : FFlags) (lat : Nat) (ks : List Nat) : Prop :=
  let u := t.onTask t.cur (fun k => { k with flagq := s.me.flagq })
  t.me.vector RegKey.yv = r ∧ t.me.flagq = (if fl = 0 then s.me.flagq else s.me.flagq ++ [(s.now + lat, fl)])
    ∧ keepsRegs s u (RegKey.yv :: ks) ∧ keepsTask s u ∧ keepsRest s u

/-- The bytes a slot takes of a vector: the first 256, or as many as the slot holds (R120). -/
def Sys2Proof.Machine.slotBytes (s : State) (q : BitVec 5) (r : VReg) : List Byte := toBytes (min 256 (s.queue s.cur q.toNat).size) r.toNat

/-- Every vector instruction over elements completes: an element of an active lane becomes what the rules give, any other keeps what the
destination held; the result is ready four cycles after issue, with its flags, and nothing else changes.
What a lone NaN and a masked first element give, the corners of `VOSM` and `VSEL`, and the type of a broadcast immediate are read from the
rules by inference (notes/assumptions/28, 65, 103 to 106). -/
def Obligations.VectorResult : Prop :=
  ∀ s h d a b c sat fp pb p st cc, isAppend d = false → ∀ f ∈ vectorForms s h d a b c sat fp pb p st cc, (∀ o ∈ f.2.1, s.canRead o) →
    f.2.2.1 ∈ [4, 8, 16, 32] →
    ∃ t r, exec f.1 s = .next t ∧ isElements s d f.2.2.1 f.2.2.2 r
      ∧ putsVector s t d r (allFlags f.2.2.1 f.2.2.2) 4 (maskKey f.1)

/-- The same instructions with an append as their destination: the slot, or the sender's credit, is taken at issue, and the bytes are due in the
cycle before the result is ready, four cycles after issue; elements that are not computed are zero there. When that step comes, the slot of an
append that no reset has overtaken holds them, is present, and reads as correct.
What a lone NaN and a masked first element give, the corners of `VOSM` and `VSEL`, and the type of a broadcast immediate are read from the
rules by inference (notes/assumptions/28, 65, 103 to 106). -/
def Obligations.VectorAppend : Prop :=
  (∀ s h (q : BitVec 5) a b c sat fp pb p st cc,
    s.canWrite (.app q) → ∀ f ∈ vectorForms s h (.app q) a b c sat fp pb p st cc, (∀ o ∈ f.2.1, s.canRead o) →
      f.2.2.1 ∈ [4, 8, 16, 32] →
      ∃ t r, exec f.1 s = .next t ∧ isElements s (.app q) f.2.2.1 f.2.2.2 r
        ∧ sendsVector s t r (allFlags f.2.2.1 f.2.2.2) 4 (maskKey f.1) ∧ appendsLater s t q (slotBytes s q r) 4)
  ∧ ∀ s core rest q slot bs lease,
      s.agenda = { due := s.now, act := .fill core q slot bs lease } :: rest →
      let z := s.queue core q
      let x := z.slotAddr (slot % 65536)
      let a := Addr.pad core x
      z.gen = slot / 65536 → (z.st = .opened ∨ z.st = .subsW) → x % 64 = 0 → bs.length % 64 = 0 →
        ∃ t, step s = .next t ∧ NMap.find (t.queue core q).pres (z.idx (slot % 65536)) = some (s.now + 1)
          ∧ t.mem = (List.range (bs.length / 8)).foldl (fun m i => m.writeN (a + 8 * i) ((bs.drop (8 * i)).take 8)) s.mem
          ∧ (∀ m, m < a ∨ a + bs.length ≤ m → t.mem.read m = s.mem.read m) ∧ t.padBad core x bs.length = false

/-- Reductions and scans of integers without saturation are what the tree and the order leave no doubt of: the sum of the active elements in
the type's width, their largest and their smallest, and the sums up to each. A product of integer images adds to its element the exact sum
over the depth positions that take part, wrapped to 32 bits; under SAT one group's sum is clamped. -/
def Obligations.IntegerReductions : Prop :=
  (∀ (w : Nat) (ty : Nat) (els : List (Option Nat)), 3 ≤ ty → ty ≤ 10 → w = tyWidth ty → els.length ≤ 512 → (∀ x, some x ∈ els → x < 2 ^ w) →
    let vals := els.filterMap id
    let sum (l : List Nat) : Nat := (l.foldl (fun acc x => acc + x) 0) % 2 ^ w
    ((treeReduce (addElem ty 0 false) 9 els 0).1.getD 0 = sum vals)
    ∧ (vals ≠ [] → ∃ x ∈ vals, treeReduce (fun a b => (maxElem ty a b, 0)) 9 els 0 = (some x, 0) ∧ ∀ y ∈ vals, intRule ty y ≤ intRule ty x)
    ∧ (vals ≠ [] → ∃ x ∈ vals, treeReduce (fun a b => (minElem ty a b, 0)) 9 els 0 = (some x, 0) ∧ ∀ y ∈ vals, intRule ty x ≤ intRule ty y)
    ∧ (∀ e x, els[e]? = some (some x) →
      (scanVals (addElem ty 0 false) none els)[e]? = some (some (sum ((els.take (e + 1)).filterMap id), 0))))
  ∧ (∀ (fmt v0 : Nat) (a b : List FVal) (act : List Nat), imgInt fmt = true → v0 < 2 ^ 32 → act.Nodup → (∀ k ∈ act, k < (imgFmt fmt).k) →
    let x (k : Nat) : Int := (a.getD k (.fin false 0 0)).toI
    let y (k : Nat) : Int := (b.getD k (.fin false 0 0)).toI
    let sum (f : Nat → Int) (l : List Nat) : Int := (l.map f).sum
    let old : Int := (BitVec.ofNat 32 v0).toInt
    ((mmaElem fmt false false v0 a b act).1 = (BitVec.ofInt 32 (old + sum (fun k => x k * y k) act)).toNat)
    ∧ ((mmaElem fmt true false v0 a b act).1 = (BitVec.ofInt 32 (old + sum (fun k => (x k - y k) * (x k - y k)) act)).toNat)
    ∧ ((∀ k ∈ act, k < 32) → (mmaElem fmt false true v0 a b act).1
        = (BitVec.ofInt 32 (max (-2 ^ 31) (min (2 ^ 31 - 1) (old + sum (fun k => x k * y k) act)))).toNat))

/-- `VCMP` writes beside its result a mask: the bit of each active lane all of whose elements compare true. The mask instructions write a
mask from masks. A mask is ready four cycles after issue, and a write of `m0` is discarded. -/
def Obligations.VectorMasks : Prop :=
  ∀ s h d a b (mw ma mb : BitVec 3) cc,
    let ty := h.ty.toNat
    let w := tyWidth ty
    let act := activeMask s h
    let holds (e : Nat) : Bool := vcmpHolds cc.toNat ty (elem (rdV s false ty a) w e) (elem (rdV s false ty b) w e)
    let isMask (t : State) (f : Nat → Bool) : Prop :=
      mw ≠ 0 → (∀ i, i < 64 → (t.me.mask mw.toNat).getLsbD i = f i) ∧ NMap.get 0 t.me.rdy (RegKey.m mw.toNat) = s.now + 4
    let key := if mw = 0 then [] else [RegKey.m mw.toNat]
    let bit (m : BitVec 3) (i : Nat) : Bool := (s.iss.pre.t.mask m.toNat).getLsbD i
    (s.canRead a → s.canRead b → s.canWrite d →
      ∃ t, exec (.vcmp h d a b mw cc) s = .next t
        ∧ isMask t (fun i => act.getLsbD i && (List.range (32 / w)).all (fun j => holds (32 / w * i + j))))
    ∧ (∃ t, exec (.mand mw ma mb) s = .next t ∧ isMask t (fun i => bit ma i && bit mb i) ∧ quiet s t key)
    ∧ (∃ t, exec (.mor mw ma mb) s = .next t ∧ isMask t (fun i => bit ma i || bit mb i) ∧ quiet s t key)
    ∧ (∃ t, exec (.mnot mw ma) s = .next t ∧ isMask t (fun i => !bit ma i) ∧ quiet s t key)

/-- The comparisons of `VCMP` (R126): of integers by value; of floating-point values with -0 equal to +0, where a NaN makes "not equal" and
"unordered" true and every other condition false. -/
def Obligations.VectorCompare : Prop :=
  ∀ (cc : BitVec 4) (ty a b : Nat), cc.toNat ≤ 6 → ty ≤ 10 → a < 2 ^ tyWidth ty → b < 2 ^ tyWidth ty →
    let f := tyFmt ty
    (3 ≤ ty → cc.toNat < 6 → (vcmpHolds cc.toNat ty a b = true ↔ match cc.toNat with
      | 0 => intRule ty a = intRule ty b
      | 1 => intRule ty a ≠ intRule ty b
      | 2 => intRule ty a < intRule ty b
      | 3 => intRule ty a ≤ intRule ty b
      | 4 => intRule ty b < intRule ty a
      | _ => intRule ty b ≤ intRule ty a))
    ∧ (ty < 3 → (f.isNan a = true ∨ f.isNan b = true) → (vcmpHolds cc.toNat ty a b = true ↔ cc = 1 ∨ cc = 6))
    ∧ (ty < 3 → f.isNan a = false → f.isNan b = false →
      (vcmpHolds 6 ty a b = false)
      ∧ (vcmpHolds 1 ty a b = !vcmpHolds 0 ty a b) ∧ (vcmpHolds 3 ty a b = !vcmpHolds 4 ty a b) ∧ (vcmpHolds 5 ty a b = !vcmpHolds 2 ty a b)
      ∧ (vcmpHolds 4 ty a b = vcmpHolds 2 ty b a) ∧ (a = b → vcmpHolds 0 ty a b = true)
      ∧ (vcmpHolds 0 ty 0 (2 ^ (tyWidth ty - 1)) = true))

namespace Sys2Proof.Machine

/-- What a conversion into GQ blocks makes (R36, R128): the blocks of the source's elements one behind another and zero above them; between
equal block types the bytes of the whole blocks. -/
def blockRule (s : State) (h : VHdr) (a : Opd) (src : BitVec 4) (r : VReg) (fl : FFlags) : Prop :=
  let m := gqTyBits h.ty.toNat
  let size := 8 * gqBytes m
  let n := tyCount src.toNat / 16
  let blk (i : Nat) : Nat × FFlags := gqEncode m h.rnd.toNat ((List.range 16).map (fun j =>
    (tyFmt src.toNat).decode (elem (rdV s false src.toNat a) (tyWidth src.toNat) (16 * i + j))))
  if src = h.ty then r.toNat = (rdV s true 0 a).toNat % 2 ^ (8 * if h.ty = 13 then 256 else 252) ∧ fl = 0
  else (∀ i, i < n → elem r size i = (blk i).1) ∧ r.toNat < 2 ^ (size * n) ∧ fl = (List.range n).foldl (fun acc i => acc ||| (blk i).2) 0

end Sys2Proof.Machine

/-- Conversion into GQ blocks, which takes no mask but `m0`, completes with a register or an append as its destination. That an immediate is
broadcast in the source type is read from the rules by inference (notes/assumptions/106). -/
def Obligations.BlockConversions : Prop :=
  ∀ s h d a (src : BitVec 4), h.msk = 0 → s.canRead a → (13 ≤ h.ty.toNat ∧ h.ty.toNat ≤ 14) → (src.toNat < 3 ∨ src = h.ty) →
    (isAppend d = false → ∃ t r fl, exec (.vcvt h d a 0 src) s = .next t ∧ blockRule s h a src r fl ∧ putsVector s t d r fl 4 [])
    ∧ (∀ q, d = .app q → s.canWrite d →
      ∃ t r fl, exec (.vcvt h d a 0 src) s = .next t ∧ blockRule s h a src r fl ∧ sendsVector s t r fl 4 []
        ∧ appendsLater s t q (slotBytes s q r) 4)

namespace Sys2Proof.Machine

/-- Four-byte piece `i` of the active lanes at an address: none may meet a buffer that forbids the access (R134, R237). -/
def piecesOk (s : State) (h : VHdr) (x : Nat) (rd wr : Bool) : Prop :=
  ∀ i, i < 64 → (activeMask s h).getLsbD i = true → s.bufOk s.cur (x + 4 * i) 4 rd wr = true

/-- The address of lane `i` of a gather (R135). -/
def gatherAt (s : State) (a idx : Opd) (i : Nat) : Nat := (rdLane0 s 3 a + BitVec.ofNat 64 (elem (rdV s false 4 idx) 32 i)).toNat

/-- The lines a gather touches. -/
def touchedLines (s : State) (h : VHdr) (a idx : Opd) : List Nat :=
  (((List.range 64).filter (fun i => (activeMask s h).getLsbD i)).map (fun i => gatherAt s a idx i / 64)).eraseDups

/-- A vector read from scratchpad: the elements of active lanes are the words at their addresses (R134, R135). -/
def loadForms (s : State) (h : VHdr) (d a b : Opd) (off : BitVec 7) : List (Instr × List Opd × Prop × (Nat → Nat) × Nat) :=
  let x := (rdLane0 s 3 a + BitVec.ofNat 64 (64 * off.toNat)).toNat
  let on (i : Nat) : Bool := (activeMask s h).getLsbD i
  [ (.vld h d a off, [a], x % 64 = 0 ∧ x + 256 ≤ 0x300000 ∧ piecesOk s h x true false, fun i => ofBytes (s.iss.mem.readN (Addr.pad s.cur x) 256) / 2 ^ (32 * i) % 2 ^ 32, 4),
    (.vgather h d a b, [a, b],
      ∀ i, i < 64 → on i = true → gatherAt s a b i % 4 = 0 ∧ gatherAt s a b i < 0x300000 ∧ s.bufOk s.cur (gatherAt s a b i) 4 true false = true,
      fun i => ofBytes (s.iss.mem.readN (Addr.pad s.cur (gatherAt s a b i)) 4), if (touchedLines s h a b).isEmpty then 4 else 3 + (touchedLines s h a b).length) ]

/-- What active lane `i` of a vector load becomes. -/
def loadedLane (s : State) (h : VHdr) (val : Nat → Nat) (i : Nat) : Option (Nat × FFlags) :=
  if (activeMask s h).getLsbD i then some (val i, 0) else none

end Sys2Proof.Machine

/-- `VLD` and `VGATHER` complete: the words of active lanes come from scratchpad as it was before the bundle; the result is ready after 4
cycles, or 3 and one for each line a gather touches. -/
def Obligations.VectorLoads : Prop :=
  ∀ s h d a b off, ∀ f ∈ loadForms s h d a b off, (∀ o ∈ f.2.1, s.canRead o) → f.2.2.1 →
    (isAppend d = false → ∃ t r, exec f.1 s = .next t ∧ isElements s d 32 (loadedLane s h f.2.2.2.1) r
      ∧ putsVector s t d r 0 f.2.2.2.2 [])
    ∧ (∀ q, d = .app q → s.canWrite d →
      ∃ t r, exec f.1 s = .next t ∧ isElements s d 32 (loadedLane s h f.2.2.2.1) r ∧ sendsVector s t r 0 f.2.2.2.2 []
        ∧ appendsLater s t q (slotBytes s q r) f.2.2.2.2)

/-- `VST` writes the words of active lanes to scratchpad and no other byte, where no part of a poisoned word is written; at an address of multicast windows it sends each line to the
cores of its window's mask. -/
def Obligations.VectorStore : Prop :=
  ∀ s h v a off, s.canRead v → s.canRead a →
    let x := (rdLane0 s 3 a + BitVec.ofNat 64 (64 * off.toNat)).toNat
    let base := Addr.pad s.cur x
    let on (i : Nat) : Bool := (activeMask s h).getLsbD i
    let val := rdV s false h.ty.toNat v
    let put (k : Nat) : Option Byte := if on (k / 4) then some (BitVec.ofNat 8 (val.toNat / 2 ^ (8 * k))) else none
    let clean (j : Nat) : Prop := NMap.get false s.padPoison (padLine s.cur (x + 8 * j)) = false
      ∧ NMap.get 0 s.padErr (Addr.pad s.cur (x + 8 * j) / 8) < 2
    (x % 64 = 0 → x + 256 ≤ 0x300000 → piecesOk s h x false true → (∀ j, j < 32 → on (2 * j) ≠ on (2 * j + 1) → clean j) →
      ∃ t e, exec (.vst h v a off) s = .next t
        ∧ (let u := s.onCore s.cur (fun c => { c with recent := e })
          keepsRegs u t [] ∧ keepsTask u t ∧ keepsRest u t)
        ∧ (∀ m, m < base ∨ base + 256 ≤ m → t.mem.read m = s.mem.read m)
        ∧ t.mem = (List.range 32).foldl (fun m j =>
            if on (2 * j) || on (2 * j + 1) then m.writeMasked (base + 8 * j) ((List.range 8).map (fun k => put (8 * j + k))) else m) s.mem)
    ∧ (x % 64 = 0 → 0x300000 ≤ x → x + 256 ≤ 0x400000 → (∀ j, j < 4 → bitOf (s.window s.cur (x + 64 * j)) 63 = true) →
      ∃ t, exec (.vst h v a off) s = .next t ∧ quiet s t []
        ∧ ∀ j c, j < 4 → c < 16 →
          let w := s.window s.cur (x + 64 * j)
          bitOf w (22 + c) = true →
          t.hasPosted (s.now + 6 + j) (.ev (.evMulticastWriteLand (coreOfYard s.cur c) (w % 2 ^ 22 + (x + 64 * j) % 2 ^ 16)
            (mcSource s.cur s.me.idx s.me.grp s.iss.bundle) (s.now + 6 + j) ((List.range 64).map (fun k => put (64 * j + k))))))

/-- A vector access to scratchpad that is not aligned, leaves the address range, or meets a buffer whose state forbids it takes ALIGN,
SHAPE_BOUNDS or BUFFER_STATE; a gather names the first active lane it holds of. That ADDR of the record is the address of the access is
read from R341 by inference (notes/assumptions/74). -/
def Obligations.VectorAccessFaults : Prop :=
  ∀ s h d v a b off, s.canRead a → s.canRead b → s.canRead v → s.canWrite d →
    let x := (rdLane0 s 3 a + BitVec.ofNat 64 (64 * off.toNat)).toNat
    let own : Prop := x + 256 ≤ 0x300000
    let cast : Prop := 0x300000 ≤ x ∧ x + 256 ≤ 0x400000 ∧ ∀ j, j < 4 → bitOf (s.window s.cur (x + 64 * j)) 63 = true
    let fault (c : Nat) : Host.Outcome State Fault Refusal := .next (s.takeFault c 0 (x % 2 ^ 57))
    let lane (p : Nat → Prop) (i : Nat) : Prop := i < 64 ∧ (activeMask s h).getLsbD i = true ∧ p (gatherAt s a b i)
    let first (p : Nat → Prop) (i : Nat) : Prop := lane p i ∧ ∀ j, j < i → ¬ lane p j
    (x % 64 ≠ 0 → exec (.vld h d a off) s = fault Code.align ∧ exec (.vst h v a off) s = fault Code.align)
    ∧ (x % 64 = 0 → ¬ own → exec (.vld h d a off) s = fault Code.shapeBounds)
    ∧ (x % 64 = 0 → ¬ own → ¬ cast → exec (.vst h v a off) s = fault Code.shapeBounds)
    ∧ (x % 64 = 0 → own → ¬ piecesOk s h x true false → exec (.vld h d a off) s = fault Code.bufferState)
    ∧ (x % 64 = 0 → own → ¬ piecesOk s h x false true → exec (.vst h v a off) s = fault Code.bufferState)
    ∧ (∀ i, first (fun y => y % 4 ≠ 0) i → exec (.vgather h d a b) s = .next (s.takeFault Code.align 0 (gatherAt s a b i % 2 ^ 57)))
    ∧ (∀ i, (∀ j, ¬ lane (fun y => y % 4 ≠ 0) j) → first (fun y => 0x300000 ≤ y) i →
      exec (.vgather h d a b) s = .next (s.takeFault Code.shapeBounds 0 (gatherAt s a b i % 2 ^ 57)))
    ∧ (∀ i, (∀ j, ¬ lane (fun y => y % 4 ≠ 0) j) → (∀ j, ¬ lane (fun y => 0x300000 ≤ y) j) →
      first (fun y => s.bufOk s.cur y 4 true false = false) i →
      exec (.vgather h d a b) s = .next (s.takeFault Code.bufferState 0 (gatherAt s a b i % 2 ^ 57)))

/-! ### Commands at issue (R70, R71, R85, R185 to R190) -/

namespace Sys2Proof.Machine

/-- The commands that create no operation, with the operands whose values they capture. -/
def plainForms (h : CmdHdr) (q q2 : BitVec 5) (die x y : BitVec 3) (a b c : Opd) (bar : BitVec 8) (core : BitVec 4) (e : BitVec 2)
    (f : Bool) (p : Option Opd) : List (Instr × List Opd) :=
  [ (.cstep h a, [a]), (.unsubs h q, []),
    (.opwait h a, [a]), (.opcancel h a, [a]), (.opdetach h a, [a]), (.opadopt h a, [a]), (.opquery h a, [a]),
    (.qinit h q a q2 x y, [a]), (.qspliceSend h q q2 die x y, []), (.qspliceRecv h q q2 die x y, []), (.qunsplice h q, []),
    (.qreset h q f, []), (.qstat h q, []), (.qpush h q a, [a]), (.qpop h q a, [a]),
    (.binit h bar, []), (.bexpect h bar a, [a]), (.barrive h bar a f core, [a]), (.bwait h bar p, p.toList), (.bclear h bar f, []),
    (.bufdecl h q a b x, [a, b]), (.bufset h q x f, []),
    (.buprog h a b, [a, b]), (.burun h a b c, [a, b, c]), (.bustat h a, [a]),
    (.tlaunch h a, [a]), (.tdep h a, [a]), (.lease h e core a b, [a, b]), (.leaseRcl h, []), (.lfree h e, []), (.publish h x, []) ]

/-- The commands that create an operation, with the operands whose values they capture, those that name images, the completion action, and
the queue an `MDRAIN` appends to. -/
def opForms (h : CmdHdr) (m : MmaPay) (eng f g : Bool) (fmt i j : BitVec 5) (x y : BitVec 3) (r : BitVec 2) (sc : BitVec 10) (am : BitVec 32)
    (s0 s1 : BitVec 16) (a b : Opd) (ca : Option Opd) : List (Instr × List Opd × List Opd × Option Opd × Option Nat) :=
  [ (.mma h m, [m.a, m.b, m.msk], [m.a, m.b], none, none), (.mdist h m, [m.a, m.b, m.msk], [m.a, m.b], none, none),
    (.mtopk h eng fmt i j a x f g b, [a, b], [], none, none), (.mzero h eng am, [], [], none, none),
    (.mdrain h eng fmt i a b x r sc f, [a, b], [], none, match a with | .app q => some q.toNat | _ => none),
    (.mldacc h eng fmt i a b y f, [a, b], [a], none, none),
    (.cpy h s0 s1 fmt ca, [], [], ca, none), (.cpyg h s0 s1 ca, [], [], ca, none), (.cpys h s0 s1 ca, [], [], ca, none),
    (.cpyx h s0 s1 ca, [], [], ca, none), (.cpysc h s0 s1 ca, [], [], ca, none), (.cplan h a ca, [a], [], ca, none),
    (.subs h s0 s1 ca, [], [], ca, none), (.callred h s0 s1 ca, [], [], ca, none), (.cred h s0 s1 ca, [], [], ca, none),
    (.cbc h s0 s1 ca, [], [], ca, none), (.cag h s0 s1 ca, [], [], ca, none), (.crsc h s0 s1 ca, [], [], ca, none),
    (.bqpost h a b ca, [a, b], [], ca, none) ]

/-- A command as its unit receives it (R71, R85): what it is, what it read, where it stands and whose it is. -/
def isCommand (s : State) (i : Instr) (h : CmdHdr) (os : List Opd) (c : Cmd) : Prop :=
  c.ins = i ∧ c.vals = os.map (rdS s) ∧ c.t = s.now ∧ c.bundle = s.iss.bundle ∧ c.mask = s.iss.mask ∧ c.grp = s.me.grp ∧ c.idx = s.me.idx
    ∧ c.serial = s.here.serial ∧ c.tok = (if h.tv then some h.tok.toNat else none) ∧ c.prio = s.me.prioAt s.now

/-- The commands that wait in a unit of the executing core. -/
def State.waitingIn (s : State) (u : Nat) : List Cmd := if u < 2 then (s.me.eng u).q else NMap.get [] s.here.c.cmdq u

/-- The one queue the command joined has it last; no other unit's queue has changed, and the unit's head is tested. -/
def joins (s t : State) (i : Instr) (c : Cmd) : Prop :=
  (∀ u, t.waitingIn u = if u = i.cmdUnit then s.waitingIn u ++ [c] else s.waitingIn u)
    ∧ t.isDue (· == .ev (headEv s.cur i.cmdUnit)) = true

/-- What no command changes at issue: other cores, contexts, groups, storage, every register but a token. -/
def keepsIssue (s t : State) (ks : List Nat) : Prop :=
  (∃ po co os gs, t = { s with posted := po, cores := co, ops := os, gens := gs }) ∧ (∀ n, n ≠ s.cur → t.core n = s.core n)
    ∧ keepsRegs s t ks

end Sys2Proof.Machine

/-- A command without an operation is handed to its unit with the values of its bundle, its token register pending and otherwise as it was. -/
def Obligations.CommandIssue : Prop :=
  ∀ s h q q2 die x y a b c bar core e f p, ∀ i ∈ plainForms h q q2 die x y a b c bar core e f p, (∀ o ∈ i.2, s.canRead o) →
    ∃ t k, exec i.1 s = .next t ∧ isCommand s i.1 h i.2 k ∧ k.op = none ∧ joins s t i.1 k ∧ keepsIssue s t []
      ∧ (h.tv = true → NMap.get false t.me.pend h.tok.toNat = true) ∧ t.ops = s.ops

/-- A command with an operation creates it QUEUED in the lowest entry of its die's table that nothing holds (R185 takes a free entry; which one
is the model's choice, notes/assumptions/111), with its priority and its order bit;
the token register holds the operation's identifier and is pending; the command joins its unit's queue. A completion action that breaks the
rules of its kind takes RESERVED_FIELD, one that names a queue no append may go to takes QUEUE_STATE. -/
def Obligations.OperationIssue : Prop :=
  (∀ s h m eng f g fmt i j x y r sc am s0 s1 a b ca,
    ∀ z ∈ opForms h m eng f g fmt i j x y r sc am s0 s1 a b ca,
      let (ins, os, imgs, act, app) := z
      let v := caVal s act
      let n := s.freeEntry (dieOf s.cur)
      (∀ o ∈ os, s.canRead o ∧ s.canWrite o) → caValid v = true →
      (caKind v = 3 → (NMap.get {} s.iss.pre.c.q (bits (caArg v) 0 5)).st.mayAppend = true) → (∀ o ∈ act.toList, s.canRead o) →
      ∃ t k o, exec ins s = .next t ∧ isCommand s ins h os k ∧ k.op = some n ∧ k.ca = v ∧ joins s t ins k
        ∧ t.op? n = some o ∧ o.st = .queued ∧ o.unit = ins.unitCode ∧ o.core = s.cur ∧ o.ctx = s.ctxOf s.cur ∧ o.grp = s.me.grp
        ∧ o.idx = s.me.idx ∧ o.prio = s.me.prioAt s.now ∧ o.ord = bitOf v.toNat 59 ∧ o.gen = (NMap.get 0 s.gens n + 1) % 2 ^ 24
        ∧ (∀ e, e ≠ n → t.op? e = s.op? e)
        ∧ keepsIssue s t (if h.tv then [RegKey.g h.tok.toNat] else [])
        ∧ (h.tv = true → t.me.scalar h.tok.toNat = opIdent n o.gen ∧ NMap.get false t.me.pend h.tok.toNat = true)
        ∧ k.chans = slotsRead s imgs
        ∧ ∀ q, app = some q → k.res.map Prod.fst = some q)
  ∧ (∀ s h m eng f g fmt i j x y r sc am s0 s1 a b ca, ∀ z ∈ opForms h m eng f g fmt i j x y r sc am s0 s1 a b ca,
    let (ins, os, _, act, _) := z
    let v := caVal s act
    (∀ o ∈ os ++ act.toList, s.canRead o ∧ s.canWrite o) →
      (caValid v = false → act ≠ none → exec ins s = .next (s.takeFault Code.reservedField 0 0))
      ∧ (caValid v = true → caKind v = 3 → (NMap.get {} s.iss.pre.c.q (bits (caArg v) 0 5)).st.mayAppend = false →
        exec ins s = .next (s.takeFault Code.queueState 0 0)))
  ∧ (∀ (s : State) die, (s.ops.filter (fun kv => kv.1 / 8192 == die)).length < 8192 →
    let k := s.freeEntry die
    k / 8192 = die ∧ s.op? k = none ∧ ∀ j, 8192 * die ≤ j → j < k → (s.op? j).isSome = true)

/-- The scale commands complete: `SLD` of a readable, aligned place sends its words to the engine's scale memory and `SFMT` its conversion, each
to land five cycles later; a place that is not takes ALIGN, SHAPE_BOUNDS or BUFFER_STATE. A write that lands puts the words of `SLD` in the
entries from its first on, or converts sixteen entries in place, each from E8M0, FP16 or BF16 in its low bits, to FP32; no other entry and
nothing else of the task changes. ADDR of a record is read from R341 by inference (notes/assumptions/74). -/
def Obligations.ScaleCommands : Prop :=
  (∀ s (eng : Bool) entry a (size cv : BitVec 2), size ≠ 3 → s.canRead a →
    let n := if size = 0 then 4 else if size = 1 then 64 else 256
    let x := (rdS s a).toNat
    let words := (List.range (n / 4)).map (fun i => BitVec.ofNat 32 (ofBytes (s.iss.mem.readN (Addr.pad s.cur (x + 4 * i)) 4)))
    let sends (t : State) (w : ScaleWrite) : Prop := ∃ u, quiet s u []
      ∧ t = (u.onTask s.cur (fun k => { k with sl := s.me.sl ++ [w] })).postEv (s.now + 5) (.evScaleWriteLand s.cur)
    let w (e : Nat) (vs : List (BitVec 32)) (c : Nat) : ScaleWrite :=
      { due := s.now + 5, eng := if eng then 1 else 0, entry := e, vals := vs, conv := c }
    (x % n = 0 → x + n ≤ 0x300000 → s.bufOk s.cur x n true false = true → s.padBad s.cur x n = false →
      ∃ t, exec (.sld eng entry a size) s = .next t ∧ sends t (w entry.toNat words 3))
    ∧ (x % n = 0 → x + n ≤ 0x300000 → s.bufOk s.cur x n true false = true → s.padBad s.cur x n = true →
      ∃ t, exec (.sld eng entry a size) s = .next t ∧ quiet s t []
        ∧ (s.now + 6, Code.memUncorrectable, s.iss.bundle, x) ∈ t.me.late)
    ∧ (∃ t, exec (.sfmt eng entry cv) s = .next t ∧ sends t (w entry.toNat [] cv.toNat))
    ∧ (x % n ≠ 0 → exec (.sld eng entry a size) s = .next (s.takeFault Code.align 0 (x % 2 ^ 57)))
    ∧ (x % n = 0 → 0x300000 < x + n → exec (.sld eng entry a size) s = .next (s.takeFault Code.shapeBounds 0 (x % 2 ^ 57)))
    ∧ (x % n = 0 → x + n ≤ 0x300000 → s.bufOk s.cur x n true false = false →
      exec (.sld eng entry a size) s = .next (s.takeFault Code.bufferState 0 (x % 2 ^ 57))))
  ∧ (∀ (s : State) core (w : ScaleWrite), (s.core core).t.sl = [w] → w.due ≤ s.now →
    let old (i : Nat) : BitVec 32 := NMap.get 0 ((s.core core).t.eng w.eng).scale i
    ∃ t e, exec (.evScaleWriteLand core) s = .next t
      ∧ onlyTask s t core (({ (s.core core).t with sl := [] } : TaskSt).setEng w.eng { ((s.core core).t.eng w.eng) with scale := e })
      ∧ (w.conv = 3 → ∀ i, NMap.get 0 e i
          = if w.entry ≤ i ∧ i < w.entry + w.vals.length then w.vals.getD (i - w.entry) 0 else old i)
      ∧ (w.conv ≤ 2 → ∀ i, NMap.get 0 e i
          = if w.entry ≤ i ∧ i < w.entry + 16 then
              (let v := (old i).toNat
               BitVec.ofNat 32 (match w.conv with
                | 0 => if v % 256 = 255 then 0x7FC00000 else (fmtF32.round 0 false 1 ((v % 256 : Nat) - 127 : Int)).1
                | 1 => (fcvt fmtF16 fmtF32 0 (v % 2 ^ 16)).1
                | _ => (fcvt fmtBF16 fmtF32 0 (v % 2 ^ 16)).1))
            else old i))

/-! ### Micro-ops of a bank unit (R309, R310) -/

namespace Sys2Proof.Machine

/-- Lane `j` of an accumulator of a bank unit (R297). -/
def laneOf (b : BankUnit) (i : BitVec 3) (j : Nat) : Nat := (NMap.get 0 b.b i.toNat).toNat / 2 ^ (32 * j) % 2 ^ 32

/-- The micro-ops that compute: the accumulator they write, and what lane `j` of it becomes with the flags it raises (R310). -/
def microForms (s : State) (d a e j0 : BitVec 3) (w : BitVec 5) (off : BitVec 10) (fmt : BitVec 5) : List (Instr × (Nat → Nat × FFlags)) :=
  let b := s.unit s.curUnit
  let x := laneOf b a
  let y := laneOf b e
  let add := fadd fmtF32 0
  [ (.buldw d w, fun j => (ofBytes ((b.row.drop (32 * w.toNat + 4 * j)).take 4), 0)),
    (.buwid d off fmt, fun j =>
      ((fmtF32.ofVal 0 ((floatOf fmt.toNat).decode (elemOf (fmtSize fmt.toNat) (b.row.drop off.toNat) j))).1, 0)),
    (.bufadd d a e, fun j => add (x j) (y j)),
    (.bufmul d a e, fun j => fmul fmtF32 0 (x j) (y j)),
    (.bufmax d a e, fun j => (fminmax fmtF32 true (x j) (y j), 0)),
    (.bufma d a e, fun j => ffma fmtF32 0 false (x j) (y j) (laneOf b d j)),
    (.buiadd d a e, fun j => (x j + y j, 0)),
    (.bubc d a j0, fun _ => (x j0.toNat, 0)),
    (.bursum d a, fun j =>
      let p (i : Nat) : Nat × FFlags := add (x (2 * i)) (x (2 * i + 1))
      let q (i : Nat) : Nat × FFlags := add (p (2 * i)).1 (p (2 * i + 1)).1
      let r := add (q 0).1 (q 1).1
      if j = 0 then (r.1, (p 0).2 ||| (p 1).2 ||| (p 2).2 ||| (p 3).2 ||| (q 0).2 ||| (q 1).2 ||| r.2) else (0, 0)),
    (.buexp d a, fun j => kexp2 (x j)),
    (.buzero d, fun _ => (0, 0)) ]

/-- Nothing has changed but one bank unit, what is posted and the count of free values. -/
def onlyUnit (s t : State) (u : Nat) : Prop :=
  (∃ po fr un, t = { s with posted := po, free := fr, units := un }) ∧ ∀ v, v ≠ u → t.unit v = s.unit v

/-- A run that goes on has its next micro-op due, or due already. -/
def goesOn (t : State) (u : Nat) : Prop := (t.unit u).running = true → (t.unit u).waitPage = false → t.isDue (· == .micro u) = true

/-- A token register of a command that waits on its core: it holds the status word, and its pending bit is clear (R187, R188). -/
def tokenDone (t : State) (core r code unit detail : Nat) : Prop :=
  (t.core core).t.scalar r = statusWord code unit detail ∧ NMap.get false (t.core core).t.pend r = false

/-- Whether a command's token register on its core still waits for it. -/
def tokenWaits (s : State) (core : Nat) (c : Cmd) (r : Nat) : Prop :=
  c.tok = some r ∧ r < 64 ∧ (s.core core).t.isTask c.grp c.idx = true ∧ NMap.find (s.core core).t.tokOwner r = some (.cmd c.serial)

end Sys2Proof.Machine

/-- Every micro-op that computes completes: the lanes of its accumulator are what the rules give, its flags join the run's, and nothing else of
the unit or the package changes. -/
def Obligations.MicroLanes : Prop :=
  ∀ s d a e j0 w off fmt, ∀ f ∈ microForms s d a e j0 w off fmt,
    let u := s.curUnit
    ∃ t v, exec f.1 s = .next t ∧ onlyUnit s t u ∧ goesOn t u
      ∧ t.unit u = { s.unit u with b := v, flags := (List.range 8).foldl (fun acc j => acc ||| (f.2 j).2) (s.unit u).flags }
      ∧ (∀ j, j < 8 → laneOf (t.unit u) d j = (f.2 j).1 % 2 ^ 32)
      ∧ ∀ k, k ≠ d.toNat → NMap.get 0 v k = NMap.get 0 (s.unit u).b k

/-- A micro-program run of a core has ended with a code: its unit is free, and, unless emits of it are on their way, a token register that waits
for its command holds the code, with a detail under the run's flags, whose bits the model leaves free. -/
def Sys2Proof.Machine.runEnds (s t : State) (core : Nat) (c : Cmd) (code detail : Nat) : Prop :=
  (t.unit s.curUnit).running = false
    ∧ (s.runOut core c = false → ∀ r, tokenWaits s core c r → ∃ f, tokenDone t core r code 0x40 (detail + 2 ^ 13 * f))
    ∧ (s.runOut core c = true → ∃ f, (core, c, code, detail + 2 ^ 13 * f) ∈ (t.unit s.curUnit).ends)

/-- `BULOOP` goes back while the counter is above 1, and leaves it 0; `BUEMIT` hands its accumulator over for the next place of the destination, up
to the limit, beyond which the run ends with BANK_UNIT_ERROR; `BUHALT` ends the run with its emits and flags. `BUROW` reads the next row when the
rotation is shared and the bank free, line by line as it translates, and the next micro-op is due 120 cycles later; an uncorrectable word ends the
run with MEM_UNCORRECTABLE, a line that does not translate with its fault, but for a page that is not present, for which the run waits. Bytes of a
unit that land are stored in the scratchpad. A unit takes up the first of its work by priority, issue and place; a query's entry scores its key
row, then merges its value row; a bad row ends the entry with BANK_UNIT_ERROR. Corners follow notes/assumptions/90 and 119. -/
def Obligations.MicroControl : Prop :=
  (∀ s (n : BitVec 16) (j : BitVec 6) (a : BitVec 3) core c snap rest,
    let u := s.curUnit
    let b := s.unit u
    (∃ t, exec (.busetlc n) s = .next t ∧ onlyUnit s t u ∧ goesOn t u ∧ t.unit u = { b with lc := n.toNat })
    ∧ (∃ t, exec (.buloop j) s = .next t ∧ onlyUnit s t u ∧ goesOn t u
      ∧ t.unit u = if 1 < b.lc then { b with lc := b.lc - 1, mpc := j.toNat } else { b with lc := 0 })
    ∧ (b.work = .run core c snap :: rest → c.ins.unitCode = 0x40 →
      let at_ := (c.vals.getD 1 0).toNat + 32 * b.emits
      let die := unitDie u
      (b.emits < (c.vals.getD 2 0).toNat →
        ∃ t, exec (.buemit a) s = .next t ∧ goesOn t u ∧ t.unit u = { b with emits := b.emits + 1 }
          ∧ (∃ w ∈ (t.pchan die (placeOf (s.npc die) (s.unitPa u)).p).unslot, w.op = none
              ∧ w.land = some (core, at_, (List.range 8).flatMap (fun i => toBytes 4 (laneOf b a i)), c.src core))
          ∧ (∀ m, t.mem.read m = s.mem.read m) ∧ t.cores = s.cores)
      ∧ ((c.vals.getD 2 0).toNat ≤ b.emits → 1 ≤ b.mpc → b.mpc ≤ 64 →
        ∃ t, exec (.buemit a) s = .next t ∧ runEnds s t core c Code.bankUnitError (b.mpc - 1))
      ∧ (∃ t, exec .buhalt s = .next t ∧ runEnds s t core c 0 b.emits)))
  ∧ (∀ (s : State) core x (bs : List Byte) src rest,
    s.agenda = { due := s.now, act := .land core x bs src } :: rest → NMap.get false (s.die (dieOf core)).gated (yardOf core) = false →
    (∀ e ∈ (s.core core).recent, e.at_ ≤ s.now) → (∀ kv ∈ s.units, kv.2.ends = []) → x % 8 = 0 → bs.length = 32 →
      ∃ t, step s = .next t
        ∧ t.mem = (List.range 4).foldl (fun m i => m.writeN (Addr.pad core (x + 8 * i)) ((bs.drop (8 * i)).take 8)) s.mem
        ∧ ∀ m, m < Addr.pad core x ∨ Addr.pad core x + 32 ≤ m → t.mem.read m = s.mem.read m)
  ∧ (∀ s core c snap rest,
    let u := s.curUnit
    let b := s.unit u
    let die := unitDie u
    let v := s.fixMode die (unitPc u)
    let n := s.npc die
    let h := s.runRowHome c
    let vas := (List.range 16).map (fun i => (c.vals.getD 0 0).toNat / 64 * 64 - c.h * 64 * n + b.rp * (32768 * n) + 64 * n * i)
    b.work = .run core c snap :: rest → c.ins.unitCode = 0x40 → b.stop = none → s.cmdFrozen core c = false → v.rowWait u = none →
      (∀ xs, v.runHomesOf (s.ctxOf core) vas = .ok xs →
        (v.rowBad die h = false →
          ∃ t row, exec .burow s = .next t
              ∧ t.unit u = { b with row := row, rowErr := false, rp := (b.rp + 1) % 2 ^ 32, stepRot := s.now / 256 + 1 }
            ∧ row.length = 1024
            ∧ (∀ i, i < 1024 → (∃ x, xs[i / 64]? = some x ∧ h.isLine die n x (i / 64) = true) → row.getD i 0 = (v.rowBytes die h).getD i 0)
            ∧ t.hasPosted (s.now + 120) (.micro u) ∧ (∀ m, t.mem.read m = s.mem.read m) ∧ t.cores = s.cores)
        ∧ (v.rowBad die h = true → ∃ t, exec .burow s = .next t ∧ runEnds s t core c Code.memUncorrectable 0))
      ∧ (∀ f, v.runHomesOf (s.ctxOf core) vas = .error f →
        (f.code ≠ Code.pageNotPresent → ∃ t, exec .burow s = .next t ∧ runEnds s t core c f.code 0)
        ∧ (f.code = Code.pageNotPresent → ∃ t, exec .burow s = .next t ∧ t.unit u = { b with waitPage := true, mpc := b.mpc - 1 })))
  ∧ (∀ (s : State) u w c core,
    let b := s.unit u
    let v := s.fixMode (unitDie u) (unitPc u)
    let ready := b.work.filter (fun w => !s.workFrozen w)
    (b.running = true → (∀ k i rest, b.work ≠ .entry k i :: rest) → exec (.evRowStep u) s = .next s)
    ∧ (b.running = false → s.pickWork ready = none → exec (.evRowStep u) s = .next s)
    ∧ (s.pickWork ready = some w → w ∈ ready ∧ ∀ x ∈ ready,
        let p := s.workRank w
        let q := s.workRank x
        q.1 < p.1 ∨ (q.1 = p.1 ∧ (p.2.1 < q.2.1 ∨ (p.2.1 = q.2.1 ∧ 8 * xOf p.2.2 + yOf p.2.2 ≤ 8 * xOf q.2.2 + yOf q.2.2))))
    ∧ (b.running = false → s.pickWork ready = some (.run core c none) → (b.tag = none ∨ b.tag = some (s.ctxOf core)) →
      ∃ t, exec (.evRowStep u) s = .next t ∧ onlyUnit s t u ∧ t.hasPosted (s.now + 1) (.micro u)
        ∧ t.unit u = { b with work := .run core c none :: dropWorkOnce (.run core c none) b.work, running := true, stop := none, waitPage := false,
                              mpc := 0, b := [], lc := 0, rp := 0, row := [], rowErr := false, emits := 0, flags := 0 })
    ∧ (∀ x, b.running = false → s.pickWork ready = some (.run core c none) → b.tag = some x → x ≠ s.ctxOf core →
      ∃ t, exec (.evRowStep u) s = .next t ∧ (t.unit u).running = false
        ∧ ∀ r, tokenWaits s core c r → tokenDone t core r Code.bankUnitError c.ins.unitCode 0)
    ∧ (b.running = false → s.pickWork ready = some (.prog core c) → ∃ t, exec (.evRowStep u) s = .next t ∧ (t.unit u).running = false
      ∧ (t.unit u).tag = some (s.ctxOf core)
      ∧ (∀ j, j < 64 → NMap.get 0 (t.unit u).store j = BitVec.ofNat 32 (ofBytes (((s.agentBytes core (c.vals.getD 1 0).toNat 256 c.t).drop (4 * j)).take 4)))
      ∧ ∀ r, tokenWaits s core c r → tokenDone t core r 0 c.ins.unitCode 0)
    -- the row step of an entry
    ∧ (∀ k i rest o e h, b.running = true → b.work = .entry k i :: rest → s.op? k = some o → o.entries[i]? = some e → e.fin = false →
      o.stop = none →
      (e.inValue = true ∨ s.opFrozen o = false) → v.rowWait u = none →
      let va := (if e.inValue then e.vrow else e.krow) + e.row * s.rowStride (unitDie u)
      v.rowHome o.ctx va = .ok h → unitKey (unitDie u) h.p h.bank = u → (e.inValue = true ∨ h.row = e.row0 + e.row) →
      let q := parseQuery o.block
      let row := v.rowBytes (unitDie u) h
      let n := min q.ppr (e.npos - e.row * q.ppr)
      let pos (j : Nat) : Nat := e.row * q.ppr + j
      let entry (x : QEntry) (f : FFlags) : Prop := ∃ t, exec (.evRowStep u) s = .next t
        ∧ t.op? k = some { o with entries := o.entries.modify i (fun _ => x), flags := o.flags ||| f, prog := o.prog + 16 }
        ∧ t.isDue (· == .ev (.evRowStep u)) = true ∧ (∀ m, t.mem.read m = s.mem.read m)
      (v.rowBad (unitDie u) h = false → e.inValue = false →
        let r (j : Nat) : Nat × FFlags := keyScore q row (pos j)
        entry { e with inValue := true, scores := (List.range n).map (fun j => BitVec.ofNat 32 (r j).1) }
          ((List.range n).foldl (fun f j => f ||| (r j).2) 0))
      ∧ (v.rowBad (unitDie u) h = false → e.inValue = true →
        let z := (List.range n).foldl (fun x j => mergePos q row (pos j) (e.scores.getD j 0).toNat x) (e.m.toNat, e.l.toNat, e.acc.map BitVec.toNat, 0)
        entry { e with inValue := false, scores := [], row := e.row + 1, pos := min e.npos ((e.row + 1) * q.ppr), m := BitVec.ofNat 32 z.1,
                       l := BitVec.ofNat 32 z.2.1, acc := z.2.2.1.map (BitVec.ofNat 32), fin := decide (e.npos ≤ (e.row + 1) * q.ppr) } z.2.2.2)
      ∧ (v.rowBad (unitDie u) h = true →
        let x : QEntry := { e with err := true, vr := e.inValue, errRow := h.row, fin := true }
        ∃ (y : State) (r : RecInfo), exec (.evRowStep u) s = .next (y.notice o.ctx r) ∧ r.code = Code.bankUnitError ∧ r.detail = x.status i ∧ r.word5 = va % 2 ^ 57
          ∧ y.op? k = some { o with entries := o.entries.modify i (fun _ => x) })))

/-! ### Fetch, walks and the memory port (R61, R98 to R100, R250, R255, R270, R287, R359, R225) -/

/-- A block that was asked for arrives: the buffer holds the 64 bytes of its page's home, and a bundle that waits for them is due at once; a fetch
whose page forbids it raises its fault against the bundle that needs the block. A page walk returns: the access enters the port with its home, and issue goes on
after its bundle; a page that forbids the access strikes that bundle. -/
def Obligations.FetchAndWalk : Prop :=
  ∀ (s : State) core blk e,
    let c := s.core core
    let ctx := s.ctxOf core
    let die := dieOf core
    let needed : Prop := c.t.mode = .running ∧ c.bundleBytes c.t.pc = .error blk
    (c.fetching.contains blk = true → c.t.port.any (fun r => c.t.fetchWait.contains r.id) = false → 64 * blk < 2 ^ 57 →
      State.tlbLookup c.tlb ctx (64 * blk) = some e → c.block blk = none →
      (∀ x, checkLeaf s die e (64 * blk) { acc := 3 } = .ok x → s.homeBad x.tgt 64 = false →
        ∃ t, exec (.evFetchBlockArrive core blk) s = .next t ∧ (t.core core).block blk = some (s.homeBytes ctx x.tgt 64)
          ∧ (t.core core).t = c.t ∧ keepsStore s t core ∧ (needed → t.hasPosted s.now (.issue core c.gen)))
      ∧ (∀ f, checkLeaf s die e (64 * blk) { acc := 3 } = .error f →
        ∃ u, exec (.evFetchBlockArrive core blk) s = .next (if c.needs blk then u.takeFetch core f else u)
          ∧ (c.needs blk = true ↔ needed) ∧ (u.core core).t = c.t ∧ keepsStore s u core))
    ∧ (∀ u, c.t.walk = some u → u.target = none → c.t.after = 0 → u.req.kind ≠ .fence →
      (State.tlbLookup (s.die (ctx / 64)).tlb ctx u.req.va = some e
        ∨ State.tlbLookup (s.die (ctx / 64)).tlb ctx u.req.va = none ∧ s.walk ctx u.req.va u.req.ask.acc = .ok e) →
      let rp := c.t.replay.getD {}
      (∀ x, checkLeaf s die e u.req.va u.req.ask = .ok x →
        ∃ t st, exec (.evPageWalkReturn core) s = .next t
          ∧ { u.req with
              tgt := x.tgt, peer := x.peer, pageKind := x.kind, page := (e.base, e.log, bits e.leaf.toNat 38 10), grp := c.t.grp, idx := c.t.idx,
              stage := st } ∈ (t.core core).t.port
          ∧ (t.core core).t.walk = none ∧ (t.core core).t.pc = rp.npc ∧ t.hasPosted (max (s.now + 1) c.t.notBefore) (.issue core c.gen)
          ∧ (∀ k, (t.core core).t.scalar k = c.t.scalar k) ∧ keepsStore s t core)
      ∧ (∀ f, checkLeaf s die e u.req.va u.req.ask = .error f →
        ∃ v, exec (.evPageWalkReturn core) s = .next (v.takeLate core rp u f.code 0 f.word5) ∧ keepsStore s v core))

/-- What an atomic leaves at its home (R103), for a value of `n` bytes. -/
def Sys2Proof.Machine.atomicRule (kind n old val cmp : Nat) : Nat :=
  let o := BitVec.ofNat (8 * n) old
  let v := BitVec.ofNat (8 * n) val
  (match kind with
    | 0 => o + v
    | 1 => o &&& v
    | 2 => o ||| v
    | 3 => o ^^^ v
    | 4 => if o.sle v then o else v
    | 5 => if o.sle v then v else o
    | 6 => if o ≤ v then o else v
    | 7 => if o ≤ v then v else o
    | 8 => v
    | _ => if o = BitVec.ofNat (8 * n) cmp then v else o).toNat

/-- The data of a load reaches its register extended, or its slot; an atomic's old value follows its kind; an uncorrectable word is a fault of the
task that made the access, raised against its oldest bundle that has not issued. A store is performed at its home: in local memory, in host
memory, or in the publication buffer; an atomic replaces the value there and keeps the old one for its register. A host read that fails or times out
receives ones and the fault LINK_DOWN, one through a failed circuit the fault PEER_WINDOW. A multicast write lands in the receiver's scratchpad
and changes nothing else there; a bank takes one in a cycle, and another waits for the next. That a load sees its task's older stores is read
from R251 by inference (notes/assumptions/69). -/
def Obligations.PortEvents : Prop :=
  (∀ (s : State) core id r, (s.core core).t.req? id = some r → 1 ≤ r.size → r.size ≤ 8 → r.slotBad = none →
    let k0 := (s.core core).t
    let gets (t : State) (x : Word) : Prop := ∀ k, r.dest = .reg k → k ≤ RegKey.yb → NMap.find k0.wait k = some id →
      (t.core core).t.scalar k = x ∧ NMap.find (t.core core).t.wait k = none ∧ NMap.get 0 (t.core core).t.rdy k = s.now
    let left (t : State) : Prop := ∀ q ∈ (t.core core).t.port, q.id ≠ id
    -- the value arrives, the access leaves the port, and its fault, if it has one, is raised
    let ends (i : Instr) (x : Word) (code : Option Nat) : Prop := ∃ (v : State) (po : List Timed), gets v x ∧ left v ∧ keepsStore s v core
      ∧ exec i s = .next { (match code with
          | some c => if k0.isTask r.grp r.idx then v.takeUnissued core c r.bundle r.va else v
          | none => v) with posted := po }
    let stores (t : State) (m : Memory) : Prop := t.mem = m ∧ (∃ po fr di me ec ve cx pe co,
        t = { s with posted := po, free := fr, dies := di, mem := me, ecc := ec, veils := ve, ctxs := cx, padErr := pe, cores := co })
      ∧ (∀ n, n ≠ core → t.core n = s.core n) ∧ ∀ k, (t.core core).t.scalar k = k0.scalar k
    let bs := toBytes r.size r.val.toNat
    let uncorrectable : Option Nat := if r.err then some Code.memUncorrectable else none
    ((∀ q c, r.dest ≠ .slot q c) → s.peerFails core r = false →
      (r.kind = .load → r.stage = .performed → r.data.toNat < 2 ^ (8 * r.size) →
        ends (.evLoadDataArrive core id) (extendRule r.sx r.size r.data.toNat) uncorrectable)
      ∧ (∀ a, r.kind = .load → r.stage = .queued → r.tgt = .host a → s.cutOff core r = false → s.olderMeets core r = false →
        ends (.evLoadDataArrive core id) (extendRule r.sx r.size (ofBytes (s.loadBytes core r))) none)
      ∧ (r.kind = .amo → r.stage = .performed → r.data.toNat < 2 ^ (8 * r.size) →
        ends (.evLoadDataArrive core id) (extendRule (decide (r.amo ≠ 6 ∧ r.amo ≠ 7)) r.size r.data.toNat) uncorrectable))
    ∧ ((∀ q c, r.dest ≠ .slot q c) → r.kind = .load →
      (∀ a, r.tgt = .host a → r.stage ≠ .held → ends (.evHostReadTimeout core id) (extendRule r.sx r.size (2 ^ (8 * r.size) - 1)) (some Code.linkDown))
      ∧ (s.peerFails core r = true → r.stage ≠ .held →
        ends (.evLoadDataArrive core id) (extendRule r.sx r.size (2 ^ (8 * r.size) - 1)) (some Code.peerWindow)))
    ∧ (∀ q c, r.dest = .slot q c → r.kind = .load → r.stage = .performed → r.err = false → s.peerFails core r = false →
      let z := s.queue core q
      let a := Addr.pad core (z.slotAddr (c % 65536))
      z.gen = c / 65536 → (z.st = .opened ∨ z.st = .subsW) → z.slotAddr (c % 65536) % 8 = 0 →
        ∃ t, exec (.evLoadDataArrive core id) s = .next t ∧ left t
          ∧ NMap.find (t.queue core q).pres (z.idx (c % 65536)) = some s.now
          ∧ t.mem = s.mem.writeN a (toBytes 8 (extend r.sx r.size r.data.toNat).toNat)
          ∧ ∀ m, m < a ∨ a + 8 ≤ m → t.mem.read m = s.mem.read m)
    ∧ (s.peerFails core r = false → s.peerWaits core r = false → s.olderMeets core r = false →
      (r.stage = .queued ∨ r.stage = .slotted) →
      (r.kind = .store →
        (∀ d pa, r.tgt = .loc d pa → pa % r.size = 0 → 32 % r.size = 0 → (s.eccOf d pa).bad = false →
          ∃ t, exec (.evWritePerformed core id) s = .next t ∧ left t ∧ stores t (s.mem.writeN (Addr.localMem d pa) bs))
        ∧ (∀ a, r.tgt = .host a → s.hostCut (s.ctxOf core / 64) a = false → s.cutOff core r = false →
          ∃ t, exec (.evWritePerformed core id) s = .next t ∧ left t
            ∧ stores t ((List.range r.size).foldl (fun m i => m.writeN (Addr.host (a + i)) [bs.getD i 0]) s.mem))
        ∧ (∀ w a, r.tgt = .pub w a → (s.die (s.ctxOf core / 64)).pubBuf.length + r.size ≤ 65536 →
          ∃ t, exec (.evWritePerformed core id) s = .next t ∧ left t ∧ stores t s.mem
            ∧ (t.die (s.ctxOf core / 64)).pubBuf = (s.die (s.ctxOf core / 64)).pubBuf ++ (List.range r.size).map (fun i =>
                { ctx := s.ctxOf core, win := w, addr := a + i, at_ := s.now, core := core, val := bs.getD i 0 })))
      ∧ (∀ d pa, r.kind = .amo → (r.size = 4 ∨ r.size = 8) → r.tgt = .loc d pa → pa % r.size = 0 → s.homeBad r.tgt r.size = false →
        (s.eccOf d pa).bad = false → (k0.port.map (fun q => q.id)).Nodup →
        let old := ofBytes (s.loadBytes core r)
        let new := atomicRule r.amo r.size old r.val.toNat r.cmp.toNat
        ∃ t, exec (.evWritePerformed core id) s = .next t
          ∧ stores t (if r.amo = 9 ∧ new = old then s.mem else s.mem.writeN (Addr.localMem d pa) (toBytes r.size new))
          ∧ { r with data := BitVec.ofNat 64 old, err := false, stage := .performed } ∈ (t.core core).t.port)))
  ∧ (∀ (s : State) core a src fell (bs : List (Option Byte)), a % 8 = 0 → bs.length = 8 ∨ bs.length = 64 →
    let part (j : Nat) : List (Option Byte) := (bs.drop (8 * j)).take 8
    let clean (j : Nat) : Prop := NMap.get false s.padPoison (padLine core (a + 8 * j)) = false
      ∧ NMap.get 0 s.padErr (Addr.pad core (a + 8 * j) / 8) < 2
    let taken := (s.core core).mcTaken.contains (a / 2 ^ 14, s.now)
    (taken = false → (∀ e ∈ s.agenda, s.now < e.due) → (∀ e ∈ (s.core core).recent, e.at_ ≤ s.now) →
      (∀ j, j < bs.length / 8 → (part j).any Option.isNone = true → clean j) →
      ∃ t, exec (.evMulticastWriteLand core a src fell bs) s = .next t
        ∧ t.mem = (List.range (bs.length / 8)).foldl (fun m j =>
            if (part j).all Option.isNone then m else m.writeMasked (Addr.pad core (a + 8 * j)) (part j)) s.mem
        ∧ (∀ m, m < Addr.pad core a ∨ Addr.pad core a + bs.length ≤ m → t.mem.read m = s.mem.read m)
        ∧ (∃ po di me pe pp co, t = { s with posted := po, dies := di, mem := me, padErr := pe, padPoison := pp, cores := co })
        ∧ (∀ n, n ≠ core → t.core n = s.core n) ∧ ∃ mt, t.core core = { s.core core with mcTaken := mt })
    ∧ (taken = true → exec (.evMulticastWriteLand core a src fell bs) s
        = .next (s.postEv (s.now + 1) (.evMulticastWriteLand core a src fell bs))))

/-! ### The memory stacks (R284 to R292) -/

namespace Sys2Proof.Machine

/-- L of R287: by the mode of the rotation. -/
def slotLatency : PcMode → Nat
  | .active => 384
  | .shared => 504
  | .powerDown => 408
  | .selfRefresh => 1024

/-- Nothing has changed but one die, what is posted with the count of free values, and what the crown controller is told. -/
def onlyDie (s t : State) (die : Nat) : Prop :=
  (∃ po fr di cr, t = { s with posted := po, free := fr, dies := di, crown := cr }) ∧ ∀ d, d ≠ die → t.die d = s.die d

end Sys2Proof.Machine

/-- A slot begins. Its owner's oldest request takes it, if its bank is free within the wait that L allows: a load is read at its home 192
cycles before its data arrives at L, a store is performed 64 cycles before L, an atomic does both, and the bank is held for 40 cycles. An
unclaimed slot serves the unslotted request that the order of priority and arrival puts first among those whose bank is free, scrub writes
last: the line that an operation reads and the bytes of a bank unit go on L cycles later, the line that an operation writes in the slot's cycle
(notes/assumptions/141), and a scrubbed word is correct. -/
def Obligations.SlotEvents : Prop :=
  ∀ (s : State) die p owner,
    let v := s.fixMode die p
    let c := v.pchan die p
    let core := 64 * die + owner
    let l := slotLatency c.mode
    let bank (pa : Nat) : Nat := (placeOf (s.npc die) pa).bank
    let held (t : State) (pa : Nat) : Prop :=
      NMap.get 0 (t.pchan die p).bankFree (bank pa) = max s.now (NMap.get 0 c.bankFree (bank pa)) + 40
    (∀ id rest r d pa, NMap.get [] c.queues owner = id :: rest → (s.core core).t.req? id = some r → r.tgt = .loc d pa →
      NMap.get 0 c.bankFree (bank pa) ≤ s.now + (if c.mode = .shared then 180 else 60) →
      ∃ t, exec (.evEscapementSlot die p owner) s = .next t
        ∧ (t.core core).t.req? id = some { r with stage := .slotted, slot := s.now, lat := l }
        ∧ NMap.get [] (t.pchan die p).queues owner = rest ∧ held t pa ∧ keepsStore s t core
        ∧ ((r.kind = .load ∨ r.kind = .amo) → t.hasPosted (s.now + l) (.ev (.evLoadDataArrive core id)))
        ∧ (r.kind = .load → t.hasPosted (s.now + l - 192) (.sample core id))
        ∧ ((r.kind = .store ∨ r.kind = .amo) → t.hasPosted (s.now + l - 64) (.ev (.evWritePerformed core id))))
    ∧ (∀ u k o, NMap.get [] c.queues owner = [] → pickUnslot (s.npc die) c s.now = some u → u.op = some k → s.op? k = some o → o.need = 1 →
      ∃ t, exec (.evEscapementSlot die p owner) s = .next t ∧ held t u.pa 
        ∧ t.hasPosted (if o.reqs.head? = some (5, 0) then s.now else s.now + l) (.ev (o.lineEv k))
        ∧ t.op? k = some { o with need := 0 } ∧ (∃ po fr di os, t = { s with posted := po, free := fr, dies := di, ops := os }))
    ∧ (∀ u, NMap.get [] c.queues owner = [] → pickUnslot (s.npc die) c s.now = some u → u.op = none →
      ∃ t, exec (.evEscapementSlot die p owner) s = .next t ∧ held t u.pa
        ∧ (∃ po fr di ec, t = { s with posted := po, free := fr, dies := di, ecc := ec })
        ∧ (∀ n x bs src, u.land = some (n, x, bs, src) → t.hasPosted (s.now + l) (.land n x bs src) ∧ t.ecc = s.ecc)
        ∧ (u.land = none → s.eccOf die u.pa = .correctable → t.eccOf die u.pa = .correct))
    ∧ (∀ u, pickUnslot (s.npc die) c s.now = some u →
      u ∈ c.unslot ∧ NMap.get 0 c.bankFree (bank u.pa) ≤ s.now
        ∧ ∀ x ∈ c.unslot, NMap.get 0 c.bankFree (bank x.pa) ≤ s.now →
            (u.isScrub = true → x.isScrub = true) ∧ (x.isScrub = u.isScrub → x.prio ≤ u.prio))

/-- A rotation boundary puts a write of MCTL that waits for it into effect and fixes the mode (which it decides anew at each boundary:
notes/assumptions/27): SHARED while a bank unit works, else by the idle timer
against PDIDLE and SRIDLE. A write of MCTL waits for the next boundary. A refresh holds its bank for 60 cycles. A heartbeat restarts the
count of missed ones, and the first after a stack management reset takes refresh back; a missed one is counted, and the second in a row
gives refresh to the fallback engine (when heartbeats are due: notes/assumptions/122). -/
def Obligations.StackEvents : Prop :=
  ∀ (s : State) die p bank stack (v : Word),
    let d := s.die die
    let c := s.pchan die p
    let at_ := s.now / 256 * 256
    let none_ : Prop := ∀ b x, d.mctlNext = some (b, x) → s.now < b
    (∃ t, exec (.evRotationBoundary die p) s = .next t ∧ onlyDie s t die ∧ (t.pchan die p).rot = s.now / 256
      ∧ (∀ b, d.mctlNext = some (b, v) → b ≤ s.now →
        (t.die die).mctlNext = none ∧ (t.die die).pdidle = bits v.toNat 0 16 ∧ (t.die die).sridle = bits v.toNat 16 32)
      ∧ (none_ → (t.die die).mctlNext = d.mctlNext ∧ (t.die die).pdidle = d.pdidle ∧ (t.die die).sridle = d.sridle)
      ∧ (none_ → c.rot ≠ s.now / 256 →
        (s.pcShared die p = true → (t.pchan die p).mode = .shared)
        ∧ (s.pcShared die p = false → (c.waits = true ∨ d.pdidle = 0 ∨ at_ < c.idleFrom + d.pdidle) → (t.pchan die p).mode = .active)
        ∧ (s.pcShared die p = false → c.waits = false → d.pdidle ≠ 0 → c.idleFrom + d.pdidle ≤ at_ → c.pdFrom = 0 →
          NMap.get false d.fb (d.stackOf p) = false →
          let since := max (max d.mctlAt c.sharedTo) (boundary (c.idleFrom + d.pdidle))
          (t.pchan die p).mode = if d.sridle ≠ 0 ∧ since + d.sridle ≤ at_ then .selfRefresh else .powerDown)))
    ∧ (∃ t, exec (.evMctlWrite die v) s = .next t ∧ onlyDie s t die
      ∧ (t.die die).mctlNext = some ((s.now + 1 + 255) / 256 * 256, v)
      ∧ (none_ → t.die die = { d with mctlNext := some ((s.now + 1 + 255) / 256 * 256, v) })
      ∧ t.hasPosted ((s.now + 1 + 255) / 256 * 256) (.ev (.evRotationBoundary die 0)))
    ∧ (∃ t b, exec (.evPerBankRefresh die p bank) s = .next t ∧ onlyDie s t die
      ∧ t.isDue (· == .ev (.evPerBankRefresh die p bank)) = true
      ∧ t.pchan die p = { c with bankFree := b }
      ∧ ∀ k, NMap.get 0 b k = if k = bank then max s.now (NMap.get 0 c.bankFree bank) + 60 else NMap.get 0 c.bankFree k)
    ∧ (∃ t, exec (.evStackHeartbeat die stack) s = .next t ∧ onlyDie s t die
      ∧ NMap.get 0 (t.die die).hbAt stack = s.now ∧ NMap.get 0 (t.die die).hbRow stack = 0
      ∧ NMap.get false (t.die die).fb stack = (NMap.get false d.fb stack && !NMap.get false d.smcReset stack)
      ∧ (s.isDue (· == .ev (.evFallbackRefreshTakeover die stack)) = false →
        t.hasPosted (s.now + 2250) (.ev (.evFallbackRefreshTakeover die stack))))
    ∧ (NMap.get 0 d.hbAt stack + 2250 ≤ s.now →
      ∃ t, exec (.evFallbackRefreshTakeover die stack) s = .next t ∧ onlyDie s t die
        ∧ (t.die die).hbmiss = min (d.hbmiss + 1) 255
        ∧ NMap.get false (t.die die).fb stack = (NMap.get false d.fb stack || decide (1 ≤ NMap.get 0 d.hbRow stack))
        ∧ t.hasPosted (s.now + 2250) (.ev (.evFallbackRefreshTakeover die stack)))
    ∧ (s.now < NMap.get 0 d.hbAt stack + 2250 → exec (.evFallbackRefreshTakeover die stack) s
        = .next (s.postEv (NMap.get 0 d.hbAt stack + 2250) (.evFallbackRefreshTakeover die stack)))

/-! ### The matrix engines (R71, R146 to R157, R161) -/

/-- The head of an engine's queue passes its wait, taking the threshold of a consuming one, or is tested again; a fetch makes the operation
STARTED and the next in the sequence, and the command behind it is tested in the same cycle; a fetched line is the core's scratchpad, where
the stores of the last four cycles may be missing; an array phase leaves the engine's accumulators as its instruction gives, an `MZERO` the
named tiles zero, and ends after its cycles and six more; a drain writes its line and is done in the next cycle. -/
def Obligations.MatrixEvents : Prop :=
  ∀ (s : State) core eng k o (c : Cmd) rest,
    let e := s.engine core eng
    let one (t : State) (f : Cmd → Prop) : Prop := ∃ d ∈ (t.engine core eng).running, d.serial = c.serial ∧ f d
    let standing (c : Cmd) : Prop := ∀ j x, c.op = some j → s.op? j = some x → x.st ≠ .saved
    -- MATRIX_HEAD
    (e.q = c :: rest → c.h = 0 → c.t < s.now → s.waitOk core c = true → standing c →
      ∃ t, exec (.evMatrixHead core eng) s = .next t ∧ t.engine core eng = { e with q := { c with h := s.now } :: rest }
        ∧ t.hasPosted s.now (.ev (.evMatrixFetchStart core eng)) ∧ keepsStore s t core
        ∧ ∀ h, c.ins.cmdHdr = some h → ∀ j, t.sem core j
            = if h.we = true ∧ h.wc = true ∧ c.noWait = false ∧ j = h.wsem.toNat then s.sem core j - h.wthr.toNat else s.sem core j)
    ∧ (e.q = c :: rest → c.h = 0 → (s.now ≤ c.t ∨ s.waitOk core c = false ∨ ¬ standing c) →
      exec (.evMatrixHead core eng) s = .next (s.postHead core eng (s.now + 1)))
    -- MATRIX_FETCH_START
    ∧ (e.q = c :: rest → c.h ≠ 0 → e.fetchReady s.now = true → c.op = some k → s.op? k = some o → c.code = 0 → c.bad = none →
      o.st ≠ .saved → (∀ d ∈ e.running, d.serial ≠ c.serial) → s.matFault core { c with fs := s.now, c := matCycles c.ins } = none →
      ∃ t, exec (.evMatrixFetchStart core eng) s = .next t ∧ t.op? k = some { o with st := .started }
        ∧ (t.engine core eng).q = rest ∧ one t (fun d => d.fs = s.now ∧ d.c = matCycles c.ins)
        ∧ t.hasPosted s.now (.ev (.evMatrixHead core eng))
        ∧ (∀ j, j ≠ k → t.op? j = s.op? j) ∧ (∀ n, n ≠ core → t.core n = s.core n) ∧ ∀ a, t.mem.read a = s.mem.read a)
    -- MATRIX_FETCH_END
    ∧ (∀ l, e.running.getLast? = some c → c.fe = 0 → c.lines = [l] → s.engBank core (l / 2 ^ 14) = true → c.bad = none →
      (∀ d ∈ e.running, d.serial ≠ c.serial → ∀ x ∈ d.outs, x.1 ≠ l) → s.padBad core l 64 = false →
      ∃ t, exec (.evMatrixFetchEnd core eng) s = .next t ∧ t.hasPosted (s.now + 1) (.ev (.evMatrixFetchEnd core eng))
        ∧ keepsStore s t core ∧ (t.engine core eng).lastFe = s.now + 1
        ∧ one t (fun d => d.lines = [] ∧ d.fe = s.now + 1 ∧ d.bad = none
            ∧ d.got = c.got ++ [(l, s.fetchLine core l)]))
    ∧ (∀ l, (∀ b ∈ (s.core core).recent, b.cyc + 4 ≤ s.now) → s.fetchLine core l = s.mem.readN (Addr.pad core l) 64)
    -- MATRIX_ARRAY_START
    ∧ (∀ n, e.running.find? (fun d => d.s == 0) = some c → e.startOf c = some n → n ≤ s.now → c.c ≠ 0 → c.op = some k →
      ∃ t, exec (.evMatrixArrayStart core eng) s = .next t ∧ keepsStore s t core
        ∧ (t.engine core eng).acc = (s.arrayOut core c e).acc ∧ (t.engine core eng).lastS = s.now ∧ (t.engine core eng).lastC = c.c
        ∧ (∀ h b m, c.ins = .mzero h b m →
            (∀ i x y, x < 16 → y < 16 → accGet (t.engine core eng).acc i x y
              = if i < 32 ∧ m.getLsbD i = true then 0 else accGet e.acc i x y)
            ∧ t.hasPosted (s.now + c.c + 6) (.ev (.evOpComplete k)) ∧ one t (fun d => d.s = s.now ∧ d.dn = s.now + c.c + 6)))
    -- MDRAIN_LINE_WRITE
    ∧ (∀ l (bs : List (Byte × Byte)) n, ((s.op k).cmd.ins).cmdUnit = eng → e.running.find? (fun d => d.op == some k) = some c → c.res = none →
      c.outs = [(l, bs)] → bs.length = 64 → (∀ b ∈ bs, b.1 = 255) → l % 64 = 0 → c.outPoison = [] → s.engBank core (l / 2 ^ 14) = true →
      (∀ d ∈ e.running, d.serial ≠ c.serial → d.outs = []) → (∀ b ∈ (s.core core).recent, b.at_ ≤ s.now) →
      ∃ t, exec (.evMdrainLineWrite core k n) s = .next t ∧ t.hasPosted (s.now + 1) (.ev (.evOpComplete k))
        ∧ one t (fun d => d.outs = [] ∧ d.dn = s.now + 1)
        ∧ t.mem = (List.range 8).foldl (fun m j => m.writeN (Addr.pad core (l + 8 * j)) (((bs.map Prod.snd).drop (8 * j)).take 8)) s.mem
        ∧ ∀ m, m < Addr.pad core l ∨ Addr.pad core l + 64 ≤ m → t.mem.read m = s.mem.read m)

namespace Sys2Proof.Machine

/-- A finite value as a rational number. -/
def FVal.rat : FVal → ℚ
  | .fin n m e => (if n then -1 else 1) * m * (2 : ℚ) ^ e
  | _ => 0

/-- One term of a group (R151, R153): a product or a squared difference, as a number where it is one. -/
def termRule (dist : Bool) (a b : FVal) : FVal ⊕ ℚ :=
  match a, b with
  | .nan, _ => .inl .nan
  | _, .nan => .inl .nan
  | .inf m, .inf n => if dist then .inl (if m = n then .nan else .inf false) else .inl (.inf (m != n))
  | .inf m, .fin n k _ => .inl (if dist then .inf false else if k = 0 then .nan else .inf (m != n))
  | .fin m k _, .inf n => .inl (if dist then .inf false else if k = 0 then .nan else .inf (m != n))
  | .fin m k e, .fin n l f =>
    let x := (FVal.fin m k e).rat
    let y := (FVal.fin n l f).rat
    .inr (if dist then (x - y) * (x - y) else x * y)

/-- group_fp of R151: NaN, an infinity, +0, or the exact sum rounded once to FP32. -/
def groupRule (dist : Bool) (ps : List (FVal × FVal)) (r : Nat) : Prop :=
  let ts := ps.map (fun p => termRule dist p.1 p.2)
  let sum := (ts.map (Sum.elim (fun _ => 0) id)).sum
  let bad : Prop := .inl .nan ∈ ts ∨ (.inl (.inf true) ∈ ts ∧ .inl (.inf false) ∈ ts)
  (bad → r = 0x7FC00000)
    ∧ (¬ bad → (∀ n, .inl (.inf n) ∈ ts → r = if n then 0xFF800000 else 0x7F800000)
      ∧ ((∀ n, .inl (.inf n) ∉ ts) → (sum = 0 → r = 0)
        ∧ (sum ≠ 0 → ∃ n m e, (FVal.fin n m e).rat = sum ∧ r = (fmtF32.round 0 n m e).1)))

/-- What an element becomes from its old value and the elements of its row and column at the active depths (R151, R153). -/
def elemRule (fmt : Nat) (dist sat : Bool) (v0 : Nat) (a b : Nat → FVal) (act : List Nat) (v : Nat) : Prop :=
  let kk := (imgFmt fmt).k
  let group (n g : Nat) : List Nat := act.filter (fun k => k / n == g)
  if imgInt fmt = true then
    v = ((List.range (kk / 32)).foldl (fun (x : BitVec 32) g =>
      let y : Int := x.toInt + ((group 32 g).map (fun k =>
        if dist then ((a k).toI - (b k).toI) * ((a k).toI - (b k).toI) else (a k).toI * (b k).toI)).sum
      BitVec.ofInt 32 (if sat then max (-2 ^ 31) (min (2 ^ 31 - 1) y) else y)) (BitVec.ofNat 32 v0)).toNat
  else
    ∃ gs : Nat → Nat, (∀ g, g < kk / 16 → group 16 g ≠ [] → groupRule dist ((group 16 g).map (fun k => (a k, b k))) (gs g))
      ∧ v = (List.range (kk / 16)).foldl (fun x g => if (group 16 g).isEmpty then x else (fadd fmtF32 0 x (gs g)).1) v0

/-- Whether a candidate of `MTOPK` is better than another (R154). -/
def topRule (fmt : Nat) (dir : Bool) (x y : Nat × Nat) : Prop :=
  let lt (a b : Nat) : Prop :=
    if fmt = 8 then ltZero fmtF32 a b = true
    else if fmt = 6 then (BitVec.ofNat 32 a).toInt < (BitVec.ofNat 32 b).toInt else a < b
  (if dir then lt y.1 x.1 else lt x.1 y.1) ∨ (x.1 = y.1 ∧ x.2 < y.2)

/-- The integer nearest to q ÷ d in a rounding mode (R31). -/
def roundRule (rnd : Nat) (q d : Int) : Int :=
  match rnd with
  | 0 => if 2 * (q % d) < d ∨ (2 * (q % d) = d ∧ q / d % 2 = 0) then q / d else q / d + 1
  | 1 => q.tdiv d
  | 2 => q / d
  | _ => -(-q / d)

/-- An element that `MDRAIN` writes (R157). -/
def drainRule (mode fmt rnd x f : Nat) : Nat :=
  let ff : FFmt := match fmt with
    | 8 => fmtF32
    | 9 => fmtBF16
    | 0x0A => fmtF16
    | 0x0B => fmtE4M3
    | _ => fmtE5M2
  let w := 4 * fmtNibs fmt
  match mode with
  | 0 => x
  | 1 => (fcvt fmtF32 ff rnd x).1
  | 2 => (quantElem (drainTy fmt) rnd false x f 0).1
  | 3 =>
    let y := roundRule rnd ((BitVec.ofNat 32 x).toInt * (f / 256 : Nat)) (2 ^ (f % 64))
    let lo : Int := if fmt % 2 = 0 then -2 ^ (w - 1) else 0
    let hi : Int := if fmt % 2 = 0 then 2 ^ (w - 1) - 1 else 2 ^ w - 1
    (max lo (min hi y) % 2 ^ w).toNat
  | _ => (ff.finish rnd (mulVal (fmtF32.decode x) (fmtF32.decode f))).1

/-- An element that `MLDACC` reads, widened (R158). -/
def widenRule (mode fmt v : Nat) : Nat :=
  let w := 4 * fmtNibs fmt
  if mode = 0 then v
  else match fmt with
    | 9 => (fcvt fmtBF16 fmtF32 0 v).1
    | 0x0A => (fcvt fmtF16 fmtF32 0 v).1
    | 0x0B => (fcvt fmtE4M3 fmtF32 0 v).1
    | 0x0C => (fcvt fmtE5M2 fmtF32 0 v).1
    | _ => if fmt % 2 = 0 then ((BitVec.ofNat w v).signExtend 32).toNat else v

end Sys2Proof.Machine

/-- What the array phase leaves in the accumulators and hands to the stores. `MMA` and `MDIST` leave in a selected element the sum of its old value,
or of zero, and the exact sums of its groups, over six passes of slices for FP32, and zero in the others where they overwrite; `MTOPK` the best k of
a sorted list and the candidates (what it does with a list that is not sorted is notes/assumptions/115); `MLDACC` the elements read, widened; `MDRAIN`
stores each selected element in its mode, and zero in the rest of a slot. No other tile or element changes. -/
def Obligations.MatrixArrays : Prop :=
  ∀ (s : State) core (c : Cmd) (e : Engine),
    let o := s.arrayOut core c e
    let at_ (i x y : Nat) : Nat := accGet o.acc i x y
    let old (i x y : Nat) : Nat := accGet e.acc i x y
    -- MMA, MDIST
    (∀ h p dist, c.ins = (if dist then Instr.mdist h p else Instr.mma h p) →
      let fmt := p.fmt.toNat
      let mk := (c.vals.getD 2 0).toNat
      let kk := (imgFmt fmt).k
      let act := (List.range kk).filter (fun k => bitOf mk (32 + if kk = 64 then k / 2 else k))
      let passes := if fmt = 8 then [(2, 0), (0, 2), (1, 1), (1, 0), (0, 1), (0, 0)] else [(0, 0)]
      let el (i j l : Nat) (sg : Bool) (k : Nat) : FVal :=
        let n := planesRead fmt p.prec.toNat (i == 0)
        (laneElem fmt sg n (laneWords c.got (s.mmaSrc core c p i) fmt j n l) k).1
      (fmt = 8 → p.sga = false ∧ p.sgb = false) →
      (∃ t : Nat → Nat → Nat → Nat, ∀ x y, x < 16 → y < 16 → t 0 x y = old p.acc.toNat x y ∧ at_ p.acc.toNat x y = t passes.length x y
        ∧ ∀ i j, passes[i]? = some j →
            let ac : Prop := p.ac = true ∨ 0 < i
            (¬ (bitOf mk x = true ∧ bitOf mk (16 + y) = true) → (ac → t (i + 1) x y = t i x y) ∧ (¬ ac → t (i + 1) x y = 0))
            ∧ (bitOf mk x = true → bitOf mk (16 + y) = true → ∃ v0, (ac → v0 = t i x y) ∧ (¬ ac → v0 = 0)
              ∧ elemRule fmt dist p.sat v0 (el 0 j.1 x p.sga) (el 1 j.2 y p.sgb) act (t (i + 1) x y)))
      ∧ ∀ i x y, i ≠ p.acc.toNat → x < 16 → y < 16 → at_ i x y = old i x y)
    -- MTOPK
    ∧ (∀ h b fmt d a base km1 dir init msk, c.ins = .mtopk h b fmt d a base km1 dir init msk →
      let k := km1.toNat + 1
      let mk := (c.vals.getD 1 0).toNat
      let fill : Nat := match fmt.toNat, dir with
        | 8, false => 0x7F800000
        | 8, true => 0xFF800000
        | 6, false => 0x7FFFFFFF
        | 6, true => 0x80000000
        | _, false => 0xFFFFFFFF
        | _, true => 0
      let empty : Nat × Nat := (fill, 0xFFFFFFFF)
      (∀ x, x < 16 → bitOf mk x = true →
        let l0 : List (Nat × Nat) := if init then [] else (List.range k).map (fun j => (old d.toNat x j, old d.toNat x (8 + j)))
        let cand := (((List.range 16).filter (fun n => bitOf mk (16 + n))).map (fun n => (old a.toNat x n, ((c.vals.getD 0 0).toNat + n) % 2 ^ 32))).filter
          (fun z => !(fmt == 8 && fmtF32.isNan z.1) && z.2 != 0xFFFFFFFF)
        l0.Pairwise (fun u v => ¬ topRule fmt.toNat dir v u) → (∀ z ∈ l0, fmt = 8 → fmtF32.isNan z.1 = false) →
        ∃ l rest : List (Nat × Nat), (l ++ rest).Perm (l0 ++ cand) ∧ l.Pairwise (fun u v => ¬ topRule fmt.toNat dir v u)
          ∧ (∀ u ∈ l, ∀ v ∈ rest, ¬ topRule fmt.toNat dir v u) ∧ l.length = min k (l0.length + cand.length)
          ∧ ∀ j, j < 8 → (at_ d.toNat x j, at_ d.toNat x (8 + j)) = l.getD j empty)
      ∧ ∀ i x y, x < 16 → y < 16 → (i ≠ d.toNat ∨ bitOf mk x = false) → at_ i x y = old i x y)
    -- MLDACC
    ∧ (∀ h b fmt a src msk mode bro, c.ins = .mldacc h b fmt a src msk mode bro → c.ins.wf = true →
      let mk := (c.vals.getD 1 0).toNat
      let en := if mode = 0 then 8 else fmtNibs fmt.toNat
      let i := s.imgSrc core (c.vals.getD 0 0) (nthChan [src] c.chans 0)
      let p := bits mk 32 16
      let pitch := if i.striped = false ∨ p = 0 ∨ p = 0xFFFF then 8 * en else p
      ∀ j x y, x < 16 → y < 16 →
        at_ j x y = if j = a.toNat ∧ bitOf mk x = true ∧ bitOf mk (16 + y) = true then
            (let nib := 2 * (i.base + (if bro then 0 else x) * pitch) + y * en
             widenRule mode.toNat fmt.toNat (ofBytes (gotBytes c.got (nib / 2) ((en + 1) / 2)) / 16 ^ (nib % 2) % 16 ^ en))
          else old j x y)
    -- MDRAIN
    ∧ (∀ h b fmt a dst msk mode rnd sc za, c.ins = .mdrain h b fmt a dst msk mode rnd sc za → c.ins.wf = true →
      let mk := (c.vals.getD 1 0).toNat
      let en := if mode = 0 then 8 else fmtNibs fmt.toNat
      let i := s.imgSrc core (c.vals.getD 0 0) (c.res.map (fun r => (r.1, r.2.1)))
      let p := bits mk 32 16
      let pitch := if i.striped = false ∨ p = 0 ∨ p = 0xFFFF then 8 * en else p
      let nib (x y j : Nat) : Nat := 2 * (i.base + x * pitch) + y * en + j
      let on (x y : Nat) : Prop := x < 16 ∧ y < 16 ∧ bitOf mk x = true ∧ bitOf mk (16 + y) = true
      let half (n v : Nat) : Nat := v / 16 ^ (n % 2) % 16
      (8 * en ≤ pitch → (c.res ≠ none → i.base % 64 = 0) →
        (∀ x y j, on x y → j < en →
          let n := nib x y j
          let v := drainRule mode.toNat fmt.toNat rnd.toNat (old a.toNat x y) (c.scales.getD y 0).toNat
          ∃ bs, (n / 2 / 64 * 64, bs) ∈ o.outs ∧ half n (bs.getD (n / 2 % 64) (0, 0)).1.toNat = 15
            ∧ half n (bs.getD (n / 2 % 64) (0, 0)).2.toNat = v / 16 ^ j % 16)
        ∧ (∀ l bs n, (l, bs) ∈ o.outs → n / 2 / 64 * 64 = l → (∀ x y j, on x y → j < en → nib x y j ≠ n) →
          half n (bs.getD (n / 2 % 64) (0, 0)).1.toNat = (if c.res = none then 0 else 15) ∧ half n (bs.getD (n / 2 % 64) (0, 0)).2.toNat = 0))
      ∧ ∀ j x y, x < 16 → y < 16 → at_ j x y = if za = true ∧ j = a.toNat then 0 else old j x y)

/-! ### Child operations (R187 to R191, R194, R204, R209, R217, R220 to R229) -/

namespace Sys2Proof.Machine

/-- Whether a token register of an operation's task still waits for it (R187). -/
def opWaited (s : State) (k : Nat) (o : Op) (r : Nat) : Prop :=
  s.op? k = some o ∧ o.finished = false ∧ o.st ≠ .done ∧ o.ord = false ∧ o.cmd.tok = some r ∧ r < 64
    ∧ (s.core o.core).t.isTask o.cmd.grp o.cmd.idx = true ∧ NMap.find (s.core o.core).t.tokOwner r = some (.op k)

/-- The operation is over (R187, R188, R196): its token register holds the status word and waits no more, and its entry is free. -/
def opOver (t : State) (k : Nat) (o : Op) (r code detail : Nat) : Prop := tokenDone t o.core r code o.unit detail ∧ t.op? k = none

/-- A line of a core's scratchpad takes a write whole: its bank is free (R21), no line of an earlier `VST` is still to take it (R136), and
none of its words is uncorrectable (R295). -/
def lineClear (s : State) (core l : Nat) : Prop :=
  s.engBank core (64 * l / 2 ^ 14) = true ∧ (∀ e ∈ (s.core core).recent, e.at_ ≤ s.now)
    ∧ ∀ j, j < 8 → NMap.get false s.padPoison (padLine core (64 * l + 8 * j)) = false
      ∧ NMap.get 0 s.padErr (Addr.pad core (64 * l + 8 * j) / 8) < 2

end Sys2Proof.Machine

/-- An operation whose work is done completes with its code and detail in its token register, and its entry is free: a copy with the bytes
it moved, a gather with its lists' rows, either with its lines where it was stopped; any other kind with the verdict its work ended with; a matrix
command with what its fetch and array phases gave. A copy starts when its records pass their checks, and takes
its first line in the next cycle; records that do not are its fault. A query waits for the accesses before it (R256). A line
of a copy writes its bytes, in scratchpad or in local memory, and no other. -/
def Obligations.CopyEvents : Prop :=
  ∀ (s : State) k (o : Op) r,
    let bytes : Prop := (∃ h a b f ca, o.cmd.ins = .cpy h a b f ca) ∨ ∃ h a b ca, o.cmd.ins = .cpyx h a b ca
    let rows : Prop := ∃ h a b ca, o.cmd.ins = .cpyg h a b ca ∨ o.cmd.ins = .cpys h a b ca ∨ o.cmd.ins = .cpysc h a b ca
    let over_ (code detail : Nat) : Prop := ∃ t, exec (.evOpComplete k) s = .next t ∧ opOver t k o r code detail
    let recs := s.recLines o.ctx (recRefs o.cmd.ins).1
    -- OP_COMPLETE
    (opWaited s k o r → s.writesHeld k = false →
      (∀ code detail, 2 ≤ o.cmd.ins.cmdUnit → o.verdict = some (code, detail) → over_ code detail)
      ∧ (∀ code, (bytes ∨ rows) → o.verdict = none → o.st = .started → o.stop = some code → over_ code o.prog)
      ∧ (bytes → o.verdict = none → o.st = .started → o.stop = none → over_ 0 o.bytes)
      ∧ (rows → o.verdict = none → o.st = .started → o.stop = none → over_ 0 o.gatherDetail)
      ∧ (∀ c, o.cmd.ins.cmdUnit < 2 → (s.engine o.core o.cmd.ins.cmdUnit).running.find? (fun c => c.op == some k) = some c →
        ∃ t, exec (.evOpComplete k) s = .next t ∧ opOver t k o r c.code c.detail
          ∧ ∀ x ∈ (t.engine o.core o.cmd.ins.cmdUnit).running, x.serial ≠ c.serial))
    -- OP_START
    ∧ (∀ rs, s.op? k = some o → o.st = .queued → o.finished = false → s.opFrozen o = false → (bytes ∨ rows) → o.recs = [] →
      s.opRecs o = .ok rs → s.needsHost o recs = false → s.needsCircuit o 4 recs = false →
      let p : Op := { o with recs := rs, hostWait := 0 }
      s.headerLeft p = [] →
      (s.copyChecks p = none →
        ∃ t us, exec (.evOpStart k) s = .next t
          ∧ t.op? k = some { p with st := .started, uses := us, lines := p.startLines,
                                    undef := noOverlap o.cmd.ins && t.overlaps p (p.shape 0) (p.shape 1) }
          ∧ t.hasPosted (s.now + 1) (.ev (.evCopyLine k)) ∧ (∀ c ∈ t.cmdsOf o.core 2, c.serial ≠ o.cmd.serial)
          ∧ ∀ m, t.mem.read m = s.mem.read m)
      ∧ (∀ code, s.copyChecks p = some code →
        ∃ u : State, u.op? k = some p ∧ exec (.evOpStart k) s = .next (u.opFault k code 0 0 (fun s => s.restartOp k))))
    ∧ (∀ h a b ca, s.op? k = some o → o.st = .queued → o.finished = false → s.opFrozen o = false → o.cmd.ins = .bqpost h a b ca →
      ((s.portClear o.core o.cmd.seq = false ∨ s.olderQueued o = true) →
        exec (.evOpStart k) s = .next (s.postEv (s.now + 1) (.evOpStart k)))
      ∧ (∀ code, s.portClear o.core o.cmd.seq = true → s.olderQueued o = false → s.queryTurn k = true → o.entries = [] →
        s.queryFault0 o.core (o.cmd.vals.getD 0 0).toNat (o.cmd.vals.getD 1 0).toNat o.cmd.t = some code →
        exec (.evOpStart k) s = .next (s.opFault k code 0 0 (fun s => s.restartQuery k))))
    -- COPY_LINE
    ∧ (∀ pad parts fl nx, s.op? k = some o → o.st = .started → o.finished = false → o.verdict = none → o.stop = none → o.need = 0 →
      o.undef = false → s.opFrozen o = false → NMap.get 0 (s.core o.core).c.free 16 ≤ s.now → o.nextLine = .write pad parts fl nx →
      let part (bs : List (Option Byte)) (j : Nat) : List (Option Byte) := (bs.drop (8 * j)).take 8
      let line (f : State → Prop) : Prop := ∃ t q, exec (.evCopyLine k) s = .next t ∧ t.op? k = some q ∧ q.prog = o.prog + 1
        ∧ q.bytes = o.bytes + parts.length ∧ q.flags = o.flags ||| fl ∧ q.lines = o.lines.drop 1
        ∧ t.hasPosted (s.now + 1) (.ev (.evCopyLine k)) ∧ f t
      (pad = true → (∀ l ∈ lineMasks parts, lineClear s o.core l.1) → line (fun t =>
        t.mem = (lineMasks parts).foldl (fun m l => (List.range 8).foldl (fun m j =>
            if (part l.2 j).all Option.isNone then m else m.writeMasked (Addr.pad o.core (64 * l.1 + 8 * j)) (part l.2 j)) m) s.mem
        ∧ ∀ m, (∀ l ∈ lineMasks parts, m < Addr.pad o.core (64 * l.1) ∨ Addr.pad o.core (64 * l.1) + 64 ≤ m) →
            t.mem.read m = s.mem.read m))
      ∧ (∀ l bs h d pa, pad = false → o.reqs ≠ [] → lineMasks parts = [(l, bs)] → s.lineXl o.ctx (64 * l) { acc := 5 } = .ok h →
        h.tgt = .loc d pa → h.peer = false → (h.kind = 1 → s.writesHeld k = false) → (∀ i, i < 64 → (s.eccOf d (pa + i)).bad = false) →
        line (fun t => s.mem.wf = true →
          (∀ j b, j < 64 → bs[j]? = some (some b) → t.mem.read (Addr.localMem d pa + j) = b)
          ∧ ∀ y, (∀ j b, j < 64 → bs[j]? = some (some b) → y ≠ Addr.localMem d pa + j) → t.mem.read y = s.mem.read y)))

/-- A running plan hands its next entry to the copy port once the stage counter has passed it (its entry is the lowest that nothing holds:
notes/assumptions/111); with no entry left it completes with the bytes of all. A groom with a free slot fills it with the next tile line by line, and
after the last the slot is present in the next cycle; it ends when no tile is left. A participant joins its collective; with the last
one, every source read, each has the bytes of its destination, which it writes line by line; when all have written they complete in the next cycle
(a circuit that is cut between two of them: notes/assumptions/89). The bounds 64, 512 and 4,096 are notes/assumptions/2's. -/
def Obligations.OperationEvents : Prop :=
  ∀ (s : State) k (o : Op) r,
    let due (t : State) (n : Nat) (i : Instr) : Prop := ∃ d, s.now < d ∧ d ≤ s.now + n ∧ t.hasPosted d (.ev i)
    let starts : Prop := s.op? k = some o ∧ o.st = .queued ∧ o.finished = false ∧ s.opFrozen o = false
    let left (t : State) : Prop := ∀ c ∈ t.cmdsOf o.core 2, c.serial ≠ o.cmd.serial
    let ending (t : State) (j detail : Nat) : Prop := (∃ x, t.op? j = some x ∧ x.verdict = some (0, detail)) ∧ t.hasPosted (s.now + 1) (.ev (.evOpComplete j))
    -- OP_START
    (∀ h a ca es, starts → o.cmd.ins = .cplan h a ca → s.planEntries o.ctx o.cmd.grp o.cmd.idx = .ok (some es) →
      s.planOf o.core o.cmd.grp o.cmd.idx = none → (∀ w ∈ es, planIns w ≠ none) → (o.cmd.vals.getD 0 0).toNat ≤ 64 →
      ∃ t, exec (.evOpStart k) s = .next t ∧ left t ∧ t.hasPosted (s.now + 1) (.ev (.evPlanEntryHandoff o.core))
        ∧ t.op? k = some { o with st := .started, plan := { running := true, stage := (o.cmd.vals.getD 0 0).toNat, entries := es } })
    ∧ (∀ h a b ca n, starts → o.cmd.ins = .subs h a b ca → o.recs ≠ [] →
      let u := s.onOp k (fun o => { o with hostWait := 0 })
      let p : Op := { o with hostWait := 0 }
      let q := s.queue o.core o.subsQueue
      let sh := o.subsTensor
      q.sub = none → u.groomWait k p = none → (o.shape 0).v = true → (o.shape 1).v = true → (o.shape 0).malformed auxSubs = false →
      (o.shape 1).malformed auxSubs = false → (o.shape 0).isQueue ≠ (o.shape 1).isQueue →
      s.recChecks o.core auxSubs [⟨sh, o.subsReads, !o.subsReads⟩] true (!sh.sp) = none → q.st = .opened → q.isEmpty = true → 2 ≤ q.scope →
      (∀ x, .ok x ∈ u.tensorHomes p sh → x.away = false) → u.groomStack p sh = .ok n →
      ∃ t us, exec (.evOpStart k) s = .next t ∧ left t ∧ due t 64 (.evGroomTileFill k)
        ∧ t.op? k = some { p with st := .started, uses := us, row := n, tile := 0, sub_ := 0, reqs := [] }
        ∧ (t.queue o.core o.subsQueue).sub = some k ∧ (t.queue o.core o.subsQueue).st = if o.subsReads then .subsR else .subsW)
    ∧ (∀ rs tm i c, starts → isColl o.cmd.ins = true → o.recs = [] → o.coll = some i → s.colls[i]? = some c → c.dead = none →
      s.opRecs o = .ok rs →
      let p : Op := { o with recs := rs, hostWait := 0 }
      let a := p.shape 0
      let d := p.shape 1
      let kind := collKind o.cmd.ins
      let lines := s.recLines o.ctx (recRefs o.cmd.ins).1
      s.needsHost o lines = false → s.needsCircuit o 4 lines = false → a.v = true → d.v = true →
      a.malformed auxColl = false → d.malformed auxColl = false → s.teamOf p = some tm → rankOf tm o.core = some o.rank → a.xc = true → d.xc = true →
      s.recChecks o.core auxColl [⟨a, kind.reads (decide (o.rank = tm.1)), false⟩, ⟨d, false, kind.writes (decide (o.rank = tm.1))⟩]
        (kind.extentOk (decide (o.rank = tm.1)) a.byteCount tm.2.length d.byteCount)
        (!kind.reduces || ((a.fmt == 8 || a.fmt == 9 || a.fmt == 6 || a.fmt == 7) && d.fmt == a.fmt)) = none →
      ∃ t us, exec (.evOpStart k) s = .next t ∧ left t ∧ due t 512 (.evCollectiveJoin k) ∧ t.op? k = some { p with st := .started, uses := us })
    -- PLAN_ENTRY_HANDOFF
    ∧ ((s.ops.filter (fun kv => kv.2.plan.running && kv.2.core == o.core)).map Prod.fst = [k] → s.op? k = some o → o.st = .started →
      o.plan.running = true → o.plan.failed = none →
      (∀ w i, o.plan.entries[o.plan.next]? = some w → planIns w = some i → o.plan.next < o.plan.stage → s.opFrozen o = false → s.portRoom o = true →
        let e := s.freeEntry (dieOf o.core)
        ∃ t x c, exec (.evPlanEntryHandoff o.core) s = .next t ∧ t.op? e = some x ∧ x.cmd.ins = i ∧ x.st = .queued ∧ x.owner = o.owner
          ∧ x.grp = o.grp ∧ x.idx = o.idx ∧ x.parent = some (k, o.gen)
          ∧ t.op? k = some { o with plan := { o.plan with next := o.plan.next + 1, children := o.plan.children ++ [e] } }
          ∧ t.cmdsOf o.core 2 = s.cmdsOf o.core 2 ++ [c] ∧ c.ins = i ∧ c.op = some e ∧ ∀ m, t.mem.read m = s.mem.read m)
      ∧ (o.plan.entries.length ≤ o.plan.next → o.plan.children = [] → opWaited s k o r →
        ∃ t, exec (.evPlanEntryHandoff o.core) s = .next t ∧ opOver t k o r 0 o.plan.bytes))
    -- GROOM_TILE_FILL
    ∧ (s.op? k = some o → o.st = .started → o.finished = false → o.verdict = none → o.need = 0 → o.stop = none → s.writesHeld k = false →
      let q := s.queue o.core o.subsQueue
      let sh := o.subsTensor
      q.sub = some k →
      (sh.byteCount ≤ o.tile * q.size → ∃ t, exec (.evGroomTileFill k) s = .next t ∧ ending t k o.bytes)
      ∧ (∀ m u, o.tile * q.size < sh.byteCount → o.subsReads = true → o.reqs ≠ [] →
        1 ≤ ctr (q.tail + 65536 - ctr (q.reserved + o.tile)) → ctr (q.tail + 65536 - ctr (q.reserved + o.tile)) ≤ q.count →
        let off := o.tile * q.size + 64 * o.sub_
        let n := min 64 (sh.byteCount - off)
        let slot := ctr (q.reserved + o.tile)
        let x := q.slotAddr slot + 64 * o.sub_
        let a := Addr.pad o.core x
        let last : Prop := q.size ≤ 64 * (o.sub_ + 1)
        let gs := if n = 0 then [] else granulesOf false 0 (sh.runsOf off n)
        q.slotAddr slot % 64 = 0 → lineClear s o.core (x / 64) → s.readAll o (o.missing gs) o.srcs = .ok (m, u) →
        ∃ t w, exec (.evGroomTileFill k) s = .next t ∧ (∀ e ∈ w, e ∈ m)
          ∧ t.op? k = some { o with tile := if last then o.tile + 1 else o.tile, sub_ := if last then 0 else o.sub_ + 1,
                                    bytes := o.bytes + n, prog := o.prog + 1, reqs := [], via := [], srcs := w }
          ∧ (last → NMap.find (t.queue o.core o.subsQueue).pres (q.idx slot) = some (s.now + 1))
          ∧ (¬ last → (t.queue o.core o.subsQueue).pres = q.pres)
          ∧ (s.mem.wf = true → t.mem.readN a 64
              = (if n = 0 then [] else ((({ o with srcs := m }).spanBytes false 0 (sh.runsOf off n)).drop (off % sh.unitBytes)).take n)
                ++ List.replicate (64 - n) 0)
          ∧ (∀ y, y < a ∨ a + 64 ≤ y → t.mem.read y = s.mem.read y) ∧ due t 64 (.evGroomTileFill k)))
    -- COLLECTIVE_JOIN
    ∧ (∀ i c, s.op? k = some o → o.st = .started → o.finished = false → o.verdict = none → o.coll = some i → s.colls[i]? = some c →
      let js := if c.joined.contains o.rank then c.joined else c.joined ++ [o.rank]
      let ws := if c.written.contains o.rank then c.written else c.written ++ [o.rank]
      let all : Coll := { c with joined := js, ops := s.collOps i }
      let srcs := all.byRank.map (fun j => s.collSource all j)
      (o.row ≠ 1 → (js.length ≠ c.members.length ∨ c.dead ≠ none) →
        exec (.evCollectiveJoin k) s = .next { s with colls := s.colls.modify i (fun c => { c with joined := js }) })
      ∧ (o.row ≠ 1 → js.length = c.members.length → c.dead = none → s.collMismatch all.ops = none → s.collCut all = none →
        s.collLeft all (o.rank, k) = [] → (∀ j ∈ all.byRank, s.collLeft all j = []) →
        ∃ t els, exec (.evCollectiveJoin k) s = .next t
          ∧ (∀ j ∈ all.byRank,
              let kind := collKind (s.op j.2).cmd.ins
              let sum := if kind.reduces then ((s.op j.2).shape 0).bytesOf els else []
              (∃ x, t.op? j.2 = some x ∧ x.row = 1
                ∧ NMap.get [] x.srcs 0 = if kind.writes (decide (j.1 = c.root)) then kind.result c.root j.1 srcs sum else [])
              ∧ due t 4096 (.evCollectiveJoin j.2))
          ∧ ∀ j, all.byRank.head? = some j →
              let a := (s.op j.2).shape 0
              let el (m : Nat × Nat) : List Nat := ((s.op m.2).shape 0).elemsOf (s.collSource all m)
              (a.fmt = 6 ∨ a.fmt = 7) → a.layout ≠ 2 → ((s.op j.2).shape 1).red = 0 → (collKind (s.op j.2).cmd.ins).reduces = true →
              els = (List.range (el j).length).map (fun n => (all.byRank.map (fun m => (el m).getD n 0)).sum % 2 ^ 32))
      ∧ (o.row = 1 →
        let w := (o.collLines (NMap.get [] o.srcs 0))[o.prog]?
        (w = none → ∃ t, exec (.evCollectiveJoin k) s = .next t
          ∧ t.colls = s.colls.modify i (fun c => { c with written := ws })
          ∧ (ws.length ≠ c.members.length → t = { s with colls := t.colls })
          ∧ (ws.length = c.members.length → ∀ j ∈ s.collOps i, ending t j.2 (s.op j.2).bytes))
        ∧ (∀ l bs, w = some (l, bs) → o.need = 0 → (o.shape 1).sp = true → s.portFrom o.core ≤ s.now → lineClear s o.core l →
          let a := Addr.pad o.core (64 * l)
          ∃ t, exec (.evCollectiveJoin k) s = .next t ∧ t.op? k = some { o with prog := o.prog + 1, reqs := [], via := [] }
            ∧ t.hasPosted (s.now + 1) (.ev (.evCollectiveJoin k))
            ∧ (s.mem.wf = true → (∀ j b, j < 64 → bs[j]? = some (some b) → t.mem.read (a + j) = b)
              ∧ ∀ y, (∀ j b, j < 64 → bs[j]? = some (some b) → y ≠ a + j) → t.mem.read y = s.mem.read y))))
    ∧ (∀ root rank srcs sum, CollKind.broadcast.result root rank srcs sum = srcs.getD root []
      ∧ CollKind.gather.result root rank srcs sum = srcs.flatten ∧ CollKind.allReduce.result root rank srcs sum = sum
      ∧ CollKind.reduceScatter.result root rank srcs sum = (sum.drop (sum.length / srcs.length * rank)).take (sum.length / srcs.length))

/-! ### The heads of a core's units (R71, R112, R178 to R184, R187, R188, R201 to R203, R231 to R246, R385) -/

namespace Sys2Proof.Machine

/-- A command stands at the head of its unit's queue and may have its effect now (R71, R112): its cycle has come, the unit is free, and
its wait holds. -/
def headReady (s : State) (core unit : Nat) (c : Cmd) (rest : List Cmd) : Prop :=
  3 ≤ unit ∧ c.ins.cmdUnit = unit ∧ s.cmdsOf core unit = c :: rest ∧ c.t + c.ins.headDelay ≤ s.now
    ∧ NMap.get 0 (s.core core).c.free unit ≤ s.now ∧ (s.core core).c.moving = none ∧ s.waitOk core c = true
    ∧ (∀ d ∈ rest, d.serial ≠ c.serial) ∧ (∀ w ∈ (s.core core).c.waiters, w.cmd.serial ≠ c.serial)
    ∧ ((s.core core).c.waiters.map (fun w => w.cmd.serial)).Nodup ∧ (∀ q x, (s.queue core q).spliceTok = some x → x.2.serial ≠ c.serial)

/-- The core's semaphores are as before, but for the one whose threshold a consuming wait takes (R71). -/
def waitTaken (s t : State) (core : Nat) (c : Cmd) : Prop :=
  ∀ j, t.sem core j = match c.ins.cmdHdr with
    | some h => if h.we = true ∧ h.wc = true ∧ c.noWait = false ∧ j = h.wsem.toNat then s.sem core j - h.wthr.toNat else s.sem core j
    | none => s.sem core j

/-- Nothing of a core's task has changed but the token registers of some commands. -/
def tokensOnly (s t : State) (core : Nat) (cs : List Cmd) : Prop :=
  (∃ g p o r, (t.core core).t = { (s.core core).t with g := g, pend := p, tokOwner := o, rdy := r })
    ∧ ∀ k, (∀ d ∈ cs, ¬ tokenWaits s core d k) → (t.core core).t.scalar k = (s.core core).t.scalar k

/-- A command has left its queue, and the next one's head cycle is the next cycle at the earliest. -/
def headLeft (s t : State) (core unit : Nat) (c : Cmd) (rest : List Cmd) : Prop :=
  t.cmdsOf core unit = rest ∧ NMap.get 0 (t.core core).c.free unit = s.now + 1 ∧ waitTaken s t core c
    ∧ (rest ≠ [] → t.isDue (· == .ev (.evCommandHead core unit)) = true)

/-- A command has had its effect and is over (R71, R187, R188, R240): its token holds the status, and its signal is on its way. -/
def headDone (s t : State) (core unit : Nat) (c : Cmd) (rest : List Cmd) (code detail : Nat) : Prop :=
  headLeft s t core unit c rest ∧ (∀ r, tokenWaits s core c r → tokenDone t core r code c.ins.unitCode detail)
    ∧ ∀ h, c.ins.cmdHdr = some h → h.sinc ≠ 0 → (code = 0 ∨ (unit ≠ 4 ∧ unit ≠ 7 ∧ unit ≠ 9)) →
        t.hasPosted s.now (.signal core h.ssem.toNat h.sinc.toNat (c.src core))

/-- Some byte lies in both of two runs. -/
def meet (x n y m : Nat) : Prop := ∃ a, x ≤ a ∧ a < x + n ∧ y ≤ a ∧ a < y + m

end Sys2Proof.Machine

/-- A command at the head of its unit's queue waits for its cycle and for its semaphore; then it has its effect, leaves the queue, and its token
holds its status. The barrier commands set up, expect, arrive and clear; a wait is answered at once when its phase has
completed and otherwise joins the waiters; a free or poisoned barrier answers with its code. A declaration is checked and
replaces the buffer, and a buffer's state moves one step on. The operation commands act on live operations the task may name; any
other identifier is OP_TOKEN_INVALID. (That a failed command of most units signals is notes/assumptions/75; an operation that has finished and is
held back, 79.) -/
def Obligations.HeadEvents : Prop :=
  ∀ (s : State) core unit (c : Cmd) rest h (b : BitVec 8),
    let os := (s.core core).c.waiters
    let x := s.barrier core b.toNat
    let n := (c.vals.getD 0 0).toNat
    let a1 := (c.vals.getD 1 0).toNat
    let ends (code detail : Nat) (f : State → Prop) : Prop :=
      ∃ t, exec (.evCommandHead core unit) s = .next t ∧ headDone s t core unit c rest code detail ∧ keepsStore s t core ∧ f t
    let alone (f : State → Prop) (t : State) : Prop := tokensOnly s t core [c] ∧ f t
    -- its wait has passed, its own condition does not hold yet
    let again : Prop := exec (.evCommandHead core unit) s = .next ((s.passWait core unit c).postHead core unit (s.now + 1))
    let sameBar (t : State) : Prop := ∀ i, t.barrier core i = s.barrier core i
    let isBar (v : Barrier) (t : State) : Prop := ∀ i, t.barrier core i = if i = b.toNat then v else s.barrier core i
    let tested (t : State) : Prop := t.hasPosted s.now (.barTest core b.toNat)
    let poisoned : Barrier := { x with st := 2, pcode := Code.barrierOverrun }
    -- waiters of a barrier poisoned in this cycle are answered with its code instead
    let answered (t : State) : Prop := (t.core core).c.waiters = os.filter (fun w => !(w.bar == b.toNat && w.cmd.code == 0))
      ∧ tokensOnly s t core (c :: (os.filter (fun w => w.bar == b.toNat && w.cmd.code == 0)).map (fun w => w.cmd))
      ∧ ∀ w ∈ os, w.bar = b.toNat → w.cmd.code = 0 → ∀ r, tokenWaits s core w.cmd r → tokenDone t core r Code.barrierPoisoned w.cmd.ins.unitCode w.phase
    -- before its cycle, and while its wait does not hold
    (∀ d ds, 3 ≤ unit → s.cmdsOf core unit = d :: ds → (s.core core).c.moving = none →
      let from_ := max (d.t + d.ins.headDelay) (NMap.get 0 (s.core core).c.free unit)
      (s.now < from_ → exec (.evCommandHead core unit) s = .next (s.postHead core unit from_))
      ∧ (from_ ≤ s.now → s.waitOk core d = false → exec (.evCommandHead core unit) s = .next (s.postHead core unit (s.now + 1))))
    ∧ (headReady s core unit c rest →
      (c.ins = .binit h b → ends 0 0 (fun t => isBar { st := 1 } t ∧ answered t))
      ∧ (c.ins = .bclear h b true → ends 0 0 (fun t => isBar {} t ∧ answered t))
      ∧ (c.ins = .bclear h b false → ends 0 0 (alone (isBar (if x.st = 0 then x else { st := 1, phase := x.phase }))))
      ∧ (∀ o e k p, (x.st = 0 ∨ x.st = 2) → k = (if x.st = 0 then Code.barrierPoisoned else x.pcode) →
        ((c.ins = .bexpect h b o ∨ c.ins = .barrive h b o false e) → ends k 0 (alone sameBar))
        ∧ (c.ins = .bwait h b p → ends k (if p = none then x.phase else n % 65536) (alone sameBar)))
      ∧ (∀ o, c.ins = .bexpect h b o → x.st = 1 →
        let ovf := x.posted = true ∨ 2 ^ 48 - 1 < n ∨ n < x.arrived
        (ovf → ends Code.barrierOverrun 0 (alone (fun t => isBar poisoned t ∧ tested t)))
        ∧ (¬ ovf → ends 0 0 (alone (fun t => isBar { x with expected := n, posted := true } t ∧ tested t))))
      ∧ (∀ o e, c.ins = .barrive h b o false e → x.st = 1 →
        let ovf := (x.posted = true ∧ x.expected < x.arrived + n) ∨ 2 ^ 48 - 1 < x.arrived + n
        (ovf → ends 0 0 (alone (fun t => isBar poisoned t ∧ tested t)))
        ∧ (¬ ovf → ends 0 0 (alone (fun t => isBar { x with arrived := x.arrived + n } t ∧ tested t))))
      ∧ (∀ o (e : BitVec 4), c.ins = .barrive h b o true e → ends 0 0 (alone (fun t => sameBar t
        ∧ t.hasPosted (s.now + 8) (.ev (.evRemoteArrivalLand (coreOfYard core e.toNat) b.toNat (c.vals.getD 0 0) (c.src core))))))
      ∧ (∀ p, c.ins = .bwait h b p → x.st = 1 →
        let ph := if p = none then x.phase else n % 65536
        let d := (x.phase + 65536 - ph % 65536) % 65536
        (1 ≤ d → d ≤ 0x7FFF → ends 0 ph (alone sameBar))
        ∧ (d = 0 ∨ 0x7FFF < d → os.length < 32 →
          ∃ t, exec (.evCommandHead core unit) s = .next t ∧ headLeft s t core unit c rest ∧ keepsStore s t core ∧ (t.core core).t = (s.core core).t
            ∧ sameBar t ∧ (t.core core).c.waiters = os ++ [{ bar := b.toNat, phase := ph, cmd := c }])
        ∧ (d = 0 ∨ 0x7FFF < d → 32 ≤ os.length → again))
      ∧ (∀ (k : BitVec 5) o p (tag : BitVec 3), c.ins = .bufdecl h k o p tag →
        let y := s.buffer core k.toNat
        let ovf := 0x300000 < n + a1 ∨ ∃ i v, (i, v) ∈ (s.core core).c.buf ∧ i ≠ k.toNat ∧ v.v = true ∧ meet n a1 v.base v.size
        let used := y.v = true ∧ y.use ≠ 0
        let odd := n % 64 ≠ 0 ∨ a1 % 64 ≠ 0
        let isBuf (v : Buffer) (t : State) : Prop := ∀ i, t.buffer core i = if i = k.toNat then v else s.buffer core i
        (used → ends Code.bufferState 0 (alone (isBuf y)))
        ∧ (¬ used → odd → ends Code.align 0 (alone (isBuf y)))
        ∧ (¬ used → ¬ odd → ovf → ends Code.shapeBounds 0 (alone (isBuf y)))
        ∧ (¬ used → ¬ odd → ¬ ovf → ends 0 0 (alone (isBuf
          (if a1 = 0 then {} else { v := true, st := 0, tag := tag.toNat, size := a1, base := n, use := 0 })))))
      ∧ (∀ (k : BitVec 5) (st : BitVec 3) force, c.ins = .bufset h k st force →
        let y := s.buffer core k.toNat
        let moves := (force = true ∧ st = 0) ∨ st.toNat = (y.st + 1) % 4
        let isBuf (v : Buffer) (t : State) : Prop := ∀ i, t.buffer core i = if i = k.toNat then v else s.buffer core i
        (y.v = false → ends Code.bufferState 0 (alone (isBuf y)))
        ∧ (y.v = true → y.use ≠ 0 → again)
        ∧ (y.v = true → y.use = 0 → ¬ moves → ends Code.bufferState 0 (alone (isBuf y)))
        ∧ (y.v = true → y.use = 0 → moves → ends 0 0 (alone (isBuf { y with st := st.toNat }))))
      ∧ (∀ o, (c.ins = .opwait h o ∨ c.ins = .opcancel h o ∨ c.ins = .opdetach h o ∨ c.ins = .opadopt h o ∨ c.ins = .opquery h o) →
        s.liveOp (c.vals.getD 0 0) = none → s.justEnded (c.vals.getD 0 0) = none →
        ends Code.opTokenInvalid 0 (alone (fun t => t.ops = s.ops)))
      ∧ (∀ o k z, s.liveOp (c.vals.getD 0 0) = some k → s.op? k = some z → z.ctx = s.ctxOf core →
        let mine := z.owner = 0 ∧ z.grp = c.grp ∧ z.idx = c.idx
        let above := (z.owner = 1 ∧ z.grp = c.grp) ∨ z.owner = 2
        let st : Nat := match z.st with
          | .queued => 0
          | .started => 1
          | .parked => 2
          | .saved => 3
          | .done => 4
        (c.ins = .opquery h o → ends 0 (st + z.owner * 2 ^ 3 + (if z.det then 2 ^ 5 else 0) + (if z.ord then 2 ^ 6 else 0) + z.prio * 2 ^ 7
            + (if z.st = .done then z.code * 2 ^ 10 else 0) + z.prog % 2 ^ 30 * 2 ^ 18) (alone (fun t => t.ops = s.ops)))
        ∧ (c.ins = .opcancel h o → ¬ mine → ¬ above → ends Code.opTokenInvalid 0 (alone (fun t => t.ops = s.ops)))
        ∧ (c.ins = .opcancel h o → (mine ∨ above) → z.st = .done → ends 0 (z.code + 2 ^ 8) (alone (fun t => t.ops = s.ops)))
        ∧ (c.ins = .opdetach h o → ¬ mine → ends Code.opTokenInvalid 0 (alone (fun t => t.ops = s.ops)))
        ∧ (c.ins = .opdetach h o → mine → (z.st = .done ∨ z.det = true) → ends 0 (2 ^ 8) (alone (fun t => t.ops = s.ops)))
        ∧ (c.ins = .opdetach h o → mine → z.st ≠ .done → z.det = false →
          ∃ t, exec (.evCommandHead core unit) s = .next t ∧ headDone s t core unit c rest 0 0 ∧ t.op? k = some { z with det := true }
            ∧ (∀ r, z.cmd.tok = some r → z.core = core → (s.core core).t.isTask z.cmd.grp z.cmd.idx = true →
                NMap.find (s.core core).t.tokOwner r = some (.op k) →
                (t.core core).t.scalar r = (s.core core).t.scalar r ∧ NMap.get false (t.core core).t.pend r = false))
        ∧ ((c.ins = .opwait h o ∨ (c.ins = .opadopt h o ∧ z.det = true ∧ above)) → z.st = .done →
          ∃ t, exec (.evCommandHead core unit) s = .next t ∧ headLeft s t core unit c rest ∧ t.op? k = none
            ∧ ∀ r, tokenWaits s core c r → tokenDone t core r z.code z.unit z.detail)
        ∧ (c.ins = .opwait h o → z.st ≠ .done →
          ∃ t, exec (.evCommandHead core unit) s = .next t ∧ headLeft s t core unit c rest ∧ t.ops = s.ops
            ∧ (t.core core).c.opWaits = (s.core core).c.opWaits ++ [(0, k, c)] ∧ (t.core core).t = (s.core core).t)
        ∧ (c.ins = .opadopt h o → z.det = true → above → z.st ≠ .done →
          ∃ t, exec (.evCommandHead core unit) s = .next t ∧ headLeft s t core unit c rest
            ∧ t.op? k = some { z with owner := 0, det := false, grp := c.grp, idx := c.idx, ownCore := core }
            ∧ (t.core core).c.opWaits = (s.core core).c.opWaits ++ [(2, k, c)] ∧ (t.core core).t = (s.core core).t)))
    -- REMOTE_ARRIVAL_LAND
    ∧ (∀ bar w src,
      let i := bar % 256
      let y := s.barrier core i
      let a := y.arrived + w.toNat
      let ovf := (y.posted = true ∧ y.expected < a) ∨ 2 ^ 48 - 1 < a
      ∃ t, exec (.evRemoteArrivalLand core bar w src) s = .next t
        ∧ (y.st = 0 → t = s.notice (s.ctxOf core)
            { code := Code.barrierPoisoned, detail := i, unit := 0x28, grp := src.grp, task := src.task, coord := src.coord,
              bundle := src.bundle.toNat, opid := src.opid.toNat })
        ∧ (y.st = 1 → keepsStore s t core ∧ (t.core core).t = (s.core core).t ∧ t.hasPosted s.now (.barTest core i)
            ∧ ∀ j, t.barrier core j = if j = i then (if ovf then { y with st := 2, pcode := Code.barrierOverrun } else { y with arrived := a })
                else s.barrier core j)
        ∧ (2 ≤ y.st → t = s))

/-! ### Queues: commands, moves and splices (R165 to R184, R377) -/

namespace Sys2Proof.Machine

/-- A queue is as given, and every other queue of its core as before. -/
def onlyQueue (s t : State) (core q : Nat) (v : Queue) : Prop :=
  ∀ i, t.queue core i = if i = q then v else s.queue core i

/-- Whether a message of one core reaches another (R353): they are on one die, or their circuit is UP or DEGRADED. -/
def linked (s : State) (c d : Nat) : Prop :=
  dieOf c = dieOf d ∨ (s.circuit (dieOf c) (dieOf d)).st = .up ∨ (s.circuit (dieOf c) (dieOf d)).st = .degraded

/-- A message of a splice is on its way, where a circuit takes it (R175, R353): within a yard it arrives eight cycles later, or with the
one before it. -/
def ctlSent (s t : State) (core q pc : Nat) (i : Instr) : Prop :=
  linked s core pc → ∃ due, s.now < due ∧ t.hasPosted due (.ev i)
    ∧ (dieOf core = dieOf pc → yardOf core = yardOf pc → due = max (s.now + 8) (s.queue core q).msgDue)

/-- Nothing but one core, what is posted and when a circuit's next message arrives has changed. -/
def keepsStoreC (s t : State) (core : Nat) : Prop :=
  keepsStore s { t with circuits := s.circuits } core
    ∧ ∀ a b, ∃ u d, t.circuit a b = { s.circuit a b with upDue := u, downDue := d }

/-- Whether a core's yard has its clock. -/
def awake (s : State) (core : Nat) : Prop := NMap.get false (s.die (dieOf core)).gated (yardOf core) = false

end Sys2Proof.Machine

/-- A queue command at its head: `QINIT` opens a free queue after its checks, `QSTAT` tells its state, `QRESET` sets it up anew or frees it,
`QPUSH` and `QPOP` take a slot once their condition holds and begin to move lines, and their completion makes the slot present or
ends the read; a splice is asked for and ended. The messages of a splice: HELLO is answered by the receiver that names its
sender, GRANT brings the credits, a credit adds one, data fills its slot, END, PAUSE, RESUME and a loss change the queue's state. A
message to a yard whose clock is stopped lands once it runs again. (Choices of the model: notes/assumptions/13, 71, 76 to 78.) -/
def Obligations.QueueEvents : Prop :=
  ∀ (s : State) core unit (c : Cmd) rest h (q : BitVec 5),
    let x := s.queue core q.toNat
    let a := (c.vals.getD 0 0).toNat
    let go (t : State) : Prop := exec (.evCommandHead core unit) s = .next t
    let ends (code detail : Nat) (v : Queue) : Prop :=
      ∃ t, go t ∧ headDone s t core unit c rest code detail ∧ keepsStore s t core ∧ tokensOnly s t core [c] ∧ onlyQueue s t core q.toNat v
    let later : Prop := exec (.evCommandHead core unit) s = .next ((s.passWait core unit c).postHead core unit (s.now + 1))
    let inMove (t : State) (slot : Nat) : Prop := ∃ m, (t.core core).c.moving = some m ∧ m.ins = c.ins ∧ m.serial = c.serial ∧ m.tok = c.tok
      ∧ m.vals = [word a, word (x.slotAddr slot)] ∧ m.lines = List.range (x.size / 64) ∧ t.hasPosted (s.now + 1) (.move core)
      ∧ t.cmdsOf core unit = rest
    let src (push : Bool) : Prop := a % 64 = 0 ∧ a + x.size ≤ 0x300000 ∧ s.bufOk core a x.size push (!push) = true
    (headReady s core unit c rest →
      (∀ o (lsz : BitVec 5) (lcnt sc : BitVec 3), c.ins = .qinit h q o lsz lcnt sc →
        let size := 2 ^ lsz.toNat
        let n := 2 ^ (lcnt.toNat + 1)
        (x.st ≠ .free → ends Code.queueState 0 x)
        ∧ (x.st = .free → a % 64 ≠ 0 → ends Code.align 0 x)
        ∧ (x.st = .free → a % 64 = 0 → 0x300000 < a + size * n → ends Code.shapeBounds 0 x)
        ∧ (x.st = .free → a % 64 = 0 → a + size * n ≤ 0x300000 → ends 0 0
          { base := a, size := size, count := n, scope := sc.toNat, st := .opened, gen := x.gen + 1, heldHello := x.heldHello, owner := (c.grp, c.idx) }))
      ∧ (c.ins = .qstat h q → ends 0 (x.occ % 2 ^ 9 + x.room % 2 ^ 9 * 2 ^ 9 + (if x.paused then 2 ^ 20 else 0)
          + (match x.st with
            | .free => 0
            | .opened => 1
            | .pendS => 2
            | .send => 3
            | .pendR => 4
            | .recv => 5
            | .subsR => 6
            | .subsW => 6
            | .lost => 7) * 2 ^ 21 + x.idx x.head % 2 ^ 8 * 2 ^ 24) x)
      ∧ (∀ free, c.ins = .qreset h q free →
        (x.st = .free → ends Code.queueState 0 x)
        ∧ (x.st ≠ .free → x.busy.any (fun e => decide (0 < e.2)) = true → later)
        ∧ (x.st ≠ .free → x.busy.any (fun e => decide (0 < e.2)) = false → x.partner = none → x.sub = none → x.spliceTok = none →
          ends 0 0 { base := x.base, size := x.size, count := x.count, scope := x.scope, st := if free then .free else .opened,
                     gen := x.gen + 1, owner := if free then (0, 0) else x.owner }))
      ∧ (∀ o, c.ins = .qpush h q o →
        let may := x.st = .opened ∨ x.st = .pendS ∨ x.st = .send ∨ x.st = .subsW
        (x.st = .lost → ends (if x.lostSend then Code.spliceLost else Code.queueState) 0 x)
        ∧ (x.st ≠ .lost → ¬ may → ends Code.queueState 0 x)
        ∧ (may → x.room = 0 → later)
        ∧ (may → 1 ≤ x.room → a % 64 ≠ 0 → ends Code.align 0 x)
        ∧ (may → 1 ≤ x.room → a % 64 = 0 → 0x300000 < a + x.size → ends Code.shapeBounds 0 x)
        ∧ (may → 1 ≤ x.room → a % 64 = 0 → a + x.size ≤ 0x300000 → s.bufOk core a x.size true false = false → ends Code.bufferState 0 x)
        ∧ ((x.st = .opened ∨ x.st = .subsW) → 1 ≤ x.room → src true →
          ∃ t, go t ∧ inMove t (x.gen * 65536 + ctr x.tail) ∧ onlyQueue s t core q.toNat { x with tail := ctr (x.tail + 1) } ∧ keepsStore s t core))
      ∧ (∀ o, c.ins = .qpop h q o →
        let may := x.st = .opened ∨ x.st = .pendR ∨ x.st = .recv ∨ x.st = .subsR
        let there := 1 ≤ x.occ ∧ x.present s.now x.head = true
        (x.st = .free ∨ x.st = .pendS ∨ x.st = .send ∨ x.st = .subsW → ends Code.queueState 0 x)
        ∧ (x.st = .lost → 0 < x.occ → x.present s.now x.head = false → ends Code.spliceLost 0 x)
        ∧ (may → ¬ there → later)
        ∧ (may → there → a % 64 ≠ 0 → ends Code.align 0 x)
        ∧ (may → there → a % 64 = 0 → 0x300000 < a + x.size → ends Code.shapeBounds 0 x)
        ∧ (may → there → a % 64 = 0 → a + x.size ≤ 0x300000 → s.bufOk core a x.size false true = false → ends Code.bufferState 0 x)
        ∧ (may → there → src false →
          ∃ t, go t ∧ inMove t (x.gen * 65536 + x.head) ∧ keepsStore s t core ∧ (t.queue core q.toNat).head = ctr (x.head + 1)
            ∧ NMap.get 0 (t.queue core q.toNat).busy (x.idx x.head) = NMap.get 0 x.busy (x.idx x.head) + 1
            ∧ t.hasPosted s.now (.release core q.toNat)))
      ∧ (∀ (r : BitVec 5) (d i j : BitVec 3),
        let pc := 64 * d.toNat + 8 * j.toNat + i.toNat
        let reach : Nat := if dieOf core = dieOf pc then (if yardOf core = yardOf pc then 1 else 2) else 3
        let idle := x.st = .opened ∧ x.isEmpty = true ∧ pc ≠ core
        let pend (st : QState) (hello : Nat) : Queue := { x with st := st, partner := some (pc, r.toNat), spliceTok := some (0, c), cr := 0, sent := 0,
                                                                 unsent := 0, paused := false, hello := hello }
        let both := c.ins = .qspliceSend h q r d i j ∨ c.ins = .qspliceRecv h q r d i j
        (both → ¬ idle → ends Code.queueState 0 x)
        ∧ (both → idle → x.scope < reach → ends Code.queueScope 0 x)
        ∧ (c.ins = .qspliceSend h q r d i j → idle → reach ≤ x.scope → ∃ t m, go t ∧ headLeft s t core unit c rest ∧ keepsStoreC s t core
            ∧ (t.core core).t = (s.core core).t ∧ onlyQueue s t core q.toNat { pend .pendS c.serial with msgDue := m }
            ∧ ctlSent s t core q.toNat pc (.evHello pc r.toNat core q.toNat x.size reach)
            ∧ t.hasPosted (s.now + 1024) (.ev (.evHelloResend core q.toNat c.serial)))
        ∧ (c.ins = .qspliceRecv h q r d i j → idle → reach ≤ x.scope → (∀ e ∈ x.heldHello, (e.1, e.2.1) ≠ (pc, r.toNat)) →
          ∃ t, go t ∧ headLeft s t core unit c rest ∧ keepsStore s t core
            ∧ (t.core core).t = (s.core core).t ∧ onlyQueue s t core q.toNat (pend .pendR x.hello)))
      ∧ (c.ins = .qunsplice h q →
        (x.st ≠ .send → x.st ≠ .pendS → ends Code.queueState 0 x)
        ∧ (∀ pc pq, x.st = .send → x.partner = some (pc, pq) → (x.unsent ≠ 0 ∨ s.now ≤ x.lastSend ∨ x.paused = true) → later)
        ∧ (∀ pc pq, x.st = .send → x.partner = some (pc, pq) → x.unsent = 0 → x.lastSend < s.now → x.paused = false →
          ∃ t m, go t ∧ headLeft s t core unit c rest ∧ keepsStoreC s t core ∧ ctlSent s t core q.toNat pc (.evEnd pc (fromQueue core q.toNat pq))
            ∧ onlyQueue s t core q.toNat { x with st := .opened, partner := none, cr := 0, paused := false, msgDue := m }
            ∧ (t.core core).c.opWaits = (s.core core).c.opWaits ++ [(3, endKey pc pq, c)])
        ∧ (∀ d, x.st = .pendS → x.spliceTok = some (0, d) → ∃ t, go t ∧ headDone s t core unit c rest 0 0 ∧ (t.queue core q.toNat).st = .opened
            ∧ (t.queue core q.toNat).partner = none
            ∧ ∀ r, tokenWaits s core d r → tokenDone t core r Code.spliceLost d.ins.unitCode 0)))
    -- QPUSH_QPOP_COMPLETION
    ∧ (∀ m slot n, (s.core core).c.moving = some m → m.res = some (q.toNat, slot, n) → x.gen = slot / 65536 → m.uses = [] →
      let ovf (t : State) : Prop := exec (.evQpushQpopCompletion core) s = .next t ∧ (t.core core).c.moving = none
        ∧ NMap.get 0 (t.core core).c.free 3 = s.now
        ∧ ∀ r, tokenWaits s core m r → tokenDone t core r (if m.bad.isSome then Code.memUncorrectable else 0) m.ins.unitCode 0
      (∀ h o, m.ins = .qpush h q o → x.st = .opened →
        ∃ t, ovf t ∧ NMap.find (t.queue core q.toNat).pres (x.idx (slot % 65536)) = some s.now)
      ∧ (∀ h o, m.ins = .qpop h q o →
        ∃ t, ovf t ∧ NMap.get 0 (t.queue core q.toNat).busy (x.idx (slot % 65536)) = NMap.get 0 x.busy (x.idx (slot % 65536)) - 1
          ∧ t.hasPosted s.now (.release core q.toNat)))
    -- the messages of a splice, whose key names the queue that sends them
    ∧ (∀ pc pq, pq < 32 → x.partner = some (pc, pq) →
      let qm := fromQueue pc pq q.toNat
      x.isFrom qm = true ∧ msgFrom qm = (pc, pq) ∧ qm % 32 = q.toNat ∧ 2 ^ 32 + (qm / 32 - 1) = endKey pc pq)
    -- no queue of a context that is swapped out is meant
    ∧ (∀ qm, 32 ≤ qm → qm % 32 = q.toNat → linked s (senderOf qm) core → (∀ p, x.partner = some p → p.2 < 32) →
      s.savedSpliced core q.toNat (msgFrom qm) = [] →
      let mine : Prop := x.partner = some (msgFrom qm)
      (∀ m, m.poison = false → m.bytes.length % 8 = 0 →
        let slot := ctr (x.reserved + m.seq)
        let y := x.slotAddr slot + m.off
        ((x.st ≠ .recv ∨ ¬ mine) → exec (.evSpliceDataArrive core qm m) s = .next s)
        ∧ (x.st = .recv → mine → y % 8 = 0 →
          (∀ e ∈ (s.core core).recent, e.at_ ≤ s.now) → ∃ t, exec (.evSpliceDataArrive core qm m) s = .next t
          ∧ t.mem = (List.range (m.bytes.length / 8)).foldl (fun k i => k.writeN (Addr.pad core (y + 8 * i)) ((m.bytes.drop (8 * i)).take 8)) s.mem
          ∧ (∀ k, k < Addr.pad core y ∨ Addr.pad core y + m.bytes.length ≤ k → t.mem.read k = s.mem.read k)
          ∧ onlyQueue s t core q.toNat (if m.last then { x with pres := NMap.set x.pres (x.idx slot) s.now } else x)))
      ∧ (∀ n, (x.st = .pendS → mine →
          (∃ t, exec (.evGrant core qm n) s = .next t ∧ onlyQueue s t core q.toNat { x with st := .send, cr := n, spliceTok := none }
            ∧ ∀ d r, x.spliceTok = some (0, d) → tokenWaits s core d r → tokenDone t core r 0 d.ins.unitCode n)
          ∧ (∃ t, exec (.evRefuse core qm n) s = .next t ∧ onlyQueue s t core q.toNat { x with st := .opened, partner := none, spliceTok := none }
            ∧ ∀ d r, x.spliceTok = some (0, d) → tokenWaits s core d r → tokenDone t core r n d.ins.unitCode 0))
        ∧ ((x.st ≠ .pendS ∨ ¬ mine) → exec (.evGrant core qm n) s = .next s ∧ exec (.evRefuse core qm n) s = .next s)
        ∧ (awake s core → ∃ t, exec (.evCredit core qm n) s = .next t ∧ keepsStore s t core
            ∧ onlyQueue s t core q.toNat (if x.st = .send ∧ mine ∧ x.hello = n then { x with cr := x.cr + 1 } else x)))
      ∧ ((s.cores.map Prod.fst).Nodup → (∀ k, ((s.core k).c.opWaits.map (fun w => w.2.2.serial)).Nodup) →
        ∃ t, exec (.evEnd core qm) s = .next t ∧ t.hasPosted s.now (.release core q.toNat)
          ∧ onlyQueue s t core q.toNat (if x.st = .recv ∧ mine then { x.withdraw with st := .opened, partner := none, paused := false, quiet := 0 } else x)
          ∧ ∀ k, ∀ w ∈ (s.core k).c.opWaits, w.2.1 = 2 ^ 32 + (qm / 32 - 1) →
              w ∉ (t.core k).c.opWaits ∧ ∀ r, tokenWaits s k w.2.2 r → tokenDone t k r 0 w.2.2.ins.unitCode 0)
      ∧ (∀ pc pq, awake s core → x.partner = some (pc, pq) → (x.st = .send ∨ x.st = .recv) → mine →
        ∃ t m, exec (.evPause core qm) s = .next t ∧ onlyQueue s t core q.toNat { x with paused := true, msgDue := m }
          ∧ ctlSent s t core q.toNat pc (.evPauseAck pc (fromQueue core q.toNat pq)) ∧ keepsStoreC s t core)
      ∧ (awake s core → (¬ mine ∨ (x.st ≠ .send ∧ x.st ≠ .recv)) → exec (.evPause core qm) s = .next s)
      ∧ (∃ t, exec (.evPauseAck core qm) s = .next t ∧ keepsStore s t core
        ∧ onlyQueue s t core q.toNat (if x.quiet = 1 ∧ mine then { x with quiet := 2 } else x))
      ∧ (∃ t, exec (.evResume core qm) s = .next t ∧ t.hasPosted s.now (.release core q.toNat)
        ∧ (x.heldOut = [] → keepsStore s t core ∧ onlyQueue s t core q.toNat (if mine then { x with paused := false } else x))
        ∧ (∀ pc pq, x.st = .send → x.quiet = 0 → x.partner = some (pc, pq) → mine →
          ∃ due, onlyQueue s t core q.toNat { x with paused := false, heldOut := [], msgDue := due }
            ∧ ∀ e ∈ x.heldOut, linked s core pc → ∃ d, s.now < d ∧ t.hasPosted d (.ev (.evSpliceDataArrive pc (fromQueue core q.toNat pq)
                { seq := e.1, off := e.2.1, bytes := e.2.2.1, last := e.2.2.2.1, poison := e.2.2.2.2 }))))
      ∧ (awake s core → (x.st = .pendS ∨ x.st = .pendR ∨ x.st = .send ∨ x.st = .recv) → mine →
        ∃ t, exec (.evSpliceLoss core qm) s = .next t
          ∧ onlyQueue s t core q.toNat { x with
              st := .lost, lostSend := decide (x.st = .pendS ∨ x.st = .send), partner := none, cr := 0, paused := false, quiet := 0, heldOut := [],
              spliceTok := none }
          ∧ ∀ d r, x.spliceTok = some (0, d) → tokenWaits s core d r → tokenDone t core r Code.spliceLost d.ins.unitCode 0)
      ∧ (∀ i ∈ [Instr.evCredit core qm 0, .evPause core qm, .evSpliceLoss core qm], ¬ awake s core →
        NMap.find (s.die (dieOf core)).wakeAt (yardOf core) = none →
        ∃ t w, exec i s = .next t ∧ s.now < w ∧ w ≤ s.now + 32 ∧ t.hasPosted (w + 1) (.ev i) ∧ t.cores = s.cores ∧ t.mem = s.mem))
    -- a message over a circuit in SETUP waits, and over one that has failed it is lost
    ∧ (∀ qm n, dieOf (senderOf qm) ≠ dieOf core →
      let a := dieOf (senderOf qm)
      let b := dieOf core
      let z := s.circuit a b
      (z.st = .setup → z.passUntil < s.now → exec (.evGrant core qm n) s = .next (s.onCircuit a b (fun y => { y with held := y.held ++ [.evGrant core qm n] })))
      ∧ (z.st ≠ .setup → z.st ≠ .up → z.st ≠ .degraded → exec (.evGrant core qm n) s = .next s))
    ∧ (∀ pc pq size reach, awake s core → linked s pc core → s.savedSpliced pc pq (core, q.toNat) = [] →
      let z := s.queue pc pq
      let hello := exec (.evHello core q.toNat pc pq size reach) s
      let stands := z.st = .pendS ∧ z.partner = some (core, q.toNat)
      let asked := x.st = .pendR ∧ x.partner = some (pc, pq)
      let refused (code : Nat) : Prop := ∃ t, hello = .next t ∧ ctlSent s t core q.toNat pc (.evRefuse pc (fromQueue core q.toNat pq) code)
        ∧ (t.queue core q.toNat).st = .opened ∧ (t.queue core q.toNat).partner = none
        ∧ ∀ d r, x.spliceTok = some (0, d) → tokenWaits s core d r → tokenDone t core r code d.ins.unitCode 0
      (¬ stands → hello = .next s)
      ∧ (stands → ¬ asked → ∃ t, hello = .next t ∧ keepsStore s t core
        ∧ onlyQueue s t core q.toNat { x with heldHello := x.heldHello.filter (fun e => !(e.1 == pc && e.2.1 == pq)) ++ [(pc, pq, size, reach)] })
      ∧ (stands → asked → size ≠ x.size → refused Code.queueState)
      ∧ (stands → asked → size = x.size → x.scope < reach → refused Code.queueScope)
      ∧ (stands → asked → size = x.size → reach ≤ x.scope →
        let n := x.count - ctr (x.tail + 65536 - x.rel)
        ∃ t, hello = .next t ∧ ctlSent s t core q.toNat pc (.evGrant pc (fromQueue core q.toNat pq) n) ∧ (t.queue core q.toNat).st = .recv
          ∧ (t.queue core q.toNat).reserved = x.tail ∧ (t.queue core q.toNat).tail = ctr (x.rel + x.count)
          ∧ ∀ d r, x.spliceTok = some (0, d) → tokenWaits s core d r → tokenDone t core r 0 d.ins.unitCode n))
    ∧ (∀ n, (x.st = .pendS ∧ x.hello = n →
        ∀ pc pq, x.partner = some (pc, pq) → ∃ t m, exec (.evHelloResend core q.toNat n) s = .next t ∧ onlyQueue s t core q.toNat { x with msgDue := m }
          ∧ ctlSent s t core q.toNat pc (.evHello pc pq core q.toNat x.size (reachOf core pc))
          ∧ t.hasPosted (s.now + 1024) (.ev (.evHelloResend core q.toNat n)))
      ∧ (x.st ≠ .pendS ∨ x.hello ≠ n → exec (.evHelloResend core q.toNat n) s = .next s))

/-! ### Register leases (R107, R349, R350) -/

namespace Sys2Proof.Machine

/-- A lease entry is as given, and every other entry of its core as before. -/
def onlyLease (s t : State) (core e : Nat) (l : Lease) : Prop := ∀ i, t.leaseOf core i = if i = e then l else s.leaseOf core i

end Sys2Proof.Machine

/-- `LEASE` at its head is checked, takes its entry and sends its request, which lands eight cycles later; the lender sets the words aside, all
zero, or refuses them, and the grant lands eight cycles after that: the lease is live, in the pool or on a fallback area that reads as
zero. `LFREE` gives the words back, `LEASE.rcl` recalls them. A revocation turns the lease to its fallback area, one line of which is
written in a cycle, and the words return when the last is. (An entry whose request is under way is taken, and where a lease's words stand:
notes/assumptions/50 and 51.) -/
def Obligations.LeaseEvents : Prop :=
  ∀ (s : State) core unit (c : Cmd) rest h (e : BitVec 2) (lender : BitVec 4),
    let l := s.leaseOf core e.toNat
    let n := (c.vals.getD 0 0).toNat
    let fb := (c.vals.getD 1 0).toNat
    let go (t : State) : Prop := exec (.evCommandHead core unit) s = .next t
    let ends (code : Nat) (v : Lease) : Prop :=
      ∃ t, go t ∧ headDone s t core unit c rest code 0 ∧ keepsStore s t core ∧ tokensOnly s t core [c] ∧ onlyLease s t core e.toNat v
    (headReady s core unit c rest →
      (∀ o p, c.ins = .lease h e lender o p →
        let taken := l.live = true ∨ l.tok.isSome = true
        let odd := lender.toNat = yardCore core ∨ n = 0 ∨ 256 < n
        (taken → ends Code.shapeIndex l)
        ∧ (¬ taken → odd → ends Code.shapeBounds l)
        ∧ (¬ taken → ¬ odd → fb % 64 ≠ 0 → ends Code.align l)
        ∧ (¬ taken → ¬ odd → fb % 64 = 0 → 0x300000 < fb + 8 * n → ends Code.shapeBounds l)
        ∧ (¬ taken → ¬ odd → fb % 64 = 0 → fb + 8 * n ≤ 0x300000 →
          ∃ t, go t ∧ headLeft s t core unit c rest ∧ keepsStore s t core ∧ (t.core core).t = (s.core core).t
            ∧ onlyLease s t core e.toNat { tok := some c, owner := (c.grp, c.idx) }
            ∧ t.hasPosted (s.now + 8) (.ev (.evLeaseRequestLand (coreOfYard core lender.toNat) core e.toNat n fb))))
      ∧ (c.ins = .lfree h e →
        (l.live = false → ends Code.shapeIndex l)
        ∧ (l.live = true → ∃ t, go t ∧ headDone s t core unit c rest 0 0 ∧ (l.waits = [] → keepsStore s t core) ∧ onlyLease s t core e.toNat {}
          ∧ t.hasPosted (s.now + 8) (.ev (.evLeaseWordsReturn (coreOfYard core l.core) core e.toNat))))
      ∧ (c.ins = .leaseRcl h →
        ((s.core core).c.lent = [] → ends 0 l)
        ∧ ((s.core core).c.lent ≠ [] → ∃ t, go t ∧ headLeft s t core unit c rest ∧ keepsStore s t core
          ∧ (t.core core).c.opWaits = (s.core core).c.opWaits ++ [(5, recallKey core, c)]
          ∧ (t.core core).c.lent = (s.core core).c.lent.map (fun z => { z with rcl := true })
          ∧ ∀ z ∈ (s.core core).c.lent, t.hasPosted (s.now + 8) (.ev (.evLeaseRevocation z.holder z.entry)))))
    -- LEASE_REQUEST_LAND
    ∧ (∀ holder words at_,
      let lent := (s.core core).c.lent
      let used := lent.foldl (fun acc z => acc + z.words) 0
      (256 < used + words → exec (.evLeaseRequestLand core holder e.toNat words at_) s
          = .next (s.postEv (s.now + 8) (.evLeaseGrantLand holder e.toNat core words at_ true)))
      ∧ (used + words ≤ 256 → ∃ t b, exec (.evLeaseRequestLand core holder e.toNat words at_) s = .next t ∧ keepsStore s t core
        ∧ b = 256 * (4 * yardCore holder + e.toNat)
        ∧ (t.core core).c.lent = lent ++ [{ holder := holder, entry := e.toNat, base := b, words := words }]
        ∧ (∀ i, NMap.get 0 (t.core core).c.pool i = if b ≤ i ∧ i < b + 256 then 0 else NMap.get 0 (s.core core).c.pool i)
        ∧ t.hasPosted (s.now + 8) (.ev (.evLeaseGrantLand holder e.toNat core words at_ false))))
    -- LEASE_GRANT_LAND
    ∧ (∀ from_ words at_ rev,
      let grant (t : State) : Prop := exec (.evLeaseGrantLand core e.toNat from_ words at_ rev) s = .next t
      (l.tok = none → rev = true → grant s)
      ∧ (l.tok = none → rev = false → grant (s.postEv (s.now + 8) (.evLeaseWordsReturn from_ core e.toNat)))
      ∧ (∀ d, l.tok = some d → at_ % 8 = 0 → (∀ b ∈ (s.core core).recent, b.at_ ≤ s.now) → (∀ h, d.ins.cmdHdr = some h → h.sinc = 0) → ∃ t, grant t
        ∧ onlyLease s t core e.toNat
          { l with live := true, rev := rev, core := yardCore from_, words := words, fb := at_, poolBase := 256 * (4 * yardCore core + e.toNat), tok := none }
        ∧ (∀ r, tokenWaits s core d r → tokenDone t core r 0 d.ins.unitCode (if rev then 1 else 0))
        ∧ t.mem = (if rev then (List.range words).foldl (fun m i => m.writeN (Addr.pad core (at_ + 8 * i)) (List.replicate 8 0)) s.mem else s.mem)
        ∧ ∀ k, k < Addr.pad core at_ ∨ Addr.pad core at_ + 8 * words ≤ k → t.mem.read k = s.mem.read k))
    -- LEASE_REVOCATION
    ∧ (l.live = false ∨ l.rev = true → exec (.evLeaseRevocation core e.toNat) s = .next s)
    ∧ (l.live = true → l.rev = false → ∃ t, exec (.evLeaseRevocation core e.toNat) s = .next t ∧ keepsStore s t core ∧ (t.core core).t = (s.core core).t
      ∧ onlyLease s t core e.toNat { l with rev := true, readyFrom := s.now + (l.words + 7) / 8, waits := [] }
      ∧ t.hasPosted s.now (.ev (.evFallbackLineWrite core e.toNat 0)))
    -- FALLBACK_LINE_WRITE
    ∧ (∀ line,
      let at_ := l.fb + 64 * line
      let bank := at_ / 2 ^ 14
      let busy := (s.core core).bankUse.contains (bank, s.now) || (s.core core).mcTaken.contains (bank, s.now) || (s.core core).engUse.contains (bank, s.now)
      let w := min 8 (l.words - 8 * line)
      (l.live = false ∨ l.rev = false → exec (.evFallbackLineWrite core e.toNat line) s = .next s)
      ∧ (l.live = true → l.rev = true → busy = true → ∃ t, exec (.evFallbackLineWrite core e.toNat line) s = .next t ∧ keepsStore s t core
        ∧ onlyLease s t core e.toNat { l with readyFrom := l.readyFrom + 1 } ∧ t.hasPosted (s.now + 1) (.ev (.evFallbackLineWrite core e.toNat line)))
      ∧ (l.live = true → l.rev = true → busy = false → at_ % 8 = 0 → (∀ b ∈ (s.core core).recent, b.at_ ≤ s.now) →
        (line + 1 < (l.words + 7) / 8 ∨ l.waits = []) → ∃ t, exec (.evFallbackLineWrite core e.toNat line) s = .next t
        ∧ t.mem = (List.range w).foldl (fun m i => m.writeN (Addr.pad core (at_ + 8 * i)) (toBytes 8 (s.poolWord core l (8 * line + i)).toNat)) s.mem
        ∧ (∀ k, k < Addr.pad core at_ ∨ Addr.pad core at_ + 8 * w ≤ k → t.mem.read k = s.mem.read k)
        ∧ (line + 1 < (l.words + 7) / 8 → onlyLease s t core e.toNat l ∧ t.hasPosted (s.now + 1) (.ev (.evFallbackLineWrite core e.toNat (line + 1))))
        ∧ ((l.words + 7) / 8 ≤ line + 1 → onlyLease s t core e.toNat { l with waits := [] }
          ∧ t.hasPosted (s.now + 8) (.ev (.evLeaseWordsReturn (coreOfYard core l.core) core e.toNat)))))
    -- LEASE_WORDS_RETURN
    ∧ (∀ holder, (s.cores.map Prod.fst).Nodup → (∀ k, ((s.core k).c.opWaits.map (fun w => w.2.2.serial)).Nodup) →
      let left := (s.core core).c.lent.filter (fun z => !(z.holder == holder && z.entry == e.toNat))
      ∃ t, exec (.evLeaseWordsReturn core holder e.toNat) s = .next t ∧ (t.core core).c.lent = left
        ∧ (left.any (fun z => z.rcl) = true → keepsStore s t core ∧ (t.core core).t = (s.core core).t)
        ∧ (left.any (fun z => z.rcl) = false → ∀ k, ∀ w ∈ (s.core k).c.opWaits, w.2.1 = recallKey core →
            w ∉ (t.core k).c.opWaits ∧ ∀ r, tokenWaits s k w.2.2 r → tokenDone t k r 0 w.2.2.ins.unitCode 0))

/-! ### Groups, launches and tasks (R23, R25, R26, R312 to R331, R337, R343, R362, R363) -/

namespace Sys2Proof.Machine

/-- Nothing has changed but one task of a group, its group's watchdog counter and what is posted. -/
def onlyTaskRec (s t : State) (gk i : Nat) (v : Task) : Prop :=
  (∃ po gr, t = { s with posted := po, groups := gr }) ∧ t.task? gk i = some v
    ∧ ∀ g j, (g ≠ gk ∨ j ≠ i) → t.task? g j = s.task? g j

/-- Nothing but one core, what is posted and the count of free values has changed. -/
def onlyCore (s t : State) (core : Nat) : Prop :=
  (∃ po fr co, t = { s with posted := po, free := fr, cores := co }) ∧ ∀ n, n ≠ core → t.core n = s.core n

end Sys2Proof.Machine

/-- A decrement of a dependence counter: of a LISTED task whose counter is above 0 it takes one and has the task tested; of any other task it
changes nothing; a DEP action that names no task of its group posts the notice SHAPE_INDEX; a `TDEP` that names none completes with
SHAPE_INDEX, and one that succeeds says whether the decrement was discarded. -/
def Obligations.DependDecrement : Prop :=
  ∀ (s : State) ctx gk g i unit src core (c : Cmd),
    s.group? gk = some g →
    let dep := s.perform exec (.dep ctx gk i unit src)
    let tdep (t : State) : Prop := s.perform exec (.tdep core c) = .next t
    let done (t : State) (code detail : Nat) : Prop := ∀ r, tokenWaits s core c r → tokenDone t core r code c.ins.unitCode detail
    (∀ t, g.tasks[i]? = some t → t.st = .listed → 0 < t.cnt →
      ∃ u, dep = .next u ∧ onlyTaskRec s u gk i { t with cnt := t.cnt - 1 } ∧ u.hasPosted s.now (.ev (.evTaskReady gk i)))
    ∧ (∀ t, g.tasks[i]? = some t → (t.st ≠ .listed ∨ t.cnt = 0) → dep = .next s)
    ∧ (g.tasks.length ≤ i → dep = .next (s.notice ctx
        { code := Code.shapeIndex, unit := unit, grp := src.grp, task := src.task, coord := src.coord,
          bundle := src.bundle.toNat, opid := src.opid.toNat }))
    ∧ (c.grp = gk →
      let j := (c.vals.getD 0 0).toNat % 2 ^ 20
      (∀ t, g.tasks[j]? = some t → t.st = .listed → 0 < t.cnt →
        ∃ u, tdep u ∧ done u 0 0 ∧ u.task? gk j = some { t with cnt := t.cnt - 1 } ∧ u.hasPosted s.now (.ev (.evTaskReady gk j)))
      ∧ (∀ t, g.tasks[j]? = some t → (t.st ≠ .listed ∨ t.cnt = 0) → ∃ u, tdep u ∧ done u 0 1 ∧ u.groups = s.groups)
      ∧ (g.tasks.length ≤ j → ∃ u, tdep u ∧ done u Code.shapeIndex 0 ∧ u.groups = s.groups))

/-- Launch and schedule. A TAIL write announces packets or sets OVF; taking a packet moves HEAD on and creates its group, every record LISTED. A
LISTED task becomes READY when its counter is 0 and its waits hold; a free core takes the first of those that wait, and its task starts
with its registers as the record gives; a retiring task with nothing outstanding is DONE, and what it detached passes to its group; a newcomer of higher priority has a pre-emption decided, which drains, saves, kills or waits
by the table of R337. A group ends when nothing of it is left. `TLAUNCH` adds a task, `TDEP` sends its decrement. A watchdog counter
that has run out is a fatal cause; a yard that stays idle has its clock gated. (Choices: notes/assumptions/2, 29, 31, 38, 40, 54, 123.) -/
def Obligations.SchedulerEvents : Prop :=
  ∀ (s : State) gk g core ctx q,
    s.group? gk = some g →
    let now := s.now
    -- TASK_READY
    (∀ i t, g.tasks[i]? = some t →
      let n := recCore (g.ctx / 64) t.recd
      let ready := t.st = .listed ∧ t.cnt = 0 ∧ g.ended = false ∧ (s.context g.ctx).st = .active
        ∧ ∀ j, j < recNW t.recd → bits (recWait t.recd j) 8 12 ≤ s.sem n (bits (recWait t.recd j) 0 8)
      (ready → ∃ u, exec (.evTaskReady gk i) s = .next u ∧ onlyTaskRec s u gk i { t with st := .ready, readyAt := now }
        ∧ u.hasPosted now (.ev (.evTaskGrant n)))
      ∧ (¬ ready → exec (.evTaskReady gk i) s = .next s))
    -- the order of those that wait (R324)
    ∧ (∀ w, (s.core core).resv = none → s.chosen core = some w → w ∈ s.waitingFor core ∧ ∀ v ∈ s.waitingFor core,
        v.eff < w.eff ∨ (v.eff = w.eff ∧ (w.since < v.since ∨ (w.since = v.since ∧ (w.order < v.order ∨ (w.order = v.order ∧ w.idx ≤ v.idx))))))
    -- TASK_GRANT
    ∧ ((s.context (s.ctxOf core)).st ≠ .active ∨ (s.core core).ctx = none ∨ s.waitingFor core = [] ∨ (s.die (dieOf core)).throttled = true →
      exec (.evTaskGrant core) s = .next s)
    ∧ (∀ w i t, (s.context (s.ctxOf core)).st = .active → (s.core core).ctx ≠ none → s.chosen core = some w → w.gk = gk → w.idx = i →
      g.tasks[i]? = some t → w.susp = false → (s.core core).t.mode = .none → (s.die (dieOf core)).throttled = false →
      (s.coreFree core = false → exec (.evTaskGrant core) s = .next (s.postEv (now + 1) (.evTaskGrant core)))
      ∧ (s.coreFree core = true → g.items = [] →
        let asleep := NMap.get false (s.die (dieOf core)).gated (yardOf core)
        ∃ u due, exec (.evTaskGrant core) s = .next u ∧ (u.core core).t.mode = .running ∧ (u.core core).t.grp = gk ∧ (u.core core).t.idx = i
          ∧ (u.core core).t.pc = g.obj + bits (g.hdr.getD 1 0).toNat 0 32 + recEntry t.recd
          ∧ (u.core core).t.scalar 0 = word (coordWord core) ∧ (u.core core).t.scalar 1 = t.arg ∧ (u.core core).t.scalar 2 = word g.gid
          ∧ (∀ k, 3 ≤ k → k < 64 → (u.core core).t.scalar k = 0) ∧ (u.core core).t.prioAt now = recPrio t.recd
          ∧ (∀ k, (u.core core).t.vector k = 0)
          ∧ u.task? gk i = some { t with st := .running } ∧ now < due ∧ due ≤ now + (if asleep then 64 else 32)
          ∧ u.hasPosted due (.issue core ((s.core core).gen + 1))
          ∧ u.hasPosted (now + 2 ^ (s.context g.ctx).wdlog) (.ev (.evWatchdog g.ctx gk i))))
    -- TASK_DONE
    ∧ (let t := (s.core core).t
      let mine (o : Op) : Prop := o.owner = 0 ∧ o.grp = gk ∧ o.idx = t.idx
      (t.mode ≠ .retiring → exec (.evTaskDone core) s = .next s)
      ∧ (t.mode = .retiring → (∀ e ∈ t.late, now < e.1) → s.retired core = false → exec (.evTaskDone core) s
          = .next (s.postEv (now + 1) (.evTaskDone core)))
      ∧ (∀ y, t.mode = .retiring → s.retired core = true → t.grp = gk → g.tasks[t.idx]? = some y →
        ∃ u, exec (.evTaskDone core) s = .next u ∧ (u.core core).t.mode = .none ∧ u.task? gk t.idx = some { y with st := .done }
          ∧ u.hasPosted now (.ev (.evGroupEnd gk)) ∧ (∀ k o, u.op? k = some o → ¬ mine o)
          ∧ ∀ k o, s.op? k = some o → mine o → o.det = true → ∃ z, u.op? k = some z ∧ z.owner = 1 ∧ z.det = true ∧ z.st = o.st ∧ z.cmd = o.cmd))
    -- GROUP_END
    ∧ (let isOver := (∀ t ∈ g.tasks, t.st = .done ∨ t.st = .killed)
          ∧ (∀ kc ∈ s.cores, ∀ c ∈ NMap.get [] kc.2.c.cmdq 7, isGroupCmd c.ins = true → c.grp ≠ gk)
          ∧ s.isDue (fun a => match a with
              | .tdep _ c => c.grp == gk
              | _ => false) = false
          ∧ ∀ ko ∈ s.ops, ko.2.owner = 1 → ko.2.grp = gk → ko.2.det = true ∨ ko.2.st = .done
      let status := if g.tasks.all (fun t => t.st == .done) then (0, 0xFFFFF) else (g.firstKilled.map (fun e => (e.2, e.1))).getD (0, 0xFFFFF)
      -- the completion record comes after every write it reports
      let told (u : State) : State :=
        if g.cpl = false then u
        else if u.groupWritten gk = false then u.postEv (now + 1) (.evGroupEnd gk)
        else (u.onGroup gk (fun z => { z with cpl := false })).writeCompletion g.ctx g.crec g.tag status.1 g.gid status.2
      (g.ended = true → exec (.evGroupEnd gk) s = .next (told s))
      ∧ (g.ended = false → ¬ isOver → exec (.evGroupEnd gk) s = .next s)
      ∧ (g.ended = false → isOver →
        ∃ u g', exec (.evGroupEnd gk) s = .next ((told u).postIntake (g.ctx / 64))
          ∧ (∃ gr os, u = { s with groups := gr, ops := os }) ∧ u.group? gk = some g' ∧ g'.ended = true ∧ g'.tasks = g.tasks ∧ g'.cpl = g.cpl
          ∧ u.ops = s.ops.map (fun ko => if ko.2.owner = 1 ∧ ko.2.grp = gk then (ko.1, { ko.2 with owner := 2 }) else ko)))
    -- TLAUNCH and TDEP at the head
    ∧ (∀ c rest h o,
      headReady s core 7 c rest → c.grp = gk → s.portClear core c.seq = true →
      (c.ins = .tdep h o → ∃ u, exec (.evCommandHead core 7) s = .next u ∧ headLeft s u core 7 c rest ∧ u.groups = s.groups
        ∧ u.hasPosted now (.tdep core c) ∧ (u.core core).t = (s.core core).t)
      ∧ (∀ code, c.ins = .tlaunch h o → s.launchRec core c g = .error code →
        ∃ u, exec (.evCommandHead core 7) s = .next u ∧ headDone s u core 7 c rest code 0 ∧ u.groups = s.groups)
      ∧ (∀ r, c.ins = .tlaunch h o → s.launchRec core c g = .ok r →
        let n := g.tasks.length
        ∃ u, exec (.evCommandHead core 7) s = .next u ∧ headDone s u core 7 c rest 0 n ∧ u.task? gk n = some { recd := r, arg := r.getD 3 0, cnt := recDeps r }
          ∧ (∀ i, i < n → u.task? gk i = s.task? gk i) ∧ u.hasPosted now (.ev (.evTaskReady gk n))))
    -- LAUNCH_TAIL_WRITE
    ∧ (∀ (v : BitVec 32) src, q < 4 →
      let k := 4 * ctx + q
      let l := s.launchQ k
      let d := (v.toNat + 2 ^ 32 - l.head % 2 ^ 32) % 2 ^ 32
      let good := l.en = true ∧ 6 ≤ l.lcnt ∧ l.lcnt ≤ 15 ∧ d ≤ 2 ^ l.lcnt ∧ l.ahead ≤ d
      let isQ (u : State) (x : LaunchQ) : Prop := ∀ j, u.launchQ j = if j = k then x else s.launchQ j
      -- over the circuit of a peer die, or the port of a remote node
      let by_ (p : Nat → Prop) : Prop := ∃ n, src.map BitVec.toNat = some n ∧ p n
      let cut := by_ (fun n => (n < 8 ∧ n ≠ ctx / 64 ∧ (s.circuit n (ctx / 64)).st ∉ [CircSt.up, .degraded, .setup])
        ∨ (0x1000 ≤ n ∧ n < 0x2000 ∧ (s.ewenPort ((n - 0x1000) / 0x100)).st.carries = false))
      let held := by_ (fun n => n < 8 ∧ n ≠ ctx / 64 ∧ (s.circuit n (ctx / 64)).st = .setup)
      (cut → exec (.evLaunchTailWrite ctx q v src) s = .next s)
      ∧ (¬ cut → ¬ held → ¬ good → ∃ u la, exec (.evLaunchTailWrite ctx q v src) s = .next u ∧ u = { s with launch := la } ∧ isQ u { l with ovf := true })
      ∧ (¬ cut → ¬ held → good → ∃ u, exec (.evLaunchTailWrite ctx q v src) s = .next u ∧ isQ u { l with tail := v.toNat, srcs := l.srcs ++ [(v.toNat, src.map BitVec.toNat)] }
        ∧ u.isDue (· == .ev (.evPacketTake (ctx / 64))) = true ∧ ∃ po fr la, u = { s with posted := po, free := fr, launch := la }))
    -- PACKET_TAKE
    ∧ (∀ die, s.pickQueue die = none → exec (.evPacketTake die) s = .next s)
    ∧ (∀ die key, s.pickQueue die = some key →
      let l := s.launchQ key
      let v := (s.onLaunch key LaunchQ.taken).onDie die (fun d => { d with rr := key + 1 })
      (∃ u, exec (.evPacketTake die) s = .next u ∧ (u.launchQ key).head = (l.head + 1) % 2 ^ 32)
      ∧ (∀ bs, l.source = none → v.vread (key / 4) l.slot 64 4 = .ok bs →
        let w := wordsOf 8 bs
        (packetBad w = true → ∃ u, exec (.evPacketTake die) s = .next u ∧ u.groups = s.groups)
        ∧ (∀ o, packetBad w = false → bitOf (bits (w.getD 0 0).toNat 16 16) die = true → o.items = [] →
          v.readObject (key / 4) (bits (w.getD 1 0).toNat 0 57) = some o →
          let gid := (s.die die).gids
          ∃ u z, exec (.evPacketTake die) s = .next u ∧ u.group? (2 ^ 32 * die + gid) = some z ∧ z.ctx = key / 4 ∧ z.gid = gid ∧ z.queue = key % 4
            ∧ z.tasks = o.recs.map (fun r => { recd := r, arg := r.getD 3 0 + w.getD 3 0, cnt := recDeps r })
            ∧ (∀ i, i < o.recs.length → u.hasPosted now (.ev (.evTaskReady (2 ^ 32 * die + gid) i)))
            ∧ u.hasPosted (now + 2 ^ (s.context (key / 4)).wdlog) (.ev (.evWatchdog (key / 4) (2 ^ 32 * die + gid) 0xFFFFF)))))
    -- PREEMPTION_DECISION and DRAIN_LIMIT
    ∧ (let t := (s.core core).t
      let x := s.context (s.ctxOf core)
      let can := (t.mode = .running ∨ t.mode = .held ∨ t.mode = .brk ∨ t.mode = .parked) ∧ (s.die (dieOf core)).throttled = false
      (x.st ≠ .active ∨ (t.mode ≠ .saving ∧ (¬ can ∨ now < t.drainAt ∨ s.newcomer core = none)) → exec (.evPreemptionDecision core) s = .next s)
      ∧ (x.st = .active → t.mode = .saving → s.saveReady core = false →
        exec (.evPreemptionDecision core) s = .next (s.postEv (now + 1) (.evPreemptionDecision core)))
      ∧ (t.drainAt = 0 → exec (.evDrainLimit core) s = .next s)
      ∧ (∀ w, x.st = .active → can → t.drainAt ≤ now → s.newcomer core = some w → (s.core core).decided = s.decidedOn core w →
        exec (.evPreemptionDecision core) s = .next (s.postEv (now + 1) (.evPreemptionDecision core)))
      ∧ (∀ w, x.st = .active → can → t.drainAt ≤ now → s.newcomer core = some w → (s.core core).decided ≠ s.decidedOn core w →
        let z := s.onCore core (fun c => { c with decided := s.decidedOn core w })
        -- the first row is left out at the limit of a drain and after it, for the same newcomer
        let drained := t.drainAt ≠ 0 ∧ (now = t.drainAt ∨ (s.core core).decided.take 2 = [w.gk, w.idx])
        let short := ¬ drained ∧ t.estAt now ≤ x.drain
        let slot := x.nockpt = false ∧ (s.core core).c.susp.length < 8
        let kill := x.restart = true ∧ 2 ≤ x.tokens
        (short → exec (.evPreemptionDecision core) s = .next ((z.onCore core (fun c => { c with
            resv := some (w.gk, w.idx), t := { c.t with drainAt := now + x.drain } })).postEv (now + x.drain) (.evDrainLimit core)))
        ∧ ∀ e ∈ (if t.drainAt = 0 then [Instr.evPreemptionDecision core] else [.evPreemptionDecision core, .evDrainLimit core]),
          (¬ short → slot → ∃ u, exec e s = .next u ∧ (u.core core).t.mode = .saving ∧ (u.core core).t.saveFrom = t.mode
            ∧ u.hasPosted (now + 1) (.ev (.evPreemptionDecision core)))
          ∧ (¬ short → ¬ slot → kill → ∀ y, t.grp = gk → g.tasks[t.idx]? = some y → y.st ≠ .done → y.st ≠ .killed → recCore (g.ctx / 64) y.recd = core →
            ∃ u z, exec e s = .next u ∧ (u.core core).t.mode = .none ∧ (u.context (s.ctxOf core)).tokens = x.tokens - 2
              ∧ u.task? gk t.idx = some z ∧ z.st = .listed ∧ z.cnt = 0 ∧ z.recd = y.recd ∧ u.hasPosted now (.ev (.evTaskReady gk t.idx)))
          ∧ (¬ short → ¬ slot → ¬ kill → exec e s = .next (z.postEv (now + 1) (.evPreemptionDecision core)))))
    -- TOKEN_REFILL
    ∧ (let x := s.context ctx
      ∃ u, exec (.evTokenRefill ctx) s = .next u ∧ (∃ po cx, u = { s with posted := po, ctxs := cx })
        ∧ u.context ctx = { x with tokens := min x.tokmax (x.tokens + x.tokrate) } ∧ u.hasPosted (now + 2250000) (.ev (.evTokenRefill ctx)))
    -- WATCHDOG
    ∧ (let limit := 2 ^ (s.context ctx).wdlog
      let count := g.idle + (if g.idling then now - g.idleFrom else 0)
      (g.ended = true → exec (.evWatchdog ctx gk 0xFFFFF) s = .next s)
      ∧ (g.ended = false → limit ≤ count → exec (.evWatchdog ctx gk 0xFFFFF) s
          = .next (s.fatal ctx { code := Code.watchdog, grp := g.gid, task := 0xFFFFF }))
      ∧ (g.ended = false → count < limit → exec (.evWatchdog ctx gk 0xFFFFF) s = .next (s.postEv (now + (limit - count)) (.evWatchdog ctx gk 0xFFFFF)))
      ∧ ∀ i y, i ≠ 0xFFFFF → g.tasks[i]? = some y →
        let n := recCore (ctx / 64) y.recd
        let t := (s.core n).t
        let from_ := t.brkClear now
        (t.isTask gk i = false → exec (.evWatchdog ctx gk i) s = .next s)
        ∧ (t.isTask gk i = true → limit ≤ now - from_ → exec (.evWatchdog ctx gk i) s
            = .next (s.fatal ctx { code := Code.watchdog, grp := gk, task := i, coord := coordWord n, bundle := t.pc,
                                   opid := (t.brk.map Prod.snd).getD 0 }))
        ∧ (t.isTask gk i = true → now - from_ < limit → exec (.evWatchdog ctx gk i) s = .next (s.postEv (from_ + limit) (.evWatchdog ctx gk i)))
        -- the cycles in `BRK` do not count
        ∧ ((t.brk = none ∨ t.doing ≠ .brk) → from_ = t.lastClear)
        ∧ ∀ b code, t.brk = some (b, code) → t.doing = .brk → t.lastClear ≤ b → b ≤ now → now - from_ = b - t.lastClear)
    -- YARD_GATE
    ∧ (∀ die yard, yard < 4 →
      let d := s.die die
      let on := NMap.get false d.gated yard = true
      let tasks := ∃ n ∈ yardCores die yard, (s.core n).t.mode ≠ .none
      let one (u : State) (z : Die) (due : Nat) : Prop := u.die die = z ∧ (∃ po di, u = { s with posted := po, dies := di })
        ∧ (s.isDue (· == .ev (.evYardGate die yard)) = false → u.hasPosted due (.ev (.evYardGate die yard)))
      (on ∨ tasks → exec (.evYardGate die yard) s = .next s)
      ∧ (¬ on → ¬ tasks → s.yardIdle die yard = false →
        ∃ u, exec (.evYardGate die yard) s = .next u ∧ one u { d with idleSince := NMap.erase d.idleSince yard } (now + 1))
      ∧ (¬ on → ¬ tasks → s.yardIdle die yard = true → NMap.find d.idleSince yard = none →
        ∃ u, exec (.evYardGate die yard) s = .next u ∧ one u { d with idleSince := NMap.set d.idleSince yard now } (now + 4096))
      ∧ (∀ t, ¬ on → ¬ tasks → s.yardIdle die yard = true → NMap.find d.idleSince yard = some t → t + 4096 ≤ now →
        ∃ u, exec (.evYardGate die yard) s = .next u ∧ (∃ di, u = { s with dies := di }) ∧ NMap.get false (u.die die).gated yard = true
          ∧ ∀ y, y ≠ yard → NMap.get false (u.die die).gated y = NMap.get false d.gated y))

/-! ### Contexts (R332 to R336, R339, R340, R342 to R347, R351, R352) -/

namespace Sys2Proof.Machine

/-- One context is as given, every other as before, and nothing else has changed but what is posted. -/
def onlyCtx (s t : State) (ctx : Nat) (v : Context) : Prop :=
  (∃ po cx, t = { s with posted := po, ctxs := cx }) ∧ ∀ c, t.context c = if c = ctx then v else s.context c

end Sys2Proof.Machine

/-- A command of the driver is refused, with CMDST 2, in a state that does not admit it or while another is in progress, and does nothing on a
die that does not run. ACTIVATE gives the context fresh cores with cleared scratchpads; SWAPOUT halts and saves them, and the flip frees
them; the write-back leaves their scratchpads in the save area and the context SAVED; SWAPIN waits for the yards and loads them again;
KILL begins the fatal order; TEARDOWN ends all the context holds; REPLAY and RELEASE let parked work and a break go on. A fatal cause
halts the cores; the dump ends with the context HALTED and its cores free. TQHEAD moves forward only; DBGEN takes effect in the next cycle.
None returns once the package is to stand. Bounds, the save area and what a return takes from it follow notes/assumptions/2, 15, 41 to 43. -/
def Obligations.ContextEvents : Prop :=
  ∀ (s : State) ctx,
    let x := s.context ctx
    let die := ctx / 64
    let runs := s.crown.pstate = 2 ∧ (s.die die).inReset = false
    let free := runs ∧ x.cmdst ≠ 1
    let stands := s.crown.tripped = true ∨ s.crown.pstate = 3
    let cores := s.partCores ctx
    let isOn (p : CState → Bool) : Prop := ∃ i y, i < 64 ∧ y < 4 ∧ 64 * die + i ≠ ctx ∧ p (s.context (64 * die + i)).st = true
      ∧ bitOf x.yards y = true ∧ bitOf (s.context (64 * die + i)).yards y = true
    let refused (i : Instr) : Prop := ∃ u, exec i s = .next u ∧ onlyCtx s u ctx { x with cmdst := 2 }
    let flipAt (u : State) (due : Nat) : Prop := u.hasPosted due (.ev (.evContextFlip ctx))
    let halted (u : State) : Prop := ∀ n ∈ cores, (s.core n).ctx = some ctx → (s.core n).t.mode ≠ .none → (u.core n).t.mode = .saving
    let inPlace := die < 8 ∧ s.npc die ≤ 1024 ∧ x.save + 2 ^ 22 * cores.length ≤ s.npc die * 2 ^ 30
      ∧ x.loft + 4096 + 2 ^ 22 * cores.length ≤ s.npc die * 2 ^ 30 ∧ cores.Nodup ∧ ∀ k ∈ cores, k < 512
    -- the scratchpad of every core stands at a place after which it stood at another before
    let moved (u : State) (to_ from_ : Nat → Nat → Nat → Nat) : Prop :=
      ∀ j k, cores[j]? = some k → ∀ i, i < 3 * 2 ^ 20 → u.mem.read (to_ j k i) = s.mem.read (from_ j k i)
    let area (base j _k i : Nat) : Nat := Addr.localMem die (base + 2 ^ 22 * j + i)
    let live (_j k i : Nat) : Nat := Addr.pad k i
    let shadow (_j k i : Nat) : Nat := Addr.shadow k i
    (∀ coord, ∀ i ∈ [Instr.evActivate ctx, .evSwapout ctx, .evSwapin ctx, .evKill ctx, .evTeardown ctx, .evReplay ctx, .evRelease ctx coord],
      (¬ runs → exec i s = .next s) ∧ (runs → x.cmdst = 1 → refused i))
    -- ACTIVATE
    ∧ (free →
      let n := cores.length
      let may := x.st = .free ∧ x.yards ≠ 0 ∧ s.crown.tripped = false ∧ ¬ isOn CState.holds ∧ ¬ isOn (fun st => st == .restoring)
        ∧ 2 ^ 22 * n ≤ x.savesz * 4096 ∧ 2 ^ 22 * n + 4096 ≤ x.loftsz * 4096
      (¬ may → refused (.evActivate ctx))
      ∧ (may → ∃ u, exec (.evActivate ctx) s = .next u ∧ (u.context ctx).st = .active ∧ (u.context ctx).tokens = x.tokmax
        ∧ (u.context ctx).cmdst = 0 ∧ (u.context ctx).cause = 0 ∧ (∀ c, c ≠ ctx → u.context c = s.context c)
        ∧ (∀ k ∈ cores, (u.core k).ctx = some ctx ∧ (u.core k).t = {} ∧ (u.core k).c = {}
          ∧ ∀ i, i < 3 * 2 ^ 20 → u.mem.read (Addr.pad k i) = 0)
        ∧ ∀ a, a < 2 ^ 65 → u.mem.read a = s.mem.read a))
    -- SWAPOUT, SWAPIN, KILL
    ∧ (free → (x.st ≠ .active → refused (.evSwapout ctx))
      ∧ (x.st = .active → ∃ u, exec (.evSwapout ctx) s = .next u ∧ (u.context ctx).st = .saving ∧ (u.context ctx).cmdst = 1
        ∧ flipAt u (s.now + 1) ∧ (∀ k ∈ cores, (s.core k).t.mode ≠ .none → (u.core k).t.mode = .saving)
        ∧ ∀ a, u.mem.read a = s.mem.read a))
    ∧ (free →
      let may := x.st = .saved ∧ ¬ isOn (fun st => st == .restoring)
      (¬ may → refused (.evSwapin ctx))
      ∧ (may → ∃ u due, exec (.evSwapin ctx) s = .next u ∧ (u.context ctx).st = .restoring ∧ (u.context ctx).cmdst = 1
        ∧ s.now < due ∧ due ≤ s.now + 200000 ∧ flipAt u due))
    ∧ (free →
      let may := x.st = .active ∨ x.st = .saving ∨ x.st = .restoring
      (¬ may → refused (.evKill ctx))
      ∧ (may → ∃ u, onlyCtx s u ctx { x with cmdst := 1 } ∧ exec (.evKill ctx) s = .next (u.fatal ctx { code := Code.killedByParent })))
    -- TEARDOWN
    ∧ (free →
      let may := x.st = .saved ∨ x.st = .halted
      (¬ may → refused (.evTeardown ctx))
      ∧ (may → ∃ u, exec (.evTeardown ctx) s = .next u ∧ (u.context ctx).st = .free ∧ (u.context ctx).cmdst = 0
        ∧ (∀ k o, u.op? k = some o → o.ctx ≠ ctx)
        ∧ ∀ k g, u.group? k = some g → g.ctx = ctx → g.ended = false → ∀ t ∈ g.tasks, t.st = .done ∨ t.st = .killed))
    -- REPLAY and RELEASE
    ∧ (free → (x.st ≠ .active → refused (.evReplay ctx) ∧ ∀ coord, refused (.evRelease ctx coord))
      ∧ (x.st = .active → ∃ u, exec (.evReplay ctx) s = .next u ∧ (u.context ctx).cmdst = 0
        ∧ (∀ k o p, s.op? k = some o → o.ctx = ctx → o.st = .parked → o.park = some p → p.code = Code.pageNotPresent →
            x.opRecordWaits (opIdent k o.gen).toNat = false → ∃ z, u.op? k = some z ∧ z.st = .started ∧ z.prog = o.prog))
      ∧ (∀ coord, x.st = .active →
        let k := 64 * die + coord % 64
        (s.inPart ctx k = true → (s.core k).t.mode = .brk → (s.core k).t.after = 0 →
          ∃ u, exec (.evRelease ctx coord) s = .next u ∧ (u.context ctx).cmdst = 0 ∧ (u.core k).t.mode = .running
            ∧ (u.core k).t.pc = (s.core k).t.pc ∧ u.hasPosted (s.now + 1) (.issue k (s.core k).gen) ∧ ∀ a, u.mem.read a = s.mem.read a)
        ∧ (s.inPart ctx k = false → ∃ u, exec (.evRelease ctx coord) s = .next u ∧ onlyCtx s u ctx { x with cmdst := 0 })))
    -- TQHEAD_WRITE and DBGEN_WRITE
    ∧ (∀ v : BitVec 32,
      let d := (v.toNat + 2 ^ 32 - x.tqhead % 2 ^ 32) % 2 ^ 32
      (¬ runs ∨ x.tqOcc < d → exec (.evTqheadWrite ctx v) s = .next s)
      ∧ (runs → d ≤ x.tqOcc → x.waiting = [] → ∃ u, exec (.evTqheadWrite ctx v) s = .next u
        ∧ u.context ctx = { x with tqhead := v.toNat,
                                   fslot := x.fslot.filter (fun n => decide (2 ^ 31 ≤ (v.toNat + 2 ^ 32 - (n + 1) % 2 ^ 32) % 2 ^ 32)) }
        ∧ (∀ c, c ≠ ctx → u.context c = s.context c) ∧ ∀ a, u.mem.read a = s.mem.read a))
    ∧ (∀ v : Word, (¬ runs → exec (.evDbgenWrite ctx v) s = .next s)
      ∧ (runs → ∃ u, exec (.evDbgenWrite ctx v) s = .next u
        ∧ onlyCtx s u ctx { x with dbgPrev := if x.dbgFrom ≤ s.now then x.dbgen else x.dbgPrev, dbgen := v.toNat &&& s.partMask ctx, dbgFrom := s.now + 1 }))
    -- CONTEXT_FLIP
    ∧ ((x.st = .free ∨ x.st = .active ∨ x.st = .saved ∨ x.st = .halted ∨ (x.st = .saving ∧ x.flipped = true)) →
      exec (.evContextFlip ctx) s = .next s)
    ∧ (x.st = .saving → x.flipped = false → s.swapReady ctx = false → ∃ u, exec (.evContextFlip ctx) s = .next u ∧ u.isDue (· == .ev (.evContextFlip ctx)) = true
        ∧ onlyCtx s u ctx x)
    ∧ (x.st = .saving → x.flipped = false → s.swapReady ctx = true → ∃ u due, exec (.evContextFlip ctx) s = .next u
        ∧ (u.context ctx).st = .saving ∧ (u.context ctx).flipped = true ∧ s.now < due ∧ due ≤ s.now + 200000
        ∧ u.hasPosted due (.ev (.evWritebackComplete ctx)) ∧ (∀ k ∈ cores, (u.core k).ctx = some ctx ∧ (u.core k).t = {} ∧ (u.core k).c = {})
        ∧ (inPlace → moved u shadow live ∧ moved u live shadow))
    ∧ (x.st = .restoring → stands → exec (.evContextFlip ctx) s = .next s)
    ∧ (x.st = .restoring → x.preloaded = false → s.shadowsTaken ctx = true → exec (.evContextFlip ctx) s = .next s)
    ∧ (x.st = .restoring → x.preloaded = true → isOn CState.holds → exec (.evContextFlip ctx) s = .next s)
    ∧ (x.st = .restoring → ¬ stands → x.preloaded = false → s.shadowsTaken ctx = false → isOn CState.holds → ∃ u, exec (.evContextFlip ctx) s = .next u
        ∧ u.context ctx = { x with preloaded := true, passed := [] } ∧ (∀ c, c ≠ ctx → u.context c = s.context c) ∧ u.cores = s.cores
        ∧ (inPlace → moved u shadow (area x.save) ∧ moved u live live))
    ∧ (x.st = .restoring → ¬ stands → (x.preloaded = true ∨ s.shadowsTaken ctx = false) → ¬ isOn CState.holds → ∃ u, exec (.evContextFlip ctx) s = .next u
        ∧ (u.context ctx).st = .active ∧ (u.context ctx).cmdst ≠ 1
        ∧ (∀ k ∈ cores, (u.core k).ctx = some ctx ∧ (u.core k).t.mode = (NMap.get {} x.savedTask k).mode)
        ∧ (inPlace → x.preloaded = false → moved u live (area x.save))
        ∧ (inPlace → x.preloaded = true →
          moved u live (fun j k i => if x.passed.contains k then live j k i else shadow j k i)))
    ∧ (x.st = .dumping →
      (s.writing ctx = true → exec (.evContextFlip ctx) s = .next s)
      ∧ (s.writing ctx = false → s.haltReady ctx = false → ∃ u, exec (.evContextFlip ctx) s = .next u ∧ onlyCtx s u ctx x
          ∧ u.isDue (· == .ev (.evContextFlip ctx)) = true)
      ∧ (s.writing ctx = false → s.haltReady ctx = true → ∃ u due, exec (.evContextFlip ctx) s = .next u
        ∧ s.now < due ∧ due ≤ s.now + 200000 ∧ u.hasPosted due (.ev (.evLoftDumpComplete ctx))
        ∧ (inPlace → (∀ k ∈ cores, (s.core k).ctx = some ctx) → moved u (area (x.loft + 4096)) (if x.flipped then shadow else live))))
    -- WRITEBACK_COMPLETE
    ∧ (x.flipped = false → exec (.evWritebackComplete ctx) s = .next s)
    ∧ (x.flipped = true → x.st = .saving →
      ∃ u, exec (.evWritebackComplete ctx) s = .next u ∧ (u.context ctx).st = .saved ∧ (u.context ctx).flipped = false
        ∧ (u.context ctx).cmdst = (if x.cmdst = 1 then 0 else x.cmdst)
        ∧ (∀ k ∈ cores, (u.core k).ctx = none) ∧ (inPlace → moved u (area x.save) shadow ∧ ∀ k ∈ cores, ∀ i, i < 3 * 2 ^ 20 →
            u.mem.read (Addr.shadow k i) = 0))
    ∧ (x.flipped = true → x.st = .dumping → ∃ u, exec (.evWritebackComplete ctx) s = .next u ∧ flipAt u s.now ∧ (inPlace → moved u (area x.save) shadow))
    -- FATAL_CAUSE
    ∧ (∀ code,
      let dumps (u : State) : Prop := (u.context ctx).st = .dumping ∧ halted u ∧ (∀ c, c ≠ ctx → u.context c = s.context c) ∧ u.mem = s.mem
      let late (u : State) : Prop := u.isDue (· == .ev (.evDumpTimeout ctx)) = true
      ((x.st = .active ∨ x.st = .restoring ∨ (x.st = .saving ∧ s.writing ctx = false)) →
        ∃ u, exec (.evFatalCause ctx code) s = .next u ∧ dumps u ∧ flipAt u (s.now + 1))
      ∧ (x.st = .saving → s.writing ctx = true → ∃ u, exec (.evFatalCause ctx code) s = .next u ∧ dumps u ∧ late u)
      ∧ (x.st = .dumping → s.writing ctx = true → ∃ u, exec (.evFatalCause ctx code) s = .next u ∧ onlyCtx s u ctx x ∧ late u)
      ∧ ((x.st = .free ∨ x.st = .saved ∨ x.st = .halted ∨ (x.st = .dumping ∧ s.writing ctx = false)) → exec (.evFatalCause ctx code) s = .next s))
    -- LOFT_DUMP_COMPLETE and DUMP_TIMEOUT
    ∧ (∀ i ∈ [Instr.evLoftDumpComplete ctx, .evDumpTimeout ctx],
      (x.st ≠ .dumping → exec i s = .next s)
      ∧ (x.st = .dumping → ∃ u, exec i s = .next u ∧ (u.context ctx).st = .halted ∧ (u.context ctx).cause = recCode (x.causes.headD [])
        ∧ (∀ k ∈ cores, (s.core k).ctx = some ctx → (u.core k).ctx = none ∧ (u.core k).t.mode = .none)
        ∧ ∀ k o, u.op? k = some o → o.ctx ≠ ctx))

/-! ### Invalidation, circuits, ports and the host link (R272 to R276, R354 to R361, R364, R365) -/

namespace Sys2Proof.Machine

/-- What an invalidation drops of the translations of die `d` (R273). -/
def dropRule (op d ctx va count : Nat) (e : TlbEnt) : Prop :=
  match op with
  | 1 => e.ctx = 64 * d + ctx ∧ e.base < va + 65536 * count ∧ va < e.base + 2 ^ e.log
  | 2 => e.ctx = 64 * d + ctx
  | 3 => True
  | 4 => e.ctx = 64 * d + ctx ∧ bits e.leaf.toNat 60 2 = 2 ∧ bits e.leaf.toNat 38 10 = count % 1024
  | _ => False

/-- A list without what an invalidation drops, in its order. -/
def without (p : TlbEnt → Prop) (l k : List TlbEnt) : Prop := k.Sublist l ∧ (∀ e ∈ k, ¬ p e) ∧ ∀ e, ¬ p e → k.count e = l.count e

/-- A circuit that has entered SETUP: every configured wavelength trains, and EPOCH has advanced (R355). What was sent before a RETRAIN
arrives until `pass`. -/
def inTraining (c : Circuit) (pass : Nat) : Circuit :=
  { c with st := .setup, training := c.wcfg, epoch := (c.epoch + 1) % 2 ^ 32, passUntil := pass }

/-- The training of a circuit ends 1 ms after a cycle at the latest, with no more wavelengths than are configured (R355). -/
def mayTrain (u : State) (t a b : Nat) : Prop := ∃ n, n ≤ (u.circuit a b).wcfg ∧ u.hasPosted (t + 2250000) (.setupEnds a b n)

end Sys2Proof.Machine

/-- An invalidation command joins its die's queue, or sets OVF beyond 16; applied, it drops the translations it names on every die it reaches,
and its SEQ is acknowledged once every access that used one is complete. A circuit's training ends UP, DEGRADED or DOWN, within 1 ms, and
the messages that waited for it then go on; a lost wavelength degrades it and the last takes it down; a retrain and a die's reset move it,
each transition with a new EPOCH; splices across a failed circuit are lost. An Ewen port trains to the version both ranges share and loses
lanes. Writes held while the host link is down are sent when it returns, or discarded after their time, with a notice or, for a trap record,
as a fatal cause; `PUBLISH` sends its window's writes, then its counter. Bounds, what holds an ACK, routes and RETRY are the model's choice
(notes/assumptions/2, 52, 53, 60, 127). -/
def Obligations.LinkEvents : Prop :=
  ∀ (s : State) die (cmd : Word) a b,
    let d := s.die die
    let seq (w : Word) : Nat := w.toNat % 2 ^ 32
    -- the five commands
    (∀ z ∈ [(1, Instr.evRange die cmd), (2, .evContext die cmd), (3, .evAll die cmd), (4, .evHandle die cmd), (5, .evMigdone die cmd)],
      (16 ≤ d.invQ.length → ∃ u, exec z.2 s = .next u ∧ onlyDie s u die ∧ u.die die = { d with invOvf := true })
      ∧ (d.invQ.length < 16 → ∃ u w, exec z.2 s = .next u ∧ onlyDie s u die ∧ u.die die = { d with invQ := d.invQ ++ [(w, d.invVa, d.invCount)] }
        ∧ bits w.toNat 44 4 = z.1 ∧ bits w.toNat 0 44 = bits cmd.toNat 0 44 ∧ bits w.toNat 48 16 = bits cmd.toNat 48 16
        ∧ (d.invQ = [] → u.hasPosted s.now (.inval die))))
    ∧ (∀ (w : Word) va count rest, d.invQ = (w, va, count) :: rest → bits w.toNat 44 4 ≠ 5 →
      ∃ u due, s.perform exec (.inval die) = .next u ∧ s.now < due ∧ u.hasPosted due (.ev (.evInvalidationAck die))
        ∧ ∀ k, (k ∈ s.invDies die w →
            let drop := dropRule (bits w.toNat 44 4) k (bits w.toNat 48 8) va count
            without drop (s.die k).tlb (u.die k).tlb ∧ ∀ n, dieOf n = k → without drop (s.core n).tlb (u.core n).tlb)
          ∧ (k ∉ s.invDies die w → (u.die k).tlb = (s.die k).tlb ∧ ∀ n, dieOf n = k → (u.core n).tlb = (s.core n).tlb))
    ∧ (d.invQ = [] → exec (.evInvalidationAck die) s = .next s)
    ∧ (∀ (w : Word) va count rest, d.invQ = (w, va, count) :: rest →
      let isOpen (e : Nat × Nat) : Prop := (dieOf e.1 = die ∨ ((s.die (dieOf e.1)).inReset = false ∧ s.peerDown die (dieOf e.1) = false))
        ∧ ∃ r, (s.core e.1).t.req? e.2 = some r ∧ (r.stage ≠ .performed ∨ r.kind ≠ .store)
      -- a write of an operation that a link holds since before the command was applied
      let heldBack : Prop := bits w.toNat 44 4 ≤ 3 ∧ ∃ k ∈ s.invDies die w, ∃ p ∈ (s.die k).posted, p.op ≠ none
        ∧ p.until_ ≤ d.invAt + postedHold ∧ (bits w.toNat 44 4 = 3 ∨ p.ctx = some (64 * k + bits w.toNat 48 8))
      ((∀ e ∈ d.invWait, ¬ isOpen e) → ¬ heldBack → ∃ u, exec (.evInvalidationAck die) s = .next u ∧ onlyDie s u die
        ∧ u.die die = { d with invQ := rest, invAck := seq w, invWait := [] } ∧ (rest ≠ [] → u.hasPosted (s.now + 1) (.inval die)))
      ∧ ((heldBack ∨ ∃ e ∈ d.invWait, isOpen e) → ∃ u, exec (.evInvalidationAck die) s = .next u ∧ onlyDie s u die ∧ (u.die die).invAck = d.invAck
        ∧ (u.die die).invQ = d.invQ ∧ u.hasPosted (s.now + 1) (.ev (.evInvalidationAck die))))
    -- circuits
    ∧ (let c := s.circuit a b
      let other (x y : Nat) : Prop := 8 * min x y + max x y ≠ 8 * min a b + max a b
      let live (st : CircSt) : Prop := st = .up ∨ st = .degraded
      let lost (u : State) : Prop := s.ops = [] → s.colls = [] → ∀ n q pc pq, (s.queue n q).partner = some (pc, pq) →
        ((dieOf n = a ∧ dieOf pc = b) ∨ (dieOf n = b ∧ dieOf pc = a)) →
        ((s.queue n q).st = .pendS ∨ (s.queue n q).st = .pendR ∨ (s.queue n q).st = .send ∨ (s.queue n q).st = .recv) → (u.queue n q).st = .lost
      let carries (i : Instr) (st : CircSt) (wl : Nat) : Prop := ∃ u, exec i s = .next u
        ∧ u.circuit a b = { c with st := st, wl := wl, ver := 1, epoch := (c.epoch + 1) % 2 ^ 32, held := [] }
        ∧ (∀ x y, other x y → u.circuit x y = s.circuit x y) ∧ (∀ i ∈ c.held, u.hasPosted s.now (.ev i))
        ∧ ∃ ag po ci cr, u = { s with agenda := ag, posted := po, circuits := ci, crown := { s.crown with reports := cr } }
      let fails (i : Instr) : Prop := ∃ u, exec i s = .next u ∧ lost u
        ∧ u.circuit a b = { c with st := .down, wl := 0, epoch := (c.epoch + 1) % 2 ^ 32, held := [], upDue := 0, downDue := 0 }
        ∧ ∀ x y, other x y → ∃ up dn, u.circuit x y = { s.circuit x y with upDue := up, downDue := dn }
      (∀ wl common,
        -- no wavelength that has failed in SETUP is trained
        let w := min wl c.training
        (c.st ≠ .setup → exec (.evCircuitTrained a b wl common) s = .next s)
        ∧ (c.st = .setup → (w = 0 ∨ common = false) → fails (.evCircuitTrained a b wl common))
        ∧ (c.st = .setup → w ≠ 0 → common = true → c.wcfg ≤ w → carries (.evCircuitTrained a b wl common) .up c.wcfg)
        ∧ (c.st = .setup → w ≠ 0 → common = true → w < c.wcfg → carries (.evCircuitTrained a b wl common) .degraded w)
        ∧ s.perform exec (.setupEnds a b wl) = exec (.evCircuitTrained a b wl true) s)
      ∧ (live c.st → c.wl ≤ 1 → fails (.evWavelengthFail a b))
      ∧ (live c.st → 1 < c.wl → carries (.evWavelengthFail a b) .degraded (c.wl - 1))
      ∧ (c.st = .setup → c.training ≤ 1 → fails (.evWavelengthFail a b))
      ∧ (c.st = .setup → 1 < c.training → ∃ u ci, exec (.evWavelengthFail a b) s = .next u ∧ u = { s with circuits := ci }
        ∧ u.circuit a b = { c with training := c.training - 1 } ∧ ∀ x y, other x y → u.circuit x y = s.circuit x y)
      ∧ ((c.st = .none ∨ c.st = .down ∨ c.st = .reset) → exec (.evWavelengthFail a b) s = .next s))
    ∧ (∀ mask : BitVec 8, die < 8 → ∃ u, exec (.evCircuitRetrain die mask) s = .next u
      ∧ ((∀ n, ∀ r ∈ (s.core n).t.port, r.peer = true → r.stage ≠ .queued) → ∀ e, e < 8 → e ≠ die →
        let c := s.circuit die e
        let pass := if c.st = .degraded then max c.upDue c.downDue else 0
        if mask.getLsbD e = true ∧ (c.st = .degraded ∨ c.st = .down) then u.circuit die e = inTraining c pass ∧ mayTrain u s.now die e
        else u.circuit die e = c))
    -- dies in reset
    ∧ (d.inReset = true → exec (.evDieReset die) s = .next s)
    ∧ (d.inReset = false → die < 8 → ∃ u, exec (.evDieReset die) s = .next u ∧ (u.die die).inReset = true
      ∧ (∀ n, dieOf n = die → u.core n = {}) ∧ (∀ c, c / 64 = die → u.context c = {}) ∧ (∀ k, k / 8192 = die → u.op? k = none)
      ∧ (∀ t ∈ u.agenda, t.act.die ≠ some die)
      ∧ ∀ e, e < 8 → e ≠ die →
        let c := s.circuit die e
        u.circuit die e = if c.st = .none then c
          else { c with st := .reset, wl := 0, epoch := (c.epoch + 1) % 2 ^ 32, held := [], upDue := 0, downDue := 0 })
    ∧ (d.inReset = false → exec (.evDieResetExit die) s = .next s)
    ∧ (d.inReset = true → die < 8 → ∃ u, exec (.evDieResetExit die) s = .next u ∧ u.die die = { d with inReset := false }
      ∧ (∀ y, y < 4 → u.hasPosted (s.now + 1) (.ev (.evYardGate die y)))
      ∧ (∀ k, k < 64 → u.hasPosted (s.now + msCycles) (.ev (.evTokenRefill (64 * die + k)))) ∧ ∀ e, e < 8 → e ≠ die →
      let c := s.circuit die e
      if (s.die e).inReset = false ∧ c.st = .reset then u.circuit die e = inTraining c 0 ∧ mayTrain u s.now die e else u.circuit die e = c)
    -- the Ewen ports
    ∧ (∀ p lanes vmin vmax peer,
      let e := s.ewenPort p
      let goes (i : Instr) (v : Ewen) : Prop := ∃ u, exec i s = .next u ∧ (∀ q, u.ewenPort q = if q = p then v else s.ewenPort q)
        ∧ (v.st = .train → ∃ l x y z, u.hasPosted (s.now + 2250000) (.trainEnds p l x y z))
        ∧ ∃ ag po fr ew cr, u = { s with agenda := ag, posted := po, free := fr, ewen := ew, crown := { s.crown with reports := cr } }
      -- no aperture leads to the port; nothing waits for a link
      let alone := ∀ k x, s.portOf k x ≠ some p
      let calm := (∀ k, (s.die k).posted = []) ∧ (∀ n, (s.core n).c.opWaits = [])
        ∧ ∀ n id, s.isDue (· == .ev (.evHostReadTimeout n id)) = false
      let v := min (min e.vmax 1) vmax
      let agree := max (min e.vmin 1) vmin ≤ v
      let tr := Instr.evEwenTrained p lanes vmin vmax peer
      let live := e.st = .up ∨ e.st = .degraded
      (e.st ≠ .train → exec tr s = .next s)
      ∧ (e.st = .train → lanes = 0 → goes tr { e with st := .down, lanes := 0 })
      ∧ (e.st = .train → lanes ≠ 0 → ¬ agree → goes tr { e with st := .verr })
      ∧ (e.st = .train → lanes ≠ 0 → agree → ∃ u, exec tr s = .next u ∧ (calm → ∀ q, u.ewenPort q = if q = p then
          { e with st := if lanes = 16 then .up else .degraded, lanes := lanes, ver := v, peer := peer % 2 ^ 16 } else s.ewenPort q))
      ∧ s.perform exec (.trainEnds p lanes vmin vmax peer) = exec tr s
      -- RETRY also counts what was replayed before, of which the spec does not say how much
      ∧ (live → e.lanes ≤ 1 → alone → ∃ x, goes (.evEwenLaneFail p false)
          { e with st := .down, lanes := 0, retry := min (e.retry + x) (2 ^ 32 - 1) })
      ∧ (live → 1 < e.lanes → ∃ x, goes (.evEwenLaneFail p false)
          { e with st := .degraded, lanes := e.lanes - 1, retry := min (e.retry + x) (2 ^ 32 - 1) })
      ∧ (live → alone → ∃ x, 8 ≤ x ∧ goes (.evEwenLaneFail p true)
          { e with st := .down, lanes := 0, retry := min (e.retry + x) (2 ^ 32 - 1) })
      ∧ (∀ r, ¬ live → exec (.evEwenLaneFail p r) s = .next s)
      ∧ (e.st = .train → exec (.evEwenRetrain p) s = .next s)
      ∧ (live → alone → goes (.evEwenRetrain p) { e with st := .train, lanes := 0 })
      ∧ ((e.st = .down ∨ e.st = .verr) → goes (.evEwenRetrain p) { e with st := .train }))
    -- the host link
    ∧ (∃ u, exec (.evHostLinkDown die) s = .next u ∧ onlyDie s u die ∧ u.die die = { d with hostDown := true })
    ∧ (d.routes = [] → (∀ w ∈ d.posted, w.trap = none) →
      (∀ n, ∀ w ∈ (s.core n).c.opWaits, w.2.1 ≠ hostKey die) → (s.cores.map Prod.fst).Nodup →
      ∃ u, exec (.evHostLinkUp die) s = .next u ∧ (u.die die).hostDown = false ∧ (u.die die).posted = []
        ∧ u.mem = d.posted.foldl (fun m w => m.writeMasked (Addr.host w.addr) w.bytes) s.mem
        ∧ ((∀ w ∈ d.posted, w.req = none) → u.cores = s.cores ∧ u.die die = { d with hostDown := false, posted := [] })
        ∧ ∀ w ∈ d.posted, (∀ k i, w.req = some (k, i) → ∀ r ∈ (u.core k).t.port, r.id ≠ i)
          ∧ ∀ k, w.op = some k → u.hasPosted s.now (.ev (match (s.op k).cmd.ins, (s.op k).verdict with
              | .subs _ _ _ _, none => .evGroomTileFill k
              | _, _ => .evOpComplete k)))
    ∧ (d.routes = [] → (∀ w ∈ d.posted, w.trap = none) → (s.cores.map Prod.fst).Nodup → (∀ k, ((s.core k).c.opWaits.map (fun w => w.2.2.serial)).Nodup) →
      ∃ u, exec (.evHostLinkUp die) s = .next u ∧ ∀ k, ∀ w ∈ (s.core k).c.opWaits, w.2.1 = hostKey die →
        w ∉ (u.core k).c.opWaits ∧ ∀ r, tokenWaits s k w.2.2 r → tokenDone u k r 0 w.2.2.ins.unitCode 0)
    -- a record is posted as if it were new
    ∧ (∀ w r ctx, d.posted = [w] → d.routes = [] → w.trap = some r → w.ctx = some ctx → w.req = none → w.op = none → s.ops = [] →
      (∀ n, (s.core n).t.replay = none) →
      let t := (s.onDie die (fun z => { z with hostDown := false, posted := [] })).postRecord ctx r
      ∃ u, exec (.evHostLinkUp die) s = .next u ∧ u.mem = t.mem ∧ (u.context ctx).tqtail = (t.context ctx).tqtail
        ∧ (u.context ctx).drops = (t.context ctx).drops)
    ∧ ((∀ w ∈ d.posted, w.until_ ≤ s.now → w.ctx = none ∧ w.req = none) → (s.cores.map Prod.fst).Nodup →
      (∀ n, ∀ w ∈ (s.core n).c.opWaits, w.2.1 ≠ hostKey die) → ∃ u, exec (.evPostedWriteDiscard die) s = .next u ∧ u.mem = s.mem ∧ u.cores = s.cores
      ∧ (u.die die).posted = d.posted.filter (fun w => decide (s.now < w.until_)))
    ∧ (∀ w c, d.posted = [w] → w.until_ ≤ s.now → w.ctx = some c → w.req = none → w.op = none →
      let t := (s.onDie die (fun z => { z with posted := [] })).report 3 die
      let why : RecInfo := { infoOf w.src with code := Code.linkDown, word5 := w.addr % 2 ^ 57 }
      let u := match w.trap with
        | none => t.notice c why
        | some r => ((t.onContext c (fun x => { x with mailOnly := true })).toMailbox c r).fatal c { code := Code.linkDown, word5 := w.addr % 2 ^ 57 }
      exec (.evPostedWriteDiscard die) s = .next (if (u.die die).posted.isEmpty then u.answerKey (hostKey die) else u))
    -- PUBLISH at the head
    ∧ (∀ core c rest h (win : BitVec 3), headReady s core 9 c rest → c.ins = .publish h win →
      let ctx := s.ctxOf core
      let x := s.context ctx
      let w := win.toNat
      let dieC := dieOf core
      let mine (e : PubByte) : Bool := e.ctx == ctx && e.win == w && (decide (e.at_ < s.now) || e.core == core)
      let v : Word := NMap.get 0 x.version w + 1
      let sent : List (Nat × List Byte) := ((s.die dieC).pubBuf.filter mine).map (fun e => (e.addr, [e.val])) ++ [(NMap.get 0 x.caddr w, toBytes 8 v.toNat)]
      let stay := sent.filter (fun e => s.hostCut dieC e.1)
      (NMap.get false x.pubEn w = false → ∃ u, exec (.evCommandHead core 9) s = .next u ∧ headDone s u core 9 c rest Code.shapeIndex 0 ∧ u.mem = s.mem)
      ∧ (NMap.get false x.pubEn w = true → s.windowHeld core c.seq w = false →
        exec (.evCommandHead core 9) s = .next ((s.passWait core 9 c).postHead core 9 (s.now + 1)))
      ∧ (NMap.get false x.pubEn w = true → s.windowHeld core c.seq w = true →
        ∃ u, exec (.evCommandHead core 9) s = .next u ∧ NMap.get 0 (u.context ctx).version w = v
          ∧ (u.die dieC).pubBuf = (s.die dieC).pubBuf.filter (fun e => !mine e)
          ∧ u.mem = (sent.filter (fun e => !s.hostCut dieC e.1)).foldl (fun m e => m.writeMasked (Addr.host e.1) (e.2.map some)) s.mem
          ∧ (stay = [] → headDone s u core 9 c rest 0 0)
          ∧ (stay ≠ [] → headLeft s u core 9 c rest ∧ (u.core core).c.opWaits = (s.core core).c.opWaits ++ [(6, hostKey dieC, c)]
            ∧ (u.die dieC).posted.map (fun w => (w.addr, w.bytes, w.until_)) = (s.die dieC).posted.map (fun w => (w.addr, w.bytes, w.until_))
              ++ stay.map (fun e => (e.1, e.2.map some, s.now + postedHold)))))

/-! ### The crown controller and the host's registers (R333, R358, R366 to R373) -/

namespace Sys2Proof.Machine

/-- A mailbox holds the answer of its last command (R368, R369). -/
def mailSays (s t : State) (die status : Nat) (bs : List Byte) : Prop :=
  let m := (s.die die).mbox
  let r := (t.die die).mbox
  r.busy = false ∧ r.status = status ∧ r.ack = m.seq ∧ r.len = bs.length ∧ r.arg = m.arg ∧ r.ovf = m.ovf
    ∧ (∀ i, NMap.get 0 r.data i = if i < bs.length then bs.getD i 0 else NMap.get 0 m.data i)
    ∧ ∃ di cr, t = { s with dies := di, crown := cr }

/-- Nothing else of the dies has changed. -/
def onlyMail (s t : State) (die : Nat) : Prop :=
  (∀ d, d ≠ die → t.die d = s.die d) ∧ t.die die = { s.die die with mbox := (t.die die).mbox }

/-- The context registers that a write in FREE or SAVED sets (R333), with what the context is then. -/
def ctxRegs (c : Context) (v : Nat) : List (Nat × Context) :=
  [ (0x00, { c with opq := bits v 31 13, cpol := bits v 29 2, restart := bitOf v 28, nockpt := bitOf v 27, yards := bits v 20 4 }),
    (0x08, { c with root := bits v 8 40 * 2 ^ 8 }), (0x10, { c with shbase := bits v 6 51 * 2 ^ 6 }), (0x18, { c with shlen := bits v 0 17 }),
    (0x20, { c with htbase := bits v 4 53 * 2 ^ 4 }), (0x28, { c with tqbase := bits v 7 50 * 2 ^ 7 }),
    (0x40, { c with loft := bits v 12 45 * 2 ^ 12 }), (0x48, { c with save := bits v 12 45 * 2 ^ 12 }),
    (0x50, { c with savesz := bits v 32 32, loftsz := bits v 0 32 }), (0x58, { c with tokmax := bits v 32 16, tokrate := bits v 16 16 }),
    (0x60, { c with wdlog := bits v 32 6, drain := bits v 0 32 }) ]

/-- The writes of registers that are events of their own, by their offsets in a die's block (R272, R292, R315, R333, R354). -/
def eventReg (die slot : Nat) (v : Word) (off : Nat) (i : Instr) : Prop :=
  let ctx := 64 * die + slot
  let op (k : Nat) : Prop := off = 0x20000 + 0x100 * slot + 0x68 ∧ bits v.toNat 60 4 = k
  let inv (k : Nat) : Prop := off = 0x10 ∧ bits v.toNat 44 4 = k
  (op 1 ∧ i = .evActivate ctx) ∨ (op 2 ∧ i = .evSwapout ctx) ∨ (op 3 ∧ i = .evSwapin ctx) ∨ (op 4 ∧ i = .evKill ctx)
    ∨ (op 5 ∧ i = .evTeardown ctx) ∨ (op 6 ∧ i = .evReplay ctx) ∨ (op 7 ∧ i = .evRelease ctx (bits v.toNat 0 6))
    ∨ (off = 0x20000 + 0x100 * slot + 0x78 ∧ i = .evDbgenWrite ctx v)
    ∨ (inv 1 ∧ i = .evRange die v) ∨ (inv 2 ∧ i = .evContext die v) ∨ (inv 3 ∧ i = .evAll die v) ∨ (inv 4 ∧ i = .evHandle die v)
    ∨ (inv 5 ∧ i = .evMigdone die v) ∨ (off = 0x100 ∧ i = .evMctlWrite die v) ∨ (off = 0x50040 ∧ i = .evCircuitRetrain die (v.setWidth 8))

end Sys2Proof.Machine

/-- The crown controller answers its mailbox: the identity of 512 bytes, the report over a nonce, a chunk staged, an image accepted with its
minimum raised or refused, the return of refresh armed, the package reset and brought up again. Power-up makes the package READY or
STANDING. A thermal trip ends every ACTIVE context and the package then stands. A throttled die gives no grants until it resumes. A
register written by the host does what the register's event does; a context's registers hold what is written only while it is FREE or
SAVED; in STANDING only the mailbox takes a write. An access to BAR2 reads, writes or updates local memory. The times of the package and
the controller, what a package reset keeps, how a finding of power-up is said, and when a throttle ends are the model's choice
(notes/assumptions/2, 14, 48, 61, 127 to 129). -/
def Obligations.CrownAndRegisters : Prop :=
  ∀ (s : State) die,
    let m := (s.die die).mbox
    let c := s.crown
    -- the mailbox's commands
    (∃ t, exec (.evIdent die) s = .next t ∧ mailSays s t die 0 c.identity ∧ onlyMail s t die ∧ c.identity.length = 512)
    ∧ (let said := (List.range 32).map (fun i => NMap.get 0 m.data i) ++ sha256 c.identity
        ++ sha256 (c.image 0).2.2 ++ sha256 (c.image 1).2.2 ++ sha256 (c.image 2).2.2 ++ sha256 (c.image 3).2.2
      ∃ t, exec (.evAttest die) s = .next t ∧ mailSays s t die 0 (said ++ (List.range 384).map (Config.rsaSign said)) ∧ onlyMail s t die)
    ∧ (∃ t, exec (.evLog die) s = .next t ∧ mailSays s t die 0 (Config.selfTestLog.take 2048) ∧ onlyMail s t die)
    ∧ (let n := bits m.arg.toNat 32 12
      let off := bits m.arg.toNat 0 32
      ∃ t, exec (.evStage die) s = .next t ∧ onlyMail s t die
        ∧ ((n = 0 ∨ 2048 < n) → mailSays s t die 3 [] ∧ t.crown.stage = c.stage)
        ∧ (1 ≤ n → n ≤ 2048 → mailSays s t die 0 [] ∧ ∀ a, NMap.get 0 t.crown.stage a
            = if off ≤ a ∧ a < off + n then NMap.get 0 m.data (a - off) else if c.stageNew then 0 else NMap.get 0 c.stage a))
    ∧ (∃ t, exec (.evCommit die) s = .next t ∧ onlyMail s t die ∧ t.crown.stageNew = true
      ∧ (c.accept = none → mailSays s t die 3 [] ∧ t.crown.committed = c.committed ∧ ∀ k, t.crown.minOf k = c.minOf k)
      ∧ ∀ k ver svn body, c.accept = some (k, ver, svn, body) → k < 4 ∧ c.minOf k ≤ svn ∧ mailSays s t die 0 []
          ∧ t.crown.committed = some (k, ver, svn, body) ∧ ∀ j, t.crown.minOf j = if j = k then svn else c.minOf j)
    ∧ (c.pstate = 3 → ∃ t, exec (.evSmcreset die) s = .next t ∧ mailSays s t die 2 [] ∧ onlyMail s t die)
    ∧ (c.pstate ≠ 3 → let st := bits m.arg.toNat 0 4
      ∃ t, exec (.evSmcreset die) s = .next t ∧ mailSays s t die 0 [] ∧ ∀ d k, NMap.get false (t.die d).smcReset k
        = (NMap.get false (s.die d).smcReset k || (d == st / 2 && k == st % 2 && NMap.get false (s.die d).fb k)))
    ∧ (∃ t due, exec (.evReset die) s = .next t ∧ t.now = s.now ∧ t.mem = s.mem ∧ (∀ n, t.core n = {} ∧ t.context n = {})
      ∧ t.ops = [] ∧ t.groups = [] ∧ t.crown.pstate = 0 ∧ t.posted = [] ∧ s.now < due ∧ due ≤ s.now + 1024
      ∧ t.agenda = [{ due := due, act := .ev (.evPowerUp .ok) }] ∧ (∀ k, t.crown.minOf k = c.minOf k)
      ∧ ∀ k, t.crown.image k = match c.committed with
          | some (j, ver, svn, body) => if k = j then (ver, svn, body) else c.image k
          | none => c.image k)
    -- power-up
    ∧ (c.pstate ≠ 0 → ∀ f, exec (.evPowerUp f) s = .next s)
    -- an image below its minimum stops the power-up at its step, the controller's own before any other
    ∧ (∀ f, c.pstate = 0 → c.current 0 = false → exec (.evPowerUp f) s = .next { s with crown := { c with pstate := 3, cause := 2 } })
    ∧ (∀ f : BitVec 8, c.pstate = 0 → c.current 0 = true →
      exec (.evPowerUp (.fail f)) s = .next { s with crown := { c with pstate := 3, cause := f.toNat } })
    ∧ (∀ k, c.pstate = 0 → c.current 0 = true → k < 4 → c.current k = false →
      exec (.evPowerUp .ok) s = .next { s with crown := { c with pstate := 3, cause := 2 } })
    ∧ (∀ k x y a b n, c.pstate = 0 → (∀ j, j < 4 → c.current j = true) → a < b → b < 8 →
      let z := s.circuit a b
      ∃ t, exec (.evPowerUp (.degraded [(k, x, y)] [(a, b, n)])) s = .next t ∧ t.crown.pstate = 2 ∧ t.crown.cause = 0
        ∧ (t.die k).pcmap0 = x.toNat ∧ (t.die k).pcmap1 = y.toNat
        ∧ t.circuit a b = if z.st = .none then inTraining { z with wcfg := n } 0 else { z with wcfg := n })
    ∧ (c.pstate = 0 → (∀ k, k < 4 → c.current k = true) →
      ∃ t, exec (.evPowerUp .ok) s = .next t ∧ t.crown.pstate = 2 ∧ t.crown.cause = 0 ∧ t.mem = s.mem ∧ t.cores = s.cores
      ∧ (∀ a b, a < b → b < 8 → if (s.circuit a b).st = .none then t.circuit a b = inTraining (s.circuit a b) 0 ∧ mayTrain t s.now a b
          else t.circuit a b = s.circuit a b)
      ∧ (∀ p, p < 16 → t.ewenPort p = if (s.ewenPort p).st = .down then { s.ewenPort p with st := .train } else s.ewenPort p)
      ∧ ∀ d, d < 8 → (∀ y, y < 4 → t.hasPosted (s.now + 1) (.ev (.evYardGate d y)))
        ∧ (∀ k, k < 64 → t.hasPosted (s.now + msCycles) (.ev (.evTokenRefill (64 * d + k))))
        ∧ ∀ k, k < 2 → t.hasPosted (s.now + heartbeatGap) (.ev (.evStackHeartbeat d k)))
    -- limits
    ∧ (c.pstate ≠ 2 → exec .evThermalTrip s = .next s)
    ∧ (c.pstate = 2 → (∀ x, (s.context x).st ≠ .active) → (∀ kc ∈ s.ctxs, kc.2.st ≠ .dumping) →
      exec .evThermalTrip s = .next { s with crown := { c with pstate := 3, cause := 6, tripped := false }, launch := [] })
    ∧ (∀ x, c.pstate = 2 → (s.context x).st = .active → ∃ t, exec .evThermalTrip s = .next t ∧ t.crown = { c with tripped := true }
      ∧ t.hasPosted s.now (.ev (.evFatalCause x (BitVec.ofNat 8 Code.killedByParent))) ∧ t.hasPosted (s.now + 225000) (.ev (.evDumpTimeout x))
      ∧ t.mem = s.mem ∧ t.cores = s.cores)
    ∧ (∃ t, exec (.evThrottle die) s = .next t ∧ (∃ ag po di, t = { s with agenda := ag, posted := po, dies := di })
      ∧ (∀ d, d ≠ die → t.die d = s.die d) ∧ t.die die = { s.die die with throttled := true }
      ∧ t.isDue (· == .unthrottle die) = false)
    -- grants resume 1 ms after the fall
    ∧ (s.isDue (Act.unthrottles die) = false → ∃ t, exec (.evThrottleResume die) s = .next t ∧ onlyDie s t die ∧ t.die die = s.die die
      ∧ t.hasPosted (s.now + msCycles) (.unthrottle die))
    ∧ (s.isDue (Act.unthrottles die) = true → exec (.evThrottleResume die) s = .next s)
    ∧ (∃ t, s.perform exec (.unthrottle die) = .next t ∧ onlyDie s t die ∧ t.die die = { s.die die with throttled := false }
      ∧ ∀ n ∈ s.cores.map Prod.fst, dieOf n = die → t.hasPosted s.now (.ev (.evTaskGrant n)))
    -- registers
    ∧ (∀ off (v : Word),
      let w := exec (.evRegisterWrite die off v) s
      let open_ := (s.die die).inReset = false ∧ off % 8 = 0
      let runs := open_ ∧ c.pstate = 2
      ((¬ open_ ∨ c.pstate < 2 ∨ (c.pstate = 3 ∧ off / 0x10000 ≠ 8)) → w = .next s)
      ∧ (∀ slot, runs → slot < 64 → ∀ i, eventReg die slot v off i → w = exec i s)
      -- a TAIL write comes after those of peers in its cycle
      ∧ (∀ slot q, runs → slot < 64 → q < 4 → off = 0x10000 + 0x80 * slot + 0x20 * q + 0x10 →
        let z := if v.getLsbD 32 then s.onLaunch (4 * (64 * die + slot) + q) (fun l => { l with ovf := false }) else s
        w = .next (z.postEv s.now (.evLaunchTailWrite (64 * die + slot) q (v.setWidth 32) none)))
      ∧ (∀ slot, runs → slot < 64 →
        let x := s.context (64 * die + slot)
        let r := 0x20000 + 0x100 * slot
        let may := x.st = .free ∨ x.st = .saved
        (∀ e ∈ ctxRegs x v.toNat, off = r + e.1 →
          ∃ u, w = .next u ∧ (may → onlyCtx s u (64 * die + slot) e.2) ∧ (¬ may → u = s))
        ∧ (off = r + 0x68 → (bits v.toNat 60 4 = 0 ∨ 7 < bits v.toNat 60 4) → ∃ u, w = .next u ∧ onlyCtx s u (64 * die + slot) { x with cmdst := 2 })
        ∧ (off = r + 0x30 → ¬ may → w = exec (.evTqheadWrite (64 * die + slot) (v.setWidth 32)) s))
      ∧ (open_ → 2 ≤ c.pstate →
        (off = 0x80000 → m.busy = true → ∃ u, w = .next u ∧ onlyDie s u die ∧ u.die die = { s.die die with mbox := { m with ovf := true } })
        ∧ (off = 0x80000 → m.busy = false → ∃ u, w = .next u ∧ (∀ d, d ≠ die → u.die d = s.die d)
          ∧ u.die die = { s.die die with mbox := { m with op := bits v.toNat 32 8, seq := bits v.toNat 0 32, busy := true } }
          ∧ (8 * s.now + die, bits v.toNat 32 8, bits v.toNat 0 32, m.arg) ∈ u.crown.queue ∧ u.isDue (· == .crown) = true)
        ∧ (off = 0x80008 → ∃ u, w = .next u ∧ onlyDie s u die ∧ u.die die = { s.die die with mbox := { m with arg := v } })
        ∧ (∀ i, i < 256 → off = 0x80100 + 8 * i → ∃ u, w = .next u ∧ onlyDie s u die ∧ onlyMail s u die
          ∧ ∀ k, NMap.get 0 (u.die die).mbox.data k
              = if 8 * i ≤ k ∧ k < 8 * i + 8 then BitVec.ofNat 8 (v.toNat / 2 ^ (8 * (k - 8 * i))) else NMap.get 0 m.data k)))
    -- BAR2
    ∧ (∀ k pa len (data cmp : Word),
      let runs := c.pstate = 2 ∧ (s.die die).inReset = false
      let old := ofBytes (s.mem.readN (Addr.localMem die pa) len)
      let leaves (v : Nat) : Prop := ∃ t, exec (.evBar2Access die k pa len data cmp) s = .next t
        ∧ t.mem = s.mem.writeN (Addr.localMem die pa) (toBytes len v) ∧ t.cores = s.cores
      let plain := ∀ z ∈ s.veils, z.1 + z.2.1 ≤ Addr.localMem die pa ∨ Addr.localMem die pa + len ≤ z.1
      -- what it completes with: an Unsupported Request, or the old bytes
      (k = .write → (¬ runs ∨ s.npc die * 2 ^ 30 < pa + len) → exec (.evBar2Access die k pa len data cmp) s = .next s)
      ∧ (k ≠ .write → (¬ runs ∨ s.npc die * 2 ^ 30 < pa + len) → ∃ t, exec (.evBar2Access die k pa len data cmp) s = .next t
        ∧ onlyDie s t die ∧ t.die die = { s.die die with cpl := .unsupported })
      ∧ (k ≠ .write → runs → pa + len ≤ s.npc die * 2 ^ 30 → plain → ∃ t, exec (.evBar2Access die k pa len data cmp) s = .next t
        ∧ (t.die die).cpl = .data (s.mem.readN (Addr.localMem die pa) len))
      ∧ (runs → pa + len ≤ s.npc die * 2 ^ 30 → k = .read → ∃ t, exec (.evBar2Access die k pa len data cmp) s = .next t ∧ t.mem = s.mem ∧ t.cores = s.cores)
      ∧ (runs → pa + len ≤ s.npc die * 2 ^ 30 → (len = 4 ∨ len = 8) → pa % len = 0 → (s.eccOf die pa).bad = false → plain →
        (k = .write → leaves data.toNat) ∧ (k = .fetchAdd → leaves (old + data.toNat)) ∧ (k = .swap → leaves data.toNat)
        ∧ (k = .cas → leaves (if old = cmp.toNat % 2 ^ (8 * len) then data.toNat else old))))

/-! ### Decoding and encoding (R13, R14, R50 to R78, R310) -/

/-- Words the spec gives as examples of its encodings, and a bundle, decode to the instructions it says they are. -/
def Obligations.DecodeWords : Prop :=
  let tok (t : BitVec 6) : CmdHdr := { we := false, wsem := 0, wthr := 0, wc := false, ssem := 0, sinc := 0, tv := true, tok := t }
  let g (i : BitVec 6) : Opd := .main i
  let w0 : VHdr := { ty := 0, msk := 2, rnd := 0 }
  decode (.br 0x220BFFFC) = .ok (.brnz (g 5) 0x1FFFC)
    ∧ decode (.sa 0x014140020800) = .ok (.add .sa (g 5) .ya (.file 2))
    ∧ decode (.sa 0x39415056789A) = .ok (.lui .sa (g 5) (g 5) 0x6789A)
    ∧ decode (.sb 0x39415056789A) = .ok (.lui .sb (g 5) (g 5) 0x6789A)
    ∧ decode (.vx 0x01040C81C1000400) = .ok (.vadd w0 (g 3) (.file 1) (.pop 4 0) false)
    ∧ decode (.vx 0x04041080C0402600) = .ok (.vfma { w0 with msk := 3 } (g 4) (.file 0) (.pop 1 0) .yv)
    ∧ decode (.mx 0x0100000000249834290B4300) = .ok (.mma (tok 9) ⟨false, 0x0C, 3, g 10, g 11, g 12, false, false, false, false, 0⟩)
    ∧ decode (.cx 0x200000000024990430200000) = .ok (.qinit (tok 9) 6 (g 4) 6 0 1)
    ∧ decode (.cx 0x1A0000000025212000000000) = .ok (.opdetach (tok 10) (g 9))
    ∧ decode (.cx 0x010000000024800280030000) = .ok (.cpy (tok 9) 5 6 0 none)
    ∧ decode (.cx 0x29000000002601A0E0000000) = .ok (.bexpect (tok 12) 3 (g 7))
    ∧ decode (.cx 0x300000000024A14858000000) = .ok (.bqpost (tok 9) (g 10) (g 11) none)
    ∧ decode (.cx 0x380000000024A14000000000) = .ok (.tlaunch (tok 9) (g 10))
    ∧ decode (.cx 0x3A0000000024A541D0800000) = .ok (.lease (tok 9) 1 5 (g 7) (g 8))
    ∧ decode (.cx 0x3C0000000024B00000000000) = .ok (.publish (tok 9) 3)
    ∧ decodeBundle [0x0B, 0x00, 0xFC, 0xFF, 0x0B, 0x22, 0x00, 0x08, 0x02, 0x40, 0x41, 0x01, 0x00, 0x04, 0x00, 0xC1, 0x81, 0x0C, 0x04, 0x01]
        = .ok { target := false, idle := 0, mask := 0xB, len := 20,
                bays := [.brnz (g 5) 0x1FFFC, .add .sa (g 5) .ya (.file 2), .vadd w0 (g 3) (.file 1) (.pop 4 0) false] }

/-- Every well-formed instruction that has a word decodes from it: no bit of any encoding is dropped. -/
def Obligations.DecodeEncode : Prop := ∀ i e, i.wf = true → encode i = some e → decode e = .ok i

/-- A write of `m0` is discarded without a fault, and `m0` reads as all ones in every state. -/
def Obligations.MaskZero : Prop :=
  ∀ s h d a b (ma mb : BitVec 3) cc,
    (∀ t : State, t.me.mask 0 = BitVec.allOnes 64 ∧ t.iss.pre.t.mask 0 = BitVec.allOnes 64)
    ∧ (s.canRead a → s.canRead b → s.canWrite d → ∃ t, exec (.vcmp h d a b 0 cc) s = .next t ∧ t.iss.trapped = s.iss.trapped
      ∧ ∀ i, t.me.mask i = s.me.mask i)
    ∧ (∃ t, exec (.mand 0 ma mb) s = .next t ∧ quiet s t [])
    ∧ (∃ t, exec (.mor 0 ma mb) s = .next t ∧ quiet s t [])
    ∧ (∃ t, exec (.mnot 0 ma) s = .next t ∧ quiet s t [])
end

