-- ==== Sys2Proof/Laws/Maps.lean ====
section
/-!
SUPPORT. Maps read after a write, and memory: the canonical form, the bytes a run of writes leaves, and what it does not
touch.
-/

namespace Sys2Proof.Machine

/-! ### Maps -/

section Maps

variable {α : Type} (d : α) (m : NMap α) (k k' : Nat) (v : α)

theorem NMap.find_erase_self : NMap.find (NMap.erase m k) k = none := by
  induction m with
  | nil => rfl
  | cons a m ih => obtain ⟨ka, va⟩ := a; by_cases h : ka = k <;> simp [NMap.erase, NMap.find, h, ih]

theorem NMap.find_erase_ne (h : k' ≠ k) : NMap.find (NMap.erase m k) k' = NMap.find m k' := by
  induction m with
  | nil => rfl
  | cons a m ih =>
    obtain ⟨ka, va⟩ := a
    by_cases hk : ka = k
    · subst hk; simp [NMap.erase, NMap.find, ih, Ne.symm h]
    · simp [NMap.erase, NMap.find, hk, ih]

theorem NMap.find_place_self (h : NMap.find m k = none) : NMap.find (NMap.place k v m) k = some v := by
  induction m with
  | nil => simp [NMap.place, NMap.find]
  | cons a m ih =>
    obtain ⟨ka, va⟩ := a
    by_cases hk : ka = k
    · simp [NMap.find, hk] at h
    · simp only [NMap.find, hk, if_false] at h
      simp only [NMap.place]; split <;> simp [NMap.find, hk, ih h]

theorem NMap.find_place_ne (h : k' ≠ k) : NMap.find (NMap.place k v m) k' = NMap.find m k' := by
  induction m with
  | nil => simp [NMap.place, NMap.find, Ne.symm h]
  | cons a m ih =>
    obtain ⟨ka, va⟩ := a
    simp only [NMap.place]; split <;> simp [NMap.find, Ne.symm h, ih]

@[simp] theorem NMap.find_set_self : NMap.find (NMap.set m k v) k = some v := by
  rw [NMap.set, NMap.find_place_self _ _ _ (NMap.find_erase_self m k)]

theorem NMap.find_set_ne (h : k' ≠ k) : NMap.find (NMap.set m k v) k' = NMap.find m k' := by
  rw [NMap.set, NMap.find_place_ne _ _ _ _ h, NMap.find_erase_ne _ _ _ h]

theorem NMap.get_eq_find : NMap.get d m k = (NMap.find m k).getD d := by
  induction m with
  | nil => rfl
  | cons a m ih => obtain ⟨ka, va⟩ := a; by_cases h : ka = k <;> simp [NMap.get, NMap.find, h, ih]

@[simp] theorem NMap.get_set_self : NMap.get d (NMap.set m k v) k = v := by simp [NMap.get_eq_find]

theorem NMap.get_set_ne (h : k' ≠ k) : NMap.get d (NMap.set m k v) k' = NMap.get d m k' := by
  simp [NMap.get_eq_find, NMap.find_set_ne, h]

@[simp] theorem NMap.get_erase_self : NMap.get d (NMap.erase m k) k = d := by simp [NMap.get_eq_find, NMap.find_erase_self]

theorem NMap.get_erase_ne (h : k' ≠ k) : NMap.get d (NMap.erase m k) k' = NMap.get d m k' := by
  simp [NMap.get_eq_find, NMap.find_erase_ne, h]

@[simp] theorem NMap.get_put_self [DecidableEq α] : NMap.get d (NMap.put d m k v) k = v := by
  unfold NMap.put; split <;> simp_all

theorem NMap.get_put_ne [DecidableEq α] (h : k' ≠ k) : NMap.get d (NMap.put d m k v) k' = NMap.get d m k' := by
  unfold NMap.put; split <;> simp [NMap.get_erase_ne, NMap.get_set_ne, h]

theorem NMap.erase_erase : NMap.erase (NMap.erase m k) k = NMap.erase m k := by
  induction m with
  | nil => rfl
  | cons a m ih => obtain ⟨ka, va⟩ := a; by_cases h : ka = k <;> simp [NMap.erase, h, ih]

theorem NMap.erase_place (h : NMap.erase m k = m) : NMap.erase (NMap.place k v m) k = m := by
  induction m with
  | nil => simp [NMap.place, NMap.erase]
  | cons a m ih =>
    obtain ⟨ka, va⟩ := a
    by_cases hk : ka = k
    · exfalso
      have hl : ∀ l : NMap α, (NMap.erase l k).length ≤ l.length := by
        intro l
        induction l with
        | nil => simp [NMap.erase]
        | cons b l ihl => obtain ⟨kb, vb⟩ := b; by_cases hb : kb = k <;> simp [NMap.erase, hb] <;> omega
      have := hl m
      simp only [NMap.erase, hk, if_true] at h
      rw [h] at this
      simp at this
    · simp only [NMap.erase, hk, if_false, List.cons.injEq, true_and] at h
      simp only [NMap.place]
      split <;> simp [NMap.erase, hk, h, ih h]

/-- The later of two writes of a key counts. -/
@[simp] theorem NMap.set_set (v' : α) : NMap.set (NMap.set m k v) k v' = NMap.set m k v' := by
  unfold NMap.set
  rw [NMap.erase_place _ _ _ (NMap.erase_erase m k)]

end Maps

/-! ### The canonical form of memory -/

/-- Cells with rising keys from a lower bound, none of them blank. -/
def Memory.from_ (lo : Nat) (m : Memory) : Prop := risingFrom lo m = true ∧ ∀ c ∈ m, c.2 ≠ Memory.blank

theorem Memory.wf_iff (m : Memory) : m.wf = true ↔ Memory.from_ 0 m := by
  simp [Memory.wf, Memory.from_]

theorem Memory.from_nil (lo : Nat) : Memory.from_ lo [] := by simp [Memory.from_, risingFrom]

theorem Memory.from_cons (lo k : Nat) (v : Byte) (m : Memory) :
    Memory.from_ lo ((k, v) :: m) ↔ lo ≤ k ∧ v ≠ Memory.blank ∧ Memory.from_ (k + 1) m := by
  simp only [Memory.from_, risingFrom, Bool.and_eq_true, decide_eq_true_eq, List.mem_cons, forall_eq_or_imp]
  tauto

theorem Memory.from_mono {lo lo' : Nat} {m : Memory} (h : Memory.from_ lo m) (hl : lo' ≤ lo) : Memory.from_ lo' m := by
  cases m with
  | nil => exact Memory.from_nil _
  | cons c m => obtain ⟨k, v⟩ := c; rw [Memory.from_cons] at *; exact ⟨by omega, h.2⟩

/-- Every cell of a canonical memory stands at its bound or above. -/
theorem Memory.from_le {lo : Nat} {m : Memory} (h : Memory.from_ lo m) : ∀ c ∈ m, lo ≤ c.1 := by
  induction m generalizing lo with
  | nil => simp
  | cons c m ih =>
    obtain ⟨k, v⟩ := c
    rw [Memory.from_cons] at h
    simp only [List.mem_cons, forall_eq_or_imp]
    exact ⟨h.1, fun c hc => by have := ih h.2.2 c hc; omega⟩

theorem Memory.read_of_lt {lo a : Nat} {m : Memory} (h : Memory.from_ lo m) (ha : a < lo) : m.read a = Memory.blank := by
  induction m generalizing lo with
  | nil => rfl
  | cons c m ih =>
    obtain ⟨k, v⟩ := c
    rw [Memory.from_cons] at h
    have hk : k ≠ a := by omega
    simpa [Memory.read, NMap.get, hk] using ih h.2.2 (by omega)

theorem Memory.read_cons (k a : Nat) (v : Byte) (m : Memory) :
    Memory.read ((k, v) :: m) a = if k = a then v else m.read a := rfl

/-! ### What memory lists first -/

theorem Memory.uncons_from {a : Nat} {m : Memory} (h : Memory.from_ a m) : Memory.from_ (a + 1) (Memory.uncons a m).2 := by
  cases m with
  | nil => exact Memory.from_nil _
  | cons c m =>
    obtain ⟨k, v⟩ := c
    rw [Memory.from_cons] at h
    by_cases hk : k = a
    · simpa [Memory.uncons, hk] using hk ▸ h.2.2
    · simp only [Memory.uncons, hk, if_false]; rw [Memory.from_cons]; exact ⟨by omega, h.2⟩

theorem Memory.uncons_read {a : Nat} {m : Memory} (h : Memory.from_ a m) : (Memory.uncons a m).1 = m.read a := by
  cases m with
  | nil => rfl
  | cons c m =>
    obtain ⟨k, v⟩ := c
    rw [Memory.from_cons] at h
    by_cases hk : k = a
    · simp [Memory.uncons, hk, Memory.read_cons]
    · simp only [Memory.uncons, hk, if_false, Memory.read_cons]
      rw [Memory.read_of_lt h.2.2 (by omega)]

theorem Memory.uncons_rest {a b : Nat} {m : Memory} (h : Memory.from_ a m) (hb : a < b) : (Memory.uncons a m).2.read b = m.read b := by
  cases m with
  | nil => rfl
  | cons c m =>
    obtain ⟨k, v⟩ := c
    by_cases hk : k = a
    · have : a ≠ b := by omega
      simp [Memory.uncons, hk, Memory.read_cons, this]
    · simp [Memory.uncons, hk]

/-! ### Writes -/

theorem Memory.merge_from {a : Nat} {m : Memory} (bs : List (Option Byte)) (h : Memory.from_ a m) :
    Memory.from_ a (Memory.merge a bs m) := by
  induction bs generalizing a m with
  | nil => exact h
  | cons b bs ih =>
    simp only [Memory.merge]
    have hr := ih (Memory.uncons_from h)
    split
    · exact Memory.from_mono hr (by omega)
    · rw [Memory.from_cons]; exact ⟨le_refl _, by assumption, hr⟩

theorem Memory.writeMasked_from {lo a : Nat} {m : Memory} (bs : List (Option Byte)) (h : Memory.from_ lo m) (hl : lo ≤ a) :
    Memory.from_ lo (m.writeMasked a bs) := by
  induction m generalizing lo with
  | nil => exact Memory.from_mono (Memory.merge_from bs (Memory.from_nil a)) hl
  | cons c m ih =>
    obtain ⟨k, v⟩ := c
    simp only [Memory.writeMasked]
    split
    · rw [Memory.from_cons] at *; exact ⟨h.1, h.2.1, ih h.2.2 (by omega)⟩
    · refine Memory.from_mono (Memory.merge_from bs ?_) hl
      rw [Memory.from_cons] at *; exact ⟨by omega, h.2⟩

/-- A masked write keeps the canonical form. -/
theorem Memory.writeMasked_wf {m : Memory} (a : Nat) (bs : List (Option Byte)) (h : m.wf = true) :
    (m.writeMasked a bs).wf = true := by
  rw [Memory.wf_iff] at *; exact Memory.writeMasked_from bs h (by omega)

/-- A write keeps the canonical form. -/
theorem Memory.writeN_wf {m : Memory} (a : Nat) (bs : List Byte) (h : m.wf = true) : (m.writeN a bs).wf = true :=
  Memory.writeMasked_wf a _ h

theorem Memory.merge_read {a x : Nat} {m : Memory} (bs : List (Option Byte)) (h : Memory.from_ a m) :
    (Memory.merge a bs m).read x =
      if a ≤ x ∧ x < a + bs.length then (bs.getD (x - a) none).getD (m.read x) else m.read x := by
  induction bs generalizing a m with
  | nil => simp [Memory.merge]
  | cons b bs ih =>
    have ih' := ih (Memory.uncons_from h)
    have hr := Memory.merge_from bs (Memory.uncons_from h)
    have below : ∀ {y : Nat} {n : Memory}, Memory.from_ (a + 1) n → y ≤ a → n.read y = Memory.blank :=
      fun hn hy => Memory.read_of_lt hn (by omega)
    have key : (Memory.merge a (b :: bs) m).read x
        = if x = a then b.getD (m.read a) else (Memory.merge (a + 1) bs (Memory.uncons a m).2).read x := by
      simp only [Memory.merge, Memory.uncons_read h]
      by_cases hx : x = a
      · subst hx
        split
        · rename_i hv; simp [below hr (Nat.le_refl x), hv]
        · simp [Memory.read_cons]
      · split
        · rfl
        · rw [Memory.read_cons, if_neg (Ne.symm hx)]
    rw [key, ih']
    by_cases hx : x = a
    · subst hx; simp
    · by_cases hlt : x < a
      · have h1 : m.read x = Memory.blank := Memory.read_of_lt h hlt
        have h2 : (Memory.uncons a m).2.read x = Memory.blank := below (Memory.uncons_from h) (by omega)
        have c1 : ¬ (a + 1 ≤ x ∧ x < a + 1 + bs.length) := by omega
        have c2 : ¬ (a ≤ x ∧ x < a + (b :: bs).length) := by omega
        rw [if_neg hx, if_neg c1, if_neg c2, h1, h2]
      · rw [Memory.uncons_rest (b := x) h (by omega)]
        have e : x - a = (x - (a + 1)) + 1 := by omega
        simp only [hx, if_false, List.length_cons, e, List.getD_cons_succ]
        congr 1
        simp; omega

/-- What each byte reads as after a masked write. -/
theorem Memory.read_writeMasked {m : Memory} (a x : Nat) (bs : List (Option Byte)) (h : m.wf = true) :
    (m.writeMasked a bs).read x =
      if a ≤ x ∧ x < a + bs.length then (bs.getD (x - a) none).getD (m.read x) else m.read x := by
  rw [Memory.wf_iff] at h
  suffices H : ∀ lo, Memory.from_ lo m → lo ≤ a → (m.writeMasked a bs).read x =
      if a ≤ x ∧ x < a + bs.length then (bs.getD (x - a) none).getD (m.read x) else m.read x from H 0 h (by omega)
  clear h
  induction m with
  | nil => intro lo _ _; exact Memory.merge_read bs (Memory.from_nil a)
  | cons c m ih =>
    obtain ⟨k, v⟩ := c
    intro lo h hl
    simp only [Memory.writeMasked]
    split
    · rename_i hk
      rw [Memory.from_cons] at h
      rw [Memory.read_cons, ih (k + 1) h.2.2 (by omega), Memory.read_cons]
      by_cases hx : k = x
      · have : ¬ (a ≤ x ∧ x < a + bs.length) := by omega
        simp [hx, this]
      · simp [hx]
    · refine Memory.merge_read bs ?_
      rw [Memory.from_cons] at *; exact ⟨by omega, h.2⟩

theorem Memory.merge_read_out (a x : Nat) (bs : List (Option Byte)) (m : Memory) (hx : x < a ∨ a + bs.length ≤ x) :
    (Memory.merge a bs m).read x = m.read x := by
  induction bs generalizing a m with
  | nil => rfl
  | cons b bs ih =>
    have hax : a ≠ x := by simp at hx; omega
    have hu : (Memory.uncons a m).2.read x = m.read x := by
      cases m with
      | nil => rfl
      | cons c m =>
        obtain ⟨k, v⟩ := c
        by_cases hk : k = a
        · simp [Memory.uncons, hk, Memory.read_cons, hax]
        · simp [Memory.uncons, hk]
    have hr := ih (a + 1) (Memory.uncons a m).2 (by simp at hx; omega)
    simp only [Memory.merge]
    split
    · rw [hr, hu]
    · rw [Memory.read_cons, if_neg hax, hr, hu]

/-- A masked write leaves every byte outside its run alone, whatever the form of the memory. -/
theorem Memory.read_writeMasked_out (m : Memory) (a x : Nat) (bs : List (Option Byte)) (hx : x < a ∨ a + bs.length ≤ x) :
    (m.writeMasked a bs).read x = m.read x := by
  induction m with
  | nil => exact Memory.merge_read_out a x bs [] hx
  | cons c m ih =>
    obtain ⟨k, v⟩ := c
    simp only [Memory.writeMasked]
    split
    · rw [Memory.read_cons, Memory.read_cons, ih]
    · exact Memory.merge_read_out a x bs _ hx

/-- A byte inside a write reads as what was written. -/
theorem Memory.read_writeN_in {m : Memory} (a i : Nat) (bs : List Byte) (h : m.wf = true) (hi : i < bs.length) :
    (m.writeN a bs).read (a + i) = bs[i] := by
  rw [Memory.writeN, Memory.read_writeMasked a (a + i) _ h]
  simp [hi]

theorem Memory.read_writeN_out (m : Memory) (a x : Nat) (bs : List Byte) (hx : x < a ∨ a + bs.length ≤ x) :
    (m.writeN a bs).read x = m.read x :=
  Memory.read_writeMasked_out m a x _ (by simpa using hx)

/-! ### Reads of a run -/

theorem Memory.collect_eq {a : Nat} {m : Memory} (n : Nat) (h : Memory.from_ a m) :
    Memory.collect n a m = (List.range' a n).map m.read := by
  induction n generalizing a m with
  | zero => simp [Memory.collect]
  | succ n ih =>
    have same : ∀ {m' : Memory}, (∀ b, a < b → m'.read b = m.read b) →
        (List.range' (a + 1) n).map m'.read = (List.range' (a + 1) n).map m.read := by
      intro m' hm; apply List.map_congr_left; intro b hb; exact hm b (by simp [List.mem_range'] at hb; omega)
    cases m with
    | nil => simp [Memory.collect, ih (Memory.from_nil (a + 1)), List.range'_succ, Memory.read, NMap.get]
    | cons c m =>
      obtain ⟨k, v⟩ := c
      have h' := h
      rw [Memory.from_cons] at h
      simp only [Memory.collect, List.range'_succ, List.map_cons]
      split
      · rename_i hk
        subst hk
        rw [ih h.2.2, same (m' := m) (fun b hb => by rw [Memory.read_cons, if_neg (by omega)]), Memory.read_cons, if_pos rfl]
      · rename_i hk
        have hc : Memory.from_ (a + 1) ((k, v) :: m) := by rw [Memory.from_cons]; exact ⟨by omega, h.2⟩
        rw [ih hc, Memory.read_of_lt hc (by omega)]

theorem Memory.drop_from {lo a : Nat} {m : Memory} (h : Memory.from_ lo m) :
    Memory.from_ a (m.dropWhile (fun c => decide (c.1 < a))) := by
  induction m generalizing lo with
  | nil => exact Memory.from_nil a
  | cons c m ih =>
    obtain ⟨k, v⟩ := c
    have h' := h
    rw [Memory.from_cons] at h
    by_cases hk : k < a
    · simpa [List.dropWhile, hk] using ih h.2.2
    · simp only [List.dropWhile, hk, decide_false]
      rw [Memory.from_cons]; exact ⟨by omega, h.2⟩

theorem Memory.drop_read (a b : Nat) (m : Memory) (hb : a ≤ b) :
    Memory.read (m.dropWhile (fun c => decide (c.1 < a))) b = m.read b := by
  induction m with
  | nil => rfl
  | cons c m ih =>
    obtain ⟨k, v⟩ := c
    by_cases hk : k < a
    · have : k ≠ b := by omega
      simpa [List.dropWhile, hk, Memory.read_cons, this] using ih
    · simp [List.dropWhile, hk]

/-- A run is the bytes at its addresses. -/
theorem Memory.readN_eq {m : Memory} (a n : Nat) (h : m.wf = true) : m.readN a n = (List.range' a n).map m.read := by
  rw [Memory.wf_iff] at h
  rw [Memory.readN, Memory.collect_eq n (Memory.drop_from h)]
  apply List.map_congr_left; intro b hb
  exact Memory.drop_read a b m (by simp [List.mem_range'] at hb; omega)

/-- What was written is what a read of the same run returns. -/
theorem Memory.readN_writeN {m : Memory} (a : Nat) (bs : List Byte) (h : m.wf = true) : (m.writeN a bs).readN a bs.length = bs := by
  rw [Memory.readN_eq a bs.length (Memory.writeN_wf a bs h)]
  apply List.ext_getElem (by simp)
  intro i h1 h2
  simp [List.getElem_range', Memory.read_writeN_in a i bs h h2]

/-! ### The other operations -/

theorem Memory.filter_from {lo : Nat} {m : Memory} (p : Host.Cell → Bool) (h : Memory.from_ lo m) : Memory.from_ lo (m.filter p) := by
  induction m generalizing lo with
  | nil => exact h
  | cons c m ih =>
    obtain ⟨k, v⟩ := c
    rw [Memory.from_cons] at h
    have h' := ih h.2.2
    simp only [List.filter]
    split
    · rw [Memory.from_cons]; exact ⟨h.1, h.2.1, h'⟩
    · exact Memory.from_mono h' (by omega)

theorem Memory.clear_wf {m : Memory} (a n : Nat) (h : m.wf = true) : (m.clear a n).wf = true := by
  rw [Memory.wf_iff] at *; exact Memory.filter_from _ h

theorem Memory.append_from {lo mid : Nat} {m n : Memory} (hm : Memory.from_ lo m) (hn : Memory.from_ mid n) (hl : lo ≤ mid)
    (hlt : ∀ c ∈ m, c.1 < mid) : Memory.from_ lo (m ++ n) := by
  induction m generalizing lo with
  | nil => exact Memory.from_mono hn hl
  | cons c m ih =>
    obtain ⟨k, v⟩ := c
    rw [Memory.from_cons] at hm
    simp only [List.mem_cons, forall_eq_or_imp] at hlt
    simp only [List.cons_append]; rw [Memory.from_cons]
    exact ⟨hm.1, hm.2.1, ih hm.2.2 (by omega) hlt.2⟩

theorem Memory.shift_from {lo src dst : Nat} {m : Memory} (h : Memory.from_ lo m) (hs : src ≤ lo) :
    Memory.from_ (lo - src + dst) (m.map (fun c => (c.1 - src + dst, c.2))) := by
  induction m generalizing lo with
  | nil => exact Memory.from_nil _
  | cons c m ih =>
    obtain ⟨k, v⟩ := c
    rw [Memory.from_cons] at h
    simp only [List.map_cons]; rw [Memory.from_cons]
    have := ih h.2.2 (by omega)
    exact ⟨by omega, h.2.1, by rwa [show k - src + dst + 1 = k + 1 - src + dst by omega]⟩

theorem Memory.filter_ge_from {b : Nat} {m : Memory} (p : Host.Cell → Bool) (h : Memory.from_ 0 m) (hp : ∀ c ∈ m, p c = true → b ≤ c.1) :
    Memory.from_ b (m.filter p) := by
  suffices H : ∀ lo, Memory.from_ lo m → Memory.from_ b (m.filter p) from H 0 h
  clear h
  induction m with
  | nil => intro _ _; exact Memory.from_nil _
  | cons c m ih =>
    obtain ⟨k, v⟩ := c
    intro lo h
    rw [Memory.from_cons] at h
    simp only [List.mem_cons, forall_eq_or_imp] at hp
    by_cases hc : p (k, v) = true
    · rw [List.filter_cons_of_pos hc, Memory.from_cons]; exact ⟨hp.1 hc, h.2.1, Memory.filter_from _ h.2.2⟩
    · rw [List.filter_cons_of_neg hc]; exact ih hp.2 _ h.2.2

theorem Memory.copyRegion_wf {m : Memory} (src dst n : Nat) (h : m.wf = true) : (m.copyRegion src dst n).wf = true := by
  rw [Memory.wf_iff] at *
  unfold Memory.copyRegion
  have h1 : Memory.from_ 0 (m.filter (fun c => decide (c.1 < dst))) := Memory.filter_from _ h
  have h3 : Memory.from_ (dst + n) (m.filter (fun c => decide (dst + n ≤ c.1))) :=
    Memory.filter_ge_from _ h (by simp)
  have h2 : Memory.from_ dst ((m.filter (fun c => decide (src ≤ c.1) && decide (c.1 < src + n))).map (fun c => (c.1 - src + dst, c.2))) := by
    have := Memory.shift_from (dst := dst) (Memory.filter_ge_from (b := src)
      (fun c => decide (src ≤ c.1) && decide (c.1 < src + n)) h (by simp; omega)) (le_refl src)
    simpa using this
  refine Memory.append_from (mid := dst + n) (Memory.append_from h1 h2 (by omega) (by simp)) h3 (by omega) ?_
  intro c hc
  simp only [List.mem_append, List.mem_filter, List.mem_map, decide_eq_true_eq, Bool.and_eq_true] at hc
  obtain ⟨_, hc⟩ | ⟨c', ⟨_, hc⟩, rfl⟩ := hc
  · omega
  · simp; omega

/-- An exchange of two runs that do not meet keeps the canonical form. -/
theorem Memory.swapRuns_wf {m : Memory} (a b n : Nat) (hab : a + n ≤ b) (h : m.wf = true) :
    Memory.wf (NMap.swapRuns m a b n) = true := by
  rw [Memory.wf_iff] at *
  have cut (x y : Nat) : Memory.from_ y
      ((m.filter (fun c => decide (x ≤ c.1) && decide (c.1 < x + n))).map (fun c => (c.1 - x + y, c.2))) := by
    have := Memory.shift_from (dst := y) (Memory.filter_ge_from (b := x)
      (fun c => decide (x ≤ c.1) && decide (c.1 < x + n)) h (by simp; omega)) (le_refl x)
    simpa using this
  have h1 : Memory.from_ 0 (m.filter (fun c => decide (c.1 < a))) := Memory.filter_from _ h
  have h3 : Memory.from_ (a + n) (m.filter (fun c => decide (a + n ≤ c.1) && decide (c.1 < b))) :=
    Memory.filter_ge_from _ h (by simp; omega)
  have h5 : Memory.from_ (b + n) (m.filter (fun c => decide (b + n ≤ c.1))) := Memory.filter_ge_from _ h (by simp)
  refine Memory.append_from (mid := b + n) (Memory.append_from (mid := b) (Memory.append_from (mid := a + n)
    (Memory.append_from (mid := a) h1 (cut b a) (by omega) ?_) h3 (by omega) ?_) (cut a b) (by omega) ?_) h5 (by omega) ?_
  all_goals
    intro c hc
    simp only [List.mem_append, List.mem_filter, List.mem_map, decide_eq_true_eq, Bool.and_eq_true] at hc
  · omega
  · obtain hc | ⟨c', hc, rfl⟩ := hc
    · omega
    · simp only; omega
  · obtain (hc | ⟨c', hc, rfl⟩) | hc := hc
    · omega
    · simp only; omega
    · omega
  · obtain ((hc | ⟨c', hc, rfl⟩) | hc) | ⟨c', hc, rfl⟩ := hc
    · omega
    · simp only; omega
    · omega
    · simp only; omega

end Sys2Proof.Machine
end

