-- ==== Sys2Proof/Laws/State.lean ====
section
/-!
SUPPORT. What each update of the state leaves alone and what it changes, one lemma for each field, so that no proof unfolds a
record.
-/

namespace Sys2Proof.Machine

variable (s : State)

/-! ### Fields that an update leaves alone -/

/-! `setCore` -/

@[simp] theorem State.setCore_now (n : Nat) (c : Core) : (s.setCore n c).now = s.now := rfl
@[simp] theorem State.setCore_agenda (n : Nat) (c : Core) : (s.setCore n c).agenda = s.agenda := rfl
@[simp] theorem State.setCore_posted (n : Nat) (c : Core) : (s.setCore n c).posted = s.posted := rfl
@[simp] theorem State.setCore_free (n : Nat) (c : Core) : (s.setCore n c).free = s.free := rfl
@[simp] theorem State.setCore_cur (n : Nat) (c : Core) : (s.setCore n c).cur = s.cur := rfl
@[simp] theorem State.setCore_curUnit (n : Nat) (c : Core) : (s.setCore n c).curUnit = s.curUnit := rfl
@[simp] theorem State.setCore_iss (n : Nat) (c : Core) : (s.setCore n c).iss = s.iss := rfl
@[simp] theorem State.setCore_ended (n : Nat) (c : Core) : (s.setCore n c).ended = s.ended := rfl
@[simp] theorem State.setCore_mem (n : Nat) (c : Core) : (s.setCore n c).mem = s.mem := rfl
@[simp] theorem State.setCore_veils (n : Nat) (c : Core) : (s.setCore n c).veils = s.veils := rfl
@[simp] theorem State.setCore_ecc (n : Nat) (c : Core) : (s.setCore n c).ecc = s.ecc := rfl
@[simp] theorem State.setCore_padPoison (n : Nat) (c : Core) : (s.setCore n c).padPoison = s.padPoison := rfl
@[simp] theorem State.setCore_padErr (n : Nat) (c : Core) : (s.setCore n c).padErr = s.padErr := rfl
@[simp] theorem State.setCore_ops (n : Nat) (c : Core) : (s.setCore n c).ops = s.ops := rfl
@[simp] theorem State.setCore_gens (n : Nat) (c : Core) : (s.setCore n c).gens = s.gens := rfl
@[simp] theorem State.setCore_colls (n : Nat) (c : Core) : (s.setCore n c).colls = s.colls := rfl
@[simp] theorem State.setCore_units (n : Nat) (c : Core) : (s.setCore n c).units = s.units := rfl
@[simp] theorem State.setCore_groups (n : Nat) (c : Core) : (s.setCore n c).groups = s.groups := rfl
@[simp] theorem State.setCore_launch (n : Nat) (c : Core) : (s.setCore n c).launch = s.launch := rfl
@[simp] theorem State.setCore_ctxs (n : Nat) (c : Core) : (s.setCore n c).ctxs = s.ctxs := rfl
@[simp] theorem State.setCore_dies (n : Nat) (c : Core) : (s.setCore n c).dies = s.dies := rfl
@[simp] theorem State.setCore_circuits (n : Nat) (c : Core) : (s.setCore n c).circuits = s.circuits := rfl
@[simp] theorem State.setCore_ewen (n : Nat) (c : Core) : (s.setCore n c).ewen = s.ewen := rfl
@[simp] theorem State.setCore_crown (n : Nat) (c : Core) : (s.setCore n c).crown = s.crown := rfl
@[simp] theorem State.setCore_order (n : Nat) (c : Core) : (s.setCore n c).order = s.order := rfl
@[simp] theorem State.setCore_die (n : Nat) (c : Core) (k : Nat) : (s.setCore n c).die k = s.die k := rfl
@[simp] theorem State.setCore_context (n : Nat) (c : Core) (k : Nat) : (s.setCore n c).context k = s.context k := rfl
@[simp] theorem State.setCore_unit (n : Nat) (c : Core) (k : Nat) : (s.setCore n c).unit k = s.unit k := rfl
@[simp] theorem State.setCore_opFind (n : Nat) (c : Core) (k : Nat) : (s.setCore n c).op? k = s.op? k := rfl
@[simp] theorem State.setCore_op (n : Nat) (c : Core) (k : Nat) : (s.setCore n c).op k = s.op k := rfl
@[simp] theorem State.setCore_groupFind (n : Nat) (c : Core) (k : Nat) : (s.setCore n c).group? k = s.group? k := rfl
@[simp] theorem State.setCore_launchQ (n : Nat) (c : Core) (k : Nat) : (s.setCore n c).launchQ k = s.launchQ k := rfl
@[simp] theorem State.setCore_circuit (n : Nat) (c : Core) (k l : Nat) : (s.setCore n c).circuit k l = s.circuit k l := rfl
@[simp] theorem State.setCore_ewenPort (n : Nat) (c : Core) (k : Nat) : (s.setCore n c).ewenPort k = s.ewenPort k := rfl

/-! `onCore` -/

@[simp] theorem State.onCore_now (n : Nat) (f : Core → Core) : (s.onCore n f).now = s.now := rfl
@[simp] theorem State.onCore_agenda (n : Nat) (f : Core → Core) : (s.onCore n f).agenda = s.agenda := rfl
@[simp] theorem State.onCore_posted (n : Nat) (f : Core → Core) : (s.onCore n f).posted = s.posted := rfl
@[simp] theorem State.onCore_free (n : Nat) (f : Core → Core) : (s.onCore n f).free = s.free := rfl
@[simp] theorem State.onCore_cur (n : Nat) (f : Core → Core) : (s.onCore n f).cur = s.cur := rfl
@[simp] theorem State.onCore_curUnit (n : Nat) (f : Core → Core) : (s.onCore n f).curUnit = s.curUnit := rfl
@[simp] theorem State.onCore_iss (n : Nat) (f : Core → Core) : (s.onCore n f).iss = s.iss := rfl
@[simp] theorem State.onCore_ended (n : Nat) (f : Core → Core) : (s.onCore n f).ended = s.ended := rfl
@[simp] theorem State.onCore_mem (n : Nat) (f : Core → Core) : (s.onCore n f).mem = s.mem := rfl
@[simp] theorem State.onCore_veils (n : Nat) (f : Core → Core) : (s.onCore n f).veils = s.veils := rfl
@[simp] theorem State.onCore_ecc (n : Nat) (f : Core → Core) : (s.onCore n f).ecc = s.ecc := rfl
@[simp] theorem State.onCore_padPoison (n : Nat) (f : Core → Core) : (s.onCore n f).padPoison = s.padPoison := rfl
@[simp] theorem State.onCore_padErr (n : Nat) (f : Core → Core) : (s.onCore n f).padErr = s.padErr := rfl
@[simp] theorem State.onCore_ops (n : Nat) (f : Core → Core) : (s.onCore n f).ops = s.ops := rfl
@[simp] theorem State.onCore_gens (n : Nat) (f : Core → Core) : (s.onCore n f).gens = s.gens := rfl
@[simp] theorem State.onCore_colls (n : Nat) (f : Core → Core) : (s.onCore n f).colls = s.colls := rfl
@[simp] theorem State.onCore_units (n : Nat) (f : Core → Core) : (s.onCore n f).units = s.units := rfl
@[simp] theorem State.onCore_groups (n : Nat) (f : Core → Core) : (s.onCore n f).groups = s.groups := rfl
@[simp] theorem State.onCore_launch (n : Nat) (f : Core → Core) : (s.onCore n f).launch = s.launch := rfl
@[simp] theorem State.onCore_ctxs (n : Nat) (f : Core → Core) : (s.onCore n f).ctxs = s.ctxs := rfl
@[simp] theorem State.onCore_dies (n : Nat) (f : Core → Core) : (s.onCore n f).dies = s.dies := rfl
@[simp] theorem State.onCore_circuits (n : Nat) (f : Core → Core) : (s.onCore n f).circuits = s.circuits := rfl
@[simp] theorem State.onCore_ewen (n : Nat) (f : Core → Core) : (s.onCore n f).ewen = s.ewen := rfl
@[simp] theorem State.onCore_crown (n : Nat) (f : Core → Core) : (s.onCore n f).crown = s.crown := rfl
@[simp] theorem State.onCore_order (n : Nat) (f : Core → Core) : (s.onCore n f).order = s.order := rfl
@[simp] theorem State.onCore_die (n : Nat) (f : Core → Core) (k : Nat) : (s.onCore n f).die k = s.die k := rfl
@[simp] theorem State.onCore_context (n : Nat) (f : Core → Core) (k : Nat) : (s.onCore n f).context k = s.context k := rfl
@[simp] theorem State.onCore_unit (n : Nat) (f : Core → Core) (k : Nat) : (s.onCore n f).unit k = s.unit k := rfl
@[simp] theorem State.onCore_opFind (n : Nat) (f : Core → Core) (k : Nat) : (s.onCore n f).op? k = s.op? k := rfl
@[simp] theorem State.onCore_op (n : Nat) (f : Core → Core) (k : Nat) : (s.onCore n f).op k = s.op k := rfl
@[simp] theorem State.onCore_groupFind (n : Nat) (f : Core → Core) (k : Nat) : (s.onCore n f).group? k = s.group? k := rfl
@[simp] theorem State.onCore_launchQ (n : Nat) (f : Core → Core) (k : Nat) : (s.onCore n f).launchQ k = s.launchQ k := rfl
@[simp] theorem State.onCore_circuit (n : Nat) (f : Core → Core) (k l : Nat) : (s.onCore n f).circuit k l = s.circuit k l := rfl
@[simp] theorem State.onCore_ewenPort (n : Nat) (f : Core → Core) (k : Nat) : (s.onCore n f).ewenPort k = s.ewenPort k := rfl

/-! `onTask` -/

@[simp] theorem State.onTask_now (n : Nat) (f : TaskSt → TaskSt) : (s.onTask n f).now = s.now := rfl
@[simp] theorem State.onTask_agenda (n : Nat) (f : TaskSt → TaskSt) : (s.onTask n f).agenda = s.agenda := rfl
@[simp] theorem State.onTask_posted (n : Nat) (f : TaskSt → TaskSt) : (s.onTask n f).posted = s.posted := rfl
@[simp] theorem State.onTask_free (n : Nat) (f : TaskSt → TaskSt) : (s.onTask n f).free = s.free := rfl
@[simp] theorem State.onTask_cur (n : Nat) (f : TaskSt → TaskSt) : (s.onTask n f).cur = s.cur := rfl
@[simp] theorem State.onTask_curUnit (n : Nat) (f : TaskSt → TaskSt) : (s.onTask n f).curUnit = s.curUnit := rfl
@[simp] theorem State.onTask_iss (n : Nat) (f : TaskSt → TaskSt) : (s.onTask n f).iss = s.iss := rfl
@[simp] theorem State.onTask_ended (n : Nat) (f : TaskSt → TaskSt) : (s.onTask n f).ended = s.ended := rfl
@[simp] theorem State.onTask_mem (n : Nat) (f : TaskSt → TaskSt) : (s.onTask n f).mem = s.mem := rfl
@[simp] theorem State.onTask_veils (n : Nat) (f : TaskSt → TaskSt) : (s.onTask n f).veils = s.veils := rfl
@[simp] theorem State.onTask_ecc (n : Nat) (f : TaskSt → TaskSt) : (s.onTask n f).ecc = s.ecc := rfl
@[simp] theorem State.onTask_padPoison (n : Nat) (f : TaskSt → TaskSt) : (s.onTask n f).padPoison = s.padPoison := rfl
@[simp] theorem State.onTask_padErr (n : Nat) (f : TaskSt → TaskSt) : (s.onTask n f).padErr = s.padErr := rfl
@[simp] theorem State.onTask_ops (n : Nat) (f : TaskSt → TaskSt) : (s.onTask n f).ops = s.ops := rfl
@[simp] theorem State.onTask_gens (n : Nat) (f : TaskSt → TaskSt) : (s.onTask n f).gens = s.gens := rfl
@[simp] theorem State.onTask_colls (n : Nat) (f : TaskSt → TaskSt) : (s.onTask n f).colls = s.colls := rfl
@[simp] theorem State.onTask_units (n : Nat) (f : TaskSt → TaskSt) : (s.onTask n f).units = s.units := rfl
@[simp] theorem State.onTask_groups (n : Nat) (f : TaskSt → TaskSt) : (s.onTask n f).groups = s.groups := rfl
@[simp] theorem State.onTask_launch (n : Nat) (f : TaskSt → TaskSt) : (s.onTask n f).launch = s.launch := rfl
@[simp] theorem State.onTask_ctxs (n : Nat) (f : TaskSt → TaskSt) : (s.onTask n f).ctxs = s.ctxs := rfl
@[simp] theorem State.onTask_dies (n : Nat) (f : TaskSt → TaskSt) : (s.onTask n f).dies = s.dies := rfl
@[simp] theorem State.onTask_circuits (n : Nat) (f : TaskSt → TaskSt) : (s.onTask n f).circuits = s.circuits := rfl
@[simp] theorem State.onTask_ewen (n : Nat) (f : TaskSt → TaskSt) : (s.onTask n f).ewen = s.ewen := rfl
@[simp] theorem State.onTask_crown (n : Nat) (f : TaskSt → TaskSt) : (s.onTask n f).crown = s.crown := rfl
@[simp] theorem State.onTask_order (n : Nat) (f : TaskSt → TaskSt) : (s.onTask n f).order = s.order := rfl
@[simp] theorem State.onTask_die (n : Nat) (f : TaskSt → TaskSt) (k : Nat) : (s.onTask n f).die k = s.die k := rfl
@[simp] theorem State.onTask_context (n : Nat) (f : TaskSt → TaskSt) (k : Nat) : (s.onTask n f).context k = s.context k := rfl
@[simp] theorem State.onTask_unit (n : Nat) (f : TaskSt → TaskSt) (k : Nat) : (s.onTask n f).unit k = s.unit k := rfl
@[simp] theorem State.onTask_opFind (n : Nat) (f : TaskSt → TaskSt) (k : Nat) : (s.onTask n f).op? k = s.op? k := rfl
@[simp] theorem State.onTask_op (n : Nat) (f : TaskSt → TaskSt) (k : Nat) : (s.onTask n f).op k = s.op k := rfl
@[simp] theorem State.onTask_groupFind (n : Nat) (f : TaskSt → TaskSt) (k : Nat) : (s.onTask n f).group? k = s.group? k := rfl
@[simp] theorem State.onTask_launchQ (n : Nat) (f : TaskSt → TaskSt) (k : Nat) : (s.onTask n f).launchQ k = s.launchQ k := rfl
@[simp] theorem State.onTask_circuit (n : Nat) (f : TaskSt → TaskSt) (k l : Nat) : (s.onTask n f).circuit k l = s.circuit k l := rfl
@[simp] theorem State.onTask_ewenPort (n : Nat) (f : TaskSt → TaskSt) (k : Nat) : (s.onTask n f).ewenPort k = s.ewenPort k := rfl

/-! `onCtxSt` -/

@[simp] theorem State.onCtxSt_now (n : Nat) (f : CtxSt → CtxSt) : (s.onCtxSt n f).now = s.now := rfl
@[simp] theorem State.onCtxSt_agenda (n : Nat) (f : CtxSt → CtxSt) : (s.onCtxSt n f).agenda = s.agenda := rfl
@[simp] theorem State.onCtxSt_posted (n : Nat) (f : CtxSt → CtxSt) : (s.onCtxSt n f).posted = s.posted := rfl
@[simp] theorem State.onCtxSt_free (n : Nat) (f : CtxSt → CtxSt) : (s.onCtxSt n f).free = s.free := rfl
@[simp] theorem State.onCtxSt_cur (n : Nat) (f : CtxSt → CtxSt) : (s.onCtxSt n f).cur = s.cur := rfl
@[simp] theorem State.onCtxSt_curUnit (n : Nat) (f : CtxSt → CtxSt) : (s.onCtxSt n f).curUnit = s.curUnit := rfl
@[simp] theorem State.onCtxSt_iss (n : Nat) (f : CtxSt → CtxSt) : (s.onCtxSt n f).iss = s.iss := rfl
@[simp] theorem State.onCtxSt_ended (n : Nat) (f : CtxSt → CtxSt) : (s.onCtxSt n f).ended = s.ended := rfl
@[simp] theorem State.onCtxSt_mem (n : Nat) (f : CtxSt → CtxSt) : (s.onCtxSt n f).mem = s.mem := rfl
@[simp] theorem State.onCtxSt_veils (n : Nat) (f : CtxSt → CtxSt) : (s.onCtxSt n f).veils = s.veils := rfl
@[simp] theorem State.onCtxSt_ecc (n : Nat) (f : CtxSt → CtxSt) : (s.onCtxSt n f).ecc = s.ecc := rfl
@[simp] theorem State.onCtxSt_padPoison (n : Nat) (f : CtxSt → CtxSt) : (s.onCtxSt n f).padPoison = s.padPoison := rfl
@[simp] theorem State.onCtxSt_padErr (n : Nat) (f : CtxSt → CtxSt) : (s.onCtxSt n f).padErr = s.padErr := rfl
@[simp] theorem State.onCtxSt_ops (n : Nat) (f : CtxSt → CtxSt) : (s.onCtxSt n f).ops = s.ops := rfl
@[simp] theorem State.onCtxSt_gens (n : Nat) (f : CtxSt → CtxSt) : (s.onCtxSt n f).gens = s.gens := rfl
@[simp] theorem State.onCtxSt_colls (n : Nat) (f : CtxSt → CtxSt) : (s.onCtxSt n f).colls = s.colls := rfl
@[simp] theorem State.onCtxSt_units (n : Nat) (f : CtxSt → CtxSt) : (s.onCtxSt n f).units = s.units := rfl
@[simp] theorem State.onCtxSt_groups (n : Nat) (f : CtxSt → CtxSt) : (s.onCtxSt n f).groups = s.groups := rfl
@[simp] theorem State.onCtxSt_launch (n : Nat) (f : CtxSt → CtxSt) : (s.onCtxSt n f).launch = s.launch := rfl
@[simp] theorem State.onCtxSt_ctxs (n : Nat) (f : CtxSt → CtxSt) : (s.onCtxSt n f).ctxs = s.ctxs := rfl
@[simp] theorem State.onCtxSt_dies (n : Nat) (f : CtxSt → CtxSt) : (s.onCtxSt n f).dies = s.dies := rfl
@[simp] theorem State.onCtxSt_circuits (n : Nat) (f : CtxSt → CtxSt) : (s.onCtxSt n f).circuits = s.circuits := rfl
@[simp] theorem State.onCtxSt_ewen (n : Nat) (f : CtxSt → CtxSt) : (s.onCtxSt n f).ewen = s.ewen := rfl
@[simp] theorem State.onCtxSt_crown (n : Nat) (f : CtxSt → CtxSt) : (s.onCtxSt n f).crown = s.crown := rfl
@[simp] theorem State.onCtxSt_order (n : Nat) (f : CtxSt → CtxSt) : (s.onCtxSt n f).order = s.order := rfl
@[simp] theorem State.onCtxSt_die (n : Nat) (f : CtxSt → CtxSt) (k : Nat) : (s.onCtxSt n f).die k = s.die k := rfl
@[simp] theorem State.onCtxSt_context (n : Nat) (f : CtxSt → CtxSt) (k : Nat) : (s.onCtxSt n f).context k = s.context k := rfl
@[simp] theorem State.onCtxSt_unit (n : Nat) (f : CtxSt → CtxSt) (k : Nat) : (s.onCtxSt n f).unit k = s.unit k := rfl
@[simp] theorem State.onCtxSt_opFind (n : Nat) (f : CtxSt → CtxSt) (k : Nat) : (s.onCtxSt n f).op? k = s.op? k := rfl
@[simp] theorem State.onCtxSt_op (n : Nat) (f : CtxSt → CtxSt) (k : Nat) : (s.onCtxSt n f).op k = s.op k := rfl
@[simp] theorem State.onCtxSt_groupFind (n : Nat) (f : CtxSt → CtxSt) (k : Nat) : (s.onCtxSt n f).group? k = s.group? k := rfl
@[simp] theorem State.onCtxSt_launchQ (n : Nat) (f : CtxSt → CtxSt) (k : Nat) : (s.onCtxSt n f).launchQ k = s.launchQ k := rfl
@[simp] theorem State.onCtxSt_circuit (n : Nat) (f : CtxSt → CtxSt) (k l : Nat) : (s.onCtxSt n f).circuit k l = s.circuit k l := rfl
@[simp] theorem State.onCtxSt_ewenPort (n : Nat) (f : CtxSt → CtxSt) (k : Nat) : (s.onCtxSt n f).ewenPort k = s.ewenPort k := rfl

/-! `onDie` -/

@[simp] theorem State.onDie_now (n : Nat) (f : Die → Die) : (s.onDie n f).now = s.now := rfl
@[simp] theorem State.onDie_agenda (n : Nat) (f : Die → Die) : (s.onDie n f).agenda = s.agenda := rfl
@[simp] theorem State.onDie_posted (n : Nat) (f : Die → Die) : (s.onDie n f).posted = s.posted := rfl
@[simp] theorem State.onDie_free (n : Nat) (f : Die → Die) : (s.onDie n f).free = s.free := rfl
@[simp] theorem State.onDie_cur (n : Nat) (f : Die → Die) : (s.onDie n f).cur = s.cur := rfl
@[simp] theorem State.onDie_curUnit (n : Nat) (f : Die → Die) : (s.onDie n f).curUnit = s.curUnit := rfl
@[simp] theorem State.onDie_iss (n : Nat) (f : Die → Die) : (s.onDie n f).iss = s.iss := rfl
@[simp] theorem State.onDie_ended (n : Nat) (f : Die → Die) : (s.onDie n f).ended = s.ended := rfl
@[simp] theorem State.onDie_mem (n : Nat) (f : Die → Die) : (s.onDie n f).mem = s.mem := rfl
@[simp] theorem State.onDie_veils (n : Nat) (f : Die → Die) : (s.onDie n f).veils = s.veils := rfl
@[simp] theorem State.onDie_ecc (n : Nat) (f : Die → Die) : (s.onDie n f).ecc = s.ecc := rfl
@[simp] theorem State.onDie_padPoison (n : Nat) (f : Die → Die) : (s.onDie n f).padPoison = s.padPoison := rfl
@[simp] theorem State.onDie_padErr (n : Nat) (f : Die → Die) : (s.onDie n f).padErr = s.padErr := rfl
@[simp] theorem State.onDie_cores (n : Nat) (f : Die → Die) : (s.onDie n f).cores = s.cores := rfl
@[simp] theorem State.onDie_ops (n : Nat) (f : Die → Die) : (s.onDie n f).ops = s.ops := rfl
@[simp] theorem State.onDie_gens (n : Nat) (f : Die → Die) : (s.onDie n f).gens = s.gens := rfl
@[simp] theorem State.onDie_colls (n : Nat) (f : Die → Die) : (s.onDie n f).colls = s.colls := rfl
@[simp] theorem State.onDie_units (n : Nat) (f : Die → Die) : (s.onDie n f).units = s.units := rfl
@[simp] theorem State.onDie_groups (n : Nat) (f : Die → Die) : (s.onDie n f).groups = s.groups := rfl
@[simp] theorem State.onDie_launch (n : Nat) (f : Die → Die) : (s.onDie n f).launch = s.launch := rfl
@[simp] theorem State.onDie_ctxs (n : Nat) (f : Die → Die) : (s.onDie n f).ctxs = s.ctxs := rfl
@[simp] theorem State.onDie_circuits (n : Nat) (f : Die → Die) : (s.onDie n f).circuits = s.circuits := rfl
@[simp] theorem State.onDie_ewen (n : Nat) (f : Die → Die) : (s.onDie n f).ewen = s.ewen := rfl
@[simp] theorem State.onDie_crown (n : Nat) (f : Die → Die) : (s.onDie n f).crown = s.crown := rfl
@[simp] theorem State.onDie_order (n : Nat) (f : Die → Die) : (s.onDie n f).order = s.order := rfl
@[simp] theorem State.onDie_core (n : Nat) (f : Die → Die) (k : Nat) : (s.onDie n f).core k = s.core k := rfl
@[simp] theorem State.onDie_context (n : Nat) (f : Die → Die) (k : Nat) : (s.onDie n f).context k = s.context k := rfl
@[simp] theorem State.onDie_unit (n : Nat) (f : Die → Die) (k : Nat) : (s.onDie n f).unit k = s.unit k := rfl
@[simp] theorem State.onDie_opFind (n : Nat) (f : Die → Die) (k : Nat) : (s.onDie n f).op? k = s.op? k := rfl
@[simp] theorem State.onDie_op (n : Nat) (f : Die → Die) (k : Nat) : (s.onDie n f).op k = s.op k := rfl
@[simp] theorem State.onDie_groupFind (n : Nat) (f : Die → Die) (k : Nat) : (s.onDie n f).group? k = s.group? k := rfl
@[simp] theorem State.onDie_launchQ (n : Nat) (f : Die → Die) (k : Nat) : (s.onDie n f).launchQ k = s.launchQ k := rfl
@[simp] theorem State.onDie_circuit (n : Nat) (f : Die → Die) (k l : Nat) : (s.onDie n f).circuit k l = s.circuit k l := rfl
@[simp] theorem State.onDie_ewenPort (n : Nat) (f : Die → Die) (k : Nat) : (s.onDie n f).ewenPort k = s.ewenPort k := rfl

/-! `onPc` -/

@[simp] theorem State.onPc_now (n p : Nat) (f : PChan → PChan) : (s.onPc n p f).now = s.now := rfl
@[simp] theorem State.onPc_agenda (n p : Nat) (f : PChan → PChan) : (s.onPc n p f).agenda = s.agenda := rfl
@[simp] theorem State.onPc_posted (n p : Nat) (f : PChan → PChan) : (s.onPc n p f).posted = s.posted := rfl
@[simp] theorem State.onPc_free (n p : Nat) (f : PChan → PChan) : (s.onPc n p f).free = s.free := rfl
@[simp] theorem State.onPc_cur (n p : Nat) (f : PChan → PChan) : (s.onPc n p f).cur = s.cur := rfl
@[simp] theorem State.onPc_curUnit (n p : Nat) (f : PChan → PChan) : (s.onPc n p f).curUnit = s.curUnit := rfl
@[simp] theorem State.onPc_iss (n p : Nat) (f : PChan → PChan) : (s.onPc n p f).iss = s.iss := rfl
@[simp] theorem State.onPc_ended (n p : Nat) (f : PChan → PChan) : (s.onPc n p f).ended = s.ended := rfl
@[simp] theorem State.onPc_mem (n p : Nat) (f : PChan → PChan) : (s.onPc n p f).mem = s.mem := rfl
@[simp] theorem State.onPc_veils (n p : Nat) (f : PChan → PChan) : (s.onPc n p f).veils = s.veils := rfl
@[simp] theorem State.onPc_ecc (n p : Nat) (f : PChan → PChan) : (s.onPc n p f).ecc = s.ecc := rfl
@[simp] theorem State.onPc_padPoison (n p : Nat) (f : PChan → PChan) : (s.onPc n p f).padPoison = s.padPoison := rfl
@[simp] theorem State.onPc_padErr (n p : Nat) (f : PChan → PChan) : (s.onPc n p f).padErr = s.padErr := rfl
@[simp] theorem State.onPc_cores (n p : Nat) (f : PChan → PChan) : (s.onPc n p f).cores = s.cores := rfl
@[simp] theorem State.onPc_ops (n p : Nat) (f : PChan → PChan) : (s.onPc n p f).ops = s.ops := rfl
@[simp] theorem State.onPc_gens (n p : Nat) (f : PChan → PChan) : (s.onPc n p f).gens = s.gens := rfl
@[simp] theorem State.onPc_colls (n p : Nat) (f : PChan → PChan) : (s.onPc n p f).colls = s.colls := rfl
@[simp] theorem State.onPc_units (n p : Nat) (f : PChan → PChan) : (s.onPc n p f).units = s.units := rfl
@[simp] theorem State.onPc_groups (n p : Nat) (f : PChan → PChan) : (s.onPc n p f).groups = s.groups := rfl
@[simp] theorem State.onPc_launch (n p : Nat) (f : PChan → PChan) : (s.onPc n p f).launch = s.launch := rfl
@[simp] theorem State.onPc_ctxs (n p : Nat) (f : PChan → PChan) : (s.onPc n p f).ctxs = s.ctxs := rfl
@[simp] theorem State.onPc_circuits (n p : Nat) (f : PChan → PChan) : (s.onPc n p f).circuits = s.circuits := rfl
@[simp] theorem State.onPc_ewen (n p : Nat) (f : PChan → PChan) : (s.onPc n p f).ewen = s.ewen := rfl
@[simp] theorem State.onPc_crown (n p : Nat) (f : PChan → PChan) : (s.onPc n p f).crown = s.crown := rfl
@[simp] theorem State.onPc_order (n p : Nat) (f : PChan → PChan) : (s.onPc n p f).order = s.order := rfl
@[simp] theorem State.onPc_core (n p : Nat) (f : PChan → PChan) (k : Nat) : (s.onPc n p f).core k = s.core k := rfl
@[simp] theorem State.onPc_context (n p : Nat) (f : PChan → PChan) (k : Nat) : (s.onPc n p f).context k = s.context k := rfl
@[simp] theorem State.onPc_unit (n p : Nat) (f : PChan → PChan) (k : Nat) : (s.onPc n p f).unit k = s.unit k := rfl
@[simp] theorem State.onPc_opFind (n p : Nat) (f : PChan → PChan) (k : Nat) : (s.onPc n p f).op? k = s.op? k := rfl
@[simp] theorem State.onPc_op (n p : Nat) (f : PChan → PChan) (k : Nat) : (s.onPc n p f).op k = s.op k := rfl
@[simp] theorem State.onPc_groupFind (n p : Nat) (f : PChan → PChan) (k : Nat) : (s.onPc n p f).group? k = s.group? k := rfl
@[simp] theorem State.onPc_launchQ (n p : Nat) (f : PChan → PChan) (k : Nat) : (s.onPc n p f).launchQ k = s.launchQ k := rfl
@[simp] theorem State.onPc_circuit (n p : Nat) (f : PChan → PChan) (k l : Nat) : (s.onPc n p f).circuit k l = s.circuit k l := rfl
@[simp] theorem State.onPc_ewenPort (n p : Nat) (f : PChan → PChan) (k : Nat) : (s.onPc n p f).ewenPort k = s.ewenPort k := rfl

/-! `onContext` -/

@[simp] theorem State.onContext_now (n : Nat) (f : Context → Context) : (s.onContext n f).now = s.now := rfl
@[simp] theorem State.onContext_agenda (n : Nat) (f : Context → Context) : (s.onContext n f).agenda = s.agenda := rfl
@[simp] theorem State.onContext_posted (n : Nat) (f : Context → Context) : (s.onContext n f).posted = s.posted := rfl
@[simp] theorem State.onContext_free (n : Nat) (f : Context → Context) : (s.onContext n f).free = s.free := rfl
@[simp] theorem State.onContext_cur (n : Nat) (f : Context → Context) : (s.onContext n f).cur = s.cur := rfl
@[simp] theorem State.onContext_curUnit (n : Nat) (f : Context → Context) : (s.onContext n f).curUnit = s.curUnit := rfl
@[simp] theorem State.onContext_iss (n : Nat) (f : Context → Context) : (s.onContext n f).iss = s.iss := rfl
@[simp] theorem State.onContext_ended (n : Nat) (f : Context → Context) : (s.onContext n f).ended = s.ended := rfl
@[simp] theorem State.onContext_mem (n : Nat) (f : Context → Context) : (s.onContext n f).mem = s.mem := rfl
@[simp] theorem State.onContext_veils (n : Nat) (f : Context → Context) : (s.onContext n f).veils = s.veils := rfl
@[simp] theorem State.onContext_ecc (n : Nat) (f : Context → Context) : (s.onContext n f).ecc = s.ecc := rfl
@[simp] theorem State.onContext_padPoison (n : Nat) (f : Context → Context) : (s.onContext n f).padPoison = s.padPoison := rfl
@[simp] theorem State.onContext_padErr (n : Nat) (f : Context → Context) : (s.onContext n f).padErr = s.padErr := rfl
@[simp] theorem State.onContext_cores (n : Nat) (f : Context → Context) : (s.onContext n f).cores = s.cores := rfl
@[simp] theorem State.onContext_ops (n : Nat) (f : Context → Context) : (s.onContext n f).ops = s.ops := rfl
@[simp] theorem State.onContext_gens (n : Nat) (f : Context → Context) : (s.onContext n f).gens = s.gens := rfl
@[simp] theorem State.onContext_colls (n : Nat) (f : Context → Context) : (s.onContext n f).colls = s.colls := rfl
@[simp] theorem State.onContext_units (n : Nat) (f : Context → Context) : (s.onContext n f).units = s.units := rfl
@[simp] theorem State.onContext_groups (n : Nat) (f : Context → Context) : (s.onContext n f).groups = s.groups := rfl
@[simp] theorem State.onContext_launch (n : Nat) (f : Context → Context) : (s.onContext n f).launch = s.launch := rfl
@[simp] theorem State.onContext_dies (n : Nat) (f : Context → Context) : (s.onContext n f).dies = s.dies := rfl
@[simp] theorem State.onContext_circuits (n : Nat) (f : Context → Context) : (s.onContext n f).circuits = s.circuits := rfl
@[simp] theorem State.onContext_ewen (n : Nat) (f : Context → Context) : (s.onContext n f).ewen = s.ewen := rfl
@[simp] theorem State.onContext_crown (n : Nat) (f : Context → Context) : (s.onContext n f).crown = s.crown := rfl
@[simp] theorem State.onContext_order (n : Nat) (f : Context → Context) : (s.onContext n f).order = s.order := rfl
@[simp] theorem State.onContext_core (n : Nat) (f : Context → Context) (k : Nat) : (s.onContext n f).core k = s.core k := rfl
@[simp] theorem State.onContext_die (n : Nat) (f : Context → Context) (k : Nat) : (s.onContext n f).die k = s.die k := rfl
@[simp] theorem State.onContext_unit (n : Nat) (f : Context → Context) (k : Nat) : (s.onContext n f).unit k = s.unit k := rfl
@[simp] theorem State.onContext_opFind (n : Nat) (f : Context → Context) (k : Nat) : (s.onContext n f).op? k = s.op? k := rfl
@[simp] theorem State.onContext_op (n : Nat) (f : Context → Context) (k : Nat) : (s.onContext n f).op k = s.op k := rfl
@[simp] theorem State.onContext_groupFind (n : Nat) (f : Context → Context) (k : Nat) : (s.onContext n f).group? k = s.group? k := rfl
@[simp] theorem State.onContext_launchQ (n : Nat) (f : Context → Context) (k : Nat) : (s.onContext n f).launchQ k = s.launchQ k := rfl
@[simp] theorem State.onContext_circuit (n : Nat) (f : Context → Context) (k l : Nat) : (s.onContext n f).circuit k l = s.circuit k l := rfl
@[simp] theorem State.onContext_ewenPort (n : Nat) (f : Context → Context) (k : Nat) : (s.onContext n f).ewenPort k = s.ewenPort k := rfl

/-! `onUnit` -/

@[simp] theorem State.onUnit_now (n : Nat) (f : BankUnit → BankUnit) : (s.onUnit n f).now = s.now := rfl
@[simp] theorem State.onUnit_agenda (n : Nat) (f : BankUnit → BankUnit) : (s.onUnit n f).agenda = s.agenda := rfl
@[simp] theorem State.onUnit_posted (n : Nat) (f : BankUnit → BankUnit) : (s.onUnit n f).posted = s.posted := rfl
@[simp] theorem State.onUnit_free (n : Nat) (f : BankUnit → BankUnit) : (s.onUnit n f).free = s.free := rfl
@[simp] theorem State.onUnit_cur (n : Nat) (f : BankUnit → BankUnit) : (s.onUnit n f).cur = s.cur := rfl
@[simp] theorem State.onUnit_curUnit (n : Nat) (f : BankUnit → BankUnit) : (s.onUnit n f).curUnit = s.curUnit := rfl
@[simp] theorem State.onUnit_iss (n : Nat) (f : BankUnit → BankUnit) : (s.onUnit n f).iss = s.iss := rfl
@[simp] theorem State.onUnit_ended (n : Nat) (f : BankUnit → BankUnit) : (s.onUnit n f).ended = s.ended := rfl
@[simp] theorem State.onUnit_mem (n : Nat) (f : BankUnit → BankUnit) : (s.onUnit n f).mem = s.mem := rfl
@[simp] theorem State.onUnit_veils (n : Nat) (f : BankUnit → BankUnit) : (s.onUnit n f).veils = s.veils := rfl
@[simp] theorem State.onUnit_ecc (n : Nat) (f : BankUnit → BankUnit) : (s.onUnit n f).ecc = s.ecc := rfl
@[simp] theorem State.onUnit_padPoison (n : Nat) (f : BankUnit → BankUnit) : (s.onUnit n f).padPoison = s.padPoison := rfl
@[simp] theorem State.onUnit_padErr (n : Nat) (f : BankUnit → BankUnit) : (s.onUnit n f).padErr = s.padErr := rfl
@[simp] theorem State.onUnit_cores (n : Nat) (f : BankUnit → BankUnit) : (s.onUnit n f).cores = s.cores := rfl
@[simp] theorem State.onUnit_ops (n : Nat) (f : BankUnit → BankUnit) : (s.onUnit n f).ops = s.ops := rfl
@[simp] theorem State.onUnit_gens (n : Nat) (f : BankUnit → BankUnit) : (s.onUnit n f).gens = s.gens := rfl
@[simp] theorem State.onUnit_colls (n : Nat) (f : BankUnit → BankUnit) : (s.onUnit n f).colls = s.colls := rfl
@[simp] theorem State.onUnit_groups (n : Nat) (f : BankUnit → BankUnit) : (s.onUnit n f).groups = s.groups := rfl
@[simp] theorem State.onUnit_launch (n : Nat) (f : BankUnit → BankUnit) : (s.onUnit n f).launch = s.launch := rfl
@[simp] theorem State.onUnit_ctxs (n : Nat) (f : BankUnit → BankUnit) : (s.onUnit n f).ctxs = s.ctxs := rfl
@[simp] theorem State.onUnit_dies (n : Nat) (f : BankUnit → BankUnit) : (s.onUnit n f).dies = s.dies := rfl
@[simp] theorem State.onUnit_circuits (n : Nat) (f : BankUnit → BankUnit) : (s.onUnit n f).circuits = s.circuits := rfl
@[simp] theorem State.onUnit_ewen (n : Nat) (f : BankUnit → BankUnit) : (s.onUnit n f).ewen = s.ewen := rfl
@[simp] theorem State.onUnit_crown (n : Nat) (f : BankUnit → BankUnit) : (s.onUnit n f).crown = s.crown := rfl
@[simp] theorem State.onUnit_order (n : Nat) (f : BankUnit → BankUnit) : (s.onUnit n f).order = s.order := rfl
@[simp] theorem State.onUnit_core (n : Nat) (f : BankUnit → BankUnit) (k : Nat) : (s.onUnit n f).core k = s.core k := rfl
@[simp] theorem State.onUnit_die (n : Nat) (f : BankUnit → BankUnit) (k : Nat) : (s.onUnit n f).die k = s.die k := rfl
@[simp] theorem State.onUnit_context (n : Nat) (f : BankUnit → BankUnit) (k : Nat) : (s.onUnit n f).context k = s.context k := rfl
@[simp] theorem State.onUnit_opFind (n : Nat) (f : BankUnit → BankUnit) (k : Nat) : (s.onUnit n f).op? k = s.op? k := rfl
@[simp] theorem State.onUnit_op (n : Nat) (f : BankUnit → BankUnit) (k : Nat) : (s.onUnit n f).op k = s.op k := rfl
@[simp] theorem State.onUnit_groupFind (n : Nat) (f : BankUnit → BankUnit) (k : Nat) : (s.onUnit n f).group? k = s.group? k := rfl
@[simp] theorem State.onUnit_launchQ (n : Nat) (f : BankUnit → BankUnit) (k : Nat) : (s.onUnit n f).launchQ k = s.launchQ k := rfl
@[simp] theorem State.onUnit_circuit (n : Nat) (f : BankUnit → BankUnit) (k l : Nat) : (s.onUnit n f).circuit k l = s.circuit k l := rfl
@[simp] theorem State.onUnit_ewenPort (n : Nat) (f : BankUnit → BankUnit) (k : Nat) : (s.onUnit n f).ewenPort k = s.ewenPort k := rfl

/-! `onLaunch` -/

@[simp] theorem State.onLaunch_now (n : Nat) (f : LaunchQ → LaunchQ) : (s.onLaunch n f).now = s.now := rfl
@[simp] theorem State.onLaunch_agenda (n : Nat) (f : LaunchQ → LaunchQ) : (s.onLaunch n f).agenda = s.agenda := rfl
@[simp] theorem State.onLaunch_posted (n : Nat) (f : LaunchQ → LaunchQ) : (s.onLaunch n f).posted = s.posted := rfl
@[simp] theorem State.onLaunch_free (n : Nat) (f : LaunchQ → LaunchQ) : (s.onLaunch n f).free = s.free := rfl
@[simp] theorem State.onLaunch_cur (n : Nat) (f : LaunchQ → LaunchQ) : (s.onLaunch n f).cur = s.cur := rfl
@[simp] theorem State.onLaunch_curUnit (n : Nat) (f : LaunchQ → LaunchQ) : (s.onLaunch n f).curUnit = s.curUnit := rfl
@[simp] theorem State.onLaunch_iss (n : Nat) (f : LaunchQ → LaunchQ) : (s.onLaunch n f).iss = s.iss := rfl
@[simp] theorem State.onLaunch_ended (n : Nat) (f : LaunchQ → LaunchQ) : (s.onLaunch n f).ended = s.ended := rfl
@[simp] theorem State.onLaunch_mem (n : Nat) (f : LaunchQ → LaunchQ) : (s.onLaunch n f).mem = s.mem := rfl
@[simp] theorem State.onLaunch_veils (n : Nat) (f : LaunchQ → LaunchQ) : (s.onLaunch n f).veils = s.veils := rfl
@[simp] theorem State.onLaunch_ecc (n : Nat) (f : LaunchQ → LaunchQ) : (s.onLaunch n f).ecc = s.ecc := rfl
@[simp] theorem State.onLaunch_padPoison (n : Nat) (f : LaunchQ → LaunchQ) : (s.onLaunch n f).padPoison = s.padPoison := rfl
@[simp] theorem State.onLaunch_padErr (n : Nat) (f : LaunchQ → LaunchQ) : (s.onLaunch n f).padErr = s.padErr := rfl
@[simp] theorem State.onLaunch_cores (n : Nat) (f : LaunchQ → LaunchQ) : (s.onLaunch n f).cores = s.cores := rfl
@[simp] theorem State.onLaunch_ops (n : Nat) (f : LaunchQ → LaunchQ) : (s.onLaunch n f).ops = s.ops := rfl
@[simp] theorem State.onLaunch_gens (n : Nat) (f : LaunchQ → LaunchQ) : (s.onLaunch n f).gens = s.gens := rfl
@[simp] theorem State.onLaunch_colls (n : Nat) (f : LaunchQ → LaunchQ) : (s.onLaunch n f).colls = s.colls := rfl
@[simp] theorem State.onLaunch_units (n : Nat) (f : LaunchQ → LaunchQ) : (s.onLaunch n f).units = s.units := rfl
@[simp] theorem State.onLaunch_groups (n : Nat) (f : LaunchQ → LaunchQ) : (s.onLaunch n f).groups = s.groups := rfl
@[simp] theorem State.onLaunch_ctxs (n : Nat) (f : LaunchQ → LaunchQ) : (s.onLaunch n f).ctxs = s.ctxs := rfl
@[simp] theorem State.onLaunch_dies (n : Nat) (f : LaunchQ → LaunchQ) : (s.onLaunch n f).dies = s.dies := rfl
@[simp] theorem State.onLaunch_circuits (n : Nat) (f : LaunchQ → LaunchQ) : (s.onLaunch n f).circuits = s.circuits := rfl
@[simp] theorem State.onLaunch_ewen (n : Nat) (f : LaunchQ → LaunchQ) : (s.onLaunch n f).ewen = s.ewen := rfl
@[simp] theorem State.onLaunch_crown (n : Nat) (f : LaunchQ → LaunchQ) : (s.onLaunch n f).crown = s.crown := rfl
@[simp] theorem State.onLaunch_order (n : Nat) (f : LaunchQ → LaunchQ) : (s.onLaunch n f).order = s.order := rfl
@[simp] theorem State.onLaunch_core (n : Nat) (f : LaunchQ → LaunchQ) (k : Nat) : (s.onLaunch n f).core k = s.core k := rfl
@[simp] theorem State.onLaunch_die (n : Nat) (f : LaunchQ → LaunchQ) (k : Nat) : (s.onLaunch n f).die k = s.die k := rfl
@[simp] theorem State.onLaunch_context (n : Nat) (f : LaunchQ → LaunchQ) (k : Nat) : (s.onLaunch n f).context k = s.context k := rfl
@[simp] theorem State.onLaunch_unit (n : Nat) (f : LaunchQ → LaunchQ) (k : Nat) : (s.onLaunch n f).unit k = s.unit k := rfl
@[simp] theorem State.onLaunch_opFind (n : Nat) (f : LaunchQ → LaunchQ) (k : Nat) : (s.onLaunch n f).op? k = s.op? k := rfl
@[simp] theorem State.onLaunch_op (n : Nat) (f : LaunchQ → LaunchQ) (k : Nat) : (s.onLaunch n f).op k = s.op k := rfl
@[simp] theorem State.onLaunch_groupFind (n : Nat) (f : LaunchQ → LaunchQ) (k : Nat) : (s.onLaunch n f).group? k = s.group? k := rfl
@[simp] theorem State.onLaunch_circuit (n : Nat) (f : LaunchQ → LaunchQ) (k l : Nat) : (s.onLaunch n f).circuit k l = s.circuit k l := rfl
@[simp] theorem State.onLaunch_ewenPort (n : Nat) (f : LaunchQ → LaunchQ) (k : Nat) : (s.onLaunch n f).ewenPort k = s.ewenPort k := rfl

/-! `onCircuit` -/

@[simp] theorem State.onCircuit_now (a b : Nat) (f : Circuit → Circuit) : (s.onCircuit a b f).now = s.now := rfl
@[simp] theorem State.onCircuit_agenda (a b : Nat) (f : Circuit → Circuit) : (s.onCircuit a b f).agenda = s.agenda := rfl
@[simp] theorem State.onCircuit_posted (a b : Nat) (f : Circuit → Circuit) : (s.onCircuit a b f).posted = s.posted := rfl
@[simp] theorem State.onCircuit_free (a b : Nat) (f : Circuit → Circuit) : (s.onCircuit a b f).free = s.free := rfl
@[simp] theorem State.onCircuit_cur (a b : Nat) (f : Circuit → Circuit) : (s.onCircuit a b f).cur = s.cur := rfl
@[simp] theorem State.onCircuit_curUnit (a b : Nat) (f : Circuit → Circuit) : (s.onCircuit a b f).curUnit = s.curUnit := rfl
@[simp] theorem State.onCircuit_iss (a b : Nat) (f : Circuit → Circuit) : (s.onCircuit a b f).iss = s.iss := rfl
@[simp] theorem State.onCircuit_ended (a b : Nat) (f : Circuit → Circuit) : (s.onCircuit a b f).ended = s.ended := rfl
@[simp] theorem State.onCircuit_mem (a b : Nat) (f : Circuit → Circuit) : (s.onCircuit a b f).mem = s.mem := rfl
@[simp] theorem State.onCircuit_veils (a b : Nat) (f : Circuit → Circuit) : (s.onCircuit a b f).veils = s.veils := rfl
@[simp] theorem State.onCircuit_ecc (a b : Nat) (f : Circuit → Circuit) : (s.onCircuit a b f).ecc = s.ecc := rfl
@[simp] theorem State.onCircuit_padPoison (a b : Nat) (f : Circuit → Circuit) : (s.onCircuit a b f).padPoison = s.padPoison := rfl
@[simp] theorem State.onCircuit_padErr (a b : Nat) (f : Circuit → Circuit) : (s.onCircuit a b f).padErr = s.padErr := rfl
@[simp] theorem State.onCircuit_cores (a b : Nat) (f : Circuit → Circuit) : (s.onCircuit a b f).cores = s.cores := rfl
@[simp] theorem State.onCircuit_ops (a b : Nat) (f : Circuit → Circuit) : (s.onCircuit a b f).ops = s.ops := rfl
@[simp] theorem State.onCircuit_gens (a b : Nat) (f : Circuit → Circuit) : (s.onCircuit a b f).gens = s.gens := rfl
@[simp] theorem State.onCircuit_colls (a b : Nat) (f : Circuit → Circuit) : (s.onCircuit a b f).colls = s.colls := rfl
@[simp] theorem State.onCircuit_units (a b : Nat) (f : Circuit → Circuit) : (s.onCircuit a b f).units = s.units := rfl
@[simp] theorem State.onCircuit_groups (a b : Nat) (f : Circuit → Circuit) : (s.onCircuit a b f).groups = s.groups := rfl
@[simp] theorem State.onCircuit_launch (a b : Nat) (f : Circuit → Circuit) : (s.onCircuit a b f).launch = s.launch := rfl
@[simp] theorem State.onCircuit_ctxs (a b : Nat) (f : Circuit → Circuit) : (s.onCircuit a b f).ctxs = s.ctxs := rfl
@[simp] theorem State.onCircuit_dies (a b : Nat) (f : Circuit → Circuit) : (s.onCircuit a b f).dies = s.dies := rfl
@[simp] theorem State.onCircuit_ewen (a b : Nat) (f : Circuit → Circuit) : (s.onCircuit a b f).ewen = s.ewen := rfl
@[simp] theorem State.onCircuit_crown (a b : Nat) (f : Circuit → Circuit) : (s.onCircuit a b f).crown = s.crown := rfl
@[simp] theorem State.onCircuit_order (a b : Nat) (f : Circuit → Circuit) : (s.onCircuit a b f).order = s.order := rfl
@[simp] theorem State.onCircuit_core (a b : Nat) (f : Circuit → Circuit) (k : Nat) : (s.onCircuit a b f).core k = s.core k := rfl
@[simp] theorem State.onCircuit_die (a b : Nat) (f : Circuit → Circuit) (k : Nat) : (s.onCircuit a b f).die k = s.die k := rfl
@[simp] theorem State.onCircuit_context (a b : Nat) (f : Circuit → Circuit) (k : Nat) : (s.onCircuit a b f).context k = s.context k := rfl
@[simp] theorem State.onCircuit_unit (a b : Nat) (f : Circuit → Circuit) (k : Nat) : (s.onCircuit a b f).unit k = s.unit k := rfl
@[simp] theorem State.onCircuit_opFind (a b : Nat) (f : Circuit → Circuit) (k : Nat) : (s.onCircuit a b f).op? k = s.op? k := rfl
@[simp] theorem State.onCircuit_op (a b : Nat) (f : Circuit → Circuit) (k : Nat) : (s.onCircuit a b f).op k = s.op k := rfl
@[simp] theorem State.onCircuit_groupFind (a b : Nat) (f : Circuit → Circuit) (k : Nat) : (s.onCircuit a b f).group? k = s.group? k := rfl
@[simp] theorem State.onCircuit_launchQ (a b : Nat) (f : Circuit → Circuit) (k : Nat) : (s.onCircuit a b f).launchQ k = s.launchQ k := rfl
@[simp] theorem State.onCircuit_ewenPort (a b : Nat) (f : Circuit → Circuit) (k : Nat) : (s.onCircuit a b f).ewenPort k = s.ewenPort k := rfl

/-! `onEwen` -/

@[simp] theorem State.onEwen_now (n : Nat) (f : Ewen → Ewen) : (s.onEwen n f).now = s.now := rfl
@[simp] theorem State.onEwen_agenda (n : Nat) (f : Ewen → Ewen) : (s.onEwen n f).agenda = s.agenda := rfl
@[simp] theorem State.onEwen_posted (n : Nat) (f : Ewen → Ewen) : (s.onEwen n f).posted = s.posted := rfl
@[simp] theorem State.onEwen_free (n : Nat) (f : Ewen → Ewen) : (s.onEwen n f).free = s.free := rfl
@[simp] theorem State.onEwen_cur (n : Nat) (f : Ewen → Ewen) : (s.onEwen n f).cur = s.cur := rfl
@[simp] theorem State.onEwen_curUnit (n : Nat) (f : Ewen → Ewen) : (s.onEwen n f).curUnit = s.curUnit := rfl
@[simp] theorem State.onEwen_iss (n : Nat) (f : Ewen → Ewen) : (s.onEwen n f).iss = s.iss := rfl
@[simp] theorem State.onEwen_ended (n : Nat) (f : Ewen → Ewen) : (s.onEwen n f).ended = s.ended := rfl
@[simp] theorem State.onEwen_mem (n : Nat) (f : Ewen → Ewen) : (s.onEwen n f).mem = s.mem := rfl
@[simp] theorem State.onEwen_veils (n : Nat) (f : Ewen → Ewen) : (s.onEwen n f).veils = s.veils := rfl
@[simp] theorem State.onEwen_ecc (n : Nat) (f : Ewen → Ewen) : (s.onEwen n f).ecc = s.ecc := rfl
@[simp] theorem State.onEwen_padPoison (n : Nat) (f : Ewen → Ewen) : (s.onEwen n f).padPoison = s.padPoison := rfl
@[simp] theorem State.onEwen_padErr (n : Nat) (f : Ewen → Ewen) : (s.onEwen n f).padErr = s.padErr := rfl
@[simp] theorem State.onEwen_cores (n : Nat) (f : Ewen → Ewen) : (s.onEwen n f).cores = s.cores := rfl
@[simp] theorem State.onEwen_ops (n : Nat) (f : Ewen → Ewen) : (s.onEwen n f).ops = s.ops := rfl
@[simp] theorem State.onEwen_gens (n : Nat) (f : Ewen → Ewen) : (s.onEwen n f).gens = s.gens := rfl
@[simp] theorem State.onEwen_colls (n : Nat) (f : Ewen → Ewen) : (s.onEwen n f).colls = s.colls := rfl
@[simp] theorem State.onEwen_units (n : Nat) (f : Ewen → Ewen) : (s.onEwen n f).units = s.units := rfl
@[simp] theorem State.onEwen_groups (n : Nat) (f : Ewen → Ewen) : (s.onEwen n f).groups = s.groups := rfl
@[simp] theorem State.onEwen_launch (n : Nat) (f : Ewen → Ewen) : (s.onEwen n f).launch = s.launch := rfl
@[simp] theorem State.onEwen_ctxs (n : Nat) (f : Ewen → Ewen) : (s.onEwen n f).ctxs = s.ctxs := rfl
@[simp] theorem State.onEwen_dies (n : Nat) (f : Ewen → Ewen) : (s.onEwen n f).dies = s.dies := rfl
@[simp] theorem State.onEwen_circuits (n : Nat) (f : Ewen → Ewen) : (s.onEwen n f).circuits = s.circuits := rfl
@[simp] theorem State.onEwen_crown (n : Nat) (f : Ewen → Ewen) : (s.onEwen n f).crown = s.crown := rfl
@[simp] theorem State.onEwen_order (n : Nat) (f : Ewen → Ewen) : (s.onEwen n f).order = s.order := rfl
@[simp] theorem State.onEwen_core (n : Nat) (f : Ewen → Ewen) (k : Nat) : (s.onEwen n f).core k = s.core k := rfl
@[simp] theorem State.onEwen_die (n : Nat) (f : Ewen → Ewen) (k : Nat) : (s.onEwen n f).die k = s.die k := rfl
@[simp] theorem State.onEwen_context (n : Nat) (f : Ewen → Ewen) (k : Nat) : (s.onEwen n f).context k = s.context k := rfl
@[simp] theorem State.onEwen_unit (n : Nat) (f : Ewen → Ewen) (k : Nat) : (s.onEwen n f).unit k = s.unit k := rfl
@[simp] theorem State.onEwen_opFind (n : Nat) (f : Ewen → Ewen) (k : Nat) : (s.onEwen n f).op? k = s.op? k := rfl
@[simp] theorem State.onEwen_op (n : Nat) (f : Ewen → Ewen) (k : Nat) : (s.onEwen n f).op k = s.op k := rfl
@[simp] theorem State.onEwen_groupFind (n : Nat) (f : Ewen → Ewen) (k : Nat) : (s.onEwen n f).group? k = s.group? k := rfl
@[simp] theorem State.onEwen_launchQ (n : Nat) (f : Ewen → Ewen) (k : Nat) : (s.onEwen n f).launchQ k = s.launchQ k := rfl
@[simp] theorem State.onEwen_circuit (n : Nat) (f : Ewen → Ewen) (k l : Nat) : (s.onEwen n f).circuit k l = s.circuit k l := rfl

/-! `post` -/

@[simp] theorem State.post_now (n : Nat) (a : Act) : (s.post n a).now = s.now := rfl
@[simp] theorem State.post_agenda (n : Nat) (a : Act) : (s.post n a).agenda = s.agenda := rfl
@[simp] theorem State.post_free (n : Nat) (a : Act) : (s.post n a).free = s.free := rfl
@[simp] theorem State.post_cur (n : Nat) (a : Act) : (s.post n a).cur = s.cur := rfl
@[simp] theorem State.post_curUnit (n : Nat) (a : Act) : (s.post n a).curUnit = s.curUnit := rfl
@[simp] theorem State.post_iss (n : Nat) (a : Act) : (s.post n a).iss = s.iss := rfl
@[simp] theorem State.post_ended (n : Nat) (a : Act) : (s.post n a).ended = s.ended := rfl
@[simp] theorem State.post_mem (n : Nat) (a : Act) : (s.post n a).mem = s.mem := rfl
@[simp] theorem State.post_veils (n : Nat) (a : Act) : (s.post n a).veils = s.veils := rfl
@[simp] theorem State.post_ecc (n : Nat) (a : Act) : (s.post n a).ecc = s.ecc := rfl
@[simp] theorem State.post_padPoison (n : Nat) (a : Act) : (s.post n a).padPoison = s.padPoison := rfl
@[simp] theorem State.post_padErr (n : Nat) (a : Act) : (s.post n a).padErr = s.padErr := rfl
@[simp] theorem State.post_cores (n : Nat) (a : Act) : (s.post n a).cores = s.cores := rfl
@[simp] theorem State.post_ops (n : Nat) (a : Act) : (s.post n a).ops = s.ops := rfl
@[simp] theorem State.post_gens (n : Nat) (a : Act) : (s.post n a).gens = s.gens := rfl
@[simp] theorem State.post_colls (n : Nat) (a : Act) : (s.post n a).colls = s.colls := rfl
@[simp] theorem State.post_units (n : Nat) (a : Act) : (s.post n a).units = s.units := rfl
@[simp] theorem State.post_groups (n : Nat) (a : Act) : (s.post n a).groups = s.groups := rfl
@[simp] theorem State.post_launch (n : Nat) (a : Act) : (s.post n a).launch = s.launch := rfl
@[simp] theorem State.post_ctxs (n : Nat) (a : Act) : (s.post n a).ctxs = s.ctxs := rfl
@[simp] theorem State.post_dies (n : Nat) (a : Act) : (s.post n a).dies = s.dies := rfl
@[simp] theorem State.post_circuits (n : Nat) (a : Act) : (s.post n a).circuits = s.circuits := rfl
@[simp] theorem State.post_ewen (n : Nat) (a : Act) : (s.post n a).ewen = s.ewen := rfl
@[simp] theorem State.post_crown (n : Nat) (a : Act) : (s.post n a).crown = s.crown := rfl
@[simp] theorem State.post_order (n : Nat) (a : Act) : (s.post n a).order = s.order := rfl
@[simp] theorem State.post_core (n : Nat) (a : Act) (k : Nat) : (s.post n a).core k = s.core k := rfl
@[simp] theorem State.post_die (n : Nat) (a : Act) (k : Nat) : (s.post n a).die k = s.die k := rfl
@[simp] theorem State.post_context (n : Nat) (a : Act) (k : Nat) : (s.post n a).context k = s.context k := rfl
@[simp] theorem State.post_unit (n : Nat) (a : Act) (k : Nat) : (s.post n a).unit k = s.unit k := rfl
@[simp] theorem State.post_opFind (n : Nat) (a : Act) (k : Nat) : (s.post n a).op? k = s.op? k := rfl
@[simp] theorem State.post_op (n : Nat) (a : Act) (k : Nat) : (s.post n a).op k = s.op k := rfl
@[simp] theorem State.post_groupFind (n : Nat) (a : Act) (k : Nat) : (s.post n a).group? k = s.group? k := rfl
@[simp] theorem State.post_launchQ (n : Nat) (a : Act) (k : Nat) : (s.post n a).launchQ k = s.launchQ k := rfl
@[simp] theorem State.post_circuit (n : Nat) (a : Act) (k l : Nat) : (s.post n a).circuit k l = s.circuit k l := rfl
@[simp] theorem State.post_ewenPort (n : Nat) (a : Act) (k : Nat) : (s.post n a).ewenPort k = s.ewenPort k := rfl

/-! `postEv` -/

@[simp] theorem State.postEv_now (n : Nat) (i : Instr) : (s.postEv n i).now = s.now := rfl
@[simp] theorem State.postEv_agenda (n : Nat) (i : Instr) : (s.postEv n i).agenda = s.agenda := rfl
@[simp] theorem State.postEv_free (n : Nat) (i : Instr) : (s.postEv n i).free = s.free := rfl
@[simp] theorem State.postEv_cur (n : Nat) (i : Instr) : (s.postEv n i).cur = s.cur := rfl
@[simp] theorem State.postEv_curUnit (n : Nat) (i : Instr) : (s.postEv n i).curUnit = s.curUnit := rfl
@[simp] theorem State.postEv_iss (n : Nat) (i : Instr) : (s.postEv n i).iss = s.iss := rfl
@[simp] theorem State.postEv_ended (n : Nat) (i : Instr) : (s.postEv n i).ended = s.ended := rfl
@[simp] theorem State.postEv_mem (n : Nat) (i : Instr) : (s.postEv n i).mem = s.mem := rfl
@[simp] theorem State.postEv_veils (n : Nat) (i : Instr) : (s.postEv n i).veils = s.veils := rfl
@[simp] theorem State.postEv_ecc (n : Nat) (i : Instr) : (s.postEv n i).ecc = s.ecc := rfl
@[simp] theorem State.postEv_padPoison (n : Nat) (i : Instr) : (s.postEv n i).padPoison = s.padPoison := rfl
@[simp] theorem State.postEv_padErr (n : Nat) (i : Instr) : (s.postEv n i).padErr = s.padErr := rfl
@[simp] theorem State.postEv_cores (n : Nat) (i : Instr) : (s.postEv n i).cores = s.cores := rfl
@[simp] theorem State.postEv_ops (n : Nat) (i : Instr) : (s.postEv n i).ops = s.ops := rfl
@[simp] theorem State.postEv_gens (n : Nat) (i : Instr) : (s.postEv n i).gens = s.gens := rfl
@[simp] theorem State.postEv_colls (n : Nat) (i : Instr) : (s.postEv n i).colls = s.colls := rfl
@[simp] theorem State.postEv_units (n : Nat) (i : Instr) : (s.postEv n i).units = s.units := rfl
@[simp] theorem State.postEv_groups (n : Nat) (i : Instr) : (s.postEv n i).groups = s.groups := rfl
@[simp] theorem State.postEv_launch (n : Nat) (i : Instr) : (s.postEv n i).launch = s.launch := rfl
@[simp] theorem State.postEv_ctxs (n : Nat) (i : Instr) : (s.postEv n i).ctxs = s.ctxs := rfl
@[simp] theorem State.postEv_dies (n : Nat) (i : Instr) : (s.postEv n i).dies = s.dies := rfl
@[simp] theorem State.postEv_circuits (n : Nat) (i : Instr) : (s.postEv n i).circuits = s.circuits := rfl
@[simp] theorem State.postEv_ewen (n : Nat) (i : Instr) : (s.postEv n i).ewen = s.ewen := rfl
@[simp] theorem State.postEv_crown (n : Nat) (i : Instr) : (s.postEv n i).crown = s.crown := rfl
@[simp] theorem State.postEv_order (n : Nat) (i : Instr) : (s.postEv n i).order = s.order := rfl
@[simp] theorem State.postEv_core (n : Nat) (i : Instr) (k : Nat) : (s.postEv n i).core k = s.core k := rfl
@[simp] theorem State.postEv_die (n : Nat) (i : Instr) (k : Nat) : (s.postEv n i).die k = s.die k := rfl
@[simp] theorem State.postEv_context (n : Nat) (i : Instr) (k : Nat) : (s.postEv n i).context k = s.context k := rfl
@[simp] theorem State.postEv_unit (n : Nat) (i : Instr) (k : Nat) : (s.postEv n i).unit k = s.unit k := rfl
@[simp] theorem State.postEv_opFind (n : Nat) (i : Instr) (k : Nat) : (s.postEv n i).op? k = s.op? k := rfl
@[simp] theorem State.postEv_op (n : Nat) (i : Instr) (k : Nat) : (s.postEv n i).op k = s.op k := rfl
@[simp] theorem State.postEv_groupFind (n : Nat) (i : Instr) (k : Nat) : (s.postEv n i).group? k = s.group? k := rfl
@[simp] theorem State.postEv_launchQ (n : Nat) (i : Instr) (k : Nat) : (s.postEv n i).launchQ k = s.launchQ k := rfl
@[simp] theorem State.postEv_circuit (n : Nat) (i : Instr) (k l : Nat) : (s.postEv n i).circuit k l = s.circuit k l := rfl
@[simp] theorem State.postEv_ewenPort (n : Nat) (i : Instr) (k : Nat) : (s.postEv n i).ewenPort k = s.ewenPort k := rfl

/-! `spend` -/

@[simp] theorem State.spend_now : (s.spend).now = s.now := rfl
@[simp] theorem State.spend_agenda : (s.spend).agenda = s.agenda := rfl
@[simp] theorem State.spend_posted : (s.spend).posted = s.posted := rfl
@[simp] theorem State.spend_cur : (s.spend).cur = s.cur := rfl
@[simp] theorem State.spend_curUnit : (s.spend).curUnit = s.curUnit := rfl
@[simp] theorem State.spend_iss : (s.spend).iss = s.iss := rfl
@[simp] theorem State.spend_ended : (s.spend).ended = s.ended := rfl
@[simp] theorem State.spend_mem : (s.spend).mem = s.mem := rfl
@[simp] theorem State.spend_veils : (s.spend).veils = s.veils := rfl
@[simp] theorem State.spend_ecc : (s.spend).ecc = s.ecc := rfl
@[simp] theorem State.spend_padPoison : (s.spend).padPoison = s.padPoison := rfl
@[simp] theorem State.spend_padErr : (s.spend).padErr = s.padErr := rfl
@[simp] theorem State.spend_cores : (s.spend).cores = s.cores := rfl
@[simp] theorem State.spend_ops : (s.spend).ops = s.ops := rfl
@[simp] theorem State.spend_gens : (s.spend).gens = s.gens := rfl
@[simp] theorem State.spend_colls : (s.spend).colls = s.colls := rfl
@[simp] theorem State.spend_units : (s.spend).units = s.units := rfl
@[simp] theorem State.spend_groups : (s.spend).groups = s.groups := rfl
@[simp] theorem State.spend_launch : (s.spend).launch = s.launch := rfl
@[simp] theorem State.spend_ctxs : (s.spend).ctxs = s.ctxs := rfl
@[simp] theorem State.spend_dies : (s.spend).dies = s.dies := rfl
@[simp] theorem State.spend_circuits : (s.spend).circuits = s.circuits := rfl
@[simp] theorem State.spend_ewen : (s.spend).ewen = s.ewen := rfl
@[simp] theorem State.spend_crown : (s.spend).crown = s.crown := rfl
@[simp] theorem State.spend_order : (s.spend).order = s.order := rfl
@[simp] theorem State.spend_core (k : Nat) : (s.spend).core k = s.core k := rfl
@[simp] theorem State.spend_die (k : Nat) : (s.spend).die k = s.die k := rfl
@[simp] theorem State.spend_context (k : Nat) : (s.spend).context k = s.context k := rfl
@[simp] theorem State.spend_unit (k : Nat) : (s.spend).unit k = s.unit k := rfl
@[simp] theorem State.spend_opFind (k : Nat) : (s.spend).op? k = s.op? k := rfl
@[simp] theorem State.spend_op (k : Nat) : (s.spend).op k = s.op k := rfl
@[simp] theorem State.spend_groupFind (k : Nat) : (s.spend).group? k = s.group? k := rfl
@[simp] theorem State.spend_launchQ (k : Nat) : (s.spend).launchQ k = s.launchQ k := rfl
@[simp] theorem State.spend_circuit (k l : Nat) : (s.spend).circuit k l = s.circuit k l := rfl
@[simp] theorem State.spend_ewenPort (k : Nat) : (s.spend).ewenPort k = s.ewenPort k := rfl

/-! `postFree` -/

@[simp] theorem State.postFree_now (n : Nat) (i : Instr) : (s.postFree n i).now = s.now := rfl
@[simp] theorem State.postFree_agenda (n : Nat) (i : Instr) : (s.postFree n i).agenda = s.agenda := rfl
@[simp] theorem State.postFree_cur (n : Nat) (i : Instr) : (s.postFree n i).cur = s.cur := rfl
@[simp] theorem State.postFree_curUnit (n : Nat) (i : Instr) : (s.postFree n i).curUnit = s.curUnit := rfl
@[simp] theorem State.postFree_iss (n : Nat) (i : Instr) : (s.postFree n i).iss = s.iss := rfl
@[simp] theorem State.postFree_ended (n : Nat) (i : Instr) : (s.postFree n i).ended = s.ended := rfl
@[simp] theorem State.postFree_mem (n : Nat) (i : Instr) : (s.postFree n i).mem = s.mem := rfl
@[simp] theorem State.postFree_veils (n : Nat) (i : Instr) : (s.postFree n i).veils = s.veils := rfl
@[simp] theorem State.postFree_ecc (n : Nat) (i : Instr) : (s.postFree n i).ecc = s.ecc := rfl
@[simp] theorem State.postFree_padPoison (n : Nat) (i : Instr) : (s.postFree n i).padPoison = s.padPoison := rfl
@[simp] theorem State.postFree_padErr (n : Nat) (i : Instr) : (s.postFree n i).padErr = s.padErr := rfl
@[simp] theorem State.postFree_cores (n : Nat) (i : Instr) : (s.postFree n i).cores = s.cores := rfl
@[simp] theorem State.postFree_ops (n : Nat) (i : Instr) : (s.postFree n i).ops = s.ops := rfl
@[simp] theorem State.postFree_gens (n : Nat) (i : Instr) : (s.postFree n i).gens = s.gens := rfl
@[simp] theorem State.postFree_colls (n : Nat) (i : Instr) : (s.postFree n i).colls = s.colls := rfl
@[simp] theorem State.postFree_units (n : Nat) (i : Instr) : (s.postFree n i).units = s.units := rfl
@[simp] theorem State.postFree_groups (n : Nat) (i : Instr) : (s.postFree n i).groups = s.groups := rfl
@[simp] theorem State.postFree_launch (n : Nat) (i : Instr) : (s.postFree n i).launch = s.launch := rfl
@[simp] theorem State.postFree_ctxs (n : Nat) (i : Instr) : (s.postFree n i).ctxs = s.ctxs := rfl
@[simp] theorem State.postFree_dies (n : Nat) (i : Instr) : (s.postFree n i).dies = s.dies := rfl
@[simp] theorem State.postFree_circuits (n : Nat) (i : Instr) : (s.postFree n i).circuits = s.circuits := rfl
@[simp] theorem State.postFree_ewen (n : Nat) (i : Instr) : (s.postFree n i).ewen = s.ewen := rfl
@[simp] theorem State.postFree_crown (n : Nat) (i : Instr) : (s.postFree n i).crown = s.crown := rfl
@[simp] theorem State.postFree_order (n : Nat) (i : Instr) : (s.postFree n i).order = s.order := rfl
@[simp] theorem State.postFree_core (n : Nat) (i : Instr) (k : Nat) : (s.postFree n i).core k = s.core k := rfl
@[simp] theorem State.postFree_die (n : Nat) (i : Instr) (k : Nat) : (s.postFree n i).die k = s.die k := rfl
@[simp] theorem State.postFree_context (n : Nat) (i : Instr) (k : Nat) : (s.postFree n i).context k = s.context k := rfl
@[simp] theorem State.postFree_unit (n : Nat) (i : Instr) (k : Nat) : (s.postFree n i).unit k = s.unit k := rfl
@[simp] theorem State.postFree_opFind (n : Nat) (i : Instr) (k : Nat) : (s.postFree n i).op? k = s.op? k := rfl
@[simp] theorem State.postFree_op (n : Nat) (i : Instr) (k : Nat) : (s.postFree n i).op k = s.op k := rfl
@[simp] theorem State.postFree_groupFind (n : Nat) (i : Instr) (k : Nat) : (s.postFree n i).group? k = s.group? k := rfl
@[simp] theorem State.postFree_launchQ (n : Nat) (i : Instr) (k : Nat) : (s.postFree n i).launchQ k = s.launchQ k := rfl
@[simp] theorem State.postFree_circuit (n : Nat) (i : Instr) (k l : Nat) : (s.postFree n i).circuit k l = s.circuit k l := rfl
@[simp] theorem State.postFree_ewenPort (n : Nat) (i : Instr) (k : Nat) : (s.postFree n i).ewenPort k = s.ewenPort k := rfl

/-! `onOp` -/

@[simp] theorem State.onOp_now (n : Nat) (f : Op → Op) : (s.onOp n f).now = s.now := by unfold State.onOp; split <;> rfl
@[simp] theorem State.onOp_agenda (n : Nat) (f : Op → Op) : (s.onOp n f).agenda = s.agenda := by unfold State.onOp; split <;> rfl
@[simp] theorem State.onOp_posted (n : Nat) (f : Op → Op) : (s.onOp n f).posted = s.posted := by unfold State.onOp; split <;> rfl
@[simp] theorem State.onOp_free (n : Nat) (f : Op → Op) : (s.onOp n f).free = s.free := by unfold State.onOp; split <;> rfl
@[simp] theorem State.onOp_cur (n : Nat) (f : Op → Op) : (s.onOp n f).cur = s.cur := by unfold State.onOp; split <;> rfl
@[simp] theorem State.onOp_curUnit (n : Nat) (f : Op → Op) : (s.onOp n f).curUnit = s.curUnit := by unfold State.onOp; split <;> rfl
@[simp] theorem State.onOp_iss (n : Nat) (f : Op → Op) : (s.onOp n f).iss = s.iss := by unfold State.onOp; split <;> rfl
@[simp] theorem State.onOp_ended (n : Nat) (f : Op → Op) : (s.onOp n f).ended = s.ended := by unfold State.onOp; split <;> rfl
@[simp] theorem State.onOp_mem (n : Nat) (f : Op → Op) : (s.onOp n f).mem = s.mem := by unfold State.onOp; split <;> rfl
@[simp] theorem State.onOp_veils (n : Nat) (f : Op → Op) : (s.onOp n f).veils = s.veils := by unfold State.onOp; split <;> rfl
@[simp] theorem State.onOp_ecc (n : Nat) (f : Op → Op) : (s.onOp n f).ecc = s.ecc := by unfold State.onOp; split <;> rfl
@[simp] theorem State.onOp_padPoison (n : Nat) (f : Op → Op) : (s.onOp n f).padPoison = s.padPoison := by unfold State.onOp; split <;> rfl
@[simp] theorem State.onOp_padErr (n : Nat) (f : Op → Op) : (s.onOp n f).padErr = s.padErr := by unfold State.onOp; split <;> rfl
@[simp] theorem State.onOp_cores (n : Nat) (f : Op → Op) : (s.onOp n f).cores = s.cores := by unfold State.onOp; split <;> rfl
@[simp] theorem State.onOp_gens (n : Nat) (f : Op → Op) : (s.onOp n f).gens = s.gens := by unfold State.onOp; split <;> rfl
@[simp] theorem State.onOp_colls (n : Nat) (f : Op → Op) : (s.onOp n f).colls = s.colls := by unfold State.onOp; split <;> rfl
@[simp] theorem State.onOp_units (n : Nat) (f : Op → Op) : (s.onOp n f).units = s.units := by unfold State.onOp; split <;> rfl
@[simp] theorem State.onOp_groups (n : Nat) (f : Op → Op) : (s.onOp n f).groups = s.groups := by unfold State.onOp; split <;> rfl
@[simp] theorem State.onOp_launch (n : Nat) (f : Op → Op) : (s.onOp n f).launch = s.launch := by unfold State.onOp; split <;> rfl
@[simp] theorem State.onOp_ctxs (n : Nat) (f : Op → Op) : (s.onOp n f).ctxs = s.ctxs := by unfold State.onOp; split <;> rfl
@[simp] theorem State.onOp_dies (n : Nat) (f : Op → Op) : (s.onOp n f).dies = s.dies := by unfold State.onOp; split <;> rfl
@[simp] theorem State.onOp_circuits (n : Nat) (f : Op → Op) : (s.onOp n f).circuits = s.circuits := by unfold State.onOp; split <;> rfl
@[simp] theorem State.onOp_ewen (n : Nat) (f : Op → Op) : (s.onOp n f).ewen = s.ewen := by unfold State.onOp; split <;> rfl
@[simp] theorem State.onOp_crown (n : Nat) (f : Op → Op) : (s.onOp n f).crown = s.crown := by unfold State.onOp; split <;> rfl
@[simp] theorem State.onOp_order (n : Nat) (f : Op → Op) : (s.onOp n f).order = s.order := by unfold State.onOp; split <;> rfl
@[simp] theorem State.onOp_core (n : Nat) (f : Op → Op) (k : Nat) : (s.onOp n f).core k = s.core k := by unfold State.onOp; split <;> rfl
@[simp] theorem State.onOp_die (n : Nat) (f : Op → Op) (k : Nat) : (s.onOp n f).die k = s.die k := by unfold State.onOp; split <;> rfl
@[simp] theorem State.onOp_context (n : Nat) (f : Op → Op) (k : Nat) : (s.onOp n f).context k = s.context k := by unfold State.onOp; split <;> rfl
@[simp] theorem State.onOp_unit (n : Nat) (f : Op → Op) (k : Nat) : (s.onOp n f).unit k = s.unit k := by unfold State.onOp; split <;> rfl
@[simp] theorem State.onOp_groupFind (n : Nat) (f : Op → Op) (k : Nat) : (s.onOp n f).group? k = s.group? k := by unfold State.onOp; split <;> rfl
@[simp] theorem State.onOp_launchQ (n : Nat) (f : Op → Op) (k : Nat) : (s.onOp n f).launchQ k = s.launchQ k := by unfold State.onOp; split <;> rfl
@[simp] theorem State.onOp_circuit (n : Nat) (f : Op → Op) (k l : Nat) : (s.onOp n f).circuit k l = s.circuit k l := by unfold State.onOp; split <;> rfl
@[simp] theorem State.onOp_ewenPort (n : Nat) (f : Op → Op) (k : Nat) : (s.onOp n f).ewenPort k = s.ewenPort k := by unfold State.onOp; split <;> rfl

/-! `onGroup` -/

@[simp] theorem State.onGroup_now (n : Nat) (f : Group → Group) : (s.onGroup n f).now = s.now := by unfold State.onGroup; split <;> rfl
@[simp] theorem State.onGroup_agenda (n : Nat) (f : Group → Group) : (s.onGroup n f).agenda = s.agenda := by unfold State.onGroup; split <;> rfl
@[simp] theorem State.onGroup_posted (n : Nat) (f : Group → Group) : (s.onGroup n f).posted = s.posted := by unfold State.onGroup; split <;> rfl
@[simp] theorem State.onGroup_free (n : Nat) (f : Group → Group) : (s.onGroup n f).free = s.free := by unfold State.onGroup; split <;> rfl
@[simp] theorem State.onGroup_cur (n : Nat) (f : Group → Group) : (s.onGroup n f).cur = s.cur := by unfold State.onGroup; split <;> rfl
@[simp] theorem State.onGroup_curUnit (n : Nat) (f : Group → Group) : (s.onGroup n f).curUnit = s.curUnit := by unfold State.onGroup; split <;> rfl
@[simp] theorem State.onGroup_iss (n : Nat) (f : Group → Group) : (s.onGroup n f).iss = s.iss := by unfold State.onGroup; split <;> rfl
@[simp] theorem State.onGroup_ended (n : Nat) (f : Group → Group) : (s.onGroup n f).ended = s.ended := by unfold State.onGroup; split <;> rfl
@[simp] theorem State.onGroup_mem (n : Nat) (f : Group → Group) : (s.onGroup n f).mem = s.mem := by unfold State.onGroup; split <;> rfl
@[simp] theorem State.onGroup_veils (n : Nat) (f : Group → Group) : (s.onGroup n f).veils = s.veils := by unfold State.onGroup; split <;> rfl
@[simp] theorem State.onGroup_ecc (n : Nat) (f : Group → Group) : (s.onGroup n f).ecc = s.ecc := by unfold State.onGroup; split <;> rfl
@[simp] theorem State.onGroup_padPoison (n : Nat) (f : Group → Group) : (s.onGroup n f).padPoison = s.padPoison := by unfold State.onGroup; split <;> rfl
@[simp] theorem State.onGroup_padErr (n : Nat) (f : Group → Group) : (s.onGroup n f).padErr = s.padErr := by unfold State.onGroup; split <;> rfl
@[simp] theorem State.onGroup_cores (n : Nat) (f : Group → Group) : (s.onGroup n f).cores = s.cores := by unfold State.onGroup; split <;> rfl
@[simp] theorem State.onGroup_ops (n : Nat) (f : Group → Group) : (s.onGroup n f).ops = s.ops := by unfold State.onGroup; split <;> rfl
@[simp] theorem State.onGroup_gens (n : Nat) (f : Group → Group) : (s.onGroup n f).gens = s.gens := by unfold State.onGroup; split <;> rfl
@[simp] theorem State.onGroup_colls (n : Nat) (f : Group → Group) : (s.onGroup n f).colls = s.colls := by unfold State.onGroup; split <;> rfl
@[simp] theorem State.onGroup_units (n : Nat) (f : Group → Group) : (s.onGroup n f).units = s.units := by unfold State.onGroup; split <;> rfl
@[simp] theorem State.onGroup_launch (n : Nat) (f : Group → Group) : (s.onGroup n f).launch = s.launch := by unfold State.onGroup; split <;> rfl
@[simp] theorem State.onGroup_ctxs (n : Nat) (f : Group → Group) : (s.onGroup n f).ctxs = s.ctxs := by unfold State.onGroup; split <;> rfl
@[simp] theorem State.onGroup_dies (n : Nat) (f : Group → Group) : (s.onGroup n f).dies = s.dies := by unfold State.onGroup; split <;> rfl
@[simp] theorem State.onGroup_circuits (n : Nat) (f : Group → Group) : (s.onGroup n f).circuits = s.circuits := by unfold State.onGroup; split <;> rfl
@[simp] theorem State.onGroup_ewen (n : Nat) (f : Group → Group) : (s.onGroup n f).ewen = s.ewen := by unfold State.onGroup; split <;> rfl
@[simp] theorem State.onGroup_crown (n : Nat) (f : Group → Group) : (s.onGroup n f).crown = s.crown := by unfold State.onGroup; split <;> rfl
@[simp] theorem State.onGroup_order (n : Nat) (f : Group → Group) : (s.onGroup n f).order = s.order := by unfold State.onGroup; split <;> rfl
@[simp] theorem State.onGroup_core (n : Nat) (f : Group → Group) (k : Nat) : (s.onGroup n f).core k = s.core k := by unfold State.onGroup; split <;> rfl
@[simp] theorem State.onGroup_die (n : Nat) (f : Group → Group) (k : Nat) : (s.onGroup n f).die k = s.die k := by unfold State.onGroup; split <;> rfl
@[simp] theorem State.onGroup_context (n : Nat) (f : Group → Group) (k : Nat) : (s.onGroup n f).context k = s.context k := by unfold State.onGroup; split <;> rfl
@[simp] theorem State.onGroup_unit (n : Nat) (f : Group → Group) (k : Nat) : (s.onGroup n f).unit k = s.unit k := by unfold State.onGroup; split <;> rfl
@[simp] theorem State.onGroup_opFind (n : Nat) (f : Group → Group) (k : Nat) : (s.onGroup n f).op? k = s.op? k := by unfold State.onGroup; split <;> rfl
@[simp] theorem State.onGroup_op (n : Nat) (f : Group → Group) (k : Nat) : (s.onGroup n f).op k = s.op k := by unfold State.onGroup; split <;> rfl
@[simp] theorem State.onGroup_launchQ (n : Nat) (f : Group → Group) (k : Nat) : (s.onGroup n f).launchQ k = s.launchQ k := by unfold State.onGroup; split <;> rfl
@[simp] theorem State.onGroup_circuit (n : Nat) (f : Group → Group) (k l : Nat) : (s.onGroup n f).circuit k l = s.circuit k l := by unfold State.onGroup; split <;> rfl
@[simp] theorem State.onGroup_ewenPort (n : Nat) (f : Group → Group) (k : Nat) : (s.onGroup n f).ewenPort k = s.ewenPort k := by unfold State.onGroup; split <;> rfl

/-! ### What an update changes -/

@[simp] theorem State.core_setCore_self (n : Nat) (c : Core) : (s.setCore n c).core n = c := by simp [State.core, State.setCore]
theorem State.core_setCore_ne (n k : Nat) (c : Core) (h : k ≠ n) : (s.setCore n c).core k = s.core k := by
  simp [State.core, State.setCore, NMap.get_set_ne, h]
@[simp] theorem State.core_onCore_self (n : Nat) (f : Core → Core) : (s.onCore n f).core n = f (s.core n) := by simp [State.onCore]
theorem State.core_onCore_ne (n k : Nat) (f : Core → Core) (h : k ≠ n) : (s.onCore n f).core k = s.core k := by
  simp [State.onCore, State.core_setCore_ne, h]
@[simp] theorem State.core_onTask_self (n : Nat) (f : TaskSt → TaskSt) :
    (s.onTask n f).core n = { s.core n with t := f (s.core n).t } := by simp [State.onTask]
theorem State.core_onTask_ne (n k : Nat) (f : TaskSt → TaskSt) (h : k ≠ n) : (s.onTask n f).core k = s.core k := by
  simp [State.onTask, State.core_onCore_ne, h]
@[simp] theorem State.core_onCtxSt_self (n : Nat) (f : CtxSt → CtxSt) :
    (s.onCtxSt n f).core n = { s.core n with c := f (s.core n).c } := by simp [State.onCtxSt]
theorem State.core_onCtxSt_ne (n k : Nat) (f : CtxSt → CtxSt) (h : k ≠ n) : (s.onCtxSt n f).core k = s.core k := by
  simp [State.onCtxSt, State.core_onCore_ne, h]
/-- Two changes of one core are one. -/
theorem State.onCore_onCore (n : Nat) (f g : Core → Core) : (s.onCore n f).onCore n g = s.onCore n (fun c => g (f c)) := by
  unfold State.onCore
  rw [State.core_setCore_self]
  simp [State.setCore]
theorem State.onTask_onTask (n : Nat) (f g : TaskSt → TaskSt) : (s.onTask n f).onTask n g = s.onTask n (fun t => g (f t)) :=
  State.onCore_onCore s n _ _
@[simp] theorem State.die_onDie_self (n : Nat) (f : Die → Die) : (s.onDie n f).die n = f (s.die n) := by simp [State.die, State.onDie]
theorem State.die_onDie_ne (n k : Nat) (f : Die → Die) (h : k ≠ n) : (s.onDie n f).die k = s.die k := by
  simp [State.die, State.onDie, NMap.get_set_ne, h]
@[simp] theorem State.context_onContext_self (n : Nat) (f : Context → Context) :
    (s.onContext n f).context n = f (s.context n) := by simp [State.context, State.onContext]
theorem State.context_onContext_ne (n k : Nat) (f : Context → Context) (h : k ≠ n) : (s.onContext n f).context k = s.context k := by
  simp [State.context, State.onContext, NMap.get_set_ne, h]
@[simp] theorem State.unit_onUnit_self (n : Nat) (f : BankUnit → BankUnit) : (s.onUnit n f).unit n = f (s.unit n) := by
  simp [State.unit, State.onUnit]
theorem State.unit_onUnit_ne (n k : Nat) (f : BankUnit → BankUnit) (h : k ≠ n) : (s.onUnit n f).unit k = s.unit k := by
  simp [State.unit, State.onUnit, NMap.get_set_ne, h]
@[simp] theorem State.launchQ_onLaunch_self (n : Nat) (f : LaunchQ → LaunchQ) : (s.onLaunch n f).launchQ n = f (s.launchQ n) := by
  simp [State.launchQ, State.onLaunch]
theorem State.launchQ_onLaunch_ne (n k : Nat) (f : LaunchQ → LaunchQ) (h : k ≠ n) : (s.onLaunch n f).launchQ k = s.launchQ k := by
  simp [State.launchQ, State.onLaunch, NMap.get_set_ne, h]
@[simp] theorem State.circuit_onCircuit_self (a b : Nat) (f : Circuit → Circuit) :
    (s.onCircuit a b f).circuit a b = f (s.circuit a b) := by simp [State.circuit, State.onCircuit]
@[simp] theorem State.ewenPort_onEwen_self (n : Nat) (f : Ewen → Ewen) : (s.onEwen n f).ewenPort n = f (s.ewenPort n) := by
  simp [State.ewenPort, State.onEwen]
theorem State.ewenPort_onEwen_ne (n k : Nat) (f : Ewen → Ewen) (h : k ≠ n) : (s.onEwen n f).ewenPort k = s.ewenPort k := by
  simp [State.ewenPort, State.onEwen, NMap.get_set_ne, h]
theorem State.op_onOp_self (n : Nat) (f : Op → Op) (o : Op) (h : s.op? n = some o) : (s.onOp n f).op? n = some (f o) := by
  unfold State.onOp; rw [h]; simp [State.op?]
theorem State.op_onOp_ne (n k : Nat) (f : Op → Op) (h : k ≠ n) : (s.onOp n f).op? k = s.op? k := by
  unfold State.onOp; split
  · simp [State.op?, NMap.find_set_ne, h]
  · rfl
theorem State.group_onGroup_self (n : Nat) (f : Group → Group) (g : Group) (h : s.group? n = some g) :
    (s.onGroup n f).group? n = some (f g) := by unfold State.onGroup; rw [h]; simp [State.group?]
theorem State.group_onGroup_ne (n k : Nat) (f : Group → Group) (h : k ≠ n) : (s.onGroup n f).group? k = s.group? k := by
  unfold State.onGroup; split
  · simp [State.group?, NMap.find_set_ne, h]
  · rfl
@[simp] theorem State.post_posted (n : Nat) (a : Act) : (s.post n a).posted = s.posted ++ [{ due := max n s.now, act := a }] := rfl
@[simp] theorem State.postEv_posted (n : Nat) (i : Instr) : (s.postEv n i).posted = s.posted ++ [{ due := max n s.now, act := .ev i }] := rfl
@[simp] theorem State.spend_free : s.spend.free = s.free + 1 := rfl
@[simp] theorem State.postFree_free (n : Nat) (i : Instr) : (s.postFree n i).free = s.free + 1 := rfl
@[simp] theorem State.postFree_posted (n : Nat) (i : Instr) :
    (s.postFree n i).posted = s.posted ++ [{ due := max (s.now + s.delay n) s.now, act := .ev i }] := rfl

end Sys2Proof.Machine
end

