-- ==== Sys2Proof/Laws/Bays.lean ====
section
/-!
SUPPORT. What the shared operations of a bay can do: its reads of queue slots and its pops, and its one write of a result.
-/

namespace Sys2Proof.Machine

/-! ### What the reads and the pops of a bay do -/

/-- What a bay's reads and pops may change: queues of the executing core, late faults of its task and the cycle its data is there,
corrected errors and what is posted. -/
def bayReads (s t : State) : Prop :=
  (∃ po di pe co, t = { s with posted := po, dies := di, padErr := pe, cores := co })
    ∧ (∀ d, ∃ n, t.die d = { s.die d with cecnt := n })
    ∧ (∀ n, n ≠ s.cur → t.core n = s.core n)
    ∧ ∃ la da q, t.core s.cur = { s.core s.cur with t := { (s.core s.cur).t with late := la, dataAt := da }, c := { (s.core s.cur).c with q := q } }
      ∧ ∀ k, ∃ h, NMap.get {} q k = { NMap.get {} (s.core s.cur).c.q k with head := h }

theorem bayReads.refl (s : State) : bayReads s s :=
  ⟨⟨_, _, _, _, rfl⟩, fun _ => ⟨_, rfl⟩, fun _ _ => rfl, _, _, _, rfl, fun _ => ⟨_, rfl⟩⟩

theorem bayReads.trans {s t u : State} (h : bayReads s t) (k : bayReads t u) : bayReads s u := by
  obtain ⟨⟨po, di, pe, co, rfl⟩, h1, h2, la, da, q, h3, h4⟩ := h
  obtain ⟨⟨po', di', pe', co', rfl⟩, k1, k2, la', da', q', k3, k4⟩ := k
  refine ⟨⟨_, _, _, _, rfl⟩, fun d => ?_, fun n hn => (k2 n hn).trans (h2 n hn), la', da', q', ?_, fun n => ?_⟩
  · obtain ⟨a, ha⟩ := h1 d
    obtain ⟨b, hb⟩ := k1 d
    exact ⟨b, by rw [hb, ha]⟩
  · rw [k3, h3]
  · obtain ⟨a, ha⟩ := h4 n
    obtain ⟨b, hb⟩ := k4 n
    rw [h3] at hb
    exact ⟨b, by rw [hb]; simp only; rw [ha]⟩

theorem bayReads.foldl {α : Type} (f : State → α → State) (h : ∀ s x, bayReads s (f s x)) (l : List α) (s : State) :
    bayReads s (l.foldl f s) := by
  induction l generalizing s with
  | nil => exact bayReads.refl s
  | cons x l ih => exact (h s x).trans (ih _)

theorem bayReads.task (s : State) (f : TaskSt → List (Nat × Nat × Nat × Nat)) (g : TaskSt → Nat) :
    bayReads s (s.onTask s.cur (fun t => { t with late := f t, dataAt := g t })) :=
  ⟨⟨_, _, _, _, rfl⟩, fun _ => ⟨_, rfl⟩, fun n hn => State.core_onTask_ne s _ _ _ hn, f (s.core s.cur).t, g (s.core s.cur).t,
    (s.core s.cur).c.q, by simp, fun _ => ⟨_, rfl⟩⟩

theorem bayReads.posts (s : State) (c : Nat) (a : Act) : bayReads s (s.post c a) :=
  ⟨⟨_, _, _, _, rfl⟩, fun _ => ⟨_, rfl⟩, fun _ _ => rfl, _, _, _, rfl, fun _ => ⟨_, rfl⟩⟩

theorem bayReads.corrected (s : State) (m : NMap Nat) (d : Nat) : bayReads s ({ s with padErr := m }.countCorrected d) := by
  refine ⟨⟨_, _, _, _, rfl⟩, fun n => ?_, fun _ _ => rfl, _, _, _, rfl, fun _ => ⟨_, rfl⟩⟩
  by_cases h : n = d
  · subst h
    exact ⟨min ((s.die n).cecnt + 1) (2 ^ 32 - 1), by rw [State.countCorrected, State.die_onDie_self]; rfl⟩
  · exact ⟨(s.die n).cecnt, by rw [State.countCorrected, State.die_onDie_ne _ _ _ _ h]; rfl⟩

theorem bayReads.padScrub (s : State) (c x n : Nat) : bayReads s (s.padScrub c x n) := by
  unfold State.padScrub
  apply bayReads.foldl
  intro s i
  dsimp only
  split
  · exact bayReads.corrected s _ _
  · exact bayReads.refl s

theorem bayReads.cur_eq {s t : State} (h : bayReads s t) : t.cur = s.cur := by
  obtain ⟨⟨_, _, _, _, rfl⟩, _⟩ := h; rfl

theorem bayReads.now_eq {s t : State} (h : bayReads s t) : t.now = s.now := by
  obtain ⟨⟨_, _, _, _, rfl⟩, _⟩ := h; rfl

theorem bayReads.bayRead (s : State) (x n r : Nat) : bayReads s (s.bayRead x n r) := by
  unfold State.bayRead
  have h := bayReads.padScrub s s.cur x n
  have h1 := h.trans (h.cur_eq ▸ bayReads.task (s.padScrub s.cur x n) (fun t => t.late) (fun t => max t.dataAt r))
  dsimp only
  split
  · have h2 := bayReads.task ((s.padScrub s.cur x n).onTask s.cur (fun t => { t with late := t.late, dataAt := max t.dataAt r }))
      (fun t => t.late ++ [(r, Code.memUncorrectable, s.iss.bundle, x)]) (fun t => t.dataAt)
    rw [h1.cur_eq] at h2
    have hb : (s.padScrub s.cur x n).iss.bundle = s.iss.bundle := by obtain ⟨⟨_, _, _, _, e⟩, _⟩ := h; rw [e]
    rw [State.onTask_cur, h.cur_eq, State.onTask_iss, hb]
    exact (h1.trans h2).trans (bayReads.posts _ _ _)
  · exact h1

theorem bayReads.readSlots (s : State) (us : List Use) (lat : Nat := 1) : bayReads s (s.readSlots us lat) := by
  unfold State.readSlots
  apply bayReads.foldl
  intro s u
  cases u.chan with
  | none => exact bayReads.refl s
  | some c =>
    obtain ⟨q, o, _⟩ := c
    cases u <;> dsimp only <;> split
    all_goals first
      | exact bayReads.padScrub s _ _ _
      | exact bayReads.bayRead s _ _ _

theorem bayReads.popTo (s : State) (q h : Nat) : bayReads s (s.popTo s.cur q h) := by
  refine ⟨⟨_, _, _, _, rfl⟩, fun _ => ⟨_, rfl⟩, fun n hn => ?_, (s.core s.cur).t.late, (s.core s.cur).t.dataAt,
    NMap.set (s.core s.cur).c.q q { NMap.get {} (s.core s.cur).c.q q with head := ctr h }, ?_, fun k => ?_⟩
  · simp [State.popTo, State.onQueue, State.core_onCtxSt_ne _ _ _ _ hn]
  · simp [State.popTo, State.onQueue]
  · by_cases hk : k = q
    · subst hk; exact ⟨ctr h, by simp⟩
    · exact ⟨(NMap.get {} (s.core s.cur).c.q k).head, by rw [NMap.get_set_ne _ _ _ _ _ hk]⟩

theorem bayReads.pops (s : State) (us : List Use) : bayReads s (popAll s us) := by
  unfold popAll
  apply bayReads.foldl
  intro s q
  exact bayReads.popTo s q _

/-- What the reads and the pops of a bay do together. -/
theorem bayReads.bay (s : State) (us : List Use) (lat : Nat := 1) : bayReads s (popAll (s.readSlots us lat) us) :=
  (bayReads.readSlots s us lat).trans (bayReads.pops _ us)

/-! ### Channels -/

theorem srcFault_none {s : State} {o : Opd} (h : s.canRead o) : srcFault s.iss.pre s.now (.s o) = none ∧ srcFault s.iss.pre s.now (.v o) = none := by
  cases o <;> try exact ⟨rfl, rfl⟩
  all_goals
    obtain ⟨h1, h2, h3⟩ := h
    simp only [srcFault, Use.chan, h1, Bool.not_true, Bool.false_eq_true, if_false, Nat.not_le.mpr h2]
    constructor <;> (split <;> simp_all)

theorem dstFault_none {s : State} {d : Opd} (h : s.canWrite d) : dstFault s.iss.pre (.s d) = none ∧ dstFault s.iss.pre (.v d) = none := by
  cases d <;> try exact ⟨rfl, rfl⟩
  rename_i q
  have h' : (NMap.get {} s.iss.pre.c.q q.toNat).st.mayAppend = true := h
  have hl : ((NMap.get {} s.iss.pre.c.q q.toNat).st == .lost) = false := by
    cases hst : (NMap.get {} s.iss.pre.c.q q.toNat).st <;> simp_all [QState.mayAppend]
  simp [dstFault, Def.app, hl, h']

/-- A bay whose channels may be read and written has no channel fault. -/
theorem chanFault_none {s : State} {us : List Use} {ds : List Def}
    (hu : ∀ u ∈ us, ∃ o : Opd, s.canRead o ∧ (u = .s o ∨ u = .v o)) (hd : ∀ d ∈ ds, ∃ o : Opd, s.canWrite o ∧ (d = .s o ∨ d = .v o)) :
    chanFault s.iss.pre s.now us ds = none := by
  have h1 : us.findSome? (srcFault s.iss.pre s.now) = none := by
    rw [List.findSome?_eq_none_iff]
    intro u h
    obtain ⟨o, ho, rfl | rfl⟩ := hu u h
    · exact (srcFault_none ho).1
    · exact (srcFault_none ho).2
  have h2 : ds.findSome? (dstFault s.iss.pre) = none := by
    rw [List.findSome?_eq_none_iff]
    intro d h
    obtain ⟨o, ho, rfl | rfl⟩ := hd d h
    · exact (dstFault_none ho).1
    · exact (dstFault_none ho).2
  simp [chanFault, h1, h2]

/-- A bay without a channel fault has its effect. -/
theorem bayOp_next {s : State} {us : List Use} {ds : List Def} (eff : State → State)
    (h : chanFault s.iss.pre s.now us ds = none) : bayOp s us ds eff = .next (eff (popAll (s.readSlots us) us)) := by
  simp [bayOp, issueBay, h]

/-- A bay without a channel fault and without a fault of its own has its effect. -/
theorem bayOpF_next {s : State} {us : List Use} {ds : List Def} (f : Option IssueFault) (eff : State → State) (lat : Nat := 1)
    (h : chanFault s.iss.pre s.now us ds = none) (hf : f = none) :
    bayOpF s us ds f eff lat = .next (eff (popAll (s.readSlots us lat) us)) := by
  simp [bayOpF, issueBay, h, hf]

end Sys2Proof.Machine
end

