-- ==== Sys2Proof/Laws/Results.lean ====
section
/-!
SUPPORT. What a result written to a register changes, and what a bay that reads its sources and writes registers leaves alone.
-/

namespace Sys2Proof.Machine

/-! ### One register of a task -/

theorem TaskSt.onlyRegs.trans {t u v : TaskSt} (h : t.onlyRegs u) (k : u.onlyRegs v) : t.onlyRegs v := by
  obtain ⟨_, _, _, _, _, _, _, _, _, _, _, _, _, _, rfl⟩ := h
  obtain ⟨_, _, _, _, _, _, _, _, _, _, _, _, _, _, rfl⟩ := k
  exact ⟨_, _, _, _, _, _, _, _, _, _, _, _, _, _, rfl⟩

theorem TaskSt.onlyRegs.late (t : TaskSt) (l : List (Nat × Nat × Nat × Nat)) (d : Nat) : t.onlyRegs { t with late := l, dataAt := d } :=
  ⟨_, _, _, _, _, _, _, _, _, _, _, _, _, _, rfl⟩

theorem TaskSt.scalar_putScalar_self (t : TaskSt) (k c : Nat) (x : Word) (h : k ≤ RegKey.yb) : (t.putScalar k x c).scalar k = x := by
  have h : k ≤ 73 := h
  simp only [TaskSt.putScalar, TaskSt.setReady, TaskSt.setScalar, TaskSt.scalar]
  by_cases h1 : k < 64
  · simp [h1]
  · by_cases h2 : k < 72
    · simp [h1, h2]
    · by_cases h3 : k = 72
      · simp [h3]
      · simp [h1, h2, h3]

theorem TaskSt.scalar_putScalar_ne (t : TaskSt) (k k' c : Nat) (x : Word) (h : k ≤ RegKey.yb) (h' : k' ≤ RegKey.yb) (hk : k' ≠ k) :
    (t.putScalar k x c).scalar k' = t.scalar k' := by
  have h : k ≤ 73 := h
  have h' : k' ≤ 73 := h'
  simp only [TaskSt.putScalar, TaskSt.setReady, TaskSt.setScalar, TaskSt.scalar]
  by_cases h1 : k < 64
  · simp only [h1, if_true]
    by_cases g1 : k' < 64
    · simp [g1, NMap.get_put_ne _ _ _ _ _ hk]
    · simp [g1]
  · by_cases h2 : k < 72
    · simp only [h1, h2, if_true, if_false]
      by_cases g1 : k' < 64
      · simp [g1]
      · by_cases g2 : k' < 72
        · simp [g1, g2, NMap.get_put_ne _ _ _ _ _ (show k' - 64 ≠ k - 64 by omega)]
        · simp [g1, g2]
    · by_cases h3 : k = 72
      · subst h3
        have : ¬ (k' = 72) := hk
        simp [this]
      · have h4 : k = 73 := by omega
        subst h4
        have g3 : ¬ (k' = 73) := hk
        by_cases g1 : k' < 64
        · simp [g1]
        · by_cases g2 : k' < 72
          · simp [g1, g2]
          · have : k' = 72 := by omega
            simp [this]

theorem TaskSt.putScalar_shape (t : TaskSt) (k c : Nat) (x : Word) :
    ∃ g pend tok kk ya yb rdy wait, t.putScalar k x c
      = { t with g := g, pend := pend, tokOwner := tok, k := kk, ya := ya, yb := yb, rdy := rdy, wait := wait } := by
  simp only [TaskSt.putScalar, TaskSt.setReady, TaskSt.setScalar]
  split
  · exact ⟨_, _, _, _, _, _, _, _, rfl⟩
  · split
    · exact ⟨_, _, _, _, _, _, _, _, rfl⟩
    · split
      · exact ⟨_, _, _, _, _, _, _, _, rfl⟩
      · exact ⟨_, _, _, _, _, _, _, _, rfl⟩

theorem TaskSt.onlyRegs.putScalar (t : TaskSt) (k c : Nat) (x : Word) : t.onlyRegs (t.putScalar k x c) := by
  obtain ⟨_, _, _, _, _, _, _, _, h⟩ := t.putScalar_shape k c x
  exact ⟨_, _, _, _, _, _, _, _, _, _, _, _, _, _, h⟩

theorem TaskSt.vector_putScalar (t : TaskSt) (k c k' : Nat) (x : Word) : (t.putScalar k x c).vector k' = t.vector k' := by
  obtain ⟨_, _, _, _, _, _, _, _, h⟩ := t.putScalar_shape k c x; rw [h]; rfl

theorem TaskSt.mask_putScalar (t : TaskSt) (k c i : Nat) (x : Word) : (t.putScalar k x c).mask i = t.mask i := by
  obtain ⟨_, _, _, _, _, _, _, _, h⟩ := t.putScalar_shape k c x; rw [h]; rfl

theorem TaskSt.rdy_putScalar_self (t : TaskSt) (k c : Nat) (x : Word) : NMap.get 0 (t.putScalar k x c).rdy k = c := by
  simp [TaskSt.putScalar, TaskSt.setReady]

theorem TaskSt.rdy_putScalar_ne (t : TaskSt) (k k' c : Nat) (x : Word) (h : k' ≠ k) :
    NMap.get 0 (t.putScalar k x c).rdy k' = NMap.get 0 t.rdy k' := by
  simp only [TaskSt.putScalar, TaskSt.setReady, TaskSt.setScalar]
  split
  · simp [NMap.get_put_ne _ _ _ _ _ h]
  · split
    · simp [NMap.get_put_ne _ _ _ _ _ h]
    · split <;> simp [NMap.get_put_ne _ _ _ _ _ h]

theorem TaskSt.vector_putVector_self (t : TaskSt) (k c : Nat) (x : VReg) (h : k = RegKey.yv ∨ RegKey.w 0 ≤ k) :
    (t.putVector k x c).vector k = x := by
  have h : k = 74 ∨ 80 ≤ k := h
  simp only [TaskSt.putVector, TaskSt.setReady, TaskSt.setVector, TaskSt.vector]
  by_cases h1 : k = 74
  · simp [h1]
  · by_cases h2 : k < 96
    · simp [h1, h2]
    · simp [h1, h2]

theorem TaskSt.vector_putVector_ne (t : TaskSt) (k k' c : Nat) (x : VReg) (h : k = RegKey.yv ∨ RegKey.w 0 ≤ k)
    (h' : k' = RegKey.yv ∨ RegKey.w 0 ≤ k') (hk : k' ≠ k) : (t.putVector k x c).vector k' = t.vector k' := by
  have h : k = 74 ∨ 80 ≤ k := h
  have h' : k' = 74 ∨ 80 ≤ k' := h'
  simp only [TaskSt.putVector, TaskSt.setReady, TaskSt.setVector, TaskSt.vector]
  by_cases h1 : k = 74
  · subst h1; simp [hk]
  · by_cases h2 : k < 96
    · simp only [h1, h2, if_true, if_false]
      by_cases g1 : k' = 74
      · simp [g1]
      · by_cases g2 : k' < 96
        · simp [g1, g2, NMap.get_put_ne _ _ _ _ _ (show k' - 80 ≠ k - 80 by omega)]
        · simp [g1, g2]
    · simp only [h1, h2, if_false]
      by_cases g1 : k' = 74
      · simp [g1]
      · by_cases g2 : k' < 96
        · simp [g1, g2]
        · simp [g1, g2, NMap.get_put_ne _ _ _ _ _ (show k' - 96 ≠ k - 96 by omega)]

theorem TaskSt.putVector_shape (t : TaskSt) (k c : Nat) (x : VReg) :
    ∃ v w yv rdy wait, t.putVector k x c = { t with v := v, w := w, yv := yv, rdy := rdy, wait := wait } := by
  simp only [TaskSt.putVector, TaskSt.setReady, TaskSt.setVector]
  split
  · exact ⟨_, _, _, _, _, rfl⟩
  · split
    · exact ⟨_, _, _, _, _, rfl⟩
    · exact ⟨_, _, _, _, _, rfl⟩

theorem TaskSt.onlyRegs.putVector (t : TaskSt) (k c : Nat) (x : VReg) : t.onlyRegs (t.putVector k x c) := by
  obtain ⟨_, _, _, _, _, h⟩ := t.putVector_shape k c x
  exact ⟨_, _, _, _, _, _, _, _, _, _, _, _, _, _, h⟩

theorem TaskSt.scalar_putVector (t : TaskSt) (k c k' : Nat) (x : VReg) : (t.putVector k x c).scalar k' = t.scalar k' := by
  obtain ⟨_, _, _, _, _, h⟩ := t.putVector_shape k c x; rw [h]; rfl

theorem TaskSt.mask_putVector (t : TaskSt) (k c i : Nat) (x : VReg) : (t.putVector k x c).mask i = t.mask i := by
  obtain ⟨_, _, _, _, _, h⟩ := t.putVector_shape k c x; rw [h]; rfl

/-! ### The numbers of operands -/

theorem sKey_le {d : Opd} {k : Nat} (h : sKey d = some k) : k ≤ RegKey.yb := by
  cases d <;> simp [sKey] at h <;> subst h
  · decide
  · decide
  · rename_i i; have := i.isLt; simp only [RegKey.k, RegKey.yb]; omega
  · rename_i i; have := i.isLt; simp only [RegKey.g, RegKey.yb]; omega

theorem vKey_ok {d : Opd} {k : Nat} (h : vKey d = some k) : k = RegKey.yv ∨ RegKey.w 0 ≤ k := by
  cases d <;> simp [vKey] at h <;> subst h
  · exact .inl rfl
  · right; simp only [RegKey.w]; omega
  · right; simp only [RegKey.w, RegKey.v]; omega

theorem latch_le (b : Bay2) : latch b ≤ RegKey.yb := by cases b <;> decide

/-! ### A change of the executing core's task -/

theorem State.me_onTask (s : State) (f : TaskSt → TaskSt) : (s.onTask s.cur f).me = f s.me := by simp [State.me]

/-- The numbers of the registers a scalar bay writes. -/
def scalarDests (b : Bay2) (d : Opd) : List Nat := latch b :: (sKey d).toList

/-- The numbers of the registers the VX bay writes. -/
def vectorDests (d : Opd) : List Nat := RegKey.yv :: (vKey d).toList

/-- A bay's reads followed by a change of the task's registers leave alone what `quiet` says. -/
theorem quiet_of_reads {s u : State} (h : bayReads s u) (f : TaskSt → TaskSt) (ks : List Nat)
    (hf : ∀ t : TaskSt, t.onlyRegs (f t)
      ∧ (∀ k, k ≤ RegKey.yb → k ∉ ks → (f t).scalar k = t.scalar k)
      ∧ (∀ k, (k = RegKey.yv ∨ RegKey.w 0 ≤ k) → k ∉ ks → (f t).vector k = t.vector k)
      ∧ ∀ i, RegKey.m i ∉ ks → (f t).mask i = t.mask i) :
    quiet s (u.onTask s.cur f) ks := by
  obtain ⟨⟨po, di, pe, co, rfl⟩, h1, h2, la, da, q, h3, _⟩ := h
  obtain ⟨hs, hsc, hv, hm⟩ := hf { (s.core s.cur).t with late := la, dataAt := da }
  have hme : (State.onTask { s with posted := po, dies := di, padErr := pe, cores := co } s.cur f).me
      = f { (s.core s.cur).t with late := la, dataAt := da } := by
    simp [State.me, h3]
  refine ⟨⟨fun k hk hn => ?_, fun k hk hn => ?_, fun i hn => ?_⟩,
    by unfold keepsTask; rw [hme]; exact (TaskSt.onlyRegs.late _ la da).trans hs,
    ⟨⟨_, _, _, _, _, _, _, rfl⟩, h1, fun n hn => ?_, ?_⟩, fun _ => rfl⟩
  · rw [hme]; exact hsc k hk hn
  · rw [hme]; exact hv k hk hn
  · rw [hme]; exact hm i hn
  · exact (State.core_onTask_ne _ _ _ _ hn).trans (h2 n hn)
  · exact ⟨q, by simp [h3]⟩

/-- What a scalar bay's write of a register does to the task. -/
def putBoth (b : Bay2) (d : Opd) (x : Word) (cyc : Nat) (t : TaskSt) : TaskSt :=
  match sKey d with
  | some k => (t.putScalar (latch b) x cyc).putScalar k x cyc
  | none => t.putScalar (latch b) x cyc

theorem wrS_eq (s : State) (b : Bay2) (d : Opd) (x : Word) (lat : Nat) (hd : isAppend d = false) :
    wrS s b d x lat = s.onTask s.cur (putBoth b d x (s.now + lat)) := by
  unfold wrS putBoth
  cases d <;> simp only [isAppend, Bool.true_eq_false] at hd <;> simp only [sKey]
  all_goals exact State.onTask_onTask s _ _ _

theorem putBoth_scalar_self (b : Bay2) (d : Opd) (x : Word) (c : Nat) (t : TaskSt) (k : Nat) (hk : k ∈ scalarDests b d) :
    (putBoth b d x c t).scalar k = x ∧ NMap.get 0 (putBoth b d x c t).rdy k = c := by
  unfold putBoth
  simp only [scalarDests, List.mem_cons, Option.mem_toList] at hk
  cases hs : sKey d with
  | none =>
    simp only [hs, reduceCtorEq, or_false] at hk
    subst hk
    exact ⟨TaskSt.scalar_putScalar_self _ _ _ _ (latch_le b), TaskSt.rdy_putScalar_self _ _ _ _⟩
  | some j =>
    have hj := sKey_le hs
    by_cases hkj : k = j
    · subst hkj
      exact ⟨TaskSt.scalar_putScalar_self _ _ _ _ hj, TaskSt.rdy_putScalar_self _ _ _ _⟩
    · simp only [hs, Option.some.injEq] at hk
      have hk : k = latch b := hk.resolve_right (fun h => hkj h.symm)
      subst hk
      simp only
      rw [TaskSt.scalar_putScalar_ne _ _ _ _ _ hj (latch_le b) hkj, TaskSt.rdy_putScalar_ne _ _ _ _ _ hkj]
      exact ⟨TaskSt.scalar_putScalar_self _ _ _ _ (latch_le b), TaskSt.rdy_putScalar_self _ _ _ _⟩

theorem putBoth_keeps (b : Bay2) (d : Opd) (x : Word) (c : Nat) (t : TaskSt) :
    t.onlyRegs (putBoth b d x c t)
      ∧ (∀ k, k ≤ RegKey.yb → k ∉ scalarDests b d → (putBoth b d x c t).scalar k = t.scalar k)
      ∧ (∀ k, (k = RegKey.yv ∨ RegKey.w 0 ≤ k) → k ∉ scalarDests b d → (putBoth b d x c t).vector k = t.vector k)
      ∧ ∀ i, RegKey.m i ∉ scalarDests b d → (putBoth b d x c t).mask i = t.mask i := by
  unfold putBoth scalarDests
  cases hs : sKey d with
  | none =>
    refine ⟨?_, fun k hk hn => ?_, fun k _ _ => TaskSt.vector_putScalar _ _ _ _ _, fun i _ => TaskSt.mask_putScalar _ _ _ _ _⟩
    · exact TaskSt.onlyRegs.putScalar _ _ _ _
    · exact TaskSt.scalar_putScalar_ne _ _ _ _ _ (latch_le b) hk (by simpa using hn)
  | some j =>
    have hj := sKey_le hs
    refine ⟨?_, fun k hk hn => ?_, fun k _ _ => ?_, fun i _ => ?_⟩
    · exact (TaskSt.onlyRegs.putScalar _ _ _ _).trans (TaskSt.onlyRegs.putScalar _ _ _ _)
    · simp only [Option.toList_some, List.mem_cons, List.not_mem_nil, or_false, not_or] at hn
      rw [TaskSt.scalar_putScalar_ne _ _ _ _ _ hj hk hn.2, TaskSt.scalar_putScalar_ne _ _ _ _ _ (latch_le b) hk hn.1]
    · rw [TaskSt.vector_putScalar, TaskSt.vector_putScalar]
    · rw [TaskSt.mask_putScalar, TaskSt.mask_putScalar]

/-- A scalar bay without a fault: its result in its latch and its destination, and nothing else. -/
theorem bayOp_wrS {s : State} {us : List Use} {ds : List Def} {b : Bay2} {d : Opd} {x : Word} {lat : Nat}
    (h : chanFault s.iss.pre s.now us ds = none) (hd : isAppend d = false) :
    ∃ t, bayOp s us ds (fun u => wrS u b d x lat) = .next t
      ∧ (∀ k ∈ scalarDests b d, t.me.scalar k = x ∧ NMap.get 0 t.me.rdy k = s.now + lat) ∧ quiet s t (scalarDests b d) := by
  have hr := bayReads.bay s us
  have hcur := hr.cur_eq
  have hnow := hr.now_eq
  refine ⟨_, bayOp_next _ h, ?_⟩
  rw [wrS_eq _ _ _ _ _ hd, hnow]
  refine ⟨fun k hk => ?_, ?_⟩
  · rw [State.me_onTask]
    exact putBoth_scalar_self b d x _ _ k hk
  · rw [hcur]
    exact quiet_of_reads hr _ _ (fun t => putBoth_keeps b d x _ t)

end Sys2Proof.Machine
end

