-- ==== Sys2Proof/Laws/Appends.lean ====
section
/-!
SUPPORT. What an append of a bay does: the slot it reserves, and the bytes that go into it or to the receiver.
-/

namespace Sys2Proof.Machine

theorem toBytes_length (n v : Nat) : (toBytes n v).length = n := by
  induction n generalizing v with
  | zero => rfl
  | succ n ih => simp [toBytes, ih]

/-- Whole 8-byte words of scratchpad written: storage and check bits. -/
theorem padPut_word (s : State) (c x : Nat) (bs : List Byte) (r : RecInfo) (hx : x % 8 = 0) (hb : bs.length = 8) :
    s.padPut c x bs r = { s with mem := s.mem.writeN (Addr.pad c x) bs, padErr := NMap.erase s.padErr (Addr.pad c x / 8) } := by
  have hlen : ∀ lx, (((bs.map some).drop (lx - x)).take 64).length ≠ 64 := by
    intro lx; simp only [List.length_take, List.length_drop, List.length_map, hb]; omega
  unfold State.padPut State.padWrite
  have hwhole : (List.range ((bs.map some).length / 64 + 1)).foldl (fun (s : State) i =>
      if (((bs.map some).drop ((x + 63) / 64 * 64 + 64 * i - x)).take 64).length == 64
          && (((bs.map some).drop ((x + 63) / 64 * 64 + 64 * i - x)).take 64).all (fun b => b.isSome) then
        { s with padPoison := NMap.erase s.padPoison (padLine c ((x + 63) / 64 * 64 + 64 * i)) }
      else s) s = s := by
    have hn : (bs.map some).length / 64 + 1 = 1 := by simp [hb]
    rw [hn]
    simp only [List.range_one, List.foldl_cons, List.foldl_nil, Nat.mul_zero, Nat.add_zero]
    rw [if_neg]
    simp only [Bool.and_eq_true, beq_iff_eq, not_and_or]
    exact .inl (hlen _)
  dsimp only
  rw [hwhole]
  have h2 : (bs.map some).length / 8 + 2 = 1 + 1 + 1 := by simp [hb]
  rw [h2]
  simp only [State.padWriteAux, hx, Nat.sub_zero]
  have ht : (bs.map some).take 8 = bs.map some := List.take_of_length_le (by simp [hb])
  have hd : (bs.map some).drop 8 = [] := by simp [hb]
  have hne : bs.isEmpty = false := by cases bs <;> simp_all
  have hall : (bs.map some).all (fun b => b.isNone) = false := by cases bs <;> simp_all
  have hsome : (bs.map some).all (fun b => b.isSome) = true := by simp
  simp only [ht, hd, List.drop_nil, List.take_nil, List.isEmpty_nil, if_true]
  rw [List.isEmpty_map, hne]
  simp only [Bool.false_eq_true, if_false, State.padWriteWord, hall, List.length_map, hb, beq_self_eq_true, hsome]
  rfl

/-! ### Queues -/

theorem State.queue_onQueue_self (s : State) (c q : Nat) (f : Queue → Queue) :
    (s.onQueue c q f).queue c q = f (s.queue c q) := by
  simp [State.onQueue, State.queue]

theorem State.onQueue_onQueue (s : State) (c q : Nat) (f g : Queue → Queue) :
    (s.onQueue c q f).onQueue c q g = s.onQueue c q (fun z => g (f z)) := by
  simp only [State.onQueue, State.onCtxSt, State.onCore_onCore]
  simp

theorem State.queue_onTask (s : State) (c n q : Nat) (f : TaskSt → TaskSt) : (s.onTask n f).queue c q = s.queue c q := by
  by_cases h : c = n
  · subst h; simp [State.queue]
  · simp [State.queue, State.core_onTask_ne _ _ _ _ h]

/-- What another agent's write leaves of the stores a core notes: nothing but that note changes. -/
theorem passStores_mem (s : State) (c x : Nat) (bs : List (Option Byte)) : (s.passStores c x bs).mem = s.mem := by
  unfold State.passStores; split <;> rfl

theorem passStores_padErr (s : State) (c x : Nat) (bs : List (Option Byte)) : (s.passStores c x bs).padErr = s.padErr := by
  unfold State.passStores; split <;> rfl

/-- Eight bytes that fill a local slot. -/
theorem fillSlot_local (v : State) (core qi slot t cyc : Nat) (bs : List Byte) (hb : bs.length = 8)
    (hg : (v.queue core qi).gen = slot / 65536)
    (hst : (v.queue core qi).st = .opened ∨ (v.queue core qi).st = .subsW)
    (hal : (v.queue core qi).slotAddr (slot % 65536) % 8 = 0) :
    v.fillSlot core qi slot t cyc 0 bs true false
      = State.setPresent { v.passStores core ((v.queue core qi).slotAddr (slot % 65536)) (bs.map some) with
                                  mem := v.mem.writeN (Addr.pad core ((v.queue core qi).slotAddr (slot % 65536))) bs,
                                  padErr := NMap.erase v.padErr (Addr.pad core ((v.queue core qi).slotAddr (slot % 65536)) / 8) }
          core qi (slot % 65536) cyc := by
  unfold State.fillSlot
  simp only [hg, ne_eq, not_true, if_false, if_true, Bool.false_eq_true, Nat.add_zero]
  rw [padPut_word _ _ _ _ _ hal hb, passStores_mem, passStores_padErr]
  rcases hst with h | h <;> simp only [h]

/-- A slot made present: the queue's record of it, and what is posted. -/
theorem setPresent_own (v : State) (core qi c cyc : Nat) :
    (∃ po fr, v.setPresent core qi c cyc
        = { v.onQueue core qi (fun q => { q with pres := NMap.set q.pres (q.idx c) cyc }) with posted := po, free := fr }) := by
  unfold State.setPresent
  dsimp only
  split
  · exact ⟨_, _, rfl⟩
  · exact ⟨_, _, rfl⟩

/-- An append of eight bytes to a queue whose slots are local: the latch, the slot, and the queue. -/
theorem wrS_app (u : State) (b : Bay2) (q : BitVec 5) (x : Word) (lat : Nat) (hl : lat ≤ 1)
    (hst : (u.queue u.cur q.toNat).st = .opened ∨ (u.queue u.cur q.toNat).st = .subsW)
    (hal : (u.queue u.cur q.toNat).slotAddr (ctr (u.queue u.cur q.toNat).tail) % 8 = 0) :
    let z := u.queue u.cur q.toNat
    let a := z.slotAddr (ctr z.tail)
    let v := (u.onTask u.cur (fun k => k.putScalar (latch b) x (u.now + lat))).onQueue u.cur q.toNat (fun z => { z with tail := ctr (z.tail + 1) })
    ∃ po fr pe, wrS u b (.app q) x lat
      = { (v.passStores u.cur a ((toBytes 8 x.toNat).map some)).onQueue u.cur q.toNat (fun z =>
            { z with pres := NMap.set z.pres (z.idx (ctr (u.queue u.cur q.toNat).tail)) (u.now + 1) }) with
          posted := po, free := fr, padErr := pe, mem := u.mem.writeN (Addr.pad u.cur a) (toBytes 8 x.toNat) } := by
  intro z a v
  have hz : (u.onTask u.cur (fun k => k.putScalar (latch b) x (u.now + lat))).queue u.cur q.toNat = z := State.queue_onTask _ _ _ _ _
  have hns : (z.st == .send || z.st == .pendS) = false := by
    rcases hst with h | h <;> (show ((u.queue u.cur q.toNat).st == _ || (u.queue u.cur q.toNat).st == _) = false) <;> rw [h] <;> rfl
  have hgen : (z.gen * 65536 + ctr z.tail) / 65536 = z.gen := by unfold ctr; omega
  have hmod : (z.gen * 65536 + ctr z.tail) % 65536 = ctr z.tail := by unfold ctr; omega
  have hvq : v.queue u.cur q.toNat = { z with tail := ctr (z.tail + 1) } := by
    show (State.onQueue _ _ _ _).queue _ _ = _
    rw [State.queue_onQueue_self, hz]
  have ha : (v.queue u.cur q.toNat).slotAddr ((z.gen * 65536 + ctr z.tail) % 65536) = a := by rw [hvq, hmod]; rfl
  unfold wrS State.reserveSlot State.fillLater
  simp only [hz, hns, hl, Bool.false_eq_true, if_false, if_true, State.onTask_cur]
  show ∃ po fr pe, v.fillSlot u.cur q.toNat _ v.now (v.now + 1) 0 _ true false = _
  rw [fillSlot_local v u.cur q.toNat _ _ _ _ (toBytes_length 8 _) (by rw [hvq, hgen]) (by rw [hvq]; exact hst) (by rw [ha]; exact hal), ha]
  obtain ⟨po, fr, h⟩ := setPresent_own { v.passStores u.cur a ((toBytes 8 x.toNat).map some) with
      mem := v.mem.writeN (Addr.pad u.cur a) (toBytes 8 x.toNat), padErr := NMap.erase v.padErr (Addr.pad u.cur a / 8) }
    u.cur q.toNat ((z.gen * 65536 + ctr z.tail) % 65536) (v.now + 1)
  refine ⟨po, fr, NMap.erase v.padErr (Addr.pad u.cur a / 8), ?_⟩
  rw [h, hmod]
  rfl

/-- An append whose result is ready later: the slot is reserved, and its bytes are due in the cycle before. -/
theorem wrS_app_later (u : State) (b : Bay2) (q : BitVec 5) (x : Word) (lat : Nat) (hl : 1 < lat)
    (hst : (u.queue u.cur q.toNat).st = .opened ∨ (u.queue u.cur q.toNat).st = .subsW) :
    let z := u.queue u.cur q.toNat
    wrS u b (.app q) x lat
      = ((u.onTask u.cur (fun k => k.putScalar (latch b) x (u.now + lat))).onQueue u.cur q.toNat (fun z => { z with tail := ctr (z.tail + 1) })).post
          (u.now + lat - 1) (.fill u.cur q.toNat (z.gen * 65536 + ctr z.tail) (toBytes 8 x.toNat) none) := by
  intro z
  have hz : (u.onTask u.cur (fun k => k.putScalar (latch b) x (u.now + lat))).queue u.cur q.toNat = z := State.queue_onTask _ _ _ _ _
  have hns : (z.st == .send || z.st == .pendS) = false := by
    rcases hst with h | h <;> (show ((u.queue u.cur q.toNat).st == _ || (u.queue u.cur q.toNat).st == _) = false) <;> rw [h] <;> rfl
  unfold wrS State.reserveSlot State.fillLater
  simp only [hz, hns, Nat.not_le.mpr hl, Bool.false_eq_true, if_false, State.onTask_cur]
  rfl

end Sys2Proof.Machine
end

