-- ==== Sys2Proof/Tests/Slice0.lean ====
section
/-!
SUPPORT. Tests. Ill-formed terms that every check of `Instr.wf` refuses; for every constructor that has a word, a word written from the
fields the spec gives it, with the instruction it stands for; small steps whose results are worked out from the rules by hand; and for every
statement with hypotheses a state and operands that meet them.
-/

namespace Sys2Proof.Tests

open Sys2Proof Sys2Proof.Machine

/-! ### Words from fields -/

/-- A word from its fields: the lowest bit of each and its value. -/
def fields : List (Nat × Nat) → Nat
  | [] => 0
  | f :: fs => f.2 * 2 ^ f.1 + fields fs

/-- R65: OP, COND, TGT. -/
def br (op cond tgt : Nat) : Enc := .br (BitVec.ofNat 32 (fields [(27, op), (17, cond), (0, tgt)]))

/-- R66: OP, DST, SRC1, SRC2, MOD. -/
def sa (op d a b m : Nat) : Enc := .sa (BitVec.ofNat 48 (fields [(40, op), (30, d), (20, a), (10, b), (0, m)]))
def sb (op d a b m : Nat) : Enc := .sb (BitVec.ofNat 48 (fields [(40, op), (30, d), (20, a), (10, b), (0, m)]))

/-- R66 with LIMM. -/
def limm (op d a i : Nat) : Enc := .sa (BitVec.ofNat 48 (fields [(40, op), (30, d), (20, a), (0, i)]))

/-- R67: OP, TYPE, DST, SRC1, SRC2, SRC3, MSK, RND, MOD. -/
def vx (op ty d a b c msk rnd m : Nat) : Enc :=
  .vx (BitVec.ofNat 64 (fields [(56, op), (52, ty), (42, d), (32, a), (22, b), (12, c), (9, msk), (7, rnd), (0, m)]))

/-- R70: OP, a header with TV and TOK 9, and the payload's fields. -/
def mx (op : Nat) (pay : List (Nat × Nat)) : Enc := .mx (BitVec.ofNat 96 (fields [(88, op), (53, 1), (47, 9)] + fields pay))
def cx (op : Nat) (pay : List (Nat × Nat)) : Enc := .cx (BitVec.ofNat 96 (fields [(88, op), (53, 1), (47, 9)] + fields pay))

/-- R69: OP, ENG, ENTRY, SRC, MOD. -/
def sl (op eng entry src m : Nat) : Enc := .sl (BitVec.ofNat 32 (fields [(27, op), (26, eng), (16, entry), (6, src), (0, m)]))

/-- R310: UOP, D, A, B, IMM. -/
def bu (op d a b i : Nat) : Enc := .bu (BitVec.ofNat 32 (fields [(27, op), (24, d), (21, a), (18, b), (0, i)]))

/-- The header of `mx` and `cx`. -/
def tok9 : CmdHdr := { we := false, wsem := 0, wthr := 0, wc := false, ssem := 0, sinc := 0, tv := true, tok := 9 }

/-- Registers of the main and the operand file (R51): 0x100 + i and 0x080 + i. -/
abbrev g (i : BitVec 6) : Opd := .main i
abbrev k (i : BitVec 3) : Opd := .file i

/-- Every word of a list decodes to the instruction beside it. -/
abbrev decodes (l : List (Enc × Instr)) : Prop := ∀ e ∈ l, decode e.1 = .ok e.2

/-- R74, R108. -/
theorem test_decode_br : decodes
    [ (br 0x00 0 0, .nop), (br 0x01 0 0x1FFFF, .jmp 0x1FFFF), (br 0x02 0x105 0, .jmpi (g 5)), (br 0x03 0x185 7, .brz (.imm 5) 7),
      (br 0x04 0x000 1, .brnz .ya 1), (br 0x05 0x081 2, .call (k 1) 2), (br 0x06 0x300 0, .ret (.pop 0 0)), (br 0x07 0x13F 3, .loop (g 63) 3),
      (br 0x08 0x012 0x10345, .waitc 0x12 true 0x345), (br 0x09 0x012 0x1B007, .sigc 0x12 true 0xB 7), (br 0x0A 0 0, .tend),
      (br 0x0B 0x001 0xBEEF, .trap .yb 0xBEEF), (br 0x0C 0 0xBEEF, .brk 0xBEEF) ] := by decide

/-- R75, R88, R90 to R95: the sources stand in SRC1 and SRC2. -/
theorem test_decode_scalar : decodes
    [ (sa 0x01 0x000 0x105 0x086 0, .add .sa .ya (g 5) (k 6)), (sb 0x02 0x001 0x105 0x106 0, .sub .sb .yb (g 5) (g 6)),
      (limm 0x03 0x105 0x106 0xFFFFF, .addi .sa (g 5) (g 6) 0xFFFFF), (sa 0x04 0x105 0x106 0x107 0, .mul .sa (g 5) (g 6) (g 7)),
      (sa 0x05 0x105 0x106 0x107 0, .mulh .sa (g 5) (g 6) (g 7)), (sa 0x06 0x105 0x106 0x107 0, .mulhn .sa (g 5) (g 6) (g 7)),
      (sa 0x07 0x105 0x106 0x107 0, .div .sa (g 5) (g 6) (g 7)), (sa 0x08 0x105 0x106 0x107 0, .divn .sa (g 5) (g 6) (g 7)),
      (sa 0x09 0x105 0x106 0x107 0, .rem .sa (g 5) (g 6) (g 7)), (sa 0x0A 0x105 0x106 0x107 0, .remn .sa (g 5) (g 6) (g 7)),
      (sa 0x10 0x105 0x106 0x107 0, .and .sa (g 5) (g 6) (g 7)), (sa 0x11 0x105 0x106 0x107 0, .or .sa (g 5) (g 6) (g 7)),
      (sa 0x12 0x105 0x106 0x107 0, .xor .sa (g 5) (g 6) (g 7)), (sa 0x13 0x105 0x106 0x107 0, .andn .sa (g 5) (g 6) (g 7)),
      (sa 0x14 0x105 0x106 0x107 0, .orn .sa (g 5) (g 6) (g 7)), (sa 0x18 0x105 0x106 0x1FF 0, .shl .sa (g 5) (g 6) (.imm 0x7F)),
      (sa 0x19 0x105 0x106 0x107 0, .shrl .sa (g 5) (g 6) (g 7)), (sa 0x1A 0x105 0x106 0x107 0, .shra .sa (g 5) (g 6) (g 7)),
      (sa 0x1B 0x105 0x106 0x107 0, .rotl .sa (g 5) (g 6) (g 7)), (sa 0x1C 0x105 0x106 0x107 0, .rotr .sa (g 5) (g 6) (g 7)) ] := by decide

theorem test_decode_scalar_more : decodes
    [ (sa 0x20 0x105 0x106 0 0, .clz .sa (g 5) (g 6)), (sa 0x21 0x105 0x106 0 0, .ctz .sa (g 5) (g 6)),
      (sa 0x22 0x105 0x106 0 0, .popc .sa (g 5) (g 6)), (sa 0x28 0x105 0x106 0x107 0, .min .sa (g 5) (g 6) (g 7)),
      (sa 0x29 0x105 0x106 0x107 0, .max .sa (g 5) (g 6) (g 7)), (sa 0x2A 0x105 0x106 0x107 0, .minn .sa (g 5) (g 6) (g 7)),
      (sa 0x2B 0x105 0x106 0x107 0, .maxn .sa (g 5) (g 6) (g 7)), (sa 0x30 0x105 0x106 0x107 9, .cmp .sa 9 (g 5) (g 6) (g 7)),
      (sa 0x31 0x105 0x106 0x107 0x108, .sel .sa (g 5) (g 8) (g 6) (g 7)), (limm 0x38 0x203 0 0x80001, .li .sa (.app 3) 0x80001),
      (limm 0x39 0x105 0x106 0x6789A, .lui .sa (g 5) (g 6) 0x6789A), (sa 0x3A 0x105 0x106 0x107 0x3FB, .lea .sa (g 5) (g 6) (g 7) 3 0x7F),
      (sa 0x3B 0x105 0x106 0x107 0x21F, .bfx .sa (g 5) (g 6) (g 7) true 0x1F), (sa 0x3C 0x105 0x106 0x107 0x1F, .bfi .sa (g 5) (g 6) (g 7) 0x1F),
      (sa 0x3D 0x105 0x106 0 7, .sext .sa (g 5) (g 6) 7), (sa 0x3E 0x105 0x106 0 7, .zext .sa (g 5) (g 6) 7),
      (sb 0x3F 0x001 0x2A3 0 0, .mov .sb .yb (.peek 3 5)) ] := by decide

/-- R96, R102, R104 to R106, R116 to R118. -/
theorem test_decode_sb : decodes
    [ (sb 0x40 0x105 0x106 0x107 0x252, .ld (g 5) (g 6) (g 7) ⟨2, 1, 2, false, true⟩),
      (sb 0x41 0x105 0x106 0x107 0x3A4, .st (g 5) (g 6) (g 7) ⟨3, 2, 4, true, false⟩),
      (sb 0x42 0x105 0x106 0x107 0x102, .ldsp (g 5) (g 6) (g 7) 1 true), (sb 0x43 0x105 0x106 0x107 0x300, .stsp (g 5) (g 6) (g 7) 3),
      (sb 0x44 0x105 0x106 0x107 0x27C, .amo (g 5) (g 6) (g 7) 9 3 true 4), (sb 0x45 0 0 0 0xDC, .fence 3 3 true),
      (sb 0x46 0 0 0 0x10, .fenceCode 2), (sb 0x47 0 0 0 0, .isync), (sb 0x48 0x105 0x106 0 0x200, .spst (g 5) (g 6) 2),
      (sb 0x49 0x105 0x106 0 0x300, .spld (g 5) (g 6) 3), (sb 0x50 0x105 0 0 0x010, .srd (g 5) 0x10),
      (sb 0x51 0 0x105 0 0x000, .swr (g 5) 0), (sb 0x52 0 0x105 0 0, .cycest (g 5)), (sb 0x53 0 0x105 0 0, .setprio (g 5)) ] := by decide

/-- FP32, all lanes of `m3`, rounding down. -/
abbrev vf : VHdr := ⟨0, 3, 2⟩
/-- FP32 and other types, `m3`, no rounding. -/
abbrev vt (ty : BitVec 4) : VHdr := ⟨ty, 3, 0⟩

/-- R76, R123. -/
theorem test_decode_vector : decodes
    [ (vx 0x01 0 0x105 0x106 0x107 0 3 2 0, .vadd vf (g 5) (g 6) (g 7) false), (vx 0x02 5 0x105 0x106 0x107 0 3 0 1, .vsub (vt 5) (g 5) (g 6) (g 7) true),
      (vx 0x03 0 0x105 0x106 0x107 0 3 2 0, .vmul vf (g 5) (g 6) (g 7) false), (vx 0x04 0 0x105 0x106 0x107 0x108 3 2 0, .vfma vf (g 5) (g 6) (g 7) (g 8)),
      (vx 0x05 0 0x105 0x106 0x107 0x108 3 2 0, .vfms vf (g 5) (g 6) (g 7) (g 8)), (vx 0x06 7 0x105 0x106 0 0 3 0 1, .vneg (vt 7) (g 5) (g 6) true),
      (vx 0x07 7 0x105 0x106 0 0 3 0 0, .vabs (vt 7) (g 5) (g 6) false), (vx 0x08 1 0x105 0x106 0x107 0 3 0 0, .vmin (vt 1) (g 5) (g 6) (g 7)),
      (vx 0x09 1 0x105 0x106 0x107 0 3 0 0, .vmax (vt 1) (g 5) (g 6) (g 7)), (vx 0x10 0 0x105 0x106 0 0 3 2 0, .vrcp vf (g 5) (g 6)),
      (vx 0x11 0 0x105 0x106 0 0 3 2 0, .vrsq vf (g 5) (g 6)), (vx 0x12 0 0x105 0x106 0 0 3 2 0, .vsqrt vf (g 5) (g 6)),
      (vx 0x13 0 0x105 0x106 0 0 3 0 0, .vexp2 (vt 0) (g 5) (g 6)), (vx 0x14 0 0x105 0x106 0 0 3 2 0, .vlog2 vf (g 5) (g 6)),
      (vx 0x18 0 0x105 0x106 0x107 0 3 0 0x46, .vcmp (vt 0) (g 5) (g 6) (g 7) 4 6), (vx 0x19 12 0x105 0x106 0x107 0x108 3 0 0, .vsel (vt 12) (g 5) (g 6) (g 7) (g 8)),
      (vx 0x20 3 0x105 0x106 0x107 0 3 0 0, .vand (vt 3) (g 5) (g 6) (g 7)), (vx 0x21 3 0x105 0x106 0x107 0 3 0 0, .vor (vt 3) (g 5) (g 6) (g 7)),
      (vx 0x22 3 0x105 0x106 0x107 0 3 0 0, .vxor (vt 3) (g 5) (g 6) (g 7)), (vx 0x23 3 0x105 0x106 0 0 3 0 0, .vnot (vt 3) (g 5) (g 6)) ] := by decide

theorem test_decode_vector_more : decodes
    [ (vx 0x24 3 0x105 0x106 0x107 0 3 0 0, .vshl (vt 3) (g 5) (g 6) (g 7)), (vx 0x25 3 0x105 0x106 0x107 0 3 0 0, .vshr (vt 3) (g 5) (g 6) (g 7)),
      (vx 0x26 3 0x105 0x106 0x107 0 3 0 0, .vshra (vt 3) (g 5) (g 6) (g 7)), (vx 0x28 0 0x105 0x106 0 0 3 2 0x12, .vcvt vf (g 5) (g 6) 1 2),
      (vx 0x29 7 0x105 0x106 0x107 0x108 3 2 0x38, .vquant ⟨7, 3, 2⟩ (g 5) (g 6) (g 7) (g 8) 3 true),
      (vx 0x30 3 0x105 0x106 0 0 3 0 3, .vredsum (vt 3) (g 5) (g 6) true true), (vx 0x31 1 0x105 0x106 0 0 3 0 2, .vredmax (vt 1) (g 5) (g 6) true),
      (vx 0x32 1 0x105 0x106 0 0 3 0 0, .vredmin (vt 1) (g 5) (g 6) false), (vx 0x33 3 0x105 0x106 0 0 3 0 4, .vscan (vt 3) (g 5) (g 6) true 0),
      (vx 0x38 0 0x105 0x106 0x107 0 3 0 0, .vperm (vt 0) (g 5) (g 6) (g 7)), (vx 0x39 0 0x105 0x106 0x1BF 0 3 0 0, .vbcast (vt 0) (g 5) (g 6) (.imm 63)),
      (vx 0x3A 0 0x105 0x106 0x107 0x108 3 0 0, .vslide (vt 0) (g 5) (g 6) (g 7) (g 8)), (vx 0x3B 4 0x105 0x106 0x1FF 0 3 0 0, .viota (vt 4) (g 5) (g 6) (.imm 0x7F)),
      (vx 0x3C 5 0x105 0x106 0x107 0 3 0 1, .vpack (vt 5) (g 5) (g 6) (g 7) true), (vx 0x3D 10 0x105 0x106 0 0 3 0 1, .vunpack (vt 10) (g 5) (g 6) true),
      (vx 0x40 0 0x105 0x106 0 0 3 0 0x7F, .vld (vt 0) (g 5) (g 6) 0x7F), (vx 0x41 0 0x105 0x106 0 0 3 0 1, .vst (vt 0) (g 5) (g 6) 1),
      (vx 0x42 4 0x105 0x106 0x107 0 3 0 0, .vgather (vt 4) (g 5) (g 6) (g 7)), (vx 0x43 0 0x002 0x087 0 0 3 0 0, .vmov (vt 0) .yv (k 7)),
      (vx 0x48 0 0 0 0 0 3 0 0x42, .mand 4 3 2), (vx 0x49 0 0 0 0 0 3 0 0x42, .mor 4 3 2), (vx 0x4A 0 0 0 0 0 3 0 0x40, .mnot 4 3),
      (vx 0x4B 0 0x105 0 0 0 3 0 0, .mpopc (g 5) 3), (vx 0x50 0 0x105 0x106 0x107 0x108 3 0 1, .vosm (vt 0) (g 5) (g 6) (g 7) (g 8) true) ] := by decide

/-- R72, R77, R150 to R159. -/
theorem test_decode_matrix : decodes
    [ (mx 0x01 [(46, 1), (41, 0x00), (36, 3), (26, 0x10A), (16, 0x10B), (6, 0x10C), (5, 1), (4, 1), (3, 0), (2, 1), (0, 2)],
        .mma tok9 ⟨true, 0, 3, g 10, g 11, g 12, true, true, false, true, 2⟩),
      (mx 0x02 [(41, 0x0C), (36, 31), (26, 0x3E1), (16, 0x081), (6, 0x1FF)], .mdist tok9 ⟨false, 0x0C, 31, .pop 1 7, k 1, .imm 0x7F, false, false, false, false, 0⟩),
      (mx 0x03 [(46, 1), (41, 0x07), (36, 1), (31, 2), (21, 0x10A), (18, 7), (17, 1), (16, 1), (6, 0x10B)], .mtopk tok9 true 7 1 2 (g 10) 7 true true (g 11)),
      (mx 0x04 [(46, 1), (9, 0x80000001)], .mzero tok9 true 0x80000001),
      (mx 0x05 [(41, 5), (36, 4), (26, 0x207), (16, 0x10A), (13, 3), (11, 1), (1, 1008), (0, 1)], .mdrain tok9 false 5 4 (.app 7) (g 10) 3 1 1008 true),
      (mx 0x06 [(41, 9), (36, 4), (26, 0x10A), (16, 0x10B), (13, 1), (12, 1)], .mldacc tok9 false 9 4 (g 10) (g 11) 1 true),
      (sl 1 1 0x3C0 0x10A 2, .sld true 0x3C0 (g 10) 2), (sl 2 0 0x010 0 1, .sfmt false 0x10 1) ] := by decide

/-- R73, R78, R201, R211 to R227, and a header with every field (R70). -/
theorem test_decode_operations : decodes
    [ (cx 0x01 [(31, 0x1234), (15, 0x5678), (10, 9), (0, 0x10A)], .cpy tok9 0x1234 0x5678 9 (some (g 10))),
      (cx 0x02 [(31, 1), (15, 2), (0, 0x10A)], .cpyg tok9 1 2 (some (g 10))), (cx 0x03 [(31, 1), (15, 2)], .cpys tok9 1 2 none),
      (cx 0x04 [(31, 1), (15, 2)], .cpyx tok9 1 2 none), (cx 0x05 [(31, 1), (15, 2), (0, 0x087)], .cpysc tok9 1 2 (some (k 7))),
      (cx 0x06 [(37, 0x1BF), (27, 0x10A)], .cplan tok9 (.imm 63) (some (g 10))), (cx 0x07 [(37, 0x181)], .cstep tok9 (.imm 1)),
      (cx 0x08 [(31, 1), (15, 2)], .subs tok9 1 2 none), (cx 0x09 [(42, 31)], .unsubs tok9 31), (cx 0x10 [(31, 1), (15, 2)], .callred tok9 1 2 none),
      (cx 0x11 [(31, 1), (15, 2)], .cred tok9 1 2 none), (cx 0x12 [(31, 1), (15, 2)], .cbc tok9 1 2 none),
      (cx 0x13 [(31, 1), (15, 2)], .cag tok9 1 2 none), (cx 0x14 [(31, 1), (15, 2)], .crsc tok9 1 2 none),
      (cx 0x18 [(37, 0x10A)], .opwait tok9 (g 10)), (cx 0x19 [(37, 0x10A)], .opcancel tok9 (g 10)), (cx 0x1A [(37, 0x081)], .opdetach tok9 (k 1)),
      (cx 0x1B [(37, 0x10A)], .opadopt tok9 (g 10)), (cx 0x1C [(37, 0x10A)], .opquery tok9 (g 10)),
      (.cx (BitVec.ofNat 96 (fields [(88, 0x28), (87, 1), (79, 0x12), (67, 0x345), (66, 1), (58, 0x67), (54, 5), (53, 1), (47, 63), (39, 0xAB)])),
        .binit ⟨true, 0x12, 0x345, true, 0x67, 5, true, 63⟩ 0xAB) ] := by decide

/-- R178 to R184, R241, R307, R326, R350, R365. -/
theorem test_decode_commands : decodes
    [ (cx 0x20 [(42, 6), (32, 0x104), (27, 16), (24, 7), (21, 4)], .qinit tok9 6 (g 4) 16 7 4),
      (cx 0x21 [(42, 1), (37, 2), (33, 3), (30, 4), (27, 5)], .qspliceSend tok9 1 2 3 4 5),
      (cx 0x21 [(42, 1), (37, 2), (36, 1), (33, 3), (30, 4), (27, 5)], .qspliceRecv tok9 1 2 3 4 5), (cx 0x22 [(42, 1)], .qunsplice tok9 1),
      (cx 0x23 [(42, 1), (41, 1)], .qreset tok9 1 true), (cx 0x24 [(42, 1)], .qstat tok9 1), (cx 0x25 [(42, 1), (32, 0x104)], .qpush tok9 1 (g 4)),
      (cx 0x26 [(42, 1), (32, 0x104)], .qpop tok9 1 (g 4)), (cx 0x29 [(39, 3), (29, 0x107)], .bexpect tok9 3 (g 7)),
      (cx 0x2A [(39, 3), (29, 0x107), (28, 1), (24, 9)], .barrive tok9 3 (g 7) true 9), (cx 0x2B [(39, 3), (28, 1)], .bwait tok9 3 none),
      (cx 0x2B [(39, 3), (29, 0x107)], .bwait tok9 3 (some (g 7))), (cx 0x2C [(39, 3), (38, 1)], .bclear tok9 3 true),
      (cx 0x2D [(42, 5), (32, 0x107), (22, 0x108), (19, 4)], .bufdecl tok9 5 (g 7) (g 8) 4), (cx 0x2E [(42, 5), (39, 0), (38, 1)], .bufset tok9 5 0 true),
      (cx 0x30 [(37, 0x10A), (27, 0x10B), (17, 0x10C)], .bqpost tok9 (g 10) (g 11) (some (g 12))), (cx 0x31 [(37, 0x10A), (27, 0x10B)], .buprog tok9 (g 10) (g 11)),
      (cx 0x32 [(37, 0x10A), (27, 0x10B), (17, 0x10C)], .burun tok9 (g 10) (g 11) (g 12)), (cx 0x33 [(37, 0x10A)], .bustat tok9 (g 10)),
      (cx 0x38 [(37, 0x10A)], .tlaunch tok9 (g 10)), (cx 0x39 [(37, 0x18A)], .tdep tok9 (.imm 10)),
      (cx 0x3A [(45, 3), (40, 15), (30, 0x107), (20, 0x108)], .lease tok9 3 15 (g 7) (g 8)), (cx 0x3A [(44, 1)], .leaseRcl tok9),
      (cx 0x3B [(45, 3)], .lfree tok9 3), (cx 0x3C [(44, 7)], .publish tok9 7) ] := by decide

/-- R310, and a bundle of no bays (R59). -/
theorem test_decode_micro : decodes
    [ (bu 0x00 0 0 0 0, .buhalt), (bu 0x01 0 0 0 0, .burow), (bu 0x02 7 0 0 31, .buldw 7 31), (bu 0x03 1 0 0 (16 + 9 * 2 ^ 13), .buwid 1 16 9),
      (bu 0x04 1 2 3 0, .bufadd 1 2 3), (bu 0x05 1 2 3 0, .bufmul 1 2 3), (bu 0x06 1 2 3 0, .bufmax 1 2 3), (bu 0x07 1 2 3 0, .bufma 1 2 3),
      (bu 0x08 1 2 3 0, .buiadd 1 2 3), (bu 0x09 1 2 0 7, .bubc 1 2 7), (bu 0x0A 1 2 0 0, .bursum 1 2), (bu 0x0B 1 2 0 0, .buexp 1 2),
      (bu 0x0C 1 0 0 0, .buzero 1), (bu 0x0D 0 0 0 0xFFFF, .busetlc 0xFFFF), (bu 0x0E 0 0 0 63, .buloop 63), (bu 0x0F 0 2 0 0, .buemit 2),
      (.hdr, .headerOnlyBundle) ] := by decide

/-- Unassigned codes, non-zero fields marked zero and reserved values are refused by name. -/
theorem test_decode_refuses : ∀ e ∈
    [ (br 0x0D 0 0, DecErr.illegalBundle), (sa 0x40 0x105 0x106 0x107 0, .illegalBundle), (vx 0x0A 0 0x105 0x106 0 0 0 0 0, .illegalBundle),
      (mx 0x07 [], .illegalBundle), (cx 0x0A [], .illegalBundle), (br 0x00 1 0, .reservedField), (sa 0x01 0x105 0x106 0x107 1, .reservedField),
      (sa 0x20 0x105 0x106 0x107 0, .reservedField), (vx 0x01 15 0x105 0x106 0x107 0 0 0 0, .reservedField), (cx 0x22 [(41, 1)], .reservedField),
      (br 0x02 0x1C0 1, .reservedField) ], decode e.1 = .error e.2 := by decide

/-! ### Ill-formed terms -/

/-- Every term of a list is refused. -/
abbrev refused (l : List Instr) : Prop := ∀ i ∈ l, i.wf = false

/-- R64, R74, R88 to R95, R108: operand positions and codes of the BR and scalar bays. -/
theorem test_ill_formed_scalar : refused
    [ .jmpi .yv, .ret (.app 0), .brz .yv 0, .brnz (.app 1) 0, .trap .yv 0, .call .ya 0, .loop (.app 3) 0, .sigc 0 false 1 1, .sigc 0 true 1 0,
      .add .sa .yb .ya .ya, .sub .sb .ya .ya .ya, .mul .sa (.imm 0) .ya .ya, .and .sa .ya .yv .ya, .shl .sa .ya .ya (.app 0), .clz .sa .ya .yv,
      .mov .sb (.peek 0 0) .ya, .addi .sa .ya .yv 0, .lui .sa .yb .ya 0, .cmp .sa 10 .ya .ya .ya, .sel .sa .ya .yv .ya .ya, .li .sa .yb 0,
      .lea .sa .ya .yv .ya 0 0, .bfx .sa .ya .ya .yv false 0, .bfi .sa (.app 0) .ya .ya 0, .sext .sa .yb .ya 0, .zext .sa .ya (.app 0) 0 ] := by decide

/-- R96, R102, R104 to R106, R116: the modifiers of the SB bay. -/
theorem test_ill_formed_memory : refused
    [ .ld .ya .ya .ya ⟨0, 0, 0, false, false⟩, .ld .yb .ya .ya ⟨0, 2, 1, false, false⟩, .ld .yb .ya .ya ⟨0, 0, 1, false, false⟩,
      .ld .yb .ya .ya ⟨0, 1, 5, false, false⟩, .ld .yb .ya .ya ⟨0, 1, 1, true, false⟩, .ld .yb .ya .ya ⟨3, 0, 0, false, true⟩,
      .st .yv .ya .ya ⟨0, 0, 0, false, false⟩, .st .ya .ya .ya ⟨0, 1, 1, false, false⟩, .st .ya .ya .ya ⟨0, 0, 1, false, false⟩,
      .st .ya .ya .ya ⟨0, 2, 5, false, false⟩, .st .ya .ya .ya ⟨0, 0, 0, true, false⟩, .st .ya .ya .ya ⟨0, 0, 0, false, true⟩,
      .ldsp .yb .ya .ya 3 true, .stsp (.app 0) .ya .ya 0, .amo .yb .ya .ya 10 0 false 0, .amo .yb .ya .ya 0 0 false 5, .amo (.app 0) .ya .ya 9 0 false 0,
      .amo .ya .ya .ya 0 0 false 0, .fence 0 1 false, .fence 1 5 false, .fenceCode 1, .fenceCode 5, .spst .yv .ya 0, .spld .ya .ya 0, .srd .yb 7,
      .srd .ya 0, .swr .ya 17, .swr .yv 0, .cycest .yv, .setprio (.app 0) ] := by decide

/-- R67, R68, R123, R128 to R133: types, rounding and modifiers of the VX bay. -/
theorem test_ill_formed_vector : refused
    [ .vadd ⟨11, 0, 0⟩ .yv .yv .yv false, .vadd ⟨3, 0, 1⟩ .yv .yv .yv false, .vadd ⟨0, 0, 0⟩ .yv .yv .yv true, .vadd ⟨0, 0, 0⟩ .ya .yv .yv false,
      .vadd ⟨0, 0, 0⟩ .yv .yv (.main 32) false, .vfma ⟨3, 0, 0⟩ .yv .yv .yv .yv, .vfms ⟨0, 0, 0⟩ .yv .yv .yv .ya, .vneg ⟨0, 0, 1⟩ .yv .yv false,
      .vmin ⟨0, 0, 1⟩ .yv .yv .yv, .vrcp ⟨3, 0, 0⟩ .yv .yv, .vexp2 ⟨0, 0, 1⟩ .yv .yv, .vcmp ⟨3, 0, 0⟩ .yv .yv .yv 0 6, .vcmp ⟨0, 0, 0⟩ .yv .yv .yv 0 7,
      .vsel ⟨13, 0, 0⟩ .yv .yv .yv .yv, .vand ⟨0, 0, 1⟩ .yv .yv .yv, .vnot ⟨14, 0, 0⟩ .yv .yv, .vshl ⟨0, 0, 0⟩ .yv .yv .yv,
      .vcvt ⟨15, 0, 0⟩ .yv .yv 0 0, .vcvt ⟨0, 0, 0⟩ .yv .yv 2 1, .vcvt ⟨0, 0, 0⟩ .yv .yv 1 0, .vcvt ⟨13, 0, 0⟩ .yv .yv 1 0, .vcvt ⟨13, 0, 0⟩ .yv .yv 0 3,
      .vcvt ⟨13, 1, 0⟩ .yv .yv 0 0, .vquant ⟨3, 0, 0⟩ .yv .yv .yv .yv 0 false, .vquant ⟨7, 0, 0⟩ .yv .yv .yv .yv 4 false,
      .vredsum ⟨3, 0, 1⟩ .yv .yv false false, .vredmax ⟨0, 0, 1⟩ .yv .yv false, .vscan ⟨3, 0, 0⟩ .yv .yv false 3, .vscan ⟨3, 0, 0⟩ .yv .yv true 1,
      .vscan ⟨0, 0, 1⟩ .yv .yv false 1, .vperm ⟨13, 0, 0⟩ .yv .yv .yv, .vbcast ⟨0, 0, 0⟩ .yv .yv (.imm 0x7F), .vslide ⟨0, 0, 0⟩ .yv .yv .yv (.imm 0x40),
      .viota ⟨0, 0, 0⟩ .yv .yv .yv, .vpack ⟨3, 0, 0⟩ .yv .yv .yv false, .vunpack ⟨4, 0, 0⟩ .yv .yv false, .vld ⟨0, 0, 1⟩ .yv .yv 0, .vst ⟨0, 0, 0⟩ (.app 0) .yv 0,
      .vgather ⟨1, 0, 0⟩ .yv .yv .yv, .vmov ⟨13, 0, 0⟩ .yv .yv, .mpopc .ya 0, .vosm ⟨1, 0, 0⟩ .yv .yv .yv .yv false ] := by decide

/-- A header without a token. -/
abbrev noTok : CmdHdr := { tok9 with tv := false, tok := 0 }

/-- R71, R145, R149 to R159: headers and payloads of the MX and SL bays. -/
theorem test_ill_formed_matrix : refused
    [ .mzero noTok false 0, .mzero { tok9 with wthr := 1 } false 0, .mzero { tok9 with wc := true } false 0, .mzero { tok9 with ssem := 1 } false 0,
      .mzero { noTok with tok := 1 } false 0, .mma tok9 ⟨false, 1, 0, g 0, g 0, g 0, false, false, false, false, 0⟩,
      .mma tok9 ⟨false, 9, 0, .ya, g 0, g 0, false, false, false, false, 0⟩, .mma tok9 ⟨false, 9, 0, g 0, .imm 0, g 0, false, false, false, false, 0⟩,
      .mma tok9 ⟨false, 9, 0, g 0, g 0, .pop 0 0, false, false, false, false, 0⟩, .mma tok9 ⟨false, 9, 0, g 0, g 0, g 0, false, true, false, false, 0⟩,
      .mma tok9 ⟨false, 9, 0, g 0, g 0, g 0, false, false, false, false, 1⟩, .mma tok9 ⟨false, 2, 0, g 0, g 0, g 0, false, false, false, false, 1⟩,
      .mdist tok9 ⟨false, 8, 0, g 0, g 0, g 0, false, false, false, false, 0⟩, .mtopk tok9 false 9 1 2 (g 0) 0 false false (g 0),
      .mtopk tok9 false 8 1 1 (g 0) 0 false false (g 0), .mtopk tok9 false 8 1 2 (.pop 0 0) 0 false false (g 0),
      .mdrain tok9 false 0 0 (.imm 0) (g 0) 0 0 0 false, .mdrain tok9 false 9 0 (g 0) (g 0) 0 0 0 false, .mdrain tok9 false 0 0 (g 0) (g 0) 5 0 0 false,
      .mdrain tok9 false 0 0 (g 0) (g 0) 0 1 0 false, .mdrain tok9 false 9 0 (g 0) (g 0) 1 0 1 false, .mdrain tok9 false 9 0 (g 0) (g 0) 4 0 1009 false,
      .mldacc tok9 false 0 0 (.app 0) (g 0) 0 false, .mldacc tok9 false 8 0 (g 0) (g 0) 1 false, .mldacc tok9 false 0 0 (g 0) (g 0) 2 false,
      .sld false 0 (.pop 0 0) 0, .sld false 0 (g 0) 3, .sld false 8 (g 0) 1, .sld false 16 (g 0) 2, .sfmt false 8 0, .sfmt false 0 3 ] := by decide

/-- R71, R190, R201, R211, R220, R240, R241, R307, R310, R326, R350: commands and micro-ops. -/
theorem test_ill_formed_commands : refused
    [ .cpy noTok 0 0 0 none, .cpy tok9 0 0 0x16 none, .cpy tok9 0 0 0 (some .ya), .cpyg tok9 0 0 (some (.imm 0)), .cplan tok9 (.pop 0 0) none,
      .cstep tok9 .ya, .unsubs noTok 0, .opwait tok9 (.imm 0), .opcancel noTok (g 0), .qinit tok9 0 (g 0) 5 0 0, .qinit tok9 0 (g 0) 17 0 0,
      .qinit tok9 0 (g 0) 6 0 5, .qinit tok9 0 .ya 6 0 0, .qspliceSend noTok 0 0 0 0 0, .qstat noTok 0, .qpush tok9 0 (.pop 0 0), .bexpect tok9 0 .ya,
      .barrive tok9 0 (g 0) false 1, .bwait noTok 0 none, .bwait tok9 0 (some .ya), .bufdecl tok9 0 (g 0) (g 0) 5, .bufdecl tok9 0 .ya (g 0) 0,
      .bufset tok9 0 4 false, .bufset tok9 0 1 true, .bqpost noTok (g 0) (g 0) none, .bqpost tok9 (.imm 0) (g 0) none, .buprog tok9 (.imm 0) (g 0),
      .burun tok9 (g 0) (g 0) (.imm 0), .bustat noTok (g 0), .tlaunch tok9 .ya, .tdep tok9 (.pop 0 0), .lease tok9 0 0 .ya (g 0), .lease tok9 0 0 (g 0) .ya,
      .publish { tok9 with wsem := 1 } 0, .buwid 0 0 8, .buwid 0 0 13, .buwid 0 8 9, .buwid 0 4 11 ] := by decide

/-- R1, R4: events that name agents the package does not have. -/
theorem test_ill_formed_events : refused
    [ .evFetchBlockArrive 512 0, .evMatrixHead 0 2, .evMdrainLineWrite 0 65536 0, .evCommandHead 0 1, .evCommandHead 0 10, .evGrant 0 524320 0,
      .evHello 0 0 512 0 0 0, .evLeaseGrantLand 0 4 0 0 0 false, .evLeaseRevocation 0 4, .evLeaseWordsReturn 0 0 4, .evEscapementSlot 8 0 0,
      .evRotationBoundary 0 128, .evPerBankRefresh 0 0 32, .evStackHeartbeat 0 2, .evMctlWrite 8 0, .evBar2Access 0 .cas 0 2 0 0,
      .evBar2Access 0 .read 0 9 0 0, .evYardGate 0 4, .evOpStart 65536, .evLaunchTailWrite 0 4 0 none, .evActivate 512, .evRelease 0 64, .evRowStep 32768,
      .evCircuitTrained 1 1 0 true, .evCircuitTrained 0 1 65 true, .evWavelengthFail 0 8, .evEwenTrained 0 17 0 0 0, .evEwenRetrain 16 ] := by decide

/-! ### States for tests -/

/-- Core 0 is as given, and was so before the bundle. -/
abbrev on (c : Core) : State := { cores := [(0, c)], iss := { pre := c } }

/-- Core 0 with one queue. -/
abbrev onQ (q : Queue) : State := on { c := { q := [(3, q)] } }

/-- An OPEN queue of two slots of 64 bytes, one of them filled and present. -/
abbrev openQ : Queue := { st := .opened, size := 64, count := 2, tail := 1, pres := [(0, 0)] }

/-- A sender of queue 2 of core 1. -/
abbrev sendQ : Queue := { openQ with st := .send, partner := some (1, 2), cr := 2 }

/-- Context 0 of die 0 ACTIVE in yard 0, with a level 2 leaf over local memory, or over host memory, at address 0. -/
abbrev tree (top : Byte) : Memory := [(1, 1), (7, 0x80), (0x106, 0x80), (0x107, top)]
abbrev paged (c : Core) : State :=
  { on { c with ctx := some 0 } with ctxs := [(0, { st := .active, yards := 1, tqlog := 2 })], mem := tree 0xC3, crown := { pstate := 2 } }
abbrev hostPaged (c : Core) : State := { paged c with mem := tree 0xD3 }

/-- The translation of that leaf, as a core caches it. -/
abbrev localEnt : TlbEnt := { ctx := 0, base := 0, log := 33, leaf := 0xC380000000000000 }
abbrev hostEnt : TlbEnt := { localEnt with leaf := 0xD380000000000000 }

/-- A group of context 0 with some tasks. -/
abbrev group (ts : List Task) : Group :=
  { ctx := 0, gid := 1, queue := 0, gpol := 0, obj := 0, hdr := [], items := [], teams := [], tasks := ts, tag := 0, cpl := false, crec := 0,
    bar := false, created := 0, order := 0 }

/-- What holds of the next state, if the answer is one. -/
abbrev after {α : Type} (o : Host.Outcome State Fault Refusal) (f : State → α) : Option α :=
  match o with
  | .next t => some (f t)
  | _ => none

/-- A source that is no channel. -/
def isPlain : Opd → Bool
  | .peek _ _ | .pop _ _ => false
  | _ => true

theorem plain_reads (s : State) (l : List Opd) (h : l.all isPlain = true) : ∀ o ∈ l, s.canRead o := by
  intro o ho
  have := List.all_eq_true.mp h o ho
  cases o <;> trivial

theorem plain_writes (s : State) (l : List Opd) (h : l.all (fun o => !isAppend o) = true) : ∀ o ∈ l, s.canWrite o := by
  intro o ho
  have := List.all_eq_true.mp h o ho
  cases o <;> trivial

/-- A pop of the filled slot may be read, a pop beyond it may not. -/
theorem reads_pop : (onQ openQ).canRead (.pop 3 0) ∧ ¬ (onQ openQ).canRead (.pop 3 1) := by
  refine ⟨⟨by decide, by decide, by decide⟩, fun h => absurd h.2.1 (by decide)⟩

/-! ### What is assumed can be met: scalar bays, issue and faults -/

theorem witness_ScalarResult : isAppend (g 1) = false
    ∧ ∀ f ∈ scalarForms (on {}) .sa (g 1) (g 2) (g 3) (g 4) 5 6 7 8 9 true, ∀ o ∈ f.2.1, (on {}).canRead o := by
  refine ⟨rfl, fun f hf => plain_reads _ _ ?_⟩
  revert f hf; decide

theorem witness_ScalarAppend : (onQ openQ).canWrite (.app 3) ∧ openQ.slotAddr (ctr openQ.tail) % 8 = 0
    ∧ (onQ sendQ).canWrite (.app 3) ∧ sendQ.partner = some (1, 2)
    ∧ ∀ f ∈ scalarForms (onQ openQ) .sa (.app 3) (g 2) (g 3) (g 4) 5 6 7 8 9 true, f.2.1.any isAppend = false →
        f.2.1.all isPlain = true := by
  refine ⟨(by decide : openQ.st.mayAppend = true), by decide, (by decide : sendQ.st.mayAppend = true), rfl, ?_⟩
  decide

/-- QUEUE_STATE, QUEUE_UNDERRUN and SPLICE_LOST of a source, and QUEUE_STATE and SPLICE_LOST of an append. -/
theorem witness_ChannelFaults :
    let first (i : Instr) (s : State) : Option Nat := ((uses i).filterMap (sourceRule s) ++ (defs i).filterMap (appendRule s)).head?
    first (.mov .sa (g 1) (.pop 3 0)) (onQ sendQ) = some Code.queueState ∧ first (.mov .sa (g 1) (.peek 3 1)) (onQ openQ) = some Code.queueUnderrun
      ∧ first (.mov .sa (g 1) (.pop 3 0)) (onQ { openQ with st := .lost, pres := [] }) = some Code.spliceLost
      ∧ first (.mov .sa (.app 3) (g 1)) (onQ { openQ with st := .lost, lostSend := true }) = some Code.spliceLost
      ∧ first (.mov .sa (.app 3) (g 1)) (onQ { openQ with st := .lost }) = some Code.queueState
      ∧ first (.mov .sa (.app 3) (g 1)) (onQ {}) = some Code.queueState ∧ (Instr.mov .sa (.app 3) (g 1)).wf = true := by decide

theorem witness_StepPerformsEvent : State.reset.agenda = [{ due := 0, act := .ev (.evPowerUp .ok) }] ∧ (Instr.evPowerUp .ok).wf = true := by decide

/-- A block of code: `MOV g5, g6` at 0, then a header-only bundle. -/
abbrev block0 : List Byte := [0x02, 0x00, 0x00, 0x00, 0x60, 0x50, 0x41, 0x3F] ++ List.replicate 56 0
abbrev ready0 : Core := { ctx := some 0, t := { mode := .running, pc := 0, g := [(6, 7)] }, held := [(0, block0)] }

theorem witness_StepIssuesBundle :
    let s : State := { on ready0 with agenda := [{ due := 0, act := .issue 0 0 }] }
    let u : State := { s with
      agenda := [], cur := 0, iss := { pre := s.core 0, bundle := 0, npc := bundleLen 2, mask := 2, idle := 0, mem := s.mem } }
    let i := Instr.mov .sa (g 5) (g 6)
    (s.core 0).t.late = [] ∧ (s.core 0).t.jump = none ∧ (s.core 0).t.notBefore ≤ s.now
      ∧ (s.core 0).bundleBytes 0 = .ok (block0.take 8) ∧ (decodeBundle (block0.take 8)).toOption.map (fun b => b.bays) = some [i] ∧ u.stalled 0 [i] = false
      ∧ u.banksOk 0 [i] = true ∧ portsOk [i] = true ∧ popsOk [i] = true ∧ dataReserved u i = false ∧ writesOk [i] = true
      ∧ after (exec i u) (fun t => (t.iss.trapped, t.me.scalar 5)) = some (false, 7) := by decide

theorem witness_StepRunsMicroOp :
    let s : State := { agenda := [{ due := 0, act := .micro 0 }], units := [(0, { running := true, store := [(0, 0x61000000)] })] }
    (s.unit 0).running = true ∧ (s.unit 0).waitPage = false ∧ (s.unit 0).mpc < 64
      ∧ decode (.bu (NMap.get 0 (s.unit 0).store (s.unit 0).mpc)) = .ok (.buzero 1) := by decide

theorem witness_StepKeepsAgenda : State.reset.agendaOk = true ∧ ∃ s', step State.reset = .next s' := ⟨by decide, _, rfl⟩

/-- An opcode that is not assigned, a header bit that must be zero; seven registers read; an action descriptor of a reserved kind; a register written twice. -/
theorem witness_BundleChecks :
    let s : State := { on { ctx := some 0, t := { g := [(9, 0xF000000000000000)] } } with ctxs := [(0, { opq := 1 })] }
    let ports := [Instr.brz (g 1) 0, .sel .sa (g 0) (g 2) (g 3) (g 4), .sel .sb (g 8) (g 5) (g 6) (g 7)]
    let write := [Instr.mov .sa (g 5) (g 6), .mov .sb (g 5) (g 6)]
    let data := [Instr.cpy tok9 0 0 0 (some (g 9))]
    (decodeBundle [1, 0, 0, 0, 0, 0xF8] = .error .illegalBundle ∧ s.stalled 0 (bundleBays [1, 0, 0, 0, 0, 0xF8]) = false)
      ∧ (decodeBundle [0, 0x10] = .error .reservedField ∧ bundleBays [0, 0x10] = [] ∧ s.banksOk 0 [] = true)
      ∧ portsOk ports = false ∧ popsOk [.mov .sa (g 5) (.pop 3 0), .mov .sb (g 6) (.pop 3 0)] = false
      ∧ (portsOk data = true ∧ popsOk data = true ∧ data.any (dataReserved s) = true)
      ∧ (portsOk write = true ∧ popsOk write = true ∧ write.any (dataReserved s) = false ∧ writesOk write = false)
      ∧ s.stalled 0 write = false ∧ s.banksOk 0 write = true ∧ s.stalled 0 ports = false ∧ s.banksOk 0 ports = true ∧ s.stalled 0 data = false := by
  decide

theorem witness_FaultTaken :
    let s (ct : Word) : State := { on { t := { mode := .running, grp := 1 } } with groups := [(1, group [{ recd := [ct], arg := 0 }])] }
    (∀ p ∈ [(0, 0), (0x20000000000, 1), (0x40000000000, 2), (0x60000000000, 3)], recCT ((s p.1).taskRec (s p.1).cur) = p.2)
      ∧ (s 0).me.after = 0 ∧ (s 0x20000000000).me.tries < 2 ∧ 2 ≤ ({ tries := 2 } : TaskSt).tries ∧ ({ after := 1 } : TaskSt).after = 1
      ∧ ((s 0x40000000000).task? 1 0).map (fun t => (t.st, t.cause)) = some (.listed, 0) ∧ (s 0x40000000000).ownedOps 1 0 = [] := by decide

/-- Room and a slot in host memory; no room and a replayable record; no room and one that is not. -/
theorem witness_RecordPosted :
    let s := hostPaged {}
    let full := { s with ctxs := [(0, { tqlog := 1, tqtail := 1 })] }
    let rec_ (r f : Bool) : TrapRec := ({ code := 1, repl := r, fatal := f } : RecInfo).raw
    (s.context 0).mailOnly = false ∧ (s.context 0).tqOcc + 1 < 2 ^ (s.context 0).tqlog
      ∧ s.translate 0 0 { acc := 5 } = .ok { tgt := .host 0, kind := 0, peer := false } ∧ s.hostCut 0 0 = false
      ∧ s.tqHeld 0 = 0 ∧ ¬ (full.context 0).tqOcc + 1 < 2 ^ (full.context 0).tqlog ∧ recFatal (rec_ true false) = false ∧ recRepl (rec_ true false) = true
      ∧ recRepl (rec_ false false) = false ∧ recFatal (rec_ false true) = true := by decide

theorem witness_ControlTransfers : ∀ f ∈ controlForms (on {}) (g 1) (g 2) 5, ∀ o ∈ f.2.1, (on {}).canRead o := by
  intro f hf; apply plain_reads; revert f hf; decide

theorem witness_IssueGoesOn : (on {}).iss.unfin = [] ∧ ((on {}).core 0).t.walk = none ∧ ((on {}).core 0).t.after = 0 ∧ (on {}).iss.transfer = none := by
  decide

/-- A wait that passes at its threshold; a sum of 65535 and one beyond it. -/
theorem witness_Semaphores :
    let s := on { c := { sem := [(1, 65280)] } }
    (4095 : BitVec 12).toNat ≤ s.sem 0 1 ∧ s.sem 0 1 + (255 : BitVec 8).toNat ≤ 65535 ∧ 65535 < s.sem 0 1 + 256 ∧ (255 : BitVec 8) ≠ 0
      ∧ 65535 < (on { c := { sem := [(1, 65281)] } }).sem 0 1 + (255 : BitVec 8).toNat := by decide

theorem witness_TaskEndAndBreak :
    let b (n : Nat) : State := { on { ctx := some 0 } with ctxs := [(0, { dbgen := n })] }
    (b 1).breakOn 0 = true ∧ (b 0).breakOn 0 = false ∧ ((on { t := { after := 1 } }).core 0).t.after = 1
      ∧ ((on { t := { after := 2 } }).core 0).t.after = 2 := by decide

theorem witness_SoftwareTrap : (on {}).canRead (g 1) := trivial

/-! ### Scratchpad, spill, system registers and memory -/

/-- A lease of eight words, live in the pool of core 1, and one revoked to address 64. -/
abbrev leased (rev : Bool) : State :=
  on { c := { lease := [(0, { live := true, rev := rev, core := 1, words := 8, fb := 64, poolBase := 0 })] } }

theorem witness_ReadResult : ∀ rev, ∀ f ∈ readForms (leased rev) (g 1) (g 2) (g 3) 3 false 0 1, (∀ o ∈ f.2.1, (leased rev).canRead o) ∧ f.2.2.1 := by
  intro rev
  cases rev <;> (intro f hf; simp only [readForms, List.mem_cons, List.not_mem_nil, or_false] at hf
                 rcases hf with rfl | rfl | rfl <;> exact ⟨plain_reads _ _ (by decide), by trivial⟩)

theorem witness_ReadAppend : (onQ openQ).canWrite (.app 3) ∧ (onQ openQ).canRead (g 2) ∧ (onQ sendQ).canWrite (.app 3)
    ∧ (onQ openQ).bufOk 0 0 8 true false = true :=
  ⟨(by decide : openQ.st.mayAppend = true), trivial, (by decide : sendQ.st.mayAppend = true), by decide⟩

/-- The last byte of scratchpad, a poisoned word, and the first address of a multicast window. -/
theorem witness_ScratchpadStore :
    let s (a : Word) : State := { on { t := { g := [(2, a)] } } with dies := [(0, { win := [(0, 0x8000000000400000)] })] }
    let p : State := { s 0 with padPoison := [(padLine 0 0, true)] }
    (∀ o ∈ [g 1, g 2, g 3], (s 0).canRead o) ∧ (s 0x2FFFFF).bufOk 0 0x2FFFFF 1 false true = true
      ∧ NMap.get false (s 0).padPoison (padLine 0 0x2FFFFF) = false ∧ NMap.get 0 (s 0).padErr (Addr.pad 0 0x2FFFFF / 8) < 2
      ∧ NMap.get false p.padPoison (padLine 0 0) = true ∧ bitOf ((s 0x300000).window 0 0x300000) 63 = true
      ∧ bitOf ((s 0x300000).window 0 0x300000) 22 = true := by
  refine ⟨plain_reads _ _ (by decide), ?_⟩
  decide

/-- An address that is odd, one just past the scratchpad, and one in a FULL buffer. -/
theorem witness_AccessFaults :
    let s (a : Word) : State := on { t := { g := [(2, a)] }, c := { buf := [(0, { v := true, st := 2, size := 64, base := 64 })] } }
    (∀ o ∈ [g 2, g 3], (s 0).canRead o) ∧ (rdS (s 1) (g 2) + rdS (s 1) (g 3)).toNat % 8 = 1
      ∧ (rdS (s 0x300000) (g 2) + rdS (s 0x300000) (g 3)).toNat = 0x300000 ∧ bitOf ((s 0x300000).window 0 0x300000) 63 = false
      ∧ (s 64).bufOk 0 64 8 false true = false ∧ (s 64).bufOk 0 64 8 true false = true := by
  refine ⟨plain_reads _ _ (by decide), ?_⟩
  decide

/-- Buffers that meet an access in its last byte, and that begin just after it. -/
theorem witness_BufferRights :
    let s (b : Nat) : State := on { c := { buf := [(0, { v := true, st := 0, size := 64, base := b })] } }
    (s 64).bufOk 0 57 8 true false = false ∧ (s 64).bufOk 0 56 8 true false = true := by decide

/-- The last word of a lease, live and revoked; the first beyond it. -/
theorem witness_Spill :
    let s (rev : Bool) (i : Word) : State := on { (leased rev).core 0 with t := { g := [(2, i)] } }
    (leaseNow (s false 7) 0).live = true ∧ (rdS (s false 7) (g 2)).toNat < (leaseNow (s false 7) 0).words
      ∧ (leaseNow (s true 7) 0).rev = true ∧ ((leaseNow (s true 7) 0).fb + 8 * 7) % 8 = 0
      ∧ ¬ (rdS (s false 8) (g 2)).toNat < (leaseNow (s false 8) 0).words ∧ (leaseNow (s false 7) 1).live = false := by decide

/-- A priority at the launch priority and one above it. -/
theorem witness_SystemWrites :
    let s (v : Word) : State := on { t := { g := [(1, v)], lprio := 3, mode := .running } }
    (rdS (s 3) (g 1)).toNat ≤ (s 3).iss.pre.t.lprio ∧ (s 4).iss.pre.t.lprio < (rdS (s 4) (g 1)).toNat ∧ (s 3).me.mode = .running := by decide

/-- A cached page that admits the access, one that forbids it, and none. -/
theorem witness_MemoryIssue :
    let s (l : List TlbEnt) : State := paged { tlb := l }
    let m : MemMod := ⟨3, 0, 0, false, false⟩
    (∀ f ∈ memForms (s []) (g 1) (g 2) (g 3) (g 4) m 9 0 true 0, (∀ o ∈ f.2.1, (s []).canRead o) ∧ (∀ o ∈ f.2.2.1, (s []).canWrite o)
      ∧ f.2.2.2.1 % f.2.2.2.2.1 = 0 ∧ f.2.2.2.1 < 2 ^ 57)
    ∧ (∀ f ∈ memForms (s [localEnt]) (g 1) (g 2) (g 3) (g 4) m 9 0 true 0,
        State.tlbLookup ((s [localEnt]).core 0).tlb 0 0 = some localEnt
        ∧ checkLeaf (s [localEnt]) 0 localEnt 0 f.2.2.2.2.2.2.ask = .ok { tgt := .loc 0 0, kind := 0, peer := false })
    ∧ checkLeaf (s []) 0 { localEnt with leaf := 0xC080000000000000 } 0 { acc := 1 } = .error { code := Code.pagePermission, va := 0, acc := 1 }
    ∧ State.tlbLookup ((s []).core 0).tlb 0 0 = none := by
  refine ⟨fun f hf => ⟨plain_reads _ _ ?_, plain_writes _ _ ?_, ?_, ?_⟩, ?_, by decide, by decide⟩ <;> (try revert f hf) <;> decide

theorem witness_AccessFaults_align :
    let s (a : Word) : State := on { t := { g := [(2, a)] } }
    ∀ f ∈ memForms (s 1) (g 1) (g 2) (g 3) (g 4) ⟨3, 0, 0, false, false⟩ 0 0 true 0, f.2.2.2.1 % f.2.2.2.2.1 ≠ 0 := by decide

/-- The first address with bit 57 set. -/
theorem witness_AccessFaults_high :
    let s : State := on { t := { g := [(2, 0x200000000000000)] } }
    ∀ f ∈ memForms s (g 1) (g 2) (g 3) (g 4) ⟨3, 0, 0, false, false⟩ 0 0 true 0, f.2.2.2.1 % f.2.2.2.2.1 = 0 ∧ 2 ^ 57 ≤ f.2.2.2.1 := by decide

theorem witness_Fences :
    let s := on { t := { port := [{ id := 1, kind := .load, va := 0, size := 8 }, { id := 2, kind := .store, va := 0, size := 8 }] } }
    (on {}).me.port = [] ∧ (∃ r ∈ s.me.port, r.kind = .load) ∧ ∃ r ∈ s.me.port, r.ordered false = true := by decide

/-- Accesses of one task and of another, that meet in a byte and that do not; fences that wait and that do not. -/
theorem witness_PortOrder :
    let m (k : MemKind) (a i : Nat) : MemReq := { id := 1, kind := k, va := 0, size := 8, tgt := .loc 0 a, idx := i }
    let f (acq rel : Bool) : MemReq := { m .fence 0 0 with acq := acq, rel := rel }
    (m .load 0 0).kind ≠ .fence ∧ (m .load 0 0).stage = .held ∧ ((m .load 0 0).idx ≠ (m .load 0 1).idx) ∧ 1 ≤ (m .load 0 0).size
      ∧ (m .store 0 0).holds (m .store 7 0) = true ∧ (m .store 0 0).holds (m .store 8 0) = false ∧ (m .store 0 1).holds (m .store 7 0) = false
      ∧ dropFences [m .load 0 0] [f true false] = [f true false] ∧ dropFences [m .load 0 0] [f false true] ≠ []
      ∧ dropFences [m .store 0 0] [f true false] = [] := by decide

/-! ### What is assumed can be met: the VX bay, commands and micro-ops -/

/-- An empty queue of two slots of 256 bytes, and the sender of one. -/
abbrev vecQ : Queue := { openQ with size := 256, tail := 0, pres := [] }
abbrev vecS : Queue := { vecQ with st := .send, partner := some (1, 2), cr := 2 }
abbrev h0 (ty : BitVec 4) : VHdr := ⟨ty, 0, 0⟩

theorem witness_VectorResult : isAppend (g 1) = false
    ∧ (∀ ty, ty < 11 → ∀ f ∈ vectorForms (on {}) (h0 ty) (g 1) (g 2) (g 3) (g 4) false true false 0 3 0,
        f.2.1.all isPlain = true ∧ (f.2.2.1 ∈ [4, 8, 16, 32] ∨ f.2.2.1 = 64))
    ∧ ((vectorForms (on {}) (h0 9) (g 1) (g 2) (g 3) (g 4) false true false 0 3 0).map (fun f => f.2.2.1)).contains 4 = true
    ∧ (∀ o ∈ [g 2, g 3, g 4], (on {}).canRead o) :=
  ⟨by decide, by decide, by decide, plain_reads _ _ (by decide)⟩

theorem witness_VectorAppend : (onQ vecQ).canWrite (.app 3) ∧ (onQ vecS).canWrite (.app 3) ∧ vecS.partner = some (1, 2)
    ∧ vecQ.slotAddr (ctr vecQ.tail) % 64 = 0 ∧ vecQ.size % 64 = 0 ∧ (∀ o ∈ [g 2, g 3, g 4], (onQ vecQ).canRead o)
    ∧ ∀ f ∈ vectorForms (onQ vecQ) (h0 0) (.app 3) (g 2) (g 3) (g 4) false true false 0 3 0, f.2.2.1 = 32 ∨ f.2.2.1 = 64 :=
  ⟨(by decide : vecQ.st.mayAppend = true), (by decide : vecS.st.mayAppend = true), by decide, by decide, by decide,
    plain_reads _ _ (by decide), by decide⟩

/-- Byte elements at the ends of their range, and depth positions 0 and 31 of an image of signed bytes. -/
theorem witness_IntegerReductions :
    let els : List (Option Nat) := [some 0, none, some 255]
    (3 ≤ 8 ∧ 8 ≤ 10 ∧ tyWidth 8 = 8 ∧ els.length ≤ 512) ∧ (∀ x ∈ [0, 255], some x ∈ els ∧ x < 2 ^ tyWidth 8) ∧ els.filterMap id ≠ []
      ∧ (∃ fmt, fmt < 32 ∧ imgInt fmt = true ∧ 31 < (imgFmt fmt).k) ∧ [0, 31].Nodup := by decide

theorem witness_VectorMasks : (on {}).canRead (g 1) ∧ (onQ vecQ).canWrite (.app 3) ∧ (1 : BitVec 3) ≠ 0 ∧ (7 : BitVec 3) ≠ 0 :=
  ⟨trivial, (by decide : vecQ.st.mayAppend = true), by decide, by decide⟩

/-- A NaN of each floating-point type, and values that are none. -/
theorem witness_VectorCompare :
    (tyFmt 0).isNan 0x7FC00000 = true ∧ 0x7FC00000 < 2 ^ tyWidth 0 ∧ (tyFmt 1).isNan 0x7FC0 = true ∧ (tyFmt 2).isNan 0x7E00 = true
      ∧ (tyFmt 0).isNan 0 = false ∧ (tyFmt 0).isNan 0x7F800000 = false ∧ 2 ^ (tyWidth 10 - 1) < 2 ^ tyWidth 10 := by decide

theorem witness_BlockConversions : (on {}).canRead (g 1) ∧ (onQ vecQ).canWrite (.app 3)
    ∧ (13 ≤ (13 : BitVec 4).toNat ∧ (14 : BitVec 4).toNat ≤ 14) ∧ (2 : BitVec 4).toNat < 3 :=
  ⟨trivial, (by decide : vecQ.st.mayAppend = true), by decide, by decide⟩

/-- The last 256 bytes of scratchpad; a lane of a gather in its last word. -/
theorem witness_VectorLoads :
    let s := on { t := { v := [(1, (0x2FFFFC : Word).setWidth 2048), (2, (0 : Word).setWidth 2048), (3, (0x2FFF00 : Word).setWidth 2048)] } }
    let x := (rdLane0 s 3 (g 3)).toNat
    let hd : VHdr := ⟨4, 0, 0⟩
    (∀ y, s.bufOk s.cur y 4 true false = true) ∧ x % 64 = 0 ∧ x + 256 = 0x300000 ∧ gatherAt s (g 1) (g 2) 0 = 0x2FFFFC
      ∧ (activeMask s hd).getLsbD 0 = true := ⟨fun _ => rfl, by decide⟩

/-- The last line group of scratchpad, and the last of the multicast windows. -/
theorem witness_VectorStore :
    let s (x : Word) : State := { on { t := { v := [(3, x.setWidth 2048)] } } with dies := [(0, { win := [(15, 0x8000000000400000)] })] }
    (∀ y, (s 0x2FFF00).bufOk 0 y 4 false true = true) ∧ (rdLane0 (s 0x2FFF00) 3 (g 3)).toNat = 0x2FFF00
      ∧ NMap.get false (s 0).padPoison (padLine 0 0x2FFF00) = false
      ∧ (rdLane0 (s 0x3FFF00) 3 (g 3)).toNat + 256 ≤ 0x400000 ∧ (∀ j, j < 4 → bitOf ((s 0x3FFF00).window 0 (0x3FFF00 + 64 * j)) 63 = true)
      ∧ bitOf ((s 0x3FFF00).window 0 0x3FFF00) 22 = true := ⟨fun _ => rfl, by decide⟩

/-- An odd address, one a line before the end, one of no window, and one in a FULL buffer; lanes 0 and 1 of a gather. -/
theorem witness_VectorAccessFaults :
    let s (x i : Word) : State := on { t := { v := [(3, x.setWidth 2048), (2, i.setWidth 2048)] }, c := { buf := [(0, { v := true, st := 2, size := 64, base := 64 })] } }
    (∀ o ∈ [g 1, g 2, g 3], (s 0 0).canRead o) ∧ (rdLane0 (s 1 0) 3 (g 3)).toNat % 64 ≠ 0 ∧ (rdLane0 (s 0x2FFF40 0) 3 (g 3)).toNat + 256 > 0x300000
      ∧ bitOf ((s 0x300000 0).window 0 0x300000) 63 = false ∧ (s 64 0).bufOk 0 64 4 false true = false
      ∧ gatherAt (s 0 0x100000000) (g 3) (g 2) 0 % 4 = 0 ∧ gatherAt (s 0 0x100000000) (g 3) (g 2) 1 % 4 = 1
      ∧ gatherAt (s 0 0x300000) (g 3) (g 2) 0 = 0x300000 := by
  refine ⟨plain_reads _ _ (by decide), ?_⟩
  decide

theorem witness_CommandIssue : ∀ i ∈ plainForms tok9 1 2 3 4 5 (g 1) (g 2) (g 3) 6 7 0 true (some (g 4)), ∀ o ∈ i.2, (on {}).canRead o := by
  intro i hi; apply plain_reads; revert i hi; decide

/-- No action, one that appends to an OPENED queue, one that appends to a FREE one, and one of a reserved kind. -/
theorem witness_OperationIssue :
    let s (v : Word) : State := { onQ vecQ with iss := { pre := { t := { g := [(9, v)] }, c := { q := [(3, vecQ)] } } } }
    (∀ z ∈ opForms tok9 ⟨false, 0, 0, g 1, g 2, g 3, false, false, false, false, 0⟩ false false false 0 0 0 0 0 0 0 0 0 0 (.app 3) (g 2) (some (g 9)),
        (z.2.1 ++ z.2.2.2.1.toList).all (fun o => isPlain o) = true)
      ∧ vecQ.st.mayAppend = true ∧ caValid (caVal (s 0) none) = true ∧ (caValid (caVal (s 0x3000000000002003) (some (g 9))) = true ∧ caKind (caVal (s 0x3000000000002003) (some (g 9))) = 3)
      ∧ bits (caArg (caVal (s 0x3000000000002003) (some (g 9)))) 0 5 = 3 ∧ (NMap.get {} (s 0).iss.pre.c.q 4).st.mayAppend = false
      ∧ caValid (caVal (s 0xF000000000000000) (some (g 9))) = false ∧ ((s 0).ops.filter (fun kv => kv.1 / 8192 == 0)).length < 8192 := by decide

/-- The last 256 bytes of scratchpad; an uncorrectable word; an odd place, one beyond the end, one in an EMPTY buffer; a write of sixteen entries that lands. -/
theorem witness_ScaleCommands :
    let s (x : Word) : State := { on { t := { g := [(1, x)] }, c := { buf := [(0, { v := true, st := 0, size := 64, base := 64 })] } } with padErr := [(Addr.pad 0 0 / 8, 2)] }
    (on {}).canRead (g 1) ∧ (2 : BitVec 2) ≠ 3
      ∧ (rdS (s 0x2FFF00) (g 1)).toNat + 256 ≤ 0x300000 ∧ (s 0).bufOk 0 0x2FFF00 256 true false = true ∧ (s 0).padBad 0 0x2FFF00 256 = false
      ∧ (s 0).padBad 0 0 4 = true ∧ (s 0).bufOk 0 0 4 true false = true ∧ (s 0).bufOk 0 64 4 true false = false
      ∧ ({ due := 5, eng := 0, entry := 1008, vals := [], conv := 2 } : ScaleWrite).conv ≤ 2 :=
  ⟨trivial, by decide⟩

/-- A run with an emit left, at its limit, and at its start; a row of its own bank, another's, and one with an uncorrectable word. -/
abbrev runCmd (base lim : Word) : Cmd := { ins := .burun noTok (g 1) (g 2) (g 3), vals := [base, 0, lim], tok := some 9, serial := 4 }
abbrev runUnit (lim : Word) : State :=
  { on { t := { mode := .running, tokOwner := [(9, .cmd 4)] } } with units := [(0, { running := true, mpc := 1, work := [.run 0 (runCmd 0 lim) none] })] }

theorem witness_MicroControl :
    let b (lim : Word) : BankUnit := (runUnit lim).unit 0
    (runCmd 0 1).ins.unitCode = 0x40 ∧ ((b 1).emits < ((runCmd 0 1).vals.getD 2 0).toNat ∧ ((runCmd 0 1).vals.getD 1 0).toNat % 32 = 0)
      ∧ ((runCmd 0 0).vals.getD 2 0).toNat ≤ (b 0).emits ∧ 1 ≤ (b 0).mpc 
      ∧ (b 0).stop = none ∧ tokenWaits (runUnit 0) 0 (runCmd 0 0) 9 := by unfold tokenWaits; decide

/-- Bank unit 0 at work in a shared rotation, over a page of local memory. -/
abbrev shared (w : List BuWork) : State :=
  { paged { t := { mode := .running } } with units := [(0, { running := true, work := w })], dies := [(0, { pcs := [(0, { mode := .shared })] })] }

/-- An emit that lands in the last bytes of scratchpad; a run with none and with one on its way. -/
theorem witness_MicroControl_land :
    let s : State := { runUnit 1 with agenda := [{ due := 0, act := .land 0 0x2FFFE0 (List.replicate 32 7) {} }] }
    s.agenda = { due := s.now, act := .land 0 0x2FFFE0 (List.replicate 32 7) {} } :: [] ∧ NMap.get false (s.die (dieOf 0)).gated (yardOf 0) = false
      ∧ (s.core 0).recent = [] ∧ (∀ kv ∈ s.units, kv.2.ends = []) ∧ 0x2FFFE0 % 8 = 0 ∧ (List.replicate 32 (7 : Byte)).length = 32
      ∧ (runUnit 1).runOut 0 (runCmd 0 1) = false ∧ s.runOut 0 { runCmd 0 1 with vals := [0, 0x2FFFE0, 1] } = true := by decide

/-- A row of bank unit 0, correct or uncorrectable, and one of another bank; the sixteen lines of a run's row; an entry's row. -/
theorem witness_MicroControl_row :
    let s : State := shared [.run 0 (runCmd 0 1) none]
    let v := s.fixMode 0 0
    let bad : State := { s with ecc := [(Addr.localMem 0 0x400000 / 32, .uncorrectable)] }
    v.rowWait 0 = none ∧ s.cmdFrozen 0 (runCmd 0 1) = false ∧ (s.unit 0).stop = none
      ∧ (v.runHomesOf 0 ((List.range 16).map (fun i => 64 * s.npc 0 * i))).toOption.map (fun xs => (xs.length, xs.all (fun x => x.tgt != .host 0))) = some (16, true)
      ∧ (match v.runHomesOf 0 [2 ^ 56] with | .error f => f.code == Code.pageNotPresent | .ok _ => false) = true
      ∧ (v.rowHome 0 0x400000).toOption.map (fun h => (unitKey 0 h.p h.bank, h.row, v.rowBad 0 h)) = some (0, 1, false)
      ∧ ((bad.fixMode 0 0).rowHome 0 0x400000).toOption.map (fun h => (bad.fixMode 0 0).rowBad 0 h) = some true
      ∧ (v.rowHome 0 64).toOption.map (fun h => unitKey 0 h.p h.bank) = some 32 := by decide

/-- Work to take up: a run and a program, of the unit's own context and of another; the key row and the value row of an entry. -/
theorem witness_MicroControl_step :
    let s (tag : Option Nat) (w : List BuWork) : State := { paged {} with units := [(0, { tag := tag, work := w })] }
    let e : QEntry := { krow := 0, vrow := 0, npos := 1, unit := some 0 }
    let q (v : Bool) : State :=
      { shared [.entry 0 0] with ops := [(0, { st := .started, unit := 0x20, ctx := 0, entries := [{ e with inValue := v }] })] }
    (s none [.run 0 (runCmd 0 1) none]).pickWork [.run 0 (runCmd 0 1) none] = some (.run 0 (runCmd 0 1) none)
      ∧ (s none []).pickWork [] = none ∧ ((s (some 1) [.prog 0 (runCmd 0 1)]).unit 0).tag = some 1 ∧ ((s none []).ctxOf 0) = 0
      ∧ (s none [.prog 0 (runCmd 0 1)]).pickWork [.prog 0 (runCmd 0 1)] = some (.prog 0 (runCmd 0 1))
      ∧ (∀ v, ((q v).op? 0).isSome = true ∧ (q v).opFrozen ((q v).op 0) = false ∧ ((q v).fixMode 0 0).rowWait 0 = none
          ∧ (((q v).fixMode 0 0).rowHome 0 0).toOption.map (fun h => (unitKey 0 h.p h.bank, h.row)) = some (0, 0)) := by decide

/-! ### What is assumed can be met: the events of accesses, stacks, engines and operations -/

/-- A block that was asked for, of a page that may be executed, and of one that may not. -/
theorem witness_FetchAndWalk_fetch :
    let c (leaf : Word) : Core := { ctx := some 0, fetching := [0], tlb := [{ localEnt with leaf := leaf }], t := { mode := .running } }
    let s (leaf : Word) : State := paged (c leaf)
    let leafOf (w : Word) : TlbEnt := { localEnt with leaf := w }
    (c 0).t.port.any (fun r => (c 0).t.fetchWait.contains r.id) = false ∧ (c 0).block 0 = none
      ∧ State.tlbLookup (c 0xC380000000000000).tlb 0 0 = some (leafOf 0xC380000000000000)
      ∧ checkLeaf (s 0) 0 (leafOf 0xC380000000000000) 0 { acc := 3 } = .ok { tgt := .loc 0 0, kind := 0, peer := false }
      ∧ (s 0).homeBad (.loc 0 0) 64 = false ∧ State.tlbLookup (c 0xC300000000000000).tlb 0 0 = some (leafOf 0xC300000000000000)
      ∧ checkLeaf (s 0) 0 (leafOf 0xC300000000000000) 0 { acc := 3 } = .error { code := Code.pagePermission, va := 0, acc := 3 } := by decide

/-- A load that waits for its walk, of a page that the tree gives, and of one it forbids. -/
theorem witness_FetchAndWalk_walk :
    let u : Unfin := { bay := 2, req := { kind := .load, va := 0, size := 8 } }
    let s (top : Byte) : State := { paged { ctx := some 0, t := { walk := some u } } with mem := tree top }
    ((s 0xC3).core 0).t.after = 0 ∧ u.target = none ∧ u.req.kind ≠ .fence ∧ State.tlbLookup ((s 0xC3).die 0).tlb 0 0 = none
      ∧ (s 0xC3).walk 0 0 u.req.ask.acc = .ok localEnt ∧ checkLeaf (s 0xC3) 0 localEnt 0 u.req.ask = .ok { tgt := .loc 0 0, kind := 0, peer := false }
      ∧ checkLeaf (s 0xC3) 0 { localEnt with leaf := 0xC080000000000000 } 0 u.req.ask = .error { code := Code.pagePermission, va := 0, acc := 0 } := by decide

/-- Accesses that are served: of one and of eight bytes, of local memory, of host memory, of a window, and of a link that is down. -/
abbrev served (r : MemReq) (down : Bool) : State :=
  { paged { t := { mode := .running, port := [r], wait := [(1, 1)] } } with dies := [(0, { hostDown := down })] }
abbrev req1 (k : MemKind) (st : PStage) : MemReq := { id := 1, kind := k, stage := st, dest := .reg 1, tgt := .loc 0 0, size := 8, amo := 8 }

theorem witness_PortEvents :
    (∀ k st, ((served (req1 k st) false).core 0).t.req? 1 = some (req1 k st))
      ∧ (∀ k st down, (served (req1 k st) down).peerFails 0 (req1 k st) = false) ∧ (∀ q c, (req1 .load .queued).dest ≠ .slot q c)
      ∧ NMap.find ((served (req1 .load .performed) false).core 0).t.wait 1 = some 1 ∧ (255 : Word).toNat < 2 ^ (8 * 1)
      ∧ (served (req1 .load .queued) false).cutOff 0 { req1 .load .queued with tgt := .host 8 } = false
      ∧ (served (req1 .load .queued) false).hostCut 0 8 = false ∧ (served (req1 .load .queued) true).hostCut 0 8 = true
      ∧ ((served (req1 .store .queued) false).eccOf 0 0).bad = false ∧ 32 % 8 = 0 ∧ (req1 .amo .slotted).amo ≤ 8
      ∧ (served (req1 .amo .slotted) false).homeBad (.loc 0 0) 8 = false
      ∧ (((served (req1 .store .queued) false).die 0).pubBuf.length + 8 ≤ 65536) :=
  ⟨fun k st => by (cases k <;> cases st <;> rfl), fun k st _ => by (cases k <;> cases st <;> rfl), fun _ _ h => by (cases h), by decide⟩

/-- An access to host memory that no older one meets; one to a die whose circuit is down; the data of a load whose destination is a slot. -/
theorem witness_PortEvents_links :
    let h : MemReq := { req1 .load .queued with tgt := .host 8 }
    let p : MemReq := { req1 .load .queued with tgt := .loc 1 0, peer := true }
    let q : MemReq := { req1 .load .performed with dest := .slot 3 0 }
    let s (r : MemReq) : State := { served r false with circuits := [(1, { st := .down })] }
    (h.slotBad = none ∧ 1 ≤ h.size ∧ h.size ≤ 8) ∧ (s h).peerFails 0 h = false ∧ (s h).olderMeets 0 h = false ∧ (s h).peerWaits 0 h = false
      ∧ (s h).cutOff 0 h = false ∧ (s p).peerFails 0 p = true ∧ p.stage ≠ .held ∧ ((onQ openQ).queue 0 3).st = .opened
      ∧ ((onQ openQ).queue 0 3).gen = 0 / 65536 ∧ q.err = false ∧ ((onQ openQ).queue 0 3).slotAddr 0 % 8 = 0 := by decide

/-- A write of one word and of a whole line, whose bank is free, and one whose bank has taken a write. -/
theorem witness_PortEvents_multicast :
    let s (t : List (Nat × Nat)) : State := on { mcTaken := t }
    (List.replicate 8 (some (7 : Byte))).length = 8 ∧ (List.replicate 64 (some (7 : Byte))).length = 64 ∧ 0x2FFFC0 % 8 = 0
      ∧ ((s []).core 0).mcTaken.contains (0x2FFFC0 / 2 ^ 14, 0) = false ∧ (∀ e ∈ (s []).agenda, (s []).now < e.due) ∧ ((s []).core 0).recent = []
      ∧ NMap.get false (s []).padPoison (padLine 0 0x2FFFC0) = false ∧ NMap.get 0 (s []).padErr (Addr.pad 0 0x2FFFC0 / 8) < 2
      ∧ ((s [(191, 0)]).core 0).mcTaken.contains (0x2FFFC0 / 2 ^ 14, 0) = true := by decide

/-- A slot of core 0 with a request of its own, whose bank is free at the last cycle that serves it; and one that serves a line of a copy. -/
theorem witness_SlotEvents :
    let c (m : PcMode) (w : Nat) (own : List Nat) : PChan :=
      { mode := m, queues := [(0, own)], unslot := [{ prio := 1, arrived := 0, pa := 64, op := some 0 }], bankFree := [(0, w)] }
    let s (m : PcMode) (w : Nat) (own : List Nat) : State :=
      { served (req1 .load .queued) false with ops := [(0, { st := .started, need := 1 })], dies := [(0, { pcs := [(0, c m w own)] })] }
    (∀ x ∈ [(PcMode.active, 60), (.shared, 180), (.powerDown, 60), (.selfRefresh, 60)],
      let p := ((s x.1 x.2 [1]).fixMode 0 0).pchan 0 0
      NMap.get [] p.queues 0 = [1] ∧ NMap.get 0 p.bankFree (placeOf ((s x.1 x.2 [1]).npc 0) 0).bank = (if p.mode = .shared then 180 else 60))
    ∧ (pickUnslot 128 (c .active 0 []) 0).map (fun u => u.op) = some (some 0) ∧ ((s .active 0 []).op? 0).map (fun o => o.need) = some 1 := by decide

/-- The idle timer one cycle short of PDIDLE and at it, SRIDLE reached; the second heartbeat missed. -/
theorem witness_StackEvents :
    let s (p : PChan) (d : Die) : State := { now := 4096, dies := [(0, { d with pcs := [(0, p)] })] }
    ((s {} {}).pchan 0 0).rot ≠ (s {} {}).now / 256 ∧ 4096 / 256 * 256 < 1 + (({} : Die)).pdidle ∧ 0 + ({} : Die).pdidle ≤ 4096 / 256 * 256
      ∧ (s {} {}).pcShared 0 0 = false
      ∧ ({ s {} {} with units := [(0, { running := true })] } : State).pcShared 0 0 = true
      ∧ NMap.get 0 ({ hbAt := [(1, 1846)], hbRow := [(1, 1)] } : Die).hbAt 1 + 2250 ≤ 4096 := by decide

/-- A `MZERO` whose wait holds at its threshold; one that may be fetched; a line to fetch; one whose array phase begins; a line to drain. -/
abbrev zeroCmd : Cmd := { ins := .mzero { noTok with we := true, wsem := 3, wthr := 5, wc := true } false 1, serial := 4, op := some 0 }
abbrev engOf (e : Engine) : State :=
  { paged { ctx := some 0, t := { mode := .running, me0 := e }, c := { sem := [(3, 5)] } } with
    now := 9, ops := [(0, { st := .started, cmd := zeroCmd })] }

theorem witness_MatrixEvents :
    let d (x : Cmd) : Engine := { running := [x] }
    (engOf { q := [zeroCmd] }).waitOk 0 zeroCmd = true ∧ zeroCmd.t < (engOf {}).now
      ∧ ({ (engOf { q := [zeroCmd] }) with now := 0 } : State).now ≤ zeroCmd.t
      ∧ ({ q := [{ zeroCmd with h := 9 }] } : Engine).fetchReady 9 = true
      ∧ (engOf {}).matFault 0 { zeroCmd with h := 9, fs := 9, c := matCycles zeroCmd.ins } = none ∧ matCycles zeroCmd.ins ≠ 0
      ∧ (d { zeroCmd with lines := [0x2FFFC0] }).running.getLast? = some { zeroCmd with lines := [0x2FFFC0] }
      ∧ (engOf (d { zeroCmd with lines := [0x2FFFC0] })).engBank 0 (0x2FFFC0 / 2 ^ 14) = true ∧ (engOf {}).padBad 0 0x2FFFC0 64 = false
      ∧ (d { zeroCmd with fe := 8, c := 16 }).startOf { zeroCmd with fe := 8, c := 16 } = some 9
      ∧ ((engOf {}).op? 0).map (fun o => o.st) = some .started ∧ ((engOf {}).core 0).recent = [] ∧ (zeroCmd.ins.cmdUnit = 0) ∧ (List.replicate 64 ((255 : Byte), (7 : Byte))).length = 64 := by decide

/-- An FP32 product without sign fields, a list of two that is sorted, and moves whose slot begins at a line and whose pitch is a row. -/
theorem witness_MatrixArrays :
    let p : MmaPay := ⟨false, 8, 0, g 1, g 2, g 3, false, false, false, false, 0⟩
    let ld : Instr := .mldacc tok9 false 9 0 (g 1) (g 2) 1 false
    let dr : Instr := .mdrain tok9 false 0 0 (.app 3) (g 2) 0 0 0 false
    let l : List (Nat × Nat) := [(0x40000000, 1), (0x3F800000, 2)]
    let i := (onQ vecQ).imgSrc 0 0 (some (3, 0))
    (p.fmt.toNat = 8 ∧ p.sga = false ∧ p.sgb = false) ∧ (Instr.mma tok9 p).wf = true ∧ ld.wf = true ∧ dr.wf = true
      ∧ (l.map (fun z => fmtF32.isNan z.1)) = [false, false] ∧ ltZero fmtF32 0x40000000 0x3F800000 = false ∧ ltZero fmtF32 0x3F800000 0x40000000 = true
      ∧ i.base % 64 = 0 ∧ 8 * fmtNibs 8 ≤ 64 ∧ bitOf 0x10001 0 = true ∧ bitOf 0x10001 16 = true := by decide

/-- A record of 64 bytes of scratchpad. -/
abbrev padRec (base : Word) : List Word := [0xC000000000000000 + base, 0x100000040, 0x100000001, 0, 0, 0, 0x00C0000000000000, 0]
abbrev cpyIns : Instr := .cpy tok9 0 1 0 none
abbrev cpyOp : Op :=
  { st := .started, unit := 0x20, cmd := { ins := cpyIns, tok := some 9, serial := 4 }, recs := [padRec 0, padRec 0x1000], lines := [(0x40, [0])],
    srcs := (List.range 4).map (fun i => (({ pad := true, g := i, tag := 0 } : Gran).key, List.replicate 16 7)) }
abbrev opState (o : Op) : State :=
  { paged { ctx := some 0, t := { mode := .running, tokOwner := [(9, .op 0)] }, c := { cmdq := [(2, [o.cmd])] } } with ops := [(0, o)] }
abbrev withRecs (s : State) : State :=
  { s with mem := ((padRec 0 ++ padRec 0x1000).zipIdx).foldl (fun m p => m.writeN (0x1000 + 8 * p.2) (toBytes 8 p.1.toNat)) s.mem,
           ctxs := [(0, { st := .active, yards := 1, shbase := 0x1000, shlen := 2 })] }

theorem witness_CopyEvents : opWaited (opState cpyOp) 0 cpyOp 9
    ∧ (let o : Op := { cpyOp with st := .queued, recs := [], lines := [], srcs := [] }
      (opState o).opFrozen o = false ∧ ((withRecs (opState o)).opRecs o).toOption = some [padRec 0, padRec 0x1000]
        ∧ (withRecs (opState o)).copyChecks { o with recs := [padRec 0, padRec 0x1000] } = none
        ∧ ((opState o).opRecs o).toOption = some [[], []] ∧ (opState o).copyChecks { o with recs := [[], []] } = some Code.shapeIndex)
    ∧ (opState cpyOp).writesHeld 0 = false ∧ (∀ l ∈ lineMasks [(0x1000, (7 : Byte))], lineClear (opState cpyOp) 0 l.1)
    ∧ cpyOp.nextLine = .write true [(0x1000, 7)] 0 (0, 0) ∧ NMap.get 0 ((opState cpyOp).core 0).c.free 16 ≤ (opState cpyOp).now := by
  refine ⟨?_, ?_⟩
  · unfold opWaited; decide
  · unfold lineClear; decide

/-- An operation whose work ended, one that was stopped, and a matrix command's; a query behind an access and one whose block is not aligned; a line
for local memory. -/
theorem witness_CopyEvents_kinds :
    let v : Op := { cpyOp with cmd := { cpyOp.cmd with ins := .bqpost tok9 (g 1) (g 2) none, vals := [1, 0] } }
    let m : Op := { cpyOp with cmd := { cpyOp.cmd with ins := .mzero tok9 false 1, op := some 0 } }
    let mem (c : Cmd) (port : List MemReq) (o : Op) : State :=
      { paged { ctx := some 0, t := { mode := .running, tokOwner := [(9, .op 0)], me0 := { running := [c] }, port := port } } with ops := [(0, o)] }
    let q : Op := { v with st := .queued, entries := [] }
    let r : Op := { cpyOp with recs := [padRec 0, (padRec 0x1000).set 0 0x8000000000001000] }
    opWaited (opState v) 0 v 9 ∧ 2 ≤ v.cmd.ins.cmdUnit ∧ opWaited (mem m.cmd [] m) 0 m 9 ∧ m.cmd.ins.cmdUnit < 2
      ∧ ((mem m.cmd [] m).engine 0 0).running.find? (fun c => c.op == some 0) = some m.cmd
      ∧ (mem m.cmd [{ id := 0, kind := .load, va := 0, size := 8 }] q).portClear 0 1 = false ∧ (mem m.cmd [] q).portClear 0 1 = true
      ∧ (mem m.cmd [] q).olderQueued q = false ∧ (mem m.cmd [] q).queryTurn 0 = true ∧ (mem m.cmd [] q).opFrozen q = false
      ∧ (mem m.cmd [] q).queryFault0 0 1 0 0 = some Code.align
      ∧ (match r.nextLine with | .write false ps _ _ => (lineMasks ps).map (fun l => (l.1, l.2.length)) == [(0x40, 64)] | _ => false) = true
      ∧ (opState r).lineXl 0 0x1000 { acc := 5 } = .ok { tgt := .loc 0 0x1000, kind := 0, peer := false } := by
  refine ⟨by unfold opWaited; decide, by decide, by unfold opWaited; decide, by decide, by decide, by decide, by decide, by decide, by decide, by decide,
    by decide, by decide, by decide⟩

/-- A plan of one entry that waits for its stage, and one at its end. -/
abbrev planOp (n stage : Nat) : Op :=
  { cpyOp with cmd := { cpyOp.cmd with ins := .cplan tok9 (g 1) none }, plan := { running := true, stage := stage, next := n, entries := [0x010000000000000280030000] } }

theorem witness_OperationEvents_plan :
    ((opState (planOp 0 1)).ops.filter (fun kv => kv.2.plan.running && kv.2.core == 0)).map Prod.fst = [0]
      ∧ (planIns 0x010000000000000280030000).isSome = true
      ∧ ({ opState (planOp 0 1) with ctxs := [(0, { st := .active, opq := 2 })] } : State).portRoom (planOp 0 1) = true
      ∧ (opState (planOp 0 1)).opFrozen (planOp 0 1) = false ∧ opWaited (opState (planOp 1 1)) 0 (planOp 1 1) 9 := by
  refine ⟨by decide, by decide, by decide, by decide, ?_⟩
  unfold opWaited; decide

/-- A groom of one tile of 64 bytes from memory into queue 3: before it and behind it. -/
abbrev groomOp (tile : Nat) : Op :=
  { cpyOp with cmd := { cpyOp.cmd with ins := .subs tok9 0 1 none }, recs := [(padRec 0x2000).set 0 0x8000000000002000, (padRec 0).set 7 0x8C00000000],
               tile := tile, reqs := [(0, 0)] }
abbrev groomed (tile : Nat) : State :=
  { opState (groomOp tile) with cores := [(0, { ctx := some 0, c := { q := [(3, { vecQ with size := 64, st := .subsR, tail := 2, sub := some 0 })] }, t := { mode := .running, tokOwner := [(9, .op 0)] } })] }

theorem witness_OperationEvents_groom :
    ((groomed 0).queue 0 (groomOp 0).subsQueue).sub = some 0 ∧ (groomOp 0).subsReads = true ∧ (groomOp 0).subsTensor.byteCount = 64
      ∧ ((groomed 0).readAll (groomOp 0) (granulesOf false 0 ((groomOp 0).subsTensor.runsOf 0 64)) []).toOption.isSome = true
      ∧ lineClear (groomed 0) 0 (((groomed 0).queue 0 3).slotAddr 0 / 64) ∧ (groomOp 0).reqs ≠ [] ∧ (groomed 0).writesHeld 0 = false
      ∧ (let q := (groomed 0).queue 0 3
        1 ≤ ctr (q.tail + 65536 - ctr (q.reserved + 0)) ∧ ctr (q.tail + 65536 - ctr (q.reserved + 0)) ≤ q.count ∧ q.size ≤ 64 * (0 + 1))
      ∧ opWaited (groomed 1) 0 (groomOp 1) 9 := by
  refine ⟨by decide, by decide, by decide, by decide, by unfold lineClear; decide, by decide, by decide, by decide, ?_⟩
  unfold opWaited; decide

/-- A plan, a subscription of a tensor in memory to an open queue, and a participant of a team may start. -/
theorem witness_OperationEvents_start :
    let entry : List Byte := toBytes 12 0x010000000000000280030000
    let gr : Group := { group [{ recd := [0], arg := 0, cnt := 0 }] with obj := 0x10000, hdr := [0, 0, 0, 0, 0, 0, 0, 0x100000100], teams := [(0, [0, 1])] }
    let s (o : Op) : State := { opState o with groups := [(0, gr)], mem := ((tree 0xC3).writeN 0x10100 (toBytes 8 1)).writeN 0x10108 entry }
    let n (i : Instr) : Op := { cpyOp with st := .queued, cmd := { cpyOp.cmd with ins := i, vals := [0] }, recs := [], lines := [], srcs := [] }
    let sub_ : Op := { n (.subs tok9 0 1 none) with recs := [(padRec 0x2000).set 0 0x8000000000002000, (padRec 0).set 7 0x8C00000000] }
    let subQ : State := { s sub_ with cores := [(0, { ctx := some 0, c := { q := [(3, { vecQ with size := 64, scope := 2 })] }, t := { mode := .running } })] }
    let all (x : Word) : List Word := (padRec x).set 6 0x00E0000000000000
    let join : Op := { n (.cbc tok9 0 1 none) with recs := [all 0, all 0x1000], coll := some 0 }
    (s (n (.cplan tok9 (g 1) none))).planEntries 0 0 0 = .ok (some [0x010000000000000280030000]) ∧ (planIns 0x010000000000000280030000).isSome = true
      ∧ (s (n (.cplan tok9 (g 1) none))).planOf 0 0 0 = none
      ∧ subQ.groomWait 0 sub_ = none ∧ (sub_.shape 0).isQueue ≠ (sub_.shape 1).isQueue ∧ (subQ.queue 0 sub_.subsQueue).isEmpty = true
      ∧ (sub_.shape 0).malformed auxSubs = false ∧ (sub_.shape 1).malformed auxSubs = false
      ∧ subQ.recChecks 0 auxSubs [⟨sub_.subsTensor, sub_.subsReads, !sub_.subsReads⟩] true (!sub_.subsTensor.sp) = none
      ∧ (subQ.groomStack sub_ sub_.subsTensor).toOption.isSome = true
      ∧ (s join).teamOf join = some (0, [0, 1]) ∧ rankOf (0, [0, 1]) 0 = some 0 ∧ (join.shape 0).malformed auxColl = false ∧ (join.shape 1).malformed auxColl = false
      ∧ (s join).recChecks 0 auxColl [⟨join.shape 0, true, false⟩, ⟨join.shape 1, false, false⟩] true true = none
      ∧ (s join).opFrozen join = false := by decide

/-- A broadcast of two members, of which the first or the last joins. -/
theorem witness_OperationEvents_collective :
    let o (r : Nat) : Op := { cpyOp with cmd := { cpyOp.cmd with ins := .cbc tok9 0 1 none }, coll := some 0, rank := r }
    let c (js : List Nat) : Coll := { team := 0, n := 0, root := 0, members := [0, 1], ops := [(0, 0), (1, 1)], joined := js }
    let s (js : List Nat) : State := { opState (o 0) with ops := [(0, o 0), (1, o 1)], colls := [c js] }
    (s [1]).colls[0]? = some (c [1]) ∧ (c [1]).joined.length + 1 = (c [1]).members.length ∧ (c []).joined.length + 1 ≠ (c []).members.length
      ∧ (s [1]).collMismatch ((s [1]).collOps 0) = none ∧ (s [1]).collCut (c [1]) = none ∧ (o 0).row ≠ 1 ∧ (s [1]).dies = []
      ∧ (∀ j ∈ [(0, 0), (1, 1)], let p (r : Nat) : Op := { o r with srcs := (List.range 4).map (fun i => (({ pad := true, g := i, tag := 0 } : Gran).key, List.replicate 16 7)) }
          ({ s [1] with ops := [(0, p 0), (1, p 1)] } : State).collLeft { c [1] with joined := [1, 0], ops := (s [1]).collOps 0 } j = [])
      ∧ (let p : Op := { o 0 with row := 1, srcs := [(0, List.replicate 64 7)] }
        (p.collLines (NMap.get [] p.srcs 0))[p.prog]?.map (fun l => l.1) = some 0x40 ∧ (p.collLines (NMap.get [] p.srcs 0))[1]? = none
          ∧ (p.shape 1).sp = true ∧ ({ opState p with ops := [(0, p)] } : State).portFrom 0 ≤ 0) := by decide

/-! ### What is assumed can be met: heads, queues, leases, tasks -/

/-- Core 0 of context 0 with one command at the head of a unit, in cycle 9. -/
abbrev headed (u : Nat) (c : Cmd) (x : CtxSt) : State :=
  { paged { ctx := some 0, t := { mode := .running, tokOwner := [(9, .cmd 4)] }, c := { x with cmdq := [(u, [c])] } } with now := 9 }

/-- A command of that task, whose token it waits for. -/
abbrev cmdOf (i : Instr) (vals : List Word) : Cmd := { ins := i, vals := vals, tok := some 9, serial := 4, t := 5 }

/-- It may have its effect, if the queue 3 of its core, when it has one, has no splice under way. -/
theorem head_ready (u : Nat) (c : Cmd) (x : CtxSt) (q : Queue) (hq : q.spliceTok = none) (hx : x.q = [(3, q)]) (hw : x.waiters = [])
    (h : 3 ≤ u ∧ c.ins.cmdUnit = u ∧ (headed u c x).cmdsOf 0 u = [c] ∧ c.t + c.ins.headDelay ≤ 9 ∧ NMap.get 0 x.free u ≤ 9 ∧ x.moving = none
      ∧ (headed u c x).waitOk 0 c = true) : headReady (headed u c x) 0 u c [] := by
  obtain ⟨h1, h2, h3, h4, h5, h6, h7⟩ := h
  refine ⟨h1, h2, h3, h4, h5, h6, h7, by simp, ?_, ?_, ?_⟩
  · have : ((headed u c x).core 0).c.waiters = x.waiters := rfl
    rw [this, hw]; simp
  · have : ((headed u c x).core 0).c.waiters = x.waiters := rfl
    rw [this, hw]; exact List.nodup_nil
  · intro k y hy
    have : (headed u c x).queue 0 k = NMap.get {} x.q k := rfl
    rw [this, hx] at hy
    by_cases hk : 3 = k
    · subst hk
      have : NMap.get ({} : Queue) [(3, q)] 3 = q := rfl
      rw [this, hq] at hy; cases hy
    · have : NMap.get ({} : Queue) [(3, q)] k = {} := by simp [NMap.get, hk]
      rw [this] at hy; cases hy

theorem token_waits (u : Nat) (c : Cmd) (x : CtxSt) (h : c.tok = some 9 ∧ c.serial = 4 ∧ c.grp = 0 ∧ c.idx = 0) : tokenWaits (headed u c x) 0 c 9 := by
  obtain ⟨h1, h2, h3, h4⟩ := h
  refine ⟨h1, by decide, ?_, ?_⟩
  · rw [h3, h4]; rfl
  · rw [h2]; rfl

/-- A command of each kind of unit is ready at the first cycle that R71 and R112 give. -/
theorem witness_HeadEvents_ready (x : CtxSt) (hx : x = { q := [(3, openQ)] }) :
    headReady (headed 4 { cmdOf (.barrive tok9 1 (g 1) false 0) [1] with t := 5 } x) 0 4 { cmdOf (.barrive tok9 1 (g 1) false 0) [1] with t := 5 } []
      ∧ headReady (headed 5 { cmdOf (.opquery tok9 (g 1)) [1] with t := 8 } x) 0 5 { cmdOf (.opquery tok9 (g 1)) [1] with t := 8 } []
      ∧ tokenWaits (headed 5 (cmdOf (.opquery tok9 (g 1)) [1]) x) 0 (cmdOf (.opquery tok9 (g 1)) [1]) 9 := by
  subst hx
  exact ⟨head_ready 4 _ _ openQ rfl rfl rfl (by decide), head_ready 5 _ _ openQ rfl rfl rfl (by decide), token_waits _ _ _ (by decide)⟩

/-- Before the cycle, and with a wait that has one too few. -/
theorem witness_HeadEvents_waits :
    let c := cmdOf (.barrive { tok9 with we := true, wsem := 3, wthr := 6 } 1 (g 1) false 0) [1]
    (∀ t, 5 < t → 9 < max (t + c.ins.headDelay) 0) ∧ (headed 4 c { sem := [(3, 5)] }).waitOk 0 c = false
      ∧ (headed 4 c { sem := [(3, 6)] }).waitOk 0 c = true := by
  refine ⟨fun t h => ?_, by decide, by decide⟩
  simp [Instr.headDelay]; omega

/-- A barrier one arrival short of what it expects, and beyond it; phases on both sides of half the range; 31 and 32 waiters; a buffer that
ends where another begins, and one that meets it. -/
theorem witness_HeadEvents_clauses :
    ¬ (5 < 4 + 1) ∧ 5 < 5 + 1 ∧ ¬ (2 ^ 48 - 1 < 2 ^ 48 - 2 + 1) ∧ (2 + 65536 - 1 % 65536) % 65536 = 1 ∧ (0x7FFF + 65536 - 0 % 65536) % 65536 ≤ 0x7FFF
      ∧ 0x7FFF < (0x8000 + 65536 - 0 % 65536) % 65536 ∧ ¬ meet 0 64 64 64 ∧ meet 0 128 64 64 ∧ ¬ (0x300000 < 0x2FFFC0 + 64) := by
  refine ⟨by decide, by decide, by decide, by decide, by decide, by decide, ?_, ⟨64, by decide⟩, by decide⟩
  rintro ⟨a, h⟩; omega

/-- An identifier of a live operation of the task, of one of its group, and of one that has ended. -/
theorem witness_HeadEvents_ops :
    let o (w : Nat) (st : OpState) : Op := { gen := 3, st := st, ctx := 0, grp := if w = 0 then 0 else 7, owner := w }
    let s (w : Nat) (st : OpState) : State := { headed 5 (cmdOf (.opwait tok9 (g 1)) [3]) {} with ops := [(0, o w st)] }
    (s 0 .started).liveOp 3 = some 0 ∧ ((s 0 .started).op? 0 = some (o 0 .started)) ∧ (o 0 .started).ctx = (s 0 .started).ctxOf 0
      ∧ (s 2 .done).liveOp 3 = some 0 ∧ (s 0 .done).liveOp 4 = none ∧ (s 0 .done).justEnded 4 = none := by decide

/-- The queue commands are ready over a queue in the states their clauses name. -/
theorem witness_QueueEvents_ready (i : Instr) (hi : i ∈ [Instr.qinit tok9 3 (g 1) 6 0 1, .qstat tok9 3, .qreset tok9 3 true, .qpush tok9 3 (g 1),
      .qpop tok9 3 (g 1), .qspliceSend tok9 3 2 0 1 0, .qspliceRecv tok9 3 2 0 1 0, .qunsplice tok9 3]) (q : Queue)
    (hq : q ∈ [{}, openQ, sendQ, { openQ with st := .lost }, { sendQ with st := .pendS }, { sendQ with st := .recv }]) :
    headReady (headed 3 (cmdOf i [0]) { q := [(3, q)] }) 0 3 (cmdOf i [0]) [] := by
  simp only [List.mem_cons, List.not_mem_nil, or_false] at hi hq
  refine head_ready 3 _ _ q ?_ rfl rfl ?_
  · rcases hq with rfl | rfl | rfl | rfl | rfl | rfl <;> rfl
  · rcases hi with rfl | rfl | rfl | rfl | rfl | rfl | rfl | rfl <;> exact ⟨by decide, rfl, rfl, by decide, Nat.zero_le 9, rfl, rfl⟩

/-- The last places a queue and a move may stand at; room of one; a slot that is there; a reach within the scope and beyond it. -/
theorem witness_QueueEvents_clauses :
    0x2FFF80 + 2 ^ (6 : BitVec 5).toNat * 2 ^ ((0 : BitVec 3).toNat + 1) ≤ 0x300000 ∧ openQ.room = 1 ∧ (1 ≤ openQ.occ ∧ openQ.present 0 openQ.head = true)
      ∧ ({ openQ with pres := [] } : Queue).present 0 0 = false ∧ 0x2FFFC0 + openQ.size ≤ 0x300000 ∧ vecQ.isEmpty = true ∧ openQ.isEmpty = false
      ∧ awake (headed 3 {} {}) 0 ∧ sendQ.unsent = 0 ∧ sendQ.lastSend < 9 := by
  refine ⟨by decide, by decide, by decide, by decide, by decide, by decide, by decide, rfl, by decide, by decide⟩

/-- A yard whose clock is stopped; a move that has ended; a message of a splice; a refused HELLO. -/
theorem witness_QueueEvents_events :
    let m : Cmd := { cmdOf (.qpush tok9 3 (g 1)) [0, 0] with res := some (3, 0, 0) }
    let s : State := { headed 3 {} { q := [(3, openQ)], moving := some m } with dies := [(0, { gated := [(0, true)] })] }
    ¬ awake s 0 ∧ NMap.find (s.die (dieOf 0)).wakeAt (yardOf 0) = none ∧ (s.core 0).c.moving = some m ∧ openQ.gen = 0 / 65536 ∧ m.uses = []
      ∧ (List.replicate 64 (7 : Byte)).length % 8 = 0 ∧ ({ openQ with st := .recv } : Queue).slotAddr 0 % 8 = 0
      ∧ (s.cores.map Prod.fst).Nodup ∧ (∀ k, ((s.core k).c.opWaits.map (fun w => w.2.2.serial)).Nodup) := by
  refine ⟨by unfold awake; decide, by decide, by decide, by decide, by decide, by decide, by decide, by decide, fun k => ?_⟩
  have : (({ headed 3 {} { q := [(3, openQ)], moving := some { cmdOf (.qpush tok9 3 (g 1)) [0, 0] with res := some (3, 0, 0) } } with
    dies := [(0, { gated := [(0, true)] })] } : State).core k).c.opWaits = [] := by
    simp only [State.core, NMap.get]; split <;> rfl
  rw [this]; exact List.nodup_nil

/-- A message of the queue's partner and one of another queue, between cores of one die, over a circuit that is UP, in SETUP and DOWN. -/
theorem witness_QueueEvents_messages :
    let qm := fromQueue 1 2 3
    let s (st : CircSt) : State := { circuits := [(1, { st := st })] }
    sendQ.isFrom qm = true ∧ sendQ.isFrom (fromQueue 1 4 3) = false ∧ qm % 32 = 3 ∧ senderOf qm = 1 ∧ linked (s .up) 0 64 ∧ linked (s .down) 0 63
      ∧ ¬ linked (s .setup) 0 64 ∧ dieOf 64 ≠ dieOf 0 ∧ (s .setup).circuit 1 0 = { st := .setup } ∧ ((s .down).circuit 1 0).st = .down
      ∧ 32 ≤ qm ∧ sendQ.partner = some (msgFrom qm) ∧ ({ s .up with now := 1 } : State).savedSpliced 0 3 (msgFrom qm) = []
      ∧ ((s .setup).circuit 1 0).passUntil < 1 ∧ ({ sendQ with heldOut := [(0, 0, [], true, false)] } : Queue).quiet = 0 := by
  unfold linked; decide

/-- The lease commands are ready. -/
theorem witness_LeaseEvents_ready (i : Instr) (hi : i ∈ [Instr.lease tok9 1 5 (g 7) (g 8), .lfree tok9 1, .leaseRcl tok9]) :
    headReady (headed 8 (cmdOf i [256, 0x2FF800]) { q := [(3, {})] }) 0 8 (cmdOf i [256, 0x2FF800]) [] := by
  simp only [List.mem_cons, List.not_mem_nil, or_false] at hi
  refine head_ready 8 _ _ {} rfl rfl rfl ?_
  rcases hi with rfl | rfl | rfl <;> exact ⟨by decide, rfl, rfl, by decide, Nat.zero_le 9, rfl, rfl⟩

/-- 256 words with a fallback at the end of scratchpad; a lender that has just room and one that has not; the last line of a revocation. -/
theorem witness_LeaseEvents_clauses :
    let l : Lease := { live := true, rev := true, words := 9, fb := 64 }
    (5 : BitVec 4).toNat ≠ yardCore 0 ∧ 0x2FF800 % 64 = 0 ∧ 0x2FF800 + 8 * 256 ≤ 0x300000 ∧ 0 + 256 ≤ 256 ∧ 256 < 1 + 256
      ∧ (l.waits = [] ∧ ({} : Core).recent = []) ∧ (0 + 1 < (l.words + 7) / 8) ∧ ((l.words + 7) / 8 ≤ 1 + 1) ∧ (l.fb + 64 * 1) % 8 = 0
      ∧ ({ tok := some (cmdOf (.lease tok9 1 5 (g 7) (g 8)) [256, 0]) } : Lease).tok.isSome = true ∧ tok9.sinc = 0 := by decide

/-- A record for core 0 whose dependence counter is 1, and 0. -/
abbrev taskOf (n : Nat) (st : TState) : Task := { recd := [0xFE000000000000], arg := 0, cnt := n, st := st }
abbrev inGroup (ts : List Task) (c : Core) : State := { paged { c with ctx := some 0 } with groups := [(1, group ts)] }

theorem witness_DependDecrement :
    let s := inGroup [taskOf 1 .listed, taskOf 0 .listed, taskOf 1 .ready] {}
    let c (i : Word) : Cmd := { cmdOf (.tdep tok9 (g 1)) [i] with grp := 1 }
    (s.group? 1).isSome = true ∧ (s.task? 1 0).map (fun t => (t.st, t.cnt)) = some (.listed, 1)
      ∧ (s.task? 1 1).map (fun t => t.cnt) = some 0 ∧ (s.task? 1 2).map (fun t => t.st) = some .ready ∧ s.task? 1 3 = none
      ∧ ((c 3).vals.getD 0 0).toNat % 2 ^ 20 = 3 ∧ (c 3).grp = 1 := by decide

/-- A task that is LISTED with nothing to wait for; one READY for a free core, and for one that holds an engine command; one that has retired. -/
theorem witness_SchedulerEvents_tasks :
    let ready := inGroup [taskOf 0 .ready] {}
    let ended := inGroup [taskOf 0 .retiring] { t := { mode := .retiring, grp := 1, idx := 0 } }
    recNW (taskOf 0 .listed).recd = 0 ∧ (taskOf 0 .listed).cnt = 0 ∧ ((inGroup [taskOf 0 .listed] {}).context 0).st = .active
      ∧ (ready.chosen 0).map (fun w => (w.gk, w.idx, w.susp)) = some (1, 0, false) ∧ ready.coreFree 0 = true ∧ (ready.core 0).resv = none
      ∧ (inGroup [taskOf 0 .ready] { t := { me0 := { q := [{}] } } }).coreFree 0 = false ∧ (group []).items = []
      ∧ ended.retired 0 = true ∧ ({ ended with cores := [(0, { ended.core 0 with t := { (ended.core 0).t with port := [{ kind := .store, va := 0, size := 8 }] } })] } : State).retired 0 = false
      ∧ (∀ t ∈ (group [taskOf 0 .done, taskOf 0 .killed]).tasks, t.st = .done ∨ t.st = .killed) := by decide

/-- A newcomer of higher priority, with an estimate at the drain limit and one beyond it, a free task slot, and tokens for a kill. -/
theorem witness_SchedulerEvents_preempt :
    let s (est : Nat) (susp : List Saved) : State :=
      { inGroup [{ taskOf 0 .running with recd := [0xFE000000000000] }, { taskOf 0 .ready with recd := [0xFE01C000000000] }]
          { t := { mode := .running, grp := 1, idx := 0, est := est, left := 50000 }, c := { susp := susp } } with
        ctxs := [(0, { st := .active, yards := 1, restart := true, tokens := 2 })] }
    ((s 45000 []).newcomer 0).map (fun w => (w.gk, w.idx)) = some (1, 1) ∧ (((s 45000 []).newcomer 0).map (fun w => (s 45000 []).decidedOn 0 w) ≠ some ((s 45000 []).core 0).decided)
      ∧ ((s 45000 []).core 0).t.estAt 0 ≤ ((s 45000 []).context 0).drain
      ∧ ¬ ((s 45001 []).core 0).t.estAt 0 ≤ ((s 45001 []).context 0).drain ∧ ((s 0 (List.replicate 7 { t := {} })).core 0).c.susp.length < 8
      ∧ ¬ ((s 0 (List.replicate 8 { t := {} })).core 0).c.susp.length < 8 ∧ ((s 0 []).context 0).restart = true ∧ 2 ≤ ((s 0 []).context 0).tokens
      ∧ (s 0 []).saveReady 0 = true := by decide

/-- A packet of a code object of one record, at the head of a queue of the die. -/
abbrev packetMem : Memory :=
  [(0x20000, 0x10001), (0x20008, 0x10000), (0x10000, 0x14B5A4F4B), (0x10008, 0x1000000080), (0x10020, 0x100000040), (0x10028, 0x1000000000000),
    (0x10040, 0xFE000000000000), (0x10080, 0x80)].foldl (fun (m : Memory) (p : Nat × Nat) => m.writeN p.1 (toBytes 8 p.2)) (tree 0xC3)
abbrev queued (tail : Nat) : State :=
  { paged {} with mem := packetMem, launch := [(0, { base := 0x20000, en := true, lcnt := 6, tail := tail })], groups := [(1, group [])] }

theorem witness_SchedulerEvents_launch :
    (queued 1).pickQueue 0 = some 0 ∧ (queued 0).pickQueue 0 = none ∧ ((queued 1).launchQ 0).source = none
      ∧ ((queued 1).vread 0 0x20000 64 4).toOption.map (fun bs => (packetBad (wordsOf 8 bs), bitOf (bits ((wordsOf 8 bs).getD 0 0).toNat 16 16) 0)) = some (false, true)
      ∧ ((queued 1).readObject 0 0x10000).map (fun o => (o.items.length, o.recs.length)) = some (0, 1)
      ∧ packetBad [2] = true ∧ (0 + 2 ^ 32 - 0 % 2 ^ 32) % 2 ^ 32 ≤ 2 ^ 6 ∧ 2 ^ 6 < (65 + 2 ^ 32 - 0 % 2 ^ 32) % 2 ^ 32 := by decide

/-- TAIL writes of the host, of a peer die whose circuit is UP, in SETUP and DOWN, and of a node behind a port that carries nothing; a die that is
throttled; a drain that has ended for its newcomer. -/
theorem witness_SchedulerEvents_sources :
    let s (st : CircSt) : State := { queued 1 with circuits := [(1, { st := st })] }
    ((s .up).circuit 1 (0 / 64)).st ∈ [CircSt.up, .degraded, .setup] ∧ ((s .down).circuit 1 (0 / 64)).st ∉ [CircSt.up, .degraded, .setup]
      ∧ ((s .setup).circuit 1 (0 / 64)).st = .setup ∧ ((s .up).ewenPort ((0x1105 - 0x1000) / 0x100)).st.carries = false ∧ (0x1000 ≤ 0x1105 ∧ 0x1105 < 0x2000)
      ∧ ({ throttled := true } : Die).throttled = true ∧ ({} : Die).throttled = false ∧ [1, 1, 7].take 2 = [1, 1] := by decide

/-- `TLAUNCH` and `TDEP` are ready; a record of the group's object is taken, an odd address is not. -/
theorem witness_SchedulerEvents_heads (i : Instr) (hi : i ∈ [Instr.tlaunch tok9 (g 1), .tdep tok9 (g 1)]) :
    headReady (headed 7 (cmdOf i [0]) { q := [(3, {})] }) 0 7 (cmdOf i [0]) [] ∧ (headed 7 (cmdOf i [0]) { q := [(3, {})] }).portClear 0 1 = true := by
  simp only [List.mem_cons, List.not_mem_nil, or_false] at hi
  refine ⟨head_ready 7 _ _ {} rfl rfl rfl ?_, rfl⟩
  rcases hi with rfl | rfl <;> exact ⟨by decide, rfl, rfl, by decide, Nat.zero_le 9, rfl, rfl⟩

theorem witness_SchedulerEvents_record :
    let gr : Group := { group [] with obj := 0x10000, hdr := [0x14B5A4F4B, 0x1000000080, 0, 0, 0x100000040, 0x1000000000000, 0, 0] }
    let s : State := { paged {} with mem := (packetMem.writeN (Addr.pad 0 0) (toBytes 8 0xFE000000000000)) }
    (s.launchRec 0 (cmdOf (.tlaunch tok9 (g 1)) [0]) gr).toOption.isSome = true
      ∧ s.launchRec 0 (cmdOf (.tlaunch tok9 (g 1)) [1]) gr = .error Code.align := by
  refine ⟨by decide, by decide⟩

/-- A group that is over, one whose task is not, and one that has a completion record to write; a task in `BRK` for four cycles. -/
theorem witness_SchedulerEvents_over :
    let s (st : TState) : State := inGroup [taskOf 0 st] {}
    let b : TaskSt := { mode := .brk, grp := 1, brk := some (5, 7), lastClear := 2 }
    (∀ t ∈ (group [taskOf 0 .done]).tasks, t.st = .done ∨ t.st = .killed) ∧ ¬ (∀ t ∈ (group [taskOf 0 .running]).tasks, t.st = .done ∨ t.st = .killed)
      ∧ (∀ kc ∈ (s .done).cores, ∀ c ∈ NMap.get [] kc.2.c.cmdq 7, isGroupCmd c.ins = true → c.grp ≠ 1) ∧ (s .done).ops = [] ∧ (s .done).agenda = []
      ∧ (s .done).groupWritten 1 = true ∧ (group []).ended = false ∧ b.doing = .brk ∧ 9 - b.brkClear 9 = 5 - 2 := by decide

/-- The last cycle a watchdog lets pass and the first it does not; an idle yard. -/
theorem witness_SchedulerEvents_time :
    let s := inGroup [taskOf 0 .running] { t := { mode := .running, grp := 1, idx := 0 } }
    ((s.core 0).t.isTask 1 0 = true) ∧ 2 ^ (s.context 0).wdlog ≤ 2 ^ 32 - (s.core 0).t.lastClear ∧ 2 ^ 32 - 1 - (s.core 0).t.lastClear < 2 ^ (s.context 0).wdlog
      ∧ recCore 0 (taskOf 0 .running).recd = 0 ∧ (({} : State).yardIdle 0 0 = true) ∧ (inGroup [] { c := { cmdq := [(4, [{}])] } }).yardIdle 0 0 = false
      ∧ (0 + 4096 ≤ 4096) := by decide

/-! ### What is assumed can be met: contexts, links, the package, the encoding -/

/-- Context 0 of die 0 as given, in yard 0, with core 0 a part of it. -/
abbrev inCtx (x : Context) (c : Core) : State := { paged { c with ctx := some 0 } with ctxs := [(0, { x with yards := 1 })] }

/-- The smallest save area and Loft that hold sixteen cores, and ones a page short. -/
theorem witness_ContextEvents_activate :
    let s := inCtx { savesz := 16384, loftsz := 16385 } {}
    (s.crown.pstate = 2 ∧ (s.die 0).inReset = false) ∧ (s.context 0).cmdst ≠ 1 ∧ (s.context 0).st = .free ∧ s.crown.tripped = false
      ∧ (s.partCores 0).length = 16 ∧ 2 ^ 22 * 16 = 16384 * 4096 ∧ 2 ^ 22 * 16 + 4096 = 16385 * 4096
      ∧ (∀ i, i < 64 → i ≠ 0 → (s.context i).st = .free) := by decide

theorem witness_ContextEvents_states :
    let s (st : CState) : State := inCtx { st := st, save := 2 ^ 39, loft := 2 ^ 38 } { t := { mode := .brk } }
    (∀ st ∈ [CState.free, .active, .saving, .saved, .restoring, .dumping, .halted], ((s st).context 0).st = st ∧ ((s st).context 0).cmdst ≠ 1)
      ∧ (s .active).inPart 0 0 = true ∧ (s .active).inPart 0 4 = false ∧ ((s .active).core 0).t.after = 0
      ∧ ((s .saving).context 0).save + 2 ^ 28 ≤ 2 ^ 40 ∧ ((s .saving).partCores 0).length ≤ 64 ∧ (∀ k ∈ (s .saving).partCores 0, k < 512)
      ∧ (∀ i, i < 64 → i ≠ 0 → ((s .saved).context i).st ≠ .restoring) := by decide

/-- A save that has come to rest and one that has not; a halt that is ready; the last cycle of a dump. -/
theorem witness_ContextEvents_flip :
    let s (st : CState) (t : TaskSt) : State := inCtx { st := st } { t := t }
    (s .saving {}).swapReady 0 = true ∧ (s .saving { mode := .saving, me0 := { running := [{}] } }).swapReady 0 = false
      ∧ (s .dumping {}).haltReady 0 = true ∧ (s .dumping { me0 := { running := [{}] } }).haltReady 0 = false
      ∧ (s .dumping {}).writing 0 = false ∧ ({ (s .saving {}) with agenda := [{ due := 9, act := .ev (.evWritebackComplete 0) }] } : State).writing 0 = true
      ∧ (s .restoring {}).shadowsTaken 0 = false
      ∧ ({ s .restoring {} with ctxs := [(0, { st := .restoring, yards := 1 }), (1, { st := .saving, yards := 3, flipped := true })] } : State).shadowsTaken 0 = true
      ∧ (∀ i, i < 64 → i ≠ 0 → ((s .restoring {}).context i).st.holds = false) ∧ ((s .restoring {}).partCores 0).Nodup ∧ (s .restoring {}).npc 0 ≤ 1024 := by decide

/-- A package that is to stand, one that stands, and one that runs. -/
theorem witness_ContextEvents_stands :
    let s (tripped : Bool) (p : Nat) : State := { inCtx { st := .restoring } {} with crown := { pstate := p, tripped := tripped } }
    (s true 2).crown.tripped = true ∧ (s false 3).crown.pstate = 3 ∧ ¬ ((s false 2).crown.tripped = true ∨ (s false 2).crown.pstate = 3)
      ∧ ((s false 2).context 0).st = .restoring := by decide

/-- TQHEAD at TQTAIL and one beyond it; an operation parked for its page. -/
theorem witness_ContextEvents_queue :
    let x : Context := { tqhead := 3, tqtail := 5, tqlog := 2 }
    ((5 : BitVec 32).toNat + 2 ^ 32 - x.tqhead % 2 ^ 32) % 2 ^ 32 ≤ x.tqOcc ∧ x.tqOcc < ((6 : BitVec 32).toNat + 2 ^ 32 - x.tqhead % 2 ^ 32) % 2 ^ 32
      ∧ x.waiting = [] ∧ ({ st := .parked, park := some { code := Code.pageNotPresent, va := 0, acc := 4, level := 2 } } : Op).st = .parked := by decide

/-- A queue of 15 and of 16 commands; a command that awaits an access, and one that awaits none. -/
theorem witness_LinkEvents_inval :
    let e : Word × Nat × Nat := (0x100000000000, 0, 1)
    let d (n : Nat) : Die := { invQ := List.replicate n e, invWait := [(0, 1)] }
    let s (port : List MemReq) : State := { on { t := { port := port } } with dies := [(0, d 1)] }
    (d 15).invQ.length < 16 ∧ 16 ≤ (d 16).invQ.length ∧ bits e.1.toNat 44 4 ≠ 5 ∧ ((s []).core 0).t.req? 1 = none
      ∧ (((s [req1 .load .performed]).core 0).t.req? 1).map (fun r => (r.stage, r.kind)) = some (.performed, .load) ∧ ({} : Die).invQ = [] := by decide

/-- Circuits and ports in every state, at one wavelength and two, with a full and a short training. -/
theorem witness_LinkEvents_circuits :
    let s (c : Circuit) (e : Ewen) : State := { circuits := [(1, c)], ewen := [(3, e)] }
    (∀ st ∈ [CircSt.none, .setup, .up, .degraded, .down, .reset], ∀ n ∈ [0, 1, 2], ((s { st := st, wl := n } {}).circuit 0 1).st = st
        ∧ ((s { st := st, wl := n } {}).circuit 1 0).wl = n ∧ ((s { st := st, training := n } {}).circuit 0 1).training = n)
      ∧ (∀ st ∈ [EwenSt.down, .train, .up, .degraded, .verr], ((s {} { st := st, lanes := 2 }).ewenPort 3).st = st)
      ∧ max (min 1 1) 1 ≤ min (min 1 1) 1 ∧ ¬ max (min 1 1) 2 ≤ min (min 1 1) 2 ∧ ({} : Circuit).wcfg ≤ 64 ∧ 63 < ({} : Circuit).wcfg
      ∧ ({ inReset := true } : Die).inReset = true ∧ ({} : Die).inReset = false := by decide

/-- A write of an operation that a link holds since before an invalidation, and one that it holds since after; a port without an aperture, and a die
with one; a circuit whose training has lost a wavelength. -/
theorem witness_LinkEvents_waits :
    let p (t : Nat) : Posted := { ctx := some 0, addr := 64, bytes := [some 7], until_ := t, op := some 0 }
    let s (t : Nat) : State := { on {} with dies := [(0, { posted := [p t], routes := [(0, 4096, 3)], invQ := [(0x300000000000, 0, 1)] })] }
    let w : Word := 0x300000000000
    bits w.toNat 44 4 = 3 ∧ (s 0).invHeld 0 w = true ∧ (s (postedHold + 1)).invHeld 0 w = false ∧ 0 ∈ (s 0).invDies 0 w
      ∧ (s 0).portOf 0 64 = some 3 ∧ (s 0).portOf 0 4096 = none ∧ (s 0).hostCut 0 64 = true ∧ ({} : Die).routes = []
      ∧ min 64 ({ training := 63 } : Circuit).training < ({} : Circuit).wcfg ∧ (∀ k, k < 8 → (({} : State).die k).posted = [])
      ∧ (({} : State).core 0).c.opWaits = [] ∧ ({} : State).agenda = [] := by decide

/-- The places of two cores of a save area and of a Loft that lie in local memory; a splice of two dies. -/
theorem witness_LinkEvents_moves :
    let s : State := { inCtx { st := .saving, save := 2 ^ 30, loft := 2 ^ 31 } {} with
      circuits := [(1, { st := .up, wl := 1, held := [.evGrant 0 0 1] })] }
    let x := s.context 0
    (0 < 8 ∧ s.npc 0 ≤ 1024 ∧ x.save + 2 ^ 22 * (s.partCores 0).length ≤ s.npc 0 * 2 ^ 30)
      ∧ x.loft + 4096 + 2 ^ 22 * (s.partCores 0).length ≤ s.npc 0 * 2 ^ 30 ∧ (∀ k ∈ s.partCores 0, k < 512)
      ∧ (s.circuit 0 1).wl ≤ 1 ∧ (s.circuit 1 0).held ≠ [] ∧ dieOf 0 = 0 ∧ dieOf 64 = 1 := by decide

/-- Held writes at the end of their time and a cycle before it, of a context and of none; no command waits for the link. -/
theorem witness_LinkEvents_host :
    let w (c : Option Nat) (t : Nat) : Posted := { ctx := c, addr := 64, bytes := [some 7], until_ := t }
    let r : TrapRec := ({ code := 1 } : RecInfo).raw
    let s : State := { on {} with now := 9, dies := [(0, { hostDown := true, posted := [w none 9, w (some 0) 10] })] }
    (∀ w ∈ (s.die 0).posted, w.trap = none) ∧ ((w none 9).req = none ∧ (w none 9).op = none) ∧ ({ w (some 0) 9 with trap := some r }.trap = some r)
      ∧ (∀ w ∈ (s.die 0).posted, w.until_ ≤ s.now → w.ctx = none ∧ w.req = none) ∧ (s.cores.map Prod.fst).Nodup ∧ (s.die 0).hostDown = true
      ∧ (w (some 0) 9).until_ ≤ s.now ∧ (s.core 0).c.opWaits = [] := by decide

theorem witness_LinkEvents_publish :
    let c := cmdOf (.publish tok9 3) []
    let s : State := { headed 9 c { q := [(3, {})] } with ctxs := [(0, { st := .active, yards := 1, pubEn := [(3, true)] })] }
    headReady (headed 9 c { q := [(3, {})] }) 0 9 c [] ∧ NMap.get false (s.context 0).pubEn 3 = true ∧ s.windowHeld 0 c.seq 3 = true
      ∧ NMap.get false ((headed 9 c {}).context 0).pubEn 3 = false ∧ s.hostCut 0 0 = false
      ∧ ({ s with dies := [(0, { hostDown := true })] } : State).hostCut 0 0 = true := by
  refine ⟨head_ready 9 _ _ {} rfl rfl rfl ⟨by decide, rfl, rfl, by decide, Nat.zero_le 9, rfl, rfl⟩, by decide, by decide, by decide, by decide, by decide⟩

/-- The package in every state; the mailbox's longest chunk and one byte more; a register of a context and of the mailbox; the last word of
local memory and one beyond it. -/
theorem witness_CrownAndRegisters :
    let s (p : Nat) (b : Bool) : State := { crown := { pstate := p }, dies := [(0, { mbox := { busy := b } })] }
    (∀ p ∈ [0, 1, 2, 3], (s p false).crown.pstate = p) ∧ ((s 2 true).die 0).mbox.busy = true ∧ ((s 2 false).die 0).inReset = false
      ∧ (2048 ≤ 2048 ∧ 2048 < 2049) ∧ (0x20000 + 0x100 * 63 + 0x78) % 8 = 0 ∧ 0x80000 / 0x10000 = 8
      ∧ (s 2 false).npc 0 * 2 ^ 30 - 8 + 8 ≤ (s 2 false).npc 0 * 2 ^ 30 ∧ (s 2 false).npc 0 * 2 ^ 30 < (s 2 false).npc 0 * 2 ^ 30 - 4 + 8
      ∧ ((s 2 false).eccOf 0 0).bad = false ∧ (s 2 false).veils = [] ∧ (({} : State).context 0).st ≠ .active := by decide

/-- Images that are current, and one below its minimum; a throttle that is to end. -/
theorem witness_CrownAndRegisters_power :
    let c (n : Nat) : Crown := { images := [(3, 1, 4, [])], minSvn := [(3, n)] }
    (∀ k, k < 4 → (c 4).current k = true) ∧ (c 5).current 3 = false ∧ (c 5).current 0 = true ∧ (c 0).pstate = 0
      ∧ ({ posted := [{ due := 9, act := .unthrottle 0 }] } : State).isDue (Act.unthrottles 0) = true ∧ ({} : State).isDue (Act.unthrottles 0) = false := by
  decide

theorem witness_DecodeEncode : (Instr.add .sa (g 63) (g 1) .ya).wf = true ∧ (encode (.add .sa (g 63) (g 1) .ya)).isSome = true := by decide

theorem witness_MaskZero : (on {}).canRead (g 1) ∧ (onQ vecQ).canWrite (.app 3) := ⟨trivial, (by decide : vecQ.st.mayAppend = true)⟩

/-! ### Single steps -/

/-- The value a scalar instruction leaves in `g1`, with `g2` and `g3` as given. -/
abbrev g1After (i : Instr) (x y : Word) : Option Word := after (exec i (on { t := { g := [(2, x), (3, y)] } })) (fun t => t.me.scalar 1)

/-- Division truncates toward zero and the remainder takes the dividend's sign (R88, R89); a divisor of zero and the overflow as the table gives them. -/
theorem test_division :
    g1After (.div .sa (g 1) (g 2) (g 3)) (-7) 2 = some (-3) ∧ g1After (.rem .sa (g 1) (g 2) (g 3)) (-7) 2 = some (-1)
      ∧ g1After (.div .sa (g 1) (g 2) (g 3)) 5 0 = some (-1) ∧ g1After (.remn .sa (g 1) (g 2) (g 3)) 5 0 = some 5
      ∧ g1After (.div .sa (g 1) (g 2) (g 3)) (BitVec.intMin 64) (-1) = some (BitVec.intMin 64) := by decide

/-- The last step of the chain that builds a 64-bit constant (R92). -/
theorem test_lui : g1After (.lui .sa (g 1) (g 2) 0xBCDEF) 0x123456789A 0 = some 0x0123456789ABCDEF := by decide

/-- A shift by 64 is a shift by 0, and a rotation takes its amount alike (R88). -/
theorem test_shifts :
    g1After (.shl .sa (g 1) (g 2) (g 3)) 1 64 = some 1 ∧ g1After (.shra .sa (g 1) (g 2) (g 3)) (-2) 1 = some (-1)
      ∧ g1After (.rotl .sa (g 1) (g 2) (g 3)) 0x8000000000000000 1 = some 1 := by decide

/-- A branch goes back sixteen bytes at a time from its bundle's aligned address (R57, R109). -/
theorem test_branch :
    let s : State := { on { t := { g := [(5, 1)] } } with iss := { pre := { t := { g := [(5, 1)] } }, bundle := 0x1008 } }
    after (exec (.brnz (g 5) 0x1FFFC) s) (fun t => t.iss.transfer) = some (some 0xFC0)
      ∧ after (exec (.brz (g 5) 0x1FFFC) s) (fun t => t.iss.transfer) = some none := by decide

/-- A load of a byte extends its sign (R97). -/
theorem test_load_byte :
    let s : State := { on { t := { g := [(2, 1)] } } with iss := { pre := { t := { g := [(2, 1)] } }, mem := [(Addr.pad 0 1, 0x80)] } }
    after (exec (.ldsp (g 1) (g 2) (g 3) 0 true) s) (fun t => t.me.scalar 1) = some 0xFFFFFFFFFFFFFF80 := by decide

/-- The example of R131: 1.0, 2^24, 1.0 and -2^24 in FP32, of which the sum up to each rounds away two of the 1.0. -/
theorem test_scan :
    scanVals (addElem 0 0 false) none [some 0x3F800000, some 0x4B800000, some 0x3F800000, some 0xCB800000]
      = [some (0x3F800000, 0), some (0x4B800000, flNX), some (0x4B800000, flNX), some (0, 0)] := by decide

/-- The example of R139: statistics of 3.0 and 5.0, whose factors are 0.25 and 1.0, merge 4.0 and 2.0 into 3.0. -/
theorem test_merge :
    (kexp2 (fsub fmtF32 0 0x40400000 0x40A00000).1).1 = 0x3E800000 ∧ (kexp2 0).1 = 0x3F800000
      ∧ ffma fmtF32 0 false 0x40000000 0x3F800000 (fmul fmtF32 0 0x40800000 0x3E800000).1 = (0x40400000, 0) := by decide

end Sys2Proof.Tests
end

section
/-!
PROOF. The agenda (R22, R385): what is posted and what was due stand in the order of `Timed.before` once a cycle's work is done, and
a step settles the agenda at the cycle it performs.
-/

namespace Sys2Proof.Machine

/-! ### The order of entries -/

/-- Entries are compared by cycle, then by rank. -/
theorem Timed.before_iff (a b : Timed) : a.before b = true ↔ a.due < b.due ∨ (a.due = b.due ∧ a.act.rank ≤ b.act.rank) := by
  simp [Timed.before]

theorem Timed.before_trans {a b c : Timed} (h : a.before b = true) (k : b.before c = true) : a.before c = true := by
  rw [Timed.before_iff] at *; omega

theorem Timed.before_of_not {a b : Timed} (h : ¬ a.before b = true) : b.before a = true := by
  rw [Timed.before_iff] at *; omega

/-- An agenda is in order when each entry comes no later than every one behind it. -/
theorem inOrder_iff_pairwise (l : List Timed) : inOrder l = true ↔ l.Pairwise (fun a b => a.before b = true) := by
  induction l with
  | nil => simp [inOrder]
  | cons a l ih =>
    cases l with
    | nil => simp [inOrder]
    | cons b l =>
      simp only [inOrder, Bool.and_eq_true, ih, List.pairwise_cons (a := a), List.forall_mem_cons]
      constructor
      · rintro ⟨hab, hl⟩
        exact ⟨⟨hab, fun c hc => Timed.before_trans hab (List.rel_of_pairwise_cons hl hc)⟩, hl⟩
      · rintro ⟨⟨hab, _⟩, hl⟩
        exact ⟨hab, hl⟩

/-! ### What enters an agenda -/

theorem mem_insertTimed {t x : Timed} {l : List Timed} : x ∈ insertTimed t l ↔ x = t ∨ x ∈ l := by
  induction l with
  | nil => simp [insertTimed]
  | cons u l ih => by_cases h : u.before t = true <;> simp [insertTimed, h, ih, or_left_comm]

theorem mem_placeTimed {t x : Timed} {l : List Timed} : x ∈ placeTimed t l ↔ x = t ∨ x ∈ l := by
  induction l with
  | nil => simp [placeTimed]
  | cons u l ih => by_cases h : t.before u = true <;> simp [placeTimed, h, ih, or_left_comm]

theorem inOrder_insertTimed (t : Timed) {l : List Timed} (h : inOrder l = true) : inOrder (insertTimed t l) = true := by
  rw [inOrder_iff_pairwise] at *
  induction l with
  | nil => simp [insertTimed]
  | cons u l ih =>
    rw [List.pairwise_cons] at h
    obtain ⟨hu, hl⟩ := h
    by_cases ht : u.before t = true
    · rw [insertTimed, if_pos ht, List.pairwise_cons]
      refine ⟨fun x hx => ?_, ih hl⟩
      obtain rfl | hx := mem_insertTimed.mp hx
      · exact ht
      · exact hu x hx
    · have htu := Timed.before_of_not ht
      rw [insertTimed, if_neg ht, List.pairwise_cons, List.pairwise_cons, List.forall_mem_cons]
      exact ⟨⟨htu, fun x hx => Timed.before_trans htu (hu x hx)⟩, hu, hl⟩

theorem inOrder_placeTimed (t : Timed) {l : List Timed} (h : inOrder l = true) : inOrder (placeTimed t l) = true := by
  rw [inOrder_iff_pairwise] at *
  induction l with
  | nil => simp [placeTimed]
  | cons u l ih =>
    rw [List.pairwise_cons] at h
    obtain ⟨hu, hl⟩ := h
    by_cases ht : t.before u = true
    · rw [placeTimed, if_pos ht, List.pairwise_cons, List.pairwise_cons, List.forall_mem_cons]
      exact ⟨⟨ht, fun x hx => Timed.before_trans ht (hu x hx)⟩, hu, hl⟩
    · rw [placeTimed, if_neg ht, List.pairwise_cons]
      refine ⟨fun x hx => ?_, ih hl⟩
      obtain rfl | hx := mem_placeTimed.mp hx
      · exact Timed.before_of_not ht
      · exact hu x hx

theorem Timed.le_due_from_ (t : Timed) (n : Nat) : n ≤ (t.from_ n).due := by
  unfold Timed.from_; split
  · assumption
  · exact le_refl n

/-- An agenda whose entries are in order and none due before cycle `n`. -/
def orderedFrom (n : Nat) (l : List Timed) : Prop := inOrder l = true ∧ ∀ t ∈ l, n ≤ t.due

theorem orderedFrom_inTurn (n : Nat) (l : List Timed) : orderedFrom n (inTurn n l) := by
  induction l with
  | nil => exact ⟨rfl, by simp [inTurn]⟩
  | cons t l ih =>
    refine ⟨inOrder_placeTimed _ ih.1, fun x hx => ?_⟩
    obtain rfl | hx := mem_placeTimed.mp hx
    · exact t.le_due_from_ n
    · exact ih.2 x hx

theorem orderedFrom_insertTimed {n : Nat} {l : List Timed} (t : Timed) (h : orderedFrom n l) :
    orderedFrom n (insertTimed (t.from_ n) l) := by
  refine ⟨inOrder_insertTimed _ h.1, fun x hx => ?_⟩
  obtain rfl | hx := mem_insertTimed.mp hx
  · exact t.le_due_from_ n
  · exact h.2 x hx

theorem orderedFrom_foldl_insertTimed {n : Nat} (posted : List Timed) {l : List Timed} (h : orderedFrom n l) :
    orderedFrom n (posted.foldl (fun ag t => insertTimed (t.from_ n) ag) l) := by
  induction posted generalizing l with
  | nil => exact h
  | cons t ts ih => exact ih (orderedFrom_insertTimed t h)

/-! ### A cycle's work done -/

theorem State.agendaOk_iff (s : State) : s.agendaOk = true ↔ orderedFrom s.now s.agenda ∧ s.posted = [] := by
  simp [State.agendaOk, orderedFrom]

/-- Whatever the state, its agenda is in order once the work of a cycle is done. -/
theorem State.settle_agendaOk (s : State) (n : Nat) : (s.settle n).agendaOk = true :=
  (State.agendaOk_iff _).mpr ⟨orderedFrom_foldl_insertTimed _ (orderedFrom_inTurn n _), rfl⟩

theorem settleOutcome_next {n : Nat} {o : Host.Outcome State Fault Refusal} {s' : State} (h : settleOutcome n o = .next s') :
    ∃ u : State, o = .next u ∧ s' = u.settle n := by
  cases o with
  | next u => exact ⟨u, rfl, by simpa [settleOutcome] using h.symm⟩
  | fault r => simp [settleOutcome] at h
  | refused r => simp [settleOutcome] at h

/-- What a step can do: with nothing due a cycle passes; else the first entry is performed at its cycle, and the agenda is settled. -/
theorem step_cases {s s' : State} (h : step s = .next s') :
    (s.agenda = [] ∧ s' = { s with now := s.now + 1 }) ∨
    ∃ t rest u, s.agenda = t :: rest ∧ (s.takeDue t rest).perform exec t.act = .next u ∧ s' = u.settle (max s.now t.due) := by
  unfold step at h
  split at h
  · next ha => exact .inl ⟨ha, by simpa using h.symm⟩
  · next t rest ha =>
      obtain ⟨u, hu, rfl⟩ := settleOutcome_next h
      exact .inr ⟨t, rest, u, ha, hu, rfl⟩

end Sys2Proof.Machine

open Sys2Proof Sys2Proof.Machine

/-- Settles O7: a step that performs an entry settles the agenda, which puts it in order whatever the entry did, at a cycle that is
not before the present one; with nothing due only the cycle changes. -/
theorem stepKeepsAgenda : Obligations.StepKeepsAgenda := by
  intro s s' hok h
  obtain ⟨ha, rfl⟩ | ⟨t, rest, u, _, _, rfl⟩ := step_cases h
  · obtain ⟨_, hp⟩ := (State.agendaOk_iff s).mp hok
    refine ⟨(State.agendaOk_iff _).mpr ⟨?_, hp⟩, Nat.le_succ _⟩
    simp [orderedFrom, ha, inOrder]
  · exact ⟨u.settle_agendaOk _, Nat.le_max_left _ _⟩

end

section
/-!
PROOF. The scalar bays (R88 to R95): the model's arithmetic is the rules', and every scalar instruction is one bay operation that
writes its result.
-/

namespace Sys2Proof.Machine

/-! ### The model's arithmetic as the rules write it -/

theorem mul_eq_ofInt (a b : Word) : a * b = BitVec.ofInt 64 (a.toInt * b.toInt) := by
  rw [BitVec.ofInt_mul, BitVec.ofInt_toInt, BitVec.ofInt_toInt]

theorem divS_eq (a b : Word) : divS a b = if b = 0 then -1 else BitVec.ofInt 64 (a.toInt.tdiv b.toInt) := by
  unfold divS
  split
  · rfl
  · apply BitVec.eq_of_toInt_eq
    rw [BitVec.toInt_sdiv, BitVec.toInt_ofInt]

theorem divN_eq (a b : Word) : divN a b = if b = 0 then -1 else BitVec.ofNat 64 (a.toNat / b.toNat) := by
  unfold divN
  split
  · rfl
  · apply BitVec.eq_of_toNat_eq
    rw [BitVec.toNat_udiv, BitVec.toNat_ofNat, Nat.mod_eq_of_lt (Nat.lt_of_le_of_lt (Nat.div_le_self _ _) a.isLt)]

theorem remS_eq (a b : Word) : remS a b = if b = 0 then a else BitVec.ofInt 64 (a.toInt.tmod b.toInt) := by
  unfold remS
  split
  · rfl
  · rw [← BitVec.toInt_srem, BitVec.ofInt_toInt]

theorem remN_eq (a b : Word) : remN a b = if b = 0 then a else BitVec.ofNat 64 (a.toNat % b.toNat) := by
  unfold remN
  split
  · rfl
  · rw [← BitVec.toNat_umod, BitVec.ofNat_toNat, BitVec.setWidth_eq]

theorem shiftLeft_eq_ofNat (a : Word) (n : Nat) : a <<< n = BitVec.ofNat 64 (a.toNat * 2 ^ n) := by
  apply BitVec.eq_of_toNat_eq
  rw [BitVec.toNat_shiftLeft, BitVec.toNat_ofNat, Nat.shiftLeft_eq]

theorem shiftRight_eq_ofNat (a : Word) (n : Nat) : a >>> n = BitVec.ofNat 64 (a.toNat / 2 ^ n) := by
  rw [← Nat.shiftRight_eq_div_pow, ← BitVec.toNat_ushiftRight, BitVec.ofNat_toNat, BitVec.setWidth_eq]

theorem sshiftRight_eq_ofInt (a : Word) (n : Nat) : a.sshiftRight n = BitVec.ofInt 64 (a.toInt / 2 ^ n) := by
  unfold BitVec.sshiftRight
  rw [Int.shiftRight_eq_div_pow]
  norm_cast

theorem rotateLeft_eq (a b : Word) :
    a.rotateLeft (shiftOf b) = (a <<< (b.toNat % 64)) ||| (a >>> (64 - b.toNat % 64)) := by
  rw [BitVec.rotateLeft_def, shiftOf, Nat.mod_mod]

theorem rotateRight_eq (a b : Word) :
    a.rotateRight (shiftOf b) = (a >>> (b.toNat % 64)) ||| (a <<< (64 - b.toNat % 64)) := by
  rw [BitVec.rotateRight_def, shiftOf, Nat.mod_mod]

theorem minS_eq (a b : Word) : (if a.slt b then a else b) = BitVec.ofInt 64 (min a.toInt b.toInt) := by
  by_cases h : a.toInt < b.toInt
  · rw [if_pos (BitVec.slt_iff_toInt_lt.mpr h), min_eq_left h.le, BitVec.ofInt_toInt]
  · rw [if_neg (fun k => h (BitVec.slt_iff_toInt_lt.mp k)), min_eq_right (not_lt.mp h), BitVec.ofInt_toInt]

theorem maxS_eq (a b : Word) : (if a.slt b then b else a) = BitVec.ofInt 64 (max a.toInt b.toInt) := by
  by_cases h : a.toInt < b.toInt
  · rw [if_pos (BitVec.slt_iff_toInt_lt.mpr h), max_eq_right h.le, BitVec.ofInt_toInt]
  · rw [if_neg (fun k => h (BitVec.slt_iff_toInt_lt.mp k)), max_eq_left (not_lt.mp h), BitVec.ofInt_toInt]

theorem minN_eq (a b : Word) : (if a.ult b then a else b) = BitVec.ofNat 64 (min a.toNat b.toNat) := by
  by_cases h : a.toNat < b.toNat
  · rw [if_pos (BitVec.ult_iff_lt.mpr h), min_eq_left h.le, BitVec.ofNat_toNat, BitVec.setWidth_eq]
  · rw [if_neg (fun k => h (BitVec.ult_iff_lt.mp k)), min_eq_right (not_lt.mp h), BitVec.ofNat_toNat, BitVec.setWidth_eq]

theorem maxN_eq (a b : Word) : (if a.ult b then b else a) = BitVec.ofNat 64 (max a.toNat b.toNat) := by
  by_cases h : a.toNat < b.toNat
  · rw [if_pos (BitVec.ult_iff_lt.mpr h), max_eq_right h.le, BitVec.ofNat_toNat, BitVec.setWidth_eq]
  · rw [if_neg (fun k => h (BitVec.ult_iff_lt.mp k)), max_eq_left (not_lt.mp h), BitVec.ofNat_toNat, BitVec.setWidth_eq]

theorem leadingZeros_eq (a : Word) : leadingZeros a = if a = 0 then 64 else 63 - Nat.log2 a.toNat := by
  unfold leadingZeros bitLen
  by_cases h : a = 0
  · simp [h]
  · have h0 : a.toNat ≠ 0 := fun k => h (BitVec.eq_of_toNat_eq k)
    rw [if_neg h0, if_neg h, ← Nat.sub_sub 64 (Nat.log2 a.toNat) 1, Nat.sub_right_comm]

theorem onesIn_eq (a : Word) : onesIn a = (List.range 64).countP (fun i => a.getLsbD i) :=
  (List.countP_eq_length_filter).symm

theorem not_slt_eq (a b : Word) : (!a.slt b) = decide (b.toInt ≤ a.toInt) := by
  rw [BitVec.slt, ← decide_not, decide_eq_decide, not_lt]

theorem not_ult_eq (a b : Word) : (!a.ult b) = decide (b.toNat ≤ a.toNat) := by
  rw [BitVec.ult, ← decide_not, decide_eq_decide, not_lt]

/-- The conditions of `CMP` compare as integers and as naturals (R90). -/
theorem cmpHolds_eq (cc : BitVec 4) (a b : Word) : cmpHolds cc.toNat a b = cmpRule cc a b := by
  unfold cmpHolds cmpRule
  match cc.toNat with
  | 0 => rfl
  | 1 => exact (decide_not (p := a = b)).symm
  | 2 => rfl
  | 3 => exact not_slt_eq a b
  | 4 => exact not_slt_eq b a
  | 5 => rfl
  | 6 => rfl
  | 7 => exact not_ult_eq a b
  | 8 => exact not_ult_eq b a
  | _ + 9 => rfl

/-- The low bits of a value, with or without the sign (R94, R95). -/
theorem keepLow_eq (sx : Bool) (a : Word) (w : Nat) :
    keepLow sx a (w + 1)
      = if sx && a.getLsbD w then (a &&& BitVec.ofNat 64 (2 ^ (w + 1) - 1)) ||| ~~~BitVec.ofNat 64 (2 ^ (w + 1) - 1)
        else a &&& BitVec.ofNat 64 (2 ^ (w + 1) - 1) := rfl

theorem keepLow_false (a : Word) (w : Nat) : keepLow false a (w + 1) = a &&& BitVec.ofNat 64 (2 ^ (w + 1) - 1) := rfl

theorem bitsIn_eq (old a : Word) (p w : Nat) :
    bitsIn old a p (w + 1)
      = (old &&& ~~~(BitVec.ofNat 64 (2 ^ (w + 1) - 1) <<< p)) ||| ((a &&& BitVec.ofNat 64 (2 ^ (w + 1) - 1)) <<< p) := rfl

/-! ### Every scalar instruction as one bay operation -/

/-- A scalar bay that reads the sources `os` and writes the value `x`. -/
def scalarBay (s : State) (b : Bay2) (d : Opd) (os : List Opd) (x : Word) : Host.Outcome State Fault Refusal :=
  bayOp s (os.map .s) [.s d] (fun t => wrS t b d x)

theorem exec_scalarForms (s : State) (b : Bay2) (d x y c : Opd) (i20 : BitVec 20) (i7 : BitVec 7) (sc : BitVec 3) (w : BitVec 6)
    (cc : BitVec 4) (sx : Bool) :
    ∀ f ∈ scalarForms s b d x y c i20 i7 sc w cc sx, exec f.1 s = scalarBay s b d f.2.1 f.2.2 := by
  have two {v v' : Word} (h : v = v') : scalarBay s b d [x, y] v = scalarBay s b d [x, y] v' := congrArg _ h
  have one {v v' : Word} (h : v = v') : scalarBay s b d [x] v = scalarBay s b d [x] v' := congrArg _ h
  simp only [scalarForms, List.forall_mem_cons]
  refine ⟨?add, ?sub, ?addi, ?mul, ?mulh, ?mulhn, ?div, ?divn, ?rem, ?remn, ?and, ?or, ?xor, ?andn, ?orn, ?shl, ?shrl, ?shra, ?rotl,
    ?rotr, ?clz, ?ctz, ?popc, ?min, ?max, ?minn, ?maxn, ?cmp, ?sel, ?li, ?lui, ?lea, ?bfx, ?bfi, ?sext, ?zext, ?mov,
    fun _ h => absurd h List.not_mem_nil⟩
  case mul => exact two (mul_eq_ofInt _ _)
  case div => exact two (divS_eq _ _)
  case divn => exact two (divN_eq _ _)
  case rem => exact two (remS_eq _ _)
  case remn => exact two (remN_eq _ _)
  case shl => exact two (shiftLeft_eq_ofNat _ _)
  case shrl => exact two (shiftRight_eq_ofNat _ _)
  case shra => exact two (sshiftRight_eq_ofInt _ _)
  case rotl => exact two (rotateLeft_eq _ _)
  case rotr => exact two (rotateRight_eq _ _)
  case clz => exact one (congrArg _ (leadingZeros_eq _))
  case popc => exact one (congrArg _ (onesIn_eq _))
  case min => exact two (minS_eq _ _)
  case max => exact two (maxS_eq _ _)
  case minn => exact two (minN_eq _ _)
  case maxn => exact two (maxN_eq _ _)
  case cmp => exact two (congrArg (fun p : Bool => if p then (1 : Word) else 0) (cmpHolds_eq _ _ _))
  case lea => exact two (congrArg (fun v => rdS s x + v + BitVec.ofInt 64 i7.toInt) (shiftLeft_eq_ofNat _ _))
  case bfx => exact two (keepLow_eq _ _ _)
  case sext => exact one (keepLow_eq true _ _)
  case add => rfl
  case sub => rfl
  case addi => rfl
  case mulh => rfl
  case mulhn => rfl
  case and => rfl
  case or => rfl
  case xor => rfl
  case andn => rfl
  case orn => rfl
  case ctz => rfl
  case sel => rfl
  case li => rfl
  case lui => exact one (congrArg (fun v => (rdS s x <<< 20) ||| v) (BitVec.ofNat_toNat 64 i20).symm)
  case bfi => exact congrArg (scalarBay s b d [x, y, d]) (bitsIn_eq _ _ _ _)
  case zext => exact one (keepLow_false _ _)
  case mov => rfl

/-- A destination that is no append may be written. -/
theorem canWrite_of_register (s : State) {d : Opd} (hd : isAppend d = false) : s.canWrite d := by
  cases d <;> trivial

end Sys2Proof.Machine

open Sys2Proof Sys2Proof.Machine

/-- Settles O1: on readable sources the bay of every form has no channel fault, and it writes the form's value to its latch and to the
register that is named. -/
theorem scalarResult : Obligations.ScalarResult := by
  intro s b d x y c i20 i7 sc w cc sx hd f hf hr
  rw [exec_scalarForms s b d x y c i20 i7 sc w cc sx f hf]
  refine bayOp_wrS (chanFault_none (fun u hu => ?_) (fun u hu => ⟨d, canWrite_of_register s hd, .inl (List.mem_singleton.mp hu)⟩)) hd
  obtain ⟨o, ho, rfl⟩ := List.mem_map.mp hu
  exact ⟨o, hr o ho, .inl rfl⟩

end

section
/-!
PROOF. Issue (R16, R17, R62, R79, R86): the checks of a whole bundle in their order, the bundle of one bay, and where issue goes on.
-/

namespace Sys2Proof.Machine

/-! ### The checks of a bundle -/

/-- The state in which a core's bundle is read: what stands in `iss` is the core before the bundle and the fields of its header. -/
def State.readsBundle (s : State) (core : Nat) (bs : List Byte) : State :=
  let c := s.core core
  let hdr := ofBytes (bs.take 2)
  { s with
    cur := core
    iss := { pre := c, bundle := c.t.pc, npc := c.t.pc + bundleLen (BitVec.ofNat 16 hdr), mask := bits hdr 0 7, idle := bits hdr 8 4,
             mem := s.mem } }

/-- A bundle that is refused: the fault is taken, and nothing of the bundle is left. -/
def State.refuse (s : State) (code : Nat) : State := { s.takeFault code 0 0 with iss := {} }

theorem bundleBays_of_ok {bs : List Byte} {b : Bundle} (h : decodeBundle bs = .ok b) : bundleBays bs = b.bays := by
  simp [bundleBays, h]

section

variable {ex : Instr → State → Host.Outcome State Fault Refusal} {s : State} {core : Nat} {bs : List Byte}

/-- A bundle that is held waits a cycle. -/
theorem issueBytes_stalled (h : (s.readsBundle core bs).stalled core (bundleBays bs) = true) :
    s.issueBytes ex core bs = .next (s.post (s.now + 1) (.issue core (s.core core).gen)) :=
  if_pos h

/-- What a bundle does in the cycle in which nothing holds it. -/
theorem issueBytes_ready (h : (s.readsBundle core bs).stalled core (bundleBays bs) = false)
    (hb : (s.readsBundle core bs).banksOk core (bundleBays bs) = true) :
    s.issueBytes ex core bs =
      match decodeBundle bs with
      | .error .illegalBundle => .next ((s.readsBundle core bs).refuse Code.illegalBundle)
      | .error _ =>
        .next ((s.readsBundle core bs).refuse
          (if portsOk (bundleBays bs) && popsOk (bundleBays bs) then Code.reservedField else Code.illegalBundle))
      | .ok b =>
        if !(portsOk b.bays && popsOk b.bays) then .next ((s.readsBundle core bs).refuse Code.illegalBundle)
        else if b.bays.any (dataReserved (s.readsBundle core bs)) then .next ((s.readsBundle core bs).refuse Code.reservedField)
        else if !writesOk b.bays then .next ((s.readsBundle core bs).refuse Code.bayConflict)
        else (s.readsBundle core bs).issueBays ex core b.bays := by
  refine (if_neg ?_).trans (if_neg ?_)
  · exact fun k => Bool.false_ne_true (h.symm.trans k)
  · exact fun k => Bool.false_ne_true ((Bool.eq_false_of_not_eq_true' k).symm.trans hb)

end

/-- A step at which a core's next bundle is due performs its issue. -/
theorem step_issue {s : State} {core : Nat} {rest : List Timed}
    (h : s.agenda = { due := s.now, act := .issue core (s.core core).gen } :: rest) :
    step s = settleOutcome s.now (State.issueAct { s with agenda := rest } exec core (s.core core).gen) := by
  unfold step
  rw [h]
  simp only [State.takeDue, Nat.max_self, State.perform]

/-- A core whose bundle is due and at hand, with no fault and no transfer to settle first, issues its bytes. -/
theorem issueAct_bytes {ex : Instr → State → Host.Outcome State Fault Refusal} {s : State} {core : Nat} {bs : List Byte}
    (hmode : (s.core core).t.mode = .running) (hwalk : (s.core core).t.walk = none) (hlate : (s.core core).t.late = [])
    (hjump : (s.core core).t.jump = none) (hdue : (s.core core).t.notBefore ≤ s.now)
    (hbs : (s.core core).bundleBytes (s.core core).t.pc = .ok bs) :
    s.issueAct ex core (s.core core).gen = s.issueBytes ex core bs := by
  unfold State.issueAct
  have hgo : ¬ ((s.core core).gen ≠ (s.core core).gen ∨ (s.core core).t.mode ≠ .running ∨ (s.core core).t.walk.isSome
      ∨ s.now < (s.core core).t.notBefore) := by
    simp [hmode, hwalk, hdue]
  simp only [if_neg hgo, hlate, List.find?_nil, hjump, hbs]

/-- A bundle of one bay that raises no fault: the bay's meaning, the banks it takes, and what follows. -/
theorem issueBays_single {ex : Instr → State → Host.Outcome State Fault Refusal} {u t : State} {core : Nat} {i : Instr}
    (h : ex i u = .next t) (ht : t.iss.trapped = false) :
    u.issueBays ex core [i] = .next ((t.takeBanks core [i]).commit core) := by
  have horder : effectOrder [i] = [i] := by cases hi : isBr i <;> simp [effectOrder, hi]
  simp [State.issueBays, firstTrap, runBays, horder, h, ht]

/-! ### What follows a bundle -/

/-- Issue goes on at an address from a cycle. -/
theorem issueAt_goes {s : State} {core : Nat} (pc due : Nat) (h : (s.core core).t.after = 0) :
    s.issueAt core pc due
      = (s.onTask core (fun t => { t with pc := pc, notBefore := due })).post due (.issue core (s.core core).gen) := by
  simp only [State.issueAt, h]

/-- The bundle has ended the task. -/
theorem issueAt_ends {s : State} {core : Nat} (pc due : Nat) (h : (s.core core).t.after = 1) :
    s.issueAt core pc due
      = ((s.onTask core (fun t => { t.setMode s.now .retiring with pc := pc, after := 0, jump := none, replay := none })).onTaskRec
          (s.core core).t.grp (s.core core).t.idx (fun t => { t with st := .retiring })).postEv s.now (.evTaskDone core) := by
  unfold State.issueAt
  rw [h]
  simp [TaskSt.setMode, TaskSt.sync]

/-- The task waits in `BRK`. -/
theorem issueAt_breaks {s : State} {core : Nat} (pc due : Nat) (h : (s.core core).t.after = 2) :
    s.issueAt core pc due
      = s.onTask core (fun t => { t.setMode s.now .brk with pc := pc, after := 0, brk := t.brk.map (fun b => (s.now, b.2)) }) := by
  simp only [State.issueAt, h]

/-- A core after its bundle has issued: the bundle's address and mask are noted, and the next address is set. -/
def Core.bundleDone (iss : Issue) (now npc : Nat) (jump : Option (Nat × Nat × Nat)) (c : Core) : Core :=
  { c with
    fetched := c.fetched.filter (fun e => iss.transfer.isNone && (e.1 == npc / 64 || e.1 == npc / 64 + 1)),
    t := { c.t with
      jump := jump, last := (iss.bundle, iss.mask), lastClear := now, tries := if iss.transfer.isSome then c.t.tries else 0,
      fetchTries := 0, pc := npc, replay := none } }

/-- The state after a core's bundle has issued: nothing of the bundle is left in `iss`. -/
def State.bundleDone (s : State) (core npc : Nat) (jump : Option (Nat × Nat × Nat)) : State :=
  { s.onCore core (Core.bundleDone s.iss s.now npc jump) with iss := {} }

theorem State.bundleDone_core (s : State) (core npc : Nat) (jump : Option (Nat × Nat × Nat)) :
    (s.bundleDone core npc jump).core core = (s.core core).bundleDone s.iss s.now npc jump :=
  State.core_onCore_self s core _

/-- Where and from when issue goes on after a bundle, and the transfer it makes (R16, R62). -/
def State.goesOn (s : State) : Nat × Nat × Option (Nat × Nat × Nat) :=
  match s.iss.transfer with
  | some t => (t, s.now + 2 + s.iss.idle, some (s.iss.bundle, s.iss.npc, s.iss.mask))
  | none => (s.iss.npc, s.now + 1 + s.iss.idle, none)

/-- With no late fault and no walk under way, issue goes on at the transfer's target or after the bundle. -/
theorem commit_eq {s : State} {core : Nat} (hunfin : s.iss.unfin = []) (hwalk : (s.core core).t.walk = none) :
    s.commit core = (s.bundleDone core s.goesOn.1 s.goesOn.2.2).issueAt core s.goesOn.1 s.goesOn.2.1 := by
  have none_left : ¬ (!s.iss.unfin.isEmpty) = true := by simp [hunfin]
  have no_walk : ¬ ((s.bundleDone core s.goesOn.1 s.goesOn.2.2).core core).t.walk.isSome = true := by
    rw [s.bundleDone_core]; simp [Core.bundleDone, hwalk]
  exact (if_neg none_left).trans (if_neg no_walk)

theorem State.now_le_goesOn (s : State) : s.now ≤ s.goesOn.2.1 := by
  unfold State.goesOn
  cases s.iss.transfer <;> dsimp only <;> omega

/-- The next bundle of a core after one that does not end its task: its address, the transfer it is the target of, and its cycle. -/
theorem commit_next {s : State} {core : Nat} (hunfin : s.iss.unfin = []) (hwalk : (s.core core).t.walk = none)
    (hafter : (s.core core).t.after = 0) :
    ((s.commit core).core core).t.pc = s.goesOn.1 ∧ ((s.commit core).core core).t.jump = s.goesOn.2.2
      ∧ (s.commit core).posted = s.posted ++ [{ due := s.goesOn.2.1, act := .issue core (s.core core).gen }] := by
  have hdone := s.bundleDone_core core s.goesOn.1 s.goesOn.2.2
  have hdue : max s.goesOn.2.1 s.now = s.goesOn.2.1 := max_eq_left s.now_le_goesOn
  rw [commit_eq hunfin hwalk, issueAt_goes _ _ (by rw [hdone]; exact hafter), State.post_core, State.core_onTask_self, hdone]
  refine ⟨rfl, rfl, ?_⟩
  change s.posted ++ [{ due := max s.goesOn.2.1 s.now, act := .issue core (s.core core).gen }] = _
  rw [hdue]

/-- A change of the executing core's task alone. -/
theorem onlyTask_onTask (s : State) (f : TaskSt → TaskSt) : onlyTask s (s.onTask s.cur f) s.cur (f s.me) :=
  ⟨⟨_, _, rfl⟩, fun _ hn => State.core_onTask_ne s _ _ _ hn, State.core_onTask_self s _ _⟩

end Sys2Proof.Machine

open Sys2Proof Sys2Proof.Machine

/-- Settles O5: the due bundle is at hand, passes every check, and its one bay is executed. -/
theorem stepIssuesBundle : Obligations.StepIssuesBundle := by
  intro s core rest bs b i t hag hmode hwalk hlate hjump hdue hbs hdec hb _ u hst hbk hports hpops hdata hwr hex htr
  have hbays : bundleBays bs = [i] := (bundleBays_of_ok hdec).trans hb
  have hu : State.readsBundle { s with agenda := rest } core bs = u := rfl
  have hact : State.issueAct { s with agenda := rest } exec core (s.core core).gen = u.issueBays exec core [i] := by
    refine (issueAct_bytes (s := { s with agenda := rest }) hmode hwalk hlate hjump hdue hbs).trans ?_
    rw [issueBytes_ready (by rw [hu, hbays]; exact hst) (by rw [hu, hbays]; exact hbk), hu, hdec]
    simp [hb, hports, hpops, hdata, hwr]
  rw [step_issue hag, hact, issueBays_single hex htr]
  rfl

/-- Settles O9: the checks of a bundle that nothing holds, in the order in which the issue makes them. -/
theorem bundleChecks : Obligations.BundleChecks := by
  intro s core bs c is u only legal
  have hlegal : legal ↔ (portsOk is && popsOk is) = true := (Bool.and_eq_true _ _ ▸ Iff.rfl)
  refine ⟨fun h => issueBytes_stalled h, fun hst hbk => ?_⟩
  have ready := issueBytes_ready (ex := exec) hst hbk
  refine ⟨fun hd => ?_, fun hl => ?_, fun hl hd => ?_, fun b hl hd => ?_⟩
  · rw [hd] at ready
    exact ready
  · rw [hlegal, Bool.not_eq_true] at hl
    cases hd : decodeBundle bs with
    | error e =>
      rw [hd] at ready
      cases e
      case illegalBundle => exact ready
      all_goals
        simp only [is] at hl
        simp only [hl, Bool.false_eq_true, if_false] at ready
        exact ready
    | ok b =>
      rw [hd] at ready
      simp only [is, bundleBays_of_ok hd] at hl
      simp only [hl, Bool.not_false, if_true] at ready
      exact ready
  · rw [hd] at ready
    simp only [hlegal, is] at hl
    simp only [hl, if_true] at ready
    exact ready
  · rw [hd] at ready
    simp only [hlegal, is, bundleBays_of_ok hd] at hl
    simp only [hl, Bool.not_true, Bool.false_eq_true, if_false] at ready
    refine ⟨fun hr => ready.trans (if_pos hr), fun hr hw => ready.trans ((if_neg ?_).trans (if_pos ?_))⟩
    · exact fun k => Bool.false_ne_true (hr.symm.trans k)
    · rw [hw]
      rfl

/-- Settles O14: with no late fault and no walk, issue goes on after the bundle or at its target, IDLE cycles later. -/
theorem issueGoesOn : Obligations.IssueGoesOn := by
  intro s core hunfin hwalk hafter
  have next := commit_next hunfin hwalk hafter
  refine ⟨fun x hx => ?_, fun hx => ?_⟩
  all_goals
    simp only [State.goesOn, hx] at next
    exact next

/-- Settles O16: `TEND` and `BRK` mark what follows their bundle, and issue does not go on then. -/
theorem taskEndAndBreak : Obligations.TaskEndAndBreak := by
  intro s code core pc due
  refine ⟨?tend, fun h => ?brk, fun h => ?noBrk, fun h => ?ends, fun h => ?breaks⟩
  case tend => exact ⟨_, rfl, onlyTask_onTask s (fun t => { t with after := 1 })⟩
  case brk =>
    exact ⟨_, congrArg Host.Outcome.next (if_pos h), onlyTask_onTask s (fun t => { t with after := 2, brk := some (s.now, code.toNat) })⟩
  case noBrk => simp [exec, execBrk, h]
  case ends =>
    rw [issueAt_ends pc due h]
    refine ⟨?_, ?_⟩
    · simp [State.onTaskRec, TaskSt.setMode]
    · simp [State.onTaskRec]
  case breaks =>
    rw [issueAt_breaks pc due h]
    exact ⟨by simp [TaskSt.setMode], by simp, rfl, by simp⟩

end

section
/-!
PROOF. Lane masks (R14, R122, R126, R138): what a write of a mask register changes, and what the instructions that write one leave in it.
-/

namespace Sys2Proof.Machine

/-! ### A mask from a test of each lane -/

theorem testBit_foldr_range' (f : Nat → Bool) (n k i : Nat) (hi : i < n) :
    ((List.range' k n).foldr (fun j acc => 2 * acc + (if f j then 1 else 0)) 0).testBit i = f (k + i) := by
  induction n generalizing k i with
  | zero => omega
  | succ n ih =>
    rw [List.range'_succ, List.foldr_cons]
    cases i with
    | zero => cases f k <;> simp [Nat.testBit_zero]
    | succ i =>
      rw [Nat.testBit_succ, show k + (i + 1) = k + 1 + i by omega, ← ih (k + 1) i (by omega)]
      congr 1
      split <;> omega

/-- Lane `i` of a mask is the test of lane `i`. -/
theorem maskOf_getLsbD (f : Nat → Bool) (i : Nat) (hi : i < 64) : (maskOf f).getLsbD i = f i := by
  have h := testBit_foldr_range' f 64 0 i hi
  rw [maskOf, BitVec.getLsbD_ofNat, List.range_eq_range', h, Nat.zero_add]
  simp [hi]

/-! ### A write of a mask register -/

theorem TaskSt.mask_zero (t : TaskSt) : t.mask 0 = BitVec.allOnes 64 := rfl

/-- A write of `m0` is discarded (R14). -/
theorem wrM_zero (s : State) (x : LaneMask) : wrM s 0 x = s := rfl

theorem wrM_of_ne (s : State) {i : Nat} (h : i ≠ 0) (x : LaneMask) :
    wrM s i x = s.onTask s.cur (fun t => (t.setMask i x).setReady (RegKey.m i) (s.now + 4)) :=
  if_neg h

/-- What the named mask register holds after a write: the mask, ready four cycles later. -/
theorem mask_wrM_self (s : State) {i : Nat} (h : i ≠ 0) (x : LaneMask) :
    (wrM s i x).me.mask i = x ∧ NMap.get 0 (wrM s i x).me.rdy (RegKey.m i) = s.now + 4 := by
  have hme : (wrM s i x).me = (s.me.setMask i x).setReady (RegKey.m i) (s.now + 4) := by rw [wrM_of_ne s h, State.me_onTask]
  rw [hme]
  simp [TaskSt.setMask, TaskSt.setReady, TaskSt.mask, h]

theorem TaskSt.setMask_keeps (t : TaskSt) (i c : Nat) (x : LaneMask) :
    t.onlyRegs ((t.setMask i x).setReady (RegKey.m i) c)
      ∧ (∀ k, ((t.setMask i x).setReady (RegKey.m i) c).scalar k = t.scalar k)
      ∧ (∀ k, ((t.setMask i x).setReady (RegKey.m i) c).vector k = t.vector k)
      ∧ ∀ j, j ≠ i → ((t.setMask i x).setReady (RegKey.m i) c).mask j = t.mask j := by
  by_cases h : i = 0
  · simp only [TaskSt.setMask, h, if_true]
    exact ⟨⟨_, _, _, _, _, _, _, _, _, _, _, _, _, _, rfl⟩, fun _ => rfl, fun _ => rfl, fun _ _ => rfl⟩
  · simp only [TaskSt.setMask, h, if_false]
    refine ⟨⟨_, _, _, _, _, _, _, _, _, _, _, _, _, _, rfl⟩, fun _ => rfl, fun _ => rfl, fun j hj => ?_⟩
    simp only [TaskSt.setReady, TaskSt.mask, NMap.get_put_ne _ _ _ _ _ hj]

/-- A write of a mask register changes nothing else. -/
theorem quiet_wrM (s : State) (i : Nat) (x : LaneMask) : quiet s (wrM s i x) (if i = 0 then [] else [RegKey.m i]) := by
  by_cases h : i = 0
  · subst h
    rw [wrM_zero]
    exact ⟨⟨fun _ _ _ => rfl, fun _ _ _ => rfl, fun _ _ => rfl⟩, TaskSt.onlyRegs.late _ _ _,
      ⟨⟨_, _, _, _, _, _, _, rfl⟩, fun _ => ⟨_, rfl⟩, fun _ _ => rfl, _, rfl⟩, fun _ => rfl⟩
  · rw [wrM_of_ne s h, if_neg h]
    refine quiet_of_reads (bayReads.refl s) _ _ (fun t => ?_)
    obtain ⟨honly, hscalar, hvector, hmask⟩ := t.setMask_keeps i (s.now + 4) x
    exact ⟨honly, fun k _ _ => hscalar k, fun k _ _ => hvector k,
      fun j hj => hmask j (fun hji => hj (hji ▸ List.mem_singleton_self _))⟩

/-! ### A vector result beside a mask -/

/-- The clock, the executing core, the issue's record and the task's masks are as before. -/
def keepsMasks (s t : State) : Prop := t.now = s.now ∧ t.cur = s.cur ∧ t.iss = s.iss ∧ ∀ i, t.me.mask i = s.me.mask i

theorem keepsMasks.trans {s t u : State} (h : keepsMasks s t) (k : keepsMasks t u) : keepsMasks s u := by
  obtain ⟨hn, hc, hi, hm⟩ := h
  obtain ⟨kn, kc, ki, km⟩ := k
  exact ⟨kn.trans hn, kc.trans hc, ki.trans hi, fun i => (km i).trans (hm i)⟩

theorem keepsMasks_onTask (s : State) (f : TaskSt → TaskSt) (hf : ∀ t i, (f t).mask i = t.mask i) : keepsMasks s (s.onTask s.cur f) :=
  ⟨rfl, rfl, rfl, fun i => by rw [State.me_onTask]; exact hf _ i⟩

theorem keepsMasks_onQueue (s : State) (q : Nat) (f : Queue → Queue) : keepsMasks s (s.onQueue s.cur q f) :=
  ⟨rfl, rfl, rfl, fun i => by simp [State.me, State.onQueue]⟩

theorem keepsMasks_reserveSlot (s : State) (q : Nat) : keepsMasks s (s.reserveSlot s.cur q).2 := by
  unfold State.reserveSlot
  dsimp only
  split
  · exact keepsMasks_onQueue s q _
  · exact keepsMasks_onQueue s q _

theorem keepsMasks_of_reads {s t : State} (h : bayReads s t) : keepsMasks s t := by
  obtain ⟨⟨_, _, _, _, rfl⟩, _, _, _, _, _, hcore, _⟩ := h
  refine ⟨rfl, rfl, rfl, fun i => ?_⟩
  rw [State.me, hcore]
  rfl

/-- A vector result whose slot is filled later leaves the masks alone. -/
theorem keepsMasks_wrV (s : State) (d : Opd) (x : VReg) : keepsMasks s (wrV s d x) := by
  have hput (k : Nat) (u : State) : keepsMasks u (u.onTask u.cur (fun t => t.putVector k x (u.now + 4))) :=
    keepsMasks_onTask u _ (fun t i => t.mask_putVector k _ i x)
  unfold wrV
  cases d
  case app q => exact (hput _ s).trans (keepsMasks_reserveSlot _ q.toNat)
  case yv => exact (hput _ s).trans (hput _ _)
  case file i => exact (hput _ s).trans (hput _ _)
  case main i => exact (hput _ s).trans (hput _ _)
  all_goals exact hput _ s

/-- The mask of a comparison: the bit of each active lane all of whose elements compare true (R126). -/
def vcmpMask (s : State) (h : VHdr) (a b : Opd) (cc : BitVec 4) : LaneMask :=
  let ty := h.ty.toNat
  let w := tyWidth ty
  maskOf (fun i => (activeMask s h).getLsbD i && (List.range (32 / w)).all (fun j =>
    vcmpHolds cc.toNat ty (elem (rdV s false ty a) w (32 / w * i + j)) (elem (rdV s false ty b) w (32 / w * i + j))))

/-- `VCMP` on readable sources and a writable destination: a vector result and the mask of its comparisons. -/
theorem exec_vcmp {s : State} {h : VHdr} {d a b : Opd} (mw : BitVec 3) (cc : BitVec 4) (ha : s.canRead a) (hb : s.canRead b)
    (hd : s.canWrite d) :
    ∃ u, keepsMasks s u ∧ exec (.vcmp h d a b mw cc) s = .next (wrM u mw.toNat (vcmpMask s h a b cc)) := by
  have hchan : chanFault s.iss.pre s.now [.v a, .v b] [.v d] = none := by
    refine chanFault_none (fun u hu => ?_) (fun u hu => ⟨d, hd, .inr (List.mem_singleton.mp hu)⟩)
    simp only [List.mem_cons, List.not_mem_nil, or_false] at hu
    obtain rfl | rfl := hu
    · exact ⟨a, ha, .inr rfl⟩
    · exact ⟨b, hb, .inr rfl⟩
  obtain ⟨r, hr⟩ : ∃ r, exec (.vcmp h d a b mw cc) s
      = bayOp s [.v a, .v b] [.v d] (fun t => wrM (wrV t d r) mw.toNat (vcmpMask s h a b cc)) := ⟨_, rfl⟩
  refine ⟨_, ?_, hr.trans (bayOp_next _ hchan)⟩
  exact (keepsMasks_of_reads (bayReads.bay s [.v a, .v b])).trans (keepsMasks_wrV _ d _)

theorem toNat_ne_zero {n : Nat} {x : BitVec n} (h : x ≠ 0) : x.toNat ≠ 0 := fun k => h (BitVec.eq_of_toNat_eq k)

/-- What a mask that is made from a test of each lane leaves in the register it is written to. -/
theorem mask_wrM_getLsbD (s : State) {i : Nat} (h : i ≠ 0) (x : LaneMask) (f : Nat → Bool) (hx : ∀ j, j < 64 → x.getLsbD j = f j) :
    (∀ j, j < 64 → ((wrM s i x).me.mask i).getLsbD j = f j) ∧ NMap.get 0 (wrM s i x).me.rdy (RegKey.m i) = s.now + 4 := by
  obtain ⟨hm, hr⟩ := mask_wrM_self s h x
  exact ⟨fun j hj => by rw [hm, hx j hj], hr⟩

end Sys2Proof.Machine

open Sys2Proof Sys2Proof.Machine

/-- Settles O31: each instruction writes one mask, whose bits are the tests of its lanes. -/
theorem vectorMasks : Obligations.VectorMasks := by
  intro s h d a b mw ma mb cc ty w act holds isMask key bit
  have hkey : key = if mw.toNat = 0 then [] else [RegKey.m mw.toNat] := by
    by_cases hz : mw = 0
    · simp [key, hz]
    · exact (if_neg hz).trans (if_neg (toNat_ne_zero hz)).symm
  have writes (x : LaneMask) (f : Nat → Bool) (hx : ∀ j, j < 64 → x.getLsbD j = f j) :
      isMask (wrM s mw.toNat x) f ∧ quiet s (wrM s mw.toNat x) key :=
    ⟨fun hz => mask_wrM_getLsbD s (toNat_ne_zero hz) x f hx, hkey ▸ quiet_wrM s mw.toNat x⟩
  refine ⟨fun ha hb hd => ?vcmp, ⟨_, rfl, writes _ _ ?and⟩, ⟨_, rfl, writes _ _ ?or⟩, ⟨_, rfl, writes _ _ ?not⟩⟩
  case vcmp =>
    obtain ⟨u, ⟨hnow, _⟩, hu⟩ := exec_vcmp mw cc ha hb hd (h := h)
    refine ⟨_, hu, fun hz => ?_⟩
    rw [← hnow]
    exact mask_wrM_getLsbD u (toNat_ne_zero hz) _ _ (maskOf_getLsbD _)
  case and => intro j _; exact BitVec.getLsbD_and
  case or => intro j _; exact BitVec.getLsbD_or
  case not => intro j hj; rw [BitVec.getLsbD_not]; simp [hj, bit]

/-- Settles O60: `m0` is no register, and a write of it leaves the state alone. -/
theorem maskZero : Obligations.MaskZero := by
  intro s h d a b ma mb cc
  have discarded (x : LaneMask) : quiet s (wrM s 0 x) [] := quiet_wrM s 0 x
  refine ⟨fun t => ⟨TaskSt.mask_zero _, TaskSt.mask_zero _⟩, fun ha hb hd => ?_, ⟨_, rfl, discarded _⟩, ⟨_, rfl, discarded _⟩,
    ⟨_, rfl, discarded _⟩⟩
  obtain ⟨u, ⟨_, _, hiss, hmask⟩, hu⟩ := exec_vcmp 0 cc ha hb hd (h := h)
  exact ⟨u, hu, congrArg Issue.trapped hiss, hmask⟩

end

section
/-!
PROOF. Tasks in their groups (R321 to R324, R330, R337, R343): what a write of a task's record does to the group, the readiness of a task
and the choice among those that wait.
-/

namespace Sys2Proof.Machine

/-! ### Records of tasks -/

/-- A group whose watchdog counter is brought up to date holds the same tasks, and differs in that counter only. -/
theorem Group.settleIdle_shape (g : Group) (n : Nat) : ∃ a b c, g.settleIdle n = { g with idle := a, idling := b, idleFrom := c } := by
  unfold Group.settleIdle
  dsimp only
  split
  · exact ⟨_, _, g.idleFrom, rfl⟩
  · split
    · exact ⟨g.idle, _, _, rfl⟩
    · exact ⟨g.idle, g.idling, g.idleFrom, rfl⟩

@[simp] theorem Group.settleIdle_tasks (g : Group) (n : Nat) : (g.settleIdle n).tasks = g.tasks := by
  obtain ⟨_, _, _, h⟩ := g.settleIdle_shape n
  rw [h]

variable {s : State} {gk i : Nat} {g : Group} {t : Task}

theorem State.task?_of (hg : s.group? gk = some g) : s.task? gk i = g.tasks[i]? := by simp [State.task?, hg]

/-- A change of a group is one of the groups alone. -/
theorem State.onGroup_shape (s : State) (k : Nat) (f : Group → Group) : ∃ gr, s.onGroup k f = { s with groups := gr } := by
  unfold State.onGroup
  split
  · exact ⟨_, rfl⟩
  · exact ⟨s.groups, rfl⟩

theorem State.onTaskRec_shape (s : State) (k i : Nat) (f : Task → Task) : ∃ gr, s.onTaskRec k i f = { s with groups := gr } :=
  s.onGroup_shape _ _

/-- A change of a group that leaves its tasks as they are leaves every task as it is. -/
theorem State.task?_onGroup_keep (s : State) (gk : Nat) (f : Group → Group) (h : ∀ g, (f g).tasks = g.tasks) (k i : Nat) :
    (s.onGroup gk f).task? k i = s.task? k i := by
  unfold State.task?
  by_cases hk : k = gk
  · subst hk
    cases hg : s.group? k with
    | none => simp [State.onGroup, hg]
    | some g => simp [State.group_onGroup_self s k f g hg, h]
  · rw [State.group_onGroup_ne s gk k f hk]

theorem State.task?_onTaskRec_self (ht : s.task? gk i = some t) (f : Task → Task) : (s.onTaskRec gk i f).task? gk i = some (f t) := by
  cases hg : s.group? gk with
  | none => simp [State.task?, hg] at ht
  | some g =>
    rw [State.task?_of hg] at ht
    rw [State.onTaskRec, State.task?_of (State.group_onGroup_self s gk _ g hg)]
    simp [ht]

theorem State.task?_onTaskRec_ne (f : Task → Task) {k j : Nat} (h : k ≠ gk ∨ j ≠ i) : (s.onTaskRec gk i f).task? k j = s.task? k j := by
  unfold State.task? State.onTaskRec
  by_cases hk : k = gk
  · have hj : j ≠ i := h.resolve_left (· hk)
    subst hk
    cases hg : s.group? k with
    | none => simp [State.onGroup, hg]
    | some g =>
      rw [State.group_onGroup_self s k _ g hg]
      simp [Ne.symm hj]
  · rw [State.group_onGroup_ne s gk k _ hk]

/-- A task's record is written and an event posted, and nothing else. -/
theorem onlyTaskRec_post (ht : s.task? gk i = some t) (f : Task → Task) (n : Nat) (a : Act) :
    onlyTaskRec s ((s.onTaskRec gk i f).post n a) gk i (f t) := by
  refine ⟨?_, State.task?_onTaskRec_self ht f, fun k j h => State.task?_onTaskRec_ne f h⟩
  obtain ⟨gr, h⟩ := s.onTaskRec_shape gk i f
  exact ⟨_, gr, by rw [h]; rfl⟩

/-! ### What is posted -/

/-- What is posted for a cycle that has not passed is due in it. -/
theorem State.hasPosted_post {n : Nat} (h : s.now ≤ n) (a : Act) : (s.post n a).hasPosted n a := by
  simp [State.hasPosted, Nat.max_eq_left h]

theorem State.hasPosted_post_of {n m : Nat} {a b : Act} (h : s.hasPosted n a) : (s.post m b).hasPosted n a := by
  simp only [State.hasPosted, State.post_posted, List.mem_append] at h ⊢
  exact .inl h

/-! ### Readiness (R323) -/

theorem State.waitsHold_iff (s : State) (n : Nat) (r : List Word) :
    s.waitsHold n r = true ↔ ∀ j, j < recNW r → bits (recWait r j) 8 12 ≤ s.sem n (bits (recWait r j) 0 8) := by
  simp [State.waitsHold]

theorem State.taskReady_eq (hg : s.group? gk = some g) (ht : g.tasks[i]? = some t) :
    s.taskReady gk i = if t.st = .listed ∧ t.cnt = 0 ∧ g.ended = false ∧ (s.context g.ctx).st = .active
        ∧ s.waitsHold (recCore (g.ctx / 64) t.recd) t.recd = true
      then (s.onTaskRec gk i (fun t => { t with st := .ready, readyAt := s.now })).postEv s.now (.evTaskGrant (recCore (g.ctx / 64) t.recd))
      else s := by
  have ht' : s.task? gk i = some t := by rw [State.task?_of hg, ht]
  simp only [State.taskReady, hg, ht', Bool.and_eq_true, beq_iff_eq, Bool.not_eq_true', and_assoc]

/-! ### The choice (R324) -/

/-- Whether `w` is chosen no later than `v`: the order of R324. -/
def Waiting.notAfter (w v : Waiting) : Prop :=
  v.eff < w.eff ∨ (v.eff = w.eff ∧ (w.since < v.since ∨ (w.since = v.since ∧ (w.order < v.order ∨ (w.order = v.order ∧ w.idx ≤ v.idx)))))

theorem Waiting.notAfter_iff (w v : Waiting) : w.notAfter v ↔ v.before w = false := by
  simp only [Waiting.notAfter, Waiting.before, Bool.or_eq_false_iff, Bool.and_eq_false_imp, decide_eq_false_iff_not, beq_iff_eq]
  omega

theorem Waiting.notAfter_refl (w : Waiting) : w.notAfter w := by
  unfold Waiting.notAfter
  omega

theorem Waiting.notAfter_trans {a b c : Waiting} (h : a.notAfter b) (k : b.notAfter c) : a.notAfter c := by
  unfold Waiting.notAfter at *
  omega

theorem Waiting.notAfter_of_before {a b : Waiting} (h : a.before b = true) : a.notAfter b := by
  simp only [Waiting.before, Bool.or_eq_true, Bool.and_eq_true, decide_eq_true_eq, beq_iff_eq] at h
  unfold Waiting.notAfter
  omega

/-- The better of the best so far and another. -/
def Waiting.pick (best : Option Waiting) (w : Waiting) : Option Waiting :=
  match best with
  | none => some w
  | some b => if w.before b then some w else some b

theorem Waiting.pick_some (b w : Waiting) : ∃ z, Waiting.pick (some b) w = some z ∧ (z = b ∨ z = w) ∧ z.notAfter b ∧ z.notAfter w := by
  unfold Waiting.pick
  by_cases h : w.before b = true
  · exact ⟨w, by simp [h], .inr rfl, Waiting.notAfter_of_before h, w.notAfter_refl⟩
  · exact ⟨b, by simp [h], .inl rfl, b.notAfter_refl, (Waiting.notAfter_iff b w).mpr (by simpa using h)⟩

/-- The best of a list and of one before it is one of them and comes after none of them. -/
theorem pick_foldl (ws : List Waiting) (b : Waiting) :
    ∃ z, ws.foldl Waiting.pick (some b) = some z ∧ (z = b ∨ z ∈ ws) ∧ z.notAfter b ∧ ∀ v ∈ ws, z.notAfter v := by
  induction ws generalizing b with
  | nil => exact ⟨b, rfl, .inl rfl, b.notAfter_refl, by simp⟩
  | cons w ws ih =>
    obtain ⟨y, hy, hmem, hb, hw⟩ := Waiting.pick_some b w
    obtain ⟨z, hz, hzm, hzy, hzs⟩ := ih y
    refine ⟨z, by rw [List.foldl_cons, hy, hz], ?_, Waiting.notAfter_trans hzy hb, ?_⟩
    · rcases hzm with rfl | hzm
      · rcases hmem with rfl | rfl
        · exact .inl rfl
        · exact .inr (by simp)
      · exact .inr (by simp [hzm])
    · intro v hv
      rcases List.mem_cons.mp hv with rfl | hv
      · exact Waiting.notAfter_trans hzy hw
      · exact hzs v hv

theorem bestOf_first {ws : List Waiting} {w : Waiting} (h : bestOf ws = some w) : w ∈ ws ∧ ∀ v ∈ ws, w.notAfter v := by
  cases ws with
  | nil => simp [bestOf] at h
  | cons b ws =>
    obtain ⟨z, hz, hzm, hzb, hzs⟩ := pick_foldl ws b
    have hzw : z = w := Option.some.inj (hz.symm.trans h)
    subst hzw
    exact ⟨List.mem_cons.mpr hzm, List.forall_mem_cons.mpr ⟨hzb, hzs⟩⟩

theorem State.chosen_unreserved {core : Nat} (h : (s.core core).resv = none) : s.chosen core = bestOf (s.waitingFor core) := by
  simp [State.chosen, h]

theorem State.chosen_nothing {core : Nat} (h : s.waitingFor core = []) : s.chosen core = none := by
  simp [State.chosen, h, bestOf, Option.orElse]

/-! ### The grant (R324) -/

/-- Nothing is granted while the context is not ACTIVE, on a core of none, where no task waits, or while the die is throttled. -/
theorem State.taskGrant_idle {core : Nat} (h : (s.context (s.ctxOf core)).st ≠ .active ∨ (s.core core).ctx = none ∨ s.waitingFor core = []
    ∨ (s.die (dieOf core)).throttled = true) : s.taskGrant core = s := by
  unfold State.taskGrant
  dsimp only
  split
  · rfl
  · rename_i hrun
    cases hc : s.chosen core with
    | none => rfl
    | some w =>
      rcases h with h | h | h | h
      · simp [h] at hrun
      · simp [h] at hrun
      · rw [State.chosen_nothing h] at hc
        exact absurd hc (by simp)
      · simp [h]

/-- The chosen task takes a core that no task is on, once the core is free. -/
theorem State.taskGrant_eq {core : Nat} {w : Waiting} (ha : (s.context (s.ctxOf core)).st = .active) (hx : (s.core core).ctx ≠ none)
    (hc : s.chosen core = some w) (hm : (s.core core).t.mode = .none) (ht : (s.die (dieOf core)).throttled = false) :
    s.taskGrant core = if s.coreFree core then s.grantTo core w else s.postEv (s.now + 1) (.evTaskGrant core) := by
  unfold State.taskGrant
  simp [ha, hx, hc, hm, ht]

end Sys2Proof.Machine
end

section
/-!
PROOF. The end of groups, the counters and clocks of the scheduler, and writes of TAIL (R23, R315, R330, R337, R343, R362).
-/

namespace Sys2Proof.Machine

variable {s : State} {gk : Nat} {g : Group}

/-! ### The end of a group (R320, R330) -/

/-- Whether something due is a decrement of a `TDEP` of a group. -/
def Act.isTdepOf (gk : Nat) : Act → Bool
  | .tdep _ c => c.grp == gk
  | _ => false

theorem State.groupOver_iff (s : State) (gk : Nat) (g : Group) : s.groupOver gk g = true ↔
    (∀ t ∈ g.tasks, t.st = .done ∨ t.st = .killed)
      ∧ (∀ kc ∈ s.cores, ∀ c ∈ NMap.get [] kc.2.c.cmdq 7, isGroupCmd c.ins = true → c.grp ≠ gk)
      ∧ s.isDue (Act.isTdepOf gk) = false
      ∧ ∀ ko ∈ s.ops, ko.2.owner = 1 → ko.2.grp = gk → ko.2.det = true ∨ ko.2.st = .done := by
  have hdue : s.groupOver gk g = (g.tasks.all (fun t => t.st == .done || t.st == .killed)
      && !s.cores.any (fun kc => (NMap.get [] kc.2.c.cmdq 7).any (fun c => isGroupCmd c.ins && c.grp == gk))
      && !s.isDue (Act.isTdepOf gk)
      && !s.ops.any (fun kv => kv.2.owner == 1 && kv.2.grp == gk && !kv.2.det && kv.2.st != .done)) := rfl
  have hcmds (cs : List Cmd) : ¬ (cs.any (fun c => isGroupCmd c.ins && c.grp == gk)) = true
      ↔ ∀ c ∈ cs, isGroupCmd c.ins = true → c.grp ≠ gk := by simp
  have hop (o : Op) : ¬ (o.owner = 1 ∧ o.grp = gk ∧ o.det = false ∧ (o.st != .done) = true)
      ↔ (o.owner = 1 → o.grp = gk → o.det = true ∨ o.st = .done) := by
    cases o.det <;> simp
  simp only [hdue, Bool.and_eq_true, List.all_eq_true, Bool.or_eq_true, beq_iff_eq, Bool.not_eq_true', List.any_eq_false,
    hop, hcmds, and_assoc]

/-- What a group that has ended reports (R320): the status and the first task that was killed. -/
def Group.outcome (g : Group) : Nat × Nat :=
  if g.tasks.all (fun t => t.st == .done) then (0, 0xFFFFF) else (g.firstKilled.map (fun e => (e.2, e.1))).getD (0, 0xFFFFF)

/-- The operations of a group pass to its context. -/
def State.orphanOps (s : State) (gk : Nat) : NMap Op :=
  s.ops.map (fun ko => if ko.2.owner = 1 ∧ ko.2.grp = gk then (ko.1, { ko.2 with owner := 2 }) else ko)

/-- A group is marked as ended, before its completion record. -/
def State.closeGroup (s : State) (gk : Nat) : State :=
  ({ s with ops := s.orphanOps gk } : State).onGroup gk (fun g => { g with ended := true }.settleIdle s.now)

theorem State.endGroup_eq (s : State) (gk : Nat) (g : Group) :
    s.endGroup gk g = ((s.closeGroup gk).reportGroup gk g).postIntake (g.ctx / 64) := by
  have h : (fun (kv : Nat × Op) => if kv.2.owner == 1 && kv.2.grp == gk then (kv.1, { kv.2 with owner := 2 }) else kv)
      = fun ko => if ko.2.owner = 1 ∧ ko.2.grp = gk then (ko.1, { ko.2 with owner := 2 }) else ko := by
    funext kv
    simp
  simp only [State.endGroup, h]
  rfl

theorem State.closeGroup_shape (s : State) (gk : Nat) : ∃ gr os, s.closeGroup gk = { s with groups := gr, ops := os } := by
  obtain ⟨gr, h⟩ := ({ s with ops := s.orphanOps gk } : State).onGroup_shape gk (fun g => { g with ended := true }.settleIdle s.now)
  exact ⟨gr, _, h⟩

theorem State.closeGroup_ops (s : State) (gk : Nat) : (s.closeGroup gk).ops = s.orphanOps gk := by
  rw [State.closeGroup, State.onGroup_ops]

theorem State.closeGroup_group (hg : s.group? gk = some g) :
    (s.closeGroup gk).group? gk = some ({ g with ended := true }.settleIdle s.now) :=
  State.group_onGroup_self _ gk _ g hg

/-! ### Clocks and counters -/

theorem State.tokenRefill_shape (s : State) (ctx : Nat) : ∃ po cx, s.tokenRefill ctx = { s with posted := po, ctxs := cx } := ⟨_, _, rfl⟩

theorem State.tokenRefill_context (s : State) (ctx : Nat) : (s.tokenRefill ctx).context ctx
    = { s.context ctx with tokens := min (s.context ctx).tokmax ((s.context ctx).tokens + (s.context ctx).tokrate) } :=
  State.context_onContext_self s ctx (fun c => { c with tokens := min c.tokmax (c.tokens + c.tokrate) })

theorem State.taskWatchdog_of_task {core ctx i limit : Nat} (h : (s.core core).t.isTask gk i = true) :
    s.taskWatchdog ctx gk i limit core = if limit ≤ s.now - (s.core core).t.brkClear s.now
      then s.fatal ctx { code := Code.watchdog, grp := gk, task := i, coord := coordWord core, bundle := (s.core core).t.pc,
                         opid := ((s.core core).t.brk.map Prod.snd).getD 0 }
      else s.postEv ((s.core core).t.brkClear s.now + limit) (.evWatchdog ctx gk i) := by
  have hid : (s.core core).t.grp = gk ∧ (s.core core).t.idx = i := by
    simp only [TaskSt.isTask, Bool.and_eq_true, beq_iff_eq] at h
    exact ⟨h.1.2, h.2⟩
  obtain ⟨rfl, rfl⟩ := hid
  unfold State.taskWatchdog
  simp only [h, Bool.not_true, if_false, Bool.false_eq_true]
  rfl

theorem TaskSt.brkClear_of_not {t : TaskSt} {now : Nat} (h : t.brk = none ∨ t.doing ≠ .brk) : t.brkClear now = t.lastClear := by
  unfold TaskSt.brkClear
  rcases h with h | h
  · rw [h]
  · split <;> simp [h]

/-- The cycles a task has waited in `BRK` do not count (R343). -/
theorem TaskSt.brkClear_counts {t : TaskSt} {now b code : Nat} (hb : t.brk = some (b, code)) (hd : t.doing = .brk) (hl : t.lastClear ≤ b)
    (hn : b ≤ now) : now - t.brkClear now = b - t.lastClear := by
  simp only [TaskSt.brkClear, hb, hd, if_true]
  omega

/-! ### Clock gating (R23) -/

/-- Whether nothing is left to look at on a yard: its clock is gated, or a task is on a core of it. -/
theorem yardCores_any (s : State) (die yard : Nat) :
    (yardCores die yard).any (fun n => (s.core n).t.mode != .none) = true ↔ ∃ n ∈ yardCores die yard, (s.core n).t.mode ≠ .none := by
  simp [List.any_eq_true]

/-- A yard is looked at again, unless it is anyway. -/
def State.lookAgain (s : State) (die yard due : Nat) : State :=
  if s.isDue (· == .ev (.evYardGate die yard)) then s else s.postEv due (.evYardGate die yard)

theorem State.lookAgain_shape (s : State) (die yard due : Nat) : ∃ po, s.lookAgain die yard due = { s with posted := po } := by
  unfold State.lookAgain
  split
  · exact ⟨s.posted, rfl⟩
  · exact ⟨_, rfl⟩

theorem State.lookAgain_posts {die yard due : Nat} (hn : s.now ≤ due) (h : s.isDue (· == .ev (.evYardGate die yard)) = false) :
    (s.lookAgain die yard due).hasPosted due (.ev (.evYardGate die yard)) := by
  rw [State.lookAgain, h]
  exact State.hasPosted_post hn _

theorem State.yardGate_stays {die yard : Nat}
    (h : NMap.get false (s.die die).gated yard = true ∨ ∃ n ∈ yardCores die yard, (s.core n).t.mode ≠ .none) : s.yardGate die yard = s := by
  unfold State.yardGate
  exact if_pos (by rw [Bool.or_eq_true, yardCores_any]; exact h)

/-- A yard without a task whose clock is not gated (R23). -/
structure State.YardFree (s : State) (die yard : Nat) : Prop where
  running : ¬ NMap.get false (s.die die).gated yard = true
  empty : ¬ ∃ n ∈ yardCores die yard, (s.core n).t.mode ≠ .none

theorem State.YardFree.cond {die yard : Nat} (h : s.YardFree die yard) :
    ¬ (NMap.get false (s.die die).gated yard || (yardCores die yard).any (fun n => (s.core n).t.mode != .none)) = true := by
  rw [Bool.or_eq_true, yardCores_any]
  exact not_or.mpr ⟨h.running, h.empty⟩

theorem State.yardGate_works {die yard : Nat} (h : s.YardFree die yard) (hi : s.yardIdle die yard = false) :
    s.yardGate die yard = (s.onDie die (fun d => { d with idleSince := NMap.erase d.idleSince yard })).lookAgain die yard (s.now + 1) := by
  unfold State.yardGate
  exact (if_neg h.cond).trans (if_pos (by simp [hi]))

theorem State.yardGate_idle {die yard : Nat} (h : s.YardFree die yard) (hi : s.yardIdle die yard = true) :
    s.yardGate die yard = match NMap.find (s.die die).idleSince yard with
      | none => (s.onDie die (fun d => { d with idleSince := NMap.set d.idleSince yard s.now })).lookAgain die yard (s.now + gateAfter)
      | some t =>
        if t + gateAfter ≤ s.now then
          s.onDie die (fun d => { d with gated := NMap.set d.gated yard true, idleSince := NMap.erase d.idleSince yard })
        else s.lookAgain die yard (t + gateAfter) := by
  unfold State.yardGate
  refine (if_neg h.cond).trans ((if_neg (by simp [hi])).trans ?_)
  cases NMap.find (s.die die).idleSince yard <;> rfl

/-- One die changes and the yard is looked at again. -/
theorem State.onDie_lookAgain (s : State) (die yard due : Nat) (f : Die → Die) (hn : s.now ≤ due) :
    ((s.onDie die f).lookAgain die yard due).die die = f (s.die die)
      ∧ (∃ po di, (s.onDie die f).lookAgain die yard due = { s with posted := po, dies := di })
      ∧ (s.isDue (· == .ev (.evYardGate die yard)) = false →
        ((s.onDie die f).lookAgain die yard due).hasPosted due (.ev (.evYardGate die yard))) := by
  obtain ⟨po, h⟩ := (s.onDie die f).lookAgain_shape die yard due
  refine ⟨?_, ⟨po, (s.onDie die f).dies, by rw [h]; rfl⟩, fun hd => State.lookAgain_posts hn hd⟩
  rw [h]
  exact State.die_onDie_self s die f

/-! ### Launch queues (R315, R362) -/

/-- Whether a write of TAIL fits the queue (R315). -/
def LaunchQ.tailFits (l : LaunchQ) (v : Nat) : Prop :=
  l.en = true ∧ 6 ≤ l.lcnt ∧ l.lcnt ≤ 15 ∧ (v + 2 ^ 32 - l.head % 2 ^ 32) % 2 ^ 32 ≤ 2 ^ l.lcnt
    ∧ l.ahead ≤ (v + 2 ^ 32 - l.head % 2 ^ 32) % 2 ^ 32

theorem LaunchQ.tailFits_iff (l : LaunchQ) (v : Nat) : l.tailFits v ↔ ¬ ((!l.fits) = true
    ∨ 2 ^ l.lcnt < (v + 2 ^ 32 - l.head % 2 ^ 32) % 2 ^ 32 ∨ (v + 2 ^ 32 - l.head % 2 ^ 32) % 2 ^ 32 < l.ahead) := by
  simp only [LaunchQ.tailFits, LaunchQ.fits, not_or, Nat.not_lt, Bool.not_eq_true', Bool.not_eq_false, Bool.and_eq_true,
    decide_eq_true_eq, and_assoc]

theorem State.tailWrite_overflows {ctx q v : Nat} {src : Option Nat} (h : ¬ (s.launchQ (4 * ctx + q)).tailFits v) :
    s.tailWrite ctx q v src = s.onLaunch (4 * ctx + q) (fun l => { l with ovf := true }) := by
  rw [LaunchQ.tailFits_iff, not_not] at h
  exact if_pos h

theorem State.tailWrite_announces {ctx q v : Nat} {src : Option Nat} (h : (s.launchQ (4 * ctx + q)).tailFits v) :
    s.tailWrite ctx q v src
      = (s.onLaunch (4 * ctx + q) (fun l => { l with tail := v, srcs := l.srcs ++ [(v, src)] })).postIntake (ctx / 64) := by
  rw [LaunchQ.tailFits_iff] at h
  exact if_neg h

theorem State.postIntake_shape (s : State) (die : Nat) : ∃ po fr, s.postIntake die = { s with posted := po, free := fr } := by
  unfold State.postIntake
  split
  · exact ⟨s.posted, s.free, rfl⟩
  · exact ⟨_, _, rfl⟩

theorem State.postIntake_due (s : State) (die : Nat) : (s.postIntake die).isDue (· == .ev (.evPacketTake die)) = true := by
  unfold State.postIntake
  split
  · assumption
  · simp only [State.isDue, State.postFree_posted, List.any_append, List.any_cons, BEq.rfl, Bool.true_or, Bool.or_true]

theorem State.launchQ_onLaunch (s : State) (k j : Nat) (f : LaunchQ → LaunchQ) :
    (s.onLaunch k f).launchQ j = if j = k then f (s.launchQ k) else s.launchQ j := by
  by_cases h : j = k
  · subst h
    simp
  · rw [State.launchQ_onLaunch_ne s k j f h, if_neg h]

/-- A write of TAIL is lost on its way (R356, R362): over a circuit that has failed, or the port of a remote node that carries nothing. -/
def State.tailLost (s : State) (ctx n : Nat) : Prop :=
  (n < 8 ∧ n ≠ ctx / 64 ∧ (s.circuit n (ctx / 64)).st ∉ [CircSt.up, .degraded, .setup])
    ∨ (0x1000 ≤ n ∧ n < 0x2000 ∧ (s.ewenPort ((n - 0x1000) / 0x100)).st.carries = false)

/-- A write of TAIL waits for a circuit in SETUP. -/
def State.tailWaits (s : State) (ctx n : Nat) : Prop := n < 8 ∧ n ≠ ctx / 64 ∧ (s.circuit n (ctx / 64)).st = .setup

theorem State.overDies_lost {a b : Nat} {i : Instr} {f : State → State} (hab : a ≠ b)
    (h : (s.circuit a b).st ∉ [CircSt.up, .degraded, .setup]) : s.overDies a b i f = s := by
  unfold State.overDies
  rw [if_neg hab]
  split <;> simp_all

theorem State.overDies_arrives {a b : Nat} {i : Instr} {f : State → State} (h : a ≠ b → (s.circuit a b).st ∈ [CircSt.up, .degraded]) :
    s.overDies a b i f = f s := by
  unfold State.overDies
  split
  · rfl
  · rename_i hab
    have := h hab
    split <;> simp_all

/-- A write of TAIL arrives, or is lost on its way. -/
theorem State.tailArrives_lost {ctx q : Nat} {v : BitVec 32} {src : Option (BitVec 16)} {n : Nat} (hn : src.map BitVec.toNat = some n)
    (h : s.tailLost ctx n) : s.tailArrives ctx q v src = s := by
  unfold State.tailArrives
  dsimp only
  rw [hn]
  rcases h with ⟨h8, hne, hst⟩ | ⟨hlo, hhi, hst⟩
  · exact (if_pos h8).trans (State.overDies_lost hne hst)
  · exact (if_neg (by omega)).trans (if_pos ⟨hlo, hhi, by simp [hst]⟩)

theorem State.tailArrives_arrives {ctx q : Nat} {v : BitVec 32} {src : Option (BitVec 16)} (hq : q < 4)
    (hl : ¬ ∃ n, src.map BitVec.toNat = some n ∧ s.tailLost ctx n) (hw : ¬ ∃ n, src.map BitVec.toNat = some n ∧ s.tailWaits ctx n) :
    s.tailArrives ctx q v src = s.tailWrite ctx q v.toNat (src.map BitVec.toNat) := by
  unfold State.tailArrives
  dsimp only
  rw [Nat.mod_eq_of_lt hq]
  cases hn : src.map BitVec.toNat with
  | none => rfl
  | some n =>
    have hlost : ¬ s.tailLost ctx n := fun h => hl ⟨n, hn, h⟩
    have hwait : ¬ s.tailWaits ctx n := fun h => hw ⟨n, hn, h⟩
    dsimp only
    by_cases h8 : n < 8
    · refine (if_pos h8).trans (State.overDies_arrives fun hne => ?_)
      have hst : (s.circuit n (ctx / 64)).st ∈ [CircSt.up, .degraded, .setup] := by
        by_contra h
        exact hlost (.inl ⟨h8, hne, h⟩)
      have hns : (s.circuit n (ctx / 64)).st ≠ .setup := fun h => hwait ⟨h8, hne, h⟩
      simpa [hns] using hst
    · refine (if_neg h8).trans (if_neg fun ⟨hlo, hhi, hc⟩ => hlost (.inr ⟨hlo, hhi, by simpa using hc⟩))

end Sys2Proof.Machine
end

section
/-!
PROOF. The start of a task (R25, R116, R314, R319): the state a granted task begins with, and what is asked for and posted for it.
-/

namespace Sys2Proof.Machine

variable {s u v : State} {core gk i : Nat} {g : Group} {t : Task}

/-! ### Blocks that are asked for -/

/-- Blocks of code have been asked for on a core, and nothing else has changed. -/
def State.asked (s u : State) (core : Nat) : Prop :=
  (∃ po fr co, u = { s with posted := po, free := fr, cores := co }) ∧ ∃ f, u.core core = { s.core core with fetching := f }

theorem State.asked.refl (s : State) (core : Nat) : s.asked s core := ⟨⟨s.posted, s.free, s.cores, rfl⟩, (s.core core).fetching, rfl⟩

theorem State.asked.trans (h : s.asked u core) (k : u.asked v core) : s.asked v core := by
  obtain ⟨⟨_, _, _, rfl⟩, f, hf⟩ := h
  obtain ⟨⟨po, fr, co, rfl⟩, e, he⟩ := k
  exact ⟨⟨po, fr, co, rfl⟩, e, by rw [he, hf]⟩

/-- Asking for one block. -/
theorem State.asked.one (s : State) (core b n : Nat) :
    s.asked ((s.onCore core (fun c => { c with fetching := b :: c.fetching })).postFree n (.evFetchBlockArrive core b)) core :=
  ⟨⟨_, _, _, rfl⟩, b :: (s.core core).fetching, State.core_onCore_self s core (fun c => { c with fetching := b :: c.fetching })⟩

theorem State.asked.entry (s : State) (core b : Nat) : s.asked (s.askEntry core b) core := by
  unfold State.askEntry
  split
  · exact .refl s core
  · exact .one s core b 48

theorem State.asked.ahead (s : State) (core b : Nat) : s.asked (s.askAhead core b) core := by
  unfold State.askAhead State.askBlock
  split
  · split
    · exact .refl s core
    · exact .one s core b _
  · exact .refl s core

theorem State.asked.from_ (s : State) (core b : Nat) : s.asked (s.askFrom core b) core := by
  have hfold (l : List Nat) (s : State) : s.asked (l.foldl (fun s i => s.askAhead core (b + i)) s) core := by
    induction l generalizing s with
    | nil => exact .refl s core
    | cons i l ih => exact (State.asked.ahead s core (b + i)).trans (ih _)
  exact hfold _ s

/-- The blocks of a task's entry, and those after them. -/
def State.askStart (s : State) (core b : Nat) : State := ((s.askEntry core b).askEntry core (b + 1)).askFrom core (b + 2)

theorem State.asked.start (s : State) (core b : Nat) : s.asked (s.askStart core b) core :=
  ((State.asked.entry s core b).trans (.entry _ core (b + 1))).trans (.from_ _ core (b + 2))

/-! ### The task on its core -/

theorem State.ungate_shape (s : State) (die yard : Nat) : ∃ po di, s.ungate die yard = { s with posted := po, dies := di } := by
  unfold State.ungate
  dsimp only
  split
  · exact ⟨_, _, rfl⟩
  · exact ⟨s.posted, _, rfl⟩

/-- The first bundle of a task. -/
def Group.entry (g : Group) (t : Task) : Nat := g.obj + bits (g.hdr.getD 1 0).toNat 0 32 + recEntry t.recd

/-- A core that a task has taken. -/
def Core.seat (c : Core) (core gk i : Nat) (g : Group) (t : Task) (now : Nat) : Core :=
  { c.forCode g.obj (g.obj + bits (g.hdr.getD 1 0).toNat 0 32) (bits (g.hdr.getD 1 0).toNat 32 32) with
    gen := c.gen + 1, resv := none, t := freshTask c.t core gk i g.gid (g.entry t) now t }

theorem Core.forCode_kept (c : Core) (obj code len : Nat) : (c.forCode obj code len).code = code ∧ (c.forCode obj code len).gen = c.gen
    ∧ (c.forCode obj code len).t = c.t := by
  unfold Core.forCode
  split
  · rename_i h
    exact ⟨h.2, rfl, rfl⟩
  · exact ⟨rfl, rfl, rfl⟩

/-- A task has taken its core, before its code is asked for. -/
def State.seated (s : State) (core gk i : Nat) (g : Group) (t : Task) : State :=
  ((s.ungate (dieOf core) (yardOf core)).onCore core (fun c => c.seat core gk i g t s.now)).onTaskRec gk i (fun t => { t with st := .running })

/-- A task begins: its first bundle issues some cycles later, and its watchdog counter is looked at in its time. -/
def State.begin (s : State) (core gk i bound : Nat) (g : Group) : State :=
  (((s.onTask core (fun t => { t with notBefore := s.now + s.delay bound })).post (s.now + s.delay bound) (.issue core (s.core core).gen)).spend).postEv
    (s.now + 2 ^ (s.context g.ctx).wdlog) (.evWatchdog g.ctx gk i)

theorem State.startTask_eq (hg : s.group? gk = some g) (ht : g.tasks[i]? = some t) (hi : g.items = []) :
    s.startTask core gk i = ((s.seated core gk i g t).askStart core (g.entry t / 64)).begin core gk i
      (if NMap.get false (s.die (dieOf core)).gated (yardOf core) then 64 else 32) g := by
  have ht' : s.task? gk i = some t := by rw [State.task?_of hg, ht]
  obtain ⟨po, di, hu⟩ := s.ungate_shape (dieOf core) (yardOf core)
  -- the code of the group is loaded
  have hload : (s.ungate (dieOf core) (yardOf core)).loadCode core gk = (s.ungate (dieOf core) (yardOf core)).onCore core
      (fun c => c.forCode g.obj (g.obj + bits (g.hdr.getD 1 0).toNat 0 32) (bits (g.hdr.getD 1 0).toNat 32 32)) := by
    have hg' : (s.ungate (dieOf core) (yardOf core)).group? gk = some g := by rw [hu]; exact hg
    simp only [State.loadCode, hg']
  have hnow : (s.ungate (dieOf core) (yardOf core)).now = s.now := by rw [hu]
  have hentry (c : Core) : (c.forCode g.obj (g.obj + bits (g.hdr.getD 1 0).toNat 0 32) (bits (g.hdr.getD 1 0).toNat 32 32)).code
      + recEntry t.recd = g.entry t := by rw [(c.forCode_kept _ _ _).1]; rfl
  have hgen (c : Core) := (c.forCode_kept g.obj (g.obj + bits (g.hdr.getD 1 0).toNat 0 32) (bits (g.hdr.getD 1 0).toNat 32 32)).2.1
  have hold (c : Core) := (c.forCode_kept g.obj (g.obj + bits (g.hdr.getD 1 0).toNat 0 32) (bits (g.hdr.getD 1 0).toNat 32 32)).2.2
  simp only [State.startTask, hg, ht', hload, hi, State.startItems, State.core_onCore_self, hentry, State.onCore_now, hnow,
    State.onCore_onCore, hgen, hold]
  rfl

theorem State.delay_bounds (s : State) {n : Nat} (h : 0 < n) : 1 ≤ s.delay n ∧ s.delay n ≤ n := by
  have := Nat.mod_lt (Config.freeDelay s.free) h
  unfold State.delay
  omega

theorem State.seated_core (s : State) (core gk i : Nat) (g : Group) (t : Task) :
    (s.seated core gk i g t).core core = (s.core core).seat core gk i g t s.now := by
  obtain ⟨po, di, hu⟩ := s.ungate_shape (dieOf core) (yardOf core)
  rw [State.seated, State.onTaskRec, State.onGroup_core, State.core_onCore_self, hu]
  rfl

theorem State.seated_shape (s : State) (core gk i : Nat) (g : Group) (t : Task) :
    ∃ po di co gr, s.seated core gk i g t = { s with posted := po, dies := di, cores := co, groups := gr } := by
  obtain ⟨gr, h⟩ := ((s.ungate (dieOf core) (yardOf core)).onCore core (fun c => c.seat core gk i g t s.now)).onTaskRec_shape gk i
    (fun t => { t with st := .running })
  obtain ⟨po, di, hu⟩ := s.ungate_shape (dieOf core) (yardOf core)
  rw [State.seated, h, hu]
  exact ⟨po, di, _, gr, rfl⟩

theorem State.seated_task (hg : s.group? gk = some g) (ht : g.tasks[i]? = some t) :
    (s.seated core gk i g t).task? gk i = some { t with st := .running } := by
  refine State.task?_onTaskRec_self ?_ _
  obtain ⟨po, di, hu⟩ := s.ungate_shape (dieOf core) (yardOf core)
  rw [hu, ← ht]
  exact State.task?_of hg

/-- A task has begun: its core holds a fresh task state, its record says RUNNING, its first bundle and its watchdog counter are due. -/
structure State.begun (s u : State) (core gk i due : Nat) (g : Group) (t : Task) : Prop where
  task : (u.core core).t = { (freshTask (s.core core).t core gk i g.gid (g.entry t) s.now t) with notBefore := due }
  recd : u.task? gk i = some { t with st := .running }
  issue : u.hasPosted due (.issue core ((s.core core).gen + 1))
  watch : u.hasPosted (s.now + 2 ^ (s.context g.ctx).wdlog) (.ev (.evWatchdog g.ctx gk i))

theorem State.begin_begun {bound : Nat} (hg : s.group? gk = some g) (ht : g.tasks[i]? = some t)
    (h : (s.seated core gk i g t).asked u core) :
    s.begun (u.begin core gk i bound g) core gk i (u.now + u.delay bound) g t := by
  obtain ⟨⟨po', fr, co', hu⟩, f, hf⟩ := h
  obtain ⟨po, di, co, gr, hs⟩ := s.seated_shape core gk i g t
  rw [State.seated_core] at hf
  have hnow : u.now = s.now := by rw [hu, hs]
  have hctx : u.context g.ctx = s.context g.ctx := by rw [hu, hs]; rfl
  have hgen : (u.core core).gen = (s.core core).gen + 1 := by rw [hf]; rfl
  have htask : (u.core core).t = freshTask (s.core core).t core gk i g.gid (g.entry t) s.now t := by rw [hf]; rfl
  refine ⟨?_, ?_, ?_, ?_⟩
  · refine (congrArg Core.t (State.core_onTask_self u core (fun t => { t with notBefore := u.now + u.delay bound }))).trans ?_
    rw [htask]
  · have : u.task? gk i = (s.seated core gk i g t).task? gk i := by rw [hu]; rfl
    exact this.trans (State.seated_task hg ht)
  · rw [← hgen]
    refine State.hasPosted_post_of (?_ : State.hasPosted _ _ _)
    exact State.hasPosted_post (s := u.onTask core _) (Nat.le_add_right _ _) _
  · rw [← hnow, ← hctx]
    exact State.hasPosted_post (s := (State.post _ _ _).spend) (Nat.le_add_right _ _) _

/-- A READY task is granted its core (R25, R26). -/
theorem State.startTask_begins (hg : s.group? gk = some g) (ht : g.tasks[i]? = some t) (hi : g.items = []) :
    ∃ due, s.begun (s.startTask core gk i) core gk i due g t ∧ s.now < due
      ∧ due ≤ s.now + (if NMap.get false (s.die (dieOf core)).gated (yardOf core) then 64 else 32) := by
  have hask := State.asked.start (s.seated core gk i g t) core (g.entry t / 64)
  refine ⟨_, by rw [State.startTask_eq hg ht hi]; exact State.begin_begun hg ht hask, ?_⟩
  have hnow : ((s.seated core gk i g t).askStart core (g.entry t / 64)).now = s.now := by
    obtain ⟨⟨_, _, _, h⟩, _⟩ := hask
    obtain ⟨_, _, _, _, k⟩ := s.seated_shape core gk i g t
    rw [h, k]
  have hpos : 0 < if NMap.get false (s.die (dieOf core)).gated (yardOf core) then 64 else 32 := by split <;> decide
  have := ((s.seated core gk i g t).askStart core (g.entry t / 64)).delay_bounds hpos
  omega

/-- What the registers of a fresh task hold (R25). -/
theorem freshTask_scalar (old : TaskSt) (core gk i gid entry now : Nat) (t : Task) {k : Nat} (h : 3 ≤ k) (h' : k < 64) :
    (freshTask old core gk i gid entry now t).scalar k = 0 := by
  refine (if_pos h').trans ?_
  change NMap.get 0 (NMap.put 0 (NMap.put 0 (NMap.put 0 [] 0 (word (coordWord core))) 1 t.arg) 2 (word gid)) k = 0
  have h2 : k ≠ 2 := by omega
  have h1 : k ≠ 1 := by omega
  have h0 : k ≠ 0 := by omega
  rw [NMap.get_put_ne _ _ _ _ _ h2, NMap.get_put_ne _ _ _ _ _ h1, NMap.get_put_ne _ _ _ _ _ h0]
  rfl

theorem freshTask_vector (old : TaskSt) (core gk i gid entry now : Nat) (t : Task) (k : Nat) :
    (freshTask old core gk i gid entry now t).vector k = 0 := by
  unfold TaskSt.vector freshTask
  split
  · rfl
  · split <;> rfl

theorem freshTask_args (old : TaskSt) (core gk i gid entry now : Nat) (t : Task) :
    let f := freshTask old core gk i gid entry now t
    f.scalar 0 = word (coordWord core) ∧ f.scalar 1 = t.arg ∧ f.scalar 2 = word gid := by
  simp [TaskSt.scalar, freshTask, NMap.get_put_ne]

end Sys2Proof.Machine
end

section
/-!
PROOF. What the scheduler sees of a state, and what leaves it as it is: the machinery that reads and writes memory, posts records and
messages, and answers commands changes no group, no operation and no launch queue, and puts no task on a core or off it.
-/

namespace Sys2Proof.Machine

/-- Which task a core holds, and what it does. -/
def TaskSt.ident (t : TaskSt) : TaskMode × TaskMode × Nat × Nat := (t.mode, t.saveFrom, t.grp, t.idx)

/-- What the scheduler sees of a state: the cycle, launch queues, groups and operations, TOKENS and WDLOG of every context, and the task
on every core. -/
structure SchedView where
  now : Nat
  launch : NMap LaunchQ
  groups : NMap Group
  ops : NMap Op
  ctx : Nat → Nat × Nat
  ident : Nat → TaskMode × TaskMode × Nat × Nat

def State.sched (s : State) : SchedView :=
  { now := s.now, launch := s.launch, groups := s.groups, ops := s.ops, ctx := fun n => ((s.context n).tokens, (s.context n).wdlog),
    ident := fun n => (s.core n).t.ident }

variable (s : State)

/-! ### The parts of a state -/

@[simp] theorem sched_post (n : Nat) (a : Act) : (s.post n a).sched = s.sched := (rfl)
@[simp] theorem sched_postEv (n : Nat) (i : Instr) : (s.postEv n i).sched = s.sched := (rfl)
@[simp] theorem sched_spend : s.spend.sched = s.sched := (rfl)
@[simp] theorem sched_postFree (n : Nat) (i : Instr) : (s.postFree n i).sched = s.sched := (rfl)
@[simp] theorem sched_onPc (n p : Nat) (f : PChan → PChan) : (s.onPc n p f).sched = s.sched := (rfl)
@[simp] theorem sched_onUnit (n : Nat) (f : BankUnit → BankUnit) : (s.onUnit n f).sched = s.sched := (rfl)
@[simp] theorem sched_onCircuit (a b : Nat) (f : Circuit → Circuit) : (s.onCircuit a b f).sched = s.sched := (rfl)
@[simp] theorem sched_setEcc (d p : Nat) (e : Ecc) : (s.setEcc d p e).sched = s.sched := (rfl)

@[simp] theorem sched_onCore (n : Nat) (f : Core → Core) (h : ∀ c, (f c).t.ident = c.t.ident) : (s.onCore n f).sched = s.sched := by
  have hid (k : Nat) : ((s.onCore n f).core k).t.ident = (s.core k).t.ident := by
    by_cases hk : k = n
    · subst hk
      rw [State.core_onCore_self, h]
    · rw [State.core_onCore_ne s n k f hk]
  simp only [State.sched, hid]
  rfl

@[simp] theorem sched_onTask (n : Nat) (f : TaskSt → TaskSt) (h : ∀ t, (f t).ident = t.ident) : (s.onTask n f).sched = s.sched :=
  sched_onCore s n _ fun c => h c.t

@[simp] theorem sched_onCtxSt (n : Nat) (f : CtxSt → CtxSt) : (s.onCtxSt n f).sched = s.sched := sched_onCore s n _ fun _ => rfl

/-- A change of a context that leaves TOKENS and WDLOG. -/
@[simp] theorem sched_onContext (n : Nat) (f : Context → Context) (h : ∀ c, (f c).tokens = c.tokens ∧ (f c).wdlog = c.wdlog) :
    (s.onContext n f).sched = s.sched := by
  have hctx (k : Nat) : (((s.onContext n f).context k).tokens, ((s.onContext n f).context k).wdlog) = ((s.context k).tokens, (s.context k).wdlog) := by
    by_cases hk : k = n
    · subst hk
      rw [State.context_onContext_self, (h _).1, (h _).2]
    · rw [State.context_onContext_ne s n k f hk]
  simp only [State.sched, hctx]
  rfl

/-- A fold whose steps leave what the scheduler sees. -/
@[simp] theorem sched_foldl {α : Type} (f : State → α → State) (l : List α) (h : ∀ s a, (f s a).sched = s.sched) :
    (l.foldl f s).sched = s.sched := by
  induction l generalizing s with
  | nil => rfl
  | cons a l ih => rw [List.foldl_cons, ih, h]

/-! ### Channels and walks (R271, R289, R293) -/

@[simp] theorem sched_countCorrected (d : Nat) : (s.countCorrected d).sched = s.sched := (rfl)

@[simp] theorem sched_fixMode (d p : Nat) : (s.fixMode d p).sched = s.sched := by
  unfold State.fixMode
  simp [apply_ite State.sched]

@[simp] theorem sched_touchPc (d p : Nat) : (s.touchPc d p).sched = s.sched := by
  unfold State.touchPc
  simp [apply_ite State.sched]

@[simp] theorem sched_scrubWord (d p : Nat) : (s.scrubWord d p).sched = s.sched := by
  unfold State.scrubWord
  simp [apply_ite State.sched]

@[simp] theorem sched_scrubRun (t : Tgt) (n : Nat) : (s.scrubRun t n).sched = s.sched := by
  unfold State.scrubRun
  split <;> simp

@[simp] theorem sched_walkSeen (ctx va : Nat) : (s.walkSeen ctx va).sched = s.sched := by
  unfold State.walkSeen
  simp

/- Where a definition looks at a translation, the translation is made opaque before the definition is opened: else the kernel would
evaluate the walk. -/
@[simp] theorem sched_readSeen (ctx va n acc : Nat) : (s.readSeen ctx va n acc).sched = s.sched := by
  obtain ⟨tr, htr⟩ : ∃ f, f = @State.translate := ⟨_, rfl⟩
  have h : @State.readSeen = @State.readSeen := rfl
  conv_rhs at h => delta State.readSeen
  rw [h, ← htr]
  dsimp only
  split <;> simp

@[simp] theorem sched_bytesSeen (ctx va n acc : Nat) : (s.bytesSeen ctx va n acc).sched = s.sched := by
  unfold State.bytesSeen
  simp

/-! ### Records and writes (R294, R295, R340, R347, R358, R386) -/

@[simp] theorem sched_raiseIntr (d v : Nat) : (s.raiseIntr d v).sched = s.sched := (rfl)
@[simp] theorem sched_toMailbox (ctx : Nat) (w : TrapRec) : (s.toMailbox ctx w).sched = s.sched := (rfl)

@[simp] theorem sched_fatal (ctx : Nat) (r : RecInfo) : (s.fatal ctx r).sched = s.sched := by simp [State.fatal]

@[simp] theorem sched_holdPosted (d : Nat) (w : Posted) : (s.holdPosted d w).sched = s.sched := (rfl)

@[simp] theorem sched_hostWrite (d : Nat) (ctx : Option Nat) (a : Nat) (bs : List (Option Byte)) (r : RecInfo) (q : Option (Nat × Nat))
    (op : Option Nat) : (s.hostWrite d ctx a bs r q op).sched = s.sched := by
  unfold State.hostWrite
  split <;> rfl

@[simp] theorem sched_pubHold (ctx core w a : Nat) (bs : List (Option Byte)) : (s.pubHold ctx core w a bs).sched = s.sched := (rfl)

@[simp] theorem sched_plainWrite (ctx : Nat) (t : Tgt) (bs : List Byte) : (s.plainWrite ctx t bs).sched = s.sched := by
  unfold State.plainWrite
  split
  · rw [sched_foldl _ _ _ fun _ _ => sched_setEcc _ _ _ _]
    rfl
  · simp
  · simp

@[simp] theorem sched_recordPosted (ctx : Nat) (w : TrapRec) : (s.recordPosted ctx w).sched = s.sched := by simp [State.recordPosted]

theorem sched_writeRecord (ctx : Nat) (w : TrapRec) {u : State} (hu : s.writeRecord ctx w = .ok u) : u.sched = s.sched := by
  obtain ⟨tr, htr⟩ : ∃ f, f = @State.translate := ⟨_, rfl⟩
  have h : @State.writeRecord = @State.writeRecord := rfl
  conv_rhs at h => delta State.writeRecord
  rw [h, ← htr] at hu
  dsimp only at hu
  split at hu
  · exact absurd hu (by simp)
  · split at hu <;> cases hu <;> simp

@[simp] theorem sched_postRecord (ctx : Nat) (w : TrapRec) : (s.postRecord ctx w).sched = s.sched := by
  obtain ⟨wr, hwr⟩ : ∃ f, f = @State.writeRecord := ⟨_, rfl⟩
  have hw (v u : State) (hu : wr v ctx w = .ok u) : u.sched = v.sched := sched_writeRecord v ctx w (by rw [← hwr]; exact hu)
  have h : @State.postRecord = @State.postRecord := rfl
  conv_rhs at h => delta State.postRecord
  rw [h, ← hwr]
  dsimp only
  split
  · simp
  · -- a fatal record and any other need different room, and are written alike
    split
    all_goals
      split
      · split
        · rename_i hu
          rw [hw _ _ hu, sched_walkSeen]
        · simp
      · simp [apply_ite State.sched]

@[simp] theorem sched_postInfo (ctx : Nat) (r : RecInfo) : (s.postInfo ctx r).sched = s.sched := by simp [State.postInfo]

@[simp] theorem sched_notice (ctx : Nat) (r : RecInfo) : (s.notice ctx r).sched = s.sched := by simp [State.notice]

/-! ### Scratchpad (R19, R295) -/

@[simp] theorem sched_padScrub (core x n : Nat) : (s.padScrub core x n).sched = s.sched := by
  unfold State.padScrub
  refine sched_foldl s _ _ fun s i => ?_
  dsimp only
  split <;> rfl

@[simp] theorem sched_padWriteWord (core x : Nat) (bs : List (Option Byte)) (ctx : Nat) (r : RecInfo) (cut : Bool) :
    (s.padWriteWord core x bs ctx r cut).sched = s.sched := by
  unfold State.padWriteWord
  dsimp only
  split
  · rfl
  · split
    · rfl
    · split
      · rw [sched_notice]
        rfl
      · split <;> rfl

@[simp] theorem sched_padWriteAux (core ctx : Nat) (r : RecInfo) (n x : Nat) (bs : List (Option Byte)) :
    (s.padWriteAux core ctx r n x bs).sched = s.sched := by
  induction n generalizing s x bs with
  | zero => rfl
  | succ n ih =>
    rw [State.padWriteAux, ih]
    split <;> simp

@[simp] theorem sched_padWrite (core x : Nat) (bs : List (Option Byte)) (r : RecInfo) : (s.padWrite core x bs r).sched = s.sched := by
  unfold State.padWrite
  simp only [sched_padWriteAux]
  refine sched_foldl s _ _ fun s i => ?_
  split <;> rfl

@[simp] theorem sched_padPut (core x : Nat) (bs : List Byte) (r : RecInfo) : (s.padPut core x bs r).sched = s.sched := by simp [State.padPut]

@[simp] theorem sched_passStores (core x : Nat) (bs : List (Option Byte)) : (s.passStores core x bs).sched = s.sched := by
  unfold State.passStores
  split
  · rfl
  · exact sched_onCore s core _ fun _ => rfl

@[simp] theorem sched_padPoisonLines (core x n : Nat) : (s.padPoisonLines core x n).sched = s.sched := by
  unfold State.padPoisonLines
  exact sched_foldl s _ _ fun _ _ => rfl

/-! ### Semaphores, tokens and commands (R71, R230, R231) -/

@[simp] theorem sched_setSem (core i v : Nat) : (s.setSem core i v).sched = s.sched := sched_onCtxSt s core _

@[simp] theorem sched_wakeListed (core : Nat) : (s.wakeListed core).sched = s.sched := by
  unfold State.wakeListed
  refine sched_foldl s _ _ fun s kg => sched_foldl s _ _ fun s i => ?_
  split
  · simp [apply_ite State.sched]
  · rfl

@[simp] theorem sched_semAdd (core i n : Nat) (src : SigSrc) : (s.semAdd core i n src).sched = s.sched := by
  unfold State.semAdd
  simp [apply_ite State.sched]

@[simp] theorem sched_signal (core : Nat) (c : Cmd) (head : Bool) (opid : Word) : (s.signal core c head opid).sched = s.sched := by
  unfold State.signal
  split
  · simp [apply_ite State.sched]
  · rfl

theorem TaskSt.ident_endToken (t : TaskSt) (r : Nat) (o : TokOwner) (x : Word) (cyc : Nat) : (t.endToken r o x cyc).ident = t.ident := by
  unfold TaskSt.endToken
  split <;> rfl

theorem sched_onOwner (core gk i : Nat) (f : TaskSt → TaskSt) (h : ∀ t, (f t).ident = t.ident) : (s.onOwner core gk i f).sched = s.sched := by
  refine sched_onCore s core _ fun c => ?_
  dsimp only
  split
  · exact h c.t
  · rfl

@[simp] theorem sched_endTok (core gk i r : Nat) (o : TokOwner) (x : Word) (n : Nat) :
    (s.onOwner core gk i (fun t => t.endToken r o x n)).sched = s.sched := sched_onOwner s core gk i _ fun t => t.ident_endToken r o x n

@[simp] theorem sched_clearWatch (core gk i : Nat) : (s.clearWatch core gk i).sched = s.sched := by
  refine sched_onCore s core _ fun c => ?_
  dsimp only
  split <;> rfl

@[simp] theorem sched_endCmd (core : Nat) (c : Cmd) (code detail : Nat) (head : Bool) : (s.endCmd core c code detail head).sched = s.sched := by
  unfold State.endCmd
  dsimp only
  split <;> split <;> simp

/-! ### Queues and their messages (R165 to R177) -/

@[simp] theorem sched_onQueue (core q : Nat) (f : Queue → Queue) : (s.onQueue core q f).sched = s.sched := sched_onCtxSt s core _

end Sys2Proof.Machine
end

section
/-!
PROOF. What the scheduler sees, continued: queues and splices, waiting commands, engines, bank units and saves leave it as it is.
-/

namespace Sys2Proof.Machine

/-- The values of a map are changed under their keys. -/
theorem NMap.find_map_val {α : Type} (f : α → α) (m : NMap α) (k : Nat) :
    NMap.find (m.map (fun e => (e.1, f e.2))) k = (NMap.find m k).map f := by
  induction m with
  | nil => rfl
  | cons e m ih =>
    obtain ⟨j, v⟩ := e
    by_cases h : j = k <;> simp [NMap.find, h, ih]

variable (s : State)

/-- Every context is changed, TOKENS and WDLOG kept. -/
theorem sched_mapContexts (f : Context → Context) (h : ∀ c, (f c).tokens = c.tokens ∧ (f c).wdlog = c.wdlog) :
    ({ s with ctxs := s.ctxs.map (fun kc => (kc.1, f kc.2)) } : State).sched = s.sched := by
  have hctx (n : Nat) : ((NMap.get {} (s.ctxs.map (fun kc => (kc.1, f kc.2))) n : Context).tokens,
      (NMap.get {} (s.ctxs.map (fun kc => (kc.1, f kc.2))) n : Context).wdlog) = ((s.context n).tokens, (s.context n).wdlog) := by
    rw [State.context, NMap.get_eq_find, NMap.get_eq_find, NMap.find_map_val]
    cases NMap.find s.ctxs n with
    | none => rfl
    | some c => simp [h c]
  exact congrArg (fun x => ({ s.sched with ctx := x } : SchedView)) (funext hctx)

/-! ### Queues and their messages (R165 to R177) -/

/-- A context whose saved queue with a certain partner is changed. -/
def Context.onSpliced (core q : Nat) (p : Nat × Nat) (f : Queue → Queue) (x : Context) : Context :=
  { x with savedCores := x.savedCores.map (fun (ks : Nat × CtxSt) =>
      if ks.1 = core then (ks.1, { ks.2 with q := ks.2.q.map (fun (kq : Nat × Queue) =>
        if kq.1 = q && kq.2.partner == some p then (kq.1, f kq.2) else kq) }) else ks) }

@[simp] theorem sched_onSpliced (core q : Nat) (p : Nat × Nat) (f : Queue → Queue) : (s.onSpliced core q p f).sched = s.sched := by
  unfold State.onSpliced
  split
  · simp
  · exact sched_mapContexts s (Context.onSpliced core q p f) fun _ => ⟨rfl, rfl⟩

@[simp] theorem sched_sendSplice (core q : Nat) (p : Nat × Nat) (t lines : Nat) (ordered : Bool) (i : Instr) :
    (s.sendSplice core q p t lines ordered i).sched = s.sched := by
  unfold State.sendSplice
  simp [apply_ite State.sched]

@[simp] theorem sched_sendTo (core q : Nat) (p : Nat × Nat) (i : Nat → Nat → Instr) : (s.sendTo core q p i).sched = s.sched := by
  simp [State.sendTo]

@[simp] theorem sched_sendCtl (core q : Nat) (i : Nat → Nat → Instr) : (s.sendCtl core q i).sched = s.sched := by
  unfold State.sendCtl
  split <;> simp

@[simp] theorem sched_setPresent (core q c cyc : Nat) : (s.setPresent core q c cyc).sched = s.sched := by
  unfold State.setPresent
  dsimp only
  split <;> simp

@[simp] theorem sched_sendBytes (core q : Nat) (p : Nat × Nat) (t c off : Nat) (bs : List Byte) (last poison : Bool) :
    (s.sendBytes core q p t c off bs last poison).sched = s.sched := by simp [State.sendBytes]

@[simp] theorem sched_pauseBehind (core q : Nat) : (s.pauseBehind core q).sched = s.sched := by
  unfold State.pauseBehind
  simp [apply_ite State.sched]

@[simp] theorem sched_fillSlot (core q slot t cyc off : Nat) (bs : List Byte) (last poison : Bool) :
    (s.fillSlot core q slot t cyc off bs last poison).sched = s.sched := by
  unfold State.fillSlot
  dsimp only
  split
  · rfl
  · split
    · simp [apply_ite State.sched]
    · rfl
    · rfl
    · simp [apply_ite State.sched]

@[simp] theorem sched_semSaved (ctx core i n : Nat) (src : SigSrc) : (s.semSaved ctx core i n src).sched = s.sched := by
  unfold State.semSaved
  split
  · rfl
  · simp [apply_ite State.sched]

@[simp] theorem sched_endSaved (ctx core : Nat) (c : Cmd) (code detail : Nat) : (s.endSaved ctx core c code detail).sched = s.sched := by
  unfold State.endSaved
  dsimp only
  split
  · simp [apply_ite State.sched]
  · simp

@[simp] theorem sched_tellLoss (core q : Nat) : (s.tellLoss core q).sched = s.sched := by
  unfold State.tellLoss
  split <;> simp

@[simp] theorem sched_resetQueue (core q : Nat) (free : Bool) : (s.resetQueue core q free).sched = s.sched := by
  unfold State.resetQueue
  dsimp only
  rw [sched_onQueue]
  split <;> simp

@[simp] theorem sched_addBusy (core q c : Nat) (n : Int) : (s.addBusy core q c n).sched = s.sched := by simp [State.addBusy]

@[simp] theorem sched_onBuffer (core k : Nat) (f : Buffer → Buffer) : (s.onBuffer core k f).sched = s.sched := sched_onCtxSt s core _

@[simp] theorem sched_freeBuffers (core : Nat) (ks : List Nat) : (s.freeBuffers core ks).sched = s.sched := by simp [State.freeBuffers]

/-! ### Waiters -/

@[simp] theorem sched_answerIn (key code ctx : Nat) : (s.answerIn key code ctx).sched = s.sched := by
  unfold State.answerIn
  refine sched_foldl s _ _ fun s kc => ?_
  dsimp only
  split
  · rfl
  · rw [sched_foldl _ _ _ fun _ _ => sched_endSaved _ _ _ _ _ _]
    exact sched_onContext s ctx _ fun _ => ⟨rfl, rfl⟩

@[simp] theorem sched_answerKey (key code : Nat) : (s.answerKey key code).sched = s.sched := by
  unfold State.answerKey
  simp only [sched_foldl _ _ _ fun _ _ => sched_answerIn _ _ _ _]
  refine sched_foldl s _ _ fun s kc => sched_foldl s _ _ fun s w => ?_
  split <;> simp

@[simp] theorem sched_closeSubs (core op : Nat) : (s.closeSubs core op).sched = s.sched := sched_onCtxSt s core _

/-! ### Engines, bank units and what an operation leaves behind (R164, R194, R200, R304) -/

@[simp] theorem sched_dropActs (k : Nat) : (s.dropActs k).sched = s.sched := (rfl)

@[simp] theorem sched_dropUnitWork (u : Nat) (p : BuWork → Bool) : (s.dropUnitWork u p).sched = s.sched := by simp [State.dropUnitWork]

@[simp] theorem sched_dropWork (k : Nat) : (s.dropWork k).sched = s.sched := by simp [State.dropWork]

@[simp] theorem sched_stopRuns (core gk i : Nat) : (s.stopRuns core gk i).sched = s.sched := by
  unfold State.stopRuns
  refine sched_foldl s _ _ fun s u => ?_
  dsimp only
  split <;> simp

@[simp] theorem sched_dropCmds (core gk i : Nat) : (s.dropCmds core gk i).sched = s.sched := by simp [State.dropCmds]

@[simp] theorem sched_engFree (core : Nat) (c : Cmd) : (s.engFree core c).sched = s.sched := by
  unfold State.engFree
  rw [sched_freeBuffers]
  refine sched_foldl s _ _ fun s qc => ?_
  split <;> simp

@[simp] theorem sched_engPoison (core : Nat) (c : Cmd) : (s.engPoison core c).sched = s.sched := by
  unfold State.engPoison
  split <;> simp

@[simp] theorem sched_dropSaved (core k : Nat) : (s.dropSaved core k).sched = s.sched := sched_onCtxSt s core _

@[simp] theorem sched_nextHead (core u : Nat) : (s.nextHead core u).sched = s.sched := by
  unfold State.nextHead
  dsimp only
  split
  · rfl
  · simp [apply_ite State.sched]

theorem TaskSt.ident_onEng (t : TaskSt) (e : Nat) (f : Engine → Engine) : (t.onEng e f).ident = t.ident := by
  unfold TaskSt.onEng TaskSt.setEng
  split <;> rfl

@[simp] theorem sched_onEng (core e : Nat) (f : Engine → Engine) : (s.onTask core (fun t => t.onEng e f)).sched = s.sched :=
  sched_onTask s core _ fun t => t.ident_onEng e f

/-! ### Completion (R187, R190 to R192, R202) -/

@[simp] theorem sched_applyAction (k : Nat) (o : Op) : (s.applyAction k o).sched = s.sched := by
  unfold State.applyAction
  dsimp only
  split
  · split <;> rfl
  · rfl
  · split
    · exact sched_foldl s _ _ fun _ _ => sched_fillSlot _ _ _ _ _ _ _ _ _ _
    · rfl
  · rfl

@[simp] theorem sched_endOpWait (core kind : Nat) (c : Cmd) (o : Op) (head : Bool) : (s.endOpWait core kind c o head).sched = s.sched := by
  unfold State.endOpWait
  dsimp only
  split
  · simp
  · rw [sched_signal]
    split <;> simp

@[simp] theorem sched_signalOp (k : Nat) (o : Op) (head : Bool) : (s.signalOp k o head).sched = s.sched := by
  unfold State.signalOp
  split
  · split
    · simp [apply_ite State.sched]
    · rfl
  · simp

/-- A fold that carries a count beside the state. -/
theorem sched_foldl_snd {α β : Type} (f : β × State → α → β × State) (l : List α) (h : ∀ a x, (f a x).2.sched = a.2.sched)
    (a : β × State) : (l.foldl f a).2.sched = a.2.sched := by
  induction l generalizing a with
  | nil => rfl
  | cons x l ih => rw [List.foldl_cons, ih, h]

@[simp] theorem sched_answerOp (k : Nat) (o : Op) (head : Bool) : (s.answerOp k o head).2.sched = s.sched := by
  unfold State.answerOp
  refine sched_foldl_snd _ _ (fun a kc => sched_foldl_snd _ _ (fun a w => ?_) a) (0, s)
  dsimp only
  split <;> simp

theorem TaskSt.ident_orFlags (t : TaskSt) (now : Nat) (f : BitVec 5) : (t.orFlags now f).ident = t.ident := by
  unfold TaskSt.orFlags TaskSt.settleFlags
  split
  · split <;> rfl
  · rfl

@[simp] theorem sched_orFlags (core gk i n : Nat) (f : BitVec 5) : (s.onOwner core gk i (fun t => t.orFlags n f)).sched = s.sched :=
  sched_onOwner s core gk i _ fun t => t.ident_orFlags n f

/-! ### Leases and saves (R177, R350) -/

@[simp] theorem sched_freeLeases (core gk i : Nat) : (s.freeLeases core gk i).sched = s.sched := by
  unfold State.freeLeases
  dsimp only
  rw [sched_onCtxSt]
  refine sched_foldl s _ _ fun s kl => ?_
  split <;> simp

@[simp] theorem sched_recallAll (core : Nat) (rcl : Bool) : (s.recallAll core rcl).sched = s.sched := by simp [State.recallAll]

@[simp] theorem sched_revokeAll (core : Nat) : (s.revokeAll core).sched = s.sched := by simp [State.revokeAll]

@[simp] theorem sched_quiesce (core : Nat) : (s.quiesce core).sched = s.sched := by
  unfold State.quiesce State.quiesceQueue
  refine sched_foldl s _ _ fun s q => ?_
  dsimp only
  split <;> simp

end Sys2Proof.Machine
end

section
/-!
PROOF. What a task's operations may change as they end or are cancelled (R187, R196, R200, R226): operations and the count of collectives,
but no task of any group, no TOKENS, and no core.
-/

namespace Sys2Proof.Machine

/-- What the end of operations leaves as it is: the cycle, the tasks of groups, TOKENS and WDLOG, and the tasks on cores. -/
structure CalmView where
  now : Nat
  tasks : Nat → Option (List Task)
  ctx : Nat → Nat × Nat
  ident : Nat → TaskMode × TaskMode × Nat × Nat

def SchedView.calm (v : SchedView) : CalmView :=
  { now := v.now, tasks := fun k => (NMap.find v.groups k).map Group.tasks, ctx := v.ctx, ident := v.ident }

variable (s : State)

@[simp] theorem calm_onOp (k : Nat) (f : Op → Op) : (s.onOp k f).sched.calm = s.sched.calm := by
  unfold State.onOp
  split <;> rfl

@[simp] theorem calm_freeOp (k : Nat) : (s.freeOp k).sched.calm = s.sched.calm := (rfl)

@[simp] theorem calm_setOps (os : NMap Op) : ({ s with ops := os } : State).sched.calm = s.sched.calm := (rfl)

@[simp] theorem calm_setColls (cs : List Coll) : ({ s with colls := cs } : State).sched.calm = s.sched.calm := (rfl)

/-- A change of a group that leaves its tasks. -/
theorem calm_onGroup (k : Nat) (f : Group → Group) (h : ∀ g, (f g).tasks = g.tasks) : (s.onGroup k f).sched.calm = s.sched.calm := by
  have htasks (j : Nat) : ((s.onGroup k f).group? j).map Group.tasks = (s.group? j).map Group.tasks := by
    by_cases hj : j = k
    · subst hj
      cases hg : s.group? j with
      | none => simp [State.onGroup, hg]
      | some g => simp [State.group_onGroup_self s j f g hg, h]
    · rw [State.group_onGroup_ne s k j f hj]
  have hrest : (s.onGroup k f).sched.calm = { s.sched.calm with tasks := fun j => ((s.onGroup k f).group? j).map Group.tasks } := by
    obtain ⟨gr, h⟩ := s.onGroup_shape k f
    rw [h]
    rfl
  rw [hrest]
  exact congrArg (fun x => ({ s.sched.calm with tasks := x } : CalmView)) (funext htasks)

/-- A fold whose steps leave what the end of operations leaves. -/
theorem calm_foldl {α : Type} (f : State → α → State) (l : List α) (h : ∀ s a, (f s a).sched.calm = s.sched.calm) :
    (l.foldl f s).sched.calm = s.sched.calm := by
  induction l generalizing s with
  | nil => rfl
  | cons a l ih => rw [List.foldl_cons, ih, h]

/-- A view of a choice between states. -/
theorem calm_ite {c : Prop} [Decidable c] (a b : State) : (if c then a else b).sched.calm = if c then a.sched.calm else b.sched.calm :=
  apply_ite (fun x : State => x.sched.calm) c a b

/-! ### The end of an operation (R187, R191, R193, R220) -/

@[simp] theorem calm_planChild (k : Nat) (p : Nat × Nat) (o : Op) : (s.planChild k p o).sched.calm = s.sched.calm := by
  simp [State.planChild]

/-- The steps of `State.completeOp`: the operation's work is over. -/
def State.opOver (s : State) (k : Nat) (o : Op) : State :=
  { (s.dropWork k).dropActs k with ops := NMap.set s.ops k o, ended := (s.now, k, o) :: s.ended.filter (fun e => e.1 == s.now) }

/-- Its flags, and the watchdog counter of its task. -/
def State.opFlags (s : State) (n : Nat) (o : Op) : State :=
  let s := if o.owner = 0 ∧ !o.det then s.onOwner o.ownCore o.grp o.idx (fun t => t.orFlags n o.flags) else s
  if o.owner = 0 then s.clearWatch o.ownCore o.grp o.idx else s

/-- Its token. -/
def State.opToken (s : State) (k : Nat) (o : Op) : State :=
  match o.cmd.tok with
  | some r => s.onOwner o.core o.cmd.grp o.cmd.idx (fun t => t.endToken r (.op k) (statusWord o.code o.unit o.detail) s.now)
  | none => s

/-- Whether the status went to a token that is still there. -/
def State.opTokHere (s : State) (k : Nat) (o : Op) : Bool :=
  match o.cmd.tok with
  | some r =>
    let c := s.core o.core
    if c.t.isTask o.cmd.grp o.cmd.idx then NMap.find c.t.tokOwner r == some (.op k)
    else c.c.susp.any (fun x => x.t.grp == o.cmd.grp && x.t.idx == o.cmd.idx && NMap.find x.t.tokOwner r == some (.op k))
  | none => false

/-- Its buffers, its action, its signal and those that wait for it. -/
def State.opActs (s : State) (k : Nat) (o : Op) (head : Bool) : Nat × State :=
  let s := ((s.freeBuffers o.core o.uses).closeSubs o.core k).applyAction k o
  let s := if o.code = 0 then s.signalOp k o head else s
  (s.answerKey (unsubsKey k)).answerOp k o head

/-- Its entry is freed or retained. -/
def State.opLeaves (s : State) (k : Nat) (o : Op) (told : Bool) : State :=
  match o.parent with
  | some p => (s.planChild k p o).freeOp k
  | none => if told || s.ownerOver o then s.freeOp k else s.onOp k (fun o => { o with retained := true })

/-- An operation as it completes. -/
def Op.over (o : Op) : Op := { o with st := .done, finished := false, park := none }

theorem State.completeOp_eq {k : Nat} {o : Op} (ho : s.op? k = some o) (head : Bool) :
    let v := (s.opOver k o.over).opFlags ((s.dropWork k).dropActs k).now o.over
    let w := (v.opToken k o.over).opActs k o.over head
    s.completeOp k head = (w.2.opLeaves k o.over (v.opTokHere k o.over || decide (0 < w.1))).postEv
      (w.2.opLeaves k o.over (v.opTokHere k o.over || decide (0 < w.1))).now (.evGroupEnd o.grp) := by
  intro v w
  simp only [State.completeOp, ho]
  rfl

@[simp] theorem calm_opOver (k : Nat) (o : Op) : (s.opOver k o).sched.calm = s.sched.calm := by
  refine (calm_setOps ((s.dropWork k).dropActs k) (NMap.set s.ops k o)).trans ?_
  simp

@[simp] theorem sched_opFlags (n : Nat) (o : Op) : (s.opFlags n o).sched = s.sched := by simp [State.opFlags, apply_ite State.sched]

@[simp] theorem sched_opToken (k : Nat) (o : Op) : (s.opToken k o).sched = s.sched := by
  unfold State.opToken
  split <;> simp

@[simp] theorem sched_opActs (k : Nat) (o : Op) (head : Bool) : (s.opActs k o head).2.sched = s.sched := by
  simp [State.opActs, apply_ite State.sched]

@[simp] theorem calm_opLeaves (k : Nat) (o : Op) (told : Bool) : (s.opLeaves k o told).sched.calm = s.sched.calm := by
  unfold State.opLeaves
  split
  · simp
  · simp [calm_ite]

@[simp] theorem calm_completeOp (k : Nat) (head : Bool) : (s.completeOp k head).sched.calm = s.sched.calm := by
  cases ho : s.op? k with
  | none => simp [State.completeOp, ho]
  | some o =>
    rw [State.completeOp_eq s ho]
    simp

@[simp] theorem calm_releaseOrd (head : Bool) (n : Nat) : (s.releaseOrd head n).sched.calm = s.sched.calm := by
  induction n generalizing s with
  | zero => rfl
  | succ n ih =>
    unfold State.releaseOrd
    split
    · rw [ih, calm_completeOp]
    · rfl

@[simp] theorem calm_endOp (k code detail : Nat) (flags : BitVec 5) (head : Bool) :
    (s.endOp k code detail flags head).sched.calm = s.sched.calm := by
  unfold State.endOp
  split
  · rfl
  · simp [calm_ite]

/-! ### Cancellation (R200, R226) -/

@[simp] theorem calm_cancelCopy (k code : Nat) (head : Bool) : (s.cancelCopy k code head).sched.calm = s.sched.calm := by
  unfold State.cancelCopy
  split
  · rfl
  · simp [calm_ite]

@[simp] theorem calm_takeNumber (o : Op) (team rank : Nat) : (s.takeNumber o team rank).2.sched.calm = s.sched.calm :=
  calm_onGroup s _ _ fun _ => rfl

@[simp] theorem calm_enterColl (k team : Nat) (t : Nat × List Nat) (rank : Nat) : (s.enterColl k team t rank).2.sched.calm = s.sched.calm := by
  unfold State.enterColl
  dsimp only
  split
  · rfl
  · simp [calm_ite]

@[simp] theorem calm_numberColls (core : Nat) (cs : List Cmd) : (s.numberColls core cs).sched.calm = s.sched.calm := by
  induction cs generalizing s with
  | nil => rfl
  | cons c cs ih =>
    unfold State.numberColls
    dsimp only
    rw [ih]
    split
    · split
      · rw [calm_enterColl]
      · rfl
    · rfl

@[simp] theorem calm_endColl (k code detail : Nat) (head : Bool) : (s.endColl k code detail head).sched.calm = s.sched.calm := by
  unfold State.endColl
  split
  · rfl
  · simp

@[simp] theorem calm_cancelColl (k code : Nat) (head : Bool) : (s.cancelColl k code head).sched.calm = s.sched.calm := by
  unfold State.cancelColl
  dsimp only
  split
  · rw [calm_foldl _ _ _ fun s j => by simp [calm_ite]]
    simp [calm_ite]
  · simp [calm_ite]

@[simp] theorem calm_cancelOp (k code : Nat) (head : Bool) : (s.cancelOp k code head).sched.calm = s.sched.calm := by
  unfold State.cancelOp
  split
  · rfl
  · dsimp only
    split
    · rfl
    · split
      · split
        · simp
        · split
          · simp
          · split
            · simp
            · rfl
      · split
        · simp
        · split
          · split
            · simp
            · simp
            · rw [calm_foldl _ _ _ fun s c => calm_cancelCopy _ _ _ _]
              simp
            · simp
          · simp

end Sys2Proof.Machine
end

section
/-!
PROOF. How a task leaves its core (R25, R26, R195, R196, R337): released, killed and listed again, or saved.
-/

namespace Sys2Proof.Machine

variable {s u : State} {core gk i : Nat}

/-! ### What a calm change leaves -/

theorem State.task?_of_calm (h : u.sched.calm = s.sched.calm) (gk i : Nat) : u.task? gk i = s.task? gk i := by
  have hview (v : State) : v.task? gk i = (v.sched.calm.tasks gk).bind (fun ts => ts[i]?) := by
    simp only [State.task?, SchedView.calm, State.sched, State.group?]
    cases NMap.find v.groups gk <;> rfl
  rw [hview, hview, h]

theorem State.now_of_calm (h : u.sched.calm = s.sched.calm) : u.now = s.now := congrArg CalmView.now h

theorem State.tokens_of_calm (h : u.sched.calm = s.sched.calm) (n : Nat) : (u.context n).tokens = (s.context n).tokens :=
  congrArg (fun v => (CalmView.ctx v n).1) h

theorem State.ident_of_calm (h : u.sched.calm = s.sched.calm) (n : Nat) : (u.core n).t.ident = (s.core n).t.ident :=
  congrArg (fun v => CalmView.ident v n) h

theorem TaskSt.isTask_of_ident {t v : TaskSt} (h : v.ident = t.ident) (gk i : Nat) : v.isTask gk i = t.isTask gk i := by
  simp only [TaskSt.ident, Prod.mk.injEq] at h
  obtain ⟨hm, -, hg, hi⟩ := h
  simp only [TaskSt.isTask, hm, hg, hi]

theorem TaskSt.mode_of_ident {t v : TaskSt} (h : v.ident = t.ident) : v.mode = t.mode := congrArg Prod.fst h

/-! ### The titles of operations: whose they are, and how far they have come -/

/-- Whose an operation is, whether it is detached, its state and its command. -/
def Op.title (o : Op) : Nat × Nat × Nat × Bool × OpState × Cmd := (o.owner, o.grp, o.idx, o.det, o.st, o.cmd)

/-- The titles of the operations of a state. -/
def State.titles (s : State) (k : Nat) : Option (Nat × Nat × Nat × Bool × OpState × Cmd) := (s.op? k).map Op.title

theorem titles_of_sched (h : u.sched = s.sched) : u.titles = s.titles := by
  have hops : u.ops = s.ops := congrArg SchedView.ops h
  funext k
  simp only [State.titles, State.op?, hops]

theorem titles_onOp (s : State) (k : Nat) (f : Op → Op) (h : ∀ o, (f o).title = o.title) : (s.onOp k f).titles = s.titles := by
  funext j
  unfold State.titles
  by_cases hj : j = k
  · subst hj
    cases ho : s.op? j with
    | none => simp [State.onOp, ho]
    | some o => simp [State.op_onOp_self s j f o ho, h]
  · rw [State.op_onOp_ne s k j f hj]

/-! ### A core is released (R171, R350) -/

/-- The subscription of a queue that is freed stops. -/
def State.stopSub (s : State) (core q : Nat) : State :=
  match (s.queue core q).sub with
  | some k => (s.onOp k (fun o => { o with stop := some 0 })).postFree 64 (.evGroomTileFill k)
  | none => s

theorem State.freeQueue_eq (s : State) (core q : Nat) : s.freeQueue core q = (s.stopSub core q).resetQueue core q true := rfl

theorem freeQueue_keeps (s : State) (core q : Nat) :
    (s.freeQueue core q).sched.calm = s.sched.calm ∧ (s.freeQueue core q).titles = s.titles := by
  rw [State.freeQueue_eq, sched_resetQueue, titles_of_sched (sched_resetQueue (s.stopSub core q) core q true)]
  unfold State.stopSub
  split
  · rename_i k hk
    refine ⟨by simp, (titles_of_sched (sched_postFree _ 64 _)).trans (titles_onOp s k _ fun _ => rfl)⟩
  · exact ⟨rfl, rfl⟩

theorem freeTaskQueues_keeps (s : State) (core gk i : Nat) :
    (s.freeTaskQueues core gk i).sched.calm = s.sched.calm ∧ (s.freeTaskQueues core gk i).titles = s.titles := by
  unfold State.freeTaskQueues
  generalize (s.core core).c.q = l
  induction l generalizing s with
  | nil => exact ⟨rfl, rfl⟩
  | cons kq l ih =>
    rw [List.foldl_cons]
    obtain ⟨hc, ht⟩ := ih (if kq.2.scope = 0 ∧ kq.2.st ≠ .free ∧ kq.2.owner = (gk, i) then s.freeQueue core kq.1 else s)
    rw [hc, ht]
    split
    · exact freeQueue_keeps s core kq.1
    · exact ⟨rfl, rfl⟩

/-- What the task of a core held there is given back. -/
def State.giveBack (s : State) (core : Nat) : State :=
  (s.freeTaskQueues core (s.core core).t.grp (s.core core).t.idx).freeLeases core (s.core core).t.grp (s.core core).t.idx

theorem giveBack_keeps (s : State) (core : Nat) : (s.giveBack core).sched.calm = s.sched.calm ∧ (s.giveBack core).titles = s.titles := by
  obtain ⟨hc, ht⟩ := freeTaskQueues_keeps s core (s.core core).t.grp (s.core core).t.idx
  unfold State.giveBack
  exact ⟨by rw [sched_freeLeases, hc], by rw [titles_of_sched (sched_freeLeases _ _ _ _), ht]⟩

/-- The task of a core is off it. -/
def Core.vacate (c : Core) (now grp idx : Nat) : Core :=
  { c with t := c.t.leave now, gen := c.gen + 1,
           c := { c.c with waiters := c.c.waiters.filter (fun w => !(w.cmd.grp == grp && w.cmd.idx == idx)) } }

/-- A core changes and two events are posted. -/
def State.coreThen (s : State) (core n : Nat) (f : Core → Core) (i j : Instr) : State := ((s.onCore core f).postEv n i).postEv (n + 1) j

theorem State.coreThen_core (s : State) (core n : Nat) (f : Core → Core) (i j : Instr) : (s.coreThen core n f i j).core core = f (s.core core) :=
  State.core_onCore_self s core f

theorem State.coreThen_task? (s : State) (core n : Nat) (f : Core → Core) (i j : Instr) (gk x : Nat) :
    (s.coreThen core n f i j).task? gk x = s.task? gk x := rfl

theorem State.coreThen_context (s : State) (core n : Nat) (f : Core → Core) (i j : Instr) (x : Nat) :
    (s.coreThen core n f i j).context x = s.context x := rfl

theorem State.coreThen_now (s : State) (core n : Nat) (f : Core → Core) (i j : Instr) : (s.coreThen core n f i j).now = s.now := rfl

theorem State.coreThen_titles (s : State) (core n : Nat) (f : Core → Core) (i j : Instr) : (s.coreThen core n f i j).titles = s.titles := rfl

theorem State.releaseCore_eq (s : State) (core : Nat) : s.releaseCore core = (s.giveBack core).coreThen core (s.giveBack core).now
    (fun c => c.vacate (s.giveBack core).now (s.core core).t.grp (s.core core).t.idx) (.evTaskGrant core)
    (.evYardGate (dieOf core) (yardOf core)) := rfl

/-- A core that is released holds no task. -/
theorem State.releaseCore_mode (s : State) (core : Nat) : ((s.releaseCore core).core core).t.mode = .none := by
  rw [State.releaseCore_eq, State.coreThen_core]
  rfl

theorem State.releaseCore_task? (s : State) (core gk i : Nat) : (s.releaseCore core).task? gk i = s.task? gk i := by
  rw [State.releaseCore_eq, State.coreThen_task?, State.task?_of_calm (giveBack_keeps s core).1]

theorem State.releaseCore_tokens (s : State) (core n : Nat) : ((s.releaseCore core).context n).tokens = (s.context n).tokens := by
  rw [State.releaseCore_eq, State.coreThen_context, State.tokens_of_calm (giveBack_keeps s core).1]

theorem State.releaseCore_now (s : State) (core : Nat) : (s.releaseCore core).now = s.now := by
  rw [State.releaseCore_eq, State.coreThen_now, State.now_of_calm (giveBack_keeps s core).1]

theorem State.releaseCore_titles (s : State) (core : Nat) : (s.releaseCore core).titles = s.titles := by
  rw [State.releaseCore_eq, State.coreThen_titles, (giveBack_keeps s core).2]

/-! ### A task is killed (R26, R195, R196) -/

/-- The record of a task that is killed, and its group's first. -/
def State.markKilled (s : State) (gk i cause : Nat) : State :=
  (s.onTaskRec gk i (fun t => { t with st := .killed, cause := if t.cause = 0 then cause else t.cause })).onGroup gk (fun g =>
    { g with firstKilled := g.firstKilled.orElse (fun _ => some (i, cause)) })

/-- The operations of a killed task are cancelled or pass upward, and its commands are dropped. -/
def State.cancelTask (s : State) (core gk i opCode : Nat) : State :=
  let s := (s.ownedOps gk i).foldl (fun s k => s.cancelOp k opCode false) s
  ({ s with ops := (s.ops.filter (fun (kv : Nat × Op) =>
      !(kv.2.owner == 0 && kv.2.grp == gk && kv.2.idx == i && !kv.2.det && kv.2.st == OpState.done && kv.2.retained))).map (fun (kv : Nat × Op) =>
    if kv.2.owner == 0 && kv.2.grp == gk && kv.2.idx == i && kv.2.det then (kv.1, { kv.2 with owner := 1 }) else kv) } : State).dropCmds core gk i

theorem calm_cancelTask (s : State) (core gk i opCode : Nat) : (s.cancelTask core gk i opCode).sched.calm = s.sched.calm := by
  unfold State.cancelTask
  dsimp only
  rw [sched_dropCmds, calm_setOps]
  exact calm_foldl s _ _ fun s k => calm_cancelOp s k opCode false

theorem State.markKilled_shape (s : State) (gk i cause : Nat) : ∃ gr, s.markKilled gk i cause = { s with groups := gr } := by
  unfold State.markKilled
  obtain ⟨gr, h⟩ := s.onTaskRec_shape gk i (fun t => { t with st := .killed, cause := if t.cause = 0 then cause else t.cause })
  rw [h]
  exact State.onGroup_shape _ gk _

theorem State.markKilled_task? {t : Task} (ht : s.task? gk i = some t) (cause : Nat) :
    (s.markKilled gk i cause).task? gk i = some { t with st := .killed, cause := if t.cause = 0 then cause else t.cause } := by
  unfold State.markKilled
  rw [State.task?_onGroup_keep]
  · exact State.task?_onTaskRec_self ht _
  · exact fun _ => rfl

/-- The task on a core is killed there: its core is released. -/
theorem State.killTask_eq {g : Group} {t : Task} {cause opCode : Nat} (hg : s.group? gk = some g) (ht : g.tasks[i]? = some t)
    (hd : t.st ≠ .done) (hk : t.st ≠ .killed) (hc : recCore (g.ctx / 64) t.recd = core) (hon : (s.core core).t.isTask gk i = true)
    (hs : (s.core core).t.mode ≠ .saving) :
    s.killTask gk i cause opCode = (((s.markKilled gk i cause).cancelTask core gk i opCode).releaseCore core).postEv
      (((s.markKilled gk i cause).cancelTask core gk i opCode).releaseCore core).now (.evGroupEnd gk) := by
  have ht' : s.task? gk i = some t := by rw [State.task?_of hg, ht]
  have hid : (((s.markKilled gk i cause).cancelTask core gk i opCode).core core).t.ident = (s.core core).t.ident := by
    rw [State.ident_of_calm (calm_cancelTask (s.markKilled gk i cause) core gk i opCode) core]
    obtain ⟨gr, h⟩ := s.markKilled_shape gk i cause
    rw [h]
    rfl
  have hon' := (TaskSt.isTask_of_ident hid gk i).trans hon
  have hs' : (((s.markKilled gk i cause).cancelTask core gk i opCode).core core).t.mode ≠ .saving := by
    rw [TaskSt.mode_of_ident hid]
    exact hs
  have hst : ¬ ((t.st == .done || t.st == .killed) = true) := by simp [hd, hk]
  unfold State.killTask
  simp only [hg, ht', hc]
  refine (if_neg hst).trans ?_
  refine congrArg (fun v : State => v.postEv v.now (.evGroupEnd gk)) ?_
  exact (if_pos hon').trans (if_neg fun h => hs' (beq_iff_eq.mp (Bool.and_eq_true_iff.mp h).1))

/-- A killed task is listed again (R331, R337). -/
theorem State.relist_task? {t : Task} (ht : s.task? gk i = some t) :
    (s.relist gk i).task? gk i = some { t with st := .listed, cnt := 0 } := by
  have h : (s.relist gk i).task? gk i = ((s.onTaskRec gk i (fun t => { t with st := .listed, cnt := 0 })).onGroup gk (fun g =>
      { g with firstKilled := g.firstKilled.filter (fun e => e.1 != i) })).task? gk i := rfl
  rw [h, State.task?_onGroup_keep]
  · exact State.task?_onTaskRec_self ht _
  · exact fun _ => rfl

theorem State.relist_shape (s : State) (gk i : Nat) :
    ∃ gr, s.relist gk i = ({ s with groups := gr } : State).postEv s.now (.evTaskReady gk i) := by
  unfold State.relist
  obtain ⟨gr, h⟩ := s.onTaskRec_shape gk i (fun t => { t with st := .listed, cnt := 0 })
  rw [h]
  obtain ⟨gr', h'⟩ := ({ s with groups := gr } : State).onGroup_shape gk
    (fun g => { g with firstKilled := g.firstKilled.filter (fun e => e.1 != i) })
  exact ⟨gr', congrArg (fun v : State => v.postEv s.now (.evTaskReady gk i)) h'⟩

/-- A task on a core is killed and listed again: the core is free, TOKENS are as before, and the task is LISTED with a counter of 0. -/
theorem State.kill_relist {g : Group} {t : Task} {cause opCode : Nat} (hg : s.group? gk = some g) (ht : g.tasks[i]? = some t)
    (hd : t.st ≠ .done) (hk : t.st ≠ .killed) (hc : recCore (g.ctx / 64) t.recd = core) (hon : (s.core core).t.isTask gk i = true)
    (hs : (s.core core).t.mode ≠ .saving) :
    let u := (s.killTask gk i cause opCode).relist gk i
    (u.core core).t.mode = .none ∧ (∀ n, (u.context n).tokens = (s.context n).tokens)
      ∧ (∃ z, u.task? gk i = some z ∧ z.st = .listed ∧ z.cnt = 0 ∧ z.recd = t.recd) ∧ u.hasPosted s.now (.ev (.evTaskReady gk i)) := by
  have hcalm := calm_cancelTask (s.markKilled gk i cause) core gk i opCode
  obtain ⟨gr, hm⟩ := s.markKilled_shape gk i cause
  have hnow : (((s.markKilled gk i cause).cancelTask core gk i opCode).releaseCore core).now = s.now := by
    rw [State.releaseCore_now, State.now_of_calm hcalm, hm]
  rw [State.killTask_eq hg ht hd hk hc hon hs]
  generalize hv : ((s.markKilled gk i cause).cancelTask core gk i opCode).releaseCore core = v at hnow ⊢
  have hmode : (v.core core).t.mode = .none := by
    rw [← hv]
    exact State.releaseCore_mode _ core
  have htok (n : Nat) : (v.context n).tokens = (s.context n).tokens := by
    rw [← hv, State.releaseCore_tokens, State.tokens_of_calm hcalm, hm]
    rfl
  have htask : v.task? gk i = some { t with st := .killed, cause := if t.cause = 0 then cause else t.cause } := by
    rw [← hv, State.releaseCore_task?, State.task?_of_calm hcalm]
    exact State.markKilled_task? (by rw [State.task?_of hg, ht]) cause
  obtain ⟨gr', hr⟩ := (v.postEv v.now (.evGroupEnd gk)).relist_shape gk i
  refine ⟨?_, ?_, ⟨_, State.relist_task? (s := v.postEv v.now (.evGroupEnd gk)) htask, rfl, rfl, rfl⟩, ?_⟩
  · rw [hr]
    exact hmode
  · intro n
    rw [hr]
    exact htok n
  · rw [hr, ← hnow]
    exact State.hasPosted_post (s := { v.postEv v.now (.evGroupEnd gk) with groups := gr' }) (Nat.le_refl _) _

/-! ### A save begins (R177, R200, R350) -/

/-- A core whose task is to be saved. -/
def Core.startSave (c : Core) (now : Nat) (m : TaskMode) : Core :=
  { c with gen := c.gen + 1, t := { c.t.setMode now .saving with saveFrom := m, walk := none } }

theorem State.beginSave_task (s : State) (core : Nat) (hn : (s.core core).t.mode ≠ .none) (hs : (s.core core).t.mode ≠ .saving) :
    ((s.beginSave core).core core).t.mode = .saving ∧ ((s.beginSave core).core core).t.saveFrom = (s.core core).t.mode
      ∧ (s.beginSave core).now = s.now := by
  have hset : s.beginSave core
      = ((s.onCore core (fun c => c.startSave s.now (s.core core).t.mode)).revokeAll core).quiesce core := by
    unfold State.beginSave
    exact congrArg (fun v : State => (v.revokeAll core).quiesce core) (if_neg (not_or.mpr ⟨hn, hs⟩))
  have hcalm : (s.beginSave core).sched.calm = (s.onCore core (fun c => c.startSave s.now (s.core core).t.mode)).sched.calm := by
    rw [hset, sched_quiesce, sched_revokeAll]
  have hid := State.ident_of_calm hcalm core
  rw [State.core_onCore_self] at hid
  exact ⟨congrArg Prod.fst hid, congrArg (fun x => x.2.1) hid, (State.now_of_calm hcalm).trans rfl⟩

end Sys2Proof.Machine
end

section
/-!
PROOF. The end of a task (R26, R195) and pre-emption (R337).
-/

namespace Sys2Proof.Machine

/-! ### Maps whose entries are dropped and changed -/

theorem NMap.mem_of_find {α : Type} {m : NMap α} {k : Nat} {v : α} (h : NMap.find m k = some v) : (k, v) ∈ m := by
  induction m with
  | nil => simp [NMap.find] at h
  | cons e m ih =>
    obtain ⟨j, w⟩ := e
    by_cases hj : j = k
    · simp [NMap.find, hj] at h
      simp [hj, h]
    · simp [NMap.find, hj] at h
      simp [ih h]

theorem NMap.find_filter {α : Type} {m : NMap α} {k : Nat} {v : α} (p : Nat × α → Bool) (h : NMap.find m k = some v) (hp : p (k, v) = true) :
    NMap.find (m.filter p) k = some v := by
  induction m with
  | nil => simp [NMap.find] at h
  | cons e m ih =>
    obtain ⟨j, w⟩ := e
    by_cases hj : j = k
    · simp [NMap.find, hj] at h
      subst hj h
      simp [hp, NMap.find]
    · simp [NMap.find, hj] at h
      by_cases hw : p (j, w) = true
      · simp [hw, NMap.find, hj, ih h]
      · simp [hw, ih h]

/-- The entries of a map are changed, their keys kept. -/
theorem NMap.find_map_key {α : Type} (f : Nat × α → Nat × α) (hf : ∀ e, (f e).1 = e.1) (m : NMap α) (k : Nat) :
    NMap.find (m.map f) k = (NMap.find m k).map (fun v => (f (k, v)).2) := by
  induction m with
  | nil => rfl
  | cons e m ih =>
    obtain ⟨j, v⟩ := e
    have hj := hf (j, v)
    rw [List.map_cons, ← Prod.eta (f (j, v)), hj]
    by_cases h : j = k
    · subst h
      simp [NMap.find]
    · simp [NMap.find, h, ih]

variable {s : State} {core gk i : Nat} {g : Group}

/-! ### The end of a task (R26, R195) -/

/-- Whether a task owns an operation, itself and not its group. -/
def Op.ownedBy (o : Op) (gk i : Nat) : Bool := o.owner == 0 && o.grp == gk && o.idx == i

theorem Op.ownedBy_iff (o : Op) (gk i : Nat) : o.ownedBy gk i = true ↔ o.owner = 0 ∧ o.grp = gk ∧ o.idx = i := by
  simp [Op.ownedBy, and_assoc]

/-- What is left of the operations when a task ends: what it retained is freed, what it detached is its group's. -/
def State.passOps (s : State) (gk i : Nat) : NMap Op :=
  (s.ops.filter (fun kv => !(kv.2.ownedBy gk i && !kv.2.det && kv.2.st == .done))).map
    (fun kv => if kv.2.ownedBy gk i && kv.2.det then (kv.1, { kv.2 with owner := 1 }) else kv)

theorem State.endTask_eq (s : State) (core : Nat) : s.endTask core =
    (((({ s with ops := s.passOps (s.core core).t.grp (s.core core).t.idx } : State).onTaskRec (s.core core).t.grp (s.core core).t.idx
      (fun t => { t with st := .done })).releaseCore core).postEv s.now (.evGroupEnd (s.core core).t.grp)) := rfl

theorem State.retired_owned (h : s.retired core = true) {k : Nat} {o : Op} (ho : (k, o) ∈ s.ops)
    (hm : o.ownedBy (s.core core).t.grp (s.core core).t.idx = true) : o.det = true ∨ o.st = .done := by
  have hnone : s.ownedOps (s.core core).t.grp (s.core core).t.idx = [] := by
    simp only [State.retired, Bool.and_eq_true, and_assoc] at h
    exact List.isEmpty_iff.mp h.1
  simp only [State.ownedOps, List.map_eq_nil_iff, List.filter_eq_nil_iff] at hnone
  have := hnone (k, o) ho
  obtain ⟨h0, hg, hi⟩ := (Op.ownedBy_iff o _ _).mp hm
  cases hd : o.det <;> simp_all

/-- The task owns none of the operations that are left. -/
theorem State.passOps_none (hr : s.retired core = true) {k : Nat} {o : Op}
    (ho : NMap.find (s.passOps (s.core core).t.grp (s.core core).t.idx) k = some o) :
    o.ownedBy (s.core core).t.grp (s.core core).t.idx = false := by
  obtain ⟨e, he, hf⟩ := List.mem_map.mp (NMap.mem_of_find ho)
  obtain ⟨hin, hkeep⟩ := List.mem_filter.mp he
  by_contra hm
  rw [Bool.not_eq_false] at hm
  split at hf
  · -- what was detached is its group's
    rw [← (Prod.mk.inj hf).2] at hm
    simp [Op.ownedBy] at hm
  · rename_i hno
    subst hf
    rcases State.retired_owned hr hin hm with hd | hd <;> simp_all

/-- What the task detached is its group's. -/
theorem State.passOps_detached {k : Nat} {o : Op} (ho : s.op? k = some o) (hm : o.ownedBy gk i = true) (hd : o.det = true) :
    NMap.find (s.passOps gk i) k = some { o with owner := 1 } := by
  unfold State.passOps
  rw [NMap.find_map_key, NMap.find_filter _ ho (by simp [hd])]
  · simp [hm, hd]
  · intro e
    split <;> rfl

/-- A task that is RETIRED ends: its core is free, it is DONE, it owns no operation, and its group owns what it detached. -/
theorem State.endTask_ends {y : Task} (hr : s.retired core = true) (hg : (s.core core).t.grp = gk) (hi : (s.core core).t.idx = i)
    (hy : s.task? gk i = some y) :
    let u := s.endTask core
    (u.core core).t.mode = .none ∧ u.task? gk i = some { y with st := .done } ∧ u.hasPosted s.now (.ev (.evGroupEnd gk))
      ∧ (∀ k o, u.op? k = some o → o.ownedBy gk i = false)
      ∧ ∀ k o, s.op? k = some o → o.ownedBy gk i = true → o.det = true →
        ∃ z, u.op? k = some z ∧ z.owner = 1 ∧ z.det = true ∧ z.st = o.st ∧ z.cmd = o.cmd := by
  subst hg hi
  rw [State.endTask_eq]
  obtain ⟨gr, hrec⟩ := ({ s with ops := s.passOps (s.core core).t.grp (s.core core).t.idx } : State).onTaskRec_shape (s.core core).t.grp
    (s.core core).t.idx (fun t => { t with st := .done })
  have htask := State.task?_onTaskRec_self (s := { s with ops := s.passOps (s.core core).t.grp (s.core core).t.idx }) hy
    (fun t => { t with st := .done })
  generalize hv : ({ s with ops := s.passOps (s.core core).t.grp (s.core core).t.idx } : State).onTaskRec (s.core core).t.grp
    (s.core core).t.idx (fun t => { t with st := .done }) = v at hrec htask
  have hop (k : Nat) : v.op? k = NMap.find (s.passOps (s.core core).t.grp (s.core core).t.idx) k := by rw [hrec]; rfl
  have htitle (k : Nat) := congrFun (State.releaseCore_titles v core) k
  have hnow : (v.releaseCore core).now = s.now := by rw [State.releaseCore_now, hrec]
  have hmode := State.releaseCore_mode v core
  have hrel := State.releaseCore_task? v core (s.core core).t.grp (s.core core).t.idx
  generalize v.releaseCore core = w at htitle hnow hmode hrel
  refine ⟨hmode, hrel.trans htask, ?_, fun k o ho => ?_, fun k o ho hm hd => ?_⟩
  · exact State.hasPosted_post (s := w) (Nat.le_of_eq hnow) _
  · have ho' : w.titles k = some o.title := by rw [State.titles, (show w.op? k = some o from ho)]; rfl
    rw [htitle, State.titles, hop] at ho'
    obtain ⟨z, hz, hzo⟩ := Option.map_eq_some_iff.mp ho'
    have hnot := State.passOps_none hr hz
    simp only [Op.title, Prod.mk.injEq] at hzo
    simp only [Op.ownedBy, hzo] at hnot
    exact hnot
  · have ho' := htitle k
    rw [State.titles, State.titles, hop, State.passOps_detached ho hm hd] at ho'
    obtain ⟨z, hz, hzo⟩ := Option.map_eq_some_iff.mp ho'
    simp only [Op.title, Prod.mk.injEq] at hzo
    obtain ⟨h1, -, -, h4, h5, h6⟩ := hzo
    exact ⟨z, hz, h1, h4.trans hd, h5, h6⟩

/-- A retiring task without a late fault is looked at. -/
theorem State.taskDone_eq (hm : (s.core core).t.mode = .retiring) (hl : ∀ e ∈ (s.core core).t.late, s.now < e.1) :
    s.taskDone core = if s.retired core then s.endTask core else s.postEv (s.now + 1) (.evTaskDone core) := by
  have hnone : (s.core core).t.late.find? (fun e => decide (e.1 ≤ s.now)) = none := by
    rw [List.find?_eq_none]
    intro e he
    have := hl e he
    simp [this]
  unfold State.taskDone
  simp only [hm, hnone, ne_eq, not_true, if_false]

/-- A task that is RETIRED has no late fault. -/
theorem State.retired_late (h : s.retired core = true) : (s.core core).t.late = [] := by
  simp only [State.retired, Bool.and_eq_true, List.isEmpty_iff, and_assoc] at h
  obtain ⟨-, -, -, -, hlate, -⟩ := h
  exact hlate

/-! ### Pre-emption (R337) -/

theorem TaskMode.preemptible_iff (m : TaskMode) : m.preemptible = true ↔ m = .running ∨ m = .held ∨ m = .brk ∨ m = .parked := by
  cases m <;> simp [TaskMode.preemptible]

/-- What a pre-emption may be decided on: a task of an ACTIVE context that is not draining, on a die that is not throttled, and a
newcomer. -/
structure State.Preempts (s : State) (core : Nat) (w : Waiting) : Prop where
  active : (s.context (s.ctxOf core)).st = .active
  mode : (s.core core).t.mode.preemptible = true
  cool : (s.die (dieOf core)).throttled = false
  undrained : (s.core core).t.drainAt ≤ s.now
  newcomer : s.newcomer core = some w

variable {w : Waiting}

theorem State.Preempts.not_saving (h : s.Preempts core w) : (s.core core).t.mode ≠ .saving := fun hm => by
  have := h.mode
  rw [hm] at this
  exact absurd this (by decide)

theorem State.Preempts.not_none (h : s.Preempts core w) : (s.core core).t.mode ≠ .none := fun hm => by
  have := h.mode
  rw [hm] at this
  exact absurd this (by decide)

/-- A core whose decision is remembered. -/
def State.decideOn (s : State) (core : Nat) (w : Waiting) : State := s.onCore core (fun c => { c with decided := s.decidedOn core w })

theorem State.preemptDecide_eq (h : s.Preempts core w) : s.preemptDecide core
    = if (s.core core).decided = s.decidedOn core w then s.postEv (s.now + 1) (.evPreemptionDecision core)
      else (s.decideOn core w).preempt core w (s.drained core w) := by
  have hwait : (!(s.core core).t.mode.preemptible || decide (s.now < (s.core core).t.drainAt) || (s.die (dieOf core)).throttled) = false := by
    have := h.undrained
    simp [h.mode, h.cool, this]
  unfold State.preemptDecide
  simp only [h.active, bne_self_eq_false, if_false, beq_false_of_ne h.not_saving, hwait, h.newcomer, beq_iff_eq, Bool.false_eq_true]
  rfl

/-- Nothing is decided where there is nothing to decide on. -/
theorem State.preemptDecide_idle (h : (s.context (s.ctxOf core)).st ≠ .active ∨ ((s.core core).t.mode ≠ .saving
    ∧ (¬ ((s.core core).t.mode.preemptible = true ∧ (s.die (dieOf core)).throttled = false) ∨ s.now < (s.core core).t.drainAt
      ∨ s.newcomer core = none))) : s.preemptDecide core = s := by
  unfold State.preemptDecide
  dsimp only
  split
  · rfl
  · rename_i ha
    obtain ⟨hs, h⟩ := h.resolve_left (by simpa using ha)
    rw [beq_false_of_ne hs, if_neg Bool.false_ne_true]
    split
    · rfl
    · rename_i hc
      simp only [Bool.or_eq_true, Bool.not_eq_true', decide_eq_true_eq, not_or, Bool.not_eq_false, Bool.not_eq_true] at hc
      obtain ⟨⟨hp, hd⟩, ht⟩ := hc
      have hn : s.newcomer core = none := by
        rcases h with h | h | h
        · exact absurd ⟨hp, ht⟩ h
        · exact absurd h hd
        · exact h
      rw [hn]

/-- A save that another decision began goes on until it may end. -/
theorem State.preemptDecide_saves (ha : (s.context (s.ctxOf core)).st = .active) (hm : (s.core core).t.mode = .saving)
    (hr : s.saveReady core = false) : s.preemptDecide core = s.postEv (s.now + 1) (.evPreemptionDecision core) := by
  unfold State.preemptDecide
  simp only [ha, bne_self_eq_false, if_false, hm, BEq.rfl, if_true, hr, Bool.false_eq_true]

/-! ### The rows of R337 -/

/-- The first row: the task is left to end. -/
def State.short (s : State) (core : Nat) (skip : Bool) : Prop :=
  skip = false ∧ (s.core core).t.estAt s.now ≤ (s.context (s.ctxOf core)).drain

/-- The second: a checkpoint. -/
def State.slotFree (s : State) (core : Nat) : Prop :=
  (s.context (s.ctxOf core)).nockpt = false ∧ (s.core core).c.susp.length < 8

/-- The third: the task is killed and restarted. -/
def State.mayKill (s : State) (core : Nat) : Prop :=
  (s.context (s.ctxOf core)).restart = true ∧ 2 ≤ (s.context (s.ctxOf core)).tokens

theorem State.preempt_rows (s : State) (core : Nat) (w : Waiting) (skip : Bool) :
    (s.short core skip → s.preempt core w skip = (s.onCore core (fun c => { c with
        resv := some (w.gk, w.idx), t := { c.t with drainAt := s.now + (s.context (s.ctxOf core)).drain } })).postEv
          (s.now + (s.context (s.ctxOf core)).drain) (.evDrainLimit core))
      ∧ (¬ s.short core skip → s.slotFree core → s.preempt core w skip = (s.beginSave core).postEv (s.now + 1) (.evPreemptionDecision core))
      ∧ (¬ s.short core skip → ¬ s.slotFree core → s.mayKill core → s.preempt core w skip
          = ((s.onContext (s.ctxOf core) (fun c => { c with tokens := c.tokens - 2 })).killTask (s.core core).t.grp (s.core core).t.idx
              Code.preemptKill Code.opCancelled).relist (s.core core).t.grp (s.core core).t.idx)
      ∧ (¬ s.short core skip → ¬ s.slotFree core → ¬ s.mayKill core →
          s.preempt core w skip = s.postEv (s.now + 1) (.evPreemptionDecision core)) := by
  have hshort : s.short core skip ↔ (!skip && decide ((s.core core).t.estAt s.now ≤ (s.context (s.ctxOf core)).drain)) = true := by
    simp [State.short]
  have hslot : s.slotFree core ↔ (!(s.context (s.ctxOf core)).nockpt && decide ((s.core core).c.susp.length < taskSlots)) = true := by
    simp only [State.slotFree, Bool.and_eq_true, Bool.not_eq_true', decide_eq_true_eq]
    rfl
  have hkill : s.mayKill core ↔ ((s.context (s.ctxOf core)).restart && decide (2 ≤ (s.context (s.ctxOf core)).tokens)) = true := by
    simp [State.mayKill]
  rw [hshort, hslot, hkill]
  unfold State.preempt
  exact ⟨fun h1 => if_pos h1, fun h1 h2 => (if_neg h1).trans (if_pos h2), fun h1 h2 h3 => (if_neg h1).trans ((if_neg h2).trans (if_pos h3)),
    fun h1 h2 h3 => (if_neg h1).trans ((if_neg h2).trans (if_neg h3))⟩

theorem State.decideOn_core (s : State) (core : Nat) (w : Waiting) :
    (s.decideOn core w).core core = { s.core core with decided := s.decidedOn core w } := State.core_onCore_self s core _

theorem State.decideOn_ctxOf (s : State) (core : Nat) (w : Waiting) : (s.decideOn core w).ctxOf core = s.ctxOf core := by
  rw [State.ctxOf, State.decideOn_core]
  rfl

theorem State.decideOn_context (s : State) (core : Nat) (w : Waiting) (n : Nat) : (s.decideOn core w).context n = s.context n := rfl

theorem State.decideOn_now (s : State) (core : Nat) (w : Waiting) : (s.decideOn core w).now = s.now := rfl

theorem State.decideOn_short (s : State) (core : Nat) (w : Waiting) (skip : Bool) : (s.decideOn core w).short core skip ↔ s.short core skip := by
  simp only [State.short, State.decideOn_core, State.decideOn_ctxOf, State.decideOn_context, State.decideOn_now]

theorem State.decideOn_slotFree (s : State) (core : Nat) (w : Waiting) : (s.decideOn core w).slotFree core ↔ s.slotFree core := by
  simp only [State.slotFree, State.decideOn_core, State.decideOn_ctxOf, State.decideOn_context]

theorem State.decideOn_mayKill (s : State) (core : Nat) (w : Waiting) : (s.decideOn core w).mayKill core ↔ s.mayKill core := by
  simp only [State.mayKill, State.decideOn_ctxOf, State.decideOn_context]

/-- When the first row is left out. -/
theorem State.drained_iff (s : State) (core : Nat) (w : Waiting) : s.drained core w = true
    ↔ (s.core core).t.drainAt ≠ 0 ∧ (s.now = (s.core core).t.drainAt ∨ (s.core core).decided.take 2 = [w.gk, w.idx]) := by
  simp [State.drained]

/-- The third row: tokens are taken, the core is free, and the task is listed again. -/
theorem State.preempt_kills {y : Task} (hp : s.Preempts core w) (hsh : ¬ s.short core (s.drained core w)) (hsl : ¬ s.slotFree core)
    (hk : s.mayKill core) (hg : s.group? gk = some g) (ht : (s.core core).t.grp = gk) (hy : g.tasks[(s.core core).t.idx]? = some y)
    (hd : y.st ≠ .done) (hkl : y.st ≠ .killed) (hc : recCore (g.ctx / 64) y.recd = core) :
    let u := (s.decideOn core w).preempt core w (s.drained core w)
    (u.core core).t.mode = .none ∧ (u.context (s.ctxOf core)).tokens = (s.context (s.ctxOf core)).tokens - 2
      ∧ (∃ z, u.task? gk (s.core core).t.idx = some z ∧ z.st = .listed ∧ z.cnt = 0 ∧ z.recd = y.recd)
      ∧ u.hasPosted s.now (.ev (.evTaskReady gk (s.core core).t.idx)) := by
  obtain ⟨-, -, hrow, -⟩ := (s.decideOn core w).preempt_rows core w (s.drained core w)
  rw [State.decideOn_short, State.decideOn_slotFree, State.decideOn_mayKill, State.decideOn_core, State.decideOn_ctxOf] at hrow
  rw [hrow hsh hsl hk, ht]
  have hon : (s.core core).t.isTask gk (s.core core).t.idx = true := by simp [TaskSt.isTask, hp.not_none, ht]
  have hkill := State.kill_relist (s := (s.decideOn core w).onContext (s.ctxOf core) (fun c => { c with tokens := c.tokens - 2 }))
    (core := core) (i := (s.core core).t.idx) (cause := Code.preemptKill) (opCode := Code.opCancelled) hg hy hd hkl hc
    (by rw [State.onContext_core, State.decideOn_core]; exact hon) (by rw [State.onContext_core, State.decideOn_core]; exact hp.not_saving)
  generalize (((s.decideOn core w).onContext (s.ctxOf core) (fun c => { c with tokens := c.tokens - 2 })).killTask gk (s.core core).t.idx
    Code.preemptKill Code.opCancelled).relist gk (s.core core).t.idx = u at hkill ⊢
  obtain ⟨hm, htok, hz, hpost⟩ := hkill
  refine ⟨hm, ?_, hz, hpost⟩
  rw [htok, State.context_onContext_self, State.decideOn_context]

/-- The second row: the task is saved. -/
theorem State.preempt_saves (hp : s.Preempts core w) (hsh : ¬ s.short core (s.drained core w)) (hsl : s.slotFree core) :
    let u := (s.decideOn core w).preempt core w (s.drained core w)
    (u.core core).t.mode = .saving ∧ (u.core core).t.saveFrom = (s.core core).t.mode
      ∧ u.hasPosted (s.now + 1) (.ev (.evPreemptionDecision core)) := by
  obtain ⟨-, hrow, -, -⟩ := (s.decideOn core w).preempt_rows core w (s.drained core w)
  rw [State.decideOn_short, State.decideOn_slotFree] at hrow
  rw [hrow hsh hsl]
  obtain ⟨hm, hf, hn⟩ := (s.decideOn core w).beginSave_task core (by rw [State.decideOn_core]; exact hp.not_none)
    (by rw [State.decideOn_core]; exact hp.not_saving)
  rw [State.decideOn_core] at hf
  rw [State.decideOn_now] at hn ⊢
  generalize (s.decideOn core w).beginSave core = v at hm hf hn ⊢
  exact ⟨hm, hf, State.hasPosted_post (s := v) (by omega) _⟩

/-- Both events of R337 decide, `DRAIN_LIMIT` on a task that drains. -/
theorem exec_preempts {e : Instr}
    (he : e ∈ if (s.core core).t.drainAt = 0 then [Instr.evPreemptionDecision core] else [.evPreemptionDecision core, .evDrainLimit core]) :
    exec e s = .next (s.preemptDecide core) := by
  by_cases hz : (s.core core).t.drainAt = 0
  · rw [if_pos hz, List.mem_singleton] at he
    rw [he]
    rfl
  · rw [if_neg hz] at he
    rcases List.mem_pair.mp he with rfl | rfl
    · rfl
    · exact congrArg Host.Outcome.next (if_neg hz)

end Sys2Proof.Machine
end

section
/-!
PROOF. What the machinery reads of a context's space (R265 to R280, R311 to R313) depends on storage, its check bits and veils, the
contexts, the circuits, and of each die its size and its publication buffer: states that agree there read the same code objects. A die's
next group number is kept beside them, as an intake reads before it creates a group.
-/

namespace Sys2Proof.Machine

/-- Two states agree in all that the machinery's reads depend on, and in the numbers of the next groups. -/
structure State.SameReads (s t : State) : Prop where
  mem : t.mem = s.mem
  veils : t.veils = s.veils
  ecc : t.ecc = s.ecc
  ctxs : t.ctxs = s.ctxs
  circuits : t.circuits = s.circuits
  npc : ∀ d, t.npc d = s.npc d
  pub : ∀ d, (t.die d).pubBuf = (s.die d).pubBuf
  gids : ∀ d, (t.die d).gids = (s.die d).gids

namespace State.SameReads

variable {s t u : State}

theorem refl (s : State) : s.SameReads s := ⟨rfl, rfl, rfl, rfl, rfl, fun _ => rfl, fun _ => rfl, fun _ => rfl⟩

theorem trans (h : s.SameReads t) (k : t.SameReads u) : s.SameReads u :=
  ⟨k.mem.trans h.mem, k.veils.trans h.veils, k.ecc.trans h.ecc, k.ctxs.trans h.ctxs, k.circuits.trans h.circuits,
    fun d => (k.npc d).trans (h.npc d), fun d => (k.pub d).trans (h.pub d), fun d => (k.gids d).trans (h.gids d)⟩

variable (h : s.SameReads t)
include h

/-! ### Storage and translation -/

theorem npc' : State.npc t = State.npc s := funext h.npc

theorem context : State.context t = State.context s := by
  delta State.context
  rw [h.ctxs]

theorem circuit : State.circuit t = State.circuit s := by
  delta State.circuit
  rw [h.circuits]

theorem eccOf : State.eccOf t = State.eccOf s := by
  delta State.eccOf
  rw [h.ecc]

theorem stored : State.stored t = State.stored s := by
  delta State.stored
  rw [h.veils, h.mem]

theorem storedRun : State.storedRun t = State.storedRun s := by
  delta State.storedRun
  rw [h.veils, h.mem, h.stored]

theorem localBytes : State.localBytes t = State.localBytes s := by
  delta State.localBytes
  rw [h.storedRun]

theorem localWord : State.localWord t = State.localWord s := by
  delta State.localWord
  rw [h.localBytes]

theorem walkFrom : Machine.walkFrom t = Machine.walkFrom s := by
  funext die va acc k
  induction k with
  | zero => rfl
  | succ k ih =>
    funext node
    simp only [Machine.walkFrom, h.localWord, h.npc', h.eccOf, ih]

theorem peerDown : State.peerDown t = State.peerDown s := by
  delta State.peerDown
  rw [h.circuit]

theorem handleOk : Machine.handleOk t = Machine.handleOk s := by
  delta Machine.handleOk
  rw [h.npc', h.peerDown]

theorem checkLeaf : Machine.checkLeaf t = Machine.checkLeaf s := by
  delta Machine.checkLeaf
  rw [h.handleOk]

theorem handleEntry : State.handleEntry t = State.handleEntry s := by
  delta State.handleEntry
  rw [h.context, h.walkFrom, h.eccOf, h.stored]

theorem walk : State.walk t = State.walk s := by
  delta State.walk
  rw [h.context, h.walkFrom, h.handleEntry]

theorem translate : State.translate t = State.translate s := by
  delta State.translate
  rw [h.walk, h.checkLeaf]

/-! ### Reads -/

theorem hostByte : State.hostByte t = State.hostByte s := by
  funext die a
  simp only [State.hostByte, Die.pubByte, h.pub, h.mem]

theorem homeByte : State.homeByte t = State.homeByte s := by
  funext ctx x
  cases x <;> simp only [State.homeByte, h.stored, h.hostByte]

theorem homeBytes : State.homeBytes t = State.homeBytes s := by
  funext ctx x n
  cases x <;> simp only [State.homeBytes, h.storedRun, h.hostByte, h.homeByte, h.pub, h.mem]

theorem homeBad : State.homeBad t = State.homeBad s := by
  funext x n
  cases x <;> simp only [State.homeBad, h.eccOf]

theorem vread : State.vread t = State.vread s := by
  delta State.vread
  rw [h.translate, h.homeBad, h.homeBytes]

theorem vreadLines : State.vreadLines t = State.vreadLines s := by
  delta State.vreadLines State.vreadLines._f
  rw [h.vread]

theorem vreadBytes : State.vreadBytes t = State.vreadBytes s := by
  delta State.vreadBytes
  rw [h.vreadLines]

/-! ### Code objects (R311 to R313) -/

theorem readWords : State.readWords t = State.readWords s := by
  delta State.readWords
  rw [h.vreadBytes]

theorem readTeam : State.readTeam t = State.readTeam s := by
  delta State.readTeam
  rw [h.readWords, h.vreadBytes]

theorem readTeams : State.readTeams t = State.readTeams s := by
  funext ctx n
  induction n with
  | zero => rfl
  | succ n ih =>
    funext va
    simp only [State.readTeams, h.readTeam, ih]

theorem plansEnd : State.plansEnd t = State.plansEnd s := by
  funext ctx n
  induction n with
  | zero => rfl
  | succ n ih =>
    funext va
    simp only [State.plansEnd, h.readWords, ih]

theorem regionOk : State.regionOk t = State.regionOk s := by
  delta State.regionOk
  rw [h.walk]

theorem readItems : State.readItems t = State.readItems s := by
  delta State.readItems
  rw [h.readWords]

theorem inPart : State.inPart t = State.inPart s := by
  delta State.inPart
  rw [h.context]

theorem recordOk : State.recordOk t = State.recordOk s := by
  delta State.recordOk
  rw [h.inPart, h.vreadBytes]

theorem readObject : State.readObject t = State.readObject s := by
  delta State.readObject
  rw [h.readWords, h.readTeams, h.plansEnd, h.regionOk, h.readItems, h.recordOk]

end State.SameReads

end Sys2Proof.Machine
end

section
/-!
PROOF. Taking a packet (R315 to R321): a launch queue gives up its head, and a packet that keeps R318 creates its group.
-/

namespace Sys2Proof.Machine

/-! ### What reads leave behind does not change what is read -/

namespace State.SameReads

variable (s : State)

theorem post (n : Nat) (a : Act) : s.SameReads (s.post n a) := ⟨rfl, rfl, rfl, rfl, rfl, fun _ => rfl, fun _ => rfl, fun _ => rfl⟩

theorem postEv (n : Nat) (i : Instr) : s.SameReads (s.postEv n i) := .post s n _

theorem onCtxSt (n : Nat) (f : CtxSt → CtxSt) : s.SameReads (s.onCtxSt n f) := ⟨rfl, rfl, rfl, rfl, rfl, fun _ => rfl, fun _ => rfl, fun _ => rfl⟩

/-- A die changes, its size, its publication buffer and its next group number kept. -/
theorem onDie (n : Nat) (f : Die → Die) (h : ∀ d, (f d).npc = d.npc ∧ (f d).pubBuf = d.pubBuf ∧ (f d).gids = d.gids) :
    s.SameReads (s.onDie n f) := by
  have hdie (k : Nat) : ((s.onDie n f).die k).npc = (s.die k).npc ∧ ((s.onDie n f).die k).pubBuf = (s.die k).pubBuf
      ∧ ((s.onDie n f).die k).gids = (s.die k).gids := by
    by_cases hk : k = n
    · subst hk
      rw [State.die_onDie_self]
      exact h _
    · rw [State.die_onDie_ne s n k f hk]
      exact ⟨rfl, rfl, rfl⟩
  exact ⟨rfl, rfl, rfl, rfl, rfl, fun d => (hdie d).1, fun d => (hdie d).2.1, fun d => (hdie d).2.2⟩

theorem onPc (n p : Nat) (f : PChan → PChan) : s.SameReads (s.onPc n p f) := .onDie s n _ fun _ => ⟨rfl, rfl, rfl⟩

theorem countCorrected (n : Nat) : s.SameReads (s.countCorrected n) := .onDie s n _ fun _ => ⟨rfl, rfl, rfl⟩

theorem fixMode (n p : Nat) : s.SameReads (s.fixMode n p) := by
  unfold State.fixMode
  dsimp only
  split
  · exact .refl s
  · split <;> exact .onPc s n p _

theorem touchPc (n p : Nat) : s.SameReads (s.touchPc n p) := by
  unfold State.touchPc
  dsimp only
  split
  · exact (fixMode s n p).trans (.onPc _ n p _)
  · exact ((fixMode s n p).trans (.onPc _ n p _)).trans (.postEv _ _ _)

theorem scrubWord (n p : Nat) : s.SameReads (s.scrubWord n p) := by
  unfold State.scrubWord
  split
  · have h := ((countCorrected s n).trans (.touchPc _ n (placeOf (s.npc n) p).p)).trans (.onPc _ n (placeOf (s.npc n) p).p (fun c =>
      if c.unslot.any (fun u => u.op.isNone && u.land.isNone && u.pa == p / 32 * 32) then c
      else { c with unslot := c.unslot ++ [{ prio := 0, arrived := s.now, pa := p / 32 * 32, op := none }] }))
    dsimp only
    split
    · exact h
    · exact h.trans (.postEv _ _ _)
  · exact .refl s

theorem foldl {α : Type} (f : State → α → State) (h : ∀ s a, State.SameReads s (f s a)) (l : List α) : s.SameReads (l.foldl f s) := by
  induction l generalizing s with
  | nil => exact .refl s
  | cons a l ih => exact (h s a).trans (ih _)

theorem scrubRun (x : Tgt) (n : Nat) : s.SameReads (s.scrubRun x n) := by
  unfold State.scrubRun
  split
  · exact .foldl s _ (fun s i => .scrubWord s _ _) _
  · exact .refl s

theorem walkSeen (ctx va : Nat) : s.SameReads (s.walkSeen ctx va) := by
  unfold State.walkSeen
  exact .foldl s _ (fun s i => .scrubWord s _ _) _

theorem readSeen (ctx va n acc : Nat) : s.SameReads (s.readSeen ctx va n acc) := by
  obtain ⟨tr, htr⟩ : ∃ f, f = @State.translate := ⟨_, rfl⟩
  have h : @State.readSeen = @State.readSeen := rfl
  conv_rhs at h => delta State.readSeen
  rw [h, ← htr]
  dsimp only
  split
  · exact (walkSeen s ctx _).trans (.scrubRun _ _ _)
  · exact .walkSeen s ctx _

theorem bytesSeen (ctx va n acc : Nat) : s.SameReads (s.bytesSeen ctx va n acc) := by
  unfold State.bytesSeen
  exact .foldl s _ (fun s i => .readSeen s _ _ _ _) _

theorem objectSeen (ctx obj : Nat) (o : CodeObj) : s.SameReads (s.objectSeen ctx obj o) := by
  unfold State.objectSeen
  refine (foldl s _ (fun s r => ?_) _).trans (.foldl _ _ (fun s r => .bytesSeen s _ _ _ _) _)
  split
  · exact .refl s
  · exact .bytesSeen s _ _ _ _

/-- A packet is taken from its queue. -/
theorem takeFrom (die key : Nat) : s.SameReads ((s.onLaunch key LaunchQ.taken).onDie die (fun d => { d with rr := key + 1 })) :=
  (⟨rfl, rfl, rfl, rfl, rfl, fun _ => rfl, fun _ => rfl, fun _ => rfl⟩ : s.SameReads (s.onLaunch key LaunchQ.taken)).trans
    (.onDie _ die _ fun _ => ⟨rfl, rfl, rfl⟩)

end State.SameReads

/-! ### Completion records and code objects that were read (R293, R320) -/

variable (s : State)

@[simp] theorem sched_writeCompletion (ctx crec tag status gid first : Nat) : (s.writeCompletion ctx crec tag status gid first).sched = s.sched := by
  obtain ⟨tr, htr⟩ : ∃ f, f = @State.translate := ⟨_, rfl⟩
  have h : @State.writeCompletion = @State.writeCompletion := rfl
  conv_rhs at h => delta State.writeCompletion
  rw [h, ← htr]
  dsimp only
  split
  · rfl
  · split <;> simp

@[simp] theorem sched_objectSeen (ctx obj : Nat) (o : CodeObj) : (s.objectSeen ctx obj o).sched = s.sched := by
  unfold State.objectSeen
  dsimp only
  rw [sched_foldl _ _ _ fun _ _ => sched_bytesSeen _ _ _ _ _]
  refine sched_foldl s _ _ fun s r => ?_
  split <;> simp

/-! ### Groups (R319, R321) -/

/-- The tasks a packet creates. -/
def packetTasks (w : List Word) (o : CodeObj) : List Task :=
  o.recs.map (fun r => { recd := r, arg := r.getD 3 0 + word (w.getD 3 0).toNat, cnt := recDeps r })

/-- The group a packet creates. -/
def packetGroup (s : State) (ctx q : Nat) (w : List Word) (obj : Nat) (o : CodeObj) : Group :=
  let n (i : Nat) : Nat := (w.getD i 0).toNat
  { ctx := ctx, gid := (s.die (ctx / 64)).gids, queue := q, gpol := bits (n 0) 10 2, obj := obj, hdr := o.hdr, items := o.items,
    teams := o.teams, tasks := packetTasks w o, tag := bits (n 0) 32 32, cpl := bitOf (n 0) 9, crec := n 2, bar := bitOf (n 0) 8,
    created := s.now, order := s.order, idling := true, idleFrom := s.now }

/-- A state with one group more. -/
def State.addGroup (s : State) (gk : Nat) (g : Group) : State := { s with groups := NMap.set s.groups gk g, order := s.order + 1 }

/-- The semaphores that the items of an object set. -/
def State.setSems (s : State) (die : Nat) (o : CodeObj) : State :=
  o.items.foldl (fun s it =>
    if bits it.toNat 60 4 = 1 then
      o.recs.foldl (fun s r =>
        let c := recCore die r
        (s.setSem c (bits it.toNat 24 8) (bits it.toNat 0 16)).wakeListed c) s
    else s) s

/-- Every task of a group is tested. -/
def State.testTasks (s : State) (gk n : Nat) : State := (List.range n).foldl (fun s i => s.postEv s.now (.evTaskReady gk i)) s

@[simp] theorem sched_setSems (die : Nat) (o : CodeObj) : (s.setSems die o).sched = s.sched := by
  unfold State.setSems
  refine sched_foldl s _ _ fun s it => ?_
  split
  · exact sched_foldl s _ _ fun s r => by rw [sched_wakeListed, sched_setSem]
  · rfl

@[simp] theorem sched_testTasks (gk n : Nat) : (s.testTasks gk n).sched = s.sched := by
  unfold State.testTasks
  exact sched_foldl s _ _ fun s i => sched_postEv s _ _

theorem State.testTasks_posts {gk n i : Nat} (hi : i < n) : (s.testTasks gk n).hasPosted s.now (.ev (.evTaskReady gk i)) := by
  have hfold (l : List Nat) (s : State) (h : i ∈ l ∨ s.hasPosted s.now (.ev (.evTaskReady gk i))) :
      (l.foldl (fun s i => s.postEv s.now (.evTaskReady gk i)) s).hasPosted s.now (.ev (.evTaskReady gk i)) := by
    induction l generalizing s with
    | nil => exact h.resolve_left (by simp)
    | cons j l ih =>
      refine ih (s.postEv s.now (.evTaskReady gk j)) ?_
      rcases h with h | h
      · rcases List.mem_cons.mp h with rfl | h
        · exact .inr (State.hasPosted_post (Nat.le_refl _) _)
        · exact .inl h
      · exact .inr (State.hasPosted_post_of h)
  exact hfold (List.range n) s (.inl (List.mem_range.mpr hi))

/-- A group is created, before its tasks are tested. -/
def State.newGroup (s : State) (ctx q : Nat) (w : List Word) (obj : Nat) (o : CodeObj) : State :=
  (((s.onDie (ctx / 64) (fun d => { d with gids := ((s.die (ctx / 64)).gids + 1) % (2 ^ 32 - 1) })).addGroup
    (2 ^ 32 * (ctx / 64) + (s.die (ctx / 64)).gids) (packetGroup s ctx q w obj o)).setSems (ctx / 64) o)

theorem State.createGroup_eq (ctx q : Nat) (w : List Word) (obj : Nat) (o : CodeObj) :
    let v := (s.newGroup ctx q w obj o).testTasks (2 ^ 32 * (ctx / 64) + (s.die (ctx / 64)).gids) (packetTasks w o).length
    s.createGroup ctx q w obj o
      = v.postEv (v.now + 2 ^ (v.context ctx).wdlog) (.evWatchdog ctx (2 ^ 32 * (ctx / 64) + (s.die (ctx / 64)).gids) 0xFFFFF) := rfl

theorem State.newGroup_sched (ctx q : Nat) (w : List Word) (obj : Nat) (o : CodeObj) : (s.newGroup ctx q w obj o).sched
    = { s.sched with groups := NMap.set s.groups (2 ^ 32 * (ctx / 64) + (s.die (ctx / 64)).gids) (packetGroup s ctx q w obj o) } := by
  unfold State.newGroup
  rw [sched_setSems]
  rfl

/-- A group that a packet has created: it stands under its number, every task of it is tested, and its watchdog counter is looked at. -/
theorem State.createGroup_creates (ctx q : Nat) (w : List Word) (obj : Nat) (o : CodeObj) :
    let gk := 2 ^ 32 * (ctx / 64) + (s.die (ctx / 64)).gids
    let u := s.createGroup ctx q w obj o
    u.launch = s.launch ∧ u.now = s.now ∧ u.group? gk = some (packetGroup s ctx q w obj o)
      ∧ (∀ i, i < o.recs.length → u.hasPosted s.now (.ev (.evTaskReady gk i)))
      ∧ u.hasPosted (s.now + 2 ^ (s.context ctx).wdlog) (.ev (.evWatchdog ctx gk 0xFFFFF)) := by
  dsimp only
  rw [State.createGroup_eq]
  have hs := State.newGroup_sched s ctx q w obj o
  generalize s.newGroup ctx q w obj o = v at hs ⊢
  have hnow : v.now = s.now := congrArg SchedView.now hs
  have hlen : (packetTasks w o).length = o.recs.length := by simp [packetTasks]
  have hposts (i : Nat) (hi : i < o.recs.length) := State.testTasks_posts v (gk := 2 ^ 32 * (ctx / 64) + (s.die (ctx / 64)).gids)
    (n := (packetTasks w o).length) (hlen.symm ▸ hi)
  have ht := (sched_testTasks v (2 ^ 32 * (ctx / 64) + (s.die (ctx / 64)).gids) (packetTasks w o).length).trans hs
  generalize v.testTasks (2 ^ 32 * (ctx / 64) + (s.die (ctx / 64)).gids) (packetTasks w o).length = z at ht hposts ⊢
  have hz : z.now = s.now := congrArg SchedView.now ht
  have hwd : (z.context ctx).wdlog = (s.context ctx).wdlog := congrArg (fun x => (SchedView.ctx x ctx).2) ht
  have hgr : z.groups = NMap.set s.groups (2 ^ 32 * (ctx / 64) + (s.die (ctx / 64)).gids) (packetGroup s ctx q w obj o) :=
    congrArg SchedView.groups ht
  refine ⟨congrArg SchedView.launch ht, hz, ?_, fun i hi => ?_, ?_⟩
  · change NMap.find z.groups _ = _
    rw [hgr, NMap.find_set_self]
  · rw [← hnow]
    exact State.hasPosted_post_of (hposts i hi)
  · rw [hz, hwd]
    exact State.hasPosted_post (s := z) (hz ▸ Nat.le_add_right _ _) _

/-! ### The checks of a packet (R316 to R318) -/

/-- A packet that is not admitted: its completion record, if it asks for one. -/
def State.turnAway (s : State) (ctx : Nat) (w : List Word) (status : Nat) : State :=
  if bitOf (w.getD 0 0).toNat 9 then
    s.writeCompletion ctx (w.getD 2 0).toNat (bits (w.getD 0 0).toNat 32 32) status 0xFFFFFFFF 0xFFFFF
  else s

@[simp] theorem sched_turnAway (ctx : Nat) (w : List Word) (status : Nat) : (s.turnAway ctx w status).sched = s.sched := by
  simp [State.turnAway, apply_ite State.sched]

/-- The address of the code object a packet names. -/
def packetObject (w : List Word) : Nat := bits (w.getD 1 0).toNat 0 57

/-- The dies a packet is for (R317): those it names, else those its object's header names, else its own. -/
def packetMask (die : Nat) (w : List Word) (hdr : Option (List Word)) : Nat :=
  let named := bits (w.getD 0 0).toNat 16 16
  let m := if named ≠ 0 then named else match hdr with
    | some h => bits (h.getD 5 0).toNat 48 16
    | none => 0
  if m = 0 then 2 ^ die else m

/-- The last check of a packet: its code object. -/
def State.admitObject (s : State) (ctx q : Nat) (w : List Word) (e : Option CodeObj) : State :=
  match e with
  | none => (s.bytesSeen ctx (packetObject w) 64 4).turnAway ctx w Code.launchRejected
  | some o => ((s.bytesSeen ctx (packetObject w) 64 4).objectSeen ctx (packetObject w) o).createGroup ctx q w (packetObject w) o

theorem State.admitPacket_eq (ctx q : Nat) (w : List Word) : s.admitPacket ctx q w
    = if packetBad w then s.turnAway ctx w Code.launchRejected
      else if !bitOf (packetMask (ctx / 64) w (s.readWords ctx (packetObject w) 8)) (ctx / 64) then
        s.turnAway ctx w (if (List.range 8).any (fun d => bitOf (packetMask (ctx / 64) w (s.readWords ctx (packetObject w) 8)) d && s.liveDie d)
          then 0xF1 else 0xF0)
      else s.admitObject ctx q w (s.readObject ctx (packetObject w)) := by
  obtain ⟨rw', hrw⟩ : ∃ f, f = @State.readWords := ⟨_, rfl⟩
  obtain ⟨ro, hro⟩ : ∃ f, f = @State.readObject := ⟨_, rfl⟩
  have h : @State.admitPacket = @State.admitPacket := rfl
  conv_rhs at h => delta State.admitPacket
  rw [h, ← hrw, ← hro]
  rfl

theorem State.admitPacket_bad {ctx q : Nat} {w : List Word} (hb : packetBad w = true) :
    s.admitPacket ctx q w = s.turnAway ctx w Code.launchRejected := by
  rw [State.admitPacket_eq, if_pos hb]

theorem packetMask_named {die : Nat} {w : List Word} (hm : bitOf (bits (w.getD 0 0).toNat 16 16) die = true) (hdr : Option (List Word)) :
    packetMask die w hdr = bits (w.getD 0 0).toNat 16 16 := by
  have hne : bits (w.getD 0 0).toNat 16 16 ≠ 0 := fun h => by
    rw [h] at hm
    simp [bitOf] at hm
  unfold packetMask
  dsimp only
  rw [if_pos hne, if_neg hne]

/-- A packet that names its die and a well-formed object creates a group. -/
theorem State.admitPacket_good {ctx q : Nat} {w : List Word} {o : CodeObj} (hb : packetBad w = false)
    (hm : bitOf (bits (w.getD 0 0).toNat 16 16) (ctx / 64) = true) (ho : s.readObject ctx (packetObject w) = some o) :
    s.admitPacket ctx q w = ((s.bytesSeen ctx (packetObject w) 64 4).objectSeen ctx (packetObject w) o).createGroup ctx q w (packetObject w) o := by
  rw [State.admitPacket_eq, hb, packetMask_named hm, hm, ho]
  rfl

theorem State.launch_of_sched {s u : State} (h : u.sched = s.sched) : u.launch = s.launch := congrArg SchedView.launch h

theorem State.turnAway_launch (ctx : Nat) (w : List Word) (status : Nat) : (s.turnAway ctx w status).launch = s.launch :=
  State.launch_of_sched (sched_turnAway s ctx w status)

/-- A packet leaves the launch queues as they are. -/
theorem State.admitPacket_launch (ctx q : Nat) (w : List Word) : (s.admitPacket ctx q w).launch = s.launch := by
  rw [State.admitPacket_eq]
  split
  · exact State.turnAway_launch s ctx w _
  · split
    · exact State.turnAway_launch s ctx w _
    · have hseen := State.launch_of_sched (sched_bytesSeen s ctx (packetObject w) 64 4)
      cases s.readObject ctx (packetObject w) with
      | none => exact (State.turnAway_launch _ ctx w _).trans hseen
      | some o => exact ((State.createGroup_creates _ ctx q w _ o).1).trans ((State.launch_of_sched (sched_objectSeen _ _ _ _)).trans hseen)

/-! ### The intake of a die (R318, R363) -/

/-- The queue a packet is taken from, and the die's next place in turn. -/
def State.takeFrom (s : State) (die key : Nat) : State := (s.onLaunch key LaunchQ.taken).onDie die (fun d => { d with rr := key + 1 })

/-- A packet that was read, or could not be. -/
def State.packetRead (s : State) (die key : Nat) (l : LaunchQ) (e : Except TFault (List Byte)) : State :=
  match e with
  | .error _ => s.notice (key / 4) { code := Code.launchRejected, word5 := l.slot % 2 ^ 57 }
  | .ok bs =>
    let s := s.readSeen (key / 4) l.slot 64 4
    match l.source with
    | some src =>
      if (s.die die).admits src (key / 4 % 64) (key % 4) (packetObject (wordsOf 8 bs)) then s.admitPacket (key / 4) (key % 4) (wordsOf 8 bs)
      else s.notice (key / 4) { code := Code.launchRejected, detail := src }
    | none => s.admitPacket (key / 4) (key % 4) (wordsOf 8 bs)

/-- The intake goes on while a packet is announced. -/
def State.intakeAgain (s : State) (die : Nat) : State :=
  if (s.intakeReady die).isEmpty then s else s.postEv (s.now + 1) (.evPacketTake die)

theorem State.packetTake_eq {s : State} {die key : Nat} (hk : s.pickQueue die = some key) :
    s.packetTake die = ((s.takeFrom die key).packetRead die key (s.launchQ key)
      ((s.takeFrom die key).vread (key / 4) (s.launchQ key).slot 64 4)).intakeAgain die := by
  obtain ⟨ir, hir⟩ : ∃ f, f = @State.intakeReady := ⟨_, rfl⟩
  obtain ⟨vr, hvr⟩ : ∃ f, f = @State.vread := ⟨_, rfl⟩
  have ha : @State.intakeAgain = fun s die => if (ir s die).isEmpty then s else s.postEv (s.now + 1) (.evPacketTake die) := by
    rw [hir]
    rfl
  have h : @State.packetTake = @State.packetTake := rfl
  conv_rhs at h => delta State.packetTake
  rw [h, ← hir, ha, ← hvr]
  beta_reduce
  rw [hk]
  rfl

theorem State.intakeAgain_group? (die k : Nat) : (s.intakeAgain die).group? k = s.group? k := by
  unfold State.intakeAgain
  split <;> rfl

theorem State.intakeAgain_groups (die : Nat) : (s.intakeAgain die).groups = s.groups := by
  unfold State.intakeAgain
  split <;> rfl

theorem State.intakeAgain_launch (die : Nat) : (s.intakeAgain die).launch = s.launch := by
  unfold State.intakeAgain
  split <;> rfl

theorem State.intakeAgain_posts {s : State} {n : Nat} {a : Act} (h : s.hasPosted n a) (die : Nat) : (s.intakeAgain die).hasPosted n a := by
  unfold State.intakeAgain
  split
  · exact h
  · exact State.hasPosted_post_of h

theorem State.packetRead_launch (die key : Nat) (l : LaunchQ) (e : Except TFault (List Byte)) :
    (s.packetRead die key l e).launch = s.launch := by
  cases e with
  | error f => exact State.launch_of_sched (sched_notice s _ _)
  | ok bs =>
    have hseen := State.launch_of_sched (sched_readSeen s (key / 4) l.slot 64 4)
    unfold State.packetRead
    dsimp only
    split
    · split
      · exact (State.admitPacket_launch _ _ _ _).trans hseen
      · exact (State.launch_of_sched (sched_notice _ _ _)).trans hseen
    · exact (State.admitPacket_launch _ _ _ _).trans hseen

variable {s : State} {die key : Nat}

theorem State.pickQueue_die (hk : s.pickQueue die = some key) : key / 256 = die := by
  have hbest (ks : List Nat) (p : Nat → Bool) (h : (ks.find? p).orElse (fun _ => ks.head?) = some key) : key ∈ ks := by
    cases hf : ks.find? p with
    | some k =>
      rw [hf] at h
      cases h
      exact List.mem_of_find?_eq_some hf
    | none =>
      rw [hf] at h
      exact List.mem_of_mem_head? h
  have hmem := hbest _ _ hk
  have hready := (List.mem_filter.mp (List.mem_filter.mp hmem).1).2
  simp only [Bool.and_eq_true, beq_iff_eq, and_assoc] at hready
  exact hready.1

/-- HEAD moves on past the packet that is taken. -/
theorem State.packetTake_head (hk : s.pickQueue die = some key) :
    ((s.packetTake die).launchQ key).head = ((s.launchQ key).head + 1) % 2 ^ 32 := by
  have hlaunch : (s.packetTake die).launch = (s.onLaunch key LaunchQ.taken).launch := by
    rw [State.packetTake_eq hk, State.intakeAgain_launch, State.packetRead_launch]
    rfl
  have hq : (s.packetTake die).launchQ key = (s.onLaunch key LaunchQ.taken).launchQ key := congrArg (fun l : NMap LaunchQ => NMap.get ({} : LaunchQ) l key) hlaunch
  rw [hq, State.launchQ_onLaunch_self]
  rfl

variable {bs : List Byte}

/-- A packet of the die itself that was read. -/
theorem State.packetTake_own (hk : s.pickQueue die = some key) (hs : (s.launchQ key).source = none)
    (hr : (s.takeFrom die key).vread (key / 4) (s.launchQ key).slot 64 4 = .ok bs) :
    s.packetTake die = (((s.takeFrom die key).readSeen (key / 4) (s.launchQ key).slot 64 4).admitPacket (key / 4) (key % 4)
      (wordsOf 8 bs)).intakeAgain die := by
  rw [State.packetTake_eq hk, hr]
  simp only [State.packetRead, hs]

theorem State.groups_of_sched {s u : State} (h : u.sched = s.sched) : u.groups = s.groups := congrArg SchedView.groups h

/-- A packet that fails its checks creates nothing. -/
theorem State.packetTake_bad (hk : s.pickQueue die = some key) (hs : (s.launchQ key).source = none)
    (hr : (s.takeFrom die key).vread (key / 4) (s.launchQ key).slot 64 4 = .ok bs) (hb : packetBad (wordsOf 8 bs) = true) :
    (s.packetTake die).groups = s.groups := by
  rw [State.packetTake_own hk hs hr, State.intakeAgain_groups, State.admitPacket_bad _ hb, State.groups_of_sched (sched_turnAway _ _ _ _),
    State.groups_of_sched (sched_readSeen _ _ _ _ _)]
  rfl

/-- A packet that keeps R318 and names its die creates its group. -/
theorem State.packetTake_creates {o : CodeObj} (hk : s.pickQueue die = some key) (hs : (s.launchQ key).source = none)
    (hr : (s.takeFrom die key).vread (key / 4) (s.launchQ key).slot 64 4 = .ok bs) (hb : packetBad (wordsOf 8 bs) = false)
    (hm : bitOf (bits ((wordsOf 8 bs).getD 0 0).toNat 16 16) die = true)
    (ho : (s.takeFrom die key).readObject (key / 4) (packetObject (wordsOf 8 bs)) = some o) :
    let gk := 2 ^ 32 * die + (s.die die).gids
    let u := s.packetTake die
    ∃ z, u.group? gk = some z ∧ z.ctx = key / 4 ∧ z.gid = (s.die die).gids ∧ z.queue = key % 4 ∧ z.tasks = packetTasks (wordsOf 8 bs) o
      ∧ (∀ i, i < o.recs.length → u.hasPosted s.now (.ev (.evTaskReady gk i)))
      ∧ u.hasPosted (s.now + 2 ^ (s.context (key / 4)).wdlog) (.ev (.evWatchdog (key / 4) gk 0xFFFFF)) := by
  have hd : key / 4 / 64 = die := by
    have := State.pickQueue_die hk
    omega
  have ho' : ((s.takeFrom die key).readSeen (key / 4) (s.launchQ key).slot 64 4).readObject (key / 4) (packetObject (wordsOf 8 bs)) = some o := by
    rw [(State.SameReads.readSeen (s.takeFrom die key) (key / 4) (s.launchQ key).slot 64 4).readObject]
    exact ho
  rw [State.packetTake_own hk hs hr, State.admitPacket_good _ hb (by rw [hd]; exact hm) ho']
  -- what the intake has read changes nothing the group is made of
  have hsched : ((((s.takeFrom die key).readSeen (key / 4) (s.launchQ key).slot 64 4).bytesSeen (key / 4) (packetObject (wordsOf 8 bs)) 64 4).objectSeen
      (key / 4) (packetObject (wordsOf 8 bs)) o).sched = (s.takeFrom die key).sched := by
    rw [sched_objectSeen, sched_bytesSeen, sched_readSeen]
  have hreads := (((State.SameReads.takeFrom s die key).trans (.readSeen _ (key / 4) (s.launchQ key).slot 64 4)).trans
    (.bytesSeen _ (key / 4) (packetObject (wordsOf 8 bs)) 64 4)).trans (.objectSeen _ (key / 4) (packetObject (wordsOf 8 bs)) o)
  change s.SameReads ((((s.takeFrom die key).readSeen (key / 4) (s.launchQ key).slot 64 4).bytesSeen (key / 4)
    (packetObject (wordsOf 8 bs)) 64 4).objectSeen (key / 4) (packetObject (wordsOf 8 bs)) o) at hreads
  generalize (((s.takeFrom die key).readSeen (key / 4) (s.launchQ key).slot 64 4).bytesSeen (key / 4) (packetObject (wordsOf 8 bs)) 64 4).objectSeen
    (key / 4) (packetObject (wordsOf 8 bs)) o = v at hsched hreads ⊢
  have hgids : (v.die (key / 4 / 64)).gids = (s.die die).gids := by rw [hd]; exact hreads.gids die
  have hnow : v.now = s.now := congrArg SchedView.now hsched
  have hctx : v.context = s.context := hreads.context
  obtain ⟨-, -, hg, hready, hwatch⟩ := v.createGroup_creates (key / 4) (key % 4) (wordsOf 8 bs) (packetObject (wordsOf 8 bs)) o
  rw [hgids, hd] at hg hready hwatch
  rw [hnow] at hready hwatch
  rw [hctx] at hwatch
  refine ⟨_, ((v.createGroup _ _ _ _ _).intakeAgain_group? die _).trans hg, rfl, hgids, rfl, rfl, fun i hi => ?_, ?_⟩
  · exact State.intakeAgain_posts (hready i hi) die
  · exact State.intakeAgain_posts hwatch die

end Sys2Proof.Machine
end

section
/-!
PROOF. The group port's commands at their head (R71, R325 to R329): what a command's completion leaves, how it leaves its queue, and
what `TLAUNCH` and `TDEP` do.
-/

namespace Sys2Proof.Machine

variable {s u : State} {core : Nat} {c : Cmd} {rest : List Cmd}

/-! ### The end of a command at its head (R71, R240) -/

/-- The token of a command that completes. -/
def State.tokenPut (s : State) (core : Nat) (c : Cmd) (code detail : Nat) : State :=
  match c.tok with
  | some r => s.onOwner core c.grp c.idx (fun t => t.endToken r (.cmd c.serial) (statusWord code c.ins.unitCode detail) s.now)
  | none => s

theorem State.endCmd_eq (s : State) (core : Nat) (c : Cmd) (code detail : Nat) : s.endCmd core c code detail true
    = if signalsOn c.ins.unitCode code then (s.tokenPut core c code detail).signal core c true else s.tokenPut core c code detail := rfl

/-- Queues and semaphores of a core are as before. -/
def State.keepsUnits (s u : State) (core : Nat) : Prop :=
  (∀ n, u.cmdsOf core n = s.cmdsOf core n) ∧ ∀ j, u.sem core j = s.sem core j

theorem State.keepsUnits_of_core (h : (u.core core).c = (s.core core).c) : s.keepsUnits u core := by
  unfold State.keepsUnits State.cmdsOf State.sem
  rw [h]
  exact ⟨fun _ => rfl, fun _ => rfl⟩

/-- A change of a task's state leaves queues and semaphores. -/
theorem State.keepsUnits_onOwner (s : State) (core gk i : Nat) (f : TaskSt → TaskSt) : s.keepsUnits (s.onOwner core gk i f) core := by
  unfold State.keepsUnits State.cmdsOf State.sem State.onOwner
  rw [State.core_onCore_self]
  split <;> exact ⟨fun _ => rfl, fun _ => rfl⟩

theorem State.tokenPut_keepsUnits (s : State) (core : Nat) (c : Cmd) (code detail : Nat) :
    s.keepsUnits (s.tokenPut core c code detail) core := by
  unfold State.tokenPut
  split
  · exact s.keepsUnits_onOwner core c.grp c.idx _
  · exact ⟨fun _ => rfl, fun _ => rfl⟩

theorem State.tokenPut_posted (s : State) (core : Nat) (c : Cmd) (code detail : Nat) :
    (s.tokenPut core c code detail).posted = s.posted ∧ (s.tokenPut core c code detail).now = s.now := by
  unfold State.tokenPut
  split <;> exact ⟨rfl, rfl⟩

/-- The token of a command that waits for it holds the status. -/
theorem State.tokenPut_done {r : Nat} (h : tokenWaits s core c r) (code detail : Nat) :
    tokenDone (s.tokenPut core c code detail) core r code c.ins.unitCode detail := by
  obtain ⟨htok, hr, hon, hown⟩ := h
  have hcore : ((s.tokenPut core c code detail).core core).t
      = (s.core core).t.endToken r (.cmd c.serial) (statusWord code c.ins.unitCode detail) s.now := by
    unfold State.tokenPut State.onOwner
    rw [htok]
    dsimp only
    rw [State.core_onCore_self, if_pos hon]
  unfold tokenDone
  rw [hcore]
  unfold TaskSt.endToken
  rw [if_pos hown]
  exact ⟨(if_pos hr).trans (NMap.get_put_self _ _ _ _), NMap.get_erase_self _ _ _⟩

theorem State.signal_head (s : State) (core : Nat) (c : Cmd) : ∃ po, s.signal core c true = { s with posted := po } ∧ ∀ x ∈ s.posted, x ∈ po := by
  unfold State.signal
  split
  · split
    · exact ⟨s.posted, rfl, fun _ h => h⟩
    · exact ⟨_, rfl, fun _ h => List.mem_append_left _ h⟩
  · exact ⟨s.posted, rfl, fun _ h => h⟩

theorem State.signal_posts {h : CmdHdr} (hh : c.ins.cmdHdr = some h) (hs : h.sinc ≠ 0) :
    (s.signal core c true).hasPosted s.now (.signal core h.ssem.toNat h.sinc.toNat (c.src core)) := by
  simp only [State.signal, hh, hs, if_false, if_true]
  exact State.hasPosted_post (Nat.le_refl _) _

/-- What the completion of a command at its head leaves: what the scheduler sees, queues, semaphores and what was posted; its token, if
it waits, holds the status, and its signal is posted. -/
structure State.Ended (s u : State) (core : Nat) (c : Cmd) (code detail : Nat) : Prop where
  now : u.now = s.now
  groups : u.groups = s.groups
  units : s.keepsUnits u core
  posted : ∀ n a, s.hasPosted n a → u.hasPosted n a
  token : ∀ r, tokenWaits s core c r → tokenDone u core r code c.ins.unitCode detail
  signal : ∀ h, c.ins.cmdHdr = some h → h.sinc ≠ 0 → signalsOn c.ins.unitCode code = true →
    u.hasPosted s.now (.signal core h.ssem.toNat h.sinc.toNat (c.src core))

theorem State.endCmd_ended (s : State) (core : Nat) (c : Cmd) (code detail : Nat) :
    s.Ended (s.endCmd core c code detail true) core c code detail := by
  have hsched := sched_endCmd s core c code detail true
  obtain ⟨hpost, hnow⟩ := s.tokenPut_posted core c code detail
  have hunits := s.tokenPut_keepsUnits core c code detail
  have htoken (r : Nat) (h : tokenWaits s core c r) := State.tokenPut_done h code detail
  refine ⟨congrArg SchedView.now hsched, congrArg SchedView.groups hsched, ?_, ?_, ?_, ?_⟩
  all_goals
    rw [State.endCmd_eq]
    generalize s.tokenPut core c code detail = v at hpost hnow hunits htoken
    obtain ⟨po, hv, hmem⟩ := v.signal_head core c
  · split
    · rw [hv]
      exact hunits
    · exact hunits
  · intro n a h
    have hv' : v.hasPosted n a := by
      unfold State.hasPosted
      rw [hpost]
      exact h
    split
    · rw [hv]
      exact hmem _ hv'
    · exact hv'
  · intro r h
    split
    · rw [hv]
      exact htoken r h
    · exact htoken r h
  · intro h hh hs hon
    rw [if_pos hon, ← hnow]
    exact State.signal_posts hh hs

/-! ### A command leaves its queue (R71) -/

theorem State.takeWait_sem (s : State) (core : Nat) (c : Cmd) : waitTaken s (s.takeWait core c) core c := by
  intro j
  unfold State.takeWait
  cases hh : c.ins.cmdHdr with
  | none => rfl
  | some h =>
    dsimp only
    by_cases hw : (h.we && h.wc && !c.noWait) = true
    · rw [if_pos hw]
      simp only [Bool.and_eq_true, Bool.not_eq_true', and_assoc] at hw
      obtain ⟨he, hc, hn⟩ := hw
      unfold State.semTake State.setSem State.sem
      rw [State.core_onCtxSt_self]
      by_cases hj : j = h.wsem.toNat
      · subst hj
        rw [if_pos ⟨he, hc, hn, rfl⟩]
        exact NMap.get_put_self _ _ _ _
      · rw [if_neg (fun hx => hj hx.2.2.2)]
        exact NMap.get_put_ne _ _ _ _ _ hj
    · rw [if_neg hw, if_neg (fun hx => hw (by simp [hx.1, hx.2.1, hx.2.2.1]))]

/-- A command is out of its queue, and the next may have its head from a cycle on. -/
def State.headGone (s : State) (core unit : Nat) (c : Cmd) : State :=
  (s.dequeue core unit c.serial).onCtxSt core (fun x => { x with free := NMap.set x.free unit (s.now + 1) })

theorem State.headTaken_eq {unit : Nat} (hu : unit ≠ 3) (s : State) (core : Nat) (c : Cmd) : s.headTaken core unit c
    = if ((s.headGone core unit c).cmdsOf core unit).isEmpty then s.headGone core unit c
      else (s.headGone core unit c).postHead core unit ((s.headGone core unit c).now + 1) :=
  if_neg (fun h => hu h.1)

theorem State.postHead_shape (s : State) (core unit due : Nat) : ∃ po, s.postHead core unit due = { s with posted := po }
    ∧ ∀ x ∈ s.posted, x ∈ po := by
  unfold State.postHead
  split
  · exact ⟨s.posted, rfl, fun _ h => h⟩
  · exact ⟨_, rfl, fun _ h => List.mem_append_left _ h⟩

theorem State.headTaken_shape {unit : Nat} (hu : unit ≠ 3) (s : State) (core : Nat) (c : Cmd) :
    ∃ po, s.headTaken core unit c = { s.headGone core unit c with posted := po } ∧ ∀ x ∈ s.posted, x ∈ po := by
  rw [State.headTaken_eq hu]
  split
  · exact ⟨s.posted, rfl, fun _ h => h⟩
  · exact (s.headGone core unit c).postHead_shape core unit _

theorem State.headGone_core (s : State) (core unit : Nat) (c : Cmd) : (s.headGone core unit c).core core = { s.core core with
    c := { (s.core core).c with
      cmdq := NMap.put [] (s.core core).c.cmdq unit ((s.cmdsOf core unit).filter (fun d => d.serial != c.serial)),
      free := NMap.set (s.core core).c.free unit (s.now + 1) } } := by
  unfold State.headGone State.dequeue
  rw [State.core_onCtxSt_self, State.core_onCtxSt_self]
  rfl

theorem State.postHead_due (s : State) (core unit due : Nat) : (s.postHead core unit due).isDue (· == .ev (headEv core unit)) = true := by
  unfold State.postHead
  split
  · assumption
  · simp only [State.isDue, State.postEv_posted, List.any_append, List.any_cons, BEq.rfl, Bool.true_or, Bool.or_true]

theorem State.headTaken_core {unit : Nat} (hu : unit ≠ 3) (s : State) (core : Nat) (c : Cmd) :
    (s.headTaken core unit c).core core = (s.headGone core unit c).core core := by
  obtain ⟨po, hv, -⟩ := s.headTaken_shape hu core c
  rw [hv]
  rfl

theorem State.headTaken_cmdsOf {unit : Nat} (hu : unit ≠ 3) (s : State) (core : Nat) (c : Cmd) :
    (s.headTaken core unit c).cmdsOf core unit = (s.cmdsOf core unit).filter (fun d => d.serial != c.serial) := by
  unfold State.cmdsOf
  rw [State.headTaken_core hu, State.headGone_core]
  exact NMap.get_put_self _ _ _ _

/-- If commands are left, the head of the next is due. -/
theorem State.headTaken_next {unit : Nat} (hu : unit ≠ 3) (h : ((s.cmdsOf core unit).filter (fun d => d.serial != c.serial)) ≠ []) :
    (s.headTaken core unit c).isDue (· == .ev (headEv core unit)) = true := by
  have hq : (s.headGone core unit c).cmdsOf core unit = (s.cmdsOf core unit).filter (fun d => d.serial != c.serial) := by
    unfold State.cmdsOf
    rw [State.headGone_core]
    exact NMap.get_put_self _ _ _ _
  rw [State.headTaken_eq hu, hq, if_neg (by simpa using h)]
  exact State.postHead_due _ _ _ _

/-- The wait of a command takes nothing but a semaphore. -/
theorem State.takeWait_shape (s : State) (core : Nat) (c : Cmd) : s.takeWait core c = s
    ∨ ∃ sem : CtxSt → NMap Nat, s.takeWait core c = s.onCtxSt core (fun x => { x with sem := sem x }) := by
  unfold State.takeWait
  split
  · split
    · next h _ _ => exact .inr ⟨fun x => NMap.put 0 x.sem h.wsem.toNat (s.sem core h.wsem.toNat - h.wthr.toNat), rfl⟩
    · exact .inl rfl
  · exact .inl rfl

theorem State.takeWait_task (s : State) (core : Nat) (c : Cmd) : ((s.takeWait core c).core core).t = (s.core core).t := by
  obtain h | ⟨sem, h⟩ := s.takeWait_shape core c <;> rw [h]
  rw [State.core_onCtxSt_self]

theorem State.takeWait_cmdsOf (s : State) (core : Nat) (c : Cmd) (n : Nat) : (s.takeWait core c).cmdsOf core n = s.cmdsOf core n := by
  obtain h | ⟨sem, h⟩ := s.takeWait_shape core c <;> rw [h]
  unfold State.cmdsOf
  rw [State.core_onCtxSt_self]

theorem State.takeWait_frame (s : State) (core : Nat) (c : Cmd) :
    (s.takeWait core c).now = s.now ∧ (s.takeWait core c).groups = s.groups := by
  obtain h | ⟨sem, h⟩ := s.takeWait_shape core c <;> rw [h] <;> exact ⟨rfl, rfl⟩

theorem State.takeWait_reads (s : State) (core : Nat) (c : Cmd) : s.SameReads (s.takeWait core c) := by
  obtain h | ⟨sem, h⟩ := s.takeWait_shape core c <;> rw [h]
  · exact .refl s
  · exact .onCtxSt s core _

/-- The rest of a queue keeps its commands when the one at the head leaves. -/
theorem filter_head {q : List Cmd} (hq : q = c :: rest) (hne : ∀ d ∈ rest, d.serial ≠ c.serial) :
    q.filter (fun d => d.serial != c.serial) = rest := by
  subst hq
  rw [List.filter_cons_of_neg (by simp)]
  exact List.filter_eq_self.mpr fun d hd => by simpa using hne d hd

/-- What the head of the group port leaves once its effect has come. -/
theorem State.headTaken_left (hr : headReady s core 7 c rest) {v : State} (hn : v.now = s.now)
    (hk : (s.takeWait core c).keepsUnits v core) : headLeft s (v.headTaken core 7 c) core 7 c rest := by
  obtain ⟨-, -, hq, -, -, -, -, hne, -⟩ := hr
  obtain ⟨hcmds, hsem⟩ := hk
  have hrest : (v.cmdsOf core 7).filter (fun d => d.serial != c.serial) = rest :=
    filter_head ((hcmds 7).trans ((s.takeWait_cmdsOf core c 7).trans hq)) hne
  have hcore := (v.headTaken_core (by decide : 7 ≠ 3) core c).trans (v.headGone_core core 7 c)
  refine ⟨(v.headTaken_cmdsOf (by decide) core c).trans hrest, ?_, fun j => ?_, fun h => ?_⟩
  · rw [hcore, ← hn]
    exact NMap.get_set_self _ _ _ _
  · rw [← s.takeWait_sem core c j, ← hsem j]
    unfold State.sem
    rw [hcore]
  · exact State.headTaken_next (by decide) (hrest ▸ h)

/-! ### The group port (R325, R329) -/

/-- A command of the group port that is ready has its effect, and its group is tested. -/
theorem State.unitHead_group (hr : headReady s core 7 c rest) {v : State} (hv : (s.takeWait core c).groupHead core c = some v) :
    exec (.evCommandHead core 7) s = .next ((v.postEv v.now (.evGroupEnd c.grp)).headTaken core 7 c) := by
  obtain ⟨-, -, hq, hc, hf, -, hw, -⟩ := hr
  have heff : (s.takeWait core c).headEffect core 7 c = some (v.postEv v.now (.evGroupEnd c.grp)) := congrArg (Option.map _) hv
  have hnow : ¬ s.now < max (c.t + c.ins.headDelay) (NMap.get 0 (s.core core).c.free 7) := Nat.not_lt.mpr (Nat.max_le.mpr ⟨hc, hf⟩)
  show Host.Outcome.next (s.unitHead core 7) = _
  unfold State.unitHead
  rw [hq]
  dsimp only
  rw [if_neg hnow, if_neg (by simp), if_neg (by simp [hw]), heff]

/-- The effects of the group port's two commands, once they wait for no access. -/
theorem State.groupHead_takeWait {h : CmdHdr} (hp : s.portClear core c.seq = true) :
    (∀ o, c.ins = .tdep h o → (s.takeWait core c).groupHead core c = some ((s.takeWait core c).post s.now (.tdep core c)))
      ∧ ∀ o, c.ins = .tlaunch h o → (s.takeWait core c).groupHead core c = some ((s.takeWait core c).tlaunchHead core c) := by
  have hp' : ¬ (!(s.takeWait core c).portClear core c.seq) = true := by
    unfold State.portClear
    rw [s.takeWait_task core c]
    simpa [State.portClear] using hp
  have hn := (s.takeWait_frame core c).1
  generalize s.takeWait core c = w at hp' hn
  unfold State.groupHead
  constructor <;> intro o ho <;> rw [if_neg hp', ho]
  rw [hn]

theorem State.keepsUnits.trans {v : State} (h : s.keepsUnits u core) (k : u.keepsUnits v core) : s.keepsUnits v core :=
  ⟨fun n => (k.1 n).trans (h.1 n), fun j => (k.2 j).trans (h.2 j)⟩

/-- What is posted stays posted when a command leaves its queue. -/
theorem State.headTaken_posts {n : Nat} {a : Act} (h : s.hasPosted n a) : (s.headTaken core 7 c).hasPosted n a := by
  obtain ⟨po, hv, hmem⟩ := s.headTaken_shape (by decide : 7 ≠ 3) core c
  rw [hv]
  exact hmem _ h

theorem State.headTaken_groups (s : State) (core : Nat) (c : Cmd) : (s.headTaken core 7 c).groups = s.groups := by
  obtain ⟨po, hv, -⟩ := s.headTaken_shape (by decide : 7 ≠ 3) core c
  rw [hv]
  rfl

theorem State.headTaken_task (s : State) (core : Nat) (c : Cmd) : ((s.headTaken core 7 c).core core).t = (s.core core).t := by
  rw [State.headTaken_core (by decide), State.headGone_core]

/-- What a command of the group port leaves that completes at its head. -/
theorem State.Ended.headDone {v x : State} {code detail : Nat} (hr : headReady s core 7 c rest) (hn : v.now = s.now)
    (ht : (v.core core).t = (s.core core).t) (hk : (s.takeWait core c).keepsUnits v core)
    (he : v.Ended x core c code detail) :
    Machine.headDone s ((x.postEv x.now (.evGroupEnd c.grp)).headTaken core 7 c) core 7 c rest code detail := by
  have hwaits (r : Nat) (h : tokenWaits s core c r) : tokenWaits v core c r := by
    unfold tokenWaits
    rw [ht]
    exact h
  refine ⟨State.headTaken_left hr (he.now.trans hn) (hk.trans he.units), fun r h => ?_, fun h hh hs hc => ?_⟩
  · unfold tokenDone
    rw [State.headTaken_task]
    exact he.token r (hwaits r h)
  · obtain rfl : code = 0 := by simpa using hc
    rw [← hn]
    exact State.headTaken_posts (State.hasPosted_post_of (he.signal h hh hs rfl))

/-! ### `TDEP` at its head (R322, R328) -/

theorem State.tdepHead {h : CmdHdr} {o : Opd} (hr : headReady s core 7 c rest) (hp : s.portClear core c.seq = true) (hi : c.ins = .tdep h o) :
    ∃ u, exec (.evCommandHead core 7) s = .next u ∧ headLeft s u core 7 c rest ∧ u.groups = s.groups
      ∧ u.hasPosted s.now (.tdep core c) ∧ (u.core core).t = (s.core core).t := by
  have hstep := State.unitHead_group hr ((State.groupHead_takeWait hp).1 o hi)
  obtain ⟨hn, hg⟩ := s.takeWait_frame core c
  refine ⟨_, hstep, State.headTaken_left hr hn ⟨fun _ => rfl, fun _ => rfl⟩, ?_, ?_, ?_⟩
  · rw [State.headTaken_groups]
    exact hg
  · exact State.headTaken_posts (State.hasPosted_post_of (State.hasPosted_post (Nat.le_of_eq hn) _))
  · rw [State.headTaken_task]
    exact s.takeWait_task core c

/-! ### `TLAUNCH` at its head (R321, R327) -/

/-- What the checks of a record depend on. -/
theorem State.SameReads.launchRec (h : s.SameReads u) (hb : u.bufOk core = s.bufOk core) (hp : u.padBad = s.padBad)
    (hm : u.padBytes = s.padBytes) (hi : u.issuerPrio core = s.issuerPrio core) (c : Cmd) (g : Group) :
    u.launchRec core c g = s.launchRec core c g := by
  delta State.launchRec
  rw [h.recordOk, hb, hp, hm, hi]

/-- The semaphore a wait takes has no part in the checks of a record. -/
theorem State.launchRec_takeWait (s : State) (core : Nat) (c : Cmd) (g : Group) :
    (s.takeWait core c).launchRec core c g = s.launchRec core c g := by
  have hreads := s.takeWait_reads core c
  obtain h | ⟨sem, h⟩ := s.takeWait_shape core c <;> rw [h] at hreads ⊢
  refine hreads.launchRec ?_ rfl rfl ?_ c g
  · funext x n rd wr
    unfold State.bufOk State.buffersOf
    rw [State.core_onCtxSt_self]
  · funext d
    unfold State.issuerPrio
    rw [State.core_onCtxSt_self]
    rfl

/-- A record is refused: the command ends with the code of the first check that fails. -/
theorem State.tlaunchHead_refused {h : CmdHdr} {o : Opd} {g : Group} {code : Nat} (hr : headReady s core 7 c rest) (hp : s.portClear core c.seq = true)
    (hi : c.ins = .tlaunch h o) (hg : s.group? c.grp = some g) (hl : s.launchRec core c g = .error code) :
    ∃ u, exec (.evCommandHead core 7) s = .next u ∧ headDone s u core 7 c rest code 0 ∧ u.groups = s.groups := by
  have hstep := State.unitHead_group hr ((State.groupHead_takeWait hp).2 o hi)
  obtain ⟨hn, hgs⟩ := s.takeWait_frame core c
  have htask := s.takeWait_task core c
  have hrec := (s.launchRec_takeWait core c g).trans hl
  have hg' : (s.takeWait core c).group? c.grp = some g := by
    unfold State.group?
    rw [hgs]
    exact hg
  have he : (s.takeWait core c).tlaunchHead core c = (s.takeWait core c).endCmd core c code 0 true := by
    unfold State.tlaunchHead
    rw [hg']
    dsimp only
    rw [hrec]
  rw [he] at hstep
  have hend := (s.takeWait core c).endCmd_ended core c code 0
  refine ⟨_, hstep, hend.headDone hr hn htask ⟨fun _ => rfl, fun _ => rfl⟩, ?_⟩
  rw [State.headTaken_groups]
  exact hend.groups.trans hgs

/-- The record `TLAUNCH` adds to its group. -/
def launchedTask (r : List Word) : Task := { recd := r, arg := r.getD 3 0, cnt := recDeps r }

/-- A group after `TLAUNCH` has added its task, before the command completes. -/
def State.launched (s : State) (core : Nat) (c : Cmd) (n : Nat) (r : List Word) : State :=
  let t := (s.padScrub core (c.vals.getD 0 0).toNat 64).onGroup c.grp (fun g => { g with tasks := g.tasks ++ [launchedTask r] })
  t.postEv t.now (.evTaskReady c.grp n)

theorem State.tlaunchHead_eq {g : Group} {r : List Word} (hg : s.group? c.grp = some g) (hl : s.launchRec core c g = .ok r) :
    s.tlaunchHead core c = (s.launched core c g.tasks.length r).endCmd core c 0 g.tasks.length true := by
  unfold State.tlaunchHead
  rw [hg]
  dsimp only
  rw [hl]
  rfl

theorem State.padScrub_cores (s : State) (core x n : Nat) : (s.padScrub core x n).cores = s.cores := by
  unfold State.padScrub
  generalize List.range _ = l
  induction l generalizing s with
  | nil => rfl
  | cons i l ih =>
    rw [List.foldl_cons, ih]
    dsimp only
    split <;> rfl

theorem State.launched_shape (s : State) (core : Nat) (c : Cmd) (n : Nat) (r : List Word) :
    ∃ gr, s.launched core c n r
      = ({ s.padScrub core (c.vals.getD 0 0).toNat 64 with groups := gr } : State).postEv (s.padScrub core (c.vals.getD 0 0).toNat 64).now
          (.evTaskReady c.grp n) := by
  obtain ⟨gr, h⟩ := (s.padScrub core (c.vals.getD 0 0).toNat 64).onGroup_shape c.grp (fun g => { g with tasks := g.tasks ++ [launchedTask r] })
  refine ⟨gr, ?_⟩
  unfold State.launched
  rw [h]

theorem State.launched_core (s : State) (core : Nat) (c : Cmd) (n : Nat) (r : List Word) (k : Nat) : (s.launched core c n r).core k = s.core k := by
  obtain ⟨gr, h⟩ := s.launched_shape core c n r
  rw [h]
  unfold State.core
  exact congrArg (fun cs => NMap.get {} cs k) (s.padScrub_cores core _ 64)

theorem State.launched_now (s : State) (core : Nat) (c : Cmd) (n : Nat) (r : List Word) : (s.launched core c n r).now = s.now := by
  obtain ⟨gr, h⟩ := s.launched_shape core c n r
  rw [h]
  exact congrArg SchedView.now (sched_padScrub s core (c.vals.getD 0 0).toNat 64)

theorem State.launched_posts (s : State) (core : Nat) (c : Cmd) (n : Nat) (r : List Word) :
    (s.launched core c n r).hasPosted s.now (.ev (.evTaskReady c.grp n)) := by
  have hn := s.launched_now core c n r
  obtain ⟨gr, h⟩ := s.launched_shape core c n r
  rw [h] at hn ⊢
  rw [← hn]
  exact State.hasPosted_post (Nat.le_refl _) _

theorem State.launched_group {g : Group} {r : List Word} (hg : s.group? c.grp = some g) (n : Nat) :
    (s.launched core c n r).group? c.grp = some { g with tasks := g.tasks ++ [launchedTask r] } := by
  have hv : (s.padScrub core (c.vals.getD 0 0).toNat 64).group? c.grp = some g := by
    unfold State.group?
    rw [State.groups_of_sched (sched_padScrub s core (c.vals.getD 0 0).toNat 64)]
    exact hg
  exact State.group_onGroup_self _ c.grp _ g hv

theorem State.tlaunchHead_launches {h : CmdHdr} {o : Opd} {g : Group} {r : List Word} (hr : headReady s core 7 c rest)
    (hp : s.portClear core c.seq = true) (hi : c.ins = .tlaunch h o) (hg : s.group? c.grp = some g) (hl : s.launchRec core c g = .ok r) :
    ∃ u, exec (.evCommandHead core 7) s = .next u ∧ headDone s u core 7 c rest 0 g.tasks.length
      ∧ u.task? c.grp g.tasks.length = some (launchedTask r) ∧ (∀ i, i < g.tasks.length → u.task? c.grp i = s.task? c.grp i)
      ∧ u.hasPosted s.now (.ev (.evTaskReady c.grp g.tasks.length)) := by
  have hstep := State.unitHead_group hr ((State.groupHead_takeWait hp).2 o hi)
  obtain ⟨hn, hgs⟩ := s.takeWait_frame core c
  have htask := s.takeWait_task core c
  have hrec := (s.launchRec_takeWait core c g).trans hl
  have hg' : (s.takeWait core c).group? c.grp = some g := by
    unfold State.group?
    rw [hgs]
    exact hg
  rw [State.tlaunchHead_eq hg' hrec] at hstep
  have hgroup := State.launched_group (core := core) (r := r) hg' g.tasks.length
  have hposts := (s.takeWait core c).launched_posts core c g.tasks.length r
  have hnow := ((s.takeWait core c).launched_now core c g.tasks.length r).trans hn
  have hcore := (s.takeWait core c).launched_core core c g.tasks.length r core
  have hunits := State.keepsUnits_of_core (congrArg Core.c hcore)
  generalize (s.takeWait core c).launched core c g.tasks.length r = v at hstep hgroup hposts hnow hcore hunits
  have hend := v.endCmd_ended core c 0 g.tasks.length
  have hu : (((v.endCmd core c 0 g.tasks.length true).postEv (v.endCmd core c 0 g.tasks.length true).now (.evGroupEnd c.grp)).headTaken
      core 7 c).group? c.grp = some { g with tasks := g.tasks ++ [launchedTask r] } := by
    unfold State.group?
    rw [State.headTaken_groups]
    exact (congrArg (NMap.find · c.grp) hend.groups).trans hgroup
  refine ⟨_, hstep, hend.headDone hr hnow ((congrArg Core.t hcore).trans htask) hunits, ?_, fun i hlt => ?_, ?_⟩
  · rw [State.task?_of hu]
    simp
  · rw [State.task?_of hu, State.task?_of hg, List.getElem?_append_left hlt]
  · exact State.headTaken_posts (State.hasPosted_post_of (hend.posted _ _ (hn ▸ hposts)))

end Sys2Proof.Machine
end

section
/-!
PROOF. The events of the scheduler, each by the state its function leaves.
-/

namespace Sys2Proof.Machine

variable {s : State} {gk core i : Nat} {g : Group} {t : Task}

/-! ### Tasks (R26, R323) -/

/-- A task that is ready when it is tested waits for its core from now on. -/
theorem State.taskReady_makes (hg : s.group? gk = some g) (ht : g.tasks[i]? = some t)
    (h : t.st = .listed ∧ t.cnt = 0 ∧ g.ended = false ∧ (s.context g.ctx).st = .active
      ∧ s.waitsHold (recCore (g.ctx / 64) t.recd) t.recd = true) :
    onlyTaskRec s (s.taskReady gk i) gk i { t with st := .ready, readyAt := s.now }
      ∧ (s.taskReady gk i).hasPosted s.now (.ev (.evTaskGrant (recCore (g.ctx / 64) t.recd))) := by
  rw [State.taskReady_eq hg ht, if_pos h]
  refine ⟨onlyTaskRec_post ((State.task?_of hg).trans ht) _ _ _, State.hasPosted_post ?_ _⟩
  obtain ⟨gr, hs⟩ := s.onTaskRec_shape gk i (fun t => { t with st := .ready, readyAt := s.now })
  rw [hs]

/-- A core that is free starts the task it has chosen. -/
theorem State.taskGrant_starts {w : Waiting} (ha : (s.context (s.ctxOf core)).st = .active) (hx : (s.core core).ctx ≠ none)
    (hc : s.chosen core = some w) (hm : (s.core core).t.mode = .none) (ht : (s.die (dieOf core)).throttled = false)
    (hs : w.susp = false) (hf : s.coreFree core = true) : s.taskGrant core = s.startTask core w.gk w.idx := by
  rw [State.taskGrant_eq ha hx hc hm ht, if_pos hf, State.grantTo, if_neg (by simp [hs])]

/-- A task that retires and has nothing left is DONE, and so is its core. -/
theorem State.taskDone_ends (hm : (s.core core).t.mode = .retiring) (hr : s.retired core = true) : s.taskDone core = s.endTask core := by
  rw [State.taskDone_eq hm (by simp [State.retired_late hr]), if_pos hr]

/-! ### The end of a group (R330) -/

/-- A group that has ended: what its completion record and a later test read. -/
theorem State.closeGroup_ended (hg : s.group? gk = some g) :
    ∃ g', (s.closeGroup gk).group? gk = some g' ∧ g'.ended = true ∧ g'.tasks = g.tasks ∧ g'.cpl = g.cpl := by
  obtain ⟨a, b, c, h⟩ := Group.settleIdle_shape { g with ended := true } s.now
  exact ⟨_, State.closeGroup_group hg, by rw [h], by rw [h], by rw [h]⟩

theorem State.closeGroup_now (s : State) (gk : Nat) : (s.closeGroup gk).now = s.now := by
  obtain ⟨gr, os, h⟩ := s.closeGroup_shape gk
  rw [h]

/-- A group that asked for it has its completion record once all it reports is written. -/
theorem State.reportGroup_eq (s : State) (gk : Nat) (g : Group) : s.reportGroup gk g
    = if g.cpl = false then s
      else if s.groupWritten gk = false then s.postEv (s.now + 1) (.evGroupEnd gk)
      else (s.onGroup gk (fun z => { z with cpl := false })).writeCompletion g.ctx g.crec g.tag g.outcome.1 g.gid g.outcome.2 := by
  unfold State.reportGroup
  simp only [Bool.not_eq_true']
  rfl

/-- The test of a group, by what has come of it. -/
theorem exec_groupEnd (hg : s.group? gk = some g) : exec (.evGroupEnd gk) s
    = .next (if g.ended then s.reportGroup gk g else if s.groupOver gk g then s.endGroup gk g else s) := by
  show Host.Outcome.next (match s.group? gk with | some g => _ | none => _) = _
  rw [hg]

/-! ### Launch queues (R315, R318, R319) -/

theorem State.postIntake_launchQ (s : State) (die k : Nat) : (s.postIntake die).launchQ k = s.launchQ k := by
  obtain ⟨po, fr, h⟩ := s.postIntake_shape die
  rw [h]
  rfl

theorem State.packetTake_none {die : Nat} (h : s.pickQueue die = none) : s.packetTake die = s := by
  unfold State.packetTake
  rw [h]

/-- The argument of a launched task is the record's and the packet's together. -/
theorem packetTasks_eq (w : List Word) (o : CodeObj) :
    packetTasks w o = o.recs.map (fun r => { recd := r, arg := r.getD 3 0 + w.getD 3 0, cnt := recDeps r }) := by
  unfold packetTasks word
  rw [BitVec.ofNat_toNat, BitVec.setWidth_eq]

/-! ### Pre-emption (R337) -/

section
variable {w : Waiting}

/-- What the statement asks of a core for a pre-emption to be decided on it. -/
theorem State.preempts_of (hx : (s.context (s.ctxOf core)).st = .active)
    (hc : ((s.core core).t.mode = .running ∨ (s.core core).t.mode = .held ∨ (s.core core).t.mode = .brk ∨ (s.core core).t.mode = .parked)
      ∧ (s.die (dieOf core)).throttled = false)
    (hd : (s.core core).t.drainAt ≤ s.now) (hw : s.newcomer core = some w) : s.Preempts core w :=
  ⟨hx, (TaskMode.preemptible_iff _).mpr hc.1, hc.2, hd, hw⟩

/-- Whether the first row applies at a decision. -/
theorem State.short_iff (s : State) (core : Nat) (w : Waiting) : s.short core (s.drained core w)
    ↔ ¬ ((s.core core).t.drainAt ≠ 0 ∧ (s.now = (s.core core).t.drainAt ∨ (s.core core).decided.take 2 = [w.gk, w.idx]))
      ∧ (s.core core).t.estAt s.now ≤ (s.context (s.ctxOf core)).drain := by
  unfold State.short
  rw [← State.drained_iff, Bool.not_eq_true]

/-- A newcomer that is new has its row of the table applied. -/
theorem State.preemptDecide_new (h : s.Preempts core w) (hn : (s.core core).decided ≠ s.decidedOn core w) :
    s.preemptDecide core = (s.decideOn core w).preempt core w (s.drained core w) :=
  (State.preemptDecide_eq h).trans (if_neg hn)

/-- The first row and the last, at a decision: the task drains, or it is decided again. -/
theorem State.preemptDecide_short (h : s.Preempts core w) (hn : (s.core core).decided ≠ s.decidedOn core w)
    (hs : s.short core (s.drained core w)) : s.preemptDecide core = ((s.decideOn core w).onCore core (fun c => { c with
        resv := some (w.gk, w.idx), t := { c.t with drainAt := s.now + (s.context (s.ctxOf core)).drain } })).postEv
          (s.now + (s.context (s.ctxOf core)).drain) (.evDrainLimit core) := by
  have hrow := ((s.decideOn core w).preempt_rows core w (s.drained core w)).1 ((s.decideOn_short core w _).mpr hs)
  rw [State.decideOn_ctxOf, State.decideOn_context, State.decideOn_now] at hrow
  exact (State.preemptDecide_new h hn).trans hrow

theorem State.preemptDecide_waits (h : s.Preempts core w) (hn : (s.core core).decided ≠ s.decidedOn core w)
    (hs : ¬ s.short core (s.drained core w)) (hf : ¬ s.slotFree core) (hk : ¬ s.mayKill core) :
    s.preemptDecide core = (s.decideOn core w).postEv (s.now + 1) (.evPreemptionDecision core) := by
  obtain ⟨-, -, -, hrow⟩ := (s.decideOn core w).preempt_rows core w (s.drained core w)
  rw [State.decideOn_short, State.decideOn_slotFree, State.decideOn_mayKill] at hrow
  exact (State.preemptDecide_new h hn).trans (hrow hs hf hk)

end

/-! ### The watchdog of a task (R343) -/

/-- The counter of a task is read. -/
theorem State.watchdog_task {ctx : Nat} (hg : s.group? gk = some g) (hi : i ≠ 0xFFFFF) (ht : g.tasks[i]? = some t) :
    s.watchdog ctx gk i = s.taskWatchdog ctx gk i (2 ^ (s.context ctx).wdlog) (recCore (ctx / 64) t.recd) := by
  unfold State.watchdog
  rw [hg]
  dsimp only
  rw [if_neg hi, ht]

/-- The counter of a group is read. -/
theorem State.watchdog_group {ctx : Nat} (hg : s.group? gk = some g) :
    s.watchdog ctx gk 0xFFFFF = s.groupWatchdog ctx gk (2 ^ (s.context ctx).wdlog) g := by
  unfold State.watchdog
  rw [hg]
  rfl

/-! ### Clock gating (R23) -/

section
variable {die yard : Nat}

/-- A yard that is found idle for the first time is looked at again after the time of R23. -/
theorem State.yardGate_begins (h : s.YardFree die yard) (hi : s.yardIdle die yard = true) (hs : NMap.find (s.die die).idleSince yard = none) :
    s.yardGate die yard
      = (s.onDie die (fun d => { d with idleSince := NMap.set d.idleSince yard s.now })).lookAgain die yard (s.now + 4096) := by
  rw [State.yardGate_idle h hi, hs]
  rfl

/-- A yard that has been idle for that time has its clock gated. -/
theorem State.yardGate_gates {n : Nat} (h : s.YardFree die yard) (hi : s.yardIdle die yard = true)
    (hs : NMap.find (s.die die).idleSince yard = some n) (hn : n + 4096 ≤ s.now) :
    s.yardGate die yard
      = s.onDie die (fun d => { d with gated := NMap.set d.gated yard true, idleSince := NMap.erase d.idleSince yard }) := by
  rw [State.yardGate_idle h hi, hs]
  exact if_pos hn

end

end Sys2Proof.Machine

open Sys2Proof Sys2Proof.Machine

/-- Settles O54, clause by clause in the order of the statement. -/
theorem schedulerEvents : Obligations.SchedulerEvents := by
  intro s gk g core ctx q hg now
  refine ⟨?ready, ?order, ?grantIdle, ?grant, ?done, ?groupEnd, ?heads, ?tail, ?takeNone, ?take, ?preempt, ?refill, ?watchdog, ?gate⟩
  case ready =>
    intro i t ht n ready
    have hready : ready ↔ t.st = .listed ∧ t.cnt = 0 ∧ g.ended = false ∧ (s.context g.ctx).st = .active ∧ s.waitsHold n t.recd = true := by
      rw [State.waitsHold_iff]
    rw [hready]
    exact ⟨fun h => ⟨_, rfl, State.taskReady_makes hg ht h⟩, fun h => congrArg Host.Outcome.next ((State.taskReady_eq hg ht).trans (if_neg h))⟩
  case order =>
    intro w hr hw
    rw [State.chosen_unreserved hr] at hw
    exact bestOf_first hw
  case grantIdle => exact fun h => congrArg Host.Outcome.next (State.taskGrant_idle h)
  case grant =>
    rintro w i t ha hx hc rfl rfl ht hsusp hm hcool
    refine ⟨fun hf => congrArg Host.Outcome.next ((State.taskGrant_eq ha hx hc hm hcool).trans (if_neg (by simp [hf]))), ?_⟩
    intro hf hitems asleep
    obtain ⟨due, ⟨htask, hrecd, hissue, hwatch⟩, hlo, hhi⟩ := State.startTask_begins (core := core) hg ht hitems
    obtain ⟨h0, h1, h2⟩ := freshTask_args (s.core core).t core w.gk w.idx g.gid (g.entry t) s.now t
    refine ⟨_, due, congrArg Host.Outcome.next (State.taskGrant_starts ha hx hc hm hcool hsusp hf), ?_⟩
    rw [htask]
    exact ⟨rfl, rfl, rfl, rfl, h0, h1, h2, fun _ h h' => freshTask_scalar (s.core core).t core w.gk w.idx g.gid (g.entry t) s.now t h h', rfl,
      freshTask_vector (s.core core).t core w.gk w.idx g.gid (g.entry t) s.now t, hrecd, hlo, hhi, hissue, hwatch⟩
  case done =>
    intro t mine
    refine ⟨fun hm => congrArg Host.Outcome.next (if_pos hm), fun hm hl hr => ?_, fun y hm hr ht hy => ?_⟩
    · exact congrArg Host.Outcome.next ((State.taskDone_eq hm hl).trans (if_neg (by simp [hr])))
    · obtain ⟨hmode, htask, hend, hgone, hpass⟩ := State.endTask_ends hr ht rfl ((State.task?_of hg).trans hy)
      refine ⟨_, congrArg Host.Outcome.next (State.taskDone_ends hm hr), hmode, htask, hend, fun k o ho hmine => ?_, fun k o ho hmine => ?_⟩
      · exact Bool.false_ne_true ((hgone k o ho).symm.trans ((Op.ownedBy_iff o gk t.idx).mpr hmine))
      · exact hpass k o ho ((Op.ownedBy_iff o gk t.idx).mpr hmine)
  case groupEnd =>
    intro isOver status told
    have hover : s.groupOver gk g = true ↔ isOver := State.groupOver_iff s gk g
    have htold {u : State} (hu : u.now = s.now) : u.reportGroup gk g = told u := by
      rw [State.reportGroup_eq, hu]
      rfl
    rw [exec_groupEnd hg]
    refine ⟨fun he => ?_, fun he ho => ?_, fun he ho => ?_⟩
    · rw [if_pos he, htold rfl]
    · rw [if_neg (by simp [he]), if_neg (mt hover.mp ho)]
    · obtain ⟨g', hg', hended, htasks, hcpl⟩ := State.closeGroup_ended hg
      rw [if_neg (by simp [he]), if_pos (hover.mpr ho), State.endGroup_eq, htold (s.closeGroup_now gk)]
      exact ⟨s.closeGroup gk, g', rfl, s.closeGroup_shape gk, hg', hended, htasks, hcpl, s.closeGroup_ops gk⟩
  case heads =>
    intro c rest h o hr hc hp
    subst hc
    exact ⟨fun hi => State.tdepHead hr hp hi, fun code hi hl => State.tlaunchHead_refused hr hp hi hg hl,
      fun r hi hl => State.tlaunchHead_launches hr hp hi hg hl⟩
  case tail =>
    intro v src hq k l d good isQ by_ cut held
    refine ⟨fun ⟨n, hn, hlost⟩ => congrArg Host.Outcome.next (State.tailArrives_lost hn hlost), fun hc hh hb => ?_, fun hc hh hgood => ?_⟩
    · refine ⟨_, _, congrArg Host.Outcome.next ((State.tailArrives_arrives hq hc hh).trans (State.tailWrite_overflows hb)), rfl, fun j => ?_⟩
      exact s.launchQ_onLaunch k j _
    · refine ⟨_, congrArg Host.Outcome.next ((State.tailArrives_arrives hq hc hh).trans (State.tailWrite_announces hgood)), ?_,
        State.postIntake_due _ _, ?_⟩
      · intro j
        rw [State.postIntake_launchQ, s.launchQ_onLaunch]
      · obtain ⟨po, fr, hu⟩ := (s.onLaunch k (fun l =>
          { l with tail := v.toNat, srcs := l.srcs ++ [(v.toNat, src.map BitVec.toNat)] })).postIntake_shape (ctx / 64)
        exact ⟨po, fr, _, hu⟩
  case takeNone =>
    intro die hk
    exact congrArg Host.Outcome.next (State.packetTake_none hk)
  case take =>
    intro die key hk l v
    refine ⟨⟨_, rfl, State.packetTake_head hk⟩, ?_⟩
    intro bs hs hr w
    refine ⟨fun hb => ⟨_, rfl, State.packetTake_bad hk hs hr hb⟩, ?_⟩
    intro o hb hm _ ho gid
    obtain ⟨z, hz, hctx, hgid, hqueue, htasks, hposts, hwatch⟩ := State.packetTake_creates hk hs hr hb hm ho
    exact ⟨_, z, rfl, hz, hctx, hgid, hqueue, htasks.trans (packetTasks_eq w o), hposts, hwatch⟩
  case preempt =>
    intro t x can
    have hcan : (t.mode.preemptible = true ∧ (s.die (dieOf core)).throttled = false) ↔ can := by rw [TaskMode.preemptible_iff]
    refine ⟨fun h => congrArg Host.Outcome.next (State.preemptDecide_idle (by rw [hcan]; exact h)),
      fun ha hm hr => congrArg Host.Outcome.next (State.preemptDecide_saves ha hm hr), fun hd => congrArg Host.Outcome.next (if_pos hd),
      fun w ha hc hd hw hsame => ?same, fun w ha hc hd hw hnew => ?rows⟩
    case same => exact congrArg Host.Outcome.next ((State.preemptDecide_eq (State.preempts_of ha hc hd hw)).trans (if_pos hsame))
    case rows =>
      intro z drained short slot kill
      have hp := State.preempts_of ha hc hd hw
      have hshort : s.short core (s.drained core w) ↔ short := s.short_iff core w
      refine ⟨fun h => congrArg Host.Outcome.next (State.preemptDecide_short hp hnew (hshort.mpr h)), fun e he => ?_⟩
      rw [exec_preempts he]
      refine ⟨fun hs hf => ?saves, fun hs hf hk y ht hy hyd hyk hrec => ?kills, fun hs hf hk => ?waits⟩
      case saves =>
        refine ⟨_, rfl, ?_⟩
        rw [State.preemptDecide_new hp hnew]
        exact State.preempt_saves hp (mt hshort.mp hs) hf
      case kills =>
        obtain ⟨hmode, htok, ⟨y', htask, hst, hcnt, hrecd⟩, hposts⟩ := State.preempt_kills hp (mt hshort.mp hs) hf hk hg ht hy hyd hyk hrec
        exact ⟨_, y', congrArg Host.Outcome.next (State.preemptDecide_new hp hnew), hmode, htok, htask, hst, hcnt, hrecd, hposts⟩
      case waits => exact congrArg Host.Outcome.next (State.preemptDecide_waits hp hnew (mt hshort.mp hs) hf hk)
  case refill =>
    obtain ⟨po, cx, h⟩ := s.tokenRefill_shape ctx
    exact ⟨_, rfl, ⟨po, cx, h⟩, s.tokenRefill_context ctx, State.hasPosted_post (Nat.le_add_right _ _) _⟩
  case watchdog =>
    intro limit count
    have hwatch : exec (.evWatchdog ctx gk 0xFFFFF) s = .next (s.groupWatchdog ctx gk limit g) := congrArg Host.Outcome.next (State.watchdog_group hg)
    rw [hwatch]
    refine ⟨fun he => congrArg Host.Outcome.next (if_pos he), fun he hl => ?late, fun he hl => ?again, ?task⟩
    case late => exact congrArg Host.Outcome.next ((if_neg (by simp [he])).trans (if_pos hl))
    case again => exact congrArg Host.Outcome.next ((if_neg (by simp [he])).trans (if_neg (Nat.not_le.mpr hl)))
    case task =>
      intro i y hi hy n t from_
      have htask : exec (.evWatchdog ctx gk i) s = .next (s.taskWatchdog ctx gk i limit n) :=
        congrArg Host.Outcome.next (State.watchdog_task hg hi hy)
      rw [htask]
      refine ⟨fun hon => congrArg Host.Outcome.next (if_pos (by simp [show (s.core n).t.isTask gk i = false from hon])), fun hon hl => ?_,
        fun hon hl => ?_, TaskSt.brkClear_of_not, fun b code hb hd hl hn => TaskSt.brkClear_counts hb hd hl hn⟩
      · exact congrArg Host.Outcome.next ((State.taskWatchdog_of_task hon).trans (if_pos hl))
      · exact congrArg Host.Outcome.next ((State.taskWatchdog_of_task hon).trans (if_neg (Nat.not_le.mpr hl)))
  case gate =>
    intro die yard hy d on tasks one
    have hexec : exec (.evYardGate die yard) s = .next (s.yardGate die yard) := by
      rw [show exec (.evYardGate die yard) s = .next (s.yardGate die (yard % 4)) from rfl, Nat.mod_eq_of_lt hy]
    rw [hexec]
    refine ⟨fun h => congrArg Host.Outcome.next (State.yardGate_stays h), fun hon ht hi => ?works, fun hon ht hi hs => ?since,
      fun t hon ht hi hs hl => ?gated⟩
    case works => exact ⟨_, congrArg Host.Outcome.next (State.yardGate_works ⟨hon, ht⟩ hi), s.onDie_lookAgain die yard _ _ (Nat.le_add_right _ _)⟩
    case since =>
      exact ⟨_, congrArg Host.Outcome.next (State.yardGate_begins ⟨hon, ht⟩ hi hs), s.onDie_lookAgain die yard _ _ (Nat.le_add_right _ _)⟩
    case gated =>
      refine ⟨_, congrArg Host.Outcome.next (State.yardGate_gates ⟨hon, ht⟩ hi hs hl), ⟨_, rfl⟩, ?_, fun y hne => ?_⟩
      · rw [State.die_onDie_self]
        exact NMap.get_set_self _ _ _ _
      · rw [State.die_onDie_self]
        exact NMap.get_set_ne _ _ _ _ _ hne

end

section
/-!
PROOF. Flags, the estimate and the priority of a task (R40, R116 to R118): what a bay that reads its sources and then changes one of them
leaves alone, and what the change does.
-/

namespace Sys2Proof.Machine

/-! ### A bay that changes the task but no register -/

/-- A bay's reads and what is posted change no register, nothing of the task but its late faults, and no storage. -/
theorem bayReads.quiet {s t : State} (h : bayReads s t) : quiet s t [] := by
  obtain ⟨⟨_, _, _, _, rfl⟩, hdie, hne, la, da, q, hcore, _⟩ := h
  have hme : (State.me { s with posted := _, dies := _, padErr := _, cores := _ }) = { s.me with late := la, dataAt := da } :=
    congrArg Core.t hcore
  refine ⟨⟨fun k _ _ => ?_, fun k _ _ => ?_, fun i _ => ?_⟩, ?_, ⟨⟨_, _, _, _, _, _, _, rfl⟩, hdie, hne, q, ?_⟩, fun _ => rfl⟩
  · rw [hme]; rfl
  · rw [hme]; rfl
  · rw [hme]; rfl
  · unfold keepsTask
    rw [hme]
    exact TaskSt.onlyRegs.late _ la da
  · rw [hcore]

/-- A change of the executing core's task that sees neither its late faults nor the cycle of its data commutes with a bay's reads. -/
theorem bayReads.onTask {s t : State} (h : bayReads s t) (f : TaskSt → TaskSt)
    (hf : ∀ (k : TaskSt) la da, f { k with late := la, dataAt := da } = { f k with late := la, dataAt := da }) :
    bayReads (s.onTask s.cur f) (t.onTask s.cur f) := by
  obtain ⟨⟨_, _, _, _, rfl⟩, hdie, hne, la, da, q, hcore, hq⟩ := h
  refine ⟨⟨_, _, _, _, rfl⟩, hdie, fun n hn => ?_, la, da, q, ?_, fun k => ?_⟩
  · exact (State.core_onTask_ne _ _ _ _ hn).trans ((hne n hn).trans (State.core_onTask_ne _ _ _ _ hn).symm)
  · rw [State.onTask_cur, State.core_onTask_self, State.core_onTask_self, hcore, hf]
  · rw [State.onTask_cur, State.core_onTask_self]
    exact hq k

/-- What a change of a task makes of it is all that counts. -/
theorem State.onTask_congr (s : State) (n : Nat) {f g : TaskSt → TaskSt} (h : f (s.core n).t = g (s.core n).t) :
    s.onTask n f = s.onTask n g := by
  simp only [State.onTask, State.onCore, h]

/-- A bay's reads, and then a change of the task that sets some of its fields to what `f` sets them to. -/
theorem bayReads.onTask_sets {s t : State} (h : bayReads s t) {f g : TaskSt → TaskSt} (hfg : g t.me = f t.me)
    (hf : ∀ (k : TaskSt) la da, f { k with late := la, dataAt := da } = { f k with late := la, dataAt := da }) :
    bayReads (s.onTask s.cur f) (t.onTask s.cur g) := by
  rw [t.onTask_congr s.cur (g := f) (by rw [← h.cur_eq]; exact hfg)]
  exact h.onTask f hf

/-- The same where an event is posted beside the change. -/
theorem bayReads.onTask_sets_postEv {s t : State} (h : bayReads s t) {f g : TaskSt → TaskSt} (c : Nat) (i : Instr)
    (hfg : g t.me = f t.me)
    (hf : ∀ (k : TaskSt) la da, f { k with late := la, dataAt := da } = { f k with late := la, dataAt := da }) :
    bayReads (s.onTask s.cur f) ((t.onTask s.cur g).postEv c i) :=
  (h.onTask_sets hfg hf).trans (bayReads.posts _ _ _)

/-- A change of the executing core's task after a bay's reads. -/
theorem bayReads.me_onTask {s t : State} (h : bayReads s t) (f : TaskSt → TaskSt) : (t.onTask s.cur f).me = f t.me :=
  h.cur_eq ▸ State.me_onTask t f

theorem bayReads.me_onTask_postEv {s t : State} (h : bayReads s t) (f : TaskSt → TaskSt) (c : Nat) (i : Instr) :
    ((t.onTask s.cur f).postEv c i).me = f t.me :=
  h.me_onTask f

/-- The task after a bay's reads. -/
theorem bayReads.me_eq {s t : State} (h : bayReads s t) : ∃ la da, t.me = { s.me with late := la, dataAt := da } := by
  have hcur := h.cur_eq
  obtain ⟨_, _, _, la, da, _, hcore, _⟩ := h
  refine ⟨la, da, ?_⟩
  rw [State.me, hcur, hcore]
  rfl

/-! ### The flags of a task -/

/-- Whether a flag is among those that land in a span of cycles. -/
theorem landed_getLsbD (q : List (Nat × BitVec 5)) (a b i : Nat) :
    (landed q a b).getLsbD i = true ↔ ∃ e ∈ q, a ≤ e.1 ∧ e.1 ≤ b ∧ e.2.getLsbD i = true := by
  have run (acc : BitVec 5) : (q.foldl (fun acc e => if a ≤ e.1 ∧ e.1 ≤ b then acc ||| e.2 else acc) acc).getLsbD i = true ↔
      acc.getLsbD i = true ∨ ∃ e ∈ q, a ≤ e.1 ∧ e.1 ≤ b ∧ e.2.getLsbD i = true := by
    induction q generalizing acc with
    | nil => simp
    | cons e q ih =>
      rw [List.foldl_cons, ih]
      by_cases h : a ≤ e.1 ∧ e.1 ≤ b
      · simp [h, or_assoc]
      · have hno : ¬ (a ≤ e.1 ∧ e.1 ≤ b ∧ e.2.getLsbD i = true) := fun k => h ⟨k.1, k.2.1⟩
        simp [h, hno]
  refine (run 0).trans ?_
  simp

/-- No flag lands before the cycle from which all of them are due. -/
theorem landed_eq_zero {q : List (Nat × BitVec 5)} {a b : Nat} (h : ∀ e ∈ q, b < e.1) : landed q a b = 0 := by
  refine BitVec.eq_of_getLsbD_eq (fun i _ => ?_)
  rw [Bool.eq_iff_iff, landed_getLsbD]
  simp only [BitVec.ofNat_eq_ofNat, BitVec.getLsbD_zero, Bool.false_eq_true, iff_false]
  rintro ⟨e, he, _, hle, _⟩
  exact absurd (h e he) (Nat.not_lt.mpr hle)

/-- The flags that are still to land once a task's flags are brought up to a cycle. -/
theorem TaskSt.settleFlags_flagq (t : TaskSt) (now : Nat) :
    (t.settleFlags now).flagq = t.flagq.filter (fun e => decide (now < e.1)) := by
  unfold TaskSt.settleFlags
  split
  · split <;> rfl
  · rfl

/-- The flags with no write of them under way, or before it takes effect. -/
theorem TaskSt.flagsAt_of_unset {t : TaskSt} {now : Nat} (h : ∀ c v, t.flagSet = some (c, v) → now < c) :
    t.flagsAt now = t.fflags ||| landed t.flagq 0 now := by
  unfold TaskSt.flagsAt TaskSt.settleFlags
  cases hs : t.flagSet with
  | none => rfl
  | some e => simp only [if_neg (Nat.not_le.mpr (h e.1 e.2 hs))]

/-- The flags from the cycle on in which a write of them takes effect. -/
theorem TaskSt.flagsAt_of_set {t : TaskSt} {now c : Nat} {v : BitVec 5} (h : t.flagSet = some (c, v)) (hc : c ≤ now) :
    t.flagsAt now = v ||| landed t.flagq c now := by
  unfold TaskSt.flagsAt TaskSt.settleFlags
  simp only [h, if_pos hc]

/-- Three fields of a task say what its flags are. -/
theorem TaskSt.flagsAt_congr {t u : TaskSt} (now : Nat) (hs : t.flagSet = u.flagSet) (hq : t.flagq = u.flagq)
    (hf : t.fflags = u.fflags) : t.flagsAt now = u.flagsAt now := by
  by_cases h : ∀ c v, u.flagSet = some (c, v) → now < c
  · rw [TaskSt.flagsAt_of_unset h, TaskSt.flagsAt_of_unset (hs ▸ h), hq, hf]
  · push Not at h
    obtain ⟨c, v, hset, hc⟩ := h
    rw [TaskSt.flagsAt_of_set hset hc, TaskSt.flagsAt_of_set (hs.trans hset) hc, hq]

/-- A write of the flags is not seen in its own cycle (R40). -/
theorem TaskSt.flagsAt_writeFlags (t : TaskSt) (now : Nat) (v : BitVec 5) : (t.writeFlags now v).flagsAt now = t.flagsAt now := by
  have hq : landed (t.settleFlags now).flagq 0 now = 0 := by
    refine landed_eq_zero (fun e he => ?_)
    rw [TaskSt.settleFlags_flagq] at he
    exact of_decide_eq_true (List.mem_filter.mp he).2
  have hset : (t.writeFlags now v).flagSet = some (now + 1, v) := rfl
  rw [TaskSt.flagsAt_of_unset (fun c w h => ?_)]
  · exact (congrArg _ hq).trans BitVec.or_zero
  · obtain ⟨rfl, -⟩ := Prod.mk.inj (Option.some.inj (hset.symm.trans h))
    exact Nat.lt_succ_self now

/-- In the next cycle the flags are those written, with those that land in it (R40). -/
theorem TaskSt.flagsAt_succ_writeFlags (t : TaskSt) (now : Nat) (v : BitVec 5) :
    (t.writeFlags now v).flagsAt (now + 1) = v ||| landed (t.flagq.filter (fun e => decide (now < e.1))) (now + 1) (now + 1) := by
  rw [← TaskSt.settleFlags_flagq]
  exact TaskSt.flagsAt_of_set rfl (Nat.le_refl _)

/-- A flag after a write: it was written, or it lands in the next cycle. -/
theorem TaskSt.flagsAt_succ_writeFlags_getLsbD (t : TaskSt) (now i : Nat) (v : BitVec 5) :
    ((t.writeFlags now v).flagsAt (now + 1)).getLsbD i = true ↔
      v.getLsbD i = true ∨ ∃ e ∈ t.flagq, e.1 = now + 1 ∧ e.2.getLsbD i = true := by
  rw [TaskSt.flagsAt_succ_writeFlags, BitVec.getLsbD_or, Bool.or_eq_true, landed_getLsbD]
  refine or_congr_right ⟨fun ⟨e, he, hlo, hhi, hi⟩ => ⟨e, (List.mem_filter.mp he).1, Nat.le_antisymm hhi hlo, hi⟩,
    fun ⟨e, he, heq, hi⟩ => ⟨e, List.mem_filter.mpr ⟨he, by simp [heq]⟩, heq.ge, heq.le, hi⟩⟩

/-- A write of the flags changes their three fields. -/
theorem TaskSt.writeFlags_eq (t : TaskSt) (now : Nat) (v : BitVec 5) :
    t.writeFlags now v = { t with
      fflags := t.flagsAt now, flagq := t.flagq.filter (fun e => decide (now < e.1)), flagSet := some (now + 1, v) } := by
  unfold TaskSt.writeFlags TaskSt.flagsAt TaskSt.settleFlags
  split
  · split <;> rfl
  · rfl

/-! ### The estimate and the priority -/

/-- The counts of a task brought up to a cycle, and an estimate that counts from the next one on. -/
def TaskSt.setEst (t : TaskSt) (now v : Nat) : TaskSt := { t.sync now with estSet := some (now + 1, v) }

/-- A priority that counts from the next cycle on. -/
def TaskSt.setPrio (t : TaskSt) (now v : Nat) : TaskSt := { t with prioPrev := t.prioAt now, prio := v, prioFrom := now + 1 }

/-- An estimate in the cycle from which it counts, whatever has run out (R117). -/
theorem TaskSt.estAt_of_set {t : TaskSt} {now v : Nat} (h : t.estSet = some (now, v)) : t.estAt now = v := by
  have hno : ¬ ((t.leftAt now == 0) && !(t.estFree || t.leftAt now == 0)) = true := by cases t.leftAt now == 0 <;> simp
  simp only [TaskSt.estAt, h, Nat.le_refl, if_true, if_neg hno, TaskSt.fallen, Nat.sub_self, Nat.sub_zero, ite_self]

theorem TaskSt.estAt_setEst (t : TaskSt) (now v : Nat) : (t.setEst now v).estAt (now + 1) = v := TaskSt.estAt_of_set rfl

theorem TaskSt.prioAt_setPrio (t : TaskSt) (now v : Nat) : (t.setPrio now v).prioAt now = t.prioAt now :=
  if_neg (Nat.not_succ_le_self now)

theorem TaskSt.prioAt_succ_setPrio (t : TaskSt) (now v : Nat) : (t.setPrio now v).prioAt (now + 1) = v := if_pos (Nat.le_refl _)

/-! ### The bays that write system registers -/

theorem chanFault_of_canRead {s : State} {a : Opd} (h : s.canRead a) : chanFault s.iss.pre s.now [.s a] [] = none :=
  chanFault_none (fun _ hu => ⟨a, h, .inl (List.mem_singleton.mp hu)⟩) (fun _ hd => absurd hd List.not_mem_nil)

/-- A bay whose own check fails takes its fault. -/
theorem bayOpF_fault {s : State} {us : List Use} {ds : List Def} {ok : Bool} {code lat : Nat} (eff : State → State)
    (h : chanFault s.iss.pre s.now us ds = none) (hok : ok = false) :
    bayOpF s us ds (require ok code) eff lat = .next (s.takeFault code 0 0) := by
  simp [bayOpF, issueBay, h, hok, require]

theorem exec_swr (s : State) (a : Opd) (r : BitVec 10) : exec (.swr a r) s
    = bayOpF s [.s a] [] (require (r != 16) Code.privilege)
        (fun t => if r = 0 then t.onTask t.cur (fun k => k.writeFlags t.now ((rdS s a).setWidth 5)) else t) := rfl

theorem exec_cycest (s : State) (a : Opd) : exec (.cycest a) s
    = bayOp s [.s a] [] (fun t => (t.onTask t.cur (fun k => k.setEst t.now (min (rdS s a).toNat (2 ^ 48 - 1)))).postEv (t.now + 1)
        (.evPreemptionDecision t.cur)) := rfl

theorem exec_setprio (s : State) (a : Opd) : exec (.setprio a) s
    = bayOpF s [.s a] [] (require (decide ((rdS s a).toNat ≤ s.iss.pre.t.lprio)) Code.privilege) (fun t =>
        (t.onTask t.cur (fun k => k.setPrio t.now (rdS s a).toNat)).postEv (t.now + 1) (.evPreemptionDecision t.cur)) := rfl

section

variable {s : State} {a : Opd} (h : s.canRead a)

include h

theorem exec_swr_fflags : exec (.swr a 0) s
    = .next ((popAll (s.readSlots [.s a]) [.s a]).onTask s.cur (fun k => k.writeFlags s.now ((rdS s a).setWidth 5))) := by
  have hr := bayReads.bay s [.s a]
  refine (exec_swr s a 0).trans ((bayOpF_next _ _ 1 (chanFault_of_canRead h) rfl).trans ?_)
  rw [if_pos rfl, hr.cur_eq, hr.now_eq]

theorem exec_swr_readOnly {r : BitVec 10} (h0 : r ≠ 0) (h16 : r ≠ 16) :
    exec (.swr a r) s = .next (popAll (s.readSlots [.s a]) [.s a]) :=
  (exec_swr s a r).trans ((bayOpF_next _ _ 1 (chanFault_of_canRead h) (if_pos (bne_iff_ne.mpr h16))).trans (congrArg _ (if_neg h0)))

theorem exec_swr_dbg : exec (.swr a 16) s = .next (s.takeFault Code.privilege 0 0) :=
  (exec_swr s a 16).trans (bayOpF_fault _ (chanFault_of_canRead h) rfl)

theorem exec_cycest_sets : exec (.cycest a) s
    = .next (((popAll (s.readSlots [.s a]) [.s a]).onTask s.cur
        (fun k => k.setEst s.now (min (rdS s a).toNat (2 ^ 48 - 1)))).postEv (s.now + 1) (.evPreemptionDecision s.cur)) := by
  have hr := bayReads.bay s [.s a]
  refine (exec_cycest s a).trans ((bayOp_next _ (chanFault_of_canRead h)).trans ?_)
  simp only [hr.cur_eq, hr.now_eq]

theorem exec_setprio_sets (hp : (rdS s a).toNat ≤ s.iss.pre.t.lprio) : exec (.setprio a) s
    = .next (((popAll (s.readSlots [.s a]) [.s a]).onTask s.cur (fun k => k.setPrio s.now (rdS s a).toNat)).postEv (s.now + 1)
        (.evPreemptionDecision s.cur)) := by
  have hr := bayReads.bay s [.s a]
  refine (exec_setprio s a).trans ((bayOpF_next _ _ 1 (chanFault_of_canRead h) (if_pos (decide_eq_true hp))).trans ?_)
  simp only [hr.cur_eq, hr.now_eq]

theorem exec_setprio_privilege (hp : s.iss.pre.t.lprio < (rdS s a).toNat) :
    exec (.setprio a) s = .next (s.takeFault Code.privilege 0 0) :=
  (exec_setprio s a).trans (bayOpF_fault _ (chanFault_of_canRead h) (decide_eq_false (Nat.not_le.mpr hp)))

end

end Sys2Proof.Machine

open Sys2Proof Sys2Proof.Machine

/-- Settles O23: each bay reads its source and changes the fields of the task that belong to its register. -/
theorem systemWrites : Obligations.SystemWrites := by
  intro s a r ha v
  let u := popAll (s.readSlots [.s a]) [.s a]
  have hr : bayReads s u := bayReads.bay s [.s a]
  obtain ⟨la, da, hme⟩ := hr.me_eq
  refine ⟨fun h0 => ?flags, fun h1 h6 => ?readOnly, fun h16 => ?dbg, ?est, fun hp => ?prio, exec_setprio_privilege ha⟩
  case flags =>
    subst h0
    refine ⟨_, u.me.flagsAt s.now, u.me.flagq.filter (fun e => decide (s.now < e.1)), some (s.now + 1, v.setWidth 5),
      exec_swr_fflags ha, ?_, fun i hi => ?_, (hr.onTask_sets (TaskSt.writeFlags_eq _ _ _) (fun _ _ _ => rfl)).quiet⟩
    · rw [hr.me_onTask, TaskSt.flagsAt_writeFlags]
      exact TaskSt.flagsAt_congr _ (by rw [hme]) (by rw [hme]) (by rw [hme])
    · rw [hr.me_onTask, TaskSt.flagsAt_succ_writeFlags_getLsbD, hme]
      simp [hi, v]
  case readOnly =>
    exact ⟨_, exec_swr_readOnly ha (fun h => by simp [h] at h1) (fun h => by simp [h] at h6), hr.quiet⟩
  case dbg =>
    subst h16
    exact exec_swr_dbg ha
  case est =>
    refine ⟨_, exec_cycest_sets ha, ?_, u.me.estAt s.now, u.me.tcountAt s.now, u.me.leftAt s.now, u.me.estFreeAt s.now,
      bayReads.quiet (hr.onTask_sets_postEv _ _ rfl (fun _ _ _ => rfl))⟩
    rw [hr.me_onTask_postEv, TaskSt.estAt_setEst]
  case prio =>
    refine ⟨_, exec_setprio_sets ha hp, ?_, ?_, u.me.prioAt s.now, v.toNat, s.now + 1,
      bayReads.quiet (hr.onTask_sets_postEv _ _ rfl (fun _ _ _ => rfl))⟩
    · rw [hr.me_onTask_postEv, TaskSt.prioAt_setPrio, hme]
      rfl
    · rw [hr.me_onTask_postEv, TaskSt.prioAt_succ_setPrio]

end

section
/-!
PROOF. Vectors of elements (R119 to R122): a register built element by element, its elements and its flags.
-/

namespace Sys2Proof.Machine

/-! ### A number made of digits -/

/-- The digits of a number in a base. -/
theorem ofDigits_digit {b : Nat} {l : List Nat} (hl : ∀ x ∈ l, x < b) (i : Nat) : Nat.ofDigits b l / b ^ i % b = l.getD i 0 := by
  induction l generalizing i with
  | nil => simp
  | cons x l ih =>
    have hx : x < b := hl x List.mem_cons_self
    have hl : ∀ y ∈ l, y < b := fun y hy => hl y (List.mem_cons_of_mem _ hy)
    cases i with
    | zero => simp [Nat.ofDigits_cons, Nat.mod_eq_of_lt hx]
    | succ i =>
      rw [Nat.ofDigits_cons, pow_succ', ← Nat.div_div_eq_div_mul, Nat.add_mul_div_left _ _ (Nat.zero_lt_of_lt hx), Nat.div_eq_of_lt hx,
        Nat.zero_add, List.getD_cons_succ]
      exact ih hl i

/-- A number of digits of `w` bits fits in as many bits as they have together. -/
theorem ofDigits_lt_two_pow {w n : Nat} {l : List Nat} (hw : 0 < w) (hl : ∀ x ∈ l, x < 2 ^ w) (hlen : w * l.length ≤ n) :
    Nat.ofDigits (2 ^ w) l < 2 ^ n :=
  calc Nat.ofDigits (2 ^ w) l < (2 ^ w) ^ l.length := Nat.ofDigits_lt_base_pow_length (Nat.one_lt_two_pow hw.ne') hl
    _ = 2 ^ (w * l.length) := (pow_mul 2 w l.length).symm
    _ ≤ 2 ^ n := Nat.pow_le_pow_right Nat.two_pos hlen

/-- The elements of a register made of digits. -/
theorem elem_ofDigits {w : Nat} {l : List Nat} (hw : 0 < w) (hl : ∀ x ∈ l, x < 2 ^ w) (hlen : w * l.length ≤ 2048) (e : Nat) :
    elem (BitVec.ofNat 2048 (Nat.ofDigits (2 ^ w) l)) w e = l.getD e 0 := by
  rw [elem, BitVec.toNat_ofNat, Nat.mod_eq_of_lt (ofDigits_lt_two_pow hw hl hlen), pow_mul, ofDigits_digit hl]

/-- Equal elements are equal digits. -/
theorem splat_eq_ofDigits (w n x : Nat) : splat w n x = Nat.ofDigits (2 ^ w) (List.replicate n (x % 2 ^ w)) := by
  unfold splat
  induction n with
  | zero => rfl
  | succ n ih =>
    rw [List.range_succ, List.foldl_append, ih, List.replicate_succ', Nat.ofDigits_append, List.length_replicate, Nat.ofDigits_singleton,
      List.foldl_cons, List.foldl_nil, pow_mul, Nat.mul_comm (x % 2 ^ w)]

theorem elem_lt (v : VReg) (w e : Nat) : elem v w e < 2 ^ w := Nat.mod_lt _ (Nat.two_pow_pos w)

/-! ### Flags that are joined -/

/-- A flag of those that are joined. -/
theorem foldl_or_getLsbD {α : Type} (l : List α) (f : α → FFlags) (acc : FFlags) (i : Nat) :
    (l.foldl (fun acc x => acc ||| f x) acc).getLsbD i = true ↔ acc.getLsbD i = true ∨ ∃ x ∈ l, (f x).getLsbD i = true := by
  induction l generalizing acc with
  | nil => simp
  | cons x l ih => simp [ih, or_assoc]

theorem foldr_or_eq_foldl {α : Type} (l : List α) (f : α → FFlags) :
    l.foldr (fun x acc => acc ||| f x) 0 = l.foldl (fun acc x => acc ||| f x) 0 := by
  have run (acc : FFlags) : l.foldl (fun acc x => acc ||| f x) acc = acc ||| l.foldr (fun x acc => acc ||| f x) 0 := by
    induction l generalizing acc with
    | nil => simp
    | cons x l ih => rw [List.foldl_cons, List.foldr_cons, ih, BitVec.or_assoc, BitVec.or_comm (f x)]
  rw [run 0]
  exact BitVec.zero_or.symm

/-- The flags of an element, none where it is not computed. -/
def flagsAtElem (g : Nat → Option (Nat × FFlags)) (e : Nat) : FFlags := ((g e).map Prod.snd).getD 0

theorem allFlags_eq_foldr (w : Nat) (g : Nat → Option (Nat × FFlags)) :
    allFlags w g = (List.range (2048 / w)).foldr (fun e acc => acc ||| flagsAtElem g e) 0 :=
  (foldr_or_eq_foldl _ (flagsAtElem g)).symm

/-- A flag of all elements is one of some element. -/
theorem allFlags_getLsbD (w : Nat) (g : Nat → Option (Nat × FFlags)) (i : Nat) :
    (allFlags w g).getLsbD i = true ↔ ∃ e < 2048 / w, (flagsAtElem g e).getLsbD i = true := by
  refine (foldl_or_getLsbD _ (flagsAtElem g) 0 i).trans ?_
  simp

/-- Elements of one set of flags have it together. -/
theorem allFlags_of_const {w : Nat} (hw : 0 < 2048 / w) {g : Nat → Option (Nat × FFlags)} {fl : FFlags}
    (h : ∀ e, flagsAtElem g e = fl) : allFlags w g = fl := by
  refine BitVec.eq_of_getLsbD_eq (fun i _ => ?_)
  rw [Bool.eq_iff_iff, allFlags_getLsbD]
  exact ⟨fun ⟨e, _, he⟩ => h e ▸ he, fun hi => ⟨0, hw, (h 0).symm ▸ hi⟩⟩

/-! ### A register built element by element -/

/-- An element after an instruction: what is computed, or else the old one. -/
def elemAfter (old : VReg) (w : Nat) (g : Nat → Option (Nat × FFlags)) (e : Nat) : Nat :=
  ((g e).map (fun x => x.1 % 2 ^ w)).getD (elem old w e)

theorem elemAfter_lt (old : VReg) (w : Nat) (g : Nat → Option (Nat × FFlags)) (e : Nat) : elemAfter old w g e < 2 ^ w := by
  unfold elemAfter
  cases g e with
  | none => exact elem_lt old w e
  | some x => exact Nat.mod_lt _ (Nat.two_pow_pos w)

/-- The elements and the flags of a register, from the last element to the first. -/
def buildStep (old : VReg) (w : Nat) (g : Nat → Option (Nat × FFlags)) (e : Nat) (acc : Nat × FFlags) : Nat × FFlags :=
  (acc.1 * 2 ^ w + elemAfter old w g e, acc.2 ||| flagsAtElem g e)

theorem foldr_buildStep (old : VReg) (w : Nat) (g : Nat → Option (Nat × FFlags)) (l : List Nat) :
    l.foldr (buildStep old w g) (0, 0)
      = (Nat.ofDigits (2 ^ w) (l.map (elemAfter old w g)), l.foldr (fun e acc => acc ||| flagsAtElem g e) 0) := by
  induction l with
  | nil => rfl
  | cons e l ih =>
    rw [List.foldr_cons, ih, buildStep, List.map_cons, Nat.ofDigits_cons, List.foldr_cons, Nat.mul_comm, Nat.add_comm]

theorem build_eq (w n : Nat) (old : VReg) (g : Nat → Option (Nat × FFlags)) :
    build w n old g = (BitVec.ofNat 2048 ((List.range n).foldr (buildStep old w g) (0, 0)).1,
      ((List.range n).foldr (buildStep old w g) (0, 0)).2) := by
  have step (e : Nat) (acc : Nat × FFlags) : buildStep old w g e acc = match g e with
      | some x => (acc.1 * 2 ^ w + x.1 % 2 ^ w, acc.2 ||| x.2)
      | none => (acc.1 * 2 ^ w + elem old w e, acc.2) := by
    unfold buildStep elemAfter flagsAtElem
    cases g e <;> simp
  rw [show buildStep old w g = _ from funext₂ step]
  rfl

/-- A vector result is what the elements of an instruction make, with their flags. -/
def isResult (s : State) (d : Opd) (w : Nat) (g : Nat → Option (Nat × FFlags)) (r : VReg × FFlags) : Prop :=
  isElements s d w g r.1 ∧ r.2 = allFlags w g

/-- The widths of elements. -/
theorem width_cases {w : Nat} (hw : w ∈ [4, 8, 16, 32]) : 0 < w ∧ w * (2048 / w) ≤ 2048 ∧ 0 < 2048 / w := by
  simp only [List.mem_cons, List.not_mem_nil, or_false] at hw
  obtain rfl | rfl | rfl | rfl := hw <;> decide

theorem isElements_of_digits {s : State} {d : Opd} {w : Nat} {g : Nat → Option (Nat × FFlags)} (hw : w ∈ [4, 8, 16, 32])
    {l : List Nat} (h : l = (List.range (2048 / w)).map (elemAfter (oldV s d) w g)) :
    isElements s d w g (BitVec.ofNat 2048 (Nat.ofDigits (2 ^ w) l)) := by
  obtain ⟨hpos, hfit, -⟩ := width_cases hw
  subst h
  have hlt : ∀ x ∈ (List.range (2048 / w)).map (elemAfter (oldV s d) w g), x < 2 ^ w := by
    simp only [List.mem_map, forall_exists_index, and_imp, forall_apply_eq_imp_iff₂]
    exact fun e _ => elemAfter_lt _ w g e
  intro e he
  rw [elem_ofDigits hpos hlt (by simpa using hfit), List.getD_eq_getElem?_getD, List.getElem?_map, List.getElem?_range he]
  simp only [Option.map_some, Option.getD_some, elemAfter]
  cases g e <;> rfl

/-- A register built of the elements that are computed and the destination's old ones. -/
theorem isResult_build {s : State} {d : Opd} {w : Nat} {g : Nat → Option (Nat × FFlags)} (hw : w ∈ [4, 8, 16, 32]) :
    isResult s d w g (build w (2048 / w) (oldV s d) g) := by
  rw [build_eq, foldr_buildStep]
  exact ⟨isElements_of_digits hw rfl, (allFlags_eq_foldr w g).symm⟩

/-- A register of equal elements. -/
theorem isResult_splat {s : State} {d : Opd} {w : Nat} (hw : w ∈ [4, 8, 16, 32]) (r : Nat × FFlags) :
    isResult s d w (fun _ => some r) (BitVec.ofNat 2048 (splat w (2048 / w) r.1), r.2) := by
  obtain ⟨-, -, hn⟩ := width_cases hw
  refine ⟨?_, (allFlags_of_const (g := fun _ => some r) hn (fun _ => rfl)).symm⟩
  rw [splat_eq_ofDigits]
  refine isElements_of_digits hw ?_
  rw [show elemAfter (oldV s d) w (fun _ => some r) = fun _ => r.1 % 2 ^ w from rfl, List.map_const', List.length_range]

end Sys2Proof.Machine

end

section
/-!
PROOF. The result of a vector bay (R13, R40, R122): what its registers hold, its flags, and what stays as it was.
-/

namespace Sys2Proof.Machine

/-! ### A vector result in registers -/

theorem TaskSt.rdy_setVector (t : TaskSt) (k : Nat) (x : VReg) : (t.setVector k x).rdy = t.rdy := by
  unfold TaskSt.setVector
  split
  · rfl
  · split <;> rfl

theorem TaskSt.rdy_putVector_self (t : TaskSt) (k c : Nat) (x : VReg) : NMap.get 0 (t.putVector k x c).rdy k = c := by
  simp [TaskSt.putVector, TaskSt.setReady]

theorem TaskSt.rdy_putVector_ne (t : TaskSt) {k k' : Nat} (c : Nat) (x : VReg) (h : k' ≠ k) :
    NMap.get 0 (t.putVector k x c).rdy k' = NMap.get 0 t.rdy k' := by
  simp only [TaskSt.putVector, TaskSt.setReady, TaskSt.rdy_setVector, NMap.get_put_ne _ _ _ _ _ h]

/-- What a vector bay's write of its registers does to the task. -/
def putVectors (d : Opd) (x : VReg) (cyc : Nat) (t : TaskSt) : TaskSt :=
  match vKey d with
  | some k => (t.putVector RegKey.yv x cyc).putVector k x cyc
  | none => t.putVector RegKey.yv x cyc

theorem wrV_eq (s : State) (d : Opd) (x : VReg) (lat : Nat) (hd : isAppend d = false) :
    wrV s d x lat = s.onTask s.cur (putVectors d x (s.now + lat)) := by
  unfold wrV putVectors
  cases d <;> simp only [isAppend, Bool.true_eq_false] at hd <;> simp only [vKey]
  all_goals exact State.onTask_onTask s _ _ _

theorem putVectors_self (d : Opd) (x : VReg) (c : Nat) (t : TaskSt) (k : Nat) (hk : k ∈ vectorDests d) :
    (putVectors d x c t).vector k = x ∧ NMap.get 0 (putVectors d x c t).rdy k = c := by
  have self (t : TaskSt) {k : Nat} (hk : k = RegKey.yv ∨ RegKey.w 0 ≤ k) :
      (t.putVector k x c).vector k = x ∧ NMap.get 0 (t.putVector k x c).rdy k = c :=
    ⟨t.vector_putVector_self k c x hk, t.rdy_putVector_self k c x⟩
  unfold putVectors
  simp only [vectorDests, List.mem_cons, Option.mem_toList] at hk
  cases hs : vKey d with
  | none =>
    simp only [hs, reduceCtorEq, or_false] at hk
    subst hk
    exact self t (.inl rfl)
  | some j =>
    have hj := vKey_ok hs
    by_cases hkj : k = j
    · subst hkj
      exact self _ hj
    · simp only [hs, Option.some.injEq] at hk
      obtain rfl : k = RegKey.yv := hk.resolve_right (fun h => hkj h.symm)
      simp only
      rw [TaskSt.vector_putVector_ne _ _ _ _ _ hj (.inl rfl) hkj, TaskSt.rdy_putVector_ne _ _ _ hkj]
      exact self t (.inl rfl)

/-- What a change of a task's registers leaves alone but those whose numbers are listed. -/
def TaskSt.keepsBut (t u : TaskSt) (ks : List Nat) : Prop :=
  t.onlyRegs u
    ∧ (∀ k, k ≤ RegKey.yb → k ∉ ks → u.scalar k = t.scalar k)
    ∧ (∀ k, (k = RegKey.yv ∨ RegKey.w 0 ≤ k) → k ∉ ks → u.vector k = t.vector k)
    ∧ ∀ i, RegKey.m i ∉ ks → u.mask i = t.mask i

theorem TaskSt.keepsBut.trans {t u v : TaskSt} {ks : List Nat} (h : t.keepsBut u ks) (k : u.keepsBut v ks) : t.keepsBut v ks := by
  obtain ⟨ho, hs, hv, hm⟩ := h
  obtain ⟨ko, ks, kv, km⟩ := k
  exact ⟨ho.trans ko, fun i hi hn => (ks i hi hn).trans (hs i hi hn), fun i hi hn => (kv i hi hn).trans (hv i hi hn),
    fun i hn => (km i hn).trans (hm i hn)⟩

theorem TaskSt.keepsBut.mono {t u : TaskSt} {ks ls : List Nat} (h : t.keepsBut u ks) (hsub : ∀ k ∈ ks, k ∈ ls) : t.keepsBut u ls := by
  obtain ⟨ho, hs, hv, hm⟩ := h
  exact ⟨ho, fun i hi hn => hs i hi (fun hk => hn (hsub i hk)), fun i hi hn => hv i hi (fun hk => hn (hsub i hk)),
    fun i hn => hm i (fun hk => hn (hsub _ hk))⟩

theorem TaskSt.keepsBut.flagq {t u : TaskSt} {ks : List Nat} (h : t.keepsBut u ks) : u.flagq = t.flagq := by
  obtain ⟨⟨_, _, _, _, _, _, _, _, _, _, _, _, _, _, rfl⟩, -⟩ := h
  rfl

theorem TaskSt.keepsBut_putVector (t : TaskSt) {k : Nat} (c : Nat) (x : VReg) (hk : k = RegKey.yv ∨ RegKey.w 0 ≤ k) :
    t.keepsBut (t.putVector k x c) [k] :=
  ⟨TaskSt.onlyRegs.putVector _ _ _ _, fun _ _ _ => TaskSt.scalar_putVector _ _ _ _ _,
    fun _ hj hn => TaskSt.vector_putVector_ne _ _ _ _ _ hk hj (fun h => hn (List.mem_singleton.mpr h)),
    fun _ _ => TaskSt.mask_putVector _ _ _ _ _⟩

theorem putVectors_keeps (d : Opd) (x : VReg) (c : Nat) (t : TaskSt) : t.keepsBut (putVectors d x c t) (vectorDests d) := by
  have hyv := t.keepsBut_putVector c x (k := RegKey.yv) (.inl rfl)
  unfold putVectors vectorDests
  cases hs : vKey d with
  | none => exact hyv
  | some j =>
    refine (hyv.mono (fun k hk => ?_)).trans ((TaskSt.keepsBut_putVector _ c x (vKey_ok hs)).mono (fun k hk => ?_))
    · exact List.mem_cons.mpr (.inl (List.mem_singleton.mp hk))
    · exact List.mem_cons_of_mem _ hk

theorem TaskSt.keepsBut_setMask (t : TaskSt) (i c : Nat) (x : LaneMask) :
    t.keepsBut ((t.setMask i x).setReady (RegKey.m i) c) [RegKey.m i] := by
  obtain ⟨ho, hs, hv, hm⟩ := t.setMask_keeps i c x
  exact ⟨ho, fun k _ _ => hs k, fun k _ _ => hv k, fun j hj => hm j (fun h => hj (h ▸ List.mem_singleton_self _))⟩

/-! ### A vector bay -/

theorem TaskSt.queueFlags_flagq (t : TaskSt) (c : Nat) (fl : FFlags) :
    (t.queueFlags c fl).flagq = if fl = 0 then t.flagq else t.flagq ++ [(c, fl)] := by
  unfold TaskSt.queueFlags
  split <;> rfl

theorem TaskSt.queueFlags_zero (t : TaskSt) (c : Nat) : t.queueFlags c 0 = t := if_pos rfl

/-- Queued flags change no other field. -/
theorem TaskSt.queueFlags_drop (t : TaskSt) (c : Nat) (fl : FFlags) {q : List (Nat × FFlags)} (h : t.flagq = q) :
    { t.queueFlags c fl with flagq := q } = t := by
  subst h
  unfold TaskSt.queueFlags
  split <;> rfl

theorem TaskSt.vector_queueFlags (t : TaskSt) (c : Nat) (fl : FFlags) (k : Nat) :
    (t.queueFlags c fl).vector k = t.vector k ∧ (t.queueFlags c fl).rdy = t.rdy := by
  unfold TaskSt.queueFlags
  split <;> exact ⟨rfl, rfl⟩

/-- A bay's reads, then a change of the task that puts a value into the registers of a vector result, then its flags. -/
theorem putsVector_of_reads {s u : State} (h : bayReads s u) {d : Opd} {r : VReg} {lat : Nat} {ks : List Nat} (fl : FFlags)
    {P : TaskSt → TaskSt} (hself : ∀ t, ∀ k ∈ vectorDests d, (P t).vector k = r ∧ NMap.get 0 (P t).rdy k = s.now + lat)
    (hkeep : ∀ t : TaskSt, t.keepsBut (P t) (vectorDests d ++ ks)) :
    putsVector s (u.onTask s.cur (fun k => (P k).queueFlags (s.now + lat) fl)) d r fl lat ks := by
  have hflag : (P u.me).flagq = s.me.flagq := by
    obtain ⟨la, da, hme⟩ := h.me_eq
    exact (hkeep u.me).flagq.trans (by rw [hme])
  refine ⟨fun k hk => ?_, ?_, ?_⟩
  · obtain ⟨hv, hr⟩ := (P u.me).vector_queueFlags (s.now + lat) fl k
    rw [h.me_onTask, hv, hr]
    exact hself u.me k hk
  · rw [h.me_onTask, TaskSt.queueFlags_flagq, hflag]
  · have hP : (u.onTask s.cur (fun k => (P k).queueFlags (s.now + lat) fl)).onTask s.cur (fun k => { k with flagq := s.me.flagq })
        = u.onTask s.cur P := by
      rw [State.onTask_onTask]
      exact u.onTask_congr _ (TaskSt.queueFlags_drop _ _ _ (by rw [← h.cur_eq]; exact hflag))
    rw [State.onTask_cur, h.cur_eq, hP]
    exact quiet_of_reads h P _ hkeep

/-- The same for a result without flags. -/
theorem putsVector_of_reads_noFlags {s u : State} (h : bayReads s u) {d : Opd} {r : VReg} {lat : Nat} {ks : List Nat}
    {P : TaskSt → TaskSt} (hself : ∀ t, ∀ k ∈ vectorDests d, (P t).vector k = r ∧ NMap.get 0 (P t).rdy k = s.now + lat)
    (hkeep : ∀ t : TaskSt, t.keepsBut (P t) (vectorDests d ++ ks)) : putsVector s (u.onTask s.cur P) d r 0 lat ks := by
  simpa only [TaskSt.queueFlags_zero] using putsVector_of_reads h 0 hself hkeep

/-- An instruction of the VX bay whose result is a register of elements: one bay operation that writes the result and its flags, and for a
comparison a mask in place of the flags. -/
def isVectorBay (s : State) (i : Instr) (d : Opd) (os : List Opd) (r : VReg × FFlags) : Prop :=
  (exec i s = vecOp s d os r ∧ maskKey i = [])
    ∨ ∃ (mw : BitVec 3) (x : LaneMask), exec i s = bayOp s (os.map .v) [.v d] (fun t => wrM (wrV t d r.1) mw.toNat x)
      ∧ maskKey i = (if mw = 0 then [] else [RegKey.m mw.toNat]) ∧ r.2 = 0

/-- Readable sources and a writable destination raise no channel fault in the VX bay. -/
theorem chanFault_vector {s : State} {os : List Opd} {d : Opd} (hr : ∀ o ∈ os, s.canRead o) (hd : s.canWrite d) :
    chanFault s.iss.pre s.now (os.map .v) [.v d] = none := by
  refine chanFault_none (fun u hu => ?_) (fun u hu => ⟨d, hd, .inr (List.mem_singleton.mp hu)⟩)
  obtain ⟨o, ho, rfl⟩ := List.mem_map.mp hu
  exact ⟨o, hr o ho, .inr rfl⟩

theorem vecOp_putsVector {s : State} {os : List Opd} {d : Opd} (r : VReg × FFlags)
    (h : chanFault s.iss.pre s.now (os.map .v) [.v d] = none) (hd : isAppend d = false) :
    ∃ t, vecOp s d os r = .next t ∧ putsVector s t d r.1 r.2 4 [] := by
  have hr := bayReads.bay s (os.map .v)
  refine ⟨_, bayOp_next _ h, ?_⟩
  simp only [wrV_eq _ _ _ _ hd, hr.cur_eq, hr.now_eq, State.onTask_onTask]
  exact putsVector_of_reads hr r.2 (putVectors_self d r.1 _) (fun _ => (putVectors_keeps d r.1 _ _).mono (fun _ => List.mem_append_left _))

/-- What a vector bay that writes a mask beside its result does to the task. -/
def putVectorsMask (d : Opd) (r : VReg) (i : Nat) (x : LaneMask) (cyc : Nat) (t : TaskSt) : TaskSt :=
  ((putVectors d r cyc t).setMask i x).setReady (RegKey.m i) cyc

/-- The mask and the result are ready in the same cycle, whatever their numbers. -/
theorem putVectorsMask_self (d : Opd) (r : VReg) (i : Nat) (x : LaneMask) (c : Nat) (t : TaskSt) (k : Nat) (hk : k ∈ vectorDests d) :
    (putVectorsMask d r i x c t).vector k = r ∧ NMap.get 0 (putVectorsMask d r i x c t).rdy k = c := by
  obtain ⟨hv, hr⟩ := putVectors_self d r c t k hk
  obtain ⟨-, -, hvec, -⟩ := (putVectors d r c t).setMask_keeps i c x
  refine ⟨(hvec k).trans hv, ?_⟩
  have hrdy : ((putVectors d r c t).setMask i x).rdy = (putVectors d r c t).rdy := by
    unfold TaskSt.setMask
    split <;> rfl
  by_cases hki : k = RegKey.m i
  · subst hki
    exact NMap.get_put_self _ _ _ _
  · exact (NMap.get_put_ne _ _ _ _ _ hki).trans (by rw [hrdy, hr])

theorem putVectorsMask_keeps (d : Opd) (r : VReg) (i : Nat) (x : LaneMask) (c : Nat) (t : TaskSt) :
    t.keepsBut (putVectorsMask d r i x c t) (vectorDests d ++ [RegKey.m i]) :=
  ((putVectors_keeps d r c t).mono (fun _ => List.mem_append_left _)).trans
    ((TaskSt.keepsBut_setMask _ i c x).mono (fun _ => List.mem_append_right _))

/-- The same bay with a mask and no flags. -/
theorem bayOp_wrM_putsVector {s : State} {os : List Opd} {d : Opd} (r : VReg) (mw : BitVec 3) (x : LaneMask)
    (h : chanFault s.iss.pre s.now (os.map .v) [.v d] = none) (hd : isAppend d = false) :
    ∃ t, bayOp s (os.map .v) [.v d] (fun t => wrM (wrV t d r) mw.toNat x) = .next t
      ∧ putsVector s t d r 0 4 (if mw = 0 then [] else [RegKey.m mw.toNat]) := by
  have hr := bayReads.bay s (os.map .v)
  refine ⟨_, bayOp_next _ h, ?_⟩
  rw [wrV_eq _ _ _ _ hd, hr.cur_eq, hr.now_eq]
  by_cases hz : mw = 0
  · subst hz
    exact putsVector_of_reads_noFlags hr (putVectors_self d r _) (fun _ => (putVectors_keeps d r _ _).mono (fun _ => List.mem_append_left _))
  · rw [if_neg hz, wrM_of_ne _ (toNat_ne_zero hz), State.onTask_cur, State.onTask_now, hr.cur_eq, hr.now_eq, State.onTask_onTask]
    exact putsVector_of_reads_noFlags hr (putVectorsMask_self d r _ x _) (fun _ => putVectorsMask_keeps d r _ x _ _)

/-- What a vector instruction with a register as its destination leaves. -/
theorem isVectorBay.putsVector {s : State} {i : Instr} {d : Opd} {os : List Opd} {r : VReg × FFlags} (h : isVectorBay s i d os r)
    (hread : ∀ o ∈ os, s.canRead o) (hd : isAppend d = false) :
    ∃ t, exec i s = .next t ∧ putsVector s t d r.1 r.2 4 (maskKey i) := by
  have hchan := chanFault_vector hread (canWrite_of_register s hd)
  obtain ⟨he, hk⟩ | ⟨mw, x, he, hk, hfl⟩ := h
  · rw [he, hk]
    exact vecOp_putsVector r hchan hd
  · rw [he, hk, hfl]
    exact bayOp_wrM_putsVector r.1 mw x hchan hd

end Sys2Proof.Machine
end

section
/-!
PROOF. The elements of vector instructions (R32, R119, R124 to R133, R139): the model's arithmetic of one element is the rules'.
-/

namespace Sys2Proof.Machine

/-! ### Integers of a type -/

/-- Bits as the integer they stand for. -/
theorem intOf_eq (sg : Bool) (w v : Nat) : intOf sg w v = if sg then (BitVec.ofNat w v).toInt else ((BitVec.ofNat w v).toNat : Int) := by
  unfold intOf
  cases sg with
  | false => simp
  | true =>
    simp only [Bool.true_and, decide_eq_true_eq, if_true]
    rw [BitVec.toInt_eq_toNat_cond, BitVec.toNat_ofNat]
    cases w with
    | zero => simp [Nat.mod_one]
    | succ w =>
      have hw : 2 ^ (w + 1) = 2 * 2 ^ w := pow_succ' 2 w
      have hc : (2 ^ (w + 1 - 1) ≤ v % 2 ^ (w + 1)) ↔ ¬ (2 * (v % 2 ^ (w + 1)) < 2 ^ (w + 1)) := by
        rw [Nat.add_sub_cancel]
        omega
      by_cases h : 2 * (v % 2 ^ (w + 1)) < 2 ^ (w + 1)
      · rw [if_pos h, if_neg (fun k => hc.mp k h)]
      · rw [if_neg h, if_pos (hc.mpr h)]
        push_cast
        rfl

theorem tyInt_eq (ty v : Nat) : tyInt ty v = intRule ty v := by
  rw [tyInt, intOf_eq]
  simp only [tySigned, beq_iff_eq]
  rfl

/-- A value clamped to a range is the nearest one in it. -/
theorem clampInt_eq (sg : Bool) (w : Nat) (v : Int) : clampInt sg w v = max (intMin sg w) (min (intMax sg w) v) := by
  have h : intMin sg w ≤ intMax sg w := by
    have h1 : (1 : Int) ≤ 2 ^ (w - 1) := one_le_pow₀ (by decide)
    have h2 : (1 : Int) ≤ 2 ^ w := one_le_pow₀ (by decide)
    cases sg
    · simpa [intMin, intMax] using h2
    · simp only [intMin, intMax, if_true]
      omega
  unfold clampInt
  split
  · omega
  · split <;> omega

theorem narrowInt_eq (ty : Nat) (sat : Bool) (v : Int) : narrowInt ty sat v = (narrowRule ty sat v, 0) := by
  have hlo : intMin (tySigned ty) (tyWidth ty) = if ty % 2 = 1 then -2 ^ (tyWidth ty - 1) else 0 := by
    simp only [intMin, tySigned, beq_iff_eq]
  have hhi : intMax (tySigned ty) (tyWidth ty) = if ty % 2 = 1 then 2 ^ (tyWidth ty - 1) - 1 else 2 ^ tyWidth ty - 1 := by
    simp only [intMax, tySigned, beq_iff_eq]
  unfold narrowInt narrowRule
  simp only [clampInt_eq, hlo, hhi]
  cases sat <;> rfl

theorem ofInt_eq_narrowRule (ty : Nat) (v : Int) : ofInt (tyWidth ty) v = narrowRule ty false v := rfl

theorem ofInt_eq_ofInt (w : Nat) (v : Int) : ofInt w v = (BitVec.ofInt w v).toNat := by
  rw [BitVec.toNat_ofInt, ofInt]
  norm_cast

/-- An element is the bits of its integer. -/
theorem narrowRule_intRule {ty x : Nat} (h : x < 2 ^ tyWidth ty) : narrowRule ty false (intRule ty x) = x := by
  rw [← ofInt_eq_narrowRule, ofInt_eq_ofInt, intRule]
  split
  · rw [BitVec.ofInt_toInt, BitVec.toNat_ofNat, Nat.mod_eq_of_lt h]
  · rw [BitVec.ofInt_natCast, BitVec.ofNat_toNat, BitVec.setWidth_eq, BitVec.toNat_ofNat, Nat.mod_eq_of_lt h]

theorem narrowRule_min {ty x y : Nat} (hx : x < 2 ^ tyWidth ty) (hy : y < 2 ^ tyWidth ty) :
    narrowRule ty false (min (intRule ty x) (intRule ty y)) = if intRule ty x < intRule ty y then x else y := by
  rcases lt_or_ge (intRule ty x) (intRule ty y) with h | h
  · rw [if_pos h, min_eq_left h.le, narrowRule_intRule hx]
  · rw [if_neg (not_lt.mpr h), min_eq_right h, narrowRule_intRule hy]

theorem narrowRule_max {ty x y : Nat} (hx : x < 2 ^ tyWidth ty) (hy : y < 2 ^ tyWidth ty) :
    narrowRule ty false (max (intRule ty x) (intRule ty y)) = if intRule ty x < intRule ty y then y else x := by
  rcases lt_or_ge (intRule ty x) (intRule ty y) with h | h
  · rw [if_pos h, max_eq_right h.le, narrowRule_intRule hy]
  · rw [if_neg (not_lt.mpr h), max_eq_left h, narrowRule_intRule hx]

/-! ### Arithmetic -/

theorem addElem_eq (ty rm : Nat) (sat : Bool) (a b : Nat) : addElem ty rm sat a b
    = if tyFloat ty then fadd (tyFmt ty) rm a b else (narrowRule ty sat (intRule ty a + intRule ty b), 0) := by
  simp only [addElem, narrowInt_eq, tyInt_eq]

theorem subElem_eq (ty rm : Nat) (sat : Bool) (a b : Nat) : subElem ty rm sat a b
    = if tyFloat ty then fsub (tyFmt ty) rm a b else (narrowRule ty sat (intRule ty a - intRule ty b), 0) := by
  simp only [subElem, narrowInt_eq, tyInt_eq]

theorem mulElem_eq (ty rm : Nat) (sat : Bool) (a b : Nat) : mulElem ty rm sat a b
    = if tyFloat ty then fmul (tyFmt ty) rm a b else (narrowRule ty sat (intRule ty a * intRule ty b), 0) := by
  simp only [mulElem, narrowInt_eq, tyInt_eq]

theorem minElem_eq {ty a b : Nat} (ha : a < 2 ^ tyWidth ty) (hb : b < 2 ^ tyWidth ty) : minElem ty a b
    = if tyFloat ty then fminmax (tyFmt ty) false a b else narrowRule ty false (min (intRule ty a) (intRule ty b)) := by
  simp only [minElem, tyInt_eq, narrowRule_min ha hb]

theorem maxElem_eq {ty a b : Nat} (ha : a < 2 ^ tyWidth ty) (hb : b < 2 ^ tyWidth ty) : maxElem ty a b
    = if tyFloat ty then fminmax (tyFmt ty) true a b else narrowRule ty false (max (intRule ty a) (intRule ty b)) := by
  simp only [maxElem, tyInt_eq, narrowRule_max ha hb]

/-- An arithmetic shift of an element as the rules write it (R127). -/
theorem ofInt_intOf_div (w x n : Nat) : ofInt w (intOf true w x / 2 ^ n) = ((BitVec.ofNat w x).sshiftRight n).toNat := by
  rw [ofInt_eq_ofInt, intOf_eq, if_pos rfl, BitVec.sshiftRight, Int.shiftRight_eq_div_pow]
  norm_cast

/-- A pair of elements of half the width, packed (R133). -/
theorem narrowInt_intOf_pack {ty w v : Nat} (sat : Bool) (hv : v < 2 ^ w) : narrowInt ty sat (intOf (tySigned ty) w v)
    = (narrowRule ty sat (if ty % 2 = 1 then (BitVec.ofNat w v).toInt else (v : Int)), 0) := by
  rw [narrowInt_eq, intOf_eq, BitVec.toNat_ofNat, Nat.mod_eq_of_lt hv]
  simp only [tySigned, beq_iff_eq]

end Sys2Proof.Machine
end

section
/-!
PROOF. Every vector instruction over elements (R124 to R133, R137 to R139): each is one bay operation that writes the register of elements
the rules give.
-/

namespace Sys2Proof.Machine

/-! ### Reductions and scans -/

/-- The type a reduction computes in (R130). -/
def treeType (ty : Nat) (wide : Bool) : Nat :=
  if wide = true ∧ tyWidth ty < 32 then (if tyFloat ty then 0 else if ty % 2 = 1 then 3 else 4) else ty

/-- The elements a reduction takes: those of active lanes, in the type it computes in. -/
def treeElems (s : State) (h : VHdr) (a : Opd) (ct : Nat) : List (Option Nat) :=
  let ty := h.ty.toNat
  let w := tyWidth ty
  (List.range (tyCount ty)).map (fun e =>
    if (activeMask s h).getLsbD (w * e / 32) then some (cvtElem ty ct 0 (elem (rdV s false ty a) w e)).1 else none)

/-- What the tree of R41 makes of the elements of active lanes. -/
def treeResult (s : State) (h : VHdr) (a : Opd) (ct : Nat) (op : Nat → Nat → Nat × FFlags) (empty : Nat) : Nat × FFlags :=
  let r := treeReduce op 9 (treeElems s h a ct) 0
  (r.1.getD empty, r.2)

/-- A reduction fills a register with what its tree makes. -/
theorem reduce_eq (s : State) (h : VHdr) (a : Opd) (wide : Bool) (op : Nat → Nat → Nat → Nat × FFlags) (empty : Nat → Nat) :
    reduce s h a wide op empty =
      let ct := treeType h.ty.toNat wide
      let r := treeResult s h a ct (op ct) (empty ct)
      (BitVec.ofNat 2048 (splat (tyWidth ct) (2048 / tyWidth ct) r.1), r.2) := by
  have hct : (if wide && decide (tyWidth h.ty.toNat < 32) then (if tyFloat h.ty.toNat then 0 else if tySigned h.ty.toNat then 3 else 4)
      else h.ty.toNat) = treeType h.ty.toNat wide := by
    simp [treeType, tySigned]
  have hels (ct : Nat) : ((List.range (tyCount h.ty.toNat)).map (fun e =>
      if (activeMask s h).getLsbD (tyWidth h.ty.toNat * e / 32) then
        some (cvtElem h.ty.toNat ct 0 (elem (rdV s false h.ty.toNat a) (tyWidth h.ty.toNat) e)) else none)).map
        (fun x => x.map Prod.fst) = treeElems s h a ct := by
    rw [List.map_map, treeElems]
    refine List.map_congr_left (fun e _ => ?_)
    simp only [Function.comp]
    split <;> rfl
  unfold reduce
  simp only [hct, hels, treeResult]

/-- The elements a scan takes. -/
def scanElems (s : State) (h : VHdr) (a : Opd) : List (Option Nat) :=
  let ty := h.ty.toNat
  let w := tyWidth ty
  (List.range (tyCount ty)).map (fun e => if (activeMask s h).getLsbD (w * e / 32) then some (elem (rdV s false ty a) w e) else none)

theorem scanVals_length (op : Nat → Nat → Nat × FFlags) (run : Option Nat) (l : List (Option Nat)) : (scanVals op run l).length = l.length := by
  induction l generalizing run with
  | nil => cases run <;> rfl
  | cons x l ih =>
    cases x with
    | none => cases run <;> exact congrArg (· + 1) (ih _)
    | some x => cases run <;> exact congrArg (· + 1) (ih _)

/-- An element of a scan joined to those after it, with a count of the elements before it. -/
def countedStep (old : VReg) (w : Nat) (x : Option (Nat × FFlags)) (acc : Nat × FFlags × Nat) : Nat × FFlags × Nat :=
  (acc.1 * 2 ^ w + (x.map (fun v => v.1 % 2 ^ w)).getD (elem old w (acc.2.2 - 1)), acc.2.1 ||| (x.map Prod.snd).getD 0, acc.2.2 - 1)

/-- Elements joined with a count make what is built element by element. -/
theorem foldr_countedStep (old : VReg) (w : Nat) (g : Nat → Option (Nat × FFlags)) (n k : Nat) :
    ((List.range' k n).map g).foldr (countedStep old w) (0, 0, k + n)
      = (((List.range' k n).foldr (buildStep old w g) (0, 0)).1, ((List.range' k n).foldr (buildStep old w g) (0, 0)).2, k) := by
  induction n generalizing k with
  | zero => rfl
  | succ n ih =>
    rw [List.range'_succ, List.map_cons, List.foldr_cons, List.foldr_cons, show k + (n + 1) = k + 1 + n by omega, ih (k + 1)]
    rfl

/-- A list by its elements. -/
theorem map_range_getD {α : Type} (l : List α) (x : α) : (List.range l.length).map (fun e => l.getD e x) = l := by
  refine List.ext_getElem (by simp) (fun i h1 h2 => ?_)
  simp [List.getD_eq_getElem?_getD, List.getElem?_eq_getElem h2]

/-- What the running values of a scan make is built element by element. -/
theorem foldr_countedStep_eq_build (old : VReg) (w : Nat) (vals : List (Option (Nat × FFlags))) :
    (BitVec.ofNat 2048 (vals.foldr (countedStep old w) (0, 0, vals.length)).1, (vals.foldr (countedStep old w) (0, 0, vals.length)).2.1)
      = build w vals.length old (fun e => vals.getD e none) := by
  have h := foldr_countedStep old w (fun e => vals.getD e none) vals.length 0
  rw [← List.range_eq_range', map_range_getD, Nat.zero_add] at h
  rw [h, build_eq]

/-- The operation of a scan: a sum, the largest or the smallest (R131). -/
def scanOp (ty rm : Nat) (sat : Bool) (op : BitVec 2) : Nat → Nat → Nat × FFlags :=
  if op = 0 then addElem ty rm sat else if op = 1 then fun x y => (maxElem ty x y, 0) else fun x y => (minElem ty x y, 0)

/-- A scan builds its register of the running values of active lanes. -/
theorem exec_vscan (s : State) (h : VHdr) (d a : Opd) (sat : Bool) (op : BitVec 2) : exec (.vscan h d a sat op) s
    = vecOp s d [a] (build (tyWidth h.ty.toNat) (tyCount h.ty.toNat) (oldV s d) (fun e =>
        (scanVals (scanOp h.ty.toNat h.rnd.toNat sat op) none (scanElems s h a)).getD e none)) := by
  have step (old : VReg) (w : Nat) (x : Option (Nat × FFlags)) (acc : Nat × FFlags × Nat) : countedStep old w x acc = match x with
      | some v => (acc.1 * 2 ^ w + v.1 % 2 ^ w, acc.2.1 ||| v.2, acc.2.2 - 1)
      | none => (acc.1 * 2 ^ w + elem old w (acc.2.2 - 1), acc.2.1, acc.2.2 - 1) := by
    unfold countedStep
    cases x <;> simp
  have hlen : (scanVals (scanOp h.ty.toNat h.rnd.toNat sat op) none (scanElems s h a)).length = tyCount h.ty.toNat := by
    simp [scanVals_length, scanElems]
  rw [← hlen, ← foldr_countedStep_eq_build, hlen, show countedStep (oldV s d) (tyWidth h.ty.toNat) = _ from funext₂ (step _ _)]
  rfl

end Sys2Proof.Machine
end

section
/-!
PROOF. The softmax merge (R139): its head and its elements as the rules write them, and the flags its elements share.
-/

namespace Sys2Proof.Machine

/-! ### The head of a merge -/

/-- The maximum of the two that are merged; `v` holds the words of the state operand. -/
def osmMax (v : Nat → Nat) : Nat := fminmax fmtF32 true (v 0) (v 2)

/-- Whether a word of the state is a NaN. -/
def osmNan (v : Nat → Nat) : Bool := (List.range 4).any (fun j => fmtF32.isNan (v j))

/-- Whether the merge gives a NaN. -/
def osmBad (v : Nat → Nat) : Bool := osmNan v || osmMax v == 0x7F800000

/-- Whether a maximum is minus infinity, which leaves its side out of the merge. -/
def isMinusInf (x : Nat) : Bool := x == 0xFF800000

/-- The factor of one side, with its flags. -/
def osmFactor (v : Nat → Nat) (x : Nat) : Nat × FFlags :=
  let k := kexp2 (fsub fmtF32 0 x (osmMax v)).1
  (k.1, (fsub fmtF32 0 x (osmMax v)).2 ||| k.2)

/-- The flags of the head, which every element that depends on it raises. -/
def osmShared (v : Nat → Nat) : FFlags := (if osmBad v && !osmNan v then flIV else 0) |||
  (((if isMinusInf (v 0) then 0 else (osmFactor v (v 0)).2) ||| (if isMinusInf (v 2) then 0 else (osmFactor v (v 2)).2)) &&& ~~~flIV)

/-- Two elements merged. -/
def osmMerge (v : Nat → Nat) (x1 x2 : Nat) : Nat × FFlags :=
  if osmBad v then (0x7FC00000, 0)
  else if isMinusInf (v 0) && isMinusInf (v 2) then (0, 0)
  else if isMinusInf (v 0) then fmul fmtF32 0 x2 (osmFactor v (v 2)).1
  else if isMinusInf (v 2) then fmul fmtF32 0 x1 (osmFactor v (v 0)).1
  else
    let p := fmul fmtF32 0 x1 (osmFactor v (v 0)).1
    let r := ffma fmtF32 0 false x2 (osmFactor v (v 2)).1 p.1
    (r.1, p.2 ||| r.2)

/-- Element `i` of a merge: of two vectors, or of the states themselves. -/
def osmElem (v x y : Nat → Nat) (out : Bool) (i : Nat) : Nat × FFlags :=
  if out = false then osmMerge v (x i) (y i)
  else if i = 0 then (if osmBad v then 0x7FC00000 else osmMax v, 0)
  else if i = 1 then osmMerge v (v 1) (v 3)
  else (0, 0)

theorem mergeFactor_eq (v : Nat → Nat) (x : Nat) : mergeFactor x (osmMax v)
    = if isMinusInf x then (none, 0) else (some (osmFactor v x).1, (osmFactor v x).2) := by
  unfold mergeFactor isMinusInf
  simp only [beq_iff_eq]
  rfl

/-- The model's head of a merge. -/
def osmHead (v : Nat → Nat) : MergeHead :=
  { m := osmMax v, bad := osmBad v, e1 := if isMinusInf (v 0) then none else some (osmFactor v (v 0)).1,
    e2 := if isMinusInf (v 2) then none else some (osmFactor v (v 2)).1, flags := osmShared v }

theorem mergeHead_eq (v : Nat → Nat) : mergeHead (v 0) (v 1) (v 2) (v 3) = osmHead v := by
  have hinf : (osmMax v == 0x7F800000 && !osmNan v) = (osmBad v && !osmNan v) := by
    unfold osmBad
    cases osmNan v <;> simp
  have hmodel : mergeHead (v 0) (v 1) (v 2) (v 3) =
      { m := osmMax v, bad := osmBad v, e1 := (mergeFactor (v 0) (osmMax v)).1, e2 := (mergeFactor (v 2) (osmMax v)).1,
        flags := (if osmMax v == 0x7F800000 && !osmNan v then flIV else 0)
          ||| (((mergeFactor (v 0) (osmMax v)).2 ||| (mergeFactor (v 2) (osmMax v)).2) &&& ~~~flIV) } := rfl
  rw [hmodel, hinf, mergeFactor_eq, mergeFactor_eq, osmHead, osmShared]
  cases isMinusInf (v 0) <;> cases isMinusInf (v 2) <;> rfl

/-- The model's merge of two elements. -/
theorem mergeVal_osmHead (v : Nat → Nat) (x1 x2 : Nat) :
    (if (osmHead v).bad then (0x7FC00000, 0) else mergeVal x1 x2 (osmHead v).e1 (osmHead v).e2) = osmMerge v x1 x2 := by
  unfold osmHead osmMerge mergeVal
  cases isMinusInf (v 0) <;> cases isMinusInf (v 2) <;> rfl

/-! ### Flags of several kinds -/

/-- Flags that elements raise for two reasons. -/
theorem allFlags_or {w : Nat} {g g1 g2 : Nat → Option (Nat × FFlags)}
    (h : ∀ e, flagsAtElem g e = flagsAtElem g1 e ||| flagsAtElem g2 e) : allFlags w g = allFlags w g1 ||| allFlags w g2 := by
  refine BitVec.eq_of_getLsbD_eq (fun i _ => ?_)
  rw [Bool.eq_iff_iff, BitVec.getLsbD_or, Bool.or_eq_true]
  simp only [allFlags_getLsbD, h, BitVec.getLsbD_or, Bool.or_eq_true, and_or_left, exists_or]

/-- One set of flags that some of the elements raise. -/
theorem allFlags_eq_ite {w : Nat} {g : Nat → Option (Nat × FFlags)} {fl : FFlags} {P : Nat → Prop} [DecidablePred P]
    (h : ∀ e, flagsAtElem g e = if P e then fl else 0) {b : Bool} (hb : b = true ↔ ∃ e < 2048 / w, P e) :
    allFlags w g = if b then fl else 0 := by
  refine BitVec.eq_of_getLsbD_eq (fun i _ => ?_)
  rw [Bool.eq_iff_iff, allFlags_getLsbD]
  by_cases hP : ∃ e < 2048 / w, P e
  · rw [if_pos (hb.mpr hP)]
    obtain ⟨e, he, hPe⟩ := hP
    refine ⟨fun ⟨j, _, hj⟩ => ?_, fun hi => ⟨e, he, by rw [h, if_pos hPe]; exact hi⟩⟩
    by_cases hPj : P j
    · rwa [h, if_pos hPj] at hj
    · simp [h, hPj] at hj
  · rw [if_neg (mt hb.mp hP)]
    refine ⟨fun ⟨j, hlt, hj⟩ => ?_, fun hi => by simp at hi⟩
    rw [h, if_neg (fun hPj => hP ⟨j, hlt, hPj⟩)] at hj
    exact hj

/-- A mask is not empty when a bit of it is set. -/
theorem mask_ne_zero_iff (m : LaneMask) : (m != 0) = true ↔ ∃ i < 64, m.getLsbD i = true := by
  rw [bne_iff_ne, ne_eq, ← not_iff_not, not_not]
  push Not
  refine ⟨fun h i _ => by simp [h], fun h => BitVec.eq_of_getLsbD_eq (fun i hi => ?_)⟩
  rw [Bool.eq_false_iff.mpr (h i hi)]
  exact BitVec.getLsbD_zero.symm

/-! ### `VOSM` -/

/-- What `VOSM` makes of the elements of active lanes: their merge, with the flags they share. -/
def osmElems (s : State) (h : VHdr) (a b c : Opd) (out : Bool) (i : Nat) : Option (Nat × FFlags) :=
  let v (j : Nat) : Nat := elem (rdV s false 0 c) 32 j
  let r := osmElem v (elem (rdV s false 0 a) 32) (elem (rdV s false 0 b) 32) out i
  if (activeMask s h).getLsbD i then some (r.1, r.2 ||| (if out = true ∧ 1 < i then 0 else osmShared v)) else none

/-- The register `VOSM` writes, without the flags its elements share. -/
def osmBuilt (s : State) (h : VHdr) (d a b c : Opd) (out : Bool) : VReg × FFlags :=
  buildActive (activeMask s h) 32 (oldV s d)
    (osmElem (elem (rdV s false 0 c) 32) (elem (rdV s false 0 a) 32) (elem (rdV s false 0 b) 32) out)

/-- Whether an active lane depends on the head of the merge. -/
def osmSharing (s : State) (h : VHdr) (out : Bool) : Bool :=
  if out then (activeMask s h).getLsbD 0 || (activeMask s h).getLsbD 1 else activeMask s h != 0

theorem osmSharing_iff (s : State) (h : VHdr) (out : Bool) :
    osmSharing s h out = true ↔ ∃ e < 2048 / 32, (activeMask s h).getLsbD e = true ∧ ¬ (out = true ∧ 1 < e) := by
  unfold osmSharing
  cases out with
  | false => simpa using mask_ne_zero_iff (activeMask s h)
  | true =>
    simp only [if_true, Bool.or_eq_true, true_and, not_lt]
    refine ⟨fun h => ?_, fun ⟨e, _, he, hle⟩ => ?_⟩
    · obtain h | h := h
      · exact ⟨0, by decide, h, by decide⟩
      · exact ⟨1, by decide, h, by decide⟩
    · obtain rfl | rfl : e = 0 ∨ e = 1 := by omega
      · exact .inl he
      · exact .inr he

/-- `VOSM` is one vector operation. -/
theorem exec_vosm (s : State) (h : VHdr) (d a b c : Opd) (out : Bool) : exec (.vosm h d a b c out) s
    = vecOp s d [a, b, c] ((osmBuilt s h d a b c out).1,
        (osmBuilt s h d a b c out).2 ||| (if osmSharing s h out then osmShared (elem (rdV s false 0 c) 32) else 0)) := by
  let v := elem (rdV s false 0 c) 32
  let x := elem (rdV s false 0 a) 32
  let y := elem (rdV s false 0 b) 32
  have hhead : mergeHead (v 0) (v 1) (v 2) (v 3) = osmHead v := mergeHead_eq v
  have helem (i : Nat) : (if out then
        if i = 0 then (if (osmHead v).bad then 0x7FC00000 else (osmHead v).m, 0)
        else if i = 1 then (if (osmHead v).bad then (0x7FC00000, 0) else mergeVal (v 1) (v 3) (osmHead v).e1 (osmHead v).e2)
        else (0, 0)
      else if (osmHead v).bad then (0x7FC00000, 0) else mergeVal (x i) (y i) (osmHead v).e1 (osmHead v).e2) = osmElem v x y out i := by
    rw [mergeVal_osmHead, mergeVal_osmHead, osmElem]
    cases out <;> rfl
  change execVosm h d a b c out s = _
  unfold execVosm
  simp only [v, x, y] at hhead helem
  simp only [hhead, helem]
  rfl

/-- Elements with the same values, whatever their flags. -/
theorem isElements_congr {s : State} {d : Opd} {w : Nat} {f g : Nat → Option (Nat × FFlags)} {r : VReg}
    (h : ∀ e, (f e).map Prod.fst = (g e).map Prod.fst) (hf : isElements s d w f r) : isElements s d w g r := by
  intro e he
  have hfe := hf e he
  have heq := h e
  cases hfe' : f e <;> cases hge : g e <;> simp_all

theorem isResult_osm (s : State) (h : VHdr) (d a b c : Opd) (out : Bool) : isResult s d 32 (osmElems s h a b c out)
    ((osmBuilt s h d a b c out).1,
        (osmBuilt s h d a b c out).2 ||| (if osmSharing s h out then osmShared (elem (rdV s false 0 c) 32) else 0)) := by
  let v := elem (rdV s false 0 c) 32
  let merged (i : Nat) : Option (Nat × FFlags) := if (activeMask s h).getLsbD (32 * i / 32) then
    some (osmElem v (elem (rdV s false 0 a) 32) (elem (rdV s false 0 b) 32) out i) else none
  let sharing (i : Nat) : Option (Nat × FFlags) :=
    some (0, if (activeMask s h).getLsbD i = true ∧ ¬ (out = true ∧ 1 < i) then osmShared v else 0)
  obtain ⟨helem, hflag⟩ := isResult_build (s := s) (d := d) (w := 32) (g := merged) (by decide)
  have hlane (i : Nat) : 32 * i / 32 = i := Nat.mul_div_cancel_left i (by decide)
  refine ⟨isElements_congr (fun i => ?_) helem, ?_⟩
  · simp only [merged, osmElems, hlane]
    split <;> rfl
  · have hshared : allFlags 32 sharing = if osmSharing s h out then osmShared v else 0 :=
      allFlags_eq_ite (fun _ => rfl) (osmSharing_iff s h out)
    rw [allFlags_or (g1 := merged) (g2 := sharing) (fun i => ?_), hshared, ← hflag]
    · rfl
    · simp only [merged, sharing, osmElems, hlane, flagsAtElem]
      by_cases hon : (activeMask s h).getLsbD i = true
      · by_cases hout : out = true ∧ 1 < i <;> simp [hon, hout, v]
      · simp [hon]

end Sys2Proof.Machine
end

section
/-!
PROOF. Every vector instruction over elements (R124 to R133, R137 to R139) as one bay operation that writes what the rules give.
-/

namespace Sys2Proof.Machine

/-! ### Every vector instruction -/

/-- An instruction of the VX bay that reads its sources and writes the elements the rules give, where they are of a width the
architecture has. -/
def isVectorForm (s : State) (d : Opd) (f : Instr × List Opd × Nat × (Nat → Option (Nat × FFlags))) : Prop :=
  f.2.2.1 ∈ [4, 8, 16, 32] → ∃ r, isVectorBay s f.1 d f.2.1 r ∧ isResult s d f.2.2.1 f.2.2.2 r

section

variable {s : State} {h : VHdr} {d : Opd} {i : Instr} {os : List Opd} {w : Nat}

theorem isVectorForm_of_result {g : Nat → Option (Nat × FFlags)} {r : VReg × FFlags} (he : exec i s = vecOp s d os r)
    (hk : maskKey i = []) (hr : w ∈ [4, 8, 16, 32] → isResult s d w g r) : isVectorForm s d (i, os, w, g) :=
  fun hw => ⟨r, .inl ⟨he, hk⟩, hr hw⟩

theorem isVectorForm_of_build {g : Nat → Option (Nat × FFlags)} (he : exec i s = vecOp s d os (build w (2048 / w) (oldV s d) g))
    (hk : maskKey i = []) : isVectorForm s d (i, os, w, g) :=
  isVectorForm_of_result he hk isResult_build

/-- An instruction that computes each element of an active lane by itself. -/
theorem isVectorForm_of_active {f g : Nat → Nat × FFlags}
    (he : exec i s = vecOp s d os (buildActive (activeMask s h) w (oldV s d) f)) (hk : maskKey i = []) (hg : ∀ e, f e = g e) :
    isVectorForm s d (i, os, w, fun e => if (activeMask s h).getLsbD (w * e / 32) then some (g e) else none) := by
  obtain rfl : f = g := funext hg
  exact isVectorForm_of_build he hk

end

/-- A reduction fills its register with what the tree makes of the elements of active lanes. -/
theorem isVectorForm_reduce {s : State} {h : VHdr} {d a : Opd} {i : Instr} {wide : Bool} {op : Nat → Nat → Nat → Nat × FFlags}
    {empty : Nat → Nat} (he : exec i s = vecOp s d [a] (reduce s h a wide op empty)) (hk : maskKey i = []) :
    let ct := treeType h.ty.toNat wide
    isVectorForm s d (i, [a], tyWidth ct, fun _ => some (treeResult s h a ct (op ct) (empty ct))) := by
  rw [reduce_eq] at he
  exact isVectorForm_of_result he hk (fun hw => isResult_splat hw _)

theorem tyCount_eq {ty : Nat} (hw : tyWidth ty ∈ [4, 8, 16, 32]) : tyCount ty = 2048 / tyWidth ty :=
  if_neg (width_cases hw).1.ne'

theorem isVectorForm_vscan (s : State) (h : VHdr) (d a : Opd) (sat : Bool) (op : BitVec 2) :
    isVectorForm s d (.vscan h d a sat op, [a], tyWidth h.ty.toNat,
      fun e => (scanVals (scanOp h.ty.toNat h.rnd.toNat sat op) none (scanElems s h a)).getD e none) := by
  refine isVectorForm_of_result (exec_vscan s h d a sat op) rfl (fun hw => ?_)
  rw [tyCount_eq hw]
  exact isResult_build hw

/-- A comparison writes all ones or zero into its elements, and raises no flag. -/
theorem isVectorForm_vcmp (s : State) (h : VHdr) (d a b : Opd) (mw : BitVec 3) (cc : BitVec 4) :
    let ty := h.ty.toNat
    let w := tyWidth ty
    isVectorForm s d (.vcmp h d a b mw cc, [a, b], w, fun e => if (activeMask s h).getLsbD (w * e / 32) then
      some (if vcmpHolds cc.toNat ty (elem (rdV s false ty a) w e) (elem (rdV s false ty b) w e) then 2 ^ w - 1 else 0, 0) else none) := by
  intro ty w hw
  let f (e : Nat) : Nat × FFlags :=
    (if vcmpHolds cc.toNat ty (elem (rdV s false ty a) w e) (elem (rdV s false ty b) w e) then 2 ^ w - 1 else 0, 0)
  have hflags : allFlags w (fun e => if (activeMask s h).getLsbD (w * e / 32) then some (f e) else none) = 0 := by
    refine allFlags_of_const (width_cases hw).2.2 (fun e => ?_)
    by_cases hon : (activeMask s h).getLsbD (w * e / 32) = true
    · simp [flagsAtElem, hon, f]
    · simp [flagsAtElem, hon]
  obtain ⟨hel, -⟩ := isResult_build (s := s) (d := d) (g := fun e => if (activeMask s h).getLsbD (w * e / 32) then some (f e) else none) hw
  exact ⟨((buildActive (activeMask s h) w (oldV s d) f).1, 0), .inr ⟨mw, vcmpMask s h a b cc, rfl, rfl, rfl⟩, hel, hflags.symm⟩

/-- `VCVT` between element types, and out of blocks (R128). -/
theorem exec_vcvt_plain (s : State) (h : VHdr) (d a : Opd) (p : BitVec 3) (src : BitVec 4) (hd : h.ty.toNat < 13) (hs : src.toNat < 13) :
    exec (.vcvt h d a p src) s = vecOp s d [a] (cvtPlain s h d a p.toNat src.toNat) := by
  change execVcvt h d a p src s = _
  simp only [execVcvt, Nat.not_le.mpr hd, Nat.not_le.mpr hs, false_and, if_false]

theorem exec_vcvt_fromGq (s : State) (h : VHdr) (d a : Opd) (p : BitVec 3) (src : BitVec 4) (hd : h.ty.toNat < 13) (hs : 13 ≤ src.toNat) :
    exec (.vcvt h d a p src) s = vecOp s d [a] (cvtFromGq s h d a src.toNat) := by
  change execVcvt h d a p src s = _
  simp only [execVcvt, Nat.not_le.mpr hd, hs, false_and, if_false, if_true]

/-- The elements `VCVT` makes: as many as both types have in a register, from or to part `p` of the wider count. -/
def cvtElems (s : State) (h : VHdr) (a : Opd) (p src e : Nat) : Option (Nat × FFlags) :=
  let ty := h.ty.toNat
  let n := min (tyCount src) (tyCount ty)
  let at_ (i : Nat) : Nat × FFlags := cvtElem src ty h.rnd.toNat (elem (rdV s false src a) (tyWidth src) i)
  if (activeMask s h).getLsbD (tyWidth ty * e / 32) = false then none
  else if n < tyCount ty then (if p * n ≤ e ∧ e < p * n + n then some (at_ (e - p * n)) else none)
  else some (at_ (if n < tyCount src then p * n + e else e))

theorem cvtPlain_eq (s : State) (h : VHdr) (d a : Opd) (p src : Nat) :
    cvtPlain s h d a p src = build (tyWidth h.ty.toNat) (tyCount h.ty.toNat) (oldV s d) (cvtElems s h a p src) := by
  refine congrArg (build _ _ _) (funext (fun e => ?_))
  simp only [cvtElems, Bool.not_eq_true']

theorem isVectorForm_vcvt (s : State) (h : VHdr) (d a : Opd) (p : BitVec 3) (src : BitVec 4) (hd : h.ty.toNat < 13)
    (hs : src.toNat < 13) : isVectorForm s d (.vcvt h d a p src, [a], tyWidth h.ty.toNat, cvtElems s h a p.toNat src.toNat) := by
  refine isVectorForm_of_result (exec_vcvt_plain s h d a p src hd hs) rfl (fun hw => ?_)
  rw [cvtPlain_eq, tyCount_eq hw]
  exact isResult_build hw

/-- Each vector instruction over elements reads its sources and writes the elements the rules give. -/
theorem exec_vectorForms (s : State) (h : VHdr) (d a b c : Opd) (sat fp pb : Bool) (p : BitVec 3) (st cc : BitVec 4) :
    ∀ f ∈ vectorForms s h d a b c sat fp pb p st cc, isVectorForm s d f := by
  simp only [vectorForms, List.forall_mem_append, List.forall_mem_cons]
  refine ⟨⟨⟨?vredsum, ?vredmax, ?vredmin, ?vsum, ?vmaxScan, ?vminScan, ?mpopc, ?vadd, ?vsub, ?vmul, ?vfma, ?vfms, ?vneg, ?vabs, ?vmin, ?vmax,
    ?vrcp, ?vrsq, ?vsqrt, ?vlog2, ?vexp2, ?vcmp, ?vsel, ?vand, ?vor, ?vxor, ?vnot, ?vshl, ?vshr, ?vshra, ?vperm, ?vbcast, ?vslide, ?viota,
    ?vpack, ?vunpack, ?vmov, ?vosm, ?vquant, fun _ h => absurd h List.not_mem_nil⟩, ?vcvt⟩, ?vcvtGq⟩
  case vredsum => exact isVectorForm_reduce (wide := fp) (op := fun ct => addElem ct h.rnd.toNat sat) (empty := fun _ => 0) rfl rfl
  case vredmax =>
    exact isVectorForm_reduce (wide := fp) (op := fun ct x y => (maxElem ct x y, 0))
      (empty := fun ct => if tyFloat ct then (tyFmt ct).infBits true else ofInt (tyWidth ct) (intMin (tySigned ct) (tyWidth ct))) rfl rfl
  case vredmin =>
    exact isVectorForm_reduce (wide := fp) (op := fun ct x y => (minElem ct x y, 0))
      (empty := fun ct => if tyFloat ct then (tyFmt ct).infBits false else ofInt (tyWidth ct) (intMax (tySigned ct) (tyWidth ct))) rfl rfl
  case vsum => exact isVectorForm_vscan s h d a sat 0
  case vmaxScan => exact isVectorForm_vscan s h d a sat 1
  case vminScan => exact isVectorForm_vscan s h d a sat 2
  case mpopc =>
    refine isVectorForm_of_result (r := (BitVec.ofNat 2048 (splat 32 64 (onesIn (s.iss.pre.t.mask p.toNat))), 0)) rfl rfl (fun hw => ?_)
    rw [onesIn_eq]
    exact isResult_splat hw _
  case vadd => exact isVectorForm_of_active rfl rfl (fun _ => addElem_eq _ _ _ _ _)
  case vsub => exact isVectorForm_of_active rfl rfl (fun _ => subElem_eq _ _ _ _ _)
  case vmul => exact isVectorForm_of_active rfl rfl (fun _ => mulElem_eq _ _ _ _ _)
  case vfma => exact isVectorForm_of_active rfl rfl (fun _ => rfl)
  case vfms => exact isVectorForm_of_active rfl rfl (fun _ => rfl)
  case vneg => exact isVectorForm_of_active rfl rfl (fun _ => by simp only [narrowInt_eq, tyInt_eq])
  case vabs => exact isVectorForm_of_active rfl rfl (fun _ => by simp only [narrowInt_eq, tyInt_eq])
  case vmin =>
    exact isVectorForm_of_active rfl rfl (fun _ => (congrArg (·, 0) (minElem_eq (elem_lt _ _ _) (elem_lt _ _ _))).trans (apply_ite (·, 0) _ _ _))
  case vmax =>
    exact isVectorForm_of_active rfl rfl (fun _ => (congrArg (·, 0) (maxElem_eq (elem_lt _ _ _) (elem_lt _ _ _))).trans (apply_ite (·, 0) _ _ _))
  case vrcp => exact isVectorForm_of_active rfl rfl (fun _ => rfl)
  case vrsq => exact isVectorForm_of_active rfl rfl (fun _ => rfl)
  case vsqrt => exact isVectorForm_of_active rfl rfl (fun _ => rfl)
  case vlog2 => exact isVectorForm_of_active rfl rfl (fun _ => rfl)
  case vexp2 => exact isVectorForm_of_active rfl rfl (fun _ => rfl)
  case vcmp => exact isVectorForm_vcmp s h d a b p cc
  case vsel => exact isVectorForm_of_active rfl rfl (fun _ => rfl)
  case vand => exact isVectorForm_of_active rfl rfl (fun _ => rfl)
  case vor => exact isVectorForm_of_active rfl rfl (fun _ => rfl)
  case vxor => exact isVectorForm_of_active rfl rfl (fun _ => rfl)
  case vnot => exact isVectorForm_of_active rfl rfl (fun _ => rfl)
  case vshl => exact isVectorForm_of_active rfl rfl (fun _ => congrArg (·, 0) (Nat.shiftLeft_eq _ _).symm)
  case vshr => exact isVectorForm_of_active rfl rfl (fun _ => congrArg (·, 0) (Nat.shiftRight_eq_div_pow _ _).symm)
  case vshra => exact isVectorForm_of_active rfl rfl (fun _ => congrArg (·, 0) (ofInt_intOf_div _ _ _))
  case vperm => exact isVectorForm_of_active rfl rfl (fun _ => rfl)
  case vbcast => exact isVectorForm_of_active rfl rfl (fun _ => rfl)
  case vslide => exact isVectorForm_of_active rfl rfl (fun _ => rfl)
  case viota => exact isVectorForm_of_active rfl rfl (fun _ => rfl)
  case vpack => exact isVectorForm_of_active rfl rfl (fun e => narrowInt_intOf_pack sat (by split <;> exact elem_lt _ _ _))
  case vunpack => exact isVectorForm_of_active rfl rfl (fun _ => congrArg (·, 0) (by rw [tyInt_eq, ofInt_eq_ofInt]))
  case vmov => exact isVectorForm_of_active rfl rfl (fun _ => rfl)
  case vosm => exact isVectorForm_of_result (exec_vosm s h d a b c fp) rfl (fun _ => isResult_osm s h d a b c fp)
  case vquant =>
    refine isVectorForm_of_result rfl rfl (fun hw => ?_)
    rw [tyCount_eq hw]
    exact isResult_build hw
  case vcvt =>
    intro f hf
    split at hf
    case isTrue hty =>
      obtain rfl := List.mem_singleton.mp hf
      exact isVectorForm_vcvt s h d a p st hty.1 hty.2
    case isFalse => exact absurd hf List.not_mem_nil
  case vcvtGq =>
    intro f hf
    split at hf
    case isTrue hty =>
      obtain rfl := List.mem_singleton.mp hf
      exact isVectorForm_of_active (exec_vcvt_fromGq s h d a p st hty.1 hty.2) rfl (fun _ => rfl)
    case isFalse => exact absurd hf List.not_mem_nil

end Sys2Proof.Machine

open Sys2Proof Sys2Proof.Machine

/-- Settles O28: every form is one bay operation, which writes a register of the elements the rules give. -/
theorem vectorResult : Obligations.VectorResult := by
  intro s h d a b c sat fp pb p st cc hd f hf hread hw
  obtain ⟨r, hbay, hel, hflags⟩ := exec_vectorForms s h d a b c sat fp pb p st cc f hf hw
  obtain ⟨t, ht, hputs⟩ := hbay.putsVector hread hd
  exact ⟨t, r.1, ht, hel, hflags ▸ hputs⟩

end

section
/-!
PROOF. Conversions into GQ blocks (R34 to R36, R128): the blocks as digits of a register, and a vector result in an append.
-/

namespace Sys2Proof.Machine

/-! ### The size of a block -/

theorem foldr_eq_ofDigits {α : Type} (b : Nat) (f : α → Nat) (l : List α) :
    l.foldr (fun x acc => f x + acc * b) 0 = Nat.ofDigits b (l.map f) := by
  induction l with
  | nil => rfl
  | cons x l ih => rw [List.foldr_cons, ih, List.map_cons, Nat.ofDigits_cons, Nat.mul_comm]

theorem length_flatten_chunks_le {α : Type} (n k : Nat) (l : List α) : (chunks n k l).flatten.length ≤ n * k := by
  induction k generalizing l with
  | zero => simp [chunks]
  | succ k ih =>
    rw [chunks, List.flatten_cons, List.length_append, Nat.mul_succ]
    have := ih (l.drop n)
    have := List.length_take_le n l
    omega

theorem length_chunks {α : Type} (n k : Nat) (l : List α) : (chunks n k l).length = k := by
  induction k generalizing l with
  | zero => rfl
  | succ k ih => exact congrArg (· + 1) (ih _)

theorem gqTrim_lt (b rm : Nat) (emax : Int) (quad : List FVal) : gqTrim b rm emax quad < 4 := by
  unfold gqTrim
  repeat' split
  all_goals omega

/-- An element of a block is a sign and a magnitude of `b` bits. -/
theorem gqElem_lt (b rm : Nat) (q : Int) (v : FVal) : (gqElem b rm q v).1 < 2 ^ (b + 1) := by
  have hpos := Nat.two_pow_pos b
  have sign (c : Bool) : (if c then 2 ^ b else 0) ≤ 2 ^ b := by cases c <;> simp
  have magnitude : (if !v.isFin || decide (2 ^ b - 1 < magAt v q rm) then 2 ^ b - 1 else magAt v q rm) < 2 ^ b := by
    split
    · omega
    · next h => simp only [Bool.or_eq_true, decide_eq_true_eq, not_or] at h; omega
  rw [pow_succ, Nat.mul_two]
  exact Nat.add_lt_add_of_le_of_lt (sign _) magnitude

/-- A block's scale, trims and elements are side by side (R34). -/
theorem gqPack_lt {b sexp trim : Nat} {els : List Nat} (hs : sexp < 256) (ht : trim < 256) (he : ∀ x ∈ els, x < 2 ^ (b + 1))
    (hl : els.length ≤ 16) : gqPack b sexp trim els < 2 ^ (8 * gqBytes b) := by
  have hels : Nat.ofDigits (2 ^ (b + 1)) els < 2 ^ (16 * (b + 1)) :=
    ofDigits_lt_two_pow (Nat.succ_pos b) he (by rw [Nat.mul_comm]; exact Nat.mul_le_mul_right _ hl)
  have hsize : 8 * gqBytes b = 16 * (b + 1) + 16 := by unfold gqBytes; omega
  rw [gqPack, foldr_eq_ofDigits _ (fun x => x), List.map_id', hsize, pow_add 2 (16 * (b + 1))]
  omega

/-- The quads of a block, each with its trim. -/
def gqQuads (b rm : Nat) (emax : Int) (xs : List FVal) : List (Nat × List (Nat × FFlags)) := (chunks 4 4 xs).map (gqQuad b rm emax)

theorem gqQuads_trim_lt (b rm : Nat) (emax : Int) (xs : List FVal) :
    (gqQuads b rm emax xs).foldr (fun q acc => q.1 + acc * 4) 0 < 256 := by
  rw [foldr_eq_ofDigits]
  have hlt : ∀ x ∈ (gqQuads b rm emax xs).map Prod.fst, x < 4 := by
    simp only [gqQuads, List.map_map, List.mem_map, Function.comp, forall_exists_index, and_imp, forall_apply_eq_imp_iff₂]
    exact fun quad _ => gqTrim_lt b rm emax quad
  have h := Nat.ofDigits_lt_base_pow_length (by decide) hlt
  rwa [List.length_map, gqQuads, List.length_map, length_chunks] at h

theorem gqQuads_elem_lt (b rm : Nat) (emax : Int) (xs : List FVal) :
    ∀ x ∈ ((gqQuads b rm emax xs).map Prod.snd).flatten.map Prod.fst, x < 2 ^ (b + 1) := by
  simp only [gqQuads, gqQuad, List.map_map, List.mem_map, List.mem_flatten, Function.comp]
  rintro _ ⟨_, ⟨_, ⟨quad, _, rfl⟩, hx⟩, rfl⟩
  obtain ⟨v, _, rfl⟩ := List.mem_map.mp hx
  exact gqElem_lt _ _ _ v

theorem gqQuads_length_le (b rm : Nat) (emax : Int) (xs : List FVal) :
    (((gqQuads b rm emax xs).map Prod.snd).flatten.map Prod.fst).length ≤ 16 := by
  have hlen : ((gqQuads b rm emax xs).map Prod.snd).flatten.length = (chunks 4 4 xs).flatten.length := by
    simp only [gqQuads, List.map_map, List.length_flatten]
    exact congrArg List.sum (List.map_congr_left (fun _ _ => List.length_map _))
  rw [List.length_map, hlen]
  exact length_flatten_chunks_le 4 4 xs

/-- The exponent of a block from that of its largest value: clamped, and one more where rounding needs it. -/
def gqExponent (e : Int) (up : Bool) : Int :=
  let c := if e < -126 then -126 else if 127 < e then 127 else e
  if c < 127 && up then c + 1 else c

theorem gqExponent_lt (e : Int) (up : Bool) : (gqExponent e up + 127).toNat < 256 := by
  have hclamp : (if e < -126 then -126 else if 127 < e then 127 else e) ≤ 127 := by
    split
    · decide
    · split <;> omega
  unfold gqExponent
  generalize (if e < -126 then -126 else if 127 < e then 127 else e) = c at hclamp
  dsimp only
  split
  · next h =>
    have hlt := of_decide_eq_true (Bool.and_eq_true_iff.mp h).1
    omega
  · omega

/-- A block fits its bytes. -/
theorem gqEncode_lt (b rm : Nat) (xs : List FVal) : (gqEncode b rm xs).1 < 2 ^ (8 * gqBytes b) := by
  unfold gqEncode
  dsimp only
  split
  · exact Nat.two_pow_pos _
  · exact gqPack_lt (gqExponent_lt _ _) (gqQuads_trim_lt _ _ _ _) (gqQuads_elem_lt _ _ _ _) (gqQuads_length_le _ _ _ _)

/-! ### A register of blocks -/

/-- The blocks `VCVT` makes of a source (R36, R128). -/
def gqBlocks (s : State) (h : VHdr) (a : Opd) (src : Nat) : List (Nat × FFlags) :=
  (List.range (tyCount src / 16)).map (fun i => gqEncode (gqTyBits h.ty.toNat) h.rnd.toNat ((List.range 16).map (fun j =>
    (tyFmt src).decode (elem (rdV s false src a) (tyWidth src) (16 * i + j)))))

theorem cvtToGq_eq (s : State) (h : VHdr) (a : Opd) (src : Nat) : cvtToGq s h a src =
    (BitVec.ofNat 2048 (Nat.ofDigits (2 ^ (8 * gqBytes (gqTyBits h.ty.toNat))) ((gqBlocks s h a src).map Prod.fst)),
      (gqBlocks s h a src).foldl (fun acc x => acc ||| x.2) 0) := by
  rw [← foldr_eq_ofDigits]
  rfl

/-- The blocks of a source of 16 or 32 bits fit in a register. -/
theorem gqBlocks_fit {ty src : Nat} (hs : src < 3) : 8 * gqBytes (gqTyBits ty) * (tyCount src / 16) ≤ 2048 := by
  have hsize : 8 * gqBytes (gqTyBits ty) ≤ 96 := by
    unfold gqTyBits
    split <;> decide
  have hcount : tyCount src / 16 ≤ 8 := by
    obtain rfl | rfl | rfl : src = 0 ∨ src = 1 ∨ src = 2 := by omega
    all_goals decide
  exact (Nat.mul_le_mul hsize hcount).trans (by decide)

/-- `VCVT` into blocks: the bytes of the source's blocks, or the blocks of its elements. -/
def gqResult (s : State) (h : VHdr) (a : Opd) (src : Nat) : VReg × FFlags :=
  if src = h.ty.toNat then (BitVec.ofNat 2048 ((rdV s true 0 a).toNat % 2 ^ (8 * if h.ty.toNat = 13 then 256 else 252)), 0)
  else cvtToGq s h a src

theorem exec_vcvt_toGq (s : State) (h : VHdr) (d a : Opd) (p : BitVec 3) (src : BitVec 4) (hd : 13 ≤ h.ty.toNat) :
    exec (.vcvt h d a p src) s = vecOp s d [a] (gqResult s h a src.toNat) := by
  change execVcvt h d a p src s = _
  simp only [execVcvt, gqResult, hd, true_and, if_true]

theorem gqBlocks_lt (s : State) (h : VHdr) (a : Opd) (src : Nat) :
    ∀ x ∈ (gqBlocks s h a src).map Prod.fst, x < 2 ^ (8 * gqBytes (gqTyBits h.ty.toNat)) := by
  simp only [gqBlocks, List.map_map, List.mem_map, Function.comp]
  rintro _ ⟨i, _, rfl⟩
  exact gqEncode_lt _ _ _

theorem blockRule_gqResult (s : State) (h : VHdr) (a : Opd) (src : BitVec 4) (hs : src.toNat < 3 ∨ src = h.ty) :
    blockRule s h a src (gqResult s h a src.toNat).1 (gqResult s h a src.toNat).2 := by
  unfold blockRule gqResult
  by_cases heq : src = h.ty
  · subst heq
    have h13 : h.ty.toNat = 13 ↔ h.ty = 13 := BitVec.toNat_inj (y := 13)
    simp only [if_true, BitVec.toNat_ofNat, h13]
    exact ⟨Nat.mod_eq_of_lt (lt_of_le_of_lt (Nat.mod_le _ _) (BitVec.isLt _)), trivial⟩
  · have hlt : src.toNat < 3 := hs.resolve_right heq
    have hpos : 0 < 8 * gqBytes (gqTyBits h.ty.toNat) := by unfold gqBytes; omega
    have hfit : 8 * gqBytes (gqTyBits h.ty.toNat) * ((gqBlocks s h a src.toNat).map Prod.fst).length ≤ 2048 := by
      simpa [gqBlocks] using gqBlocks_fit hlt
    have hdigits := gqBlocks_lt s h a src.toNat
    rw [if_neg heq, if_neg (fun k => heq (BitVec.eq_of_toNat_eq k)), cvtToGq_eq]
    refine ⟨fun i hi => ?_, ?_, ?_⟩
    · rw [elem_ofDigits hpos hdigits hfit]
      simp [gqBlocks, List.getElem?_range hi]
    · rw [BitVec.toNat_ofNat, Nat.mod_eq_of_lt (ofDigits_lt_two_pow hpos hdigits hfit)]
      refine ofDigits_lt_two_pow hpos hdigits ?_
      simp [gqBlocks]
    · simp only [gqBlocks, List.foldl_map]

end Sys2Proof.Machine

end

section
/-!
PROOF. A vector result in an append (R82, R120, R167): the slot or the credit it takes at issue, and what it leaves alone.
-/

namespace Sys2Proof.Machine

/-! ### A slot that is reserved -/

/-- A queue whose next slot, or next number and credit, is taken. -/
def Queue.reserve (z : Queue) : Nat × Queue :=
  if z.st == .send || z.st == .pendS then
    (z.gen * 65536 + z.sent % 65536, { z with cr := z.cr - 1, sent := z.sent + 1, unsent := z.unsent + 1 })
  else (z.gen * 65536 + ctr z.tail, { z with tail := ctr (z.tail + 1) })

theorem Queue.reserve_size (z : Queue) : z.reserve.2.size = z.size := by
  unfold Queue.reserve
  split <;> rfl

theorem Queue.reserve_of_send {z : Queue} (h : (z.st == .send || z.st == .pendS) = true) : z.reserve =
    (z.gen * 65536 + z.sent % 65536, { z with cr := z.cr - 1, sent := z.sent + 1, unsent := z.unsent + 1 }) :=
  if_pos h

theorem Queue.reserve_of_not_send {z : Queue} (h : ¬ (z.st == .send || z.st == .pendS) = true) :
    z.reserve = (z.gen * 65536 + ctr z.tail, { z with tail := ctr (z.tail + 1) }) :=
  if_neg h

/-- An append to a sender takes a number and a credit (R174). -/
theorem Queue.reserve_sends {z : Queue} (h : z.st = .send ∨ z.st = .pendS) :
    z.reserve.2.sent = z.sent + 1 ∧ z.reserve.2.cr = z.cr - 1 ∧ z.reserve.1 = z.gen * 65536 + z.sent % 65536 := by
  rw [Queue.reserve_of_send (by obtain h | h := h <;> rw [h] <;> rfl)]
  exact ⟨rfl, rfl, rfl⟩

/-- An append to a queue of the own core takes the slot at its tail (R82). -/
theorem Queue.reserve_slot {z : Queue} (h : z.st = .opened ∨ z.st = .subsW) :
    z.reserve.2.tail = ctr (z.tail + 1) ∧ z.reserve.1 = z.gen * 65536 + ctr z.tail := by
  rw [Queue.reserve_of_not_send (by obtain h | h := h <;> rw [h] <;> decide)]
  exact ⟨rfl, rfl⟩

theorem State.onQueue_congr (s : State) (c q : Nat) {f g : Queue → Queue} (h : f (s.queue c q) = g (s.queue c q)) :
    s.onQueue c q f = s.onQueue c q g := by
  have h' : f (NMap.get {} (s.core c).c.q q) = g (NMap.get {} (s.core c).c.q q) := h
  simp only [State.onQueue, State.onCtxSt, State.onCore, h']

theorem State.reserveSlot_eq (s : State) (c q : Nat) :
    s.reserveSlot c q = ((s.queue c q).reserve.1, s.onQueue c q (fun z => z.reserve.2)) := by
  unfold State.reserveSlot
  dsimp only
  split
  · next h =>
    have hz := Queue.reserve_of_send h
    rw [s.onQueue_congr c q (g := fun z => z.reserve.2) (congrArg Prod.snd hz).symm, hz]
  · next h =>
    have hz := Queue.reserve_of_not_send h
    rw [s.onQueue_congr c q (g := fun z => z.reserve.2) (congrArg Prod.snd hz).symm, hz]

theorem State.onQueue_onTask (s : State) (n q : Nat) (f : TaskSt → TaskSt) (g : Queue → Queue) :
    (s.onTask n f).onQueue n q g = (s.onQueue n q g).onTask n f := by
  simp only [State.onQueue, State.onCtxSt, State.onTask, State.onCore_onCore]

/-- A change of a queue of the executing core leaves a bay's frame alone. -/
theorem quiet.onQueue {s t : State} {ks : List Nat} (h : quiet s t ks) (q : Nat) (f : Queue → Queue) :
    quiet s (t.onQueue s.cur q f) ks := by
  obtain ⟨hregs, htask, ⟨⟨po, fr, me, di, pe, pp, co, hshape⟩, hdie, hcore, z, hz⟩, hmem⟩ := h
  have hcur : t.cur = s.cur := by rw [hshape]
  have hme : (t.onQueue s.cur q f).me = t.me := by
    rw [← hcur]
    simp [State.me, State.onQueue]
  refine ⟨by unfold keepsRegs; rwa [hme], by unfold keepsTask; rwa [hme], ⟨?_, hdie, fun n hn => ?_, ?_⟩, hmem⟩
  · subst hshape
    exact ⟨_, _, _, _, _, _, _, rfl⟩
  · exact (State.core_onCtxSt_ne _ _ _ _ hn).trans (hcore n hn)
  · refine ⟨NMap.set z q (f (NMap.get {} z q)), ?_⟩
    rw [State.onQueue, State.core_onCtxSt_self, hz]

theorem quiet.post {s t : State} {ks : List Nat} (h : quiet s t ks) (c : Nat) (a : Act) : quiet s (t.post c a) ks := by
  obtain ⟨hregs, htask, ⟨⟨_, _, _, _, _, _, _, rfl⟩, hdie, hcore, hcur⟩, hmem⟩ := h
  exact ⟨hregs, htask, ⟨⟨_, _, _, _, _, _, _, rfl⟩, hdie, hcore, hcur⟩, hmem⟩

/-! ### A vector result in an append -/

/-- A state in which the slot of an append is taken and its bytes are due in the cycle before the result is ready. -/
def State.promised (s : State) (q : BitVec 5) (x : VReg) (lat : Nat) : State :=
  (s.onQueue s.cur q.toNat (fun z => z.reserve.2)).post (s.now + lat - 1)
    (.fill s.cur q.toNat (s.queue s.cur q.toNat).reserve.1 (slotBytes s q x) none)

theorem wrV_app (s : State) (q : BitVec 5) (x : VReg) {lat : Nat} (hl : 1 < lat) :
    wrV s (.app q) x lat = (s.promised q x lat).onTask s.cur (fun t => t.putVector RegKey.yv x (s.now + lat)) := by
  unfold wrV State.fillLater State.promised slotBytes
  have hcur (t : State) (f : Queue → Queue) : (t.onQueue t.cur q.toNat f).cur = t.cur := rfl
  simp only [State.reserveSlot_eq, Nat.not_le.mpr hl, if_false, hcur, State.onTask_cur, State.queue_onTask, State.onQueue_onTask,
    State.queue_onQueue_self, Queue.reserve_size]
  rfl

/-- What a bay's reads leave of a queue: all but its head. -/
theorem bayReads.queue_keeps {s t : State} (h : bayReads s t) (q : Nat) :
    let z := s.queue s.cur q
    let y := t.queue s.cur q
    y.st = z.st ∧ y.gen = z.gen ∧ y.sent = z.sent ∧ y.cr = z.cr ∧ y.tail = z.tail ∧ y.size = z.size := by
  obtain ⟨_, _, _, la, da, m, hcore, hm⟩ := h
  obtain ⟨x, hx⟩ := hm q
  have hy : t.queue s.cur q = { s.queue s.cur q with head := x } := by
    rw [State.queue, hcore]
    exact hx
  intro z y
  have hy : y = { z with head := x } := hy
  rw [hy]
  exact ⟨rfl, rfl, rfl, rfl, rfl, rfl⟩

theorem State.me_promised (s : State) (q : BitVec 5) (x : VReg) (lat : Nat) : (s.promised q x lat).me = s.me := by
  simp [State.promised, State.me, State.onQueue]

/-- The promise of an append beside a change of the task. -/
theorem State.promised_onTask (s : State) (q : BitVec 5) (x : VReg) (lat : Nat) (f : TaskSt → TaskSt) :
    (s.promised q x lat).onTask s.cur f = ((s.onTask s.cur f).onQueue s.cur q.toNat (fun z => z.reserve.2)).post (s.now + lat - 1)
      (.fill s.cur q.toNat (s.queue s.cur q.toNat).reserve.1 (slotBytes s q x) none) := by
  rw [State.onQueue_onTask]
  rfl

/-- What a promise leaves of its queue, and what it makes due. -/
theorem State.promised_appends (s : State) (q : BitVec 5) (x : VReg) {lat : Nat} (hl : 1 < lat) :
    (s.promised q x lat).queue s.cur q.toNat = (s.queue s.cur q.toNat).reserve.2
      ∧ (s.promised q x lat).hasPosted (s.now + lat - 1)
        (.fill s.cur q.toNat (s.queue s.cur q.toNat).reserve.1 (slotBytes s q x) none) := by
  have hnow : (s.onQueue s.cur q.toNat (fun z => z.reserve.2)).now ≤ s.now + lat - 1 := by
    change s.now ≤ _
    omega
  exact ⟨State.queue_onQueue_self s s.cur q.toNat (fun z => z.reserve.2), State.hasPosted_post hnow _⟩

section

variable {s u : State} (h : bayReads s u) (q : BitVec 5) (r : VReg × FFlags) {lat : Nat} (hl : 1 < lat)

/-- What an append's vector bay does after its reads. -/
def appendVector (s u : State) (q : BitVec 5) (r : VReg × FFlags) (lat : Nat) : State :=
  (wrV u (.app q) r.1 lat).onTask s.cur (fun k => k.queueFlags (s.now + lat) r.2)

include h hl

theorem appendVector_eq : appendVector s u q r lat
    = (u.promised q r.1 lat).onTask s.cur (fun k => (k.putVector RegKey.yv r.1 (s.now + lat)).queueFlags (s.now + lat) r.2) := by
  rw [appendVector, wrV_app u q r.1 hl, h.cur_eq, h.now_eq, State.onTask_onTask]

theorem me_appendVector :
    (appendVector s u q r lat).me = (u.me.putVector RegKey.yv r.1 (s.now + lat)).queueFlags (s.now + lat) r.2 := by
  have hcur : (u.promised q r.1 lat).cur = s.cur := h.cur_eq
  rw [appendVector_eq h q r hl, ← hcur, State.me_onTask, State.me_promised]

/-- A bay's reads, then a vector result and its flags in an append. -/
theorem sendsVector_appendVector : sendsVector s (appendVector s u q r lat) r.1 r.2 lat [] := by
  have hme := me_appendVector h q r hl
  have hflag : (u.me.putVector RegKey.yv r.1 (s.now + lat)).flagq = s.me.flagq := by
    obtain ⟨la, da, hu⟩ := h.me_eq
    exact (TaskSt.keepsBut_putVector _ _ _ (.inl rfl)).flagq.trans (by rw [hu])
  have hrest : quiet s ((appendVector s u q r lat).onTask (appendVector s u q r lat).cur (fun k => { k with flagq := s.me.flagq }))
      [RegKey.yv] := by
    have hcur : (u.promised q r.1 lat).cur = s.cur := h.cur_eq
    have htask : ((u.promised q r.1 lat).core s.cur).t = u.me := by
      rw [← hcur]
      exact u.me_promised q r.1 lat
    rw [appendVector_eq h q r hl, State.onTask_cur, hcur, State.onTask_onTask, State.onTask_congr _ _ (g := fun k =>
      k.putVector RegKey.yv r.1 (s.now + lat)) (TaskSt.queueFlags_drop _ _ _ (htask ▸ hflag)), ← h.cur_eq, State.promised_onTask, h.cur_eq]
    exact ((quiet_of_reads h _ _ (fun t => t.keepsBut_putVector _ _ (.inl rfl))).onQueue _ _).post _ _
  obtain ⟨hregs, htask, hkeep, -⟩ := hrest
  refine ⟨?_, ?_, hregs, htask, hkeep⟩
  · rw [hme, (TaskSt.vector_queueFlags _ _ _ _).1]
    exact TaskSt.vector_putVector_self _ _ _ _ (.inl rfl)
  · rw [hme, TaskSt.queueFlags_flagq, hflag]

theorem appendsLater_appendVector : appendsLater s (appendVector s u q r lat) q (slotBytes s q r.1) lat := by
  obtain ⟨hst, hgen, hsent, hcr, htail, hsize⟩ := h.queue_keeps q.toNat
  obtain ⟨hqueue, hposted⟩ := u.promised_appends q r.1 hl
  have hbytes : slotBytes u q r.1 = slotBytes s q r.1 := by rw [slotBytes, slotBytes, h.cur_eq, hsize]
  rw [h.cur_eq] at hqueue hposted
  rw [h.now_eq, hbytes] at hposted
  unfold appendsLater
  rw [appendVector_eq h q r hl, State.queue_onTask, hqueue]
  refine ⟨fun m => ?_, fun hs => ?_, fun hs => ?_⟩
  · obtain ⟨⟨_, _, _, _, rfl⟩, -⟩ := h
    rfl
  · obtain ⟨h1, h2, h3⟩ := Queue.reserve_sends (hst ▸ hs)
    rw [h3, hgen, hsent] at hposted
    exact ⟨h1.trans (by rw [hsent]), h2.trans (by rw [hcr]), hposted⟩
  · obtain ⟨h1, h2⟩ := Queue.reserve_slot (hst ▸ hs)
    rw [h2, hgen, htail] at hposted
    exact ⟨h1.trans (by rw [htail]), hposted⟩

end

theorem vecOp_sendsVector {s : State} {os : List Opd} {q : BitVec 5} (r : VReg × FFlags)
    (h : chanFault s.iss.pre s.now (os.map .v) [.v (.app q)] = none) :
    ∃ t, vecOp s (.app q) os r = .next t ∧ sendsVector s t r.1 r.2 4 [] ∧ appendsLater s t q (slotBytes s q r.1) 4 := by
  have hr := bayReads.bay s (os.map .v)
  have hbay : vecOp s (.app q) os r = .next (appendVector s (popAll (s.readSlots (os.map .v)) (os.map .v)) q r 4) := by
    refine (bayOp_next _ h).trans ?_
    rw [hr.cur_eq, hr.now_eq]
    rfl
  exact ⟨_, hbay, sendsVector_appendVector hr q r (by decide), appendsLater_appendVector hr q r (by decide)⟩

end Sys2Proof.Machine

open Sys2Proof Sys2Proof.Machine

/-- Settles O33: a conversion into blocks is one vector operation, whose result goes into registers or into an append. -/
theorem blockConversions : Obligations.BlockConversions := by
  intro s h d a src _ ha hty hsrc
  obtain ⟨hge, -⟩ := hty
  have hrule := blockRule_gqResult s h a src hsrc
  have hread : ∀ o ∈ [a], s.canRead o := fun o ho => List.mem_singleton.mp ho ▸ ha
  have hexec := exec_vcvt_toGq s h d a 0 src hge
  refine ⟨fun hd => ?register, fun q hq hw => ?append⟩
  case register =>
    obtain ⟨t, ht, hputs⟩ := vecOp_putsVector (gqResult s h a src.toNat) (chanFault_vector hread (canWrite_of_register s hd)) hd
    exact ⟨t, _, _, hexec.trans ht, hrule, hputs⟩
  case append =>
    subst hq
    obtain ⟨t, ht, hsends, happends⟩ := vecOp_sendsVector (gqResult s h a src.toNat) (chanFault_vector hread hw)
    exact ⟨t, _, _, hexec.trans ht, hrule, hsends, happends⟩

end

section
/-!
PROOF. Integer reductions and scans (R41, R42, R130, R131): what the tree keeps of the elements it combines, and what a scan has added up.
-/

namespace Sys2Proof.Machine

/-! ### The tree -/

/-- The elements that take part. -/
def present (l : List (Option Nat)) : List Nat := l.filterMap id

theorem present_some (x : Nat) (l : List (Option Nat)) : present (some x :: l) = x :: present l := List.filterMap_cons_some rfl

theorem present_none (l : List (Option Nat)) : present (none :: l) = present l := List.filterMap_cons_none rfl

theorem present_cons (x : Option Nat) (l : List (Option Nat)) : present (x :: l) = x.toList ++ present l := by
  cases x
  · exact present_none l
  · exact present_some _ l

section

variable {op : Nat → Nat → Nat × FFlags}

theorem pairUp_one (x : Option Nat) : pairUp op [x] = ([x], 0) := by cases x <;> rfl

/-- Lists by the pairs of their elements, as a level of the tree takes them. -/
theorem pairs_induction {P : List (Option Nat) → Prop} (nil : P []) (one : ∀ x, P [x])
    (both : ∀ a c l, P l → P (some a :: some c :: l)) (left : ∀ a l, P l → P (some a :: none :: l))
    (right : ∀ x l, P l → P (none :: x :: l)) : ∀ l, P l
  | [] => nil
  | [x] => one x
  | some a :: some c :: l => both a c l (pairs_induction nil one both left right l)
  | some a :: none :: l => left a l (pairs_induction nil one both left right l)
  | none :: x :: l => right x l (pairs_induction nil one both left right l)

theorem pairUp_length (l : List (Option Nat)) : (pairUp op l).1.length = (l.length + 1) / 2 := by
  induction l using pairs_induction with
  | nil => rfl
  | one x => simp [pairUp_one]
  | both a c l ih => simp only [pairUp, List.length_cons, ih]; omega
  | left a l ih => simp only [pairUp, List.length_cons, ih]; omega
  | right x l ih => simp only [pairUp, List.length_cons, ih]; omega

/-- An operation that raises no flag raises none in the tree. -/
theorem pairUp_flags (hop : ∀ a c, (op a c).2 = 0) (l : List (Option Nat)) : (pairUp op l).2 = 0 := by
  induction l using pairs_induction with
  | nil => rfl
  | one x => rw [pairUp_one]
  | both a c l ih => simp [pairUp, ih, hop]
  | left a l ih => simp [pairUp, ih]
  | right x l ih => simp [pairUp, ih]

/-- What each level of the tree keeps holds of what is left of the elements at its end. -/
theorem treeReduce_keeps (hop : ∀ a c, (op a c).2 = 0) {I : List (Option Nat) → Prop} (hstep : ∀ l, I l → I (pairUp op l).1) (k : Nat)
    (l : List (Option Nat)) (hl : l.length ≤ 2 ^ k) (h : I l) :
    ∃ m, m.length ≤ 1 ∧ I m ∧ treeReduce op k l 0 = (m.headD none, 0) := by
  induction k generalizing l with
  | zero => exact ⟨l, by simpa using hl, h, rfl⟩
  | succ k ih =>
    have hlen : (pairUp op l).1.length ≤ 2 ^ k := by
      rw [pairUp_length]
      rw [pow_succ] at hl
      omega
    obtain ⟨m, hm, hI, he⟩ := ih _ hlen (hstep l h)
    refine ⟨m, hm, hI, ?_⟩
    rw [treeReduce, pairUp_flags hop]
    exact he

/-- What is left of a list that has at most one element. -/
theorem present_headD {m : List (Option Nat)} (hm : m.length ≤ 1) : present m = (m.headD none).toList := by
  match m, hm with
  | [], _ => rfl
  | [x], _ => cases x <;> rfl

end

/-! ### Sums -/

theorem intRule_emod {ty x : Nat} (h : x < 2 ^ tyWidth ty) : intRule ty x % 2 ^ tyWidth ty = x := by
  have hround : ofInt (tyWidth ty) (intRule ty x) = x := narrowRule_intRule h
  have hpos : (0 : Int) ≤ intRule ty x % 2 ^ tyWidth ty := Int.emod_nonneg _ (by positivity)
  rw [ofInt] at hround
  omega

/-- The sum of two integers in their type's width. -/
theorem addElem_int {ty rm a b : Nat} (hty : tyFloat ty = false) (ha : a < 2 ^ tyWidth ty) (hb : b < 2 ^ tyWidth ty) :
    addElem ty rm false a b = ((a + b) % 2 ^ tyWidth ty, 0) := by
  have hsum : narrowRule ty false (intRule ty a + intRule ty b) = (a + b) % 2 ^ tyWidth ty := by
    rw [← ofInt_eq_narrowRule, ofInt, Int.add_emod, intRule_emod ha, intRule_emod hb]
    norm_cast
  rw [addElem_eq, hty, hsum]
  rfl

theorem addElem_flags {ty rm : Nat} (hty : tyFloat ty = false) (a b : Nat) : (addElem ty rm false a b).2 = 0 := by
  rw [addElem_eq, hty]
  rfl

/-- A level of the tree keeps the sum of integers in their width. -/
theorem pairUp_sum {ty rm : Nat} (hty : tyFloat ty = false) (l : List (Option Nat)) (hl : ∀ x ∈ present l, x < 2 ^ tyWidth ty) :
    (∀ x ∈ present (pairUp (addElem ty rm false) l).1, x < 2 ^ tyWidth ty)
      ∧ (present (pairUp (addElem ty rm false) l).1).sum ≡ (present l).sum [MOD 2 ^ tyWidth ty] := by
  induction l using pairs_induction with
  | nil => exact ⟨hl, rfl⟩
  | one x => rw [pairUp_one]; exact ⟨hl, rfl⟩
  | both a c l ih =>
    simp only [present_some, List.forall_mem_cons] at hl
    obtain ⟨ha, hc, hl⟩ := hl
    obtain ⟨hlt, hsum⟩ := ih hl
    simp only [pairUp, present_some, List.forall_mem_cons, List.sum_cons, addElem_int hty ha hc]
    refine ⟨⟨Nat.mod_lt _ (Nat.two_pow_pos _), hlt⟩, ?_⟩
    rw [← Nat.add_assoc]
    exact (Nat.mod_modEq _ _).add hsum
  | left a l ih =>
    simp only [present_some, present_none, List.forall_mem_cons] at hl
    obtain ⟨ha, hl⟩ := hl
    obtain ⟨hlt, hsum⟩ := ih hl
    simp only [pairUp, present_some, present_none, List.forall_mem_cons, List.sum_cons]
    exact ⟨⟨ha, hlt⟩, hsum.add_left a⟩
  | right x l ih =>
    rw [present_none, present_cons, List.forall_mem_append] at hl
    obtain ⟨hx, hl⟩ := hl
    obtain ⟨hlt, hsum⟩ := ih hl
    simp only [pairUp, present_none, present_cons x, List.forall_mem_append, List.sum_append]
    exact ⟨⟨hx, hlt⟩, hsum.add_left _⟩

/-- The tree of a sum gives the sum of its elements in their width (R41). -/
theorem treeReduce_sum {ty rm : Nat} (hty : tyFloat ty = false) (l : List (Option Nat)) (hlen : l.length ≤ 2 ^ 9)
    (hl : ∀ x ∈ present l, x < 2 ^ tyWidth ty) :
    (treeReduce (addElem ty rm false) 9 l 0).1.getD 0 = (present l).sum % 2 ^ tyWidth ty := by
  obtain ⟨m, hm, ⟨hlt, hsum⟩, he⟩ := treeReduce_keeps (addElem_flags hty)
    (I := fun m => (∀ x ∈ present m, x < 2 ^ tyWidth ty) ∧ (present m).sum ≡ (present l).sum [MOD 2 ^ tyWidth ty])
    (fun m ⟨hlt, hsum⟩ => (pairUp_sum hty m hlt).imp_right (fun h => h.trans hsum)) 9 l hlen ⟨hl, rfl⟩
  rw [he, ← hsum, present_headD hm]
  rw [present_headD hm] at hlt
  generalize m.headD none = o at hlt
  cases o with
  | none => simp
  | some x => simpa using (Nat.mod_eq_of_lt (hlt x (by simp))).symm

/-! ### The largest and the smallest -/

/-- The tree of an operation that takes one of two elements, a bound of both, gives one of the elements that bounds them all (R41). -/
theorem treeReduce_bound {op : Nat → Nat → Nat × FFlags} (hop : ∀ a c, (op a c).2 = 0) {r : Nat → Nat → Prop} (hrefl : ∀ x, r x x)
    (htrans : ∀ x y z, r x y → r y z → r x z) (hsel : ∀ a c, (op a c).1 = a ∨ (op a c).1 = c)
    (hbound : ∀ a c, r a (op a c).1 ∧ r c (op a c).1) (l : List (Option Nat)) (hlen : l.length ≤ 2 ^ 9) (hne : present l ≠ []) :
    ∃ x ∈ present l, treeReduce op 9 l 0 = (some x, 0) ∧ ∀ y ∈ present l, r y x := by
  have level (m : List (Option Nat)) : (∀ x ∈ present (pairUp op m).1, x ∈ present m)
      ∧ ∀ y ∈ present m, ∃ x ∈ present (pairUp op m).1, r y x := by
    induction m using pairs_induction with
    | nil => exact ⟨fun _ h => h, fun y hy => ⟨y, hy, hrefl y⟩⟩
    | one x => rw [pairUp_one]; exact ⟨fun _ h => h, fun y hy => ⟨y, hy, hrefl y⟩⟩
    | both a c m ih =>
      obtain ⟨hmem, hbd⟩ := ih
      simp only [pairUp, present_some, List.forall_mem_cons, List.exists_mem_cons_iff]
      refine ⟨⟨?_, fun x hx => List.mem_cons_of_mem _ (List.mem_cons_of_mem _ (hmem x hx))⟩, .inl (hbound a c).1, .inl (hbound a c).2,
        fun y hy => .inr (hbd y hy)⟩
      obtain h | h := hsel a c
      · rw [h]; exact List.mem_cons_self
      · rw [h]; exact List.mem_cons_of_mem _ List.mem_cons_self
    | left a m ih =>
      obtain ⟨hmem, hbd⟩ := ih
      simp only [pairUp, present_some, present_none, List.forall_mem_cons, List.exists_mem_cons_iff]
      exact ⟨⟨List.mem_cons_self, fun x hx => List.mem_cons_of_mem _ (hmem x hx)⟩, .inl (hrefl a), fun y hy => .inr (hbd y hy)⟩
    | right x m ih =>
      obtain ⟨hmem, hbd⟩ := ih
      simp only [pairUp, present_none, present_cons x, List.forall_mem_append]
      refine ⟨⟨fun y hy => List.mem_append_left _ hy, fun y hy => List.mem_append_right _ (hmem y hy)⟩,
        fun y hy => ⟨y, List.mem_append_left _ hy, hrefl y⟩, fun y hy => ?_⟩
      obtain ⟨z, hz, hyz⟩ := hbd y hy
      exact ⟨z, List.mem_append_right _ hz, hyz⟩
  obtain ⟨m, hm, ⟨hmem, hbd⟩, he⟩ := treeReduce_keeps hop
    (I := fun m => (∀ x ∈ present m, x ∈ present l) ∧ ∀ y ∈ present l, ∃ x ∈ present m, r y x)
    (fun m ⟨hmem, hbd⟩ => ⟨fun x hx => hmem x ((level m).1 x hx), fun y hy => by
      obtain ⟨x, hx, hyx⟩ := hbd y hy
      obtain ⟨z, hz, hxz⟩ := (level m).2 x hx
      exact ⟨z, hz, htrans _ _ _ hyx hxz⟩⟩) 9 l hlen ⟨fun _ h => h, fun y hy => ⟨y, hy, hrefl y⟩⟩
  rw [he]
  obtain ⟨y, hy⟩ := List.exists_mem_of_ne_nil _ hne
  rw [present_headD hm] at hmem hbd
  generalize m.headD none = o at hmem hbd
  cases o with
  | none =>
    obtain ⟨_, hz, _⟩ := hbd y hy
    exact absurd hz List.not_mem_nil
  | some x =>
    simp only [Option.toList_some, List.mem_singleton, exists_eq_left, forall_eq] at hmem hbd
    exact ⟨x, hmem, rfl, hbd⟩

theorem maxElem_int {ty : Nat} (hty : tyFloat ty = false) (a b : Nat) : maxElem ty a b = if intRule ty a < intRule ty b then b else a := by
  simp only [maxElem, hty, tyInt_eq, Bool.false_eq_true, if_false]

theorem minElem_int {ty : Nat} (hty : tyFloat ty = false) (a b : Nat) : minElem ty a b = if intRule ty a < intRule ty b then a else b := by
  simp only [minElem, hty, tyInt_eq, Bool.false_eq_true, if_false]

/-- The tree of a maximum gives the largest element. -/
theorem treeReduce_max {ty : Nat} (hty : tyFloat ty = false) (l : List (Option Nat)) (hlen : l.length ≤ 2 ^ 9) (hne : present l ≠ []) :
    ∃ x ∈ present l, treeReduce (fun a b => (maxElem ty a b, 0)) 9 l 0 = (some x, 0) ∧ ∀ y ∈ present l, intRule ty y ≤ intRule ty x := by
  refine treeReduce_bound (r := fun y x => intRule ty y ≤ intRule ty x) (fun _ _ => rfl) (fun _ => le_refl _)
    (fun _ _ _ h k => h.trans k) (fun a c => ?_) (fun a c => ?_) l hlen hne
  all_goals
    dsimp only
    rw [maxElem_int hty]
  · split
    · exact .inr rfl
    · exact .inl rfl
  · split
    · next h => exact ⟨h.le, le_refl _⟩
    · next h => exact ⟨le_refl _, not_lt.mp h⟩

/-- The tree of a minimum gives the smallest element. -/
theorem treeReduce_min {ty : Nat} (hty : tyFloat ty = false) (l : List (Option Nat)) (hlen : l.length ≤ 2 ^ 9) (hne : present l ≠ []) :
    ∃ x ∈ present l, treeReduce (fun a b => (minElem ty a b, 0)) 9 l 0 = (some x, 0) ∧ ∀ y ∈ present l, intRule ty x ≤ intRule ty y := by
  refine treeReduce_bound (r := fun y x => intRule ty x ≤ intRule ty y) (fun _ _ => rfl) (fun _ => le_refl _)
    (fun _ _ _ h k => k.trans h) (fun a c => ?_) (fun a c => ?_) l hlen hne
  all_goals
    dsimp only
    rw [minElem_int hty]
  · split
    · exact .inl rfl
    · exact .inr rfl
  · split
    · next h => exact ⟨le_refl _, h.le⟩
    · next h => exact ⟨not_lt.mp h, le_refl _⟩

/-! ### Scans -/

/-- A running sum of integers: what each element that takes part receives (R42). -/
theorem scanVals_sum {ty rm : Nat} (hty : tyFloat ty = false) (l : List (Option Nat)) (run : Option Nat) (e x : Nat)
    (hrun : ∀ r ∈ run, r < 2 ^ tyWidth ty) (hl : ∀ x ∈ present l, x < 2 ^ tyWidth ty) (he : l[e]? = some (some x)) :
    (scanVals (addElem ty rm false) run l)[e]?
      = some (some ((run.getD 0 + (present (l.take (e + 1))).sum) % 2 ^ tyWidth ty, 0)) := by
  induction l generalizing run e with
  | nil => simp at he
  | cons y l ih =>
    rw [List.take_succ_cons]
    cases y with
    | none =>
      rw [present_none] at hl
      cases e with
      | zero => simp at he
      | succ e =>
        have hscan : scanVals (addElem ty rm false) run (none :: l) = none :: scanVals (addElem ty rm false) run l := by cases run <;> rfl
        rw [hscan, present_none, List.getElem?_cons_succ]
        exact ih run e hrun hl he
    | some y =>
      rw [present_some, List.forall_mem_cons] at hl
      obtain ⟨hy, hl⟩ := hl
      -- what the element receives, and what runs on
      have hscan : scanVals (addElem ty rm false) run (some y :: l) = some ((run.getD 0 + y) % 2 ^ tyWidth ty, 0)
          :: scanVals (addElem ty rm false) (some ((run.getD 0 + y) % 2 ^ tyWidth ty)) l := by
        cases run with
        | none => simp [scanVals, Nat.mod_eq_of_lt hy]
        | some r => simp [scanVals, addElem_int hty (hrun r rfl) hy]
      rw [hscan, present_some, List.sum_cons, ← Nat.add_assoc]
      cases e with
      | zero => simp [present]
      | succ e =>
        rw [List.getElem?_cons_succ, ih _ e (fun r hr => ?_) hl he]
        · simp
        · cases hr
          exact Nat.mod_lt _ (Nat.two_pow_pos _)

end Sys2Proof.Machine
end

section
/-!
PROOF. Products of integer images (R150, R151, R153): the groups of 32 depth positions, one after the other, add up the exact sum.
-/

namespace Sys2Proof.Machine

/-- The term of one depth position: a product, or a squared difference. -/
def mmaTerm (dist : Bool) (a b : List FVal) (k : Nat) : Int :=
  let x := (a.getD k (.fin false 0 0)).toI
  let y := (b.getD k (.fin false 0 0)).toI
  if dist then (x - y) * (x - y) else x * y

/-- The exact sum of one group of depth positions. -/
def mmaGroup (dist : Bool) (a b : List FVal) (act : List Nat) (g : Nat) : Int :=
  ((act.filter (fun k => k / 32 == g)).map (mmaTerm dist a b)).sum

/-- The element's value, its flags and its clamp after one group. -/
def mmaStep (sat : Bool) (sum : Nat → Int) (acc : Nat × FFlags × Bool) (g : Nat) : Nat × FFlags × Bool :=
  let x := intOf true 32 acc.1 + sum g
  let y := clampInt true 32 x
  if sat then (ofInt 32 y, 0, acc.2.2 || y != x) else (ofInt 32 x, 0, acc.2.2)

theorem mmaElem_int {fmt : Nat} (h : imgInt fmt = true) (dist sat : Bool) (v0 : Nat) (a b : List FVal) (act : List Nat) :
    mmaElem fmt dist sat v0 a b act
      = (List.range ((imgFmt fmt).k / 32)).foldl (mmaStep sat (mmaGroup dist a b act)) (v0, 0, false) := by
  have hgroup (g : Nat) : mmaGroup dist a b act g = (act.filter (fun k => k / 32 == g)).foldl (fun t k => t + mmaTerm dist a b k) 0 := by
    rw [mmaGroup, List.sum_eq_foldl, List.foldl_map]
  rw [show mmaGroup dist a b act = _ from funext hgroup]
  unfold mmaElem
  rw [if_pos h]
  rfl

/-- The depth of an integer image. -/
theorem imgInt_depth {fmt : Nat} (h : imgInt fmt = true) : (imgFmt fmt).k = 32 ∨ (imgFmt fmt).k = 64 := by
  have hle : fmt ≤ 3 := of_decide_eq_true h
  obtain rfl | rfl | rfl | rfl : fmt = 0 ∨ fmt = 1 ∨ fmt = 2 ∨ fmt = 3 := by omega
  · exact .inl rfl
  · exact .inl rfl
  · exact .inr rfl
  · exact .inr rfl

theorem intOf_toNat (z : BitVec 32) : intOf true 32 z.toNat = z.toInt := by
  rw [intOf_eq, if_pos rfl, BitVec.ofNat_toNat, BitVec.setWidth_eq]

/-! ### Without saturation -/

theorem mmaStep_wraps (sum : Nat → Int) (z : Int) (fl : FFlags) (c : Bool) (g : Nat) :
    (mmaStep false sum ((BitVec.ofInt 32 z).toNat, fl, c) g).1 = (BitVec.ofInt 32 (z + sum g)).toNat := by
  change ofInt 32 (intOf true 32 (BitVec.ofInt 32 z).toNat + sum g) = _
  rw [intOf_toNat, ofInt_eq_ofInt, BitVec.ofInt_add, BitVec.ofInt_toInt, BitVec.ofInt_add]

/-- The groups before a depth, and the next one. -/
theorem sum_groups (f : Nat → Int) (act : List Nat) (n : Nat) :
    ((act.filter (fun k => decide (k / 32 < n + 1))).map f).sum
      = ((act.filter (fun k => decide (k / 32 < n))).map f).sum + ((act.filter (fun k => k / 32 == n)).map f).sum := by
  induction act with
  | nil => rfl
  | cons k act ih =>
    simp only [Nat.lt_succ_iff] at ih ⊢
    obtain h | h | h := lt_trichotomy (k / 32) n
    · simp [h, h.ne, h.le, ih, add_assoc]
    · simp [h, ih, add_left_comm]
    · simp [h.ne', not_lt.mpr h.le, Nat.not_le.mpr h, ih]

theorem foldl_mmaStep_wraps (dist : Bool) (a b : List FVal) (act : List Nat) (z : Int) (n : Nat) :
    ((List.range n).foldl (mmaStep false (mmaGroup dist a b act)) ((BitVec.ofInt 32 z).toNat, 0, false)).1
      = (BitVec.ofInt 32 (z + ((act.filter (fun k => decide (k / 32 < n))).map (mmaTerm dist a b)).sum)).toNat := by
  induction n with
  | zero => simp
  | succ n ih =>
    rw [List.range_succ, List.foldl_append, List.foldl_cons, List.foldl_nil, sum_groups, ← add_assoc]
    exact (congrArg (fun v => (mmaStep false (mmaGroup dist a b act) (v, _) n).1) ih).trans (mmaStep_wraps _ _ _ _ _)

/-- The element after a product of integer images: the old value and the exact sum, wrapped (R151). -/
theorem mmaElem_wraps {fmt : Nat} (h : imgInt fmt = true) (dist : Bool) {v0 : Nat} (hv : v0 < 2 ^ 32) (a b : List FVal) {act : List Nat}
    (hact : ∀ k ∈ act, k < (imgFmt fmt).k) :
    (mmaElem fmt dist false v0 a b act).1
      = (BitVec.ofInt 32 ((BitVec.ofNat 32 v0).toInt + (act.map (mmaTerm dist a b)).sum)).toNat := by
  have hv0 : (BitVec.ofInt 32 (BitVec.ofNat 32 v0).toInt).toNat = v0 := by
    rw [BitVec.ofInt_toInt, BitVec.toNat_ofNat, Nat.mod_eq_of_lt hv]
  have hall : act.filter (fun k => decide (k / 32 < (imgFmt fmt).k / 32)) = act := by
    refine List.filter_eq_self.mpr (fun k hk => decide_eq_true ?_)
    have := hact k hk
    obtain hk | hk := imgInt_depth h <;> rw [hk] at this ⊢ <;> omega
  have hfold := foldl_mmaStep_wraps dist a b act (BitVec.ofNat 32 v0).toInt ((imgFmt fmt).k / 32)
  rw [hv0, hall] at hfold
  rw [mmaElem_int h]
  exact hfold

/-! ### With saturation -/

theorem clampInt_toInt (z : BitVec 32) : clampInt true 32 z.toInt = z.toInt := by
  have hlo := z.le_toInt
  have hhi := z.toInt_lt
  rw [clampInt_eq, intMin, intMax, if_pos rfl, if_pos rfl]
  omega

/-- A group in which no depth position takes part leaves an element alone. -/
theorem mmaStep_empty {sum : Nat → Int} {g : Nat} (h : sum g = 0) (z : BitVec 32) (fl : FFlags) (c : Bool) :
    (mmaStep true sum (z.toNat, fl, c) g).1 = z.toNat := by
  change ofInt 32 (clampInt true 32 (intOf true 32 z.toNat + sum g)) = _
  rw [h, add_zero, intOf_toNat, clampInt_toInt, ofInt_eq_ofInt, BitVec.ofInt_toInt]

/-- One group's sum under SAT is clamped (R153). -/
theorem mmaElem_clamps {fmt : Nat} (h : imgInt fmt = true) (v0 : Nat) (a b : List FVal) {act : List Nat}
    (hact : ∀ k ∈ act, k < 32) :
    (mmaElem fmt false true v0 a b act).1 = (BitVec.ofInt 32 (max (-2 ^ 31) (min (2 ^ 31 - 1)
      ((BitVec.ofNat 32 v0).toInt + (act.map (mmaTerm false a b)).sum)))).toNat := by
  have hfirst : mmaGroup false a b act 0 = (act.map (mmaTerm false a b)).sum := by
    rw [mmaGroup, List.filter_eq_self.mpr (fun k hk => beq_iff_eq.mpr (Nat.div_eq_of_lt (hact k hk)))]
  have hsecond : mmaGroup false a b act 1 = 0 := by
    have hnone : act.filter (fun k => k / 32 == 1) = [] := by
      refine List.filter_eq_nil_iff.mpr (fun k hk => ?_)
      rw [Nat.div_eq_of_lt (hact k hk)]
      decide
    rw [mmaGroup, hnone]
    rfl
  have hone (c : Bool) : (mmaStep true (mmaGroup false a b act) (v0, 0, c) 0).1 = (BitVec.ofInt 32 (max (-2 ^ 31) (min (2 ^ 31 - 1)
      ((BitVec.ofNat 32 v0).toInt + (act.map (mmaTerm false a b)).sum)))).toNat := by
    change ofInt 32 (clampInt true 32 (intOf true 32 v0 + mmaGroup false a b act 0)) = _
    rw [hfirst, clampInt_eq, ofInt_eq_ofInt, intOf_eq]
    rfl
  rw [mmaElem_int h]
  obtain hk | hk := imgInt_depth h
  · rw [hk]
    exact hone false
  · rw [hk]
    exact (congrArg (fun v => (mmaStep true (mmaGroup false a b act) (v, _) 1).1) (hone false)).trans (mmaStep_empty hsecond _ _ _)

/-- The codes of integer types (R68). -/
theorem tyFloat_of_integer {ty : Nat} (hlo : 3 ≤ ty) (hhi : ty ≤ 10) : tyFloat ty = false := by
  have h3 : ¬ ty < 3 := not_lt.mpr hlo
  have h11 : ty ≠ 11 := by omega
  have h12 : ty ≠ 12 := by omega
  simp [tyFloat, h3, h11, h12]

end Sys2Proof.Machine

open Sys2Proof Sys2Proof.Machine

/-- Settles O30: the tree keeps the sum in the type's width and a bound of all elements, a scan the sum so far, and a product adds group
after group. -/
theorem integerReductions : Obligations.IntegerReductions := by
  refine ⟨?reductions, ?products⟩
  case reductions =>
    intro w ty els hlo hhi hw hlen hels vals sum
    subst hw
    have hty : tyFloat ty = false := tyFloat_of_integer hlo hhi
    have hlt : ∀ x ∈ present els, x < 2 ^ tyWidth ty := by
      intro x hx
      obtain ⟨_, ho, rfl⟩ := List.mem_filterMap.mp hx
      exact hels x ho
    have hsum (l : List Nat) : sum l = l.sum % 2 ^ tyWidth ty := congrArg (· % _) List.sum_eq_foldl.symm
    refine ⟨(treeReduce_sum hty els hlen hlt).trans (hsum vals).symm, treeReduce_max hty els hlen, treeReduce_min hty els hlen,
      fun e x he => ?_⟩
    rw [scanVals_sum hty els none e x (fun _ h => nomatch h) hlt he, hsum, Option.getD_none, Nat.zero_add]
    rfl
  case products =>
    intro fmt v0 a b act h hv _ hact x y sum old
    exact ⟨mmaElem_wraps h false hv a b hact, mmaElem_wraps h true hv a b hact, mmaElem_clamps h v0 a b⟩

end

section
/-!
PROOF. Encoded fields (R51, R64, R190): every word is written as a concatenation of its fields, and a field read from it is the field that
was written. Wherever `simp` reads fields, `Nat.reduceAdd` is left out: it would evaluate the width of a concatenation, by which the lemmas
here match.
-/

namespace Sys2Proof

/-! ### Fields of a word written as a concatenation -/

@[simp] theorem fld_append_low {m k lo n : Nat} (a : BitVec m) (b : BitVec k) (h : n ≤ k - lo) : fld (a ++ b) lo n = fld b lo n := by
  by_cases hn : n = 0
  · subst hn
    exact Subsingleton.elim _ _
  · exact BitVec.extractLsb'_append_eq_of_add_le (by omega)

@[simp] theorem fld_append_high {m k lo n : Nat} (a : BitVec m) (b : BitVec k) (h : k ≤ lo) :
    fld (a ++ b) lo n = fld a (lo - k) n :=
  BitVec.extractLsb'_append_eq_of_le h

@[simp] theorem fld_self {n : Nat} (w : BitVec n) : fld w 0 n = w := BitVec.extractLsb'_eq_self

@[simp] theorem fld_ofNat {m v lo n : Nat} (h : n ≤ m - lo) : fld (BitVec.ofNat m v) lo n = BitVec.ofNat n (v / 2 ^ lo) := by
  refine BitVec.eq_of_getLsbD_eq (fun i hi => ?_)
  have hm : lo + i < m := by omega
  rw [fld, BitVec.getLsbD_extractLsb', BitVec.getLsbD_ofNat, BitVec.getLsbD_ofNat, Nat.testBit_div_two_pow]
  simp [hi, hm, Nat.add_comm]

@[simp] theorem bit_append_low {m k i : Nat} (a : BitVec m) (b : BitVec k) (h : i < k) : bit (a ++ b) i = bit b i := by
  simp only [bit, BitVec.getLsbD_append, if_pos h]

@[simp] theorem bit_append_high {m k i : Nat} (a : BitVec m) (b : BitVec k) (h : k ≤ i) : bit (a ++ b) i = bit a (i - k) := by
  simp only [bit, BitVec.getLsbD_append, if_neg (Nat.not_lt.mpr h)]

@[simp] theorem bit_ofNat {m v i : Nat} (h : i < m) : bit (BitVec.ofNat m v) i = decide (v / 2 ^ i % 2 = 1) := by
  rw [bit, BitVec.getLsbD_ofNat, decide_eq_true h, Bool.true_and, Nat.testBit_eq_decide_div_mod_eq]

@[simp] theorem bit_b1 (b : Bool) : bit (b1 b) 0 = b := by cases b <;> rfl

/-! ### Operand fields (R51, R64) -/

/-- A source of a kind that admits no append reads back from its field. -/
theorem decSrc_encOpd {o : Opd} {p : Opd → Bool} (happ : ∀ q, p (.app q) = false) (h : p o = true) : decSrc (encOpd o) = some o := by
  cases o with
  | ya => rfl
  | yb => rfl
  | yv => rfl
  | file i => simp [encOpd, decSrc, decClass0, -Nat.reduceAdd]
  | main i => simp [encOpd, decSrc, decClass0, -Nat.reduceAdd]
  | imm v => simp [encOpd, decSrc, decClass0, -Nat.reduceAdd]
  | peek q o => simp [encOpd, decSrc, -Nat.reduceAdd]
  | pop q o => simp [encOpd, decSrc, -Nat.reduceAdd]
  | app q => exact absurd ((happ q).symm.trans h) Bool.false_ne_true

/-- A destination of a kind that admits no read of a queue reads back from its field. -/
theorem decDst_encOpd {o : Opd} {p : Opd → Bool} (hpeek : ∀ q e, p (.peek q e) = false) (hpop : ∀ q e, p (.pop q e) = false)
    (h : p o = true) : decDst (encOpd o) = some o := by
  cases o with
  | ya => rfl
  | yb => rfl
  | yv => rfl
  | file i => simp [encOpd, decDst, decClass0, -Nat.reduceAdd]
  | main i => simp [encOpd, decDst, decClass0, -Nat.reduceAdd]
  | imm v => simp [encOpd, decDst, decClass0, -Nat.reduceAdd]
  | peek q o => exact absurd ((hpeek q o).symm.trans h) Bool.false_ne_true
  | pop q o => exact absurd ((hpop q o).symm.trans h) Bool.false_ne_true
  | app q => simp [encOpd, decDst, -Nat.reduceAdd]

section

variable {o : Opd}

@[simp] theorem decSrc_scalarSrc (h : o.isScalarSrc = true) : decSrc (encOpd o) = some o := decSrc_encOpd (fun _ => rfl) h
@[simp] theorem decSrc_vecSrc (h : o.isVecSrc = true) : decSrc (encOpd o) = some o := decSrc_encOpd (fun _ => rfl) h
@[simp] theorem decSrc_reg (h : o.isReg = true) : decSrc (encOpd o) = some o := decSrc_encOpd (fun _ => rfl) h
@[simp] theorem decSrc_regImm (h : o.isRegImm = true) : decSrc (encOpd o) = some o := decSrc_encOpd (fun _ => rfl) h
@[simp] theorem decSrc_image (h : o.isImage = true) : decSrc (encOpd o) = some o := decSrc_encOpd (fun _ => rfl) h

theorem decDst_scalarDst {b : Bay2} (h : o.isScalarDst b = true) : decDst (encOpd o) = some o :=
  decDst_encOpd (p := Opd.isScalarDst b) (fun _ _ => rfl) (fun _ _ => rfl) h
@[simp] theorem decDst_vecDst (h : o.isVecDst = true) : decDst (encOpd o) = some o :=
  decDst_encOpd (fun _ _ => rfl) (fun _ _ => rfl) h
@[simp] theorem decDst_reg (h : o.isReg = true) : decDst (encOpd o) = some o := decDst_encOpd (fun _ _ => rfl) (fun _ _ => rfl) h
@[simp] theorem decDst_drainDst (h : o.isDrainDst = true) : decDst (encOpd o) = some o :=
  decDst_encOpd (fun _ _ => rfl) (fun _ _ => rfl) h

end

/-- The zero field is `ya`, which is no register. -/
theorem encOpd_reg_ne_zero {o : Opd} (h : o.isReg = true) : encOpd o ≠ 0#10 := by
  intro h0
  have hya : decSrc (encOpd o) = some .ya := by rw [h0]; rfl
  rw [decSrc_reg h, Option.some_inj] at hya
  subst hya
  exact absurd h Bool.false_ne_true

/-- A completion action reads back from its field (R190). -/
theorem optSrc_encOpt {m lo : Nat} {w : BitVec m} {ca : Option Opd} (h : caOk ca = true) (hw : fld w lo 10 = encOpt ca) :
    optSrc w lo = .ok ca := by
  rw [optSrc, hw]
  cases ca with
  | none => rfl
  | some o =>
    have ho : o.isReg = true := h
    simp [encOpt, encOpd_reg_ne_zero ho, ho]

@[simp] theorem ok_bind {α : Type} (x : α) (f : α → Except DecErr Instr) : (.ok x >>= f) = f x := rfl

end Sys2Proof

end

section
/-!
PROOF. The BR, SA and SB bays (R65, R66, R74, R75): what the parser of a bay reads from the word of a well-formed instruction. Each theorem
about a bay splits into the rows of its opcode table, grouped by the operands of the row; the other instructions have no word of the bay.
-/

namespace Sys2Proof

/-! ### The BR bay -/

theorem parseBR_encodeBR {i : Instr} (hwf : i.wf = true) : ∀ w, encodeBR i = some w → parseBR w = .ok i := by
  cases i
  case nop | jmp | waitc | sigc | tend | brk =>
    rintro _ ⟨⟩
    simp [parseBR, packBR, -Nat.reduceAdd]
  case jmpi a | brz a _ | brnz a _ | ret a | trap a _ =>
    rintro _ ⟨⟩
    have ha : a.isScalarSrc = true := hwf
    simp [parseBR, packBR, src, ha, -Nat.reduceAdd]
  case call d _ | loop d _ =>
    rintro _ ⟨⟩
    have hd : d.isReg = true := hwf
    simp [parseBR, packBR, dst, hd, -Nat.reduceAdd]
  all_goals exact fun _ h => nomatch h

/-! ### The SA and SB bays -/

section

variable (op : BitVec 8) (d s1 s2 md : BitVec 10) (imm : BitVec 20)

@[simp] theorem opcode_packAB : fld (packAB op d s1 s2 md) 40 8 = op := by simp [packAB, -Nat.reduceAdd]
@[simp] theorem mod_packAB {lo n : Nat} (h : n ≤ 10 - lo) : fld (packAB op d s1 s2 md) lo n = fld md lo n := fld_append_low _ _ h
@[simp] theorem modBit_packAB {i : Nat} (h : i < 10) : bit (packAB op d s1 s2 md) i = bit md i := bit_append_low _ _ h
@[simp] theorem opcode_packLI : fld (packLI op d s1 imm) 40 8 = op := by simp [packLI, -Nat.reduceAdd]
@[simp] theorem imm_packLI : fld (packLI op d s1 imm) 0 20 = imm := by simp [packLI, -Nat.reduceAdd]

end

section

variable {op : BitVec 8} {s1 s2 md : BitVec 10} {imm : BitVec 20} {d x y v : Opd}

@[simp] theorem parse3_packAB {f : Opd → Opd → Opd → Instr} (hd : decDst (encOpd d) = some d) (hx : x.isScalarSrc = true)
    (hy : y.isScalarSrc = true) : parse3 (packAB op (encOpd d) (encOpd x) (encOpd y) md) f = .ok (f d x y) := by
  simp [parse3, packAB, dst, src, hd, hx, hy, -Nat.reduceAdd]

@[simp] theorem parse3s_packAB {f : Opd → Opd → Opd → Instr} (hv : v.isScalarSrc = true) (hx : x.isScalarSrc = true)
    (hy : y.isScalarSrc = true) : parse3s (packAB op (encOpd v) (encOpd x) (encOpd y) md) f = .ok (f v x y) := by
  simp [parse3s, packAB, src, hv, hx, hy, -Nat.reduceAdd]

@[simp] theorem parse2_packAB {f : Opd → Opd → Instr} (hd : decDst (encOpd d) = some d) (hx : x.isScalarSrc = true) :
    parse2 (packAB op (encOpd d) (encOpd x) s2 md) f = .ok (f d x) := by
  simp [parse2, packAB, dst, src, hd, hx, -Nat.reduceAdd]

@[simp] theorem parse2_packLI {f : Opd → Opd → Instr} (hd : decDst (encOpd d) = some d) (hx : x.isScalarSrc = true) :
    parse2 (packLI op (encOpd d) (encOpd x) imm) f = .ok (f d x) := by
  simp [parse2, packLI, dst, src, hd, hx, -Nat.reduceAdd]

@[simp] theorem decMem_packAB (m : MemMod) : decMem (packAB op (encOpd d) s1 s2 (encMem m)) = m := by
  simp [decMem, encMem, -Nat.reduceAdd]

/-- Well-formed operands read back: a destination and two sources. -/
theorem alu2Wf_reads {b : Bay2} (h : alu2Wf b d x y = true) :
    decDst (encOpd d) = some d ∧ x.isScalarSrc = true ∧ y.isScalarSrc = true := by
  simp only [alu2Wf, Bool.and_eq_true] at h
  obtain ⟨⟨hd, hx⟩, hy⟩ := h
  exact ⟨decDst_scalarDst hd, hx, hy⟩

/-- Well-formed operands read back: a destination and a source. -/
theorem alu1Wf_reads {b : Bay2} (h : alu1Wf b d x = true) : decDst (encOpd d) = some d ∧ x.isScalarSrc = true := by
  simp only [alu1Wf, Bool.and_eq_true] at h
  obtain ⟨hd, hx⟩ := h
  exact ⟨decDst_scalarDst hd, hx⟩

end

theorem parseAB_encodeAB {i : Instr} (hwf : i.wf = true) : ∀ b w, encodeAB i = some (b, w) → parseAB b w = .ok i := by
  cases i
  case add | sub | mul | mulh | mulhn | div | divn | rem | remn | and | or | xor | andn | orn | shl | shrl | shra | rotl | rotr
      | min | max | minn | maxn =>
    rintro _ _ ⟨⟩
    obtain ⟨hd, hx, hy⟩ := alu2Wf_reads hwf
    rw [parseAB, enc3, opcode_packAB]
    exact parse3_packAB hd hx hy
  case clz | ctz | popc | mov =>
    rintro _ _ ⟨⟩
    obtain ⟨hd, hx⟩ := alu1Wf_reads hwf
    rw [parseAB, enc2, opcode_packAB]
    exact parse2_packAB hd hx
  case addi | lui =>
    rintro _ _ ⟨⟩
    simp [parseAB, alu1Wf_reads hwf]
  case lea | bfx =>
    rintro _ _ ⟨⟩
    simp [parseAB, alu2Wf_reads hwf, -Nat.reduceAdd]
  case sext | zext | spld =>
    rintro _ _ ⟨⟩
    simp [parseAB, alu1Wf_reads hwf, -Nat.reduceAdd]
  case cmp | bfi | ld | ldsp =>
    rintro _ _ ⟨⟩
    obtain ⟨hops, -⟩ := Bool.and_eq_true_iff.mp hwf
    simp [parseAB, alu2Wf_reads hops, -Nat.reduceAdd]
  case sel =>
    rintro _ _ ⟨⟩
    obtain ⟨hops, hc⟩ := Bool.and_eq_true_iff.mp hwf
    simp [parseAB, alu2Wf_reads hops, hc, src, -Nat.reduceAdd]
  case amo =>
    rintro _ _ ⟨⟩
    simp only [Instr.wf, Bool.and_eq_true] at hwf
    obtain ⟨⟨⟨hops, -⟩, -⟩, -⟩ := hwf
    simp [parseAB, alu2Wf_reads hops, -Nat.reduceAdd]
  case st | stsp =>
    rintro _ _ ⟨⟩
    simp only [Instr.wf, Bool.and_eq_true] at hwf
    simp [parseAB, hwf, -Nat.reduceAdd]
  case spst | swr | cycest | setprio | fence | fenceCode | isync =>
    rintro _ _ ⟨⟩
    simp only [Instr.wf, Bool.and_eq_true] at hwf
    simp [parseAB, packAB, src, hwf, -Nat.reduceAdd]
  case li =>
    rintro _ _ ⟨⟩
    simp [parseAB, packLI, dst, decDst_scalarDst hwf, -Nat.reduceAdd]
  case srd =>
    rintro _ _ ⟨⟩
    obtain ⟨hd, -⟩ := Bool.and_eq_true_iff.mp hwf
    simp [parseAB, packAB, dst, decDst_scalarDst hd, -Nat.reduceAdd]
  all_goals exact fun _ _ h => nomatch h

end Sys2Proof

end

section
/-!
PROOF. The VX bay, the command bays and the micro-ops (R67, R69 to R73, R76 to R78, R310): what their parsers read from the word of a
well-formed instruction, and with that what the decoder reads from any word of the encoder.
-/

namespace Sys2Proof

/-! ### The VX bay -/

section

variable {op : BitVec 8} {h : VHdr} {s1 s2 s3 : BitVec 10} {md : BitVec 7} {d a b c : Opd}

@[simp] theorem opcode_packVX (e : BitVec 10) : fld (packVX op h e s1 s2 s3 md) 56 8 = op := by simp [packVX, -Nat.reduceAdd]
@[simp] theorem mod_packVX (e : BitVec 10) {lo n : Nat} (hn : n ≤ 7 - lo) : fld (packVX op h e s1 s2 s3 md) lo n = fld md lo n :=
  fld_append_low _ _ hn
@[simp] theorem modBit_packVX (e : BitVec 10) {i : Nat} (hi : i < 7) : bit (packVX op h e s1 s2 s3 md) i = bit md i :=
  bit_append_low _ _ hi
@[simp] theorem mask_packVX (e : BitVec 10) : fld (packVX op h e s1 s2 s3 md) 9 3 = h.msk := by simp [packVX, -Nat.reduceAdd]

@[simp] theorem dst_packVX (hd : d.isVecDst = true) : dst (packVX op h (encOpd d) s1 s2 s3 md) 42 = .ok d := by
  simp [dst, packVX, hd, -Nat.reduceAdd]

@[simp] theorem parseV2_packVX {f : VHdr → Opd → Opd → Instr} (hd : d.isVecDst = true) (ha : a.isVecSrc = true) :
    parseV2 (packVX op h (encOpd d) (encOpd a) s2 s3 md) f = .ok (f h d a) := by
  simp [parseV2, packVX, decVH, dst, src, hd, ha, -Nat.reduceAdd]

@[simp] theorem parseV3_packVX {f : VHdr → Opd → Opd → Opd → Instr} (hd : d.isVecDst = true) (ha : a.isVecSrc = true)
    (hb : b.isVecSrc = true) : parseV3 (packVX op h (encOpd d) (encOpd a) (encOpd b) s3 md) f = .ok (f h d a b) := by
  simp [parseV3, packVX, decVH, dst, src, hd, ha, hb, -Nat.reduceAdd]

@[simp] theorem parseV4_packVX {f : VHdr → Opd → Opd → Opd → Opd → Instr} (hd : d.isVecDst = true) (ha : a.isVecSrc = true)
    (hb : b.isVecSrc = true) (hc : c.isVecSrc = true) :
    parseV4 (packVX op h (encOpd d) (encOpd a) (encOpd b) (encOpd c) md) f = .ok (f h d a b c) := by
  simp [parseV4, packVX, decVH, dst, src, hd, ha, hb, hc, -Nat.reduceAdd]

end

theorem parseVX_encodeVX {i : Instr} (hwf : i.wf = true) : ∀ w, encodeVX i = some w → parseVX w = .ok i := by
  cases i
  case vadd | vsub | vmul | vmin | vmax | vcmp | vand | vor | vxor | vshl | vshr | vshra | vperm | vbcast | viota | vpack | vgather =>
    rintro _ ⟨⟩
    simp only [Instr.wf, vec2Wf, Bool.and_eq_true] at hwf
    simp [parseVX, encV3, hwf, -Nat.reduceAdd]
  case vneg | vabs | vrcp | vrsq | vsqrt | vexp2 | vlog2 | vnot | vcvt | vredsum | vredmax | vredmin | vscan | vunpack | vld | vmov =>
    rintro _ ⟨⟩
    simp only [Instr.wf, vec1Wf, Bool.and_eq_true] at hwf
    simp [parseVX, encV2, hwf, -Nat.reduceAdd]
  case vfma | vfms | vsel | vquant | vslide | vosm =>
    rintro _ ⟨⟩
    simp only [Instr.wf, vec2Wf, Bool.and_eq_true] at hwf
    simp [parseVX, encV4, hwf, -Nat.reduceAdd]
  case vst =>
    rintro _ ⟨⟩
    simp only [Instr.wf, Bool.and_eq_true] at hwf
    simp [parseVX, encV2, packVX, decVH, src, hwf, -Nat.reduceAdd]
  case mand | mor | mnot =>
    rintro _ ⟨⟩
    simp [parseVX, -Nat.reduceAdd]
  case mpopc d _ =>
    rintro _ ⟨⟩
    have hd : d.isVecDst = true := hwf
    simp [parseVX, hd]
  all_goals exact fun _ h => nomatch h

/-! ### The MX, SL and CX bays -/

section

variable {op : BitVec 8} {h : CmdHdr} {pay : BitVec 47}

@[simp] theorem opcode_packCmd : fld (packCmd op h pay) 88 8 = op := by simp [packCmd, -Nat.reduceAdd]
@[simp] theorem pay_packCmd {lo n : Nat} (hn : n ≤ 47 - lo) : fld (packCmd op h pay) lo n = fld pay lo n := fld_append_low _ _ hn
@[simp] theorem payBit_packCmd {i : Nat} (hi : i < 47) : bit (packCmd op h pay) i = bit pay i := bit_append_low _ _ hi
@[simp] theorem decHdr_packCmd : decHdr (packCmd op h pay) = h := by simp [decHdr, packCmd, -Nat.reduceAdd]

@[simp] theorem src_packCmd {lo : Nat} (hlo : 10 ≤ 47 - lo) : src (packCmd op h pay) lo = src pay lo := by
  rw [src, src, pay_packCmd hlo]
@[simp] theorem dst_packCmd {lo : Nat} (hlo : 10 ≤ 47 - lo) : dst (packCmd op h pay) lo = dst pay lo := by
  rw [dst, dst, pay_packCmd hlo]
@[simp] theorem optSrc_packCmd {lo : Nat} (hlo : 10 ≤ 47 - lo) : optSrc (packCmd op h pay) lo = optSrc pay lo := by
  rw [optSrc, optSrc, pay_packCmd hlo]

@[simp] theorem parseSh_packCmd {f : CmdHdr → BitVec 16 → BitVec 16 → Option Opd → Instr} {s0 s1 : BitVec 16} {fmt : BitVec 5}
    {ca : Option Opd} (hca : caOk ca = true) : parseSh (packCmd op h (encSh s0 s1 fmt ca)) f = .ok (f h s0 s1 ca) := by
  simp [parseSh, encSh, optSrc_encOpt hca, -Nat.reduceAdd]

@[simp] theorem parseHi_packCmd {f : CmdHdr → Opd → Instr} {o : Opd} (ho : decSrc (encOpd o) = some o) :
    parseHi (packCmd op h (encHi o)) f = .ok (f h o) := by
  simp [parseHi, encHi, src, ho, -Nat.reduceAdd]

@[simp] theorem parseMma_packCmd {f : CmdHdr → MmaPay → Instr} {p : MmaPay} (hp : p.wf = true) :
    parseMma (packCmd op h (encMma p)) f = .ok (f h p) := by
  simp only [MmaPay.wf, Bool.and_eq_true] at hp
  simp [parseMma, encMma, src, hp, -Nat.reduceAdd]

end

theorem parseMX_encodeMX {i : Instr} (hwf : i.wf = true) : ∀ w, encodeMX i = some w → parseMX w = .ok i := by
  cases i
  case mma | mdist =>
    rintro _ ⟨⟩
    simp only [Instr.wf, Bool.and_eq_true] at hwf
    simp [parseMX, hwf]
  case mtopk | mzero | mdrain | mldacc =>
    rintro _ ⟨⟩
    simp only [Instr.wf, Bool.and_eq_true] at hwf
    simp [parseMX, src, dst, hwf, -Nat.reduceAdd]
  all_goals exact fun _ h => nomatch h

theorem parseSL_encodeSL {i : Instr} (hwf : i.wf = true) : ∀ w, encodeSL i = some w → parseSL w = .ok i := by
  cases i
  case sld | sfmt =>
    rintro _ ⟨⟩
    simp only [Instr.wf, Bool.and_eq_true] at hwf
    simp [parseSL, src, hwf, -Nat.reduceAdd]
  all_goals exact fun _ h => nomatch h

theorem parseCX_encodeCX {i : Instr} (hwf : i.wf = true) : ∀ w, encodeCX i = some w → parseCX w = .ok i := by
  cases i
  case cpyg | cpys | cpyx | cpysc | subs | callred | cred | cbc | cag | crsc =>
    rintro _ ⟨⟩
    obtain ⟨-, hca⟩ := Bool.and_eq_true_iff.mp hwf
    rw [parseCX, opcode_packCmd]
    exact parseSh_packCmd hca
  case cstep | opwait | opcancel | opdetach | opadopt | opquery | bustat | tlaunch | tdep =>
    rintro _ ⟨⟩
    obtain ⟨-, ho⟩ := Bool.and_eq_true_iff.mp hwf
    rw [parseCX, opcode_packCmd]
    exact parseHi_packCmd (by simp [ho])
  case cpy =>
    rintro _ ⟨⟩
    obtain ⟨-, hca⟩ := Bool.and_eq_true_iff.mp hwf
    simp [parseCX, encSh, optSrc_encOpt hca, -Nat.reduceAdd]
  case cplan =>
    rintro _ ⟨⟩
    simp only [Instr.wf, Bool.and_eq_true] at hwf
    obtain ⟨⟨-, ho⟩, hca⟩ := hwf
    simp [parseCX, optSrc_encOpt hca, src, ho, -Nat.reduceAdd]
  case bqpost =>
    rintro _ ⟨⟩
    simp only [Instr.wf, Bool.and_eq_true] at hwf
    obtain ⟨⟨⟨-, ho⟩, hd⟩, hca⟩ := hwf
    simp [parseCX, optSrc_encOpt hca, src, ho, hd, -Nat.reduceAdd]
  case bwait h b p =>
    rintro _ ⟨⟩
    cases p with
    | none => simp [parseCX, encOpt, -Nat.reduceAdd]
    | some o =>
      simp only [Instr.wf, Bool.and_eq_true] at hwf
      simp [parseCX, encOpt, src, hwf, -Nat.reduceAdd]
  case unsubs | qunsplice | qstat =>
    rintro _ ⟨⟩
    simp [parseCX, encQ, -Nat.reduceAdd]
  case qspliceSend | qspliceRecv | qreset | binit | bclear | bufset | leaseRcl | lfree | publish =>
    rintro _ ⟨⟩
    simp [parseCX, -Nat.reduceAdd]
  case qinit | qpush | qpop | bexpect | barrive | bufdecl | buprog | burun | lease =>
    rintro _ ⟨⟩
    simp only [Instr.wf, Bool.and_eq_true] at hwf
    simp [parseCX, src, hwf, -Nat.reduceAdd]
  all_goals exact fun _ h => nomatch h

/-! ### Micro-ops (R310) -/

theorem parseBU_encodeBU {i : Instr} : ∀ w, encodeBU i = some w → parseBU w = .ok i := by
  cases i
  case buhalt | burow | buldw | buwid | bufadd | bufmul | bufmax | bufma | buiadd | bubc | bursum | buexp | buzero | busetlc
      | buloop | buemit =>
    rintro _ ⟨⟩
    simp [parseBU, packBU, -Nat.reduceAdd]
  all_goals exact fun _ h => nomatch h

/-! ### Every bay -/

theorem parse_encode {i : Instr} {e : Enc} (hwf : i.wf = true) (h : encode i = some e) : parse e = .ok i := by
  unfold encode at h
  split at h
  next w hw => cases h; exact parseBR_encodeBR hwf w hw
  split at h
  next w hw => cases h; exact parseAB_encodeAB hwf _ w hw
  next w hw => cases h; exact parseAB_encodeAB hwf _ w hw
  split at h
  next w hw => cases h; exact parseVX_encodeVX hwf w hw
  split at h
  next w hw => cases h; exact parseMX_encodeMX hwf w hw
  split at h
  next w hw => cases h; exact parseCX_encodeCX hwf w hw
  split at h
  next w hw => cases h; exact parseSL_encodeSL hwf w hw
  split at h
  next w hw => cases h; exact parseBU_encodeBU w hw
  split at h
  next hi => cases h; exact congrArg _ hi.symm
  next => cases h

end Sys2Proof

open Sys2Proof Sys2Proof.Machine

/-- Settles O59: the bay's parser reads the instruction back, and the decoder then finds the word it encodes to and its form in order. -/
theorem decodeEncode : Obligations.DecodeEncode := by
  intro i e hwf henc
  simp [decode, parse_encode hwf henc, henc, hwf]

/-- Settles O58: the decoder is run on each word and on the bundle. -/
theorem decodeWords : Obligations.DecodeWords := by
  unfold Obligations.DecodeWords
  decide

end

section
/-!
PROOF. Transfers, calls and loops (R57, R60, R108 to R110): the addresses they name, the one register they may write, and what they leave
alone.
-/

namespace Sys2Proof.Machine

/-! ### The addresses of labels and of returns -/

/-- An address with its low four bits cleared. -/
theorem clear_low_bits (n : Nat) : BitVec.ofNat 57 n &&& ~~~15#57 = BitVec.ofNat 57 (n / 2 ^ 4 * 2 ^ 4) := by
  refine BitVec.eq_of_getLsbD_eq (fun i hi => ?_)
  have h15 : Nat.testBit 15 i = decide (i < 4) := Nat.testBit_two_pow_sub_one 4 i
  rw [BitVec.getLsbD_and, BitVec.getLsbD_not, BitVec.getLsbD_ofNat, BitVec.getLsbD_ofNat, BitVec.getLsbD_ofNat, h15,
    Nat.testBit_mul_two_pow, Nat.testBit_div_two_pow]
  by_cases h4 : 4 ≤ i
  · simp [hi, h4]
  · simp [hi, h4, not_le.mp h4]

/-- A signed offset in units of 16. -/
theorem signExtend_shiftLeft_four (t : BitVec 17) : t.signExtend 57 <<< 4 = BitVec.ofInt 57 (16 * t.toInt) := by
  rw [BitVec.shiftLeft_eq_mul_twoPow, mul_comm (16 : Int), BitVec.ofInt_mul]
  rfl

theorem labelTarget_eq_labelRule (bundle : Nat) (t : BitVec 17) : labelTarget bundle t = labelRule bundle t := by
  rw [labelRule, clear_low_bits, signExtend_shiftLeft_four, ← BitVec.ofInt_natCast, ← BitVec.ofInt_add, BitVec.toNat_ofInt]
  rfl

/-! ### A register the BR bay writes -/

theorem TaskSt.putScalar_keeps (t : TaskSt) {k : Nat} (hk : k ≤ RegKey.yb) (x : Word) (c : Nat) :
    t.onlyRegs (t.putScalar k x c)
      ∧ (∀ k', k' ≤ RegKey.yb → k' ∉ [k] → (t.putScalar k x c).scalar k' = t.scalar k')
      ∧ (∀ k', (k' = RegKey.yv ∨ RegKey.w 0 ≤ k') → k' ∉ [k] → (t.putScalar k x c).vector k' = t.vector k')
      ∧ ∀ i, RegKey.m i ∉ [k] → (t.putScalar k x c).mask i = t.mask i :=
  ⟨.putScalar _ _ _ _, fun _ hk' hn => scalar_putScalar_ne _ _ _ _ _ hk hk' (List.mem_singleton.not.mp hn),
    fun _ _ _ => vector_putScalar _ _ _ _ _, fun _ _ => mask_putScalar _ _ _ _ _⟩

theorem wrBr_writes (s : State) (d : Opd) (x : Word) :
    (∀ k ∈ (sKey d).toList, (wrBr s d x).me.scalar k = x ∧ NMap.get 0 (wrBr s d x).me.rdy k = s.now + 1)
      ∧ quiet s (wrBr s d x) (sKey d).toList := by
  unfold wrBr
  cases hd : sKey d with
  | none => exact ⟨fun _ h => absurd h List.not_mem_nil, (bayReads.refl s).quiet⟩
  | some k =>
    have hk := sKey_le hd
    refine ⟨fun k' hk' => ?_, quiet_of_reads (bayReads.refl s) _ _ (fun t => t.putScalar_keeps hk x _)⟩
    obtain rfl := List.mem_singleton.mp hk'
    rw [State.me_onTask]
    exact ⟨TaskSt.scalar_putScalar_self _ _ _ _ hk, TaskSt.rdy_putScalar_self _ _ _ _⟩

/-! ### A bundle that transfers control, or goes on -/

/-- The state in which the bundle transfers to an address, or to none. -/
def State.goesTo (s : State) : Option Nat → State
  | some x => s.transferTo x
  | none => s

theorem State.goesTo_ite (s : State) (p : Prop) [Decidable p] (x : Nat) :
    s.goesTo (if p then some x else none) = if p then s.transferTo x else s := by split <;> rfl

theorem State.goesTo_now (s : State) (x : Option Nat) : (s.goesTo x).now = s.now := by cases x <;> rfl

theorem State.goesTo_wrBr (s : State) (d : Opd) (v : Word) (x : Option Nat) : (wrBr s d v).goesTo x = wrBr (s.goesTo x) d v := by
  unfold wrBr
  cases x <;> cases sKey d <;> rfl

/-- A bay's reads see nothing of a transfer. -/
theorem bayReads.goesTo {s t : State} (h : bayReads s t) (x : Option Nat) : bayReads (s.goesTo x) (t.goesTo x) := by
  cases x with
  | none => exact h
  | some x =>
    obtain ⟨⟨_, _, _, _, rfl⟩, hdie, hne, hcore⟩ := h
    exact ⟨⟨_, _, _, _, rfl⟩, hdie, hne, hcore⟩

/-- What the statement says of a bundle that goes to `x`, if it goes anywhere, and writes the registers `ws`. -/
def State.controls (s u : State) (x : Option Nat) (ws : List (Nat × Word)) : Prop :=
  (∀ e ∈ ws, u.me.scalar e.1 = e.2 ∧ NMap.get 0 u.me.rdy e.1 = s.now + 1) ∧ quiet (s.goesTo x) u (ws.map Prod.fst)

/-- A bundle that writes no register. -/
theorem State.controls_nil {s u : State} {x : Option Nat} (h : bayReads (s.goesTo x) u) : s.controls u x [] :=
  ⟨fun _ he => absurd he List.not_mem_nil, h.quiet⟩

/-- A bay that writes one register, if its destination is one. -/
theorem State.controls_wrBr (s : State) (d : Opd) (v : Word) (x : Option Nat) :
    s.controls ((wrBr s d v).goesTo x) x ((sKey d).toList.map (fun k => (k, v))) := by
  obtain ⟨hval, hquiet⟩ := wrBr_writes (s.goesTo x) d v
  have hkeys : ((sKey d).toList.map (fun k => (k, v))).map Prod.fst = (sKey d).toList := by
    rw [List.map_map]
    exact List.map_id _
  rw [State.controls, s.goesTo_wrBr, hkeys]
  refine ⟨fun e he => ?_, hquiet⟩
  obtain ⟨k, hk, rfl⟩ := List.mem_map.mp he
  rw [← s.goesTo_now x]
  exact hval k hk

/-! ### The bays of the transfers -/

/-- A bay that reads its source and transfers control, or goes on. -/
theorem exec_controls {s : State} {i : Instr} {a : Opd} {x : Option Nat} (ha : s.canRead a)
    (hi : exec i s = bayOp s [.s a] [] (fun u => u.goesTo x)) : ∃ u, exec i s = .next u ∧ s.controls u x [] :=
  ⟨_, hi.trans (bayOp_next _ (chanFault_of_canRead ha)), State.controls_nil ((bayReads.bay s [.s a]).goesTo x)⟩

theorem exec_brz (s : State) (a : Opd) (t : BitVec 17) : exec (.brz a t) s
    = bayOp s [.s a] [] (fun u => u.goesTo (if rdS s a = 0 then some (labelTarget s.iss.bundle t) else none)) := by
  simp only [State.goesTo_ite]
  rfl

theorem exec_brnz (s : State) (a : Opd) (t : BitVec 17) : exec (.brnz a t) s
    = bayOp s [.s a] [] (fun u => u.goesTo (if rdS s a ≠ 0 then some (labelTarget s.iss.bundle t) else none)) := by
  simp only [State.goesTo_ite]
  rfl

theorem exec_loop (s : State) (d : Opd) (t : BitVec 17) : exec (.loop d t) s
    = .next (let n := rdS s d
        (wrBr s d (if 1 < n.toNat then n - 1 else 0)).goesTo (if 1 < n.toNat then some (labelTarget s.iss.bundle t) else none)) := by
  change Host.Outcome.next _ = _
  dsimp only
  by_cases h : 1 < (rdS s d).toNat
  · simp only [if_pos h]
    rfl
  · simp only [if_neg h]
    rfl

end Sys2Proof.Machine

open Sys2Proof Sys2Proof.Machine

/-- Settles O13: each form reads its source, if it has one, goes to its target or on, and writes at most its destination. -/
theorem controlTransfers : Obligations.ControlTransfers := by
  intro s a d t
  simp only [controlForms, List.forall_mem_cons, ← labelTarget_eq_labelRule]
  refine ⟨?nop, ?empty, ?jmp, ?jmpi, ?brz, ?brnz, ?call, ?ret, ?loop, fun _ h => absurd h List.not_mem_nil⟩
  case nop => exact fun _ => ⟨_, rfl, State.controls_nil (x := none) (bayReads.refl s)⟩
  case empty => exact fun _ => ⟨_, rfl, State.controls_nil (x := none) (bayReads.refl s)⟩
  case jmp => exact fun _ => ⟨_, rfl, State.controls_nil (x := some _) (bayReads.refl _)⟩
  case jmpi => exact fun ⟨ha, _⟩ => exec_controls (x := some _) ha rfl
  case brz => exact fun ⟨ha, _⟩ => exec_controls ha (exec_brz s a t)
  case brnz => exact fun ⟨ha, _⟩ => exec_controls ha (exec_brnz s a t)
  case call => exact fun _ => ⟨_, rfl, s.controls_wrBr d _ (some _)⟩
  case ret => exact fun ⟨ha, _⟩ => exec_controls (x := some _) ha rfl
  case loop => exact fun _ => ⟨_, exec_loop s d t, s.controls_wrBr d _ _⟩

end

section
/-!
PROOF. The channel faults of a bay (R81, R86, R170, R176): every bay makes the check of its channels before anything else.
-/

namespace Sys2Proof.Machine

/-! ### The first fault of a list -/

/-- The record a channel fault makes: its code alone. -/
def channelRecord (code : Nat) : IssueFault := (code, 0, 0)

theorem srcFault_eq_sourceRule (s : State) (u : Use) :
    srcFault s.iss.pre s.now u = (sourceRule s u).map channelRecord := by
  cases u with
  | m i => rfl
  | tok r => rfl
  | id o => rfl
  | s o | v o =>
    cases o
    case peek q n | pop q n =>
      simp only [srcFault, Use.chan, sourceRule, Bool.not_eq_true', Bool.and_eq_true, beq_iff_eq]
      split <;> [rfl; split <;> [rfl; split <;> rfl]]
    all_goals rfl

theorem dstFault_eq_appendRule (s : State) (d : Def) :
    dstFault s.iss.pre d = (appendRule s d).map channelRecord := by
  cases d with
  | m i => rfl
  | tok r => rfl
  | s o | v o =>
    cases o
    case app q =>
      simp only [dstFault, Def.app, appendRule, Bool.not_eq_true', Bool.and_eq_true, beq_iff_eq]
      split <;> [rfl; split <;> rfl]
    all_goals rfl

theorem findSome?_map_eq_head? {α β γ : Type} (f : α → Option β) (g : β → γ) (l : List α) :
    l.findSome? (fun x => (f x).map g) = ((l.filterMap f).head?).map g := by
  rw [List.head?_filterMap]
  induction l with
  | nil => rfl
  | cons x l ih => cases h : f x <;> simp [List.findSome?, h, ih]

/-- The check of a bay's channels finds the first fault the rules name. -/
theorem chanFault_eq_rules (s : State) (us : List Use) (ds : List Def) :
    chanFault s.iss.pre s.now us ds = ((us.filterMap (sourceRule s) ++ ds.filterMap (appendRule s)).head?).map channelRecord := by
  have hus : us.findSome? (srcFault s.iss.pre s.now) = ((us.filterMap (sourceRule s)).head?).map channelRecord := by
    rw [← findSome?_map_eq_head?]
    exact congrArg (us.findSome? ·) (funext (srcFault_eq_sourceRule s))
  have hds : ds.findSome? (dstFault s.iss.pre) = ((ds.filterMap (appendRule s)).head?).map channelRecord := by
    rw [← findSome?_map_eq_head?]
    exact congrArg (ds.findSome? ·) (funext (dstFault_eq_appendRule s))
  rw [chanFault, hus, hds, List.head?_append]
  cases (us.filterMap (sourceRule s)).head? <;> rfl

/-! ### A bay that has a channel fault -/

section

variable {s : State} {us : List Use} {ds : List Def} {e : IssueFault} {f : Option IssueFault} {eff : State → State}

theorem bayOp_chanFault (h : chanFault s.iss.pre s.now us ds = some e) : bayOp s us ds eff = .next (s.takeFault e.1 e.2.1 e.2.2) := by
  rw [bayOp, h]
  rfl

theorem bayOpF_chanFault {lat : Nat} (h : chanFault s.iss.pre s.now us ds = some e) :
    bayOpF s us ds f eff lat = .next (s.takeFault e.1 e.2.1 e.2.2) := by
  rw [bayOpF, h]
  rfl

theorem aluTwo_chanFault {b : Bay2} {d x y : Opd} {g : Word → Word → Word} (h : chanFault s.iss.pre s.now [.s x, .s y] [.s d] = some e) :
    aluTwo s b d x y g = .next (s.takeFault e.1 e.2.1 e.2.2) := bayOp_chanFault h

theorem aluOne_chanFault {b : Bay2} {d x : Opd} {g : Word → Word} (h : chanFault s.iss.pre s.now [.s x] [.s d] = some e) :
    aluOne s b d x g = .next (s.takeFault e.1 e.2.1 e.2.2) := bayOp_chanFault h

theorem vecOp_chanFault {d : Opd} {os : List Opd} {r : VReg × FFlags} (h : chanFault s.iss.pre s.now (os.map .v) [.v d] = some e) :
    vecOp s d os r = .next (s.takeFault e.1 e.2.1 e.2.2) := bayOp_chanFault h

theorem vecMap1_chanFault {h : VHdr} {d a : Opd} {g : Nat → Nat × FFlags} (hf : chanFault s.iss.pre s.now [.v a] [.v d] = some e) :
    vecMap1 s h d a g = .next (s.takeFault e.1 e.2.1 e.2.2) := vecOp_chanFault hf

theorem vecMap2_chanFault {h : VHdr} {bw : Bool} {d a b : Opd} {g : Nat → Nat → Nat × FFlags}
    (hf : chanFault s.iss.pre s.now [.v a, .v b] [.v d] = some e) :
    vecMap2 s h bw d a b g = .next (s.takeFault e.1 e.2.1 e.2.2) := vecOp_chanFault hf

theorem vecMap3_chanFault {h : VHdr} {d a b c : Opd} {g : Nat → Nat → Nat → Nat × FFlags}
    (hf : chanFault s.iss.pre s.now [.v a, .v b, .v c] [.v d] = some e) :
    vecMap3 s h d a b c g = .next (s.takeFault e.1 e.2.1 e.2.2) := vecOp_chanFault hf

variable {i : Instr} (h : chanFault s.iss.pre s.now (uses i) (defs i) = some e) {os imgs : List Opd}

include h

theorem cmdOp_chanFault : cmdOp s i f eff = .next (s.takeFault e.1 e.2.1 e.2.2) := by
  rw [cmdOp, h]
  rfl

theorem plainCmd_chanFault : plainCmd s i os = .next (s.takeFault e.1 e.2.1 e.2.2) := cmdOp_chanFault h

theorem caCmd_chanFault {ca : Option Opd} : caCmd s i os ca = .next (s.takeFault e.1 e.2.1 e.2.2) := by
  unfold caCmd
  exact cmdOp_chanFault h

theorem mxCmd_chanFault {scales : List (BitVec 32)} {app : Option Nat} :
    mxCmd s i os imgs scales app = .next (s.takeFault e.1 e.2.1 e.2.2) := cmdOp_chanFault h

end

/-- A register is no channel. -/
theorem chanFault_of_isReg {d : Opd} (h : d.isReg = true) (c : Core) (now : Nat) :
    chanFault c now [] [.s d] = none ∧ chanFault c now [.s d] [.s d] = none := by
  cases d
  case file i | main i => exact ⟨rfl, rfl⟩
  all_goals exact nomatch h


/-- The comparison value of a compare-and-swap is a third source. -/
theorem uses_amo (d a v : Opd) (kind : BitVec 4) (ord : BitVec 2) (wid : Bool) (scope : BitVec 3) :
    uses (.amo d a v kind ord wid scope) = [.s a, .s v] ++ if kind = 9 then [.s d] else [] := by
  change (if kind = 9 then _ else _) = _
  split <;> rfl

/-- A bay with a channel fault takes it, whatever else it would do. -/
theorem exec_chanFault {i : Instr} {s : State} {e : IssueFault} (hwf : i.wf = true)
    (h : chanFault s.iss.pre s.now (uses i) (defs i) = some e) : exec i s = .next (s.takeFault e.1 e.2.1 e.2.2) := by
  unfold exec
  cases i
  case call => exact nomatch (chanFault_of_isReg hwf _ _).1.symm.trans h
  case loop => exact nomatch (chanFault_of_isReg hwf _ _).2.symm.trans h
  case jmpi | brz | brnz | ret | trap | sel | li | bfi | srd | cycest => exact bayOp_chanFault (by exact h)
  case vcmp =>
    delta execVcmp
    exact bayOp_chanFault (by exact h)
  case add | sub | mul | mulh | mulhn | div | divn | rem | remn | and | or | xor | andn | orn | shl | shrl | shra | rotl | rotr
      | min | max | minn | maxn | cmp | lea | bfx =>
    exact aluTwo_chanFault h
  case addi | clz | ctz | popc | lui | sext | zext | mov => exact aluOne_chanFault h
  case vneg | vabs | vrcp | vrsq | vsqrt | vexp2 | vlog2 =>
    delta execVneg execVabs execVrcp execVrsq execVsqrt execVexp2 execVlog2
    exact vecMap1_chanFault (by exact h)
  case vadd | vsub | vmul | vmin | vmax | vand | vor | vxor | vshl | vshr | vshra =>
    delta execVadd execVsub execVmul execVmin execVmax execVand execVor execVxor execVshl execVshr execVshra
    exact vecMap2_chanFault (by exact h)
  case vfma | vfms | vsel =>
    delta execVfma execVfms execVsel
    exact vecMap3_chanFault (by exact h)
  case vperm | vbcast | viota | vpack | vslide | vosm | vquant | vnot | vcvt | vredsum | vredmax | vredmin | vscan | vunpack | vmov
      | mpopc =>
    delta execVperm execVbcast execViota execVpack execVslide execVosm execVquant execVnot execVcvt execVredsum execVredmax execVredmin
      execVscan execVunpack execVmov execMpopc
    exact vecOp_chanFault (by exact h)
  case ld | st | ldsp | stsp | spst | spld | swr | setprio | vld | vst | vgather | sld =>
    delta execLd execSt execLdsp execStsp execSpst execSpld execSwr execSetprio execVld execVst execVgather execSld
    exact bayOpF_chanFault (by exact h)
  case amo =>
    delta execAmo
    exact bayOpF_chanFault (by rw [← uses_amo]; exact h)
  case mma | mdist | mtopk | mzero | mdrain | mldacc => exact mxCmd_chanFault h
  case cpy | cpyg | cpys | cpyx | cpysc | subs | callred | cred | cbc | cag | crsc | cplan | bqpost => exact caCmd_chanFault (by exact h)
  case cstep | unsubs | opwait | opcancel | opdetach | opadopt | opquery | qinit | qspliceSend | qspliceRecv | qunsplice | qreset | qstat
      | qpush | qpop | binit | bclear | bufset | bexpect | barrive | bwait | bufdecl | buprog | burun | bustat | tlaunch | tdep
      | lease | leaseRcl | lfree | publish =>
    exact plainCmd_chanFault h
  all_goals exact nomatch h

end Sys2Proof.Machine

open Sys2Proof Sys2Proof.Machine

/-- Settles O3: the check of a bay's channels finds the first fault the rules name, and no bay has an effect before it. -/
theorem channelFaults : Obligations.ChannelFaults := by
  intro i s code hwf hfirst
  refine exec_chanFault (e := channelRecord code) hwf ?_
  rw [chanFault_eq_rules, hfirst]
  rfl

end

section
/-!
PROOF. A vector result in an append (R82, R120, R126, R167), with the mask a comparison writes beside it, and the step in which the bytes of
an append reach their slot.
-/

namespace Sys2Proof.Machine

/-! ### A vector result in an append, beside a mask -/

/-- What an append that is promised does to its queue does not depend on what the bay does to the task. -/
theorem appendsLater_onTask {s t : State} {q : BitVec 5} {bs : List Byte} {lat n : Nat} (f : TaskSt → TaskSt) :
    appendsLater s (t.onTask n f) q bs lat ↔ appendsLater s t q bs lat := by
  simp only [appendsLater, State.queue_onTask]
  rfl

theorem appendsLater_promised {s u : State} (h : bayReads s u) (q : BitVec 5) (x : VReg) {lat : Nat} (hl : 1 < lat) (f : TaskSt → TaskSt) :
    appendsLater s ((u.promised q x lat).onTask s.cur f) q (slotBytes s q x) lat := by
  have happ := appendsLater_appendVector h q (x, 0) hl
  rw [appendVector_eq h q (x, 0) hl, appendsLater_onTask] at happ
  exact (appendsLater_onTask f).mpr happ

/-- A bay's reads, the promise of an append, and a change of the task that puts the result into `yv` and queues no flags. -/
theorem sendsVector_promised {s u : State} (h : bayReads s u) (q : BitVec 5) {x : VReg} (lat : Nat) {ks : List Nat} {P : TaskSt → TaskSt}
    (hself : ∀ t, (P t).vector RegKey.yv = x) (hkeep : ∀ t : TaskSt, t.keepsBut (P t) (RegKey.yv :: ks)) :
    sendsVector s ((u.promised q x lat).onTask s.cur P) x 0 lat ks := by
  have hcur : (u.promised q x lat).cur = s.cur := h.cur_eq
  have htask : ((u.promised q x lat).core s.cur).t = u.me := by
    rw [← hcur]
    exact u.me_promised q x lat
  have hme : ((u.promised q x lat).onTask s.cur P).me = P u.me := by
    rw [← hcur, State.me_onTask, State.me_promised]
  have hflag : (P u.me).flagq = s.me.flagq := by
    obtain ⟨la, da, hu⟩ := h.me_eq
    exact (hkeep u.me).flagq.trans (by rw [hu])
  have hdrop : ((u.promised q x lat).onTask s.cur P).onTask s.cur (fun k => { k with flagq := s.me.flagq })
      = (u.promised q x lat).onTask s.cur P := by
    rw [State.onTask_onTask]
    refine State.onTask_congr _ _ ?_
    rw [htask, ← hflag]
  obtain ⟨hregs, hkeeps, hrest, -⟩ : quiet s ((u.promised q x lat).onTask s.cur P) (RegKey.yv :: ks) := by
    rw [← h.cur_eq, State.promised_onTask, h.cur_eq]
    exact ((quiet_of_reads h _ _ hkeep).onQueue _ _).post _ _
  unfold sendsVector
  simp only [State.onTask_cur, hcur, hdrop]
  exact ⟨by rw [hme]; exact hself u.me, by rw [hme, hflag]; rfl, hregs, hkeeps, hrest⟩

/-- A vector bay that writes a mask beside its result, with an append as its destination. -/
theorem bayOp_wrM_sendsVector {s : State} {os : List Opd} {q : BitVec 5} (r : VReg) (mw : BitVec 3) (x : LaneMask)
    (h : chanFault s.iss.pre s.now (os.map .v) [.v (.app q)] = none) :
    ∃ t, bayOp s (os.map .v) [.v (.app q)] (fun t => wrM (wrV t (.app q) r) mw.toNat x) = .next t
      ∧ sendsVector s t r 0 4 (if mw = 0 then [] else [RegKey.m mw.toNat]) ∧ appendsLater s t q (slotBytes s q r) 4 := by
  have hr := bayReads.bay s (os.map .v)
  refine ⟨_, bayOp_next _ h, ?_⟩
  rw [wrV_app _ q r (by decide), hr.cur_eq, hr.now_eq]
  by_cases hz : mw = 0
  · subst hz
    rw [if_pos rfl, show BitVec.toNat (0 : BitVec 3) = 0 from rfl, wrM_zero]
    exact ⟨sendsVector_promised hr q 4 (fun t => TaskSt.vector_putVector_self t _ _ _ (.inl rfl))
      (fun t => t.keepsBut_putVector _ _ (.inl rfl)), appendsLater_promised hr q r (by decide) _⟩
  · have hcur : ((popAll (s.readSlots (os.map .v)) (os.map .v)).promised q r 4).cur = s.cur := hr.cur_eq
    have hnow : ((popAll (s.readSlots (os.map .v)) (os.map .v)).promised q r 4).now = s.now := hr.now_eq
    rw [if_neg hz, wrM_of_ne _ (toNat_ne_zero hz), State.onTask_cur, State.onTask_now, hcur, hnow, State.onTask_onTask]
    exact ⟨sendsVector_promised hr q 4 (fun t => (putVectorsMask_self (.app q) r _ x _ t _ List.mem_cons_self).1)
      (fun t => putVectorsMask_keeps (.app q) r _ x _ t), appendsLater_promised hr q r (by decide) _⟩

/-- What a vector instruction with an append as its destination leaves. -/
theorem isVectorBay.sendsVector {s : State} {i : Instr} {q : BitVec 5} {os : List Opd} {r : VReg × FFlags} (h : isVectorBay s i (.app q) os r)
    (hread : ∀ o ∈ os, s.canRead o) (hw : s.canWrite (.app q)) :
    ∃ t, exec i s = .next t ∧ Machine.sendsVector s t r.1 r.2 4 (maskKey i) ∧ appendsLater s t q (slotBytes s q r.1) 4 := by
  have hchan := chanFault_vector hread hw
  obtain ⟨he, hk⟩ | ⟨mw, x, he, hk, hfl⟩ := h
  · rw [he, hk]
    exact vecOp_sendsVector r hchan
  · rw [he, hk, hfl]
    exact bayOp_wrM_sendsVector r.1 mw x hchan

end Sys2Proof.Machine
end

section
/-!
PROOF. Whole lines written to scratchpad (R19, R295): the words of storage they fill, the check bits and the poison bits they clear.
-/

namespace Sys2Proof.Machine

/-! ### What a run of words leaves -/

/-- The first `n` words of a run, written from an address upward. -/
def Memory.writeWords (m : Memory) (a n : Nat) (bs : List Byte) : Memory :=
  (List.range n).foldl (fun m i => m.writeN (a + 8 * i) ((bs.drop (8 * i)).take 8)) m

/-- The keys from `k` on, taken out of a map. -/
def NMap.eraseRun {α : Type} (m : NMap α) (k n : Nat) : NMap α := (List.range n).foldl (fun m i => NMap.erase m (k + i)) m

theorem foldl_range_succ {α : Type} (f : α → Nat → α) (n : Nat) (a : α) :
    (List.range (n + 1)).foldl f a = (List.range n).foldl (fun x i => f x (i + 1)) (f a 0) := by
  rw [List.range_succ_eq_map, List.foldl_cons, List.foldl_map]

theorem Memory.writeWords_succ (m : Memory) (a n : Nat) (bs : List Byte) :
    m.writeWords a (n + 1) bs = (m.writeN a (bs.take 8)).writeWords (a + 8) n (bs.drop 8) := by
  have hstep (i : Nat) : a + 8 * (i + 1) = a + 8 + 8 * i ∧ bs.drop (8 * (i + 1)) = (bs.drop 8).drop (8 * i) :=
    ⟨by omega, by rw [List.drop_drop]; congr 1; omega⟩
  simp only [Memory.writeWords, foldl_range_succ, hstep]
  rfl

theorem Memory.read_writeWords_out (m : Memory) (a n x : Nat) (bs : List Byte) (hx : x < a ∨ a + 8 * n ≤ x) :
    (m.writeWords a n bs).read x = m.read x := by
  induction n generalizing m a bs with
  | zero => rfl
  | succ n ih =>
    have hlen : (bs.take 8).length ≤ 8 := List.length_take_le 8 bs
    rw [Memory.writeWords_succ, ih _ _ _ (by omega), Memory.read_writeN_out _ _ _ _ (by omega)]

theorem NMap.eraseRun_succ {α : Type} (m : NMap α) (k n : Nat) : NMap.eraseRun m k (n + 1) = NMap.eraseRun (NMap.erase m k) (k + 1) n := by
  have hstep : (fun (m : NMap α) i => NMap.erase m (k + (i + 1))) = fun m i => NMap.erase m (k + 1 + i) :=
    funext fun _ => funext fun i => by rw [Nat.add_right_comm]; rfl
  rw [NMap.eraseRun, foldl_range_succ, hstep]
  rfl

/-- A key that reads as the default goes on to do so. -/
theorem NMap.get_erase_default {α : Type} {d : α} {m : NMap α} {k : Nat} (h : NMap.get d m k = d) (j : Nat) :
    NMap.get d (NMap.erase m j) k = d := by
  by_cases hk : k = j
  · subst hk
    exact NMap.get_erase_self d m k
  · rw [NMap.get_erase_ne d m j k hk, h]

theorem NMap.get_eraseRun {α : Type} (d : α) (m : NMap α) (k n : Nat) {i : Nat} (h : NMap.get d m i = d ∨ k ≤ i ∧ i < k + n) :
    NMap.get d (NMap.eraseRun m k n) i = d := by
  induction n generalizing m k with
  | zero =>
    obtain h | h := h
    · exact h
    · omega
  | succ n ih =>
    rw [NMap.eraseRun_succ]
    refine ih _ _ ?_
    obtain h | h := h
    · exact .inl (NMap.get_erase_default h k)
    · by_cases hk : i = k
      · subst hk
        exact .inl (NMap.get_erase_self d m i)
      · exact .inr (by omega)

/-! ### Words of scratchpad -/

theorem Addr.pad_add (core x n : Nat) : Addr.pad core (x + n) = Addr.pad core x + n := by
  unfold Addr.pad
  omega

theorem Addr.pad_div_eight (core x : Nat) : (Addr.pad core x + 8) / 8 = Addr.pad core x / 8 + 1 := by
  omega

/-- One whole word: its bytes, and its check bits, which are correct from then on. -/
theorem padWriteWord_whole (s : State) (core x ctx : Nat) (bs : List Byte) (r : RecInfo) (hb : bs.length = 8) :
    s.padWriteWord core x (bs.map some) ctx r
      = { s with mem := s.mem.writeN (Addr.pad core x) bs, padErr := NMap.erase s.padErr (Addr.pad core x / 8) } := by
  have hnone : (bs.map some).all (fun b => b.isNone) = false := by cases bs <;> simp_all
  have hsome : (bs.map some).all (fun b => b.isSome) = true := by simp
  simp only [State.padWriteWord, hnone, hsome, List.length_map, hb, beq_self_eq_true, Bool.and_true, Bool.not_false, Bool.false_eq_true,
    if_false, if_true]
  rfl

/-- A run of whole words. -/
theorem padWriteAux_words (s : State) (core ctx : Nat) (r : RecInfo) {fuel n x : Nat} {bs : List Byte} (hx : x % 8 = 0)
    (hb : bs.length = 8 * n) (hn : n ≤ fuel) :
    s.padWriteAux core ctx r fuel x (bs.map some)
      = { s with mem := s.mem.writeWords (Addr.pad core x) n bs, padErr := NMap.eraseRun s.padErr (Addr.pad core x / 8) n } := by
  induction fuel generalizing s n x bs with
  | zero =>
    obtain rfl : n = 0 := by omega
    simp only [State.padWriteAux, Memory.writeWords, NMap.eraseRun, List.range_zero, List.foldl_nil]
  | succ fuel ih =>
    rw [State.padWriteAux]
    simp only [hx, Nat.sub_zero, List.map_drop.symm, List.map_take.symm]
    cases n with
    | zero =>
      obtain rfl := List.length_eq_zero_iff.mp hb
      simpa [Memory.writeWords, NMap.eraseRun] using ih s (n := 0) (x := x + 8) (bs := []) (by omega) rfl (by omega)
    | succ n =>
      have hne : (bs.map some).isEmpty = false := by cases bs <;> simp_all
      have hlen : (bs.take 8).length = 8 := by rw [List.length_take]; omega
      rw [hne, if_neg Bool.false_ne_true, padWriteWord_whole _ _ _ _ _ _ hlen,
        ih _ (n := n) (by omega) (by rw [List.length_drop]; omega) (by omega), Addr.pad_add, Memory.writeWords_succ,
        Addr.pad_div_eight, NMap.eraseRun_succ]

/-! ### Lines of scratchpad -/

theorem padLine_add (core x i : Nat) : padLine core (x + 64 * i) = padLine core x + i := by
  unfold padLine Addr.pad
  omega

/-- The first `n` of `k` lines lose their poison bits. -/
theorem foldl_erase_poison (s : State) (core x n k : Nat) :
    ∃ po, (List.range k).foldl (fun (s : State) i =>
        if i < n then { s with padPoison := NMap.erase s.padPoison (padLine core x + i) } else s) s = { s with padPoison := po }
      ∧ ∀ i, i < n → i < k → NMap.get false po (padLine core x + i) = false := by
  induction k with
  | zero => exact ⟨s.padPoison, rfl, fun i _ h => absurd h (Nat.not_lt_zero i)⟩
  | succ k ih =>
    obtain ⟨po, he, hpo⟩ := ih
    rw [List.range_succ, List.foldl_append, he, List.foldl_cons, List.foldl_nil]
    by_cases hk : k < n
    · refine ⟨NMap.erase po (padLine core x + k), if_pos hk, fun i hi hik => ?_⟩
      obtain h | rfl := Nat.lt_succ_iff_lt_or_eq.mp hik
      · exact NMap.get_erase_default (hpo i hi h) _
      · exact NMap.get_erase_self _ _ _
    · exact ⟨po, if_neg hk, fun i hi hik => hpo i hi (by omega)⟩

/-- Whole lines written: their words, their check bits, and their poison bits, which are clear from then on. -/
theorem padPut_lines (s : State) (core : Nat) {x n : Nat} {bs : List Byte} (r : RecInfo) (hx : x % 64 = 0) (hb : bs.length = 64 * n) :
    ∃ po, s.padPut core x bs r = { s with
        padPoison := po, mem := s.mem.writeWords (Addr.pad core x) (bs.length / 8) bs,
        padErr := NMap.eraseRun s.padErr (Addr.pad core x / 8) (bs.length / 8) }
      ∧ ∀ i, i < n → NMap.get false po (padLine core x + i) = false := by
  have hfirst : (x + 63) / 64 * 64 = x := by omega
  have hsome (i : Nat) : (((bs.map some).drop (64 * i)).take 64).all (fun b => b.isSome) = true := by
    rw [← List.map_drop, ← List.map_take]
    simp only [List.all_map, List.all_eq_true]
    exact fun _ _ => rfl
  have hlen (i : Nat) : ((((bs.map some).drop (64 * i)).take 64).length == 64) = decide (i < n) := by
    rw [List.length_take, List.length_drop, List.length_map, hb, Bool.eq_iff_iff, beq_iff_eq, decide_eq_true_eq]
    omega
  obtain ⟨po, he, hpo⟩ := foldl_erase_poison s core x n ((bs.map some).length / 64 + 1)
  refine ⟨po, ?_, fun i hi => hpo i hi (by rw [List.length_map, hb]; omega)⟩
  unfold State.padPut State.padWrite
  simp only [hfirst, Nat.add_sub_cancel_left, hsome, hlen, padLine_add, Bool.and_true, decide_eq_true_eq]
  rw [he, List.length_map, padWriteAux_words (n := bs.length / 8) _ _ _ _ (by omega) (by omega) (by omega)]

/-- After a write of whole lines they read as correct. -/
theorem padBad_of_cleared {s : State} {core x n : Nat} (hx : x % 64 = 0)
    (hpo : ∀ i, i < n → NMap.get false s.padPoison (padLine core x + i) = false)
    (herr : ∀ i, i < 8 * n → NMap.get 0 s.padErr (Addr.pad core x / 8 + i) = 0) : s.padBad core x (64 * n) = false := by
  have hrange : (x + 64 * n + 63) / 64 - x / 64 = n := by omega
  have hkey (i k : Nat) : 8 * (padLine core x + i) + k = Addr.pad core x / 8 + (8 * i + k) := by
    unfold padLine Addr.pad
    omega
  rw [State.padBad, hrange, List.any_eq_false]
  intro i hi
  have hi := List.mem_range.mp hi
  rw [hpo i hi, Bool.false_or, Bool.not_eq_true, List.any_eq_false]
  intro k hk
  have hk := List.mem_range.mp hk
  rw [hkey, herr _ (by omega)]
  decide

end Sys2Proof.Machine
end

section
/-!
PROOF. The bytes of an append reach their slot (R82, R167).
-/

namespace Sys2Proof.Machine

theorem passStores_queue (s : State) (c x n q : Nat) (bs : List (Option Byte)) : (s.passStores c x bs).queue n q = s.queue n q := by
  unfold State.passStores
  split
  · rfl
  · by_cases hn : n = c
    · subst hn
      simp [State.queue]
    · simp [State.queue, State.core_onCore_ne _ _ _ _ hn]

theorem passStores_now (s : State) (c x : Nat) (bs : List (Option Byte)) : (s.passStores c x bs).now = s.now := by
  unfold State.passStores
  split <;> rfl

/-- An append to a queue of the own core fills its slot, which is present from a cycle on. -/
theorem fillSlot_own {v : State} {core q slot cyc : Nat} (t : Nat) (bs : List Byte) (hgen : (v.queue core q).gen = slot / 65536)
    (hst : (v.queue core q).st = .opened ∨ (v.queue core q).st = .subsW) :
    let x := (v.queue core q).slotAddr (slot % 65536)
    v.fillSlot core q slot t cyc 0 bs true false
      = ((v.passStores core x (bs.map some)).padPut core x bs).setPresent core q (slot % 65536) cyc := by
  intro x
  unfold State.fillSlot
  simp only [hgen, ne_eq, not_true, if_false, if_true, Bool.false_eq_true, Nat.add_zero]
  obtain h | h := hst <;> simp only [h] <;> rfl

/-- The bytes of an append fill whole lines of its slot. -/
theorem fillSlot_lines {v : State} {core q slot cyc : Nat} (t : Nat) {bs : List Byte} (hgen : (v.queue core q).gen = slot / 65536)
    (hst : (v.queue core q).st = .opened ∨ (v.queue core q).st = .subsW) (hx : (v.queue core q).slotAddr (slot % 65536) % 64 = 0)
    (hbs : bs.length % 64 = 0) :
    let z := v.queue core q
    let x := z.slotAddr (slot % 65536)
    let w := v.fillSlot core q slot t cyc 0 bs true false
    NMap.find (w.queue core q).pres (z.idx (slot % 65536)) = some cyc
      ∧ w.mem = v.mem.writeWords (Addr.pad core x) (bs.length / 8) bs ∧ w.padBad core x bs.length = false := by
  intro z x w
  have hn : bs.length = 64 * (bs.length / 64) := by omega
  obtain ⟨pp, hput, hpp⟩ := padPut_lines (v.passStores core x (bs.map some)) core {} hx hn
  obtain ⟨po, fr, hown⟩ := setPresent_own ((v.passStores core x (bs.map some)).padPut core x bs) core q (slot % 65536) cyc
  have hw : w = _ := (fillSlot_own t bs hgen hst).trans hown
  have hqueue : ((v.passStores core x (bs.map some)).padPut core x bs).queue core q = z := by
    rw [hput]
    exact passStores_queue v core x core q _
  refine ⟨?_, ?_, ?_⟩
  · have hset : w.queue core q = { z with pres := NMap.set z.pres (z.idx (slot % 65536)) cyc } := by
      rw [hw]
      exact (State.queue_onQueue_self _ core q (fun q => { q with pres := NMap.set q.pres (q.idx (slot % 65536)) cyc })).trans (by rw [hqueue])
    rw [hset]
    exact NMap.find_set_self _ _ _
  · rw [hw, hput, passStores_mem]
    rfl
  · rw [hw, hput, hn]
    exact padBad_of_cleared hx hpp (fun i hi => NMap.get_eraseRun _ _ _ _
      (.inr ⟨Nat.le_add_right _ _, Nat.add_lt_add_left (Nat.lt_of_lt_of_eq hi (by omega)) _⟩))

end Sys2Proof.Machine

open Sys2Proof Sys2Proof.Machine

/-- Settles O29: every form is one bay operation, which promises its slot the elements the rules give; the entry that falls due then writes
them, line by line. -/
theorem vectorAppend : Obligations.VectorAppend := by
  refine ⟨fun s h q a b c sat fp pb p st cc hw f hf hread hwidth => ?issue, fun s core rest q slot bs lease hag => ?step⟩
  case issue =>
    obtain ⟨r, hbay, hel, hflags⟩ := exec_vectorForms s h (.app q) a b c sat fp pb p st cc f hf hwidth
    obtain ⟨t, ht, hsends, happends⟩ := hbay.sendsVector hread hw
    exact ⟨t, r.1, ht, hel, hflags ▸ hsends, happends⟩
  case step =>
    intro z x a hgen hst hx hbs
    have hstep : step s = .next ((({ s with now := max s.now s.now, agenda := rest } : State).fillSlot core q slot (max s.now s.now)
        (max s.now s.now + 1) 0 bs true false).settle (max s.now s.now)) := by
      rw [step, hag]
      rfl
    rw [Nat.max_self] at hstep
    obtain ⟨hpres, hmem, hbad⟩ := fillSlot_lines (v := { s with now := s.now, agenda := rest }) (cyc := s.now + 1) s.now hgen hst hx hbs
    refine ⟨_, hstep, hpres, hmem, fun m hm => ?_, hbad⟩
    have hout : m < a ∨ a + 8 * (bs.length / 8) ≤ m := by omega
    exact (congrArg (·.read m) hmem).trans (Memory.read_writeWords_out _ _ _ _ _ hout)

end

section
/-!
PROOF. A scalar result in an append (R82, R88, R166, R174): what reaches the slot of an own queue, and what a sender lets go.
-/

namespace Sys2Proof.Machine

/-! ### What a bay's reads leave of a queue -/

/-- A bay's reads change nothing of a queue but its head. -/
theorem bayReads.queue_head {s t : State} (h : bayReads s t) (q : Nat) : ∃ x, t.queue s.cur q = { s.queue s.cur q with head := x } := by
  obtain ⟨-, -, -, la, da, m, hcore, hm⟩ := h
  obtain ⟨x, hx⟩ := hm q
  exact ⟨x, by rw [State.queue, hcore]; exact hx⟩

theorem bayReads.mem_eq {s t : State} (h : bayReads s t) : t.mem = s.mem := by
  obtain ⟨⟨_, _, _, _, rfl⟩, -⟩ := h
  rfl

/-! ### The note of what bays have stored -/

theorem passStores_shape (v : State) (core x : Nat) (bs : List (Option Byte)) :
    ∃ co e, v.passStores core x bs = { v with cores := co } ∧ (∀ n, n ≠ core → (v.passStores core x bs).core n = v.core n)
      ∧ (v.passStores core x bs).core core = { v.core core with recent := e } := by
  unfold State.passStores
  split
  · exact ⟨v.cores, (v.core core).recent, rfl, fun _ _ => rfl, rfl⟩
  · exact ⟨_, _, rfl, fun n hn => State.core_onCore_ne v _ _ _ hn, State.core_onCore_self v _ _⟩

theorem passStores_task (v : State) (core x : Nat) (bs : List (Option Byte)) (n : Nat) :
    ((v.passStores core x bs).core n).t = (v.core n).t := by
  obtain ⟨_, _, -, hne, hown⟩ := passStores_shape v core x bs
  by_cases hn : n = core
  · rw [hn, hown]
  · rw [hne n hn]

theorem onQueue_task (v : State) (core q : Nat) (f : Queue → Queue) (n : Nat) : ((v.onQueue core q f).core n).t = (v.core n).t := by
  by_cases hn : n = core
  · rw [hn, State.onQueue, State.core_onCtxSt_self]
  · rw [State.onQueue, State.core_onCtxSt_ne _ _ _ _ hn]

/-- An agent's write brings the note of the own core up to date, and a bay's frame holds against that note. -/
theorem quiet.passStores {s v : State} {ks : List Nat} (h : quiet s v ks) (x : Nat) (bs : List (Option Byte)) :
    ∃ e, quiet (s.noted e) (v.passStores s.cur x bs) ks := by
  obtain ⟨hregs, htask, ⟨⟨po, fr, me, di, pe, pp, co, hshape⟩, hdie, hcore, m, hm⟩, hmem⟩ := h
  obtain ⟨co', e, hpass, hne, hown⟩ := passStores_shape v s.cur x bs
  have hself : (s.noted e).core s.cur = { s.core s.cur with recent := e } := State.core_onCore_self s _ _
  have hme : (s.noted e).me = s.me := by
    rw [State.me, show (s.noted e).cur = s.cur from rfl, hself]
    rfl
  have hcur : v.cur = s.cur := by rw [hshape]
  have hme' : (v.passStores s.cur x bs).me = v.me := by
    have hc : (v.passStores s.cur x bs).cur = s.cur := by rw [hpass]; exact hcur
    rw [State.me, State.me, hc, hcur, hown]
  refine ⟨e, by unfold keepsRegs; rwa [hme, hme'], by unfold keepsTask; rwa [hme, hme'], ⟨?_, fun d => ?_, fun n hn => ?_, m, ?_⟩, fun a => ?_⟩
  · rw [hpass, hshape]
    exact ⟨_, _, _, _, _, _, _, rfl⟩
  · rw [hpass]
    exact hdie d
  · exact (hne n hn).trans ((hcore n hn).trans (State.core_onCore_ne s _ _ _ hn).symm)
  · refine hown.trans ?_
    rw [show ((s.noted e).cur) = s.cur from rfl, hself, hm, hown]
  · rw [passStores_mem]
    exact hmem a

theorem keepsRest.stored {s t : State} (h : keepsRest s t) (po : List Timed) (fr : Nat) (pe : NMap Nat) (m : Memory) :
    keepsRest s { t with posted := po, free := fr, padErr := pe, mem := m } := by
  obtain ⟨⟨_, _, _, _, _, _, _, rfl⟩, hdie, hcore, hcur⟩ := h
  exact ⟨⟨_, _, _, _, _, _, _, rfl⟩, hdie, hcore, hcur⟩

/-! ### Messages of a sender -/

/-- What a sender keeps as it lets messages go. -/
def Queue.sameSender (z y : Queue) : Prop :=
  y.st = z.st ∧ y.partner = z.partner ∧ y.sent = z.sent ∧ y.cr = z.cr ∧ y.heldOut = z.heldOut

/-- Nothing has changed but what is posted, circuits, and a queue of one core that lets messages go. -/
def onlySends (s t : State) (core q : Nat) : Prop :=
  (∃ po fr ci co, t = { s with posted := s.posted ++ po, free := fr, circuits := ci, cores := co })
    ∧ (∀ n, n ≠ core → t.core n = s.core n)
    ∧ (∃ m, t.core core = { s.core core with c := { (s.core core).c with q := m } }) ∧ (s.queue core q).sameSender (t.queue core q)

theorem onlySends.refl (s : State) (core q : Nat) : onlySends s s core q :=
  ⟨⟨[], _, _, _, by rw [List.append_nil]⟩, fun _ _ => rfl, ⟨_, rfl⟩, rfl, rfl, rfl, rfl, rfl⟩

theorem onlySends.trans {s t u : State} {core q : Nat} (h : onlySends s t core q) (k : onlySends t u core q) : onlySends s u core q := by
  obtain ⟨⟨_, _, _, _, rfl⟩, h1, ⟨_, hm⟩, hst, hp, hs, hc, hh⟩ := h
  obtain ⟨⟨_, _, _, _, rfl⟩, k1, ⟨m, km⟩, kst, kp, ks, kc, kh⟩ := k
  refine ⟨⟨_, _, _, _, by rw [List.append_assoc]⟩, fun n hn => (k1 n hn).trans (h1 n hn), ⟨m, by rw [km, hm]⟩, kst.trans hst, kp.trans hp,
    ks.trans hs, kc.trans hc, kh.trans hh⟩

theorem onlySends.onQueue (s : State) (core q : Nat) {f : Queue → Queue} (h : (s.queue core q).sameSender (f (s.queue core q))) :
    onlySends s (s.onQueue core q f) core q := by
  refine ⟨⟨[], _, _, _, by rw [List.append_nil]; rfl⟩, fun n hn => State.core_onCtxSt_ne s _ _ _ hn, ⟨_, State.core_onCtxSt_self s _ _⟩, ?_⟩
  rw [State.queue_onQueue_self]
  exact h

/-- What is posted, what is drawn and what circuits hold is no part of a core. -/
theorem onlySends.posts {s t : State} {core q : Nat} (h : onlySends s t core q) (po : List Timed) (fr : Nat) (ci : NMap Circuit) :
    onlySends s { t with posted := t.posted ++ po, free := fr, circuits := ci } core q :=
  h.trans ⟨⟨po, fr, ci, t.cores, rfl⟩, fun _ _ => rfl, ⟨_, rfl⟩, rfl, rfl, rfl, rfl, rfl⟩

theorem onlySends.posted_mono {s t : State} {core q : Nat} (h : onlySends s t core q) {e : Timed} (he : e ∈ s.posted) : e ∈ t.posted := by
  obtain ⟨⟨_, _, _, _, rfl⟩, -⟩ := h
  exact List.mem_append_left _ he

theorem onSpliced_partner {s : State} {core q : Nat} {p : Nat × Nat} (h : (s.queue core q).partner = some p) (f : Queue → Queue) :
    s.onSpliced core q p f = s.onQueue core q f := by
  rw [State.onSpliced, h, if_pos (beq_self_eq_true _)]

/-- A message to the partner of a queue. -/
theorem onlySends.sendSplice {s : State} {core q : Nat} {p : Nat × Nat} (h : (s.queue core q).partner = some p) (t lines : Nat)
    (ordered : Bool) (i : Instr) : onlySends s (s.sendSplice core q p t lines ordered i) core q := by
  have hq (due : Nat) := onlySends.onQueue s core q (f := fun q => { q with msgDue := due }) ⟨rfl, rfl, rfl, rfl, rfl⟩
  unfold State.sendSplice
  simp only [onSpliced_partner h]
  split
  · exact (onlySends.onQueue s core q ⟨rfl, rfl, rfl, rfl, rfl⟩).posts _ _ _
  · split
    · exact (hq _).posts _ _ _
    · split
      · exact onlySends.refl s core q
      · exact (hq _).posts _ _ _

/-- A message that takes its own time is posted where the way is open: within the yard in a cycle that is given. -/
theorem sendSplice_posted {s : State} {core q : Nat} {p : Nat × Nat} {t lines : Nat} (i : Instr) (ht : s.now ≤ t)
    (hway : dieOf core = dieOf p.1 ∨ (s.circuit (dieOf core) (dieOf p.1)).st.carries = true) :
    ∃ e ∈ (s.sendSplice core q p t lines false i).posted, e.act = .ev i
      ∧ (dieOf core = dieOf p.1 → yardOf core = yardOf p.1 → e.due = t + 7 + lines) := by
  have hlast (l : List Timed) (e : Timed) : e ∈ l ++ [e] := List.mem_append_right l List.mem_cons_self
  have hpast {due : Nat} (u : State) (hu : u.now = s.now) (hd : t ≤ due) : max due u.now = due := by omega
  unfold State.sendSplice
  dsimp only
  split
  · refine ⟨_, hlast _ _, rfl, fun _ _ => hpast _ ?_ (by simp only [Bool.false_eq_true, if_false]; omega)⟩
    unfold State.onSpliced
    split <;> rfl
  · next hyard =>
    have hfar : ¬ (dieOf core = dieOf p.1 ∧ yardOf core = yardOf p.1) := by simpa using hyard
    split
    · exact ⟨_, hlast _ _, rfl, fun h1 h2 => absurd ⟨h1, h2⟩ hfar⟩
    · next hdie =>
      have hdie : dieOf core ≠ dieOf p.1 := by simpa using hdie
      rw [hway.resolve_left hdie, if_neg (by decide)]
      exact ⟨_, hlast _ _, rfl, fun h1 => absurd h1 hdie⟩

/-- The PAUSE of a save that has waited for the sender's appends. -/
theorem onlySends.pauseBehind {s : State} {core q : Nat} {p : Nat × Nat} (h : (s.queue core q).partner = some p) :
    onlySends s (s.pauseBehind core q) core q := by
  unfold State.pauseBehind
  split
  · have hq := onlySends.onQueue s core q (f := fun q => { q with quiet := 1 }) ⟨rfl, rfl, rfl, rfl, rfl⟩
    have hp : ((s.onQueue core q (fun q => { q with quiet := 1 })).queue core q).partner = some p := by
      rw [State.queue_onQueue_self]
      exact h
    rw [State.sendCtl, hp]
    exact hq.trans (onlySends.sendSplice hp _ _ _ _)
  · exact onlySends.refl s core q

/-! ### A bay's append at a sender -/

/-- The queue of a sender whose append leaves in a cycle. -/
def Queue.letGo (z : Queue) (t : Nat) : Queue := { z with unsent := z.unsent - 1, lastSend := max z.lastSend t }

/-- An append at a sender stays behind under a PAUSE, and is sent otherwise. -/
theorem fillSlot_sender {v : State} {core q slot : Nat} {p : Nat × Nat} (t cyc : Nat) (bs : List Byte)
    (hgen : (v.queue core q).gen = slot / 65536) (hst : (v.queue core q).st = .send) (hp : (v.queue core q).partner = some p) :
    v.fillSlot core q slot t cyc 0 bs true false
      = if (v.queue core q).paused then
          ((v.onQueue core q (·.letGo t)).onQueue core q
            (fun z => { z with heldOut := z.heldOut ++ [(slot % 65536, 0, bs, true, false)] })).pauseBehind core q
        else ((v.onQueue core q (·.letGo t)).sendBytes core q p t (slot % 65536) 0 bs true false).pauseBehind core q := by
  unfold State.fillSlot
  simp only [hgen, hst, hp, ne_eq, not_true, if_false]
  rfl

/-- A bay's append whose result is ready in the next cycle. -/
theorem wrS_app_now (u : State) (b : Bay2) (q : BitVec 5) (x : Word) :
    wrS u b (.app q) x 1 = ((u.onTask u.cur (fun k => k.putScalar (latch b) x (u.now + 1))).onQueue u.cur q.toNat
        (fun z => z.reserve.2)).fillSlot u.cur q.toNat (u.queue u.cur q.toNat).reserve.1 u.now (u.now + 1) 0 (toBytes 8 x.toNat) true false := by
  unfold wrS State.fillLater
  simp only [State.reserveSlot_eq, State.queue_onTask, State.onTask_cur]
  rfl

theorem onlySends.me {v w : State} {core q : Nat} (h : onlySends v w core q) (hcur : v.cur = core) : w.me = v.me := by
  obtain ⟨⟨_, _, _, _, hw⟩, -, ⟨m, hm⟩, -⟩ := h
  have hcur' : w.cur = core := by rw [hw]; exact hcur
  rw [State.me, State.me, hcur, hcur', hm]

/-- Messages of a sender leave a bay's frame alone, but for the circuits. -/
theorem quiet.onlySends {s v w : State} {ks : List Nat} {q : Nat} (h : quiet s v ks) (k : onlySends v w s.cur q) :
    quiet { s with circuits := w.circuits } w ks := by
  obtain ⟨hregs, htask, ⟨⟨po, fr, me, di, pe, pp, co, hshape⟩, hdie, hcore, m, hm⟩, hmem⟩ := h
  have hme : w.me = v.me := k.me (by rw [hshape])
  obtain ⟨⟨po', fr', ci, co', hsent⟩, hne, ⟨m', hm'⟩, -⟩ := k
  refine ⟨by unfold keepsRegs; rwa [hme], by unfold keepsTask; rwa [hme], ⟨?_, fun d => ?_, fun n hn => (hne n hn).trans (hcore n hn), m', ?_⟩,
    fun a => ?_⟩
  · subst hshape hsent
    exact ⟨_, _, _, _, _, _, _, rfl⟩
  · rw [hsent]
    exact hdie d
  · refine hm'.trans ?_
    rw [hm, hm']
    rfl
  · rw [hsent]
    exact hmem a

/-- What a bay's write of its latch leaves. -/
theorem quiet.latch {s u : State} (h : bayReads s u) (b : Bay2) (x : Word) (cyc : Nat) :
    quiet s (u.onTask s.cur (fun k => k.putScalar (latch b) x cyc)) [latch b]
      ∧ (u.onTask s.cur (fun k => k.putScalar (latch b) x cyc)).me.scalar (latch b) = x := by
  refine ⟨quiet_of_reads h _ _ (fun t => putBoth_keeps b (.app 0) x cyc t), ?_⟩
  rw [← h.cur_eq, State.me_onTask]
  exact TaskSt.scalar_putScalar_self _ _ _ _ (latch_le b)

theorem quiet.now_circuits {s v : State} {ks : List Nat} (h : quiet s v ks) : v.now = s.now ∧ v.circuits = s.circuits := by
  obtain ⟨-, -, ⟨⟨_, _, _, _, _, _, _, rfl⟩, -⟩, -⟩ := h
  exact ⟨rfl, rfl⟩

/-- The messages of a sender after a bay's frame. -/
theorem appendsThere_of_sends {s v w : State} {b : Bay2} {q : BitVec 5} {pc pq : Nat} {x : Word} (hquiet : quiet s v [latch b])
    (hsends : onlySends v w s.cur q.toNat) (hlatch : v.me.scalar (latch b) = x)
    (hsent : (v.queue s.cur q.toNat).sent = (s.queue s.cur q.toNat).sent + 1)
    (hcr : (v.queue s.cur q.toNat).cr = (s.queue s.cur q.toNat).cr - 1) (hbytes : sendsBytes s w q pc pq (toBytes 8 x.toNat)) :
    ∃ ci, w.me.scalar (latch b) = x ∧ quiet { s with circuits := ci } w [latch b] ∧ appendsThere s w q pc pq x := by
  have hw := hquiet.onlySends hsends
  have hme : w.me = v.me := by
    obtain ⟨-, -, ⟨⟨_, _, _, _, _, _, _, hv⟩, -⟩, -⟩ := hquiet
    exact hsends.me (by rw [hv])
  obtain ⟨-, -, -, -, -, hsent', hcr', -⟩ := hsends
  exact ⟨w.circuits, hme ▸ hlatch, hw, hsent'.trans hsent, hcr'.trans hcr, hbytes, hw.2.2.2⟩

section

variable {s u : State} (h : bayReads s u) (b : Bay2) (q : BitVec 5) (x : Word)

include h

/-- A scalar result in the slot at the tail of an own queue. -/
theorem wrS_appendsHere (hst : (s.queue s.cur q.toNat).st = .opened ∨ (s.queue s.cur q.toNat).st = .subsW)
    (hal : (s.queue s.cur q.toNat).slotAddr (ctr (s.queue s.cur q.toNat).tail) % 8 = 0) :
    ∃ e, (wrS u b (.app q) x).me.scalar (latch b) = x ∧ keepsRegs (s.noted e) (wrS u b (.app q) x) [latch b]
      ∧ keepsTask (s.noted e) (wrS u b (.app q) x) ∧ keepsRest (s.noted e) (wrS u b (.app q) x)
      ∧ appendsHere s (wrS u b (.app q) x) q x := by
  obtain ⟨hd, hhead⟩ := h.queue_head q.toNat
  have hcur := h.cur_eq
  obtain ⟨po, fr, pe, hw⟩ := wrS_app u b q x 1 le_rfl (by rw [hcur, hhead]; exact hst) (by rw [hcur, hhead]; exact hal)
  rw [hcur, hhead, h.now_eq, h.mem_eq] at hw
  obtain ⟨hquiet, hlatch⟩ := quiet.latch h b x (s.now + 1)
  generalize hv : u.onTask s.cur (fun k => k.putScalar (latch b) x (s.now + 1)) = v at hw hquiet hlatch
  have hvq : v.queue s.cur q.toNat = { s.queue s.cur q.toNat with head := hd } := by rw [← hv, State.queue_onTask, hhead]
  have htail : (v.onQueue s.cur q.toNat (fun z => { z with tail := ctr (z.tail + 1) })).queue s.cur q.toNat
      = { s.queue s.cur q.toNat with head := hd, tail := ctr ((s.queue s.cur q.toNat).tail + 1) } := by
    rw [State.queue_onQueue_self, hvq]
  generalize hv1 : v.onQueue s.cur q.toNat (fun z => { z with tail := ctr (z.tail + 1) }) = v1 at hw htail
  obtain ⟨e, hnote⟩ := (hv1 ▸ hquiet.onQueue q.toNat _ : quiet s v1 [latch b]).passStores
    ((s.queue s.cur q.toNat).slotAddr (ctr (s.queue s.cur q.toNat).tail)) ((toBytes 8 x.toNat).map some)
  obtain ⟨hregs, htask, hrest, -⟩ := hnote.onQueue q.toNat
    (fun z => { z with pres := NMap.set z.pres (z.idx (ctr (s.queue s.cur q.toNat).tail)) (s.now + 1) })
  have hqueue : (wrS u b (.app q) x).queue s.cur q.toNat = _ := (congrArg (fun t : State => t.queue s.cur q.toNat) hw).trans
    (State.queue_onQueue_self _ s.cur q.toNat
      (fun z => { z with pres := NMap.set z.pres (z.idx (ctr (s.queue s.cur q.toNat).tail)) (s.now + 1) }))
  rw [passStores_queue, htail] at hqueue
  have hmem : (wrS u b (.app q) x).mem = s.mem.writeN (Addr.pad s.cur ((s.queue s.cur q.toNat).slotAddr (ctr (s.queue s.cur q.toNat).tail)))
      (toBytes 8 x.toNat) := congrArg State.mem hw
  have hme : (wrS u b (.app q) x).me = v.me := by
    have hown : (wrS u b (.app q) x).cur = s.cur ∧ v.cur = s.cur := by
      rw [hw, ← hv1, ← hv]
      unfold State.passStores
      split <;> exact ⟨hcur, hcur⟩
    have hpass := onQueue_task (v1.passStores s.cur ((s.queue s.cur q.toNat).slotAddr (ctr (s.queue s.cur q.toNat).tail))
      ((toBytes 8 x.toNat).map some)) s.cur q.toNat
      (fun z => { z with pres := NMap.set z.pres (z.idx (ctr (s.queue s.cur q.toNat).tail)) (s.now + 1) }) s.cur
    rw [State.me, State.me, hown.1, hown.2, hw]
    refine (hpass.trans (passStores_task _ _ _ _ _)).trans ?_
    rw [← hv1]
    exact onQueue_task _ _ _ _ _
  refine ⟨e, ?_, ?_, ?_, hw ▸ hrest.stored po fr pe _, ?_, ?_, hmem, fun a ha => ?_⟩
  · rw [hme]
    exact hlatch
  · rw [hw]
    exact hregs
  · rw [hw]
    exact htask
  · rw [hqueue]
  · rw [hqueue]
    exact NMap.find_set_self _ _ _
  · rw [hmem]
    exact Memory.read_writeN_out _ _ _ _ (by rw [toBytes_length]; exact ha)

/-- The state in which a bay's append has left a sender's hands: its latch is written, and the number and the credit are taken. -/
def sentOut (s u : State) (b : Bay2) (q : BitVec 5) (x : Word) : State :=
  ((u.onTask s.cur (fun k => k.putScalar (latch b) x (s.now + 1))).onQueue s.cur q.toNat (fun z => z.reserve.2)).onQueue s.cur q.toNat
    (·.letGo s.now)

theorem sentOut_quiet : quiet s (sentOut s u b q x) [latch b] :=
  ((quiet.latch h b x (s.now + 1)).1.onQueue _ _).onQueue _ _

theorem sentOut_latch : (sentOut s u b q x).me.scalar (latch b) = x := by
  rw [State.me, sentOut, onQueue_task, onQueue_task]
  exact (quiet.latch h b x (s.now + 1)).2

/-- A scalar result at a sender: the message that leaves, or that a PAUSE keeps back. -/
theorem wrS_app_sender {p : Nat × Nat} (hst : (s.queue s.cur q.toNat).st = .send) (hp : (s.queue s.cur q.toNat).partner = some p) :
    let z := s.queue s.cur q.toNat
    let v := sentOut s u b q x
    (∃ hd un la, v.queue s.cur q.toNat = { z with head := hd, sent := z.sent + 1, cr := z.cr - 1, unsent := un, lastSend := la })
      ∧ wrS u b (.app q) x
        = if z.paused then (v.onQueue s.cur q.toNat
              (fun y => { y with heldOut := y.heldOut ++ [(z.sent % 65536, 0, toBytes 8 x.toNat, true, false)] })).pauseBehind s.cur q.toNat
          else (v.sendBytes s.cur q.toNat p s.now (z.sent % 65536) 0 (toBytes 8 x.toNat) true false).pauseBehind s.cur q.toNat := by
  intro z v
  obtain ⟨hd, hhead⟩ := h.queue_head q.toNat
  have hsends : (z.st == .send || z.st == .pendS) = true := by rw [show z.st = .send from hst]; rfl
  have hres : Queue.reserve { z with head := hd } = _ := Queue.reserve_of_send (z := { z with head := hd }) hsends
  have hslot : (z.gen * 65536 + z.sent % 65536) / 65536 = z.gen ∧ (z.gen * 65536 + z.sent % 65536) % 65536 = z.sent % 65536 := by omega
  have hv : ((u.onTask s.cur (fun k => k.putScalar (latch b) x (s.now + 1))).onQueue s.cur q.toNat (fun z => z.reserve.2)).queue s.cur q.toNat
      = { z with head := hd, cr := z.cr - 1, sent := z.sent + 1, unsent := z.unsent + 1 } := by
    rw [State.queue_onQueue_self, State.queue_onTask, hhead]
    exact congrArg Prod.snd hres
  refine ⟨⟨hd, _, _, (State.queue_onQueue_self _ _ _ _).trans (by rw [hv]; rfl)⟩, ?_⟩
  rw [wrS_app_now u b q x, h.cur_eq, h.now_eq, hhead, show Prod.fst _ = _ from congrArg Prod.fst hres,
    fillSlot_sender s.now (s.now + 1) (toBytes 8 x.toNat) (by rw [hv]; exact hslot.1.symm) (by rw [hv]; exact hst) (by rw [hv]; exact hp), hv]
  rw [show ({ z with head := hd } : Queue).sent = z.sent from rfl, show ({ z with head := hd } : Queue).gen = z.gen from rfl, hslot.2]
  rfl

/-- A scalar result that a sender lets go. -/
theorem wrS_appendsThere {pc pq : Nat} (hst : (s.queue s.cur q.toNat).st = .send) (hp : (s.queue s.cur q.toNat).partner = some (pc, pq)) :
    ∃ ci, (wrS u b (.app q) x).me.scalar (latch b) = x ∧ quiet { s with circuits := ci } (wrS u b (.app q) x) [latch b]
      ∧ appendsThere s (wrS u b (.app q) x) q pc pq x := by
  obtain ⟨⟨hd, un, la, hvq⟩, hw⟩ := wrS_app_sender h b q x hst hp
  have hquiet := sentOut_quiet h b q x
  have hlatch := sentOut_latch h b q x
  have hvp : ((sentOut s u b q x).queue s.cur q.toNat).partner = some (pc, pq) := by rw [hvq]; exact hp
  generalize sentOut s u b q x = v at hw hvq hquiet hlatch hvp
  rw [hw]
  cases hpaused : (s.queue s.cur q.toNat).paused with
  | true =>
    rw [if_pos rfl]
    generalize hv : v.onQueue s.cur q.toNat
      (fun y => { y with heldOut := y.heldOut ++ [((s.queue s.cur q.toNat).sent % 65536, 0, toBytes 8 x.toNat, true, false)] }) = v1
    have hq1 : v1.queue s.cur q.toNat = _ := (congrArg (fun t : State => t.queue s.cur q.toNat) hv).symm.trans (State.queue_onQueue_self _ _ _ _)
    rw [hvq] at hq1
    have hpause := onlySends.pauseBehind (s := v1) (core := s.cur) (q := q.toNat) (p := (pc, pq)) (by rw [hq1]; exact hp)
    have hl1 : v1.me.scalar (latch b) = x := by
      rw [← hv, State.me, onQueue_task]
      exact hlatch
    refine appendsThere_of_sends (hv ▸ hquiet.onQueue q.toNat _) hpause hl1 (by rw [hq1]) (by rw [hq1]) ⟨fun _ => ?_, fun hn => ?_⟩
    · exact hpause.2.2.2.2.2.2.2.trans (by rw [hq1])
    · rw [hpaused] at hn
      exact absurd hn (by decide)
  | false =>
    rw [if_neg (by decide)]
    have hsend : onlySends v (v.sendBytes s.cur q.toNat (pc, pq) s.now ((s.queue s.cur q.toNat).sent % 65536) 0 (toBytes 8 x.toNat) true false)
      s.cur q.toNat := onlySends.sendSplice hvp _ _ _ _
    have hpause := onlySends.pauseBehind (hsend.2.2.2.2.1.trans hvp)
    have hnow : v.now = s.now ∧ v.circuits = s.circuits := hquiet.now_circuits
    refine appendsThere_of_sends hquiet (hsend.trans hpause) hlatch (by rw [hvq]) (by rw [hvq]) ⟨fun hn => ?_, fun _ hway => ?_⟩
    · rw [hpaused] at hn
      exact absurd hn (by decide)
    · obtain ⟨e, he, hact, hdue⟩ := sendSplice_posted (s := v) (q := q.toNat) (p := (pc, pq)) (lines := ((toBytes 8 x.toNat).length + 63) / 64)
        (.evSpliceDataArrive pc (fromQueue s.cur q.toNat pq)
          { seq := (s.queue s.cur q.toNat).sent % 65536, off := 0, bytes := toBytes 8 x.toNat, last := true, poison := false })
        hnow.1.le (by unfold State.circuit at hway ⊢; rw [hnow.2]; exact hway)
      refine ⟨e, hpause.posted_mono he, hact, fun h1 h2 => (hdue h1 h2).trans ?_⟩
      rw [toBytes_length]

end

end Sys2Proof.Machine

open Sys2Proof Sys2Proof.Machine

/-- Settles O2: every form is one bay operation, whose result goes to the slot at the tail or, at a sender, on its way to the receiver. -/
theorem scalarAppend : Obligations.ScalarAppend := by
  intro s b q x y c i20 i7 sc w cc sx z hwrite f hf hread
  have hchan : chanFault s.iss.pre s.now (f.2.1.map .s) [.s (.app q)] = none := by
    refine chanFault_none (fun u hu => ?_) (fun u hu => ⟨.app q, hwrite, .inl (List.mem_singleton.mp hu)⟩)
    obtain ⟨o, ho, rfl⟩ := List.mem_map.mp hu
    exact ⟨o, hread o ho, .inl rfl⟩
  have hexec := (exec_scalarForms s b (.app q) x y c i20 i7 sc w cc sx f hf).trans (bayOp_next _ hchan)
  have hreads := bayReads.bay s (f.2.1.map .s)
  refine ⟨fun hst hal => ?own, fun pc pq hst hp => ?sender⟩
  case own =>
    obtain ⟨e, hlatch, hregs, htask, hrest, happ⟩ := wrS_appendsHere hreads b q f.2.2 hst hal
    exact ⟨_, e, ⟨hexec, hlatch, hregs, htask, hrest⟩, happ⟩
  case sender =>
    obtain ⟨ci, hlatch, ⟨hregs, htask, hrest, -⟩, happ⟩ := wrS_appendsThere hreads b q f.2.2 hst hp
    exact ⟨_, ci, ⟨hexec, hlatch, hregs, htask, hrest⟩, happ⟩

end

section
/-!
PROOF. What the posting of a record leaves alone (R340, R347): the cores with their tasks, the issue that goes on, groups, operations and
units.
-/

namespace Sys2Proof.Machine

/-- The part of a state that no record and no access of the machinery changes. -/
structure Staying where
  cur : Nat
  iss : Issue
  now : Nat
  cores : NMap Core
  groups : NMap Group
  ops : NMap Op
  gens : NMap Nat
  units : NMap BankUnit
  circuits : NMap Circuit

def State.staying (s : State) : Staying :=
  { cur := s.cur, iss := s.iss, now := s.now, cores := s.cores, groups := s.groups, ops := s.ops, gens := s.gens, units := s.units,
    circuits := s.circuits }

variable (s : State)

@[simp] theorem staying_postEv (n : Nat) (i : Instr) : (s.postEv n i).staying = s.staying := (rfl)
@[simp] theorem staying_onDie (n : Nat) (f : Die → Die) : (s.onDie n f).staying = s.staying := (rfl)
@[simp] theorem staying_onContext (n : Nat) (f : Context → Context) : (s.onContext n f).staying = s.staying := (rfl)
@[simp] theorem staying_setEcc (d p : Nat) (e : Ecc) : (s.setEcc d p e).staying = s.staying := (rfl)
@[simp] theorem staying_countCorrected (d : Nat) : (s.countCorrected d).staying = s.staying := (rfl)
@[simp] theorem staying_onPc (n p : Nat) (f : PChan → PChan) : (s.onPc n p f).staying = s.staying := (rfl)
@[simp] theorem staying_spend : s.spend.staying = s.staying := (rfl)
@[simp] theorem staying_postFree (n : Nat) (i : Instr) : (s.postFree n i).staying = s.staying := (rfl)

/-- A fold whose steps leave what stays. -/
@[simp] theorem staying_foldl {α : Type} (f : State → α → State) (l : List α) (h : ∀ s a, (f s a).staying = s.staying) :
    (l.foldl f s).staying = s.staying := by
  induction l generalizing s with
  | nil => rfl
  | cons a l ih => rw [List.foldl_cons, ih, h]

@[simp] theorem staying_fixMode (d p : Nat) : (s.fixMode d p).staying = s.staying := by
  unfold State.fixMode
  simp [apply_ite State.staying]

@[simp] theorem staying_touchPc (d p : Nat) : (s.touchPc d p).staying = s.staying := by
  unfold State.touchPc
  simp [apply_ite State.staying]

@[simp] theorem staying_scrubWord (d p : Nat) : (s.scrubWord d p).staying = s.staying := by
  unfold State.scrubWord
  simp [apply_ite State.staying]

@[simp] theorem staying_walkSeen (ctx va : Nat) : (s.walkSeen ctx va).staying = s.staying := by
  unfold State.walkSeen
  simp

@[simp] theorem staying_toMailbox (ctx : Nat) (w : TrapRec) : (s.toMailbox ctx w).staying = s.staying := (rfl)
@[simp] theorem staying_fatal (ctx : Nat) (r : RecInfo) : (s.fatal ctx r).staying = s.staying := (rfl)
@[simp] theorem staying_holdPosted (d : Nat) (w : Posted) : (s.holdPosted d w).staying = s.staying := (rfl)
@[simp] theorem staying_recordPosted (ctx : Nat) (w : TrapRec) : (s.recordPosted ctx w).staying = s.staying := (rfl)

@[simp] theorem staying_plainWrite (ctx : Nat) (t : Tgt) (bs : List Byte) : (s.plainWrite ctx t bs).staying = s.staying := by
  unfold State.plainWrite State.hostWrite
  split
  · rw [staying_foldl _ _ _ fun _ _ => staying_setEcc _ _ _ _]
    rfl
  · split <;> rfl
  · rfl

/- As for the scheduler's view, the translation is made opaque first: else the kernel would evaluate the walk. -/
theorem staying_writeRecord (ctx : Nat) (w : TrapRec) {u : State} (hu : s.writeRecord ctx w = .ok u) : u.staying = s.staying := by
  obtain ⟨tr, htr⟩ : ∃ f, f = @State.translate := ⟨_, rfl⟩
  have h : @State.writeRecord = @State.writeRecord := rfl
  conv_rhs at h => delta State.writeRecord
  rw [h, ← htr] at hu
  dsimp only at hu
  split at hu
  · exact absurd hu (by simp)
  · split at hu <;> cases hu <;> simp

@[simp] theorem staying_postRecord (ctx : Nat) (w : TrapRec) : (s.postRecord ctx w).staying = s.staying := by
  obtain ⟨wr, hwr⟩ : ∃ f, f = @State.writeRecord := ⟨_, rfl⟩
  have hw (v u : State) (hu : wr v ctx w = .ok u) : u.staying = v.staying := staying_writeRecord v ctx w (by rw [← hwr]; exact hu)
  have h : @State.postRecord = @State.postRecord := rfl
  conv_rhs at h => delta State.postRecord
  rw [h, ← hwr]
  dsimp only
  split
  · simp
  · -- a fatal record and any other need different room, and are written alike
    split
    all_goals
      split
      · split
        · rename_i hu
          rw [hw _ _ hu, staying_walkSeen]
        · simp
      · simp [apply_ite State.staying]

@[simp] theorem staying_postInfo (ctx : Nat) (r : RecInfo) : (s.postInfo ctx r).staying = s.staying := by simp [State.postInfo]

variable {s}

/-- What stays, core by core. -/
theorem core_of_staying {t : State} (h : t.staying = s.staying) (n : Nat) : t.core n = s.core n := by
  have hcores : t.cores = s.cores := congrArg Staying.cores h
  rw [State.core, State.core, hcores]

end Sys2Proof.Machine
end

section
/-!
PROOF. A fault in the issue cycle (R86, R338, R342): where issue goes on, and how the task is killed.
-/

namespace Sys2Proof.Machine

/-! ### Splices that go on (R177) -/

theorem sched_releaseRun (s : State) (core q n : Nat) : (s.releaseRun core q n).sched = s.sched := by
  induction n generalizing s with
  | zero => rfl
  | succ n ih =>
    unfold State.releaseRun
    dsimp only
    split
    · rfl
    · rw [ih]
      split <;> simp

theorem sched_sendHeld (s : State) (core q : Nat) : (s.sendHeld core q).sched = s.sched := by
  unfold State.sendHeld
  dsimp only
  split
  · split
    · rfl
    · rw [sched_foldl _ _ _ fun _ _ => sched_sendBytes _ _ _ _ _ _ _ _ _ _, sched_onQueue]
  · rfl

theorem sched_resumeSplices (s : State) (core : Nat) : (s.resumeSplices core).sched = s.sched := by
  refine sched_foldl s _ _ fun s q => ?_
  unfold State.resumeSplice State.releaseQ
  rw [sched_releaseRun, sched_sendHeld]
  simp [apply_ite State.sched]

theorem calm_dropSusp (s : State) (core gk i : Nat) : (s.dropSusp core gk i).sched.calm = s.sched.calm := by
  unfold State.dropSusp
  dsimp only
  split
  · rw [sched_postEv, sched_resumeSplices, sched_onCtxSt, sched_freeLeases, (freeTaskQueues_keeps s core gk i).1]
  · rfl

/-! ### A task that is killed, wherever it is -/

/-- A killed task is off its core, or out of the slot it was suspended in. -/
def State.takeOff (s : State) (core gk i : Nat) (saving : Bool) : State :=
  let s := if (s.core core).t.isTask gk i then (if saving then (s.releaseCore core).resumeSplices core else s.releaseCore core)
    else s.dropSusp core gk i
  s.postEv s.now (.evGroupEnd gk)

theorem State.takeOff_task? (s : State) (core gk i : Nat) (saving : Bool) (n j : Nat) :
    (s.takeOff core gk i saving).task? n j = s.task? n j := by
  unfold State.takeOff
  split
  · split
    · refine (State.task?_of_calm ?_ n j).trans (State.releaseCore_task? s core n j)
      rw [sched_postEv, sched_resumeSplices]
    · exact State.releaseCore_task? s core n j
  · exact State.task?_of_calm (calm_dropSusp s core gk i) n j

/-- The record of a task that is killed says so, and keeps the first cause. -/
theorem State.killTask_task? {s : State} {gk i : Nat} {x : Task} (hx : s.task? gk i = some x) (hd : x.st ≠ .done) (hk : x.st ≠ .killed)
    (cause opCode : Nat) :
    (s.killTask gk i cause opCode).task? gk i = some { x with st := .killed, cause := if x.cause = 0 then cause else x.cause } := by
  obtain ⟨g, hg, -⟩ := Option.bind_eq_some_iff.mp hx
  have hst : ¬ ((x.st == .done || x.st == .killed) = true) := by simp [hd, hk]
  have hkill : ∃ core saving, s.killTask gk i cause opCode = ((s.markKilled gk i cause).cancelTask core gk i opCode).takeOff core gk i saving := by
    unfold State.killTask
    simp only [hg, hx]
    exact ⟨_, _, if_neg hst⟩
  obtain ⟨core, saving, hkill⟩ := hkill
  rw [hkill, State.takeOff_task?, State.task?_of_calm (calm_cancelTask _ core gk i opCode)]
  exact State.markKilled_task? hx cause

/-- A core that is released holds no task. -/
theorem State.releaseCore_isTask (s : State) (core gk i : Nat) : ((s.releaseCore core).core core).t.isTask gk i = false := by
  rw [TaskSt.isTask, State.releaseCore_mode]
  rfl

/-! ### Where issue goes on -/

/-- A task whose bundle is over, as issue goes on from an address. -/
def TaskSt.goOn (t : TaskSt) (now pc due : Nat) : TaskSt :=
  match t.after with
  | 1 => { t.setMode now .retiring with pc := pc, after := 0, jump := none, replay := none }
  | 2 => { t.setMode now .brk with pc := pc, after := 0, brk := t.brk.map (fun b => (now, b.2)) }
  | _ => { t with pc := pc, notBefore := due }

theorem TaskSt.goOn_keeps (t : TaskSt) (now pc due : Nat) : (t.goOn now pc due).pc = pc ∧ (t.goOn now pc due).tries = t.tries
    ∧ (∀ k, (t.goOn now pc due).scalar k = t.scalar k) ∧ (∀ k, (t.goOn now pc due).vector k = t.vector k)
    ∧ ∀ i, (t.goOn now pc due).mask i = t.mask i := by
  unfold TaskSt.goOn
  split <;> exact ⟨rfl, rfl, fun _ => rfl, fun _ => rfl, fun _ => rfl⟩

theorem issueAt_keeps (s : State) (core pc due : Nat) : ((s.issueAt core pc due).core core).t = (s.core core).t.goOn s.now pc due
    ∧ (s.issueAt core pc due).iss = s.iss ∧ (s.issueAt core pc due).cur = s.cur := by
  have plain (h : s.issueAt core pc due = (s.onTask core (fun t => { t with pc := pc, notBefore := due })).post due (.issue core (s.core core).gen))
      (hg : (s.core core).t.goOn s.now pc due = { (s.core core).t with pc := pc, notBefore := due }) :
      ((s.issueAt core pc due).core core).t = (s.core core).t.goOn s.now pc due
        ∧ (s.issueAt core pc due).iss = s.iss ∧ (s.issueAt core pc due).cur = s.cur := by
    rw [h, hg]
    exact ⟨by rw [State.post_core, State.core_onTask_self], rfl, rfl⟩
  match h : (s.core core).t.after with
  | 0 => exact plain (issueAt_goes pc due h) (by simp only [TaskSt.goOn, h])
  | 1 =>
    rw [issueAt_ends pc due h, TaskSt.goOn, h]
    generalize hf : (fun t : TaskSt => ({ t.setMode s.now .retiring with pc := pc, after := 0, jump := none, replay := none } : TaskSt)) = f
    obtain ⟨gr, hrec⟩ := (s.onTask core f).onTaskRec_shape (s.core core).t.grp (s.core core).t.idx (fun t => { t with st := .retiring })
    rw [hrec]
    exact ⟨(congrArg Core.t (State.core_onTask_self s core f)).trans (by subst hf; rfl), rfl, rfl⟩
  | 2 =>
    rw [issueAt_breaks pc due h, TaskSt.goOn, h]
    exact ⟨congrArg Core.t (State.core_onTask_self s core _), rfl, rfl⟩
  | n + 3 => exact plain (by simp only [State.issueAt, h]) (by simp only [TaskSt.goOn, h])

theorem issueAt_ends_posted {s : State} {core : Nat} (pc due : Nat) (h : (s.core core).t.after = 1) :
    (s.issueAt core pc due).hasPosted s.now (.ev (.evTaskDone core)) := by
  rw [issueAt_ends pc due h]
  generalize hf : (fun t : TaskSt => ({ t.setMode s.now .retiring with pc := pc, after := 0, jump := none, replay := none } : TaskSt)) = f
  obtain ⟨gr, hrec⟩ := (s.onTask core f).onTaskRec_shape (s.core core).t.grp (s.core core).t.idx (fun t => { t with st := .retiring })
  rw [hrec]
  exact State.hasPosted_post (s := { s.onTask core f with groups := gr }) (Nat.le_refl s.now) _

/-- The state in which a fault of the issue cycle is noted. -/
def State.trap (s : State) : State := { s with iss := { s.iss with trapped := true } }

/-- What a fault in the issue cycle leaves where issue goes on after it. -/
def faultGoes (s t : State) (pc due : Nat) : Prop :=
  t.iss.trapped = true ∧ t.me.pc = pc ∧ keepsRegs s t []
    ∧ (s.me.after = 0 → { due := due, act := .issue s.cur (s.core s.cur).gen } ∈ t.posted)
    ∧ (s.me.after = 1 → t.me.mode = .retiring ∧ t.hasPosted s.now (.ev (.evTaskDone s.cur)))
    ∧ (s.me.after = 2 → t.me.mode = .brk)

/-- After the record of a fault the task goes on, or ends, or waits. -/
theorem faultGoes_issueAt {s w t : State} (hw : w.staying = s.trap.staying) {tries pc due : Nat} (hdue : s.now ≤ due)
    (hpost : t = (w.onTask s.cur (fun t => { t with tries := tries })).issueAt s.cur pc due) :
    faultGoes s t pc due ∧ t.me.tries = tries := by
  subst hpost
  have hnow : w.now = s.now := congrArg Staying.now hw
  have hcur : w.cur = s.cur := congrArg Staying.cur hw
  have htask : ((w.onTask s.cur (fun t => { t with tries := tries })).core s.cur) = { s.core s.cur with t := { s.me with tries := tries } } := by
    rw [State.core_onTask_self, core_of_staying hw]
    rfl
  obtain ⟨ht, hiss, htcur⟩ := issueAt_keeps (w.onTask s.cur (fun t => { t with tries := tries })) s.cur pc due
  generalize ht' : (w.onTask s.cur (fun t => { t with tries := tries })).issueAt s.cur pc due = t at ht hiss htcur
  have hme : t.me = ({ s.me with tries := tries } : TaskSt).goOn s.now pc due := by
    rw [State.me, show t.cur = s.cur from htcur.trans hcur, ← hnow]
    exact ht.trans (by rw [htask]; rfl)
  obtain ⟨hpc, htries, hsc, hv, hm⟩ := TaskSt.goOn_keeps { s.me with tries := tries } s.now pc due
  have hafter (n : Nat) (h : s.me.after = n) : ((w.onTask s.cur (fun t => { t with tries := tries })).core s.cur).t.after = n := by
    rw [htask]
    exact h
  refine ⟨⟨?_, by rw [hme, hpc], ⟨fun k _ _ => ?_, fun k _ _ => ?_, fun i _ => ?_⟩, fun h => ?_, fun h => ⟨?_, ?_⟩, fun h => ?_⟩, by rw [hme, htries]⟩
  · have hw : w.iss = s.trap.iss := congrArg Staying.iss hw
    rw [show t.iss = w.iss from hiss, hw]
    rfl
  · rw [hme, hsc]
    rfl
  · rw [hme, hv]
    rfl
  · rw [hme, hm]
    rfl
  · rw [← ht', issueAt_goes pc due (hafter 0 h), htask]
    exact State.hasPosted_post (s := (w.onTask s.cur (fun t => { t with tries := tries })).onTask s.cur _) (hnow.le.trans hdue) _
  · rw [hme, TaskSt.goOn, show ({ s.me with tries := tries } : TaskSt).after = 1 from h]
    rfl
  · rw [← hnow, ← ht']
    exact issueAt_ends_posted pc due (hafter 1 h)
  · rw [hme, TaskSt.goOn, show ({ s.me with tries := tries } : TaskSt).after = 2 from h]
    rfl

/-- What a fault in the issue cycle leaves of a task it kills. -/
def faultKilled (s v : State) (code : Nat) : Prop :=
  (v.core s.cur).t.isTask s.me.grp s.me.idx = false
    ∧ ∀ x, s.task? s.me.grp s.me.idx = some x → x.st ≠ .done → x.st ≠ .killed → s.ownedOps s.me.grp s.me.idx = [] →
        ∃ y, v.task? s.me.grp s.me.idx = some y ∧ y.st = .killed ∧ (x.cause = 0 → y.cause = code)

/-- A task that is killed is off its core. -/
def State.killOff (s : State) (core gk i cause : Nat) : State :=
  let s1 := s.killTask gk i cause Code.killedByParent
  if (s1.core core).t.isTask gk i then s1.releaseCore core else s1

/-- The policies of a fault in the issue cycle, after its record has been posted. -/
theorem takeFault_cases (s : State) (code detail word5 : Nat) :
    ∃ (w : State) (r : RecInfo), w.staying = s.trap.staying ∧ r.code = code ∧
      let t := s.takeFault code detail word5
      let ct := recCT (s.taskRec s.cur)
      (ct = 0 → t = (w.onTask s.cur (fun t => { t with tries := 0 })).issueAt s.cur s.iss.npc (s.now + 1 + s.iss.idle))
      ∧ (ct = 1 → s.me.tries < 2 → t = (w.onTask s.cur (fun t => { t with tries := s.me.tries + 1 })).issueAt s.cur s.iss.bundle (s.now + 1))
      ∧ ((ct = 1 ∧ 2 ≤ s.me.tries) ∨ ct = 2 → t = w.killOff s.cur s.me.grp s.me.idx code)
      ∧ (ct = 3 → t = (w.killOff s.cur s.me.grp s.me.idx code).faultGroup s.me.grp (some s.me.idx) r) := by
  obtain ⟨w, r, hw, hr, htake⟩ : ∃ (w : State) (r : RecInfo), w.staying = s.trap.staying ∧ r.code = code ∧
      s.takeFault code detail word5 = (match recCT (s.taskRec s.cur) with
        | 0 => (w.onTask s.cur (fun t => { t with tries := 0 })).issueAt s.cur s.iss.npc (s.now + 1 + s.iss.idle)
        | 1 => if s.me.tries < 2 then (w.onTask s.cur (fun t => { t with tries := t.tries + 1 })).issueAt s.cur s.iss.bundle (s.now + 1)
          else w.faultKills s.cur false r
        | 2 => w.faultKills s.cur false r
        | _ => w.faultKills s.cur true r) := ⟨_, _, staying_postInfo s.trap _ _, rfl, rfl⟩
  have hcore : (w.core s.cur).t = s.me := congrArg Core.t (core_of_staying hw s.cur)
  have hself : w.faultKills s.cur false r = w.killOff s.cur s.me.grp s.me.idx code := by
    rw [State.faultKills, hcore, hr]
    rfl
  have hparent : w.faultKills s.cur true r = (w.killOff s.cur s.me.grp s.me.idx code).faultGroup s.me.grp (some s.me.idx) r := by
    rw [State.faultKills, hcore, hr]
    rfl
  have hcount : w.onTask s.cur (fun t => { t with tries := t.tries + 1 }) = w.onTask s.cur (fun t => { t with tries := s.me.tries + 1 }) :=
    State.onTask_congr _ _ (by rw [hcore])
  refine ⟨w, r, hw, hr, ?_⟩
  dsimp only
  rw [htake]
  refine ⟨fun h => by simp only [h], fun h htries => by simp only [h, htries, if_true, hcount], fun h => ?_, fun h => by simp only [h, hparent]⟩
  obtain ⟨h, htries⟩ | h := h
  · simp only [h, Nat.not_lt.mpr htries, if_false, hself]
  · simp only [h, hself]

theorem faultKilled_killOff {s w : State} (hw : w.staying = s.trap.staying) (code : Nat) :
    faultKilled s (w.killOff s.cur s.me.grp s.me.idx code) code := by
  unfold State.killOff
  dsimp only
  have hgroups : w.groups = s.groups := congrArg Staying.groups hw
  have htask (x : Task) (hx : s.task? s.me.grp s.me.idx = some x) (hd : x.st ≠ .done) (hk : x.st ≠ .killed) :=
    State.killTask_task? (s := w) (by rw [State.task?, State.group?, hgroups]; exact hx) hd hk code Code.killedByParent
  split
  · refine ⟨State.releaseCore_isTask _ _ _ _, fun x hx hd hk _ => ⟨_, (State.releaseCore_task? _ _ _ _).trans (htask x hx hd hk), rfl, fun h => if_pos h⟩⟩
  · next hoff => exact ⟨Bool.not_eq_true _ ▸ hoff, fun x hx hd hk _ => ⟨_, htask x hx hd hk, rfl, fun h => if_pos h⟩⟩

end Sys2Proof.Machine

open Sys2Proof Sys2Proof.Machine

/-- Settles O10: the posting of the record touches no task, and the policy of the record decides what becomes of this one. -/
theorem faultTaken : Obligations.FaultTaken := by
  intro s code detail word5 t ct goes killed
  obtain ⟨w, r, hw, hr, hignore, hretry, hkill, hgroup⟩ := takeFault_cases s code detail word5
  have hkilled := faultKilled_killOff hw code
  refine ⟨fun h => ?ignore, fun h htries => ?retry, fun h => ?kill, fun h => ?group⟩
  case ignore => exact faultGoes_issueAt hw (by omega) (hignore h)
  case retry => exact faultGoes_issueAt hw (Nat.le_succ s.now) (hretry h htries)
  case kill =>
    rwa [← hkill h] at hkilled
  case group => exact ⟨_, r, hkilled, hr, hgroup h⟩

end

section
/-!
PROOF. A command at issue (R70, R71, R85): what its capture of operands leaves alone, the token register it takes, and the queue it joins.
-/

namespace Sys2Proof.Machine

/-! ### The queues of the issuing core -/

/-- Nothing has changed but queues of the core that executes, and what is posted. -/
def queuesOnly (s t : State) : Prop :=
  (∃ po co, t = { s with posted := po, cores := co }) ∧ (∀ n, n ≠ s.cur → t.core n = s.core n)
    ∧ ∃ q, t.core s.cur = { s.core s.cur with c := { (s.core s.cur).c with q := q } }

theorem queuesOnly.refl (s : State) : queuesOnly s s := ⟨⟨_, _, rfl⟩, fun _ _ => rfl, _, rfl⟩

theorem queuesOnly.trans {s t u : State} (h : queuesOnly s t) (k : queuesOnly t u) : queuesOnly s u := by
  obtain ⟨⟨_, _, rfl⟩, h1, q, h2⟩ := h
  obtain ⟨⟨_, _, rfl⟩, k1, q', k2⟩ := k
  exact ⟨⟨_, _, rfl⟩, fun n hn => (k1 n hn).trans (h1 n hn), q', k2.trans (by rw [h2])⟩

theorem queuesOnly.cur_eq {s t : State} (h : queuesOnly s t) : t.cur = s.cur := by
  obtain ⟨⟨_, _, rfl⟩, -⟩ := h
  rfl

theorem queuesOnly.onQueue (s : State) (q : Nat) (f : Queue → Queue) : queuesOnly s (s.onQueue s.cur q f) :=
  ⟨⟨_, _, rfl⟩, fun _ hn => State.core_onCtxSt_ne s _ _ _ hn, _, State.core_onCtxSt_self s _ _⟩

theorem queuesOnly.post (s : State) (n : Nat) (a : Act) : queuesOnly s (s.post n a) := ⟨⟨_, _, rfl⟩, fun _ _ => rfl, _, rfl⟩

theorem queuesOnly.foldl {α : Type} (f : State → α → State) (h : ∀ s x, queuesOnly s (f s x)) (l : List α) (s : State) :
    queuesOnly s (l.foldl f s) := by
  induction l generalizing s with
  | nil => exact queuesOnly.refl s
  | cons x l ih => exact (h s x).trans (ih _)

theorem queuesOnly.pops (s : State) (us : List Use) : queuesOnly s (popAll s us) :=
  queuesOnly.foldl _ (fun s q => (queuesOnly.onQueue s q _).trans (queuesOnly.post _ _ _)) _ s

/-! ### A command joins its unit's queue -/

/-- The commands that wait in a unit of a core. -/
def Core.waitingIn (c : Core) (u : Nat) : List Cmd := if u < 2 then (c.t.eng u).q else NMap.get [] c.c.cmdq u

/-- A core whose unit has one command more. -/
def Core.join (c : Core) (u : Nat) (cmd : Cmd) : Core :=
  if u < 2 then { c with t := c.t.onEng u (fun e => { e with q := e.q ++ [cmd] }) }
  else { c with c := { c.c with cmdq := NMap.put [] c.c.cmdq u (NMap.get [] c.c.cmdq u ++ [cmd]) } }

theorem TaskSt.eng_onEng (t : TaskSt) {u v : Nat} (hu : u < 2) (hv : v < 2) (f : Engine → Engine) :
    (t.onEng u f).eng v = if v = u then f (t.eng u) else t.eng v := by
  obtain rfl | rfl : u = 0 ∨ u = 1 := by omega
  all_goals obtain rfl | rfl : v = 0 ∨ v = 1 := by omega
  all_goals rfl

theorem Core.waitingIn_join (c : Core) (u : Nat) (cmd : Cmd) (v : Nat) :
    (c.join u cmd).waitingIn v = if v = u then c.waitingIn u ++ [cmd] else c.waitingIn v := by
  unfold Core.join Core.waitingIn
  by_cases hu : u < 2
  · by_cases hv : v < 2
    · simp only [hu, hv, if_true, TaskSt.eng_onEng c.t hu hv]
      split <;> rfl
    · simp only [hu, hv, if_true, if_false, show v ≠ u by omega]
  · by_cases hv : v < 2
    · simp only [hu, hv, if_true, if_false, show v ≠ u by omega]
    · by_cases h : v = u
      · subst h
        simp only [hu, if_false, if_true, NMap.get_put_self]
      · simp only [hu, hv, h, if_false, NMap.get_put_ne [] _ _ _ _ h]

/-- A command in a queue touches no register. -/
theorem Core.join_regs (c : Core) (u : Nat) (cmd : Cmd) :
    (∀ k, (c.join u cmd).t.scalar k = c.t.scalar k) ∧ (∀ k, (c.join u cmd).t.vector k = c.t.vector k)
      ∧ (∀ i, (c.join u cmd).t.mask i = c.t.mask i) ∧ (c.join u cmd).t.pend = c.t.pend := by
  unfold Core.join
  split
  · unfold TaskSt.onEng TaskSt.setEng
    dsimp only
    split <;> exact ⟨fun _ => rfl, fun _ => rfl, fun _ => rfl, rfl⟩
  · exact ⟨fun _ => rfl, fun _ => rfl, fun _ => rfl, rfl⟩

theorem State.waitingIn_eq (s : State) (u : Nat) : s.waitingIn u = (s.core s.cur).waitingIn u := rfl

theorem State.enqueue_eq (s : State) (core : Nat) (cmd : Cmd) :
    s.enqueue core cmd = (s.onCore core (fun c => c.join cmd.ins.cmdUnit cmd)).postHead core cmd.ins.cmdUnit (s.now + 1) := by
  unfold State.enqueue Core.join
  dsimp only
  split <;> rfl

/-- What the queue of a unit gains is noted on the core, and the unit's head is tested. -/
theorem State.enqueue_keeps (s : State) (core : Nat) (cmd : Cmd) :
    (∃ po co, s.enqueue core cmd = { s with posted := po, cores := co }) ∧ (∀ n, n ≠ core → (s.enqueue core cmd).core n = s.core n)
      ∧ (s.enqueue core cmd).core core = (s.core core).join cmd.ins.cmdUnit cmd
      ∧ (s.enqueue core cmd).isDue (· == .ev (headEv core cmd.ins.cmdUnit)) = true := by
  rw [State.enqueue_eq]
  have hdue := State.postHead_due (s.onCore core (fun c => c.join cmd.ins.cmdUnit cmd)) core cmd.ins.cmdUnit (s.now + 1)
  obtain ⟨po, hpost, -⟩ := (s.onCore core (fun c => c.join cmd.ins.cmdUnit cmd)).postHead_shape core cmd.ins.cmdUnit (s.now + 1)
  rw [hpost] at hdue ⊢
  exact ⟨⟨_, _, rfl⟩, fun n hn => State.core_onCore_ne s core n (fun c => c.join cmd.ins.cmdUnit cmd) hn,
    State.core_onCore_self s core (fun c => c.join cmd.ins.cmdUnit cmd), hdue⟩

/-- A task whose token register, where there is one, is taken. -/
def TaskSt.takeToken (t : TaskSt) (tok : Option Nat) (x : Word) (o : TokOwner) : TaskSt :=
  match tok with
  | some r => t.setToken r x o
  | none => t

theorem TaskSt.takeToken_engines (t : TaskSt) (tok : Option Nat) (x : Word) (o : TokOwner) (u : Nat) :
    (t.takeToken tok x o).eng u = t.eng u := by
  cases tok <;> rfl

/-- A token register is the only one that changes. -/
theorem TaskSt.takeToken_regs (t : TaskSt) (tok : Option Nat) (x : Word) (o : TokOwner) :
    (∀ k, k ∉ tok.toList → (t.takeToken tok x o).scalar k = t.scalar k) ∧ (∀ k, (t.takeToken tok x o).vector k = t.vector k)
      ∧ ∀ i, (t.takeToken tok x o).mask i = t.mask i := by
  cases tok with
  | none => exact ⟨fun _ _ => rfl, fun _ => rfl, fun _ => rfl⟩
  | some r =>
    refine ⟨fun k hk => ?_, fun _ => rfl, fun _ => rfl⟩
    have hk : k ≠ r := by simpa using hk
    simp only [TaskSt.takeToken, TaskSt.setToken, TaskSt.scalar]
    rw [NMap.get_put_ne 0 t.g r k x hk]

/-- The token register holds what it takes, and is pending. -/
theorem TaskSt.takeToken_self (t : TaskSt) {r : Nat} (hr : r < 64) (x : Word) (o : TokOwner) :
    (t.takeToken (some r) x o).scalar r = x ∧ NMap.get false (t.takeToken (some r) x o).pend r = true := by
  refine ⟨?_, NMap.get_set_self _ _ _ _⟩
  simp only [TaskSt.takeToken, TaskSt.setToken, TaskSt.scalar, hr, if_true]
  exact NMap.get_put_self _ _ _ _

/-- A token register that takes what it holds changes no register. -/
theorem TaskSt.takeToken_same (t : TaskSt) {tok : Option Nat} {x : Word} (o : TokOwner) (h : ∀ r ∈ tok, r < 64 ∧ x = t.scalar r) (j : Nat) :
    (t.takeToken tok x o).scalar j = t.scalar j := by
  by_cases hj : j ∈ tok.toList
  · obtain ⟨hr, hx⟩ := h j (Option.mem_toList.mp hj)
    rw [Option.mem_def.mp (Option.mem_toList.mp hj), hx]
    exact (t.takeToken_self hr _ o).1
  · exact (t.takeToken_regs tok x o).1 j hj

/-! ### A command is handed over -/

/-- The command as its unit receives it: what it captured, where it stands and whose it is. -/
def Cmd.issued (c0 : Cmd) (s : State) (i : Instr) (tok : Option Nat) : Cmd :=
  { c0 with ins := i, t := s.now, bundle := s.iss.bundle, mask := s.iss.mask, serial := s.here.serial, tok := tok, seq := s.here.nextReq,
            grp := s.me.grp, idx := s.me.idx, prio := s.me.prioAt s.now }

/-- The token register of a header. -/
def tokenOf (h : CmdHdr) : Option Nat := if h.tv then some h.tok.toNat else none

theorem tokenOf_lt {h : CmdHdr} {r : Nat} (hr : r ∈ tokenOf h) : r < 64 := by
  unfold tokenOf at hr
  split at hr
  · exact Option.mem_some.mp hr ▸ h.tok.isLt
  · exact nomatch hr

/-- The state in which a command has taken its token register, and is to join its queue: operations aside, the core's command number, its
queues, its task's token and what is posted are all that has changed. -/
def tokenTaken (s w : State) (tok : Option Nat) (x : Word) (o : TokOwner) : Prop :=
  (∃ po co os gs, w = { s with posted := po, cores := co, ops := os, gens := gs }) ∧ (∀ n, n ≠ s.cur → w.core n = s.core n)
    ∧ ∃ n q, w.core s.cur = { s.core s.cur with serial := n, t := s.me.takeToken tok x o, c := { (s.core s.cur).c with q := q } }

section

variable {s w : State} {tok : Option Nat} {x : Word} {o : TokOwner}

theorem tokenTaken.me_enqueue (h : tokenTaken s w tok x o) (k : Cmd) :
    (w.enqueue s.cur k).me = ((w.core s.cur).join k.ins.cmdUnit k).t := by
  obtain ⟨⟨_, _, _, _, hw⟩, -⟩ := h
  obtain ⟨⟨_, _, hk⟩, -, hown, -⟩ := w.enqueue_keeps s.cur k
  have hcur : (w.enqueue s.cur k).cur = s.cur := by rw [hk, hw]
  rw [State.me, hcur, hown]

/-- The command is the last of its unit's queue, and no other queue has changed. -/
theorem tokenTaken.joins (h : tokenTaken s w tok x o) (k : Cmd) : joins s (w.enqueue s.cur k) k.ins k := by
  obtain ⟨⟨_, _, _, _, hw⟩, -, n, q, hown⟩ := h
  obtain ⟨⟨_, _, hk⟩, -, hjoin, hdue⟩ := w.enqueue_keeps s.cur k
  have hcur : (w.enqueue s.cur k).cur = s.cur := by rw [hk, hw]
  have hwait (u : Nat) : (w.core s.cur).waitingIn u = s.waitingIn u := by
    rw [hown, Core.waitingIn, TaskSt.takeToken_engines]
    rfl
  refine ⟨fun u => ?_, hdue⟩
  rw [State.waitingIn_eq, hcur, hjoin, Core.waitingIn_join, hwait, hwait]
  split
  · next hu => rw [hu]
  · rfl

/-- Only the token register may change. -/
theorem tokenTaken.keepsIssue (h : tokenTaken s w tok x o) (k : Cmd) {ks : List Nat}
    (hks : ∀ j, j ∉ ks → (s.me.takeToken tok x o).scalar j = s.me.scalar j) : keepsIssue s (w.enqueue s.cur k) ks := by
  have hme := h.me_enqueue k
  obtain ⟨⟨_, _, _, _, hw⟩, hne, n, q, hown⟩ := h
  obtain ⟨⟨_, _, hk⟩, hother, -, -⟩ := w.enqueue_keeps s.cur k
  obtain ⟨hsc, hv, hm, -⟩ := (w.core s.cur).join_regs k.ins.cmdUnit k
  obtain ⟨-, htv, htm⟩ := s.me.takeToken_regs tok x o
  refine ⟨?_, fun n hn => (hother n hn).trans (hne n hn), fun j _ hj => ?_, fun j _ _ => ?_, fun i _ => ?_⟩
  · rw [hk, hw]
    exact ⟨_, _, _, _, rfl⟩
  · rw [hme, hsc, hown]
    exact hks j hj
  · rw [hme, hv, hown]
    exact htv j
  · rw [hme, hm, hown]
    exact htm i

/-- The token register is pending. -/
theorem tokenTaken.token {r : Nat} (h : tokenTaken s w (some r) x o) (hr : r < 64) (k : Cmd) :
    (w.enqueue s.cur k).me.scalar r = x ∧ NMap.get false (w.enqueue s.cur k).me.pend r = true := by
  have hme := h.me_enqueue k
  obtain ⟨-, -, n, q, hown⟩ := h
  obtain ⟨hsc, -, -, hpend⟩ := (w.core s.cur).join_regs k.ins.cmdUnit k
  rw [hme, hsc, hpend, hown]
  exact s.me.takeToken_self hr x o

end

/-- The core counts a command. -/
def State.countCmd (s : State) : State := s.onCore s.cur (fun c => { c with serial := c.serial + 1 })

theorem queuesOnly.countCmd {s u : State} (h : queuesOnly s u) (x : Word) (o : TokOwner) : tokenTaken s u.countCmd none x o := by
  obtain ⟨⟨po, co, hu⟩, hne, q, hown⟩ := h
  have hcur : u.cur = s.cur := by rw [hu]
  unfold State.countCmd
  rw [hcur]
  refine ⟨?_, fun n hn => (State.core_onCore_ne u _ _ _ hn).trans (hne n hn), (s.core s.cur).serial + 1, q, ?_⟩
  · rw [hu]
    exact ⟨_, _, _, _, rfl⟩
  · rw [State.core_onCore_self, hown]
    rfl

theorem tokenTaken.take {s w : State} {x' : Word} {o' : TokOwner} (h : tokenTaken s w none x' o') (r : Nat) (x : Word) (o : TokOwner) :
    tokenTaken s (w.onTask s.cur (fun t => t.setToken r x o)) (some r) x o := by
  obtain ⟨⟨_, _, _, _, hw⟩, hne, n, q, hown⟩ := h
  refine ⟨?_, fun m hm => (State.core_onTask_ne w _ _ _ hm).trans (hne m hm), n, q, ?_⟩
  · rw [hw]
    exact ⟨_, _, _, _, rfl⟩
  · rw [State.core_onTask_self, hown]
    rfl

section

variable {s u : State} (h : queuesOnly s u)

include h

theorem queuesOnly.issued_eq (c0 : Cmd) (i : Instr) (tok : Option Nat) : c0.issued u i tok = c0.issued s i tok := by
  obtain ⟨⟨po, co, hu⟩, -, q, hown⟩ := h
  have hcur : u.cur = s.cur := by rw [hu]
  rw [Cmd.issued, Cmd.issued, State.here, State.me, hcur, hown, hu]
  rfl

variable {i : Instr} {hd : CmdHdr} (hh : i.cmdHdr = some hd) (c0 : Cmd)

include hh

/-- A command without an operation takes its token register as it is. -/
theorem handCmd_plain (hc : createsOp i = false) : ∃ w x o, tokenTaken s w (tokenOf hd) x o ∧ w.ops = s.ops
    ∧ (∀ r ∈ tokenOf hd, x = s.me.scalar r) ∧ u.handCmd i c0 = w.enqueue s.cur (c0.issued s i (tokenOf hd)) := by
  have hcur := h.cur_eq
  have hops : u.ops = s.ops := by
    obtain ⟨⟨_, _, hu⟩, -⟩ := h
    rw [hu]
  have hcount := h.countCmd 0 (.cmd 0)
  have hhand : u.handCmd i c0 = (match tokenOf hd with
      | some r => u.countCmd.onTask u.cur (fun t => t.setToken r (t.scalar r) (.cmd (u.core u.cur).serial))
      | none => u.countCmd).enqueue u.cur (c0.issued u i (tokenOf hd)) := by
    unfold State.handCmd
    rw [hc, hh]
    rfl
  rw [hhand, hcur, h.issued_eq]
  cases ht : tokenOf hd with
  | none => exact ⟨u.countCmd, 0, .cmd 0, hcount, hops, fun r hr => (nomatch hr), rfl⟩
  | some r =>
    have hsame : u.countCmd.onTask s.cur (fun t => t.setToken r (t.scalar r) (.cmd (u.core s.cur).serial))
        = u.countCmd.onTask s.cur (fun t => t.setToken r (s.me.scalar r) (.cmd (u.core s.cur).serial)) := by
      obtain ⟨-, -, _, _, hown⟩ := hcount
      exact State.onTask_congr _ _ (by rw [hown]; rfl)
    refine ⟨_, _, _, hcount.take r (s.me.scalar r) _, hops, fun r' hr => ?_, by rw [← hsame]⟩
    rw [Option.mem_some.mp hr]

end

/-! ### The channels of a command -/

/-- A token register and an identifier are no channels. -/
theorem chanFault_none_command {s : State} {us : List Use} {ds : List Def} (hu : ∀ u ∈ us, (∃ o, u = .s o ∧ s.canRead o) ∨ u.chan = none)
    (hd : ∀ d ∈ ds, (∃ o, d = .s o ∧ s.canWrite o) ∨ d.app = none) : chanFault s.iss.pre s.now us ds = none := by
  have h1 : us.findSome? (srcFault s.iss.pre s.now) = none := by
    rw [List.findSome?_eq_none_iff]
    intro u h
    obtain ⟨o, rfl, ho⟩ | hn := hu u h
    · exact (srcFault_none ho).1
    · rw [srcFault, hn]
  have h2 : ds.findSome? (dstFault s.iss.pre) = none := by
    rw [List.findSome?_eq_none_iff]
    intro d h
    obtain ⟨o, rfl, ho⟩ | hn := hd d h
    · exact (dstFault_none ho).1
    · rw [dstFault, hn]
  rw [chanFault, h1, h2]
  rfl

/-- The operands of a command and its token register. -/
theorem cmdUses_readable {s : State} {h : CmdHdr} {os : List Opd} (hr : ∀ o ∈ os, s.canRead o) :
    ∀ u ∈ cmdUses h os, (∃ o, u = .s o ∧ s.canRead o) ∨ u.chan = none := by
  intro u hu
  obtain hu | hu := List.mem_append.mp hu
  · split at hu
    · exact .inr (List.mem_singleton.mp hu ▸ rfl)
    · exact absurd hu List.not_mem_nil
  · obtain ⟨o, ho, rfl⟩ := List.mem_map.mp hu
    exact .inl ⟨o, rfl, hr o ho⟩

theorem cmdDefs_app (h : CmdHdr) : ∀ d ∈ cmdDefs h, d.app = none := by
  intro d hd
  unfold cmdDefs at hd
  split at hd
  · exact List.mem_singleton.mp hd ▸ rfl
  · exact absurd hd List.not_mem_nil

/-- What is common to the commands that create no operation. -/
structure isPlain (h : CmdHdr) (i : Instr) (os : List Opd) : Prop where
  header : i.cmdHdr = some h
  noOp : createsOp i = false
  meaning : ∀ s, exec i s = plainCmd s i os
  sources : ∀ u ∈ uses i, u ∈ cmdUses h os ∨ u.chan = none
  dests : defs i = cmdDefs h

theorem isPlain_plainForms (h : CmdHdr) (q q2 : BitVec 5) (die x y : BitVec 3) (a b c : Opd) (bar : BitVec 8) (core : BitVec 4) (e : BitVec 2)
    (f : Bool) (p : Option Opd) : ∀ i ∈ plainForms h q q2 die x y a b c bar core e f p, isPlain h i.1 i.2 := by
  have plain {i : Instr} {os : List Opd} (h1 : i.cmdHdr = some h) (h2 : createsOp i = false) (h3 : ∀ s, exec i s = plainCmd s i os)
      (h4 : uses i = cmdUses h os) (h5 : defs i = cmdDefs h) : isPlain h i os := ⟨h1, h2, h3, fun _ hu => .inl (h4 ▸ hu), h5⟩
  have ident {i : Instr} {o : Opd} (h1 : i.cmdHdr = some h) (h2 : createsOp i = false) (h3 : ∀ s, exec i s = plainCmd s i [o])
      (h4 : uses i = cmdUses h [] ++ [.id o]) (h5 : defs i = cmdDefs h) : isPlain h i [o] := by
    refine ⟨h1, h2, h3, fun u hu => ?_, h5⟩
    rw [h4] at hu
    obtain hu | hu := List.mem_append.mp hu
    · left
      unfold cmdUses at hu ⊢
      simp only [List.map_nil, List.append_nil] at hu
      exact List.mem_append_left _ hu
    · exact .inr (List.mem_singleton.mp hu ▸ rfl)
  simp only [plainForms, List.forall_mem_cons]
  refine ⟨?cstep, ?unsubs, ?opwait, ?opcancel, ?opdetach, ?opadopt, ?opquery, ?qinit, ?qspliceSend, ?qspliceRecv, ?qunsplice, ?qreset, ?qstat,
    ?qpush, ?qpop, ?binit, ?bexpect, ?barrive, ?bwait, ?bclear, ?bufdecl, ?bufset, ?buprog, ?burun, ?bustat, ?tlaunch, ?tdep, ?lease,
    ?leaseRcl, ?lfree, ?publish, fun _ hi => absurd hi List.not_mem_nil⟩
  case opwait | opcancel | opdetach | opadopt | opquery => exact ident rfl rfl (fun _ => rfl) rfl rfl
  case bwait => cases p <;> exact plain rfl rfl (fun _ => rfl) rfl rfl
  all_goals exact plain rfl rfl (fun _ => rfl) rfl rfl

end Sys2Proof.Machine

open Sys2Proof Sys2Proof.Machine

/-- Settles O37: every form captures its operands, takes its token register, and joins the queue of its unit. -/
theorem commandIssue : Obligations.CommandIssue := by
  intro s h q q2 die x y a b c bar core e f p i hi hread
  obtain ⟨hhdr, hop, hexec, huses, hdefs⟩ := isPlain_plainForms h q q2 die x y a b c bar core e f p i hi
  have hchan : chanFault s.iss.pre s.now (uses i.1) (defs i.1) = none := by
    refine chanFault_none_command (fun u hu => ?_) (fun d hd => .inr (cmdDefs_app h d (hdefs ▸ hd)))
    obtain hu | hu := huses u hu
    · exact cmdUses_readable hread u hu
    · exact .inr hu
  obtain ⟨w, x, o, htok, hops, hval, hhand⟩ := handCmd_plain (queuesOnly.pops s (uses i.1)) hhdr { vals := i.2.map (rdS s) } hop
  have hnext : exec i.1 s = .next (w.enqueue s.cur (Cmd.issued { vals := i.2.map (rdS s) } s i.1 (tokenOf h))) := by
    rw [hexec, plainCmd, cmdOp, hchan, ← hhand]
    rfl
  obtain ⟨⟨_, _, hkeep⟩, -⟩ := w.enqueue_keeps s.cur (Cmd.issued { vals := i.2.map (rdS s) } s i.1 (tokenOf h))
  refine ⟨_, _, hnext, ⟨rfl, rfl, rfl, rfl, rfl, rfl, rfl, rfl, rfl, rfl⟩, rfl, htok.joins _, htok.keepsIssue _ (fun j _ => ?_), fun htv => ?_,
    by rw [hkeep]; exact hops⟩
  · exact s.me.takeToken_same o (fun r hr => ⟨tokenOf_lt hr, hval r hr⟩) j
  · have htok' : tokenOf h = some h.tok.toNat := if_pos htv
    rw [htok'] at htok ⊢
    exact (htok.token h.tok.isLt _).2

end

section
/-!
PROOF. A command that creates an operation (R71, R85, R185 to R190): the entry it takes, and the slots it reserves.
-/

namespace Sys2Proof.Machine

/-! ### The lowest free entry (R185) -/

/-- The search stops at the first number that is not a key, or at its end. -/
theorem freeFrom_spec (ks : List Nat) (n e : Nat) :
    e ≤ freeFrom ks n e ∧ freeFrom ks n e ≤ e + n ∧ (∀ j, e ≤ j → j < freeFrom ks n e → j ∈ ks)
      ∧ (freeFrom ks n e < e + n → freeFrom ks n e ∉ ks) := by
  induction n generalizing e with
  | zero => exact ⟨Nat.le_refl e, Nat.le_refl e, fun j h1 h2 => absurd h2 (Nat.not_lt.mpr h1), fun h => absurd h (Nat.lt_irrefl e)⟩
  | succ n ih =>
    obtain ⟨hge, hle, hin, hout⟩ := ih (e + 1)
    by_cases he : ks.contains e = true
    · rw [freeFrom, if_pos he]
      refine ⟨by omega, by omega, fun j h1 h2 => ?_, fun h => hout (by omega)⟩
      obtain rfl | h1 := Nat.eq_or_lt_of_le h1
      · exact List.contains_iff_mem.mp he
      · exact hin j h1 h2
    · rw [freeFrom, if_neg he]
      exact ⟨Nat.le_refl e, by omega, fun j h1 h2 => absurd h2 (Nat.not_lt.mpr h1), fun _ h => he (List.contains_iff_mem.mpr h)⟩

theorem NMap.mem_keys_iff {α : Type} (m : NMap α) (k : Nat) : k ∈ NMap.keys m ↔ (NMap.find m k).isSome = true := by
  induction m with
  | nil => simp [NMap.keys, NMap.find]
  | cons a m ih =>
    obtain ⟨ka, va⟩ := a
    by_cases h : ka = k
    · simp [NMap.keys, NMap.find, h]
    · simp only [NMap.keys, NMap.find, h, if_false, List.map_cons, List.mem_cons, Ne.symm h, false_or] at ih ⊢
      exact ih

/-- A die whose table is not full has a free entry. -/
theorem State.freeEntry_lt (s : State) (die : Nat) (h : (s.ops.filter (fun kv => kv.1 / 8192 == die)).length < 8192) :
    s.freeEntry die < 8192 * die + 8192 := by
  obtain ⟨-, hle, hin, -⟩ := freeFrom_spec (NMap.keys s.ops) 8192 (8192 * die)
  refine Nat.lt_of_le_of_ne hle (fun heq => ?_)
  have heq : freeFrom (NMap.keys s.ops) 8192 (8192 * die) = 8192 * die + 8192 := heq
  have hsub : List.range' (8192 * die) 8192 ⊆ (s.ops.filter (fun kv => kv.1 / 8192 == die)).map Prod.fst := by
    intro j hj
    obtain ⟨hj1, hj2⟩ := List.mem_range'_1.mp hj
    obtain ⟨e, he, rfl⟩ := List.mem_map.mp (hin j hj1 (by omega))
    refine List.mem_map.mpr ⟨e, List.mem_filter.mpr ⟨he, ?_⟩, rfl⟩
    have hdiv : e.1 / 8192 = die := by omega
    simp [hdiv]
  have hlen := (List.Nodup.subperm List.nodup_range' hsub).length_le
  rw [List.length_range', List.length_map] at hlen
  omega

/-- The entry that is taken is the lowest that nothing holds. -/
theorem State.freeEntry_spec (s : State) (die : Nat) (h : (s.ops.filter (fun kv => kv.1 / 8192 == die)).length < 8192) :
    s.freeEntry die / 8192 = die ∧ s.op? (s.freeEntry die) = none
      ∧ ∀ j, 8192 * die ≤ j → j < s.freeEntry die → (s.op? j).isSome = true := by
  obtain ⟨hge, -, hin, hout⟩ := freeFrom_spec (NMap.keys s.ops) 8192 (8192 * die)
  have hlt := s.freeEntry_lt die h
  refine ⟨?_, ?_, fun j h1 h2 => (NMap.mem_keys_iff _ _).mp (hin j h1 h2)⟩
  · have hge : 8192 * die ≤ s.freeEntry die := hge
    omega
  · have hnone := hout hlt
    rw [NMap.mem_keys_iff, Bool.not_eq_true, Option.isSome_eq_false_iff, Option.isNone_iff_eq_none] at hnone
    exact hnone

/-! ### The operation a command creates (R185, R186) -/

/-- The operation of a command, as it is created. -/
def Cmd.asOp (k : Cmd) (s : State) (n : Nat) : Op :=
  { gen := s.nextGen n, unit := k.ins.unitCode, core := s.cur, ownCore := s.cur, ctx := s.ctxOf s.cur, grp := k.grp, idx := k.idx,
    prio := k.prio, ord := bitOf k.ca.toNat 59, cmd := k, tokLive := k.tok.isSome }

theorem tokenTaken.setOps {s w : State} {tok : Option Nat} {x : Word} {o : TokOwner} (h : tokenTaken s w tok x o) (os : NMap Op) (gs : NMap Nat) :
    tokenTaken s { w with ops := os, gens := gs } tok x o := by
  obtain ⟨⟨_, _, _, _, rfl⟩, hne, hown⟩ := h
  exact ⟨⟨_, _, _, _, rfl⟩, hne, hown⟩

/-- The operation a command creates, and the token that names it. -/
theorem tokenTaken.newOp {s v : State} {n : Nat} (hn : s.freeEntry (dieOf s.cur) = n)
    (hv : tokenTaken s v none (opIdent n (s.nextGen n)) (.op n)) (hops : v.ops = s.ops) (hgens : v.gens = s.gens) (k : Cmd) :
    tokenTaken s (v.newOp s.cur k k.prio) k.tok (opIdent n (s.nextGen n)) (.op n)
      ∧ (v.newOp s.cur k k.prio).ops = NMap.set s.ops n (({ k with op := some n } : Cmd).asOp s n) := by
  have hfree : v.freeEntry (dieOf s.cur) = n := by
    rw [State.freeEntry, hops]
    exact hn
  have hgen : v.nextGen n = s.nextGen n := by
    rw [State.nextGen, hgens]
    rfl
  have hctx : v.ctxOf s.cur = s.ctxOf s.cur := by
    obtain ⟨-, -, _, _, hown⟩ := hv
    rw [State.ctxOf, hown]
    rfl
  unfold State.newOp
  simp only [hfree, hgen, hctx, hops, hgens]
  cases k.tok with
  | none => exact ⟨hv.setOps _ _, rfl⟩
  | some r => exact ⟨(hv.setOps _ _).take r _ _, rfl⟩

section

variable {s u : State} (h : queuesOnly s u) {i : Instr} {hd : CmdHdr} (hh : i.cmdHdr = some hd) (c0 : Cmd)

include h hh

/-- A command with an operation takes the lowest free entry, and its token register names it. -/
theorem handCmd_op (hc : createsOp i = true) {n : Nat} (hn : s.freeEntry (dieOf s.cur) = n) :
    let k : Cmd := { c0.issued s i (tokenOf hd) with op := some n }
    ∃ w, tokenTaken s w (tokenOf hd) (opIdent n (s.nextGen n)) (.op n) ∧ w.ops = NMap.set s.ops n (k.asOp s n)
      ∧ u.handCmd i c0 = w.enqueue s.cur k := by
  intro k
  have hcur := h.cur_eq
  have hhand : u.handCmd i c0 = (u.countCmd.newOp u.cur (c0.issued u i (tokenOf hd)) (c0.issued u i (tokenOf hd)).prio).enqueue u.cur
      { c0.issued u i (tokenOf hd) with op := some (u.countCmd.freeEntry (dieOf u.cur)) } := by
    unfold State.handCmd
    rw [hc, hh]
    rfl
  have hsame : u.countCmd.ops = s.ops ∧ u.countCmd.gens = s.gens := by
    obtain ⟨⟨_, _, hu⟩, -⟩ := h
    rw [hu]
    exact ⟨rfl, rfl⟩
  have hfree : u.countCmd.freeEntry (dieOf s.cur) = n := by
    rw [State.freeEntry, hsame.1]
    exact hn
  rw [hhand, hcur, h.issued_eq, hfree]
  obtain ⟨htok, hops⟩ := (h.countCmd _ _).newOp hn hsame.1 hsame.2 (c0.issued s i (tokenOf hd))
  exact ⟨_, htok, hops, rfl⟩

end

/-! ### The slots a command reserves (R167, R168, R190) -/

theorem queuesOnly.foldl_at {α : Type} {c : Nat} (f : State → α → State) (h : ∀ s x, s.cur = c → queuesOnly s (f s x)) (l : List α) {s : State}
    (hs : s.cur = c) : queuesOnly s (l.foldl f s) := by
  induction l generalizing s with
  | nil => exact queuesOnly.refl s
  | cons x l ih => exact (h s x hs).trans (ih ((h s x hs).cur_eq.trans hs))

theorem queuesOnly.reserveSlot (s : State) (q : Nat) : queuesOnly s (s.reserveSlot s.cur q).2 := by
  rw [State.reserveSlot_eq]
  exact queuesOnly.onQueue s q (fun z => z.reserve.2)

theorem queuesOnly.reservePres (s : State) (ca : Word) : queuesOnly s (s.reservePres s.cur ca).2 := by
  unfold State.reservePres
  split
  · exact queuesOnly.foldl_at _ (fun t _ ht => ht ▸ queuesOnly.reserveSlot t _) _ rfl
  · exact queuesOnly.refl s

/-- What an MX command does to the queues it reads and appends to. -/
def State.mxSlots (s : State) (slots : List (Nat × Nat)) (app : Option Nat) : Option (Nat × Nat × Nat) × State :=
  let t := slots.foldl (fun t qc => t.addBusy t.cur qc.1 (qc.2 % 65536) 1) s
  match app with
  | some q => (some (q, (t.reserveSlot t.cur q).1, 1), (t.reserveSlot t.cur q).2)
  | none => (none, t)

theorem queuesOnly.mxSlots (s : State) (slots : List (Nat × Nat)) (app : Option Nat) : queuesOnly s (s.mxSlots slots app).2 := by
  have hbusy := queuesOnly.foldl (fun (t : State) (qc : Nat × Nat) => t.addBusy t.cur qc.1 (qc.2 % 65536) 1)
    (fun t qc => queuesOnly.onQueue t qc.1 _) slots s
  cases app with
  | none => exact hbusy
  | some q => exact hbusy.trans (queuesOnly.reserveSlot _ q)

theorem mxSlots_res (s : State) (slots : List (Nat × Nat)) {app : Option Nat} {q : Nat} (h : app = some q) :
    (s.mxSlots slots app).1.map Prod.fst = some q := by
  subst h
  rfl

/-! ### The commands that create operations -/

/-- What is common to the commands that create an operation. -/
structure isOpForm (h : CmdHdr) (i : Instr) (os imgs : List Opd) (act : Option Opd) (app : Option Nat) : Prop where
  header : i.cmdHdr = some h
  hasOp : createsOp i = true
  meaning : (imgs = [] ∧ app = none ∧ ∀ s, exec i s = caCmd s i os act) ∨ (act = none ∧ ∀ s, ∃ sc, exec i s = mxCmd s i os imgs sc app)
  sources : ∀ u ∈ uses i, (∃ o ∈ os ++ act.toList, u = .s o) ∨ u.chan = none
  dests : ∀ d ∈ defs i, (∃ o ∈ os, d = .s o) ∨ d.app = none

theorem isOpForm_opForms (h : CmdHdr) (m : MmaPay) (eng f g : Bool) (fmt i j : BitVec 5) (x y : BitVec 3) (r : BitVec 2) (sc : BitVec 10)
    (am : BitVec 32) (s0 s1 : BitVec 16) (a b : Opd) (ca : Option Opd) :
    ∀ z ∈ opForms h m eng f g fmt i j x y r sc am s0 s1 a b ca, isOpForm h z.1 z.2.1 z.2.2.1 z.2.2.2.1 z.2.2.2.2 := by
  have sources {os : List Opd} {act : Option Opd} : ∀ u ∈ cmdUses h (os ++ optOpd act), (∃ o ∈ os ++ act.toList, u = .s o) ∨ u.chan = none := by
    intro u hu
    obtain hu | hu := List.mem_append.mp hu
    · split at hu
      · exact .inr (List.mem_singleton.mp hu ▸ rfl)
      · exact absurd hu List.not_mem_nil
    · obtain ⟨o, ho, rfl⟩ := List.mem_map.mp hu
      cases act <;> exact .inl ⟨o, ho, rfl⟩
  have copies {i : Instr} {os : List Opd} (h1 : i.cmdHdr = some h) (h2 : createsOp i = true) (h3 : ∀ s, exec i s = caCmd s i os ca)
      (h4 : uses i = cmdUses h (os ++ optOpd ca)) (h5 : defs i = cmdDefs h) : isOpForm h i os [] ca none :=
    ⟨h1, h2, .inl ⟨rfl, rfl, h3⟩, h4 ▸ sources, fun d hd => .inr (cmdDefs_app h d (h5 ▸ hd))⟩
  have engine {i : Instr} {os imgs : List Opd} (h1 : i.cmdHdr = some h) (h2 : createsOp i = true)
      (h3 : ∀ s, ∃ sc, exec i s = mxCmd s i os imgs sc none) (h4 : uses i = cmdUses h os) (h5 : defs i = cmdDefs h) :
      isOpForm h i os imgs none none :=
    ⟨h1, h2, .inr ⟨rfl, h3⟩, fun u hu => sources (act := none) u (by rw [h4] at hu; simpa [optOpd] using hu),
      fun d hd => .inr (cmdDefs_app h d (h5 ▸ hd))⟩
  simp only [opForms, List.forall_mem_cons]
  refine ⟨?mma, ?mdist, ?mtopk, ?mzero, ?mdrain, ?mldacc, ?cpy, ?cpyg, ?cpys, ?cpyx, ?cpysc, ?cplan, ?subs, ?callred, ?cred, ?cbc, ?cag, ?crsc,
    ?bqpost, fun _ hi => absurd hi List.not_mem_nil⟩
  case mma | mdist | mtopk | mzero | mldacc => exact engine rfl rfl (fun _ => ⟨_, rfl⟩) rfl rfl
  case mdrain =>
    cases a
    case app q =>
      refine ⟨rfl, rfl, .inr ⟨rfl, fun _ => ⟨_, rfl⟩⟩, fun u hu => ?_, fun d hd => ?_⟩
      · obtain ⟨o, ho, rfl⟩ | hn := sources (os := [b]) (act := none) u hu
        · exact .inl ⟨o, List.mem_cons_of_mem _ ho, rfl⟩
        · exact .inr hn
      · obtain hd | hd := List.mem_append.mp hd
        · exact .inr (cmdDefs_app h d hd)
        · exact .inl ⟨.app q, List.mem_cons_self, List.mem_singleton.mp hd⟩
    all_goals exact engine rfl rfl (fun _ => ⟨_, rfl⟩) rfl (List.append_nil _)
  all_goals exact copies rfl rfl (fun _ => rfl) rfl rfl

/-- The channels of a command whose operands may be read and written raise no fault. -/
theorem isOpForm.noChanFault {s : State} {h : CmdHdr} {i : Instr} {os imgs : List Opd} {act : Option Opd} {app : Option Nat}
    (hf : isOpForm h i os imgs act app) (hos : ∀ o ∈ os, s.canRead o ∧ s.canWrite o) (hact : ∀ o ∈ act.toList, s.canRead o) :
    chanFault s.iss.pre s.now (uses i) (defs i) = none := by
  refine chanFault_none_command (fun u hu => ?_) (fun d hd => ?_)
  · obtain ⟨o, ho, rfl⟩ | hn := hf.sources u hu
    · obtain ho | ho := List.mem_append.mp ho
      · exact .inl ⟨o, rfl, (hos o ho).1⟩
      · exact .inl ⟨o, rfl, hact o ho⟩
    · exact .inr hn
  · obtain ⟨o, ho, rfl⟩ | hn := hf.dests d hd
    · exact .inl ⟨o, rfl, (hos o ho).2⟩
    · exact .inr hn

/-- The checks of a completion action (R190). -/
theorem caFault_cases (s : State) (v : Word) :
    let ok := (NMap.get {} s.iss.pre.c.q (bits (caArg v) 0 5)).st.mayAppend
    (caValid v = false → caFault s v = some (Code.reservedField, 0, 0))
      ∧ (caValid v = true → caKind v = 3 → ok = false → caFault s v = some (Code.queueState, 0, 0))
      ∧ (caValid v = true → (caKind v = 3 → ok = true) → caFault s v = none) := by
  intro ok
  unfold caFault firstFault require
  refine ⟨fun h => ?_, fun h hk hok => ?_, fun h hok => ?_⟩
  · simp [h]
  · have hok : (NMap.get {} s.iss.pre.c.q (bits (caArg v) 0 5)).st.mayAppend = false := hok
    simp [h, hk, hok]
  · by_cases hk : caKind v = 3
    · have hok : (NMap.get {} s.iss.pre.c.q (bits (caArg v) 0 5)).st.mayAppend = true := hok hk
      simp [h, hok]
    · simp [h, hk]

/-- A command whose channels and whose completion action raise no fault is handed over with what it captured. -/
theorem isOpForm.hands {s : State} {h : CmdHdr} {i : Instr} {os imgs : List Opd} {act : Option Opd} {app : Option Nat}
    (hf : isOpForm h i os imgs act app) (hchan : chanFault s.iss.pre s.now (uses i) (defs i) = none) (hca : caFault s (caVal s act) = none) :
    ∃ u c0, queuesOnly s u ∧ exec i s = .next (u.handCmd i c0) ∧ c0.vals = os.map (rdS s) ∧ c0.ca = caVal s act
      ∧ c0.chans = slotsRead s imgs ∧ ∀ q, app = some q → c0.res.map Prod.fst = some q := by
  have hpops := queuesOnly.pops s (uses i)
  obtain ⟨rfl, rfl, hexec⟩ | ⟨rfl, hexec⟩ := hf.meaning
  · refine ⟨_, { vals := os.map (rdS s), ca := caVal s act, res := ((popAll s (uses i)).reservePres (popAll s (uses i)).cur (caVal s act)).1 },
      hpops.trans (queuesOnly.reservePres _ (caVal s act)), ?_, rfl, rfl, rfl, fun q hq => (nomatch hq)⟩
    rw [hexec, caCmd, cmdOp, hchan, hca]
    rfl
  · obtain ⟨sc, hexec⟩ := hexec s
    refine ⟨_, { vals := os.map (rdS s), chans := slotsRead s imgs, busy := slotsRead s imgs, scales := sc,
                     res := ((popAll s (uses i)).mxSlots (slotsRead s imgs) app).1 },
      hpops.trans (queuesOnly.mxSlots _ (slotsRead s imgs) app), ?_, rfl, rfl, rfl, fun q hq => mxSlots_res _ _ hq⟩
    rw [hexec, mxCmd, cmdOp, hchan]
    cases app <;> rfl

/-- A command whose completion action raises a fault takes it. -/
theorem isOpForm.faults {s : State} {h : CmdHdr} {i : Instr} {os imgs : List Opd} {act : Option Opd} {app : Option Nat} {e : IssueFault}
    (hf : isOpForm h i os imgs act app) (hchan : chanFault s.iss.pre s.now (uses i) (defs i) = none) (hca : caFault s (caVal s act) = some e)
    (hact : act ≠ none) : exec i s = .next (s.takeFault e.1 e.2.1 e.2.2) := by
  obtain ⟨-, -, hexec⟩ | ⟨hnone, -⟩ := hf.meaning
  · rw [hexec, caCmd, cmdOp, hchan, hca]
    rfl
  · exact absurd hnone hact

end Sys2Proof.Machine

open Sys2Proof Sys2Proof.Machine

/-- Settles O38: every form captures its operands, reserves its slots, takes the lowest free entry and joins its unit's queue; the checks of
its completion action come before. -/
theorem operationIssue : Obligations.OperationIssue := by
  refine ⟨?issue, ?faults, fun s die h => s.freeEntry_spec die h⟩
  case issue =>
    intro s h m eng f g fmt i j x y r sc am s0 s1 a b ca z hz hos hvalid hpres hact
    have hform := isOpForm_opForms h m eng f g fmt i j x y r sc am s0 s1 a b ca z hz
    obtain ⟨ins, os, imgs, act, app⟩ := z
    obtain ⟨u, c0, hu, hexec, hvals, hcav, hchans, hres⟩ := hform.hands (hform.noChanFault hos hact) ((caFault_cases s _).2.2 hvalid hpres)
    obtain ⟨w, htok, hops, hhand⟩ := handCmd_op hu hform.header c0 hform.hasOp rfl
    rw [hhand] at hexec
    generalize hn : s.freeEntry (dieOf s.cur) = n at htok hops hexec ⊢
    generalize hk : ({ c0.issued s ins (tokenOf h) with op := some n } : Cmd) = k at hops hexec
    have hins : k.ins = ins := by rw [← hk]; rfl
    have hcmd : isCommand s ins h os k := by
      rw [← hk]
      exact ⟨rfl, hvals, rfl, rfl, rfl, rfl, rfl, rfl, rfl, rfl⟩
    have hop (e : Nat) : (w.enqueue s.cur k).op? e = NMap.find (NMap.set s.ops n (k.asOp s n)) e := by
      obtain ⟨⟨_, _, hkeep⟩, -⟩ := w.enqueue_keeps s.cur k
      rw [hkeep, ← hops]
      rfl
    have hne (e : Nat) (he : e ≠ n) : (w.enqueue s.cur k).op? e = s.op? e := (hop e).trans (NMap.find_set_ne _ _ _ _ he)
    refine ⟨_, k, k.asOp s n, hexec, hcmd, by rw [← hk], by rw [← hk]; exact hcav, hins ▸ htok.joins k,
      (hop n).trans (NMap.find_set_self _ _ _), rfl, by rw [← hins]; rfl, rfl, rfl, by rw [← hk]; rfl, by rw [← hk]; rfl, by rw [← hk]; rfl,
      by rw [← hcav, ← hk]; rfl, rfl, hne, htok.keepsIssue k (fun j hj => ?_), fun htv => ?_, by rw [← hk]; exact hchans,
      by rw [← hk]; exact hres⟩
    · refine (s.me.takeToken_regs (tokenOf h) _ _).1 j (fun hmem => hj ?_)
      unfold tokenOf at hmem
      cases htv : h.tv with
      | true =>
        rw [htv] at hmem
        exact hmem
      | false =>
        rw [htv] at hmem
        exact nomatch hmem
    · have htok' : tokenOf h = some h.tok.toNat := if_pos htv
      rw [htok'] at htok
      exact htok.token h.tok.isLt k
  case faults =>
    intro s h m eng f g fmt i j x y r sc am s0 s1 a b ca z hz hos
    have hform := isOpForm_opForms h m eng f g fmt i j x y r sc am s0 s1 a b ca z hz
    obtain ⟨ins, os, imgs, act, app⟩ := z
    have hchan := hform.noChanFault (fun o ho => hos o (List.mem_append_left _ ho)) (fun o ho => (hos o (List.mem_append_right _ ho)).1)
    obtain ⟨hreserved, hqueue, -⟩ := caFault_cases s (caVal s act)
    refine ⟨fun hv hact => hform.faults (e := (Code.reservedField, 0, 0)) hchan (hreserved hv) hact,
      fun hv hkind hno => hform.faults (e := (Code.queueState, 0, 0)) hchan (hqueue hv hkind hno) ?_⟩
    rintro rfl
    exact absurd (show caKind 0 = 3 from hkind) (by decide)

end

section
/-!
PROOF. What the machinery leaves as it reads (R271, R285, R293): nothing but dies, check bits of scratchpad, what is posted and what is drawn.
-/

namespace Sys2Proof.Machine

/-- Nothing has changed but dies, check bits of scratchpad, one core, what is drawn and what is posted, which has only grown. -/
def tends (s t : State) (core : Nat) : Prop :=
  (∃ po fr di pe co, t = { s with posted := po, free := fr, dies := di, padErr := pe, cores := co })
    ∧ (∀ n, n ≠ core → t.core n = s.core n) ∧ ∀ e ∈ s.posted, e ∈ t.posted

namespace tends

variable {s t u : State} {core : Nat}

theorem refl (s : State) (core : Nat) : tends s s core := ⟨⟨_, _, _, _, _, rfl⟩, fun _ _ => rfl, fun _ h => h⟩

theorem trans (h : tends s t core) (k : tends t u core) : tends s u core := by
  obtain ⟨⟨_, _, _, _, _, rfl⟩, h1, h2⟩ := h
  obtain ⟨⟨_, _, _, _, _, rfl⟩, k1, k2⟩ := k
  exact ⟨⟨_, _, _, _, _, rfl⟩, fun n hn => (k1 n hn).trans (h1 n hn), fun e he => k2 e (h2 e he)⟩

theorem keepsStore (h : tends s t core) : keepsStore s t core := by
  obtain ⟨⟨_, _, _, _, _, rfl⟩, h1, -⟩ := h
  exact ⟨⟨_, _, _, _, _, rfl⟩, h1, fun _ => rfl⟩

theorem onCore (s : State) (core : Nat) (f : Core → Core) : tends s (s.onCore core f) core :=
  ⟨⟨_, _, _, _, _, rfl⟩, fun _ hn => State.core_onCore_ne s _ _ _ hn, fun _ h => h⟩

theorem onTask (s : State) (core : Nat) (f : TaskSt → TaskSt) : tends s (s.onTask core f) core := onCore s core _

theorem post (s : State) (core n : Nat) (a : Act) : tends s (s.post n a) core :=
  ⟨⟨_, _, _, _, _, rfl⟩, fun _ _ => rfl, fun _ h => List.mem_append_left _ h⟩

theorem postEv (s : State) (core n : Nat) (i : Instr) : tends s (s.postEv n i) core := post s core n _

theorem postFree (s : State) (core n : Nat) (i : Instr) : tends s (s.postFree n i) core :=
  ⟨⟨_, _, _, _, _, rfl⟩, fun _ _ => rfl, fun _ h => List.mem_append_left _ h⟩

theorem onDie (s : State) (core n : Nat) (f : Die → Die) : tends s (s.onDie n f) core :=
  ⟨⟨_, _, _, _, _, rfl⟩, fun _ _ => rfl, fun _ h => h⟩

theorem foldl {α : Type} (f : State → α → State) (h : ∀ s a, tends s (f s a) core) (l : List α) (s : State) : tends s (l.foldl f s) core := by
  induction l generalizing s with
  | nil => exact refl s core
  | cons a l ih => exact (h s a).trans (ih _)

end tends

/-- A relation that is reflexive and transitive and holds of the machinery's own steps on dies and of what it posts. -/
structure isUpkeep (R : State → State → Prop) : Prop where
  refl : ∀ s, R s s
  trans : ∀ s t u, R s t → R t u → R s u
  onDie : ∀ s n f, R s (s.onDie n f)
  postEv : ∀ s n i, R s (s.postEv n i)

section

variable {R : State → State → Prop} (h : isUpkeep R) (s : State)

include h

theorem isUpkeep.foldl {α : Type} (f : State → α → State) (hf : ∀ s a, R s (f s a)) (l : List α) : R s (l.foldl f s) := by
  induction l generalizing s with
  | nil => exact h.refl s
  | cons a l ih => exact h.trans _ _ _ (hf s a) (ih _)

theorem isUpkeep.fixMode (d p : Nat) : R s (s.fixMode d p) := by
  unfold State.fixMode
  dsimp only
  split
  · exact h.refl s
  · split <;> exact h.onDie _ _ _

theorem isUpkeep.touchPc (d p : Nat) : R s (s.touchPc d p) := by
  unfold State.touchPc
  dsimp only
  have hpc (f : PChan → PChan) : R s ((s.fixMode d p).onPc d p f) := h.trans _ _ _ (h.fixMode s d p) (h.onDie _ _ _)
  split
  · exact hpc _
  · exact h.trans _ _ _ (hpc _) (h.postEv _ _ _)

theorem isUpkeep.scrubWord (d p : Nat) : R s (s.scrubWord d p) := by
  unfold State.scrubWord
  dsimp only
  split
  · have hpc (n : Nat) (f : PChan → PChan) : R s (((s.countCorrected d).touchPc d n).onPc d n f) :=
      h.trans _ _ _ (h.trans _ _ _ (h.onDie _ _ _) (h.touchPc _ _ _)) (h.onDie _ _ _)
    split
    · exact hpc _ _
    · exact h.trans _ _ _ (hpc _ _) (h.postEv _ _ _)
  · exact h.refl s

theorem isUpkeep.scrubRun (x : Tgt) (n : Nat) : R s (s.scrubRun x n) := by
  unfold State.scrubRun
  split
  · exact h.foldl _ _ (fun s i => h.scrubWord s _ _) _
  · exact h.refl s

theorem isUpkeep.walkSeen (ctx va : Nat) : R s (s.walkSeen ctx va) := by
  unfold State.walkSeen
  exact h.foldl _ _ (fun s p => h.scrubWord s _ p) _

end

theorem tends_isUpkeep (core : Nat) : isUpkeep (fun s t => tends s t core ∧ t.cores = s.cores) where
  refl s := ⟨.refl s core, rfl⟩
  trans _ _ _ h k := ⟨h.1.trans k.1, k.2.trans h.2⟩
  onDie s n f := ⟨.onDie s core n f, rfl⟩
  postEv s n i := ⟨.postEv s core n i, rfl⟩

/-- The words of a run are checked by a read: no core takes part. -/
theorem tends.scrubRun (s : State) (core : Nat) (x : Tgt) (n : Nat) : tends s (s.scrubRun x n) core ∧ (s.scrubRun x n).cores = s.cores :=
  (tends_isUpkeep core).scrubRun s x n

theorem tends.walkSeen (s : State) (core ctx va : Nat) : tends s (s.walkSeen ctx va) core ∧ (s.walkSeen ctx va).cores = s.cores :=
  (tends_isUpkeep core).walkSeen s ctx va

theorem core_of_cores {s t : State} (h : t.cores = s.cores) (n : Nat) : t.core n = s.core n := by
  rw [State.core, State.core, h]

theorem State.SameReads.onCore (s : State) (core : Nat) (f : Core → Core) : s.SameReads (s.onCore core f) :=
  ⟨rfl, rfl, rfl, rfl, rfl, fun _ => rfl, fun _ => rfl, fun _ => rfl⟩

end Sys2Proof.Machine
end

section
/-!
PROOF. A fetched block arrives (R61, R314).
-/

namespace Sys2Proof.Machine

/-- A core that no longer waits for a block. -/
def State.fetchedNow (s : State) (core b : Nat) : State := s.onCore core (fun c => { c with fetching := c.fetching.filter (· != b) })

/-- A core's buffer with a block more. -/
def Core.keepBlock (c : Core) (b : Nat) (bs : List Byte) : Core :=
  if c.mayHold b then { c with held := NMap.set c.held b bs } else { c with fetched := NMap.set c.fetched b bs }

/-- The bundle that waits for a block is due. -/
def State.wakeNeeded (s : State) (core : Nat) (needed : Bool) : State := if needed then s.post s.now (.issue core (s.core core).gen) else s

theorem Core.needs_iff (c : Core) (b : Nat) : c.needs b = true ↔ c.t.mode = .running ∧ c.bundleBytes c.t.pc = .error b := by
  unfold Core.needs
  cases c.bundleBytes c.t.pc <;> simp

theorem Core.block_keepBlock {c : Core} {b : Nat} (h : c.block b = none) (bs : List Byte) : (c.keepBlock b bs).block b = some bs := by
  unfold Core.block at h
  have hheld : NMap.find c.held b = none := by
    cases hb : NMap.find c.held b with
    | none => rfl
    | some x =>
      rw [hb] at h
      exact nomatch h
  unfold Core.keepBlock Core.block
  split
  · rw [NMap.find_set_self]
    rfl
  · rw [hheld, NMap.find_set_self]
    rfl

theorem Core.keepBlock_task (c : Core) (b : Nat) (bs : List Byte) : (c.keepBlock b bs).t = c.t ∧ (c.keepBlock b bs).gen = c.gen := by
  unfold Core.keepBlock
  split <;> exact ⟨rfl, rfl⟩

/-- A block that is read ahead is noted where it is asked for. -/
theorem State.askAhead_keeps (s : State) (core b : Nat) :
    tends s (s.askAhead core b) core ∧ ∃ fe, (s.askAhead core b).core core = { s.core core with fetching := fe } := by
  unfold State.askAhead State.askBlock
  split
  · split
    · exact ⟨.refl s core, _, rfl⟩
    · exact ⟨(tends.onCore s core _).trans (.postFree _ core _ _), _, State.core_onCore_self s core (fun c => { c with fetching := b :: c.fetching })⟩
  · exact ⟨.refl s core, _, rfl⟩

theorem State.fetchedNow_task (s : State) (core b : Nat) : ((s.fetchedNow core b).core core).t = (s.core core).t := by
  rw [State.fetchedNow, State.core_onCore_self]

theorem State.fetchedNow_checkLeaf (s : State) (core b : Nat) : checkLeaf (s.fetchedNow core b) = checkLeaf s :=
  (State.SameReads.onCore s core _).checkLeaf

section

variable {s : State} {core b : Nat} {e : TlbEnt} (hf : (s.core core).fetching.contains b = true)
  (hw : (s.core core).t.port.any (fun r => (s.core core).t.fetchWait.contains r.id) = false) (hb : 64 * b < 2 ^ 57)
  (he : State.tlbLookup (s.core core).tlb (s.ctxOf core) (64 * b) = some e)

include hf hw hb he

/-- What a block does that arrives: its page is checked as it stands, its home is read, and the buffer holds it. -/
theorem blockArrive_eq : s.blockArrive core b =
    match checkLeaf s (dieOf core) e (64 * b) { acc := 3 } with
    | .error f => if (s.core core).needs b then (s.fetchedNow core b).takeFetch core f else s.fetchedNow core b
    | .ok x =>
      let v := (s.fetchedNow core b).scrubRun x.tgt 64
      let f : TFault := { code := Code.memUncorrectable, va := 64 * b, acc := 3 }
      if v.homeBad x.tgt 64 then (if (s.core core).needs b then v.takeFetch core f else v)
      else ((v.onCore core (fun c => c.keepBlock b (v.homeBytes (s.ctxOf core) x.tgt 64))).wakeNeeded core ((s.core core).needs b)).askAhead core
        (b + readAhead) := by
  rw [← State.fetchedNow_checkLeaf s core b]
  unfold State.blockArrive State.fetchedNow
  simp only [hf, hw, he, Nat.not_le.mpr hb, Bool.not_true, Bool.false_eq_true, if_false]
  rfl

end

theorem State.wakeNeeded_keeps (s : State) (core : Nat) (needed : Bool) :
    tends s (s.wakeNeeded core needed) core ∧ (s.wakeNeeded core needed).cores = s.cores
      ∧ (needed = true → (s.wakeNeeded core needed).hasPosted s.now (.issue core (s.core core).gen)) := by
  unfold State.wakeNeeded
  cases needed with
  | false => exact ⟨.refl s core, rfl, fun h => nomatch h⟩
  | true => exact ⟨.post s core _ _, rfl, fun _ => State.hasPosted_post (Nat.le_refl s.now) _⟩

/-- The block stands in the buffer, and the bundle that waits for it is due. -/
theorem blockKept {s v : State} {core b : Nat} (hv : tends s v core) (hnow : v.now = s.now) {fe : List Nat}
    (hcore : v.core core = { s.core core with fetching := fe }) (hb : (s.core core).block b = none) (bs : List Byte) (needed : Bool) :
    let t := ((v.onCore core (fun c => c.keepBlock b bs)).wakeNeeded core needed).askAhead core (b + readAhead)
    (t.core core).block b = some bs ∧ (t.core core).t = (s.core core).t ∧ keepsStore s t core
      ∧ (needed = true → t.hasPosted s.now (.issue core (s.core core).gen)) := by
  intro t
  have hown : (v.onCore core (fun c => c.keepBlock b bs)).core core = (v.core core).keepBlock b bs := State.core_onCore_self v core _
  obtain ⟨hwake, hcores, hdue⟩ := (v.onCore core (fun c => c.keepBlock b bs)).wakeNeeded_keeps core needed
  obtain ⟨hask, fe', hfe⟩ := ((v.onCore core (fun c => c.keepBlock b bs)).wakeNeeded core needed).askAhead_keeps core (b + readAhead)
  rw [core_of_cores hcores, hown] at hfe
  obtain ⟨ht, hg⟩ := (v.core core).keepBlock_task b bs
  refine ⟨?_, ?_, (((hv.trans (.onCore v core _)).trans hwake).trans hask).keepsStore, fun h => ?_⟩
  · rw [hfe]
    exact Core.block_keepBlock (c := v.core core) (by rw [hcore]; exact hb) bs
  · rw [hfe]
    exact ht.trans (by rw [hcore])
  · have hdue := hask.2.2 _ (hdue h)
    rw [hown, hg, hcore, show (v.onCore core (fun c => c.keepBlock b bs)).now = s.now from hnow] at hdue
    exact hdue

end Sys2Proof.Machine
end

section
/-!
PROOF. A page walk returns (R98, R271).
-/

namespace Sys2Proof.Machine

/-! ### Requests of the port go on their way (R99, R285) -/

/-- A task whose port has entries at other stages, or some of them gone. -/
def portMoves (t u : TaskSt) : Prop :=
  (∃ po, u = { t with port := po }) ∧ ∀ r ∈ t.port, r.kind ≠ .fence → ∃ st, { r with stage := st } ∈ u.port

theorem portMoves.refl (t : TaskSt) : portMoves t t := ⟨⟨_, rfl⟩, fun r hr _ => ⟨r.stage, hr⟩⟩

theorem portMoves.trans {t u v : TaskSt} (h : portMoves t u) (k : portMoves u v) : portMoves t v := by
  obtain ⟨⟨_, rfl⟩, h1⟩ := h
  obtain ⟨⟨_, rfl⟩, k1⟩ := k
  refine ⟨⟨_, rfl⟩, fun r hr hk => ?_⟩
  obtain ⟨st, hst⟩ := h1 r hr hk
  exact k1 { r with stage := st } hst hk

/-- Only fences leave the port by themselves. -/
theorem mem_dropFences {r : MemReq} (hk : r.kind ≠ .fence) (older l : List MemReq) (hr : r ∈ l) : r ∈ dropFences older l := by
  induction l generalizing older with
  | nil => exact absurd hr List.not_mem_nil
  | cons x l ih =>
    rw [dropFences]
    split
    · next hx =>
      obtain rfl | hr := List.mem_cons.mp hr
      · exact absurd (beq_iff_eq.mp (Bool.and_eq_true_iff.mp hx).1) hk
      · exact ih _ hr
    · obtain rfl | hr := List.mem_cons.mp hr
      · exact List.mem_cons_self
      · exact List.mem_cons_of_mem _ (ih _ hr)

theorem portMoves.dropFences (t : TaskSt) : portMoves t { t with port := dropFences [] t.port } :=
  ⟨⟨_, rfl⟩, fun r hr hk => ⟨r.stage, mem_dropFences hk [] _ hr⟩⟩

theorem portMoves.queued (t : TaskSt) (id : Nat) : portMoves t (t.onReq id (fun r => { r with stage := .queued })) := by
  refine ⟨⟨_, rfl⟩, fun r hr _ => ?_⟩
  by_cases h : r.id = id
  · exact ⟨.queued, List.mem_map.mpr ⟨r, hr, if_pos h⟩⟩
  · exact ⟨r.stage, List.mem_map.mpr ⟨r, hr, if_neg h⟩⟩

/-- What a step of a core's port does: the machinery's upkeep, and entries of the port that move on. -/
def portSteps (s t : State) (core : Nat) : Prop :=
  tends s t core ∧ ∃ u, t.core core = { s.core core with t := u } ∧ portMoves (s.core core).t u

theorem portSteps.refl (s : State) (core : Nat) : portSteps s s core := ⟨.refl s core, _, rfl, .refl _⟩

theorem portSteps.trans {s t u : State} {core : Nat} (h : portSteps s t core) (k : portSteps t u core) : portSteps s u core := by
  obtain ⟨h1, x, hx, h2⟩ := h
  obtain ⟨k1, y, hy, k2⟩ := k
  rw [hx] at hy k2
  exact ⟨h1.trans k1, y, hy, h2.trans k2⟩

theorem portSteps.onTask (s : State) (core : Nat) {f : TaskSt → TaskSt} (h : portMoves (s.core core).t (f (s.core core).t)) :
    portSteps s (s.onTask core f) core :=
  ⟨.onTask s core f, _, State.core_onTask_self s core f, h⟩

/-- What touches no core is a step of every port. -/
theorem portSteps.of_cores {s t : State} {core : Nat} (h : tends s t core) (hc : t.cores = s.cores) : portSteps s t core :=
  ⟨h, _, core_of_cores hc core, .refl _⟩

theorem portSteps.enterPc (s : State) (core id pa : Nat) : portSteps s (s.enterPc core id pa) core := by
  unfold State.enterPc
  dsimp only
  have hup := tends_isUpkeep core
  have hpc (p : Nat) (f : PChan → PChan) : portSteps s ((s.touchPc (dieOf core) p).onPc (dieOf core) p f) core := by
    obtain ⟨h, hc⟩ := hup.trans _ _ _ (hup.touchPc s (dieOf core) p) (hup.onDie _ (dieOf core) _)
    exact .of_cores h hc
  generalize hv : State.onPc _ _ _ _ = v
  have hv : portSteps s v core := hv ▸ hpc _ _
  split
  · exact hv
  · exact hv.trans (.of_cores (.postEv v core _ _) rfl)

theorem portSteps.sendReq (s : State) (core id : Nat) : portSteps s (s.sendReq core id) core := by
  unfold State.sendReq
  split
  · exact portSteps.refl s core
  · have hq := portSteps.onTask s core (f := fun t => t.onReq id (fun r => { r with stage := .queued })) (portMoves.queued (s.core core).t id)
    dsimp only
    split
    · exact hq.trans (.enterPc _ core id _)
    · split <;> exact hq.trans (.of_cores (.postEv _ core _ _) rfl)
    · split <;> exact hq.trans (.of_cores (.postFree _ core _ _) rfl)

theorem portSteps.foldl {α : Type} {core : Nat} (f : State → α → State) (h : ∀ s a, portSteps s (f s a) core) (l : List α) (s : State) :
    portSteps s (l.foldl f s) core := by
  induction l generalizing s with
  | nil => exact .refl s core
  | cons a l ih => exact (h s a).trans (ih _)

theorem portSteps.pumpPort (s : State) (core : Nat) : portSteps s (s.pumpPort core) core := by
  unfold State.pumpPort
  exact (portSteps.onTask s core (f := fun t => { t with port := dropFences [] t.port }) (portMoves.dropFences (s.core core).t)).trans (portSteps.foldl _ (fun s id => .sendReq s core id) _ _)

/-- A request enters the port. -/
theorem State.addReq_keeps (s : State) (core : Nat) (r : MemReq) (hk : r.kind ≠ .fence) :
    tends s (s.addReq core r) core ∧ ∃ po, (s.addReq core r).core core = { s.core core with t := { (s.core core).t with port := po } }
      ∧ ∃ st, { r with grp := (s.core core).t.grp, idx := (s.core core).t.idx, stage := st } ∈ po := by
  have hown : (s.onTask core (fun t => { t with port := t.port ++ [{ r with grp := t.grp, idx := t.idx }] })).core core
      = { s.core core with t := { (s.core core).t with
            port := (s.core core).t.port ++ [{ r with grp := (s.core core).t.grp, idx := (s.core core).t.idx }] } } :=
    State.core_onTask_self s core (fun t => { t with port := t.port ++ [{ r with grp := t.grp, idx := t.idx }] })
  obtain ⟨htend, u, hu, ⟨po, hpo⟩, hmoves⟩ := portSteps.pumpPort
    (s.onTask core (fun t => { t with port := t.port ++ [{ r with grp := t.grp, idx := t.idx }] })) core
  rw [hown] at hu hpo hmoves
  obtain ⟨st, hst⟩ := hmoves { r with grp := (s.core core).t.grp, idx := (s.core core).t.idx }
    (List.mem_append_right _ List.mem_cons_self) hk
  rw [hpo] at hu hst
  exact ⟨(tends.onTask s core _).trans htend, po, hu, st, hst⟩

/-! ### The translation that was looked for (R271) -/

/- As for the views of the machinery, the walk is made opaque before the definition is opened: else the kernel would evaluate it. -/
/-- What a miss of the die's TLB does: the walk is seen, and what it finds is kept. -/
theorem State.fillTlb_cases (s : State) (ctx va acc : Nat) :
    s.fillTlb ctx va acc = s ∨ s.fillTlb ctx va acc = s.walkSeen ctx (va % 2 ^ 57)
      ∨ ∃ e, s.fillTlb ctx va acc = (s.walkSeen ctx (va % 2 ^ 57)).onDie (ctx / 64) (fun d => { d with tlb := tlbAdd 2048 e d.tlb }) := by
  obtain ⟨wk, hwk⟩ : ∃ f, f = @State.walk := ⟨_, rfl⟩
  have h : @State.fillTlb = @State.fillTlb := rfl
  conv_rhs at h => delta State.fillTlb
  rw [h, ← hwk]
  dsimp only
  split
  · exact .inl rfl
  · split
    · exact .inr (.inr ⟨_, rfl⟩)
    · exact .inr (.inl rfl)

theorem tends.fillTlb (s : State) (core ctx va acc : Nat) : tends s (s.fillTlb ctx va acc) core ∧ (s.fillTlb ctx va acc).cores = s.cores := by
  have hup := tends_isUpkeep core
  obtain h | h | ⟨e, h⟩ := s.fillTlb_cases ctx va acc <;> rw [h]
  · exact hup.refl s
  · exact hup.walkSeen s _ _
  · exact hup.trans _ _ _ (hup.walkSeen s _ _) (hup.onDie _ _ _)

theorem State.SameReads.fillTlb (s : State) (ctx va acc : Nat) : s.SameReads (s.fillTlb ctx va acc) := by
  obtain h | h | ⟨e, h⟩ := s.fillTlb_cases ctx va acc <;> rw [h]
  · exact .refl s
  · exact .walkSeen s _ _
  · exact (State.SameReads.walkSeen s _ _).trans (.onDie _ _ _ (fun _ => ⟨rfl, rfl, rfl⟩))

/-- A translation that is found is kept by the core, and the machinery reads what it read before. -/
theorem State.fetchXl_found {s : State} {core va acc : Nat} {e : TlbEnt} (h : s.dieEnt (s.ctxOf core) va acc = .ok e) :
    ∃ v, s.fetchXl core va acc = (.ok e, v) ∧ s.SameReads v ∧ tends s v core ∧ (v.core core).t = (s.core core).t
      ∧ (v.core core).gen = (s.core core).gen := by
  obtain ⟨htend, hcores⟩ := tends.fillTlb s core (s.ctxOf core) va acc
  refine ⟨(s.fillTlb (s.ctxOf core) va acc).onCore core (fun c => { c with tlb := tlbAdd 512 e c.tlb }), ?_,
    (State.SameReads.fillTlb s _ va acc).trans (.onCore _ core _), htend.trans (.onCore _ core _), ?_, ?_⟩
  · unfold State.fetchXl
    simp only [h]
  · rw [State.core_onCore_self, core_of_cores hcores]
  · rw [State.core_onCore_self, core_of_cores hcores]

/-- The walk of a task whose access waits for its translation. -/
theorem walkReturn_eq {s : State} {core : Nat} {u : Unfin} {e : TlbEnt} (hwalk : (s.core core).t.walk = some u) (hu : u.target = none)
    (he : s.dieEnt (s.ctxOf core) u.req.va u.req.ask.acc = .ok e) :
    ∃ v, s.SameReads v ∧ tends s v core ∧ (v.core core).t = (s.core core).t ∧ (v.core core).gen = (s.core core).gen
      ∧ s.walkReturn core = match checkLeaf s (dieOf core) e u.req.va u.req.ask with
        | .error f => v.takeLate core ((s.core core).t.replay.getD {}) u f.code 0 f.word5
        | .ok x => ((v.addReq core (u.req.at e x)).onTask core (fun t => { t with walk := none, replay := none })).issueAt core
            ((s.core core).t.replay.getD {}).npc (max ((v.addReq core (u.req.at e x)).now + 1) (s.core core).t.notBefore) := by
  obtain ⟨v, hfetch, hreads, htend, htask, hgen⟩ := State.fetchXl_found he
  refine ⟨v, hreads, htend, htask, hgen, ?_⟩
  unfold State.walkReturn
  simp only [hwalk, hu, hfetch, hreads.checkLeaf] <;> cases checkLeaf s (dieOf core) e u.req.va u.req.ask <;> rfl

end Sys2Proof.Machine

open Sys2Proof Sys2Proof.Machine

/-- Settles O42: a block and a walk are read through the page as it stands when they arrive. -/
theorem fetchAndWalk : Obligations.FetchAndWalk := by
  intro s core blk e c ctx die needed
  refine ⟨fun hf hw hb he hblock => ⟨fun x hx hbad => ?block, fun f hx => ?noBlock⟩, ?walk⟩
  case block =>
    have hreads := (State.SameReads.onCore s core (fun c => { c with fetching := c.fetching.filter (· != blk) })).trans
      (.scrubRun _ x.tgt 64)
    obtain ⟨htend, hcores⟩ := tends.scrubRun (s.fetchedNow core blk) core x.tgt 64
    have hown : ((s.fetchedNow core blk).scrubRun x.tgt 64).core core = { c with fetching := c.fetching.filter (· != blk) } :=
      (core_of_cores hcores core).trans (State.core_onCore_self s core _)
    have hnow : ((s.fetchedNow core blk).scrubRun x.tgt 64).now = s.now := by
      obtain ⟨⟨_, _, _, _, _, h⟩, -⟩ := htend
      rw [h]
      rfl
    have hexec := blockArrive_eq hf hw hb he
    have hbad : ((s.fetchedNow core blk).scrubRun x.tgt 64).homeBad x.tgt 64 = false := by
      rw [show ((s.fetchedNow core blk).scrubRun x.tgt 64).homeBad = s.homeBad from hreads.homeBad]
      exact hbad
    rw [hx] at hexec
    simp only [hbad, Bool.false_eq_true, if_false] at hexec
    rw [show ((s.fetchedNow core blk).scrubRun x.tgt 64).homeBytes = s.homeBytes from hreads.homeBytes] at hexec
    obtain ⟨hblk, htask, hkeep, hdue⟩ := blockKept ((tends.onCore s core _).trans htend) hnow hown hblock (s.homeBytes ctx x.tgt 64) (c.needs blk)
    exact ⟨_, congrArg Host.Outcome.next hexec, hblk, htask, hkeep, fun hn => hdue ((Core.needs_iff c blk).mpr hn)⟩
  case noBlock =>
    have hexec := blockArrive_eq hf hw hb he
    rw [hx] at hexec
    exact ⟨s.fetchedNow core blk, congrArg Host.Outcome.next hexec, Core.needs_iff c blk,
      s.fetchedNow_task core blk, (tends.onCore s core _).keepsStore⟩
  case walk =>
    intro u hwalk htarget hafter hkind he rp
    have hent : s.dieEnt (s.ctxOf core) u.req.va u.req.ask.acc = .ok e := by
      unfold State.dieEnt
      obtain he | ⟨hnone, he⟩ := he
      · rw [show State.tlbLookup (s.die (s.ctxOf core / 64)).tlb (s.ctxOf core) u.req.va = some e from he]
      · rw [show State.tlbLookup (s.die (s.ctxOf core / 64)).tlb (s.ctxOf core) u.req.va = none from hnone]
        exact he
    obtain ⟨v, hreads, htend, htask, hgen, hexec⟩ := walkReturn_eq hwalk htarget hent
    refine ⟨fun x hx => ?access, fun f hx => ?strike⟩
    case strike =>
      rw [hx] at hexec
      exact ⟨v, congrArg Host.Outcome.next hexec, htend.keepsStore⟩
    case access =>
      rw [hx] at hexec
      dsimp only at hexec
      obtain ⟨hadd, po, hpo, st, hst⟩ := v.addReq_keeps core (u.req.at e x) hkind
      have hwalked := htend.trans hadd
      generalize v.addReq core (u.req.at e x) = w at hexec hpo hwalked
      have hnow : w.now = s.now := by
        obtain ⟨⟨_, _, _, _, _, h⟩, -⟩ := hwalked
        rw [h]
      have hown : (w.onTask core (fun t => { t with walk := none, replay := none })).core core
          = { v.core core with t := { c.t with port := po, walk := none, replay := none } } := by
        rw [State.core_onTask_self, hpo, htask]
      rw [issueAt_goes _ _ (by rw [hown]; exact hafter), hnow, hown, hgen] at hexec
      have hdone := State.core_onTask_self (w.onTask core (fun t => { t with walk := none, replay := none })) core
        (fun t => { t with pc := rp.npc, notBefore := max (s.now + 1) c.t.notBefore })
      rw [hown] at hdone
      have hstate : (s.walkReturn core).core core = _ := (congrArg (fun t : State => t.core core) hexec).trans hdone
      refine ⟨s.walkReturn core, st, rfl, ?_, ?_, ?_, ?_, fun k => ?_, ?_⟩
      · rw [hstate]
        rw [htask] at hst
        exact hst
      · rw [hstate]
      · rw [hstate]
      · rw [hexec]
        refine State.hasPosted_post (s := State.onTask _ core _) (le_max_of_le_left ?_) _
        exact hnow.le.trans (Nat.le_succ s.now)
      · rw [hstate]
        rfl
      · rw [hexec]
        exact ((hwalked.trans ((tends.onTask w core _).trans (.onTask _ core _))).trans (.post _ core _ _)).keepsStore

end

section
/-!
PROOF. The engine sequence (R146 to R149): what a cycle of an engine leaves of its core, the test of a queue's head, and the cycles of a fetch.
-/

namespace Sys2Proof.Machine

/-- Nothing has changed but dies, check bits, what is drawn and posted, and of one core what lies outside its task. -/
def leavesTask (s t : State) (core : Nat) : Prop := tends s t core ∧ (t.core core).t = (s.core core).t

namespace leavesTask

variable {s t u : State} {core : Nat}

theorem refl (s : State) (core : Nat) : leavesTask s s core := ⟨.refl s core, rfl⟩

theorem trans (h : leavesTask s t core) (k : leavesTask t u core) : leavesTask s u core := ⟨h.1.trans k.1, k.2.trans h.2⟩

theorem onCore (s : State) (core : Nat) {f : Core → Core} (hf : (f (s.core core)).t = (s.core core).t) : leavesTask s (s.onCore core f) core :=
  ⟨.onCore s core f, (congrArg Core.t (State.core_onCore_self s core f)).trans hf⟩

theorem post (s : State) (core n : Nat) (a : Act) : leavesTask s (s.post n a) core := ⟨.post s core n a, rfl⟩

theorem foldl {α : Type} (f : State → α → State) (h : ∀ s a, leavesTask s (f s a) core) (l : List α) (s : State) :
    leavesTask s (l.foldl f s) core := by
  induction l generalizing s with
  | nil => exact refl s core
  | cons a l ih => exact (h s a).trans (ih _)

theorem onCtxSt (s : State) (core : Nat) (f : CtxSt → CtxSt) : leavesTask s (s.onCtxSt core f) core := onCore s core rfl

theorem onBuffers (s : State) (core : Nat) (f : Buffer → Buffer) (ks : List Nat) :
    leavesTask s (ks.foldl (fun s k => s.onBuffer core k f) s) core :=
  foldl _ (fun s k => onCtxSt s core (fun c => { c with buf := NMap.set c.buf k (f (NMap.get {} c.buf k)) })) ks s

theorem engFree (s : State) (core : Nat) (c : Cmd) : leavesTask s (s.engFree core c) core := by
  refine trans (foldl _ (fun s qc => ?_) c.busy s) (onBuffers _ core _ c.uses)
  split
  · exact (onCtxSt s core _).trans (post _ core _ _)
  · exact refl s core

theorem padScrub (s : State) (core x n : Nat) : leavesTask s (s.padScrub core x n) core := by
  refine foldl _ (fun s i => ?_) _ s
  dsimp only
  split
  · exact ⟨⟨⟨_, _, _, _, _, rfl⟩, fun _ _ => rfl, fun _ h => h⟩, rfl⟩
  · exact refl s core

theorem takeWait (s : State) (core : Nat) (c : Cmd) : leavesTask s (s.takeWait core c) core := by
  obtain h | ⟨sem, h⟩ := s.takeWait_shape core c <;> rw [h]
  · exact refl s core
  · exact onCtxSt s core _

theorem engine_eq (h : leavesTask s t core) (eng : Nat) : t.engine core eng = s.engine core eng := congrArg (TaskSt.eng · eng) h.2

end leavesTask

theorem tends.now_eq {s t : State} {core : Nat} (h : tends s t core) : t.now = s.now := by
  obtain ⟨⟨_, _, _, _, _, rfl⟩, -⟩ := h
  rfl

theorem tends.ops_eq {s t : State} {core : Nat} (h : tends s t core) : t.ops = s.ops := by
  obtain ⟨⟨_, _, _, _, _, rfl⟩, -⟩ := h
  rfl

theorem tends.mem_eq {s t : State} {core : Nat} (h : tends s t core) : t.mem = s.mem := by
  obtain ⟨⟨_, _, _, _, _, rfl⟩, -⟩ := h
  rfl

theorem tends.updEng (s : State) (core eng : Nat) (f : Engine → Engine) : tends s (s.updEng core eng f) core := .onTask s core _

variable {s : State} {core eng : Nat} {c : Cmd} {rest : List Cmd}

theorem TaskSt.eng_onEng_self (t : TaskSt) (e : Nat) (f : Engine → Engine) : (t.onEng e f).eng e = f (t.eng e) := by
  unfold TaskSt.onEng TaskSt.setEng TaskSt.eng
  split <;> rfl

theorem State.engine_updEng_self (s : State) (core eng : Nat) (f : Engine → Engine) : (s.updEng core eng f).engine core eng = f (s.engine core eng) :=
  (congrArg (fun c : Core => c.t.eng eng) (State.core_onTask_self s core (TaskSt.onEng · eng f))).trans (TaskSt.eng_onEng_self _ eng f)

theorem State.updEng_units (s : State) (core eng : Nat) (f : Engine → Engine) : ((s.updEng core eng f).core core).c = (s.core core).c :=
  (congrArg Core.c (State.core_onTask_self s core (TaskSt.onEng · eng f)) :)

/-- A command of the sequence that is replaced stands there as given. -/
theorem Engine.mem_upd {e : Engine} (hc : c ∈ e.running) {d : Cmd} (hd : d.serial = c.serial) : d ∈ (e.upd d).running :=
  List.mem_map.mpr ⟨c, hc, if_pos hd.symm⟩

/-! ### The head of an engine's queue (R71, R146, R194) -/

/-- No operation of a command is SAVED. -/
theorem opSaved_iff (s : State) (c : Cmd) : ((c.op.bind s.op?).map (fun o => o.st == .saved)).getD false = true
    ↔ ¬ ∀ j x, c.op = some j → s.op? j = some x → x.st ≠ .saved := by
  cases hop : c.op with
  | none => simp
  | some j => cases hx : s.op? j <;> simp [hx]

theorem matHead_waits (hq : (s.engine core eng).q = c :: rest) (hh : c.h = 0)
    (hw : s.now ≤ c.t ∨ s.waitOk core c = false ∨ ¬ ∀ j x, c.op = some j → s.op? j = some x → x.st ≠ .saved) :
    s.matHead core eng = s.postHead core eng (s.now + 1) := by
  unfold State.matHead
  simp only [hq]
  rw [if_neg (by simp [hh]), if_pos]
  rw [opSaved_iff, Bool.not_eq_true']
  tauto

theorem matHead_passes (hq : (s.engine core eng).q = c :: rest) (hh : c.h = 0) (ht : c.t < s.now) (hw : s.waitOk core c = true)
    (hs : ∀ j x, c.op = some j → s.op? j = some x → x.st ≠ .saved) :
    s.matHead core eng = ((s.takeWait core c).updEng core eng (fun e => { e with q := { c with h := s.now } :: rest })).postEv s.now
      (.evMatrixFetchStart core eng) := by
  unfold State.matHead
  simp only [hq]
  rw [if_neg (by simp [hh]), if_neg]
  rw [opSaved_iff, Bool.not_eq_true', hw]
  rintro (h | h | h)
  · exact absurd h (Nat.not_le.mpr ht)
  · exact h hs
  · cases h

/-! ### What the checks of a fetch depend on (R161) -/

/-- The checks of a command see nothing of its core but its context's state. -/
theorem matFault_of_units {s t : State} (h : (t.core core).c = (s.core core).c) (c : Cmd) : t.matFault core c = s.matFault core c := by
  have hqueue : t.queue core = s.queue core := by funext q; unfold State.queue; rw [h]
  have hbufs : t.buffersOf core = s.buffersOf core := by funext x n; unfold State.buffersOf; rw [h]
  have himg : t.imgSrc core = s.imgSrc core := by funext v ch; unfold State.imgSrc; rw [hqueue]
  have hregion : t.mmaRegion core = s.mmaRegion core := by funext c p i; unfold State.mmaRegion State.mmaSrc; rw [himg]
  have hrows : t.cmdRows core = s.cmdRows core := by funext c; unfold State.cmdRows; rw [himg]
  have hregions : t.matRegions core c = s.matRegions core c := by unfold State.matRegions; rw [hregion, hrows]
  have hfirst : t.bufFirst core = s.bufFirst core := by funext x ok; unfold State.bufFirst; rw [hbufs]
  unfold State.matFault
  rw [hregions, hfirst, hqueue]

/-! ### One cycle of a fetch (R146, R148, R168) -/

theorem serveLines_one (free : Nat → Bool) (l : Nat) : serveLines free [] [l] = if free l then ([l], []) else ([], [l]) := by
  simp only [serveLines, List.contains_nil, Bool.not_false, Bool.true_and]

/-- What a command still holds of what it read, once its fetch has ended, and what it gives back. -/
def Cmd.fetched (c : Cmd) : Cmd := if isMma c.ins then { c with busy := [], uses := [] } else { c with busy := [] }
def Cmd.givesBack (c : Cmd) : Cmd := if isMma c.ins then c else { c with uses := [] }

theorem Cmd.fetched_keeps (c : Cmd) : c.fetched.serial = c.serial ∧ c.fetched.fs = c.fs ∧ c.fetched.c = c.c := by
  unfold Cmd.fetched
  split <;> exact ⟨rfl, rfl, rfl⟩

theorem matFetched_eq (hcode : c.code = 0) (hbad : c.bad = none) : s.matFetched core eng c
    = ((s.engFree core c.givesBack).updEng core eng (fun e => e.upd c.fetched)).postEv (s.engFree core c.givesBack).now
        (.evMatrixArrayStart core eng) := by
  unfold State.matFetched
  rw [if_neg (not_not.mpr hcode)]
  split
  · next a h => exact nomatch hbad.symm.trans h
  · rfl

/-- What a cycle of an engine leaves that works on the last command of its sequence. -/
def seqWorks (s t : State) (core eng : Nat) (c : Cmd) : Prop :=
  tends s t core ∧ (t.engine core eng).q = (s.engine core eng).q
    ∧ ∃ d ∈ (t.engine core eng).running, d.serial = c.serial ∧ d.fs = c.fs ∧ d.c = c.c

/-- A command of the sequence is replaced, and with it figures of its engine, between steps that leave the task alone. -/
theorem seqWorks.of_updEng {v w : State} {f : Engine → Engine} {d : Cmd} (hv : leavesTask s v core) (hw : leavesTask (v.updEng core eng f) w core)
    (hf : ∀ e, (f e).q = e.q ∧ (f e).running = (e.upd d).running) (hc : ∃ x ∈ (s.engine core eng).running, x.serial = c.serial)
    (hd : d.serial = c.serial ∧ d.fs = c.fs ∧ d.c = c.c) : seqWorks s w core eng c := by
  obtain ⟨x, hx, hserial⟩ := hc
  have heng : w.engine core eng = f (s.engine core eng) := by
    rw [hw.engine_eq, State.engine_updEng_self, hv.engine_eq]
  refine ⟨hv.1.trans ((tends.updEng v core eng f).trans hw.1), ?_, ?_⟩
  · rw [heng, (hf _).1]
  · rw [heng, (hf _).2]
    exact ⟨d, Engine.mem_upd hx (hd.1.trans hserial.symm), hd⟩

/-- The rest of a fetch whose lines have all come and are correct: slots and buffers read are given back. -/
theorem matFetched_works (hcode : c.code = 0) (hbad : c.bad = none) (hc : ∃ x ∈ (s.engine core eng).running, x.serial = c.serial) :
    seqWorks s (s.matFetched core eng c) core eng c := by
  rw [matFetched_eq hcode hbad]
  exact .of_updEng (f := fun e => e.upd c.fetched) (.engFree s core c.givesBack) (.post _ core _ _) (fun _ => ⟨rfl, rfl⟩) hc c.fetched_keeps

/-- What a cycle of a fetch does to the command, and the lines it serves: one of each bank that is free, none that an older drain is still to
write. -/
def Engine.blocks (e : Engine) (c : Cmd) (l : Nat) : Bool := e.running.any (fun o => o.serial != c.serial && o.outs.any (fun x => x.1 == l))
def State.served (s : State) (core eng : Nat) (c : Cmd) : List Nat × List Nat :=
  serveLines (fun l => s.engBank core (l / 2 ^ 14) && !(s.engine core eng).blocks c l) [] c.lines
def State.fetchedLines (s : State) (core eng : Nat) (c : Cmd) : Cmd :=
  { c with lines := (s.served core eng c).2, bad := c.bad.orElse (fun _ => (s.served core eng c).1.find? (fun l => s.padBad core l 64)),
           got := c.got ++ (s.served core eng c).1.map (fun l => (l, s.fetchLine core l)) }

/-- The engine takes its banks, and the lines it reads are scrubbed. -/
def State.engReads (s : State) (core : Nat) (ls : List Nat) : State :=
  { ls.foldl (fun s l => s.padScrub core l 64) (s.takeEng core ls) with free := s.free + 2 ^ 18 }

theorem leavesTask.engReads (s : State) (core : Nat) (ls : List Nat) : leavesTask s (s.engReads core ls) core := by
  have h : leavesTask s (ls.foldl (fun s l => s.padScrub core l 64) (s.takeEng core ls)) core :=
    (leavesTask.onCore s core (f := fun c => { c with engUse := ls.map (fun l => (l / 2 ^ 14, s.now)) ++ c.engUse.filter (fun e => e.2 == s.now) }) rfl).trans
      (foldl _ (fun s l => padScrub s core l 64) ls _)
  exact h.trans ⟨⟨⟨_, _, _, _, _, rfl⟩, fun _ _ => rfl, fun _ h => h⟩, rfl⟩

/-- The command, and its engine, once its lines have come: with none left its fetch ends in the next cycle. -/
def Cmd.fetchEnds (c : Cmd) (now : Nat) : Cmd := if c.lines.isEmpty then { c with fe := now + 1 } else c
def Engine.fetchStep (e : Engine) (c : Cmd) (now : Nat) : Engine :=
  { e.upd (c.fetchEnds now) with lastFe := if c.lines.isEmpty then now + 1 else e.lastFe }

theorem Cmd.fetchEnds_keeps (c : Cmd) (now : Nat) :
    (c.fetchEnds now).serial = c.serial ∧ (c.fetchEnds now).fs = c.fs ∧ (c.fetchEnds now).c = c.c := by
  unfold Cmd.fetchEnds
  split <;> exact ⟨rfl, rfl, rfl⟩

theorem matFetchStep_serves (hl : (s.engine core eng).running.getLast? = some c) (hfe : c.fe = 0) (hlines : c.lines ≠ []) :
    s.matFetchStep core eng = ((s.engReads core (s.served core eng c).1).updEng core eng
      (fun e => e.fetchStep (s.fetchedLines core eng c) s.now)).postEv (s.now + 1) (.evMatrixFetchEnd core eng) := by
  have hnow := (leavesTask.engReads s core (s.served core eng c).1).1.now_eq
  unfold State.matFetchStep
  simp only [hl]
  rw [if_neg (not_not.mpr hfe), if_neg (by simp [hlines])]
  generalize hv : s.engReads core (s.served core eng c).1 = v at hnow
  generalize hd : s.fetchedLines core eng c = d
  have hstep : (if d.lines.isEmpty then v.updEng core eng (fun e => { (e.upd { d with fe := v.now + 1 }) with lastFe := v.now + 1 })
      else v.updEng core eng (fun e => e.upd d)) = v.updEng core eng (fun e => e.fetchStep d s.now) := by
    rw [hnow]
    unfold Engine.fetchStep Cmd.fetchEnds
    cases d.lines.isEmpty <;> rfl
  subst hv hd
  exact (congrArg (fun t : State => t.postEv (t.now + 1) (.evMatrixFetchEnd core eng)) hstep).trans
    (congrArg (fun n => State.postEv _ (n + 1) (.evMatrixFetchEnd core eng)) hnow)

theorem seqWorks.refl (hc : c ∈ (s.engine core eng).running) : seqWorks s s core eng c := ⟨.refl s core, rfl, c, hc, rfl, rfl, rfl⟩

theorem matFetchStep_works (hl : (s.engine core eng).running.getLast? = some c) (hcode : c.code = 0) (hbad : c.bad = none) :
    seqWorks s (s.matFetchStep core eng) core eng c := by
  have hc : ∃ x ∈ (s.engine core eng).running, x.serial = c.serial := ⟨c, List.mem_of_getLast? hl, rfl⟩
  by_cases hfe : c.fe = 0
  · by_cases hlines : c.lines = []
    · have heq : s.matFetchStep core eng
          = (s.updEng core eng (fun e => { (e.upd { c with fe := s.now }) with lastFe := s.now })).matFetched core eng { c with fe := s.now } := by
        unfold State.matFetchStep
        simp only [hl]
        rw [if_neg (not_not.mpr hfe), if_pos (by simp [hlines])]
      have hdone : seqWorks s (s.updEng core eng (fun e => { (e.upd { c with fe := s.now }) with lastFe := s.now })) core eng c :=
        .of_updEng (.refl s core) (.refl _ core) (fun _ => ⟨rfl, rfl⟩) hc ⟨rfl, rfl, rfl⟩
      obtain ⟨ht, hq, d, hd, hserial, -⟩ := hdone
      obtain ⟨kt, kq, x, hx⟩ := matFetched_works (c := { c with fe := s.now }) hcode hbad ⟨d, hd, hserial⟩
      rw [heq]
      exact ⟨ht.trans kt, kq.trans hq, x, hx⟩
    · rw [matFetchStep_serves hl hfe hlines]
      exact .of_updEng (leavesTask.engReads s core _) (.post _ core _ _) (fun _ => ⟨rfl, rfl⟩) hc (Cmd.fetchEnds_keeps _ _)
  · have heq : s.matFetchStep core eng = if c.fe ≤ s.now then s.matFetched core eng c else s := by
      unfold State.matFetchStep
      simp only [hl]
      exact if_pos hfe
    rw [heq]
    split
    · exact matFetched_works hcode hbad hc
    · exact .refl (List.mem_of_getLast? hl)

/-! ### The start of a fetch (R146, R161, R194) -/

/-- The state in which the check of a fetch finds the package: the operation STARTED, the command out of its queue, the next head due. -/
def State.fetchBegun (s : State) (core eng k : Nat) (rest : List Cmd) : State :=
  ((s.onOp k (fun o => { o with st := .started })).updEng core eng (fun e => { e with q := rest })).postEv s.now (.evMatrixHead core eng)

/-- A command whose fetch has begun, and what the check has told of it. -/
def Cmd.fetching (c : Cmd) (now : Nat) : Cmd := { c with fs := now, c := matCycles c.ins }
def State.checkedCmd (s : State) (core : Nat) (c : Cmd) : Cmd :=
  { c with lines := s.matReads core c, uses := s.matBuffers core c, outs := (s.matWrites core c).map (fun l => (l, [])) }

theorem matFetchStart_eq {k : Nat} {o : Op} (hq : (s.engine core eng).q = c :: rest) (hh : c.h ≠ 0)
    (hready : (s.engine core eng).fetchReady s.now = true) (hop : c.op = some k) (ho : s.op? k = some o) (hst : o.st ≠ .saved)
    (hfault : (s.fetchBegun core eng k rest).matFault core (c.fetching s.now) = none) {v : State} (hv : s.fetchBegun core eng k rest = v) :
    s.matFetchStart core eng = ((v.useBuffers core (v.matBuffers core (c.fetching s.now))).updEng core eng
      (fun e => { e with running := e.running ++ [v.checkedCmd core (c.fetching s.now)] })).matFetchStep core eng := by
  have hsaved : ((c.op.bind s.op?).map (fun o => o.st == .saved)).getD false = false := by simp [hop, ho, hst]
  have hbegun : ((s.onOp k (fun o => { o with st := .started })).updEng core eng (fun e => { e with q := rest })).postEv
      (s.onOp k (fun o => { o with st := .started })).now (.evMatrixHead core eng) = s.fetchBegun core eng k rest := by
    rw [State.onOp_now]
    rfl
  unfold State.matFetchStart
  simp only [hq, hready, hsaved]
  rw [if_neg hh, if_neg (by simp)]
  simp only [show c.op.getD 0 = k by rw [hop]; rfl]
  split
  · next h => exact nomatch hfault.symm.trans ((congrArg (State.matFault · core (c.fetching s.now)) hbegun).symm.trans h)
  · subst hv
    rw [← hbegun]
    rfl

/-- A fetch whose check finds nothing starts: the operation is STARTED, the command is the last of the sequence. -/
theorem matFetchStart_starts {k : Nat} {o : Op} (hq : (s.engine core eng).q = c :: rest) (hh : c.h ≠ 0)
    (hready : (s.engine core eng).fetchReady s.now = true) (hop : c.op = some k) (ho : s.op? k = some o) (hcode : c.code = 0) (hbad : c.bad = none)
    (hst : o.st ≠ .saved) (hfault : s.matFault core (c.fetching s.now) = none) :
    tends (s.onOp k (fun o => { o with st := .started })) (s.matFetchStart core eng) core
      ∧ ((s.matFetchStart core eng).engine core eng).q = rest
      ∧ (∃ d ∈ ((s.matFetchStart core eng).engine core eng).running, d.serial = c.serial ∧ d.fs = s.now ∧ d.c = matCycles c.ins)
      ∧ (s.matFetchStart core eng).hasPosted s.now (.ev (.evMatrixHead core eng)) := by
  have hcore := core_of_cores (s.onOp_cores k (fun o => { o with st := .started }))
  have hunits : ((s.fetchBegun core eng k rest).core core).c = (s.core core).c :=
    (State.updEng_units _ core eng _).trans (congrArg Core.c (hcore core))
  have hbegun : tends (s.onOp k (fun o => { o with st := .started })) (s.fetchBegun core eng k rest) core :=
    (tends.updEng _ core eng _).trans (.postEv _ core _ _)
  have heng : (s.fetchBegun core eng k rest).engine core eng = { s.engine core eng with q := rest } :=
    (State.engine_updEng_self _ core eng _).trans (congrArg (fun x : Core => { x.t.eng eng with q := rest }) (hcore core))
  have hposted : (s.fetchBegun core eng k rest).hasPosted s.now (.ev (.evMatrixHead core eng)) :=
    State.hasPosted_post (s := State.updEng _ core eng _) (s.onOp_now k _).le _
  have heq := matFetchStart_eq hq hh hready hop ho hst ((matFault_of_units hunits _).trans hfault) rfl
  generalize s.fetchBegun core eng k rest = v at heq hbegun heng hposted
  generalize hd : v.checkedCmd core (c.fetching s.now) = d at heq
  have hkeep : d.serial = c.serial ∧ d.fs = s.now ∧ d.c = matCycles c.ins ∧ d.code = c.code ∧ d.bad = c.bad := hd ▸ ⟨rfl, rfl, rfl, rfl, rfl⟩
  clear hd
  obtain ⟨hserial, hfs, hcyc, hcode', hbad'⟩ := hkeep
  have huse := leavesTask.onBuffers v core (fun b => { b with use := b.use + 1 }) (v.matBuffers core (c.fetching s.now))
  change leavesTask v (v.useBuffers core (v.matBuffers core (c.fetching s.now))) core at huse
  have hlast := (State.engine_updEng_self (v.useBuffers core (v.matBuffers core (c.fetching s.now))) core eng
    (fun e => { e with running := e.running ++ [d] })).trans (by rw [huse.engine_eq, heng])
  obtain ⟨ht, hq', x, hx, hxs, hxf, hxc⟩ := matFetchStep_works (c := d) (by rw [hlast]; exact List.getLast?_concat) (hcode'.trans hcode) (hbad'.trans hbad)
  have hall := huse.1.trans ((tends.updEng _ core eng _).trans ht)
  rw [heq]
  refine ⟨hbegun.trans hall, ?_, ⟨x, hx, hxs.trans hserial, hxf.trans hfs, hxc.trans hcyc⟩, ?_⟩
  · rw [hq', hlast]
  · exact hall.2.2 _ hposted

/-! ### A line that is fetched (R148) -/

theorem Memory.readN_length (m : Memory) (a n : Nat) : (m.readN a n).length = n := by
  unfold Memory.readN
  generalize m.dropWhile _ = m
  induction n generalizing a m with
  | zero => rfl
  | succ n ih =>
    obtain - | ⟨⟨k, v⟩, m⟩ := m
    · exact congrArg Nat.succ (ih _ _)
    · unfold Memory.collect
      split <;> exact congrArg Nat.succ (ih _ _)

theorem seenByte_shown {hide : BayStore → Bool} {l : List BayStore} (h : ∀ e ∈ l, hide e = false) (x : Nat) (b : Byte) :
    seenByte hide x l b = b := by
  induction l with
  | nil => rfl
  | cons e l ih =>
    simp only [seenByte, h e List.mem_cons_self, ih (fun e he => h e (List.mem_cons_of_mem _ he))]
    cases e.at? x <;> rfl

/-- An agent from which no store is hidden reads scratchpad. -/
theorem padSeen_shown {hide : BayStore → Bool} (h : ∀ e ∈ (s.core core).recent, hide e = false) (x n : Nat) :
    s.padSeen core x n hide = s.padBytes core x n := by
  unfold State.padSeen
  dsimp only
  split
  · rfl
  · simp only [seenByte_shown (fun e he => h e (List.mem_reverse.mp he))]
    exact List.map_snd_zip (by simp [State.padBytes, Memory.readN_length])

theorem fetchLine_settled (h : ∀ b ∈ (s.core core).recent, b.cyc + 4 ≤ s.now) (l : Nat) :
    s.fetchLine core l = s.mem.readN (Addr.pad core l) 64 :=
  padSeen_shown (fun e he => by
    have hold := h e he
    simp [show e.cyc ≠ s.now by omega, Nat.not_lt.mpr hold]) l 64

/-- A fetch of one line that its bank serves. -/
theorem served_one {l : Nat} (hlines : c.lines = [l]) (hbank : s.engBank core (l / 2 ^ 14) = true)
    (hfree : ∀ d ∈ (s.engine core eng).running, d.serial ≠ c.serial → ∀ x ∈ d.outs, x.1 ≠ l) : s.served core eng c = ([l], []) := by
  have hblocks : (s.engine core eng).blocks c l = false := by
    simp only [Engine.blocks, List.any_eq_false, Bool.and_eq_true, bne_iff_ne, ne_eq, List.any_eq_true, beq_iff_eq]
    rintro d hd ⟨hne, x, hx, rfl⟩
    exact hfree d hd hne x hx rfl
  unfold State.served
  rw [hlines, serveLines_one, hbank, hblocks]
  rfl

end Sys2Proof.Machine
end

section
/-!
PROOF. The array phase of a command and the lines of a drain (R146, R147, R155, R157).
-/

namespace Sys2Proof.Machine

variable {s : State} {core eng : Nat} {c : Cmd}

/-! ### Tiles set to zero (R155) -/

/-- What a map holds once entries have gone by their keys. -/
theorem NMap.find_filter_keys {α : Type} (p : Nat → Bool) (m : NMap α) (k : Nat) :
    NMap.find (m.filter (fun e => p e.1)) k = if p k then NMap.find m k else none := by
  induction m with
  | nil => simp [NMap.find]
  | cons e m ih =>
    obtain ⟨j, v⟩ := e
    by_cases hj : j = k
    · subst hj
      by_cases hp : p j = true
      · simp [hp, NMap.find]
      · simp [hp, ih]
    · by_cases hp : p j = true
      · simp [hp, NMap.find, hj, ih]
      · simp [hp, NMap.find, hj, ih]

theorem accGet_zeroTile (o : ArrayOut) (a i : Nat) {x y : Nat} (hx : x < 16) (hy : y < 16) :
    accGet (zeroTile o a).acc i x y = if i = a then 0 else accGet o.acc i x y := by
  have hkey : accKey i x y / 256 = i := by
    unfold accKey
    omega
  have hfind := NMap.find_filter_keys (fun k => k / 256 != a) o.acc (accKey i x y)
  rw [hkey] at hfind
  unfold accGet zeroTile
  rw [NMap.get_eq_find, hfind, NMap.get_eq_find]
  by_cases hi : i = a <;> simp [hi]

theorem accGet_zeroTiles (l : List Nat) (o : ArrayOut) (i : Nat) {x y : Nat} (hx : x < 16) (hy : y < 16) :
    accGet (l.foldl zeroTile o).acc i x y = if i ∈ l then 0 else accGet o.acc i x y := by
  induction l generalizing o with
  | nil => simp
  | cons a l ih =>
    rw [List.foldl_cons, ih, accGet_zeroTile o a i hx hy]
    by_cases hl : i ∈ l
    · simp [hl]
    · by_cases ha : i = a <;> simp [ha, hl]

/-! ### The array phase begins (R146, R147) -/

/-- A command whose array phase has begun, and its engine then. -/
def Cmd.inArray (c : Cmd) (now dn : Nat) (r : ArrayOut) : Cmd :=
  { c with s := now, dn := dn, flags := r.flags, code := r.code, detail := r.detail, outs := r.outs, outPoison := r.outPoison, got := [] }
def Engine.inArray (e : Engine) (c : Cmd) (now dn : Nat) (r : ArrayOut) : Engine :=
  { e.upd (c.inArray now dn r) with acc := r.acc, poison := r.poison, parity := r.parity, lastS := now, lastC := c.c }

/-- The done cycle of a command as its array phase begins: a drain's is not known yet, unless it writes nothing. -/
def Cmd.doneFrom (c : Cmd) (now : Nat) (r : ArrayOut) : Nat :=
  let drain := match c.ins with
    | .mdrain _ _ _ _ _ _ _ _ _ _ => true
    | _ => false
  if drain then (if r.outs.isEmpty && c.res.isNone then now + 7 else 0) else now + c.c + 6

/-- What then falls due: the command's end, or the first line of its drain. -/
def State.postDone (s : State) (core k dn now : Nat) : State :=
  if dn = 0 then s.postEv (now + 6) (.evMdrainLineWrite core k 0) else s.postEv dn (.evOpComplete k)

theorem State.postDone_now (s : State) (core k dn now : Nat) : (s.postDone core k dn now).now = s.now := by
  unfold State.postDone
  split <;> rfl

theorem matArrayStart_eq {n : Nat} (hf : (s.engine core eng).running.find? (fun d => d.s == 0) = some c)
    (hs : (s.engine core eng).startOf c = some n) (hn : n ≤ s.now) (hc : c.c ≠ 0) {r : ArrayOut} (hr : s.arrayOut core c (s.engine core eng) = r) :
    s.matArrayStart core eng = ((s.updEng core eng (fun e => e.inArray c s.now (c.doneFrom s.now r) r)).postDone core (c.op.getD 0)
      (c.doneFrom s.now r) s.now).postEv s.now (.evMatrixArrayStart core eng) := by
  have hmax : max n s.now = s.now := Nat.max_eq_right hn
  subst hr
  unfold State.matArrayStart
  simp only [hf, hs]
  rw [if_neg (Nat.not_lt.mpr hn), if_neg hc]
  simp only [hmax]
  exact congrArg (fun n => State.postEv (State.postDone _ core (c.op.getD 0) (c.doneFrom s.now _) s.now) n (.evMatrixArrayStart core eng))
    (State.postDone_now (s.updEng core eng (fun e => e.inArray c s.now (c.doneFrom s.now _) _)) core _ _ s.now)

theorem tends.postDone (s : State) (core k dn now : Nat) : tends s (s.postDone core k dn now) core := by
  unfold State.postDone
  split <;> exact .postEv s core _ _

theorem State.postDone_core (s : State) (core k dn now n : Nat) : (s.postDone core k dn now).core n = s.core n := by
  unfold State.postDone
  split <;> rfl

/-- What the start of an array phase leaves. -/
theorem matArrayStart_begins {n : Nat} (hf : (s.engine core eng).running.find? (fun d => d.s == 0) = some c)
    (hs : (s.engine core eng).startOf c = some n) (hn : n ≤ s.now) (hc : c.c ≠ 0) {r : ArrayOut} (hr : s.arrayOut core c (s.engine core eng) = r) :
    tends s (s.matArrayStart core eng) core
      ∧ (s.matArrayStart core eng).engine core eng = (s.engine core eng).inArray c s.now (c.doneFrom s.now r) r
      ∧ (c.doneFrom s.now r ≠ 0 → s.now ≤ c.doneFrom s.now r →
        (s.matArrayStart core eng).hasPosted (c.doneFrom s.now r) (.ev (.evOpComplete (c.op.getD 0)))) := by
  rw [matArrayStart_eq hf hs hn hc hr]
  have hupd := tends.updEng s core eng (fun e => e.inArray c s.now (c.doneFrom s.now r) r)
  have heng := State.engine_updEng_self s core eng (fun e => e.inArray c s.now (c.doneFrom s.now r) r)
  have hnow := hupd.now_eq
  generalize s.updEng core eng (fun e => e.inArray c s.now (c.doneFrom s.now r) r) = v at hupd heng hnow
  refine ⟨hupd.trans ((tends.postDone v core _ _ _).trans (.postEv _ core _ _)), ?_, fun h0 hle => ?_⟩
  · exact (congrArg (fun x : Core => x.t.eng eng) (v.postDone_core core _ _ s.now core)).trans heng
  · refine State.hasPosted_post_of ?_
    unfold State.postDone
    rw [if_neg h0]
    exact State.hasPosted_post (hnow.le.trans hle) _

/-- The array phase of `MZERO` (R155). -/
theorem doneFrom_mzero {h : CmdHdr} {b : Bool} {m : BitVec 32} (hi : c.ins = .mzero h b m) (now : Nat) (r : ArrayOut) :
    c.doneFrom now r = now + c.c + 6 := by
  unfold Cmd.doneFrom
  rw [hi]
  rfl

theorem arrayOut_mzero {h : CmdHdr} {b : Bool} {m : BitVec 32} (hi : c.ins = .mzero h b m) (e : Engine) (i : Nat) {x y : Nat} (hx : x < 16)
    (hy : y < 16) : accGet (s.arrayOut core c e).acc i x y = if i < 32 ∧ m.getLsbD i = true then 0 else accGet e.acc i x y := by
  unfold State.arrayOut
  simp only [hi]
  rw [accGet_zeroTiles _ _ _ hx hy]
  simp only [List.mem_filter, List.mem_range]

/-! ### A line of a drain (R157) -/

/-- Under a mask of all ones a line's bytes are those that are written. -/
theorem mergeMask_whole (old : List Byte) {new : List (Byte × Byte)} (hlen : new.length = 64) (hm : ∀ b ∈ new, b.1 = 255) :
    mergeMask old new = (new.map Prod.snd).map some := by
  refine List.ext_getElem (by simp [mergeMask, hlen]) (fun i hi _ => ?_)
  have hi : i < new.length := by simpa [mergeMask, hlen] using hi
  simp only [mergeMask, List.getElem_map, List.getElem_range, List.getD_eq_getElem _ _ hi, hm _ (List.getElem_mem hi)]
  rw [if_neg (by decide), show (255 : Byte) = BitVec.allOnes 8 by decide, BitVec.not_allOnes, BitVec.and_zero, BitVec.zero_or, BitVec.and_allOnes]

/-- Where every store has taken its bank nothing is written beneath one. -/
theorem beneath_landed {now : Nat} {l : List BayStore} (h : ∀ e ∈ l, e.at_ ≤ now) (x : Nat) (bs : List (Option Byte)) : beneath now l x bs = bs := by
  induction bs generalizing x with
  | nil => rfl
  | cons b bs ih =>
    have hnone : l.any (fun e => decide (now < e.at_) && (e.at? x).isSome) = false :=
      List.any_eq_false.mpr (fun e he => by simp [Nat.not_lt.mpr (h e he)])
    rw [beneath, hnone, ih]
    rfl

theorem padWriteBits_whole {l : Nat} {new : List (Byte × Byte)} (r : RecInfo) (hlen : new.length = 64) (hm : ∀ b ∈ new, b.1 = 255)
    (hland : ∀ e ∈ (s.core core).recent, e.at_ ≤ s.now) :
    s.padWriteBits core l new r = (s.passStores core l ((new.map Prod.snd).map some)).padPut core l (new.map Prod.snd) r := by
  unfold State.padWriteBits
  simp only [mergeMask_whole _ hlen hm, beneath_landed hland]
  exact if_pos (List.all_eq_true.mpr (fun b hb => beq_iff_eq.mpr (hm b hb)))

/-- What a notice of a drain's write tells of its command. -/
def State.drainInfo (s : State) (core : Nat) (c : Cmd) : RecInfo :=
  { grp := c.grp % 2 ^ 32, task := c.idx, coord := coordWord core, bundle := c.bundle, unit := c.ins.unitCode,
    opid := ((c.op.map (fun k => (opIdent k (s.op k).gen).toNat))).getD 0 }

theorem drainLine_eq (hres : c.res = none) (hpoison : c.outPoison = []) (s : State) (core l : Nat) (bs : List (Byte × Byte)) (last : Bool) :
    s.drainLine core c l bs last = s.padWriteBits core l bs (s.drainInfo core c) := by
  unfold State.drainLine
  simp only [hres, hpoison]
  rfl

theorem drainStep_line {k l : Nat} {bs : List (Byte × Byte)} (heng : ((s.op k).cmd.ins).cmdUnit = eng)
    (hf : (s.engine core eng).running.find? (fun d => d.op == some k) = some c) (hres : c.res = none) (houts : c.outs = [(l, bs)])
    (hpoison : c.outPoison = []) (hbank : s.engBank core (l / 2 ^ 14) = true)
    (hother : ∀ d ∈ (s.engine core eng).running, d.serial ≠ c.serial → d.outs = []) {v : State}
    (hv : (s.takeEng core [l]).padWriteBits core l bs ((s.takeEng core [l]).drainInfo core c) = v) :
    s.drainStep core k = (v.updEng core eng (fun e => e.upd { c with outs := [], dn := v.now + 1 })).postEv (v.now + 1) (.evOpComplete k) := by
  have holder : (((s.engine core eng).running.takeWhile (fun o => o.serial != c.serial)).filter (fun o => !s.sends core o)).flatMap
      (fun o => o.outs.map (fun x => x.1 / 2 ^ 14)) = [] := by
    refine List.flatMap_eq_nil_iff.mpr (fun d hd => ?_)
    have hd := (List.mem_filter.mp hd).1
    rw [hother d ((List.takeWhile_sublist _).subset hd) (by simpa using List.mem_takeWhile_imp hd)]
    rfl
  have hsend : s.sends core c = false := by
    unfold State.sends
    rw [hres]
  have hline (last : Bool) := drainLine_eq hres hpoison (s.takeEng core [l]) core l bs last
  rw [hv] at hline
  subst heng
  unfold State.drainStep
  have hserve : serveLines (fun l => false || (s.engBank core (l / 2 ^ 14) && !([] : List Nat).contains (l / 2 ^ 14))) [] [l] = ([l], []) := by
    rw [serveLines_one, hbank]
    rfl
  have hleft : [(l, bs)].filter (fun x => !([l] : List Nat).contains x.1) = [] := by simp
  have hbytes : (([(l, bs)].find? (fun x => x.1 == l)).map Prod.snd).getD [] = bs := by simp
  simp only [hf, hsend, holder, houts, List.map_cons, List.map_nil, hserve, hleft, List.foldl_cons, List.foldl_nil, hbytes]
  have hstart : State.drainLine (if false = true then s else s.takeEng core (([l] ++ []).map id)) core c l bs
      (([] : List (Nat × List (Byte × Byte))).isEmpty && some l == [l].getLast?) = v := hline _
  rw [hstart]
  rfl

/-- A whole line written where every store has taken its bank. -/
theorem padWriteBits_line {l : Nat} {new : List (Byte × Byte)} (r : RecInfo) (hlen : new.length = 64) (hm : ∀ b ∈ new, b.1 = 255) (hl : l % 64 = 0)
    (hland : ∀ e ∈ (s.core core).recent, e.at_ ≤ s.now) :
    (s.padWriteBits core l new r).mem = s.mem.writeWords (Addr.pad core l) 8 (new.map Prod.snd)
      ∧ (s.padWriteBits core l new r).now = s.now ∧ ∀ n, ((s.padWriteBits core l new r).core n).t = (s.core n).t := by
  have hbytes : (new.map Prod.snd).length = 64 * 1 := by rw [List.length_map, hlen]
  rw [padWriteBits_whole r hlen hm hland]
  obtain ⟨po, hput, -⟩ := padPut_lines (s.passStores core l ((new.map Prod.snd).map some)) core r hl hbytes
  rw [hput, hbytes, passStores_mem]
  exact ⟨rfl, passStores_now s core l _, passStores_task s core l _⟩

/-- What the last line of a drain into scratchpad leaves. -/
theorem drainStep_writes {k l : Nat} {bs : List (Byte × Byte)} (heng : ((s.op k).cmd.ins).cmdUnit = eng)
    (hf : (s.engine core eng).running.find? (fun d => d.op == some k) = some c) (hres : c.res = none) (houts : c.outs = [(l, bs)])
    (hlen : bs.length = 64) (hm : ∀ b ∈ bs, b.1 = 255) (hl : l % 64 = 0)
    (hpoison : c.outPoison = []) (hbank : s.engBank core (l / 2 ^ 14) = true)
    (hother : ∀ d ∈ (s.engine core eng).running, d.serial ≠ c.serial → d.outs = []) (hland : ∀ e ∈ (s.core core).recent, e.at_ ≤ s.now) :
    (s.drainStep core k).hasPosted (s.now + 1) (.ev (.evOpComplete k))
      ∧ (s.drainStep core k).engine core eng = (s.engine core eng).upd { c with outs := [], dn := s.now + 1 }
      ∧ (s.drainStep core k).mem = s.mem.writeWords (Addr.pad core l) 8 (bs.map Prod.snd) := by
  have htake := leavesTask.onCore s core
    (f := fun c => { c with engUse := [l].map (fun l => (l / 2 ^ 14, s.now)) ++ c.engUse.filter (fun e => e.2 == s.now) }) rfl
  have hrecent : ((s.takeEng core [l]).core core).recent = (s.core core).recent := (congrArg Core.recent (State.core_onCore_self s core _) :)
  obtain ⟨hmem, hnow, htask⟩ := padWriteBits_line (s := s.takeEng core [l]) ((s.takeEng core [l]).drainInfo core c) hlen hm hl
    (by rw [hrecent]; exact hland)
  rw [drainStep_line heng hf hres houts hpoison hbank hother rfl]
  generalize (s.takeEng core [l]).padWriteBits core l bs ((s.takeEng core [l]).drainInfo core c) = v at hmem hnow htask
  have hvnow : v.now = s.now := hnow
  have hveng : v.engine core eng = s.engine core eng := congrArg (TaskSt.eng · eng) ((htask core).trans htake.2)
  refine ⟨?_, ?_, hmem⟩
  · rw [hvnow]
    exact State.hasPosted_post (s := State.updEng v core eng _) (Nat.le_succ_of_le hvnow.le) _
  · rw [hvnow, ← hveng]
    exact State.engine_updEng_self v core eng _

end Sys2Proof.Machine

open Sys2Proof Sys2Proof.Machine

/-- Settles O46: each event is one function of the engine sequence, and what that function leaves is read off. -/
theorem matrixEvents : Obligations.MatrixEvents := by
  intro s core eng k o c rest e one standing
  refine ⟨fun hq hh ht hw hs => ?head, fun hq hh hw => ?again, fun hq hh hready hop ho hcode hbad hst _ hfault => ?start,
    fun l hl hfe hlines hbank hbad hfree hgood => ?fetch, fun l h => fetchLine_settled h l, fun n hf hs hn hc hop => ?array,
    fun l bs n heng hf hres houts hlen hm hl hpoison hbank hother hland => ?drain⟩
  case head =>
    have htake := leavesTask.takeWait s core c
    have hsem := s.takeWait_sem core c
    refine ⟨_, congrArg Host.Outcome.next (matHead_passes hq hh ht hw hs), ?_, ?_, ?_, fun h hi j => ?_⟩
    · exact (State.engine_updEng_self _ core eng _).trans (by rw [htake.engine_eq])
    · exact State.hasPosted_post (s := State.updEng _ core eng _) htake.1.now_eq.le _
    · exact (htake.1.trans ((tends.updEng _ core eng _).trans (.postEv _ core _ _))).keepsStore
    · have hj := hsem j
      rw [hi] at hj
      exact (congrArg (fun x : CtxSt => NMap.get 0 x.sem j) (State.updEng_units _ core eng _)).trans hj
  case again => exact congrArg Host.Outcome.next (matHead_waits hq hh hw)
  case start =>
    obtain ⟨ht, hq', hone, hposted⟩ := matFetchStart_starts hq hh hready hop ho hcode hbad hst hfault
    have hops := ht.ops_eq
    refine ⟨_, rfl, ?_, hq', hone, hposted, fun j hj => ?_, fun n hn => (ht.2.1 n hn).trans (core_of_cores (s.onOp_cores k _) n),
      fun a => by rw [ht.mem_eq, State.onOp_mem]⟩
    · exact (congrArg (NMap.find · k) hops).trans (State.op_onOp_self s k _ o ho)
    · exact (congrArg (NMap.find · j) hops).trans (State.op_onOp_ne s k j _ hj)
  case fetch =>
    have hserved := served_one hlines hbank hfree
    have hcmd : s.fetchedLines core eng c = { c with lines := [], bad := none, got := c.got ++ [(l, s.fetchLine core l)] } := by
      unfold State.fetchedLines
      simp only [hserved, hbad, List.find?_cons, hgood, List.find?_nil, List.map_cons, List.map_nil]
      rfl
    have hread := leavesTask.engReads s core (s.served core eng c).1
    have hengine := (State.engine_updEng_self (s.engReads core (s.served core eng c).1) core eng
      (fun e => e.fetchStep (s.fetchedLines core eng c) s.now)).trans (by rw [hread.engine_eq, hcmd])
    refine ⟨_, congrArg Host.Outcome.next (matFetchStep_serves hl hfe (by simp [hlines])), ?_, ?_, ?_, ?_⟩
    · exact State.hasPosted_post (Nat.le_succ_of_le (hread.1.trans (tends.updEng _ core eng _)).now_eq.le) _
    · exact (hread.1.trans ((tends.updEng _ core eng _).trans (.postEv _ core _ _))).keepsStore
    · exact congrArg Engine.lastFe hengine
    · exact ⟨{ c with lines := [], bad := none, got := c.got ++ [(l, s.fetchLine core l)], fe := s.now + 1 },
        (congrArg (fun e : Engine => _ ∈ e.running) hengine).mpr (Engine.mem_upd (List.mem_of_getLast? hl) rfl), rfl, rfl, rfl, rfl, rfl⟩
  case array =>
    obtain ⟨ht, hengine, hposted⟩ := matArrayStart_begins hf hs hn hc rfl
    have hmem := Engine.mem_upd (List.mem_of_find?_eq_some hf) (d := c.inArray s.now (c.doneFrom s.now (s.arrayOut core c e)) (s.arrayOut core c e)) rfl
    refine ⟨_, rfl, ht.keepsStore, congrArg Engine.acc hengine, congrArg Engine.lastS hengine, congrArg Engine.lastC hengine, fun h b m hi => ?_⟩
    have hdone := doneFrom_mzero hi s.now (s.arrayOut core c (s.engine core eng))
    rw [hop, hdone] at hposted
    refine ⟨fun i x y hx hy => ?_, hposted (by omega) (by omega), c.inArray s.now _ (s.arrayOut core c e), ?_, rfl, rfl, hdone⟩
    · rw [hengine]
      exact arrayOut_mzero hi _ i hx hy
    · rw [hengine]
      exact hmem
  case drain =>
    obtain ⟨hposted, hengine, hmem⟩ := drainStep_writes heng hf hres houts hlen hm hl hpoison hbank hother hland
    refine ⟨_, rfl, hposted, ?_, ?_, fun m hm => ?_⟩
    · exact ⟨_, (congrArg (fun e : Engine => _ ∈ e.running) hengine).mpr (Engine.mem_upd (List.mem_of_find?_eq_some hf) rfl), rfl, rfl, rfl⟩
    · rw [hmem]
      simp only [Addr.pad_add]
      rfl
    · rw [hmem]
      exact Memory.read_writeWords_out _ _ _ _ _ hm

end

section
/-!
PROOF. Commands that complete (R71, R187, R188): what their completion leaves of the tokens of other commands, and of their core.
-/

namespace Sys2Proof.Machine

/-- One token register reads as before, and whether a completion is still due in it. -/
def TaskSt.sameToken (t u : TaskSt) (k : Nat) : Prop :=
  u.scalar k = t.scalar k ∧ (k < 64 → NMap.get false u.pend k = NMap.get false t.pend k ∧ NMap.find u.tokOwner k = NMap.find t.tokOwner k)

/-- Nothing of a core's task has changed but registers in which one of some commands was due. -/
def tokensEnded (s t : State) (core : Nat) (cs : List Cmd) : Prop :=
  (∃ g p o r, (t.core core).t = { (s.core core).t with g := g, pend := p, tokOwner := o, rdy := r })
    ∧ ∀ k, (∀ d ∈ cs, ¬ tokenWaits s core d k) → (s.core core).t.sameToken (t.core core).t k

namespace tokensEnded

variable {s t u : State} {core : Nat} {cs ds : List Cmd}

theorem of_task (h : (t.core core).t = (s.core core).t) (cs : List Cmd) : tokensEnded s t core cs := by
  unfold tokensEnded
  rw [h]
  exact ⟨⟨_, _, _, _, rfl⟩, fun _ _ => ⟨rfl, fun _ => ⟨rfl, rfl⟩⟩⟩

theorem isTask_eq (h : tokensEnded s t core cs) (gk i : Nat) : (t.core core).t.isTask gk i = (s.core core).t.isTask gk i := by
  obtain ⟨⟨_, _, _, _, ht⟩, -⟩ := h
  rw [ht]
  rfl

/-- A command of which no other shares the token goes on to wait for it. -/
theorem waits_iff (h : tokensEnded s t core cs) {k : Nat} (hk : ∀ d ∈ cs, ¬ tokenWaits s core d k) (c : Cmd) :
    tokenWaits t core c k ↔ tokenWaits s core c k := by
  unfold tokenWaits
  rw [h.isTask_eq]
  exact and_congr_right fun _ => and_congr_right fun hlt => by rw [((h.2 k hk).2 hlt).2]

theorem trans (h : tokensEnded s t core cs) (k : tokensEnded t u core ds) : tokensEnded s u core (cs ++ ds) := by
  refine ⟨?_, fun r hr => ?_⟩
  · obtain ⟨⟨_, _, _, _, ht⟩, -⟩ := h
    obtain ⟨⟨g, p, o, r, hu⟩, -⟩ := k
    exact ⟨g, p, o, r, by rw [hu, ht]⟩
  · have hcs (d : Cmd) (hd : d ∈ cs) : ¬ tokenWaits s core d r := hr d (List.mem_append_left _ hd)
    obtain ⟨hx, hxt⟩ := h.2 r hcs
    obtain ⟨hy, hyt⟩ := k.2 r (fun d hd hw => hr d (List.mem_append_right _ hd) ((h.waits_iff hcs d).mp hw))
    exact ⟨hy.trans hx, fun hlt => ⟨(hyt hlt).1.trans (hxt hlt).1, (hyt hlt).2.trans (hxt hlt).2⟩⟩

theorem congr_list (h : tokensEnded s t core cs) (hd : ∀ d, d ∈ cs → d ∈ ds) : tokensEnded s t core ds :=
  ⟨h.1, fun k hk => h.2 k (fun d hc => hk d (hd d hc))⟩

theorem tokensOnly (h : tokensEnded s t core cs) : tokensOnly s t core cs := ⟨h.1, fun k hk => (h.2 k hk).1⟩

end tokensEnded

variable {s t u : State} {core : Nat} {c d : Cmd} {cs : List Cmd}

/-- A completion leaves every register but the one it writes. -/
theorem TaskSt.endToken_other (t : TaskSt) (r : Nat) (o : TokOwner) (x : Word) (cyc : Nat) {k : Nat} (h : k = r → NMap.find t.tokOwner k ≠ some o) :
    (t.endToken r o x cyc).scalar k = t.scalar k ∧ NMap.get false (t.endToken r o x cyc).pend k = NMap.get false t.pend k
      ∧ NMap.find (t.endToken r o x cyc).tokOwner k = NMap.find t.tokOwner k := by
  unfold TaskSt.endToken
  split
  · next howner =>
    have hne : k ≠ r := fun he => h he (he ▸ howner)
    refine ⟨?_, NMap.get_erase_ne _ _ _ _ hne, NMap.find_erase_ne _ _ _ hne⟩
    unfold TaskSt.scalar
    rw [NMap.get_put_ne _ _ _ _ _ hne]
  · exact ⟨rfl, rfl, rfl⟩

theorem TaskSt.endToken_high (t : TaskSt) (r : Nat) (o : TokOwner) (x : Word) (cyc : Nat) {k : Nat} (h : ¬ k < 64) :
    (t.endToken r o x cyc).scalar k = t.scalar k := by
  unfold TaskSt.endToken
  split
  · unfold TaskSt.scalar
    rw [if_neg h, if_neg h]
  · rfl

theorem TaskSt.endToken_sameToken (t : TaskSt) (r : Nat) (o : TokOwner) (x : Word) (cyc : Nat) {k : Nat}
    (h : k = r → k < 64 → NMap.find t.tokOwner k ≠ some o) : t.sameToken (t.endToken r o x cyc) k := by
  by_cases hk : k < 64
  · obtain ⟨hs, hp⟩ := t.endToken_other r o x cyc (fun he => h he hk)
    exact ⟨hs, fun _ => hp⟩
  · exact ⟨t.endToken_high r o x cyc hk, fun hlt => absurd hlt hk⟩

theorem TaskSt.endToken_shape (t : TaskSt) (r : Nat) (o : TokOwner) (x : Word) (cyc : Nat) :
    ∃ g p ow rd, t.endToken r o x cyc = { t with g := g, pend := p, tokOwner := ow, rdy := rd } := by
  unfold TaskSt.endToken
  split <;> exact ⟨_, _, _, _, rfl⟩

theorem State.onOwner_task (s : State) (core gk i : Nat) (f : TaskSt → TaskSt) :
    ((s.onOwner core gk i f).core core).t = if (s.core core).t.isTask gk i then f (s.core core).t else (s.core core).t := by
  unfold State.onOwner
  rw [State.core_onCore_self]
  split <;> rfl

/-- What a completion leaves of its core: the task but its token, and of the rest everything but suspended tasks. -/
structure answers (s t : State) (core : Nat) (cs : List Cmd) : Prop where
  tends : tends s t core
  ctx : ∃ su, (t.core core).c = { (s.core core).c with susp := su }
  tokens : tokensEnded s t core cs

theorem answers.refl (s : State) (core : Nat) : answers s s core [] := ⟨.refl s core, ⟨_, rfl⟩, .of_task rfl []⟩

theorem answers.trans {ds : List Cmd} (h : answers s t core cs) (k : answers t u core ds) : answers s u core (cs ++ ds) := by
  obtain ⟨su, hs⟩ := h.ctx
  obtain ⟨sv, hv⟩ := k.ctx
  exact ⟨h.tends.trans k.tends, ⟨sv, by rw [hv, hs]⟩, h.tokens.trans k.tokens⟩

theorem answers.onOwner {f : TaskSt → TaskSt} {gk i : Nat} (hf : ∀ t : TaskSt, ∃ g p o r, f t = { t with g := g, pend := p, tokOwner := o, rdy := r })
    (hk : ∀ k, (∀ d ∈ cs, ¬ tokenWaits s core d k) → (s.core core).t.isTask gk i = true → (s.core core).t.sameToken (f (s.core core).t) k) :
    answers s (s.onOwner core gk i f) core cs := by
  have htask := s.onOwner_task core gk i f
  refine ⟨.onCore s core _, ?_, ?_, fun k hd => ?_⟩
  · unfold State.onOwner
    rw [State.core_onCore_self]
    split <;> exact ⟨_, rfl⟩
  · rw [htask]
    split
    · exact hf _
    · exact ⟨_, _, _, _, rfl⟩
  · rw [htask]
    split
    · next ht => exact hk k hd ht
    · exact ⟨rfl, fun _ => ⟨rfl, rfl⟩⟩

/-- The token of a command takes a word that ends its wait. -/
def State.tokenSet (s : State) (core : Nat) (c : Cmd) (x : Word) : State :=
  match c.tok with
  | some r => s.onOwner core c.grp c.idx (fun t => t.endToken r (.cmd c.serial) x s.now)
  | none => s

theorem tokenPut_eq (s : State) (core : Nat) (c : Cmd) (code detail : Nat) :
    s.tokenPut core c code detail = s.tokenSet core c (statusWord code c.ins.unitCode detail) := rfl

theorem answers.tokenSet (s : State) (core : Nat) (c : Cmd) (x : Word) : answers s (s.tokenSet core c x) core [c] := by
  unfold State.tokenSet
  split
  · next r hr =>
    refine .onOwner (fun t => t.endToken_shape _ _ _ _) (fun k hk ht => TaskSt.endToken_sameToken _ _ _ _ _ ?_)
    rintro rfl hlt how
    exact hk c List.mem_cons_self ⟨hr, hlt, ht, how⟩
  · exact ⟨.refl s core, ⟨_, rfl⟩, .of_task rfl _⟩

theorem tokenSet_task {r : Nat} (h : tokenWaits s core c r) (x : Word) :
    ((s.tokenSet core c x).core core).t = (s.core core).t.endToken r (.cmd c.serial) x s.now := by
  obtain ⟨htok, -, hon, -⟩ := h
  unfold State.tokenSet
  simp only [htok]
  rw [State.onOwner_task, if_pos hon]

theorem tokenSet_done {r : Nat} (h : tokenWaits s core c r) (x : Word) :
    ((s.tokenSet core c x).core core).t.scalar r = x ∧ NMap.get false ((s.tokenSet core c x).core core).t.pend r = false := by
  rw [tokenSet_task h]
  obtain ⟨-, hlt, -, hown⟩ := h
  unfold TaskSt.endToken
  rw [if_pos hown]
  exact ⟨(if_pos hlt).trans (NMap.get_put_self _ _ _ _), NMap.get_erase_self _ _ _⟩

theorem answers.posts (h : answers s t core cs) {po : List Timed} (hp : ∀ x ∈ t.posted, x ∈ po) : answers s { t with posted := po } core cs :=
  ⟨h.tends.trans ⟨⟨_, _, _, _, _, rfl⟩, fun _ _ => rfl, hp⟩, h.ctx, h.tokens⟩

theorem answers.endCmd (s : State) (core : Nat) (c : Cmd) (code detail : Nat) : answers s (s.endCmd core c code detail true) core [c] := by
  have hput := answers.tokenSet s core c (statusWord code c.ins.unitCode detail)
  rw [← tokenPut_eq] at hput
  rw [State.endCmd_eq]
  split
  · obtain ⟨po, hv, hmem⟩ := (s.tokenPut core c code detail).signal_head core c
    rw [hv]
    exact hput.posts hmem
  · exact hput

theorem endCmd_task (s : State) (core : Nat) (c : Cmd) (code detail : Nat) :
    ((s.endCmd core c code detail true).core core).t = ((s.tokenPut core c code detail).core core).t := by
  rw [State.endCmd_eq]
  split
  · obtain ⟨po, hv, -⟩ := (s.tokenPut core c code detail).signal_head core c
    rw [hv]
    rfl
  · rfl

/-- Once a command's token holds its status, none is due in it. -/
theorem endCmd_settles (s : State) (core : Nat) (c : Cmd) (code detail : Nat) {r : Nat} (h : tokenWaits s core c r) :
    tokenDone (s.endCmd core c code detail true) core r code c.ins.unitCode detail
      ∧ ∀ d, ¬ tokenWaits (s.endCmd core c code detail true) core d r := by
  refine ⟨(s.endCmd_ended core c code detail).token r h, fun d hd => ?_⟩
  have hset := tokenSet_task h (statusWord code c.ins.unitCode detail)
  obtain ⟨-, -, -, hown⟩ := h
  obtain ⟨-, -, -, howner⟩ := hd
  rw [endCmd_task, tokenPut_eq, hset, TaskSt.endToken, if_pos hown] at howner
  exact nomatch (NMap.find_erase_self _ _).symm.trans howner

/-! ### Several commands that complete at once -/

/-- Commands that complete, each with a detail of its own. -/
def State.endAll (s : State) (core code : Nat) (ws : List Waiter) : State := ws.foldl (fun s w => s.endCmd core w.cmd code w.phase true) s

theorem answers.endAll (s : State) (core code : Nat) (ws : List Waiter) : answers s (s.endAll core code ws) core (ws.map (fun w => w.cmd)) := by
  induction ws generalizing s with
  | nil => exact .refl s core
  | cons w ws ih => exact (answers.endCmd s core w.cmd code w.phase).trans (ih _)

/-- The token of a command goes on to wait while commands of other numbers complete. -/
theorem tokensEnded.still_waits (h : tokensEnded s t core cs) (hne : ∀ x ∈ cs, x.serial ≠ c.serial) {r : Nat} (hw : tokenWaits s core c r) :
    tokenWaits t core c r := by
  refine (h.waits_iff (fun x hx hwx => ?_) c).mpr hw
  obtain ⟨-, -, -, hc⟩ := hw
  obtain ⟨-, -, -, hx'⟩ := hwx
  have he := hc.symm.trans hx'
  simp only [Option.some.injEq, TokOwner.cmd.injEq] at he
  exact hne x hx he.symm

/-- A status in a token that no command waits for stays. -/
theorem tokensEnded.done_stays (h : tokensEnded s t core cs) {r code unit detail : Nat} (hr : r < 64) (hd : tokenDone s core r code unit detail)
    (hw : ∀ d ∈ cs, ¬ tokenWaits s core d r) : tokenDone t core r code unit detail := by
  obtain ⟨hx, hy⟩ := h.2 r hw
  exact ⟨hx.trans hd.1, (hy hr).1.trans hd.2⟩

theorem endAll_done {code r : Nat} {ws : List Waiter} (hn : (ws.map (fun w => w.cmd.serial)).Nodup) {w : Waiter} (hw : w ∈ ws)
    (hr : tokenWaits s core w.cmd r) :
    tokenDone (s.endAll core code ws) core r code w.cmd.ins.unitCode w.phase ∧ ∀ d, ¬ tokenWaits (s.endAll core code ws) core d r := by
  induction ws generalizing s with
  | nil => cases hw
  | cons v ws ih =>
    obtain ⟨hv, hn⟩ := List.nodup_cons.mp hn
    have hend := answers.endCmd s core v.cmd code v.phase
    obtain rfl | hw := List.mem_cons.mp hw
    · obtain ⟨hdone, hnone⟩ := endCmd_settles s core w.cmd code w.phase hr
      have hall := (answers.endAll (s.endCmd core w.cmd code w.phase true) core code ws).tokens
      have hno : ∀ d ∈ ws.map (fun w => w.cmd), ¬ tokenWaits (s.endCmd core w.cmd code w.phase true) core d r := fun d _ => hnone d
      exact ⟨hall.done_stays hr.2.1 hdone hno, fun d hd => hnone d ((hall.waits_iff hno d).mp hd)⟩
    · refine ih hn hw (hend.tokens.still_waits (fun x hx => ?_) hr)
      obtain rfl := List.mem_singleton.mp hx
      exact fun he => hv (List.mem_map.mpr ⟨w, hw, he.symm⟩)

/-! ### A command leaves its queue once it has had its effect (R71) -/

/-- The parts of a core's state that the heads of its barrier, buffer and operation commands use. -/
def sameUnits (s t : State) (core : Nat) : Prop :=
  (t.core core).c.bar = (s.core core).c.bar ∧ (t.core core).c.buf = (s.core core).c.buf ∧ (t.core core).c.waiters = (s.core core).c.waiters
    ∧ (t.core core).c.opWaits = (s.core core).c.opWaits

theorem sameUnits.trans (h : sameUnits s t core) (k : sameUnits t u core) : sameUnits s u core := by
  obtain ⟨a1, a2, a3, a4⟩ := h
  obtain ⟨b1, b2, b3, b4⟩ := k
  exact ⟨b1.trans a1, b2.trans a2, b3.trans a3, b4.trans a4⟩

theorem answers.sameUnits (h : answers s t core cs) : sameUnits s t core := by
  obtain ⟨su, hc⟩ := h.ctx
  unfold Machine.sameUnits
  rw [hc]
  exact ⟨rfl, rfl, rfl, rfl⟩

theorem answers.keepsUnits (h : answers s t core cs) : s.keepsUnits t core := by
  obtain ⟨su, hc⟩ := h.ctx
  unfold State.keepsUnits State.cmdsOf State.sem
  rw [hc]
  exact ⟨fun _ => rfl, fun _ => rfl⟩

theorem sameUnits.barrier (h : sameUnits s t core) (i : Nat) : t.barrier core i = s.barrier core i := congrArg (fun m => NMap.get ({} : Barrier) m i) h.1

theorem sameUnits.buffer (h : sameUnits s t core) (i : Nat) : t.buffer core i = s.buffer core i := congrArg (fun m => NMap.get ({} : Buffer) m i) h.2.1

theorem takeWait_sameUnits (s : State) (core : Nat) (c : Cmd) : sameUnits s (s.takeWait core c) core := by
  obtain h | ⟨sem, h⟩ := s.takeWait_shape core c <;> rw [h]
  · exact ⟨rfl, rfl, rfl, rfl⟩
  · unfold sameUnits
    rw [State.core_onCtxSt_self]
    exact ⟨rfl, rfl, rfl, rfl⟩

variable {unit : Nat} {rest : List Cmd}

theorem tends.onCtxSt (s : State) (core : Nat) (f : CtxSt → CtxSt) : tends s (s.onCtxSt core f) core := .onCore s core _

theorem headTaken_tends (hu : unit ≠ 3) (s : State) (core : Nat) (c : Cmd) : tends s (s.headTaken core unit c) core := by
  obtain ⟨po, hv, hmem⟩ := s.headTaken_shape hu core c
  rw [hv]
  have hgone : tends s (s.headGone core unit c) core := (tends.onCtxSt s core _).trans (.onCtxSt _ core _)
  exact hgone.trans ⟨⟨_, _, _, _, _, rfl⟩, fun _ _ => rfl, fun x hx => hmem x hx⟩

theorem headTaken_sameUnits (hu : unit ≠ 3) (s : State) (core : Nat) (c : Cmd) : sameUnits s (s.headTaken core unit c) core := by
  unfold sameUnits
  rw [State.headTaken_core hu, State.headGone_core]
  exact ⟨rfl, rfl, rfl, rfl⟩

theorem headTaken_sameTask (hu : unit ≠ 3) (s : State) (core : Nat) (c : Cmd) : ((s.headTaken core unit c).core core).t = (s.core core).t := by
  rw [State.headTaken_core hu, State.headGone_core]

/-- What a head leaves of its queue, its unit and its semaphore once its effect has come. -/
theorem headReady.left (hr : headReady s core unit c rest) (hu : unit ≠ 3) {v : State} (hn : v.now = s.now)
    (hk : (s.takeWait core c).keepsUnits v core) : headLeft s (v.headTaken core unit c) core unit c rest := by
  obtain ⟨hge, -, hq, -, -, -, -, hne, -⟩ := hr
  obtain ⟨hcmds, hsem⟩ := hk
  have hrest : (v.cmdsOf core unit).filter (fun d => d.serial != c.serial) = rest :=
    filter_head ((hcmds unit).trans ((s.takeWait_cmdsOf core c unit).trans hq)) hne
  have hcore := (v.headTaken_core hu core c).trans (v.headGone_core core unit c)
  refine ⟨(v.headTaken_cmdsOf hu core c).trans hrest, ?_, fun j => ?_, fun h => ?_⟩
  · rw [hcore, ← hn]
    exact NMap.get_set_self _ _ _ _
  · rw [← s.takeWait_sem core c j, ← hsem j]
    unfold State.sem
    rw [hcore]
  · have hdue := State.headTaken_next hu (s := v) (core := core) (c := c) (hrest ▸ h)
    rwa [headEv, if_neg (by omega)] at hdue

theorem exec_unitHead (h : 3 ≤ unit) (s : State) (core : Nat) : exec (.evCommandHead core unit) s = .next (s.unitHead core unit) :=
  congrArg Host.Outcome.next (if_neg (by omega))

/-- The head of a ready command: its effect, or another test in the next cycle. -/
theorem headReady.unitHead_eq (hr : headReady s core unit c rest) : s.unitHead core unit
    = ((s.takeWait core c).headEffect core unit c).elim ((s.passWait core unit c).postHead core unit (s.now + 1))
        (fun v => v.headTaken core unit c) := by
  obtain ⟨-, -, hq, hc, hf, hm, hw, -⟩ := hr
  have hnow : ¬ s.now < max (c.t + c.ins.headDelay) (NMap.get 0 (s.core core).c.free unit) := Nat.not_lt.mpr (Nat.max_le.mpr ⟨hc, hf⟩)
  unfold State.unitHead
  rw [hq]
  dsimp only
  rw [if_neg hnow, if_neg (by simp [hm]), if_neg (by simp [hw])]
  cases (s.takeWait core c).headEffect core unit c <;> rfl

theorem headReady.exec_some (hr : headReady s core unit c rest) {v : State} (hv : (s.takeWait core c).headEffect core unit c = some v) :
    exec (.evCommandHead core unit) s = .next (v.headTaken core unit c) := by
  rw [exec_unitHead hr.1, hr.unitHead_eq, hv]
  rfl

theorem headReady.exec_none (hr : headReady s core unit c rest) (hv : (s.takeWait core c).headEffect core unit c = none) :
    exec (.evCommandHead core unit) s = .next ((s.passWait core unit c).postHead core unit (s.now + 1)) := by
  rw [exec_unitHead hr.1, hr.unitHead_eq, hv]
  rfl

/-- Before its cycle, and while its wait does not hold, a head is tested again. -/
theorem unitHead_early {d : Cmd} {ds : List Cmd} (hq : s.cmdsOf core unit = d :: ds)
    (h : s.now < max (d.t + d.ins.headDelay) (NMap.get 0 (s.core core).c.free unit)) :
    s.unitHead core unit = s.postHead core unit (max (d.t + d.ins.headDelay) (NMap.get 0 (s.core core).c.free unit)) := by
  unfold State.unitHead
  rw [hq]
  exact if_pos h

theorem unitHead_waits {d : Cmd} {ds : List Cmd} (hq : s.cmdsOf core unit = d :: ds) (hm : (s.core core).c.moving = none)
    (h : max (d.t + d.ins.headDelay) (NMap.get 0 (s.core core).c.free unit) ≤ s.now) (hw : s.waitOk core d = false) :
    s.unitHead core unit = s.postHead core unit (s.now + 1) := by
  unfold State.unitHead
  rw [hq]
  dsimp only
  rw [if_neg (Nat.not_lt.mpr h), if_neg (by simp [hm]), if_pos (by simp [hw])]

/-! ### A command that completes at its head -/

/-- A head's effect up to the completion of its command: other commands may have completed. -/
structure headWork (u v : State) (core : Nat) (cs : List Cmd) : Prop where
  tends : tends u v core
  units : u.keepsUnits v core
  tokens : tokensEnded u v core cs

namespace headWork

variable {v w : State} {ds : List Cmd}

theorem refl (u : State) (core : Nat) : headWork u u core [] := ⟨.refl u core, ⟨fun _ => rfl, fun _ => rfl⟩, .of_task rfl []⟩

theorem trans (h : headWork u v core cs) (k : headWork v w core ds) : headWork u w core (cs ++ ds) :=
  ⟨h.tends.trans k.tends, h.units.trans k.units, h.tokens.trans k.tokens⟩

theorem of_answers (h : answers u v core cs) : headWork u v core cs := ⟨h.tends, h.keepsUnits, h.tokens⟩

/-- A change of a core's state that leaves its queues and semaphores. -/
theorem onCtxSt (u : State) (core : Nat) {f : CtxSt → CtxSt} (hf : (f (u.core core).c).cmdq = (u.core core).c.cmdq)
    (hs : (f (u.core core).c).sem = (u.core core).c.sem) : headWork u (u.onCtxSt core f) core [] := by
  refine ⟨.onCtxSt u core f, ?_, .of_task (by rw [State.core_onCtxSt_self]) []⟩
  unfold State.keepsUnits State.cmdsOf State.sem
  rw [State.core_onCtxSt_self]
  exact ⟨fun n => congrArg (fun m => NMap.get [] m n) hf, fun j => congrArg (fun m => NMap.get 0 m j) hs⟩

theorem post (u : State) (core n : Nat) (a : Act) : headWork u (u.post n a) core [] := ⟨.post u core n a, ⟨fun _ => rfl, fun _ => rfl⟩, .of_task rfl []⟩

end headWork

theorem unitCode_of_five {i : Instr} (h : i.cmdUnit = 5) : i.unitCode = 0x08 := by
  unfold Instr.unitCode
  split
  case h_8 => simp only [h]
  all_goals cases h

/-- A command completes at its head: it has had its effect, and its token and its signal are as they must be. -/
theorem headReady.done (hr : headReady s core unit c rest) (hu : unit = 4 ∨ unit = 5) {v : State} {code detail : Nat} (hn : v.now = s.now)
    (hk : (s.takeWait core c).keepsUnits v core) (hw : ∀ r, tokenWaits s core c r → tokenWaits v core c r) :
    headDone s ((v.endCmd core c code detail true).headTaken core unit c) core unit c rest code detail := by
  have he := v.endCmd_ended core c code detail
  have hne : unit ≠ 3 := by omega
  refine ⟨hr.left hne (he.now.trans hn) (hk.trans he.units), fun r h => ?_, fun h hh hs hc => ?_⟩
  · unfold tokenDone
    rw [headTaken_sameTask hne]
    exact he.token r (hw r h)
  · have hon : signalsOn c.ins.unitCode code = true := by
      obtain rfl | ⟨h4, -⟩ := hc
      · rfl
      · rw [unitCode_of_five (hr.2.1.trans (hu.resolve_left h4))]
        exact Bool.or_true _
    rw [← hn]
    exact (headTaken_tends hne _ core c).2.2 _ (he.signal h hh hs hon)

/-- What a command that completes at its head leaves, after work that other commands may have completed by. -/
theorem headReady.ends (hr : headReady s core unit c rest) (hu : unit = 4 ∨ unit = 5) {v : State} {code detail : Nat}
    (hv : headWork (s.takeWait core c) v core cs) (hne : ∀ d ∈ cs, d.serial ≠ c.serial)
    (heff : (s.takeWait core c).headEffect core unit c = some (v.endCmd core c code detail true)) :
    ∃ t, exec (.evCommandHead core unit) s = .next t ∧ headDone s t core unit c rest code detail ∧ keepsStore s t core
      ∧ tokensEnded s v core cs ∧ tokensEnded v t core [c] ∧ sameUnits v t core ∧ t.ops = s.ops ∧ ∀ x ∈ v.posted, x ∈ t.posted := by
  have hu3 : unit ≠ 3 := by omega
  have htake := leavesTask.takeWait s core c
  have hend := answers.endCmd v core c code detail
  have htok : tokensEnded s v core cs := (tokensEnded.of_task htake.2 []).trans hv.tokens
  have hgone := headTaken_tends hu3 (v.endCmd core c code detail true) core c
  have hall := htake.1.trans (hv.tends.trans (hend.tends.trans hgone))
  refine ⟨_, hr.exec_some heff, hr.done hu (hv.tends.now_eq.trans htake.1.now_eq) hv.units (fun r h => htok.still_waits hne h), hall.keepsStore, htok,
    ?_, hend.sameUnits.trans (headTaken_sameUnits hu3 _ core c), hall.ops_eq, fun x hx => (hend.tends.trans hgone).2.2 x hx⟩
  exact (hend.tokens.trans (.of_task (headTaken_sameTask hu3 _ core c) [])).congr_list (fun d hd => by simpa using hd)

/-- The same where nothing else has completed, with what is then to be seen of it. -/
theorem headReady.endsAlone (hr : headReady s core unit c rest) (hu : unit = 4 ∨ unit = 5) {v : State} {code detail : Nat}
    (hv : headWork (s.takeWait core c) v core [])
    (heff : (s.takeWait core c).headEffect core unit c = some (v.endCmd core c code detail true)) {f : State → Prop}
    (hf : ∀ t, sameUnits v t core → t.ops = s.ops → (∀ x ∈ v.posted, x ∈ t.posted) → f t) :
    ∃ t, exec (.evCommandHead core unit) s = .next t ∧ headDone s t core unit c rest code detail ∧ keepsStore s t core
      ∧ tokensOnly s t core [c] ∧ f t := by
  obtain ⟨t, hexec, hdone, hkeep, htok, hlast, hunits, hops, hposted⟩ := hr.ends hu hv (fun _ h => nomatch h) heff
  exact ⟨t, hexec, hdone, hkeep, (htok.trans hlast).tokensOnly, hf t hunits hops hposted⟩

end Sys2Proof.Machine
end

section
/-!
PROOF. The barrier and buffer commands at their heads (R232 to R235, R238, R242 to R244): the effect of each, case by case.
-/

namespace Sys2Proof.Machine

variable {u v : State} {core : Nat} {c : Cmd} {h : CmdHdr} {b : BitVec 8}

theorem barrier_setBarrier (u : State) (core b : Nat) (x : Barrier) (i : Nat) :
    (u.setBarrier core b x).barrier core i = if i = b then x else u.barrier core i := by
  unfold State.setBarrier State.barrier
  rw [State.core_onCtxSt_self]
  split
  · next hi =>
    subst hi
    exact NMap.get_put_self _ _ _ _
  · next hi => exact NMap.get_put_ne _ _ _ _ _ hi

theorem barrier_onCtxSt (u : State) (core : Nat) {f : CtxSt → CtxSt} (hf : (f (u.core core).c).bar = (u.core core).c.bar) (i : Nat) :
    (u.onCtxSt core f).barrier core i = u.barrier core i := by
  unfold State.barrier
  rw [State.core_onCtxSt_self]
  exact congrArg (fun m => NMap.get ({} : Barrier) m i) hf

theorem task_onCtxSt (u : State) (core : Nat) (f : CtxSt → CtxSt) : ((u.onCtxSt core f).core core).t = (u.core core).t := by
  rw [State.core_onCtxSt_self]

theorem task_setBarrier (u : State) (core b : Nat) (x : Barrier) : ((u.setBarrier core b x).core core).t = (u.core core).t :=
  task_onCtxSt u core (fun c => { c with bar := NMap.put {} c.bar b x })

theorem headWork.setBarrier (u : State) (core b : Nat) (x : Barrier) : headWork u (u.setBarrier core b x) core [] := .onCtxSt u core rfl rfl

theorem Barrier.blocks_some {x : Barrier} (hx : x.st = 0 ∨ x.st = 2) :
    x.blocks = some (if x.st = 0 then Code.barrierPoisoned else x.pcode) := by
  unfold Barrier.blocks
  obtain hx | hx := hx <;> simp [hx]

theorem Barrier.blocks_none {x : Barrier} (hx : x.st = 1) : x.blocks = none := by
  simp [Barrier.blocks, hx]

/-! ### Commands that a barrier's state stops, and those that wait (R242, R243) -/

theorem bexpect_blocked {o : Opd} {k : Nat} (hi : c.ins = .bexpect h b o) (hx : (u.barrier core b.toNat).blocks = some k) :
    u.headEffect core 4 c = some (u.endCmd core c k 0 true) := by
  show u.syncHead core c = _
  unfold State.syncHead State.barHead
  simp only [hi, hx]

theorem barrive_blocked {o : Opd} {e : BitVec 4} {k : Nat} (hi : c.ins = .barrive h b o false e) (hx : (u.barrier core b.toNat).blocks = some k) :
    u.headEffect core 4 c = some (u.endCmd core c k 0 true) := by
  show u.syncHead core c = _
  unfold State.syncHead State.barHead
  simp only [hi, hx]
  rfl

/-- The phase a wait is for. -/
def waitPhase (x : Barrier) (p : Option Opd) (n : Nat) : Nat := if p.isNone then x.phase else n % 65536

theorem bwait_blocked {p : Option Opd} {k : Nat} (hi : c.ins = .bwait h b p) (hx : (u.barrier core b.toNat).blocks = some k) :
    u.headEffect core 4 c
      = some (u.endCmd core c k (waitPhase (u.barrier core b.toNat) p (c.vals.getD 0 0).toNat) true) := by
  show u.syncHead core c = _
  unfold State.syncHead State.barHead
  simp only [hi, hx]
  rfl

theorem bwait_active {p : Option Opd} (hi : c.ins = .bwait h b p) (hx : (u.barrier core b.toNat).blocks = none) {ph : Nat}
    (hp : waitPhase (u.barrier core b.toNat) p (c.vals.getD 0 0).toNat = ph) :
    u.headEffect core 4 c = if phaseDone (u.barrier core b.toNat).phase ph then some (u.endCmd core c 0 ph true)
      else if 32 ≤ (u.core core).c.waiters.length then none
      else some (u.onCtxSt core (fun k => { k with waiters := k.waiters ++ [{ bar := b.toNat, phase := ph, cmd := c }] })) := by
  subst hp
  show u.syncHead core c = _
  unfold State.syncHead State.barHead
  simp only [hi, hx]
  rfl

/-! ### What a barrier command does (R234, R235, R242) -/

/-- A barrier is taken out of what waits for it: those that wait in this cycle without a code are answered that it is poisoned. -/
def State.answerFree (s : State) (core b : Nat) : State := s.answer core b Code.barrierPoisoned (fun w => w.cmd.code == 0)

theorem binit_effect (hi : c.ins = .binit h b) :
    u.headEffect core 4 c = some (((u.answerFree core b.toNat).setBarrier core b.toNat { st := 1 }).endCmd core c 0 0 true) := by
  show u.syncHead core c = _
  unfold State.syncHead State.barHead
  simp only [hi]
  rfl

theorem bclear_free_effect (hi : c.ins = .bclear h b true) :
    u.headEffect core 4 c = some (((u.answerFree core b.toNat).setBarrier core b.toNat {}).endCmd core c 0 0 true) := by
  show u.syncHead core c = _
  unfold State.syncHead State.barHead
  simp only [hi]
  rfl

/-- The state `BCLEAR` leaves: a barrier that is set up begins anew, with its phase. -/
def Barrier.cleared (x : Barrier) : Barrier := if x.st = 0 then x else { st := 1, phase := x.phase }

theorem bclear_effect (hi : c.ins = .bclear h b false) : ∃ v, headWork u v core []
    ∧ (∀ i, v.barrier core i = if i = b.toNat then (u.barrier core b.toNat).cleared else u.barrier core i)
    ∧ u.headEffect core 4 c = some (v.endCmd core c 0 0 true) := by
  have heff : u.headEffect core 4 c = some ((if (u.barrier core b.toNat).st = 0 then u
      else u.setBarrier core b.toNat { st := 1, phase := (u.barrier core b.toNat).phase }).endCmd core c 0 0 true) := by
    show u.syncHead core c = _
    unfold State.syncHead State.barHead
    simp only [hi]
    rfl
  by_cases hx : (u.barrier core b.toNat).st = 0
  · rw [if_pos hx] at heff
    refine ⟨u, .refl u core, fun i => ?_, heff⟩
    split
    · next hb => rw [hb, Barrier.cleared, if_pos hx]
    · rfl
  · rw [if_neg hx] at heff
    refine ⟨_, .setBarrier u core _ _, fun i => ?_, heff⟩
    rw [barrier_setBarrier, Barrier.cleared, if_neg hx]

/-- What a command's effect does to its barrier, with its test due in the same cycle (R234, R235). -/
def barMoves (u v : State) (core b : Nat) (x : Barrier) : Prop :=
  headWork u v core [] ∧ (∀ i, v.barrier core i = if i = b then x else u.barrier core i) ∧ v.hasPosted u.now (.barTest core b)
    ∧ (v.core core).t = (u.core core).t

theorem barMoves.setBarrier (u : State) (core b : Nat) (x : Barrier) : barMoves u ((u.setBarrier core b x).post u.now (.barTest core b)) core b x :=
  ⟨(headWork.setBarrier u core b x).trans (.post _ core _ _), barrier_setBarrier u core b x,
    State.hasPosted_post (s := u.setBarrier core b x) (Nat.le_refl _) _, task_setBarrier u core b x⟩

/-- Those that wait for a barrier as it is poisoned hold the code they will be answered with. -/
def CtxSt.codeWaiters (x : CtxSt) (b code : Nat) : CtxSt :=
  { x with waiters := x.waiters.map (fun w => if w.bar == b && w.cmd.code == 0 then { w with cmd := { w.cmd with code := code } } else w) }

/-- A barrier that is poisoned, with the code for those that wait for it. -/
theorem barMoves.poisonBarrier {b : Nat} (hx : (u.barrier core b).st = 1) (code : Nat) :
    barMoves u (u.poisonBarrier core b code) core b { u.barrier core b with st := 2, pcode := code } := by
  unfold State.poisonBarrier
  simp only [hx, if_true]
  have hset := headWork.setBarrier u core b { u.barrier core b with st := 2, pcode := code }
  have hbar := barrier_setBarrier u core b { u.barrier core b with st := 2, pcode := code }
  have hnow : (u.setBarrier core b { u.barrier core b with st := 2, pcode := code }).now = u.now := rfl
  have htask : ((u.setBarrier core b { u.barrier core b with st := 2, pcode := code }).core core).t = (u.core core).t := task_setBarrier u core b _
  generalize u.setBarrier core b { u.barrier core b with st := 2, pcode := code } = v at hset hbar hnow htask
  refine ⟨hset.trans ((headWork.onCtxSt v core (f := fun x => x.codeWaiters b code) rfl rfl).trans (.post _ core _ _)), fun i => ?_, ?_,
    (task_onCtxSt v core (fun x => x.codeWaiters b code)).trans htask⟩
  · exact (barrier_onCtxSt v core (f := fun x => x.codeWaiters b code) rfl i).trans (hbar i)
  · rw [← hnow]
    exact State.hasPosted_post (Nat.le_refl _) _

/-- What an arrival does to an active barrier (R234). -/
def Barrier.overruns (x : Barrier) (a : Nat) : Bool := (x.posted && decide (x.expected < a)) || decide (2 ^ 48 - 1 < a)
def Barrier.poisoned (x : Barrier) : Barrier := { x with st := 2, pcode := Code.barrierOverrun }
def Barrier.arrives (x : Barrier) (n : Nat) : Barrier := if x.overruns (x.arrived + n) then x.poisoned else { x with arrived := x.arrived + n }

theorem barMoves.arrive {b : Nat} (hx : (u.barrier core b).st = 1) (n : Nat) (r : RecInfo) :
    barMoves u (u.arrive core b n r) core b ((u.barrier core b).arrives n) := by
  unfold State.arrive Barrier.arrives Barrier.overruns
  simp only [hx]
  split
  · exact .poisonBarrier hx _
  · exact .setBarrier u core b _

theorem barrive_active {o : Opd} {e : BitVec 4} (hi : c.ins = .barrive h b o false e) (hx : (u.barrier core b.toNat).st = 1) :
    u.headEffect core 4 c = some ((u.arrive core b.toNat (c.vals.getD 0 0).toNat (c.info core)).endCmd core c 0 0 true) := by
  show u.syncHead core c = _
  unfold State.syncHead State.barHead
  simp only [hi, Barrier.blocks_none hx]
  rfl

theorem barrive_remote {o : Opd} {e : BitVec 4} (hi : c.ins = .barrive h b o true e) :
    u.headEffect core 4 c = some ((u.postEv (u.now + 8) (.evRemoteArrivalLand (coreOfYard core e.toNat) b.toNat (c.vals.getD 0 0)
      (c.src core))).endCmd core c 0 0 true) := by
  show u.syncHead core c = _
  unfold State.syncHead State.barHead
  simp only [hi, word, BitVec.ofNat_toNat, BitVec.setWidth_eq, if_true]

/-- Whether an expectation is not possible (R242). -/
def Barrier.expectOver (x : Barrier) (n : Nat) : Prop := x.posted = true ∨ 2 ^ 48 - 1 < n ∨ n < x.arrived

theorem bexpect_over {o : Opd} (hi : c.ins = .bexpect h b o) (hx : (u.barrier core b.toNat).st = 1)
    (ho : (u.barrier core b.toNat).expectOver (c.vals.getD 0 0).toNat) :
    u.headEffect core 4 c = some ((u.poisonBarrier core b.toNat Code.barrierOverrun).endCmd core c Code.barrierOverrun 0 true) := by
  show u.syncHead core c = _
  unfold State.syncHead State.barHead
  simp only [hi, Barrier.blocks_none hx]
  exact if_pos ho

theorem bexpect_sets {o : Opd} (hi : c.ins = .bexpect h b o) (hx : (u.barrier core b.toNat).st = 1)
    (ho : ¬ (u.barrier core b.toNat).expectOver (c.vals.getD 0 0).toNat) :
    u.headEffect core 4 c = some (((u.setBarrier core b.toNat { u.barrier core b.toNat with expected := (c.vals.getD 0 0).toNat, posted := true }).post
      u.now (.barTest core b.toNat)).endCmd core c 0 0 true) := by
  show u.syncHead core c = _
  unfold State.syncHead State.barHead
  simp only [hi, Barrier.blocks_none hx]
  exact if_neg ho

/-! ### Those that waited for a barrier that is set up anew or freed (R235) -/

theorem answerFree_eq (s : State) (core b : Nat) : s.answerFree core b
    = (s.onCtxSt core (fun c => { c with waiters := c.waiters.filter (fun w => !(w.bar == b && w.cmd.code == 0)) })).endAll core
        Code.barrierPoisoned ((s.core core).c.waiters.filter (fun w => w.bar == b && w.cmd.code == 0)) := rfl

/-- The commands that are answered. -/
def State.freed (s : State) (core b : Nat) : List Waiter := (s.core core).c.waiters.filter (fun w => w.bar == b && w.cmd.code == 0)

theorem answerFree_keeps (u : State) (core b : Nat) :
    headWork u (u.answerFree core b) core ((u.freed core b).map (fun w => w.cmd)) ∧ (∀ i, (u.answerFree core b).barrier core i = u.barrier core i)
      ∧ ((u.answerFree core b).core core).c.waiters = (u.core core).c.waiters.filter (fun w => !(w.bar == b && w.cmd.code == 0)) := by
  rw [answerFree_eq]
  have hctx := headWork.onCtxSt u core (f := fun c => { c with waiters := c.waiters.filter (fun w => !(w.bar == b && w.cmd.code == 0)) }) rfl rfl
  have hcore := State.core_onCtxSt_self u core (fun c => { c with waiters := c.waiters.filter (fun w => !(w.bar == b && w.cmd.code == 0)) })
  generalize u.onCtxSt core (fun c => { c with waiters := c.waiters.filter (fun w => !(w.bar == b && w.cmd.code == 0)) }) = v at hctx hcore
  have hall := answers.endAll v core Code.barrierPoisoned (u.freed core b)
  obtain ⟨hbar, -, hwait, -⟩ := hall.sameUnits
  refine ⟨hctx.trans (.of_answers hall), fun i => ?_, ?_⟩
  · refine (hall.sameUnits.barrier i).trans ?_
    unfold State.barrier
    rw [hcore]
  · refine hwait.trans ?_
    rw [hcore]

theorem answerFree_done {b : Nat} (hn : ((u.core core).c.waiters.map (fun w => w.cmd.serial)).Nodup) {w : Waiter} (hw : w ∈ u.freed core b) {r : Nat}
    (hr : tokenWaits u core w.cmd r) : tokenDone (u.answerFree core b) core r Code.barrierPoisoned w.cmd.ins.unitCode w.phase
      ∧ ∀ d, ¬ tokenWaits (u.answerFree core b) core d r := by
  rw [answerFree_eq]
  refine endAll_done (hn.sublist (List.filter_sublist.map _)) hw ?_
  unfold tokenWaits
  rw [task_onCtxSt]
  exact hr

/-! ### What is left of a barrier command that completes at its head -/

variable {s : State} {rest : List Cmd} {code detail : Nat}

theorem headReady.barSame (hr : headReady s core 4 c rest)
    (heff : (s.takeWait core c).headEffect core 4 c = some ((s.takeWait core c).endCmd core c code detail true)) :
    ∃ t, exec (.evCommandHead core 4) s = .next t ∧ headDone s t core 4 c rest code detail ∧ keepsStore s t core
      ∧ tokensOnly s t core [c] ∧ ∀ i, t.barrier core i = s.barrier core i :=
  hr.endsAlone (.inl rfl) (.refl _ core) heff (fun _ ht _ _ i => ((takeWait_sameUnits s core c).trans ht).barrier i)

theorem headReady.barMoved (hr : headReady s core 4 c rest) {b : Nat} {x : Barrier} (hv : headWork (s.takeWait core c) v core [])
    (hb : ∀ i, v.barrier core i = if i = b then x else (s.takeWait core c).barrier core i)
    (heff : (s.takeWait core c).headEffect core 4 c = some (v.endCmd core c code detail true)) :
    ∃ t, exec (.evCommandHead core 4) s = .next t ∧ headDone s t core 4 c rest code detail ∧ keepsStore s t core
      ∧ tokensOnly s t core [c] ∧ ∀ i, t.barrier core i = if i = b then x else s.barrier core i := by
  refine hr.endsAlone (.inl rfl) hv heff (fun t ht _ _ i => ?_)
  rw [ht.barrier, hb, (takeWait_sameUnits s core c).barrier]

theorem headReady.barTested (hr : headReady s core 4 c rest) {b : Nat} {x : Barrier} (hv : barMoves (s.takeWait core c) v core b x)
    (heff : (s.takeWait core c).headEffect core 4 c = some (v.endCmd core c code detail true)) :
    ∃ t, exec (.evCommandHead core 4) s = .next t ∧ headDone s t core 4 c rest code detail ∧ keepsStore s t core
      ∧ tokensOnly s t core [c] ∧ (∀ i, t.barrier core i = if i = b then x else s.barrier core i) ∧ t.hasPosted s.now (.barTest core b) := by
  obtain ⟨hwork, hbar, hposted, -⟩ := hv
  rw [(leavesTask.takeWait s core c).1.now_eq] at hposted
  refine hr.endsAlone (.inl rfl) hwork heff (fun t ht _ hpost => ⟨fun i => ?_, hpost _ hposted⟩)
  rw [ht.barrier, hbar, (takeWait_sameUnits s core c).barrier]

/-- A barrier command that answers those that wait. -/
theorem headReady.barFreed (hr : headReady s core 4 c rest) {b : Nat} {x : Barrier}
    (heff : (s.takeWait core c).headEffect core 4 c = some ((((s.takeWait core c).answerFree core b).setBarrier core b x).endCmd core c 0 0 true)) :
    ∃ t, exec (.evCommandHead core 4) s = .next t ∧ headDone s t core 4 c rest 0 0 ∧ keepsStore s t core
      ∧ (∀ i, t.barrier core i = if i = b then x else s.barrier core i)
      ∧ (t.core core).c.waiters = (s.core core).c.waiters.filter (fun w => !(w.bar == b && w.cmd.code == 0))
      ∧ tokensOnly s t core (c :: (s.freed core b).map (fun w => w.cmd))
      ∧ ∀ w ∈ (s.core core).c.waiters, w.bar = b → w.cmd.code = 0 → ∀ r, tokenWaits s core w.cmd r →
          tokenDone t core r Code.barrierPoisoned w.cmd.ins.unitCode w.phase := by
  have htake := leavesTask.takeWait s core c
  have hunits := takeWait_sameUnits s core c
  have hends {v : State} {cs : List Cmd} := hr.ends (.inl rfl) (cs := cs) (v := v) (code := 0) (detail := 0)
  obtain ⟨-, -, -, -, -, -, -, -, hserial, hnodup, -⟩ := hr
  have hfreed : (s.takeWait core c).freed core b = s.freed core b := by
    unfold State.freed
    rw [hunits.2.2.1]
  generalize s.takeWait core c = u at heff htake hunits hends hfreed
  obtain ⟨hwork, hbar, hwaiters⟩ := answerFree_keeps u core b
  have hdone {w : Waiter} {r : Nat} := answerFree_done (u := u) (b := b) (by rw [hunits.2.2.1]; exact hnodup) (w := w) (r := r)
  rw [hfreed] at hwork hdone
  rw [hunits.2.2.1] at hwaiters
  generalize u.answerFree core b = v at heff hwork hbar hwaiters hdone
  have hset := State.core_onCtxSt_self v core (fun y => { y with bar := NMap.put {} y.bar b x })
  change (v.setBarrier core b x).core core = _ at hset
  have hne : ∀ d ∈ (s.freed core b).map (fun w => w.cmd), d.serial ≠ c.serial := by
    intro d hd
    obtain ⟨w, hw, rfl⟩ := List.mem_map.mp hd
    exact hserial w (List.mem_filter.mp hw).1
  obtain ⟨t, hexec, hhead, hkeep, htok, hlast, hsame, -, -⟩ := hends (hwork.trans (.setBarrier v core b x)) (by simpa using hne) heff
  rw [List.append_nil] at htok
  refine ⟨t, hexec, hhead, hkeep, fun i => ?_, ?_, ((htok.trans hlast).congr_list (fun d hd => ?_)).tokensOnly, fun w hw hb hcode r hr => ?_⟩
  · rw [hsame.barrier, barrier_setBarrier, hbar, hunits.barrier]
  · rw [hsame.2.2.1, hset]
    exact hwaiters
  · exact List.mem_cons.mpr ((List.mem_append.mp hd).symm.imp List.mem_singleton.mp id)
  · have hmem : w ∈ s.freed core b := List.mem_filter.mpr ⟨hw, by simp [hb, hcode]⟩
    obtain ⟨hput, hnone⟩ := hdone hmem (by unfold tokenWaits; rw [htake.2]; exact hr)
    have htask := task_setBarrier v core b x
    refine hlast.done_stays hr.2.1 ?_ (fun d _ hd => hnone d ?_)
    · unfold tokenDone
      rw [htask]
      exact hput
    · unfold tokenWaits at hd ⊢
      rwa [htask] at hd

/-- A wait for a phase that has not completed joins those that wait (R243). -/
theorem headReady.joinsWaiters (hr : headReady s core 4 c rest) {w : Waiter} (heff : (s.takeWait core c).headEffect core 4 c
      = some ((s.takeWait core c).onCtxSt core (fun k => { k with waiters := k.waiters ++ [w] }))) :
    ∃ t, exec (.evCommandHead core 4) s = .next t ∧ headLeft s t core 4 c rest ∧ keepsStore s t core ∧ (t.core core).t = (s.core core).t
      ∧ (∀ i, t.barrier core i = s.barrier core i) ∧ (t.core core).c.waiters = (s.core core).c.waiters ++ [w] := by
  have htake := leavesTask.takeWait s core c
  have hunits := takeWait_sameUnits s core c
  have hexec := hr.exec_some heff
  have hleft {v : State} := hr.left (by decide) (v := v)
  generalize s.takeWait core c = u at htake hunits hexec hleft
  have hwork := headWork.onCtxSt u core (f := fun k => { k with waiters := k.waiters ++ [w] }) rfl rfl
  have hbar := barrier_onCtxSt u core (f := fun k => { k with waiters := k.waiters ++ [w] }) rfl
  have hcore := State.core_onCtxSt_self u core (fun k => { k with waiters := k.waiters ++ [w] })
  generalize u.onCtxSt core (fun k => { k with waiters := k.waiters ++ [w] }) = v at hexec hwork hbar hcore
  have hgone := headTaken_sameUnits (by decide : 4 ≠ 3) v core c
  refine ⟨_, hexec, hleft (hwork.tends.now_eq.trans htake.1.now_eq) hwork.units,
    (htake.1.trans (hwork.tends.trans (headTaken_tends (by decide) v core c))).keepsStore, ?_, fun i => ?_, ?_⟩
  · rw [headTaken_sameTask (by decide), hcore]
    exact htake.2
  · rw [hgone.barrier, hbar, hunits.barrier]
  · rw [hgone.2.2.1, hcore, ← hunits.2.2.1]

/-! ### A remote arrival (R234, R242) -/

/-- The record an arrival at a free barrier is told by. -/
def arrivalInfo (src : SigSrc) : RecInfo :=
  { unit := 0x28, grp := src.grp, task := src.task, coord := src.coord, bundle := src.bundle.toNat, opid := src.opid.toNat }

theorem arrive_free {b : Nat} (hx : (u.barrier core b).st = 0) (n : Nat) (r : RecInfo) :
    u.arrive core b n r = u.notice (u.ctxOf core) { r with code := Code.barrierPoisoned, detail := b } := by
  unfold State.arrive
  simp only [hx]

theorem arrive_poisoned {b : Nat} (hx : 2 ≤ (u.barrier core b).st) (n : Nat) (r : RecInfo) : u.arrive core b n r = u := by
  unfold State.arrive
  dsimp only
  split
  · omega
  · omega
  · rfl

theorem Barrier.overruns_iff (x : Barrier) (a : Nat) : x.overruns a = true ↔ (x.posted = true ∧ x.expected < a) ∨ 2 ^ 48 - 1 < a := by
  simp only [Barrier.overruns, Bool.or_eq_true, Bool.and_eq_true, decide_eq_true_eq]

/-! ### Declared buffers (R236, R238, R239, R244) -/

theorem buffer_onBuffer (u : State) (core k : Nat) (f : Buffer → Buffer) (i : Nat) :
    (u.onBuffer core k f).buffer core i = if i = k then f (u.buffer core k) else u.buffer core i := by
  unfold State.onBuffer State.buffer
  rw [State.core_onCtxSt_self]
  split
  · next hi =>
    subst hi
    exact NMap.get_set_self _ _ _ _
  · next hi => exact NMap.get_set_ne _ _ _ _ _ hi

theorem headWork.onBuffer (u : State) (core k : Nat) (f : Buffer → Buffer) : headWork u (u.onBuffer core k f) core [] :=
  .onCtxSt u core (f := fun c => { c with buf := NMap.set c.buf k (f (NMap.get {} c.buf k)) }) rfl rfl

theorem Buffer.covers_iff (x : Buffer) (a n : Nat) : x.covers a n = true ↔ x.v = true ∧ meet a n x.base x.size := by
  unfold Buffer.covers meet
  rw [Bool.and_eq_true, decide_eq_true_eq]
  refine and_congr_right fun _ => ⟨fun h => ⟨max a x.base, by omega⟩, fun ⟨y, h⟩ => by omega⟩

/-- What `BUFDECL` checks, in order (R244). -/
def State.bufUsed (s : State) (core k : Nat) : Prop := (s.buffer core k).v = true ∧ (s.buffer core k).use ≠ 0
def State.bufOver (s : State) (core k base size : Nat) : Prop :=
  0x300000 < base + size ∨ ∃ i v, (i, v) ∈ (s.core core).c.buf ∧ i ≠ k ∧ v.v = true ∧ meet base size v.base v.size

theorem bufOver_iff (s : State) (core k base size : Nat) : s.bufOver core k base size
    ↔ 0x300000 < base + size ∨ ((s.core core).c.buf.filter (fun kb => kb.1 != k)).any (fun kb => kb.2.covers base size) = true := by
  unfold State.bufOver
  simp only [List.any_eq_true, List.mem_filter, bne_iff_ne, ne_eq, Buffer.covers_iff, Prod.exists, and_assoc]

variable {k : BitVec 5} {bs sz : Opd} {tag st : BitVec 3} {force : Bool}

theorem bufdecl_fault {code : Nat} (hi : c.ins = .bufdecl h k bs sz tag)
    (hf : u.declFault core k.toNat (c.vals.getD 0 0).toNat (c.vals.getD 1 0).toNat = some code) :
    u.headEffect core 4 c = some (u.endCmd core c code 0 true) := by
  show u.syncHead core c = _
  unfold State.syncHead State.bufHead
  simp only [hi, hf]

theorem bufdecl_declares (hi : c.ins = .bufdecl h k bs sz tag)
    (hf : u.declFault core k.toNat (c.vals.getD 0 0).toNat (c.vals.getD 1 0).toNat = none) :
    u.headEffect core 4 c
      = some ((u.declare core k.toNat (c.vals.getD 0 0).toNat (c.vals.getD 1 0).toNat tag.toNat).endCmd core c 0 0 true) := by
  show u.syncHead core c = _
  unfold State.syncHead State.bufHead
  simp only [hi, hf]

theorem declFault_used {base size : Nat} (hu : u.bufUsed core k.toNat) : u.declFault core k.toNat base size = some Code.bufferState := if_pos hu

theorem declFault_odd {base size : Nat} (hu : ¬ u.bufUsed core k.toNat) (ho : base % 64 ≠ 0 ∨ size % 64 ≠ 0) :
    u.declFault core k.toNat base size = some Code.align := (if_neg hu).trans (if_pos ho)

theorem declFault_over {base size : Nat} (hu : ¬ u.bufUsed core k.toNat) (ho : ¬ (base % 64 ≠ 0 ∨ size % 64 ≠ 0))
    (hv : u.bufOver core k.toNat base size) : u.declFault core k.toNat base size = some Code.shapeBounds :=
  (if_neg hu).trans ((if_neg ho).trans (if_pos ((bufOver_iff u core k.toNat base size).mp hv)))

theorem declFault_none {base size : Nat} (hu : ¬ u.bufUsed core k.toNat) (ho : ¬ (base % 64 ≠ 0 ∨ size % 64 ≠ 0))
    (hv : ¬ u.bufOver core k.toNat base size) : u.declFault core k.toNat base size = none :=
  (if_neg hu).trans ((if_neg ho).trans (if_neg (fun hx => hv ((bufOver_iff u core k.toNat base size).mpr hx))))

theorem bufMoves_iff (cur : Nat) (st : BitVec 3) (force : Bool) :
    bufMoves cur st.toNat force = true ↔ (force = true ∧ st = 0) ∨ st.toNat = (cur + 1) % 4 := by
  have hz : st.toNat = 0 ↔ st = 0 := ⟨fun h => BitVec.eq_of_toNat_eq h, fun h => h ▸ rfl⟩
  simp only [bufMoves, Bool.or_eq_true, Bool.and_eq_true, beq_iff_eq, hz]

theorem bufset_refused (hi : c.ins = .bufset h k st force)
    (hx : (u.buffer core k.toNat).v = false ∨ ((u.buffer core k.toNat).use = 0 ∧ bufMoves (u.buffer core k.toNat).st st.toNat force = false)) :
    u.headEffect core 4 c = some (u.endCmd core c Code.bufferState 0 true) := by
  show u.syncHead core c = _
  unfold State.syncHead State.bufHead
  simp only [hi]
  obtain hv | ⟨huse, hm⟩ := hx
  · simp [hv]
  · simp [huse, hm]

theorem bufset_waits (hi : c.ins = .bufset h k st force) (hv : (u.buffer core k.toNat).v = true) (hx : (u.buffer core k.toNat).use ≠ 0) :
    u.headEffect core 4 c = none := by
  show u.syncHead core c = _
  unfold State.syncHead State.bufHead
  simp only [hi]
  simp [hv, hx]

theorem bufset_moves (hi : c.ins = .bufset h k st force) (hv : (u.buffer core k.toNat).v = true) (hx : (u.buffer core k.toNat).use = 0)
    (hm : bufMoves (u.buffer core k.toNat).st st.toNat force = true) :
    u.headEffect core 4 c = some ((u.onBuffer core k.toNat (fun x => { x with st := st.toNat })).endCmd core c 0 0 true) := by
  show u.syncHead core c = _
  unfold State.syncHead State.bufHead
  simp only [hi]
  simp [hv, hx, hm]

variable {s : State} {rest : List Cmd} {code : Nat}

theorem headReady.bufMoved (hr : headReady s core 4 c rest) {i : Nat} {y : Buffer} (hv : headWork (s.takeWait core c) v core [])
    (hb : ∀ j, v.buffer core j = if j = i then y else (s.takeWait core c).buffer core j)
    (heff : (s.takeWait core c).headEffect core 4 c = some (v.endCmd core c code 0 true)) :
    ∃ t, exec (.evCommandHead core 4) s = .next t ∧ headDone s t core 4 c rest code 0 ∧ keepsStore s t core
      ∧ tokensOnly s t core [c] ∧ ∀ j, t.buffer core j = if j = i then y else s.buffer core j := by
  refine hr.endsAlone (.inl rfl) hv heff (fun t ht _ _ j => ?_)
  rw [ht.buffer, hb, (takeWait_sameUnits s core c).buffer]

theorem headReady.bufKept (hr : headReady s core 4 c rest) (i : Nat)
    (heff : (s.takeWait core c).headEffect core 4 c = some ((s.takeWait core c).endCmd core c code 0 true)) :
    ∃ t, exec (.evCommandHead core 4) s = .next t ∧ headDone s t core 4 c rest code 0 ∧ keepsStore s t core
      ∧ tokensOnly s t core [c] ∧ ∀ j, t.buffer core j = if j = i then s.buffer core i else s.buffer core j := by
  refine hr.bufMoved (.refl _ core) (fun j => ?_) heff
  split
  · next hj => rw [hj, (takeWait_sameUnits s core c).buffer]
  · rfl

theorem takeWait_bufOver (s : State) (core : Nat) (c : Cmd) (i base size : Nat) :
    (s.takeWait core c).bufOver core i base size ↔ s.bufOver core i base size := by
  unfold State.bufOver
  rw [(takeWait_sameUnits s core c).2.1]

theorem takeWait_bufUsed (s : State) (core : Nat) (c : Cmd) (i : Nat) : (s.takeWait core c).bufUsed core i ↔ s.bufUsed core i := by
  unfold State.bufUsed
  rw [(takeWait_sameUnits s core c).buffer]

end Sys2Proof.Machine
end

section
/-!
PROOF. The operation commands at their heads (R196, R202, R203): an identifier that no operation has, or none the task may name, and the effect
on one that it may.
-/

namespace Sys2Proof.Machine

variable {s u v : State} {core : Nat} {c : Cmd} {h : CmdHdr} {o : Opd} {k : Nat} {z : Op}

/-! ### What the command names (R186, R195, R202) -/

theorem tends.liveOp_eq (ht : tends s u core) (x : Word) : u.liveOp x = s.liveOp x := by
  unfold State.liveOp State.op?
  rw [ht.ops_eq]

theorem tends.justEnded_eq (ht : tends s u core) (x : Word) : u.justEnded x = s.justEnded x := by
  obtain ⟨⟨_, _, _, _, _, rfl⟩, -⟩ := ht
  rfl

theorem takeWait_ctxOf (s : State) (core : Nat) (c : Cmd) : (s.takeWait core c).ctxOf core = s.ctxOf core := by
  obtain h | ⟨sem, h⟩ := s.takeWait_shape core c <;> rw [h]
  unfold State.ctxOf
  rw [State.core_onCtxSt_self]

/-- Whether the command's task owns an operation, and whether its group or its context does. -/
def Op.mine (z : Op) (c : Cmd) : Prop := z.owner = 0 ∧ z.grp = c.grp ∧ z.idx = c.idx
def Op.above (z : Op) (c : Cmd) : Prop := (z.owner = 1 ∧ z.grp = c.grp) ∨ z.owner = 2

theorem Op.ofTask_iff (z : Op) (c : Cmd) : z.ofTask c = true ↔ z.mine c := by
  simp only [Op.ofTask, Op.mine, Bool.and_eq_true, beq_iff_eq, and_assoc]

theorem Op.ofLevel_iff (z : Op) (c : Cmd) : z.ofLevel c = true ↔ z.above c := by
  simp only [Op.ofLevel, Op.above, Bool.or_eq_true, Bool.and_eq_true, beq_iff_eq]

theorem mayName_cancel (hi : c.ins = .opcancel h o) : z.mayName c = true ↔ z.mine c ∨ z.above c := by
  simp only [Op.mayName, hi, Bool.or_eq_true, Op.ofTask_iff, Op.ofLevel_iff]

theorem mayName_detach (hi : c.ins = .opdetach h o) : z.mayName c = true ↔ z.mine c := by
  simp only [Op.mayName, hi, Op.ofTask_iff]

theorem mayName_adopt (hi : c.ins = .opadopt h o) : z.mayName c = true ↔ z.det = true ∧ z.above c := by
  simp only [Op.mayName, hi, Bool.and_eq_true, Op.ofLevel_iff]

theorem mayName_any (hi : c.ins = .opwait h o ∨ c.ins = .opquery h o) : z.mayName c = true := by
  obtain hi | hi := hi <;> simp only [Op.mayName, hi]

theorem opHead_stale (hl : u.liveOp (c.vals.getD 0 0) = none) (hj : u.justEnded (c.vals.getD 0 0) = none) :
    u.headEffect core 5 c = some (u.endCmd core c Code.opTokenInvalid 0 true) := by
  show some (u.opHead core c) = _
  unfold State.opHead
  simp only [hl, hj]
  split
  · next hx => cases hx
  · rfl

theorem opHead_named (hl : u.liveOp (c.vals.getD 0 0) = some k) (ho : u.op? k = some z) (hc : z.ctx = u.ctxOf core) (hm : z.mayName c = true) :
    u.headEffect core 5 c = some (u.opEffect core k c z) := by
  have hop : u.op k = z := by rw [State.op, NMap.get_eq_find, show NMap.find u.ops k = some z from ho]; rfl
  show some (u.opHead core c) = _
  unfold State.opHead
  simp only [hl, hop, hc, hm, BEq.rfl, Bool.and_self, if_true]

theorem opHead_refused (hl : u.liveOp (c.vals.getD 0 0) = some k) (ho : u.op? k = some z) (hm : ¬ z.mayName c = true) :
    u.headEffect core 5 c = some (u.endCmd core c Code.opTokenInvalid 0 true) := by
  have hop : u.op k = z := by rw [State.op, NMap.get_eq_find, show NMap.find u.ops k = some z from ho]; rfl
  show some (u.opHead core c) = _
  unfold State.opHead
  simp only [hl, hop, Bool.not_eq_true _ ▸ hm, Bool.and_false, Bool.false_eq_true, if_false]

/-! ### What each command does to an operation it may name (R202, R203) -/

/-- The detail of `OPQUERY`, with the code of a state. -/
theorem queryDetail_eq (z : Op) {n : Nat} (hn : z.st.code = n) : z.queryDetail = n + z.owner * 2 ^ 3 + (if z.det then 2 ^ 5 else 0)
    + (if z.ord then 2 ^ 6 else 0) + z.prio * 2 ^ 7 + (if z.st = .done then z.code * 2 ^ 10 else 0) + z.prog % 2 ^ 30 * 2 ^ 18 := by
  subst hn
  simp only [Op.queryDetail, beq_iff_eq]

theorem onOp_some (ho : u.op? k = some z) (f : Op → Op) : ∃ os, u.onOp k f = { u with ops := os } ∧ NMap.find os k = some (f z) := by
  unfold State.onOp
  simp only [ho]
  exact ⟨_, rfl, NMap.find_set_self _ _ _⟩

theorem opEffect_query (hi : c.ins = .opquery h o) : u.opEffect core k c z = u.endCmd core c 0 z.queryDetail true := by
  simp only [State.opEffect, hi]

theorem opEffect_cancel_done (hi : c.ins = .opcancel h o) (hz : z.st = .done) : u.opEffect core k c z = u.endCmd core c 0 (z.code + 2 ^ 8) true := by
  simp [State.opEffect, hi, hz]

theorem opEffect_detach_late (hi : c.ins = .opdetach h o) (hz : z.st = .done ∨ z.det = true) : u.opEffect core k c z = u.endCmd core c 0 (2 ^ 8) true := by
  simp [State.opEffect, hi, hz]

theorem opEffect_collects (hi : c.ins = .opwait h o ∨ c.ins = .opadopt h o) (hz : z.st = .done) : u.opEffect core k c z = u.collect core k c z := by
  obtain hi | hi := hi <;> simp [State.opEffect, hi, hz]

theorem opEffect_waits (hi : c.ins = .opwait h o) (hz : z.st ≠ .done) : u.opEffect core k c z = u.waitOp core 0 k c := by
  simp [State.opEffect, hi, hz]

theorem opEffect_adopts (hi : c.ins = .opadopt h o) (hz : z.st ≠ .done) : u.opEffect core k c z
    = (u.onOp k (fun o => { o with owner := 0, det := false, grp := c.grp, idx := c.idx, ownCore := core })).waitOp core 2 k c := by
  simp [State.opEffect, hi, hz]

/-- An operation is detached: no register waits for it from then on. -/
def State.detached (s : State) (k : Nat) (z : Op) : State :=
  match z.cmd.tok with
  | some r => (s.onOp k (fun o => { o with det := true })).onOwner z.core z.cmd.grp z.cmd.idx (fun t => t.dropToken r (.op k))
  | none => s.onOp k (fun o => { o with det := true })

theorem opEffect_detaches (hi : c.ins = .opdetach h o) (hz : z.st ≠ .done) (hd : z.det = false) :
    u.opEffect core k c z = (u.detached k z).endCmd core c 0 0 true := by
  unfold State.opEffect State.detached
  simp only [hi]
  refine (if_neg (by simp [hz, hd])).trans ?_
  cases z.cmd.tok <;> rfl

/-! ### A command that takes an operation's status, and one that waits for it (R196, R202) -/

theorem headReady.collects {unit : Nat} {rest : List Cmd} (hr : headReady s core unit c rest) (hu : unit ≠ 3)
    (heff : (s.takeWait core c).headEffect core unit c = some ((s.takeWait core c).collect core k c z)) :
    ∃ t, exec (.evCommandHead core unit) s = .next t ∧ headLeft s t core unit c rest ∧ t.op? k = none
      ∧ ∀ r, tokenWaits s core c r → tokenDone t core r z.code z.unit z.detail := by
  have htake := leavesTask.takeWait s core c
  have hexec := hr.exec_some heff
  generalize hu' : s.takeWait core c = u at htake hexec
  obtain ⟨v, po, hput, hcol, hdone⟩ : ∃ v po, answers u v core [c] ∧ u.collect core k c z = { v with posted := po, ops := NMap.erase v.ops k }
      ∧ ∀ r, tokenWaits u core c r → tokenDone v core r z.code z.unit z.detail := by
    obtain ⟨po, hv, -⟩ := (u.tokenSet core c (statusWord z.code z.unit z.detail)).signal_head core c
    refine ⟨_, po, answers.tokenSet u core c (statusWord z.code z.unit z.detail), ?_, fun r hw => tokenSet_done hw _⟩
    exact congrArg (State.freeOp · k) hv
  have hops := (headTaken_tends hu (u.collect core k c z) core c).ops_eq
  have hcore : (u.collect core k c z).core core = v.core core := by rw [hcol]; rfl
  refine ⟨_, hexec, hr.left hu ?_ ?_, ?_, fun r hw => ?_⟩
  · rw [hcol]
    exact (hput.tends.now_eq).trans htake.1.now_eq
  · rw [hu']
    exact hput.keepsUnits.trans (State.keepsUnits_of_core (congrArg Core.c hcore))
  · refine (congrArg (NMap.find · k) hops).trans ?_
    rw [hcol]
    exact NMap.find_erase_self _ _
  · have hdone := hdone r (by unfold tokenWaits; rw [htake.2]; exact hw)
    unfold tokenDone
    rw [headTaken_sameTask hu, hcore]
    exact hdone

theorem headReady.waits {unit : Nat} {rest : List Cmd} (hr : headReady s core unit c rest) (hu : unit ≠ 3) {kind : Nat} {os : NMap Op}
    (heff : (s.takeWait core c).headEffect core unit c = some (State.waitOp { s.takeWait core c with ops := os } core kind k c)) :
    ∃ t, exec (.evCommandHead core unit) s = .next t ∧ headLeft s t core unit c rest ∧ t.ops = os
      ∧ (t.core core).c.opWaits = (s.core core).c.opWaits ++ [(kind, k, c)] ∧ (t.core core).t = (s.core core).t := by
  have htake := leavesTask.takeWait s core c
  obtain ⟨-, -, -, hwaits⟩ := takeWait_sameUnits s core c
  have hexec := hr.exec_some heff
  have hleft {v : State} := hr.left hu (v := v)
  generalize s.takeWait core c = u at htake hwaits hexec hleft
  have hwork := headWork.onCtxSt { u with ops := os } core (f := fun x => { x with opWaits := x.opWaits ++ [(kind, k, c)] }) rfl rfl
  have hcore := State.core_onCtxSt_self { u with ops := os } core (fun x => { x with opWaits := x.opWaits ++ [(kind, k, c)] })
  have hops := hwork.tends.ops_eq
  change headWork { u with ops := os } (State.waitOp { u with ops := os } core kind k c) core [] at hwork
  change (State.waitOp { u with ops := os } core kind k c).core core = _ at hcore
  change (State.waitOp { u with ops := os } core kind k c).ops = os at hops
  generalize State.waitOp { u with ops := os } core kind k c = v at hexec hwork hcore hops
  obtain ⟨-, -, -, hgone⟩ := headTaken_sameUnits hu v core c
  refine ⟨_, hexec, hleft (hwork.tends.now_eq.trans htake.1.now_eq) hwork.units, ?_, ?_, ?_⟩
  · exact (headTaken_tends hu v core c).ops_eq.trans hops
  · rw [hgone, hcore, ← hwaits]
    rfl
  · rw [headTaken_sameTask hu, hcore]
    exact htake.2

/-! ### A detached operation (R202) -/

theorem TaskSt.dropToken_other (t : TaskSt) (r : Nat) (o : TokOwner) : (t.dropToken r o).mode = t.mode ∧ (t.dropToken r o).grp = t.grp
    ∧ (t.dropToken r o).idx = t.idx ∧ (∀ j, (t.dropToken r o).scalar j = t.scalar j)
    ∧ ∀ j, NMap.find t.tokOwner j ≠ some o → NMap.find (t.dropToken r o).tokOwner j = NMap.find t.tokOwner j := by
  unfold TaskSt.dropToken
  split
  · next hr =>
    refine ⟨rfl, rfl, rfl, fun _ => rfl, fun j hj => NMap.find_erase_ne _ _ _ ?_⟩
    rintro rfl
    exact hj hr
  · exact ⟨rfl, rfl, rfl, fun _ => rfl, fun _ _ => rfl⟩

theorem State.onOwner_core_ne (s : State) {core n : Nat} (hn : core ≠ n) (gk i : Nat) (f : TaskSt → TaskSt) :
    (s.onOwner n gk i f).core core = s.core core := State.core_onCore_ne s n core _ hn

/-- What a detached operation leaves of a core: at most, a register of the task there waits for it no more. -/
theorem detached_core (u : State) (k : Nat) (z : Op) (core : Nat) : u.keepsUnits (u.detached k z) core
    ∧ (((u.detached k z).core core).t = (u.core core).t ∨ ∃ r, ((u.detached k z).core core).t = (u.core core).t.dropToken r (.op k)) := by
  have hcore := core_of_cores (u.onOp_cores k (fun o => { o with det := true })) core
  have hunits := State.keepsUnits_of_core (congrArg Core.c hcore)
  unfold State.detached
  split
  · next r hr =>
    by_cases hc : core = z.core
    · subst hc
      refine ⟨hunits.trans (State.keepsUnits_onOwner _ _ _ _ _), ?_⟩
      rw [State.onOwner_task, hcore]
      split
      · exact .inr ⟨r, rfl⟩
      · exact .inl rfl
    · have hsame := (State.onOwner_core_ne _ hc z.cmd.grp z.cmd.idx (fun t => t.dropToken r (.op k))).trans hcore
      exact ⟨State.keepsUnits_of_core (congrArg Core.c hsame), .inl (congrArg Core.t hsame)⟩
  · exact ⟨hunits, .inl (congrArg Core.t hcore)⟩

theorem detached_drops {r : Nat} (hr : z.cmd.tok = some r) (hc : z.core = core) (ht : (u.core core).t.isTask z.cmd.grp z.cmd.idx = true) :
    ((u.detached k z).core core).t = (u.core core).t.dropToken r (.op k) := by
  have hcore := core_of_cores (u.onOp_cores k (fun o => { o with det := true })) core
  subst hc
  unfold State.detached
  simp only [hr]
  rw [State.onOwner_task, hcore, if_pos ht]

theorem detached_op (ho : u.op? k = some z) : (u.detached k z).op? k = some { z with det := true } ∧ (u.detached k z).now = u.now := by
  unfold State.detached
  split
  · exact ⟨State.op_onOp_self u k _ z ho, u.onOp_now k _⟩
  · exact ⟨State.op_onOp_self u k _ z ho, u.onOp_now k _⟩

/-- A token that waits for a command goes on to do so when one that waits for an operation is dropped. -/
theorem detached_waits (u : State) (k : Nat) (z : Op) {r : Nat} (hw : tokenWaits u core c r) : tokenWaits (u.detached k z) core c r := by
  obtain ⟨-, ht | ⟨j, ht⟩⟩ := detached_core u k z core
  · unfold tokenWaits
    rw [ht]
    exact hw
  · obtain ⟨htok, hlt, hon, hown⟩ := hw
    obtain ⟨hm, hg, hi, -, hkeep⟩ := (u.core core).t.dropToken_other j (.op k)
    refine ⟨htok, hlt, ?_, ?_⟩
    · rw [ht]
      unfold TaskSt.isTask at hon ⊢
      rw [hm, hg, hi]
      exact hon
    · rw [ht, hkeep r (by rw [hown]; exact nofun)]
      exact hown

/-- A register in which no command's completion is due stays as it is when one completes. -/
theorem endCmd_other (v : State) (core : Nat) (c : Cmd) (code detail : Nat) {r : Nat}
    (h : NMap.find (v.core core).t.tokOwner r ≠ some (.cmd c.serial)) :
    ((v.endCmd core c code detail true).core core).t.scalar r = (v.core core).t.scalar r
      ∧ NMap.get false ((v.endCmd core c code detail true).core core).t.pend r = NMap.get false (v.core core).t.pend r := by
  rw [endCmd_task]
  unfold State.tokenPut
  split
  · rw [State.onOwner_task]
    split
    · next j _ _ =>
      obtain ⟨hs, hp, -⟩ := (v.core core).t.endToken_other j (.cmd c.serial) (statusWord code c.ins.unitCode detail) v.now (fun _ => h)
      exact ⟨hs, hp⟩
    · exact ⟨rfl, rfl⟩
  · exact ⟨rfl, rfl⟩

theorem headReady.detaches {rest : List Cmd} (hr : headReady s core 5 c rest) (ho : s.op? k = some z)
    (heff : (s.takeWait core c).headEffect core 5 c = some (((s.takeWait core c).detached k z).endCmd core c 0 0 true)) :
    ∃ t, exec (.evCommandHead core 5) s = .next t ∧ headDone s t core 5 c rest 0 0 ∧ t.op? k = some { z with det := true }
      ∧ ∀ r, z.cmd.tok = some r → z.core = core → (s.core core).t.isTask z.cmd.grp z.cmd.idx = true →
          NMap.find (s.core core).t.tokOwner r = some (.op k) →
          (t.core core).t.scalar r = (s.core core).t.scalar r ∧ NMap.get false (t.core core).t.pend r = false := by
  have htake := leavesTask.takeWait s core c
  have hdone {v : State} := hr.done (.inr rfl) (v := v) (code := 0) (detail := 0)
  have hexec := hr.exec_some heff
  have ho' : (s.takeWait core c).op? k = some z := (congrArg (NMap.find · k) htake.1.ops_eq).trans ho
  generalize s.takeWait core c = u at htake hdone hexec ho'
  obtain ⟨hop, hnow⟩ := detached_op ho'
  obtain ⟨hunits, -⟩ := detached_core u k z core
  have hwaits (r : Nat) (hw : tokenWaits s core c r) : tokenWaits (u.detached k z) core c r :=
    detached_waits u k z (by unfold tokenWaits; rw [htake.2]; exact hw)
  have hlast := (headTaken_tends (by decide : 5 ≠ 3) ((u.detached k z).endCmd core c 0 0 true) core c).ops_eq
  have hend := (answers.endCmd (u.detached k z) core c 0 0).tends.ops_eq
  refine ⟨_, hexec, hdone (hnow.trans htake.1.now_eq) hunits hwaits, (congrArg (NMap.find · k) (hlast.trans hend)).trans hop,
    fun r htok hc ht hown => ?_⟩
  have hdrop := detached_drops (u := u) (k := k) htok hc (by rw [htake.2]; exact ht)
  rw [htake.2, TaskSt.dropToken, if_pos hown] at hdrop
  obtain ⟨hs, hp⟩ := endCmd_other (u.detached k z) core c 0 0 (r := r) (by rw [hdrop]; exact (NMap.find_erase_self _ _).symm ▸ nofun)
  rw [headTaken_sameTask (by decide), hs, hp, hdrop]
  exact ⟨rfl, NMap.get_erase_self _ _ _⟩

end Sys2Proof.Machine

open Sys2Proof Sys2Proof.Machine

/-- Settles O50: a head's effect is one function of its command, and what a command leaves that completes at its head is said once. -/
theorem headEvents : Obligations.HeadEvents := by
  intro s core unit c rest h b os x n a1 ends alone again sameBar isBar tested poisoned answered
  refine ⟨fun d ds hu hq hm => ⟨fun hlt => ?_, fun hle hw => ?_⟩, fun hr => ?_, fun bar w src => ?_⟩
  · exact (exec_unitHead hu s core).trans (congrArg Host.Outcome.next (unitHead_early hq hlt))
  · exact (exec_unitHead hu s core).trans (congrArg Host.Outcome.next (unitHead_waits hq hm hle hw))
  · have hunits := takeWait_sameUnits s core c
    have hbar := hunits.barrier b.toNat
    have hfour {i : Instr} (hi : c.ins = i) (hu : i.cmdUnit = 4) : unit = 4 := by
      obtain ⟨-, rfl, -⟩ := hr
      rw [hi, hu]
    have hfive {i : Instr} (hi : c.ins = i) (hu : i.cmdUnit = 5) : unit = 5 := by
      obtain ⟨-, rfl, -⟩ := hr
      rw [hi, hu]
    refine ⟨fun hi => ?binit, fun hi => ?free, fun hi => ?clear, fun o e k p hx hk => ⟨fun hi => ?blocked, fun hi => ?waitBlocked⟩,
      fun o hi hx => ?expect, fun o e hi hx => ?arrive, fun o e hi => ?remote, fun p hi hx => ?wait,
      fun k o p tag hi => ?decl, fun k st force hi => ?bufset, fun o hi hl hj => ?stale, fun o k z hl ho hc => ?live⟩
    case binit =>
      obtain rfl := hfour hi rfl
      exact hr.barFreed (binit_effect hi)
    case free =>
      obtain rfl := hfour hi rfl
      exact hr.barFreed (bclear_free_effect hi)
    case clear =>
      obtain rfl := hfour hi rfl
      obtain ⟨v, hwork, hb, heff⟩ := bclear_effect (u := s.takeWait core c) (core := core) hi
      rw [hbar] at hb
      exact hr.barMoved hwork hb heff
    case blocked =>
      have hblocks : ((s.takeWait core c).barrier core b.toNat).blocks = some k := by rw [hbar, Barrier.blocks_some hx, hk]
      obtain hi | hi := hi
      · obtain rfl := hfour hi rfl
        exact hr.barSame (bexpect_blocked hi hblocks)
      · obtain rfl := hfour hi rfl
        exact hr.barSame (barrive_blocked hi hblocks)
    case waitBlocked =>
      obtain rfl := hfour hi rfl
      have hblocks : ((s.takeWait core c).barrier core b.toNat).blocks = some k := by rw [hbar, Barrier.blocks_some hx, hk]
      have heff := bwait_blocked hi hblocks
      rw [hbar] at heff
      exact hr.barSame (detail := if p = none then x.phase else n % 65536) (by cases p <;> exact heff)
    case expect =>
      obtain rfl := hfour hi rfl
      have hx' : ((s.takeWait core c).barrier core b.toNat).st = 1 := by rw [hbar]; exact hx
      refine ⟨fun ho => ?_, fun ho => ?_⟩
      · have hmoves := barMoves.poisonBarrier hx' Code.barrierOverrun
        have heff := bexpect_over hi hx' (by rw [hbar]; exact ho)
        rw [hbar] at hmoves
        exact hr.barTested hmoves heff
      · have hmoves := barMoves.setBarrier (s.takeWait core c) core b.toNat { x with expected := n, posted := true }
        have heff := bexpect_sets hi hx' (by rw [hbar]; exact ho)
        rw [hbar] at heff
        exact hr.barTested hmoves heff
    case arrive =>
      obtain rfl := hfour hi rfl
      have hx' : ((s.takeWait core c).barrier core b.toNat).st = 1 := by rw [hbar]; exact hx
      have hmoves := barMoves.arrive hx' n (c.info core)
      rw [hbar] at hmoves
      have hdone := hr.barTested hmoves (barrive_active hi hx')
      refine ⟨fun ho => ?_, fun ho => ?_⟩
      · rwa [Barrier.arrives, if_pos ((x.overruns_iff _).mpr ho)] at hdone
      · rwa [Barrier.arrives, if_neg (fun hn => ho ((x.overruns_iff _).mp hn))] at hdone
    case remote =>
      obtain rfl := hfour hi rfl
      have hnow := (leavesTask.takeWait s core c).1.now_eq
      refine hr.endsAlone (.inl rfl) (.post _ core _ _) (barrive_remote hi) (fun t ht _ hpost => ⟨(hunits.trans ht).barrier, hpost _ ?_⟩)
      rw [← hnow]
      exact State.hasPosted_post (Nat.le_add_right _ 8) _
    case wait =>
      obtain rfl := hfour hi rfl
      intro ph d
      have hph : waitPhase ((s.takeWait core c).barrier core b.toNat) p n = ph := by
        rw [hbar]
        cases p <;> rfl
      have heff := bwait_active hi (Barrier.blocks_none (by rw [hbar]; exact hx)) hph
      rw [hbar, hunits.2.2.1] at heff
      have hphase : phaseDone x.phase ph = true ↔ 1 ≤ d ∧ d ≤ 0x7FFF := by
        rw [phaseDone, Bool.and_eq_true, decide_eq_true_eq, decide_eq_true_eq]
      refine ⟨fun h1 h2 => ?_, fun hd hlt => ?_, fun hd hfull => ?_⟩
      · exact hr.barSame (heff.trans (if_pos (hphase.mpr ⟨h1, h2⟩)))
      · exact hr.joinsWaiters (heff.trans ((if_neg (fun hp => by have := hphase.mp hp; omega)).trans (if_neg (Nat.not_le.mpr hlt))))
      · exact hr.exec_none (heff.trans ((if_neg (fun hp => by have := hphase.mp hp; omega)).trans (if_pos hfull)))
    case decl =>
      obtain rfl := hfour hi rfl
      intro y ovf used odd isBuf
      have hused := takeWait_bufUsed s core c k.toNat
      have hover := takeWait_bufOver s core c k.toNat n a1
      refine ⟨fun hu => ?_, fun hu ho => ?_, fun hu ho hv => ?_, fun hu ho hv => ?_⟩
      · exact hr.bufKept k.toNat (bufdecl_fault hi (declFault_used (hused.mpr hu)))
      · exact hr.bufKept k.toNat (bufdecl_fault hi (declFault_odd (fun h => hu (hused.mp h)) ho))
      · exact hr.bufKept k.toNat (bufdecl_fault hi (declFault_over (fun h => hu (hused.mp h)) ho (hover.mpr hv)))
      · have heff := bufdecl_declares hi (declFault_none (fun h => hu (hused.mp h)) ho (fun h => hv (hover.mp h)))
        exact hr.bufMoved (.onBuffer _ core _ _) (buffer_onBuffer _ core k.toNat _) heff
    case bufset =>
      obtain rfl := hfour hi rfl
      intro y moves isBuf
      have hy := hunits.buffer k.toNat
      have hmoves := bufMoves_iff y.st st force
      refine ⟨fun hv => ?_, fun hv huse => ?_, fun hv huse hm => ?_, fun hv huse hm => ?_⟩
      · exact hr.bufKept k.toNat (bufset_refused hi (.inl (by rw [hy]; exact hv)))
      · exact hr.exec_none (bufset_waits hi (by rw [hy]; exact hv) (by rw [hy]; exact huse))
      · exact hr.bufKept k.toNat (bufset_refused hi (.inr (by rw [hy]; exact ⟨huse, Bool.eq_false_iff.mpr (fun h => hm (hmoves.mp h))⟩)))
      · refine hr.bufMoved (.onBuffer _ core _ _) (fun j => ?_) (bufset_moves hi (by rw [hy]; exact hv) (by rw [hy]; exact huse)
          (by rw [hy]; exact hmoves.mpr hm))
        rw [buffer_onBuffer, hy]
    case stale =>
      have htake := (leavesTask.takeWait s core c).1
      obtain rfl : unit = 5 := by
        obtain hi | hi | hi | hi | hi := hi <;> exact hfive hi rfl
      exact hr.endsAlone (.inr rfl) (.refl _ core) (opHead_stale ((htake.liveOp_eq _).trans hl) ((htake.justEnded_eq _).trans hj)) (fun _ _ h _ => h)
    case live =>
      have htake := (leavesTask.takeWait s core c).1
      have hl' := (htake.liveOp_eq (c.vals.getD 0 0)).trans hl
      have ho' : (s.takeWait core c).op? k = some z := (congrArg (NMap.find · k) htake.ops_eq).trans ho
      have hnamed := opHead_named hl' ho' (hc.trans (takeWait_ctxOf s core c).symm)
      have hrefused := opHead_refused (core := core) hl' ho'
      have hends {code detail : Nat} (hr : headReady s core 5 c rest) (heff : (s.takeWait core c).headEffect core 5 c
          = some ((s.takeWait core c).endCmd core c code detail true)) :=
        hr.endsAlone (.inr rfl) (.refl _ core) heff (f := fun t => t.ops = s.ops) (fun _ _ h _ => h)
      intro mine above st
      refine ⟨fun hi => ?query, fun hi hm ha => ?cancelOther, fun hi hm hz => ?cancelDone, fun hi hm => ?detachOther, fun hi hm hz => ?detachLate,
        fun hi hm hz hd => ?detaches, fun hi hz => ?collects, fun hi hz => ?waits, fun hi hd ha hz => ?adopts⟩
      case query =>
        obtain rfl := hfive hi rfl
        have hst : z.st.code = st := rfl
        exact hends hr ((hnamed (mayName_any (.inr hi))).trans (congrArg some ((opEffect_query hi).trans (by rw [queryDetail_eq z hst]))))
      case cancelOther =>
        obtain rfl := hfive hi rfl
        exact hends hr (hrefused (fun h => ((mayName_cancel hi).mp h).elim hm ha))
      case cancelDone =>
        obtain rfl := hfive hi rfl
        exact hends hr ((hnamed ((mayName_cancel hi).mpr hm)).trans (congrArg some (opEffect_cancel_done hi hz)))
      case detachOther =>
        obtain rfl := hfive hi rfl
        exact hends hr (hrefused (fun h => hm ((mayName_detach hi).mp h)))
      case detachLate =>
        obtain rfl := hfive hi rfl
        exact hends hr ((hnamed ((mayName_detach hi).mpr hm)).trans (congrArg some (opEffect_detach_late hi hz)))
      case detaches =>
        obtain rfl := hfive hi rfl
        exact hr.detaches ho ((hnamed ((mayName_detach hi).mpr hm)).trans (congrArg some (opEffect_detaches hi hz hd)))
      case collects =>
        obtain hi | ⟨hi, hdet, ha⟩ := hi
        · obtain rfl := hfive hi rfl
          exact hr.collects (by decide) ((hnamed (mayName_any (.inl hi))).trans (congrArg some (opEffect_collects (.inl hi) hz)))
        · obtain rfl := hfive hi rfl
          exact hr.collects (by decide) ((hnamed ((mayName_adopt hi).mpr ⟨hdet, ha⟩)).trans (congrArg some (opEffect_collects (.inr hi) hz)))
      case waits =>
        obtain rfl := hfive hi rfl
        obtain ⟨t, hexec, hleft, hops, hwaits, htask⟩ := hr.waits (by decide) (os := (s.takeWait core c).ops)
          ((hnamed (mayName_any (.inl hi))).trans (congrArg some (opEffect_waits hi hz)))
        exact ⟨t, hexec, hleft, hops.trans htake.ops_eq, hwaits, htask⟩
      case adopts =>
        obtain rfl := hfive hi rfl
        obtain ⟨os, hos, hk⟩ := onOp_some ho' (fun o => { o with owner := 0, det := false, grp := c.grp, idx := c.idx, ownCore := core })
        have heff := (hnamed ((mayName_adopt hi).mpr ⟨hd, ha⟩)).trans (congrArg some (opEffect_adopts hi hz))
        rw [hos] at heff
        obtain ⟨t, hexec, hleft, hops, hwaits, htask⟩ := hr.waits (by decide) heff
        exact ⟨t, hexec, hleft, (congrArg (NMap.find · k) hops).trans hk, hwaits, htask⟩
  · intro i y a ovf
    refine ⟨_, rfl, fun hx => arrive_free hx _ (arrivalInfo src), fun hx => ?_, fun hx => arrive_poisoned hx _ _⟩
    obtain ⟨hwork, hb, hposted, htask⟩ := barMoves.arrive (core := core) (b := i) hx w.toNat (arrivalInfo src)
    refine ⟨hwork.tends.keepsStore, htask, hposted, fun j => (hb j).trans ?_⟩
    have harr : y.arrives w.toNat = if ovf then y.poisoned else { y with arrived := a } := by
      by_cases ho : ovf
      · rw [Barrier.arrives, if_pos ((y.overruns_iff _).mpr ho), if_pos ho]
      · rw [Barrier.arrives, if_neg (fun h => ho ((y.overruns_iff _).mp h)), if_neg ho]
    rw [harr]
    rfl

end

section
/-!
PROOF. One step of the machine: the entry that is due is performed (R385).
-/

open Sys2Proof Sys2Proof.Machine

/-- Settles O4: the first entry of the agenda is performed at its cycle, and an event of the opcode table by `exec`. -/
theorem stepPerformsEvent : Obligations.StepPerformsEvent := by
  intro s d i rest hagenda hwf
  have hperform (u : State) : u.perform exec (.ev i) = exec i u := if_pos hwf
  rw [step, hagenda]
  exact congrArg (settleOutcome (max s.now d)) (hperform _)

end

section
/-!
PROOF. The BR bay's semaphores and traps (R112 to R114, R230, R231).
-/

namespace Sys2Proof.Machine

/-! ### The semaphores of a core -/

/-- Tests of listed tasks are posted, and nothing else happens. -/
theorem wakeListed_posts (s : State) (core : Nat) : ∃ po, s.wakeListed core = { s with posted := po } := by
  unfold State.wakeListed
  have hposts {α : Type} (f : State → α → State) (hf : ∀ (u : State) a, ∃ po, f u a = { u with posted := po }) (l : List α) (u : State) :
      ∃ po, l.foldl f u = { u with posted := po } := by
    induction l generalizing u with
    | nil => exact ⟨_, rfl⟩
    | cons a l ih =>
      obtain ⟨po, h⟩ := hf u a
      rw [List.foldl_cons, h]
      exact ih _
  refine hposts _ (fun u kg => hposts _ (fun u i => ?_) _ u) _ s
  split
  · split
    · split
      · exact ⟨_, rfl⟩
      · exact ⟨_, rfl⟩
    · exact ⟨_, rfl⟩
  · exact ⟨_, rfl⟩

theorem sem_setSem (s : State) (core i v j : Nat) : (s.setSem core i v).sem core j = if j = i then v else s.sem core j := by
  rw [State.sem, State.setSem, State.core_onCtxSt_self]
  by_cases h : j = i
  · rw [if_pos h, h]
    exact NMap.get_put_self _ _ _ _
  · rw [if_neg h]
    exact NMap.get_put_ne _ _ _ _ _ h

theorem onlySems.refl (s : State) (core : Nat) : onlySems s s core := ⟨⟨_, _, rfl⟩, fun _ _ => rfl, _, rfl⟩

theorem onlySems.setSem (s : State) (core i v : Nat) : onlySems s (s.setSem core i v) core :=
  ⟨⟨_, _, rfl⟩, fun _ hn => State.core_onCtxSt_ne s _ _ _ hn, _, State.core_onCtxSt_self s _ _⟩

theorem onlySems.posts {s t : State} {core : Nat} (h : onlySems s t core) (po : List Timed) : onlySems s { t with posted := po } core := by
  obtain ⟨⟨_, _, rfl⟩, hne, sm, hown⟩ := h
  exact ⟨⟨_, _, rfl⟩, hne, sm, hown⟩

/-- An increment that fits. -/
theorem semAdd_adds {s : State} {core i n : Nat} (src : SigSrc) (h : s.sem core i + n ≤ 65535) :
    onlySems s (s.semAdd core i n src) core ∧ ∀ j, (s.semAdd core i n src).sem core j = if j = i then s.sem core j + n else s.sem core j := by
  unfold State.semAdd
  dsimp only
  split
  · next hn =>
    subst hn
    exact ⟨onlySems.refl s core, fun j => (ite_self _).symm⟩
  · obtain ⟨po, hwake⟩ := wakeListed_posts (s.setSem core i (s.sem core i + n)) core
    rw [hwake]
    refine ⟨(onlySems.setSem s core i _).posts po, fun j => (sem_setSem s core i _ j).trans ?_⟩
    by_cases hj : j = i
    · rw [if_pos hj, if_pos hj, hj]
    · rw [if_neg hj, if_neg hj]

/-- An increment that does not fit leaves 65,535 and a notice. -/
theorem semAdd_overflows {s : State} {core i n : Nat} (src : SigSrc) (hn : n ≠ 0) (h : 65535 < s.sem core i + n) :
    ∃ po, s.semAdd core i n src = { (s.setSem core i 65535).notice (s.ctxOf core)
      { infoOf src with code := Code.semOverflow, detail := i % 256 + n % 256 * 2 ^ 8 } with posted := po } := by
  obtain ⟨po, hwake⟩ := wakeListed_posts ((s.setSem core i 65535).notice (s.ctxOf core)
    { infoOf src with code := Code.semOverflow, detail := i % 256 + n % 256 * 2 ^ 8 }) core
  unfold State.semAdd
  dsimp only
  rw [if_neg hn, if_neg (by omega), hwake]
  exact ⟨po, rfl⟩

/-! ### A software trap -/

/-- A bay's reads leave the context of the core, and what a record says of its task. -/
theorem bayReads.record_eq {s t : State} (h : bayReads s t) : t.ctxOf s.cur = s.ctxOf s.cur ∧ t.recBase s.cur = s.recBase s.cur := by
  obtain ⟨-, -, -, la, da, q, hcore, -⟩ := h
  unfold State.ctxOf State.recBase
  rw [hcore]
  exact ⟨rfl, rfl⟩

theorem exec_trap (s : State) (a : Opd) (code : BitVec 16) : exec (.trap a code) s
    = bayOp s [.s a] [] (fun t => t.postInfo (t.ctxOf t.cur)
        { t.recBase t.cur with
          kind := 2, bundle := s.iss.bundle, bays := s.iss.mask, done := s.iss.mask, detail := (rdS s a).toNat, opid := code.toNat }) := rfl

end Sys2Proof.Machine

open Sys2Proof Sys2Proof.Machine

/-- Settles O15: an increment adds or saturates wherever it comes from, a consume subtracts, and a signal to another core is an event. -/
theorem semaphores : Obligations.Semaphores := by
  intro s core c consume thr n i inc src overflows
  have hc : c.toNat % 256 = c.toNat := Nat.mod_eq_of_lt c.isLt
  have hover (core n : Nat) (src : SigSrc) (hn : n ≠ 0) (h : 65535 < s.sem core c.toNat + n) {i : Instr}
      (hi : exec i s = .next (s.semAdd core c.toNat n src)) : overflows i core n src := by
    obtain ⟨po, h⟩ := semAdd_overflows src hn h
    refine ⟨_, po, hi, h.trans ?_⟩
    rw [hc]
    rfl
  have land : exec (.evSemaphoreIncrementLand core c.toNat inc src) s = .next (s.semAdd core c.toNat inc src) :=
    congrArg (fun k => Host.Outcome.next (s.semAdd core k inc src)) hc
  refine ⟨fun h => ?_, fun h => ⟨_, rfl, semAdd_adds _ h⟩, fun hi h => hover _ _ _ (toNat_ne_zero hi) h rfl, rfl,
    fun h => ⟨_, land, semAdd_adds _ h⟩, fun hn h => hover _ _ _ hn h land⟩
  cases consume with
  | false => exact ⟨s, rfl, onlySems.refl s _, fun j => (if_neg (fun h => Bool.false_ne_true h.1)).symm⟩
  | true =>
    refine ⟨_, rfl, onlySems.setSem s _ _ _, fun j => (sem_setSem s _ _ _ j).trans ?_⟩
    by_cases hj : j = c.toNat
    · rw [if_pos hj, if_pos ⟨rfl, hj⟩, hj]
    · rw [if_neg hj, if_neg (fun h => hj h.2)]

/-- Settles O17: the bay reads its source, and posts a record that names the task and its bundle. -/
theorem softwareTrap : Obligations.SoftwareTrap := by
  intro s a code ha
  have hreads := bayReads.bay s [.s a]
  obtain ⟨hctx, hbase⟩ := hreads.record_eq
  refine ⟨_, hreads.quiet, (exec_trap s a code).trans ((bayOp_next _ (chanFault_of_canRead ha)).trans (congrArg Host.Outcome.next ?_))⟩
  rw [hreads.cur_eq, hctx, hbase]
  rfl

end

section
/-!
PROOF. What holds an access in the memory port (R104, R248, R252 to R254).
-/

namespace Sys2Proof.Machine

/-! ### Entries of one task, and bytes they share -/

theorem MemReq.sameTask_iff (r o : MemReq) : r.sameTask o = true ↔ r.grp = o.grp ∧ r.idx = o.idx ∧ r.gone = o.gone := by
  simp only [MemReq.sameTask, Bool.and_eq_true, beq_iff_eq, and_assoc]

/-- Runs of `n` and of `m` bytes at two homes have a byte in common. -/
def Tgt.shares (t u : Tgt) (n m : Nat) : Prop :=
  match t, u with
  | .loc d a, .loc e b => d = e ∧ a < b + m ∧ b < a + n
  | .host a, .host b => a < b + m ∧ b < a + n
  | .pub w a, .pub v b => w = v ∧ a < b + m ∧ b < a + n
  | _, _ => False

/-- Runs that are not empty share a byte where the first byte of one lies in the other. -/
theorem Tgt.shares_iff {t u : Tgt} {n m : Nat} (hn : 1 ≤ n) (hm : 1 ≤ m) :
    t.shares u n m ↔ (t.covers n u).isSome = true ∨ (u.covers m t).isSome = true := by
  have hrun (a b : Nat) : (a < b + m ∧ b < a + n) ↔ (a ≤ b ∧ b < a + n) ∨ (b ≤ a ∧ a < b + m) := by omega
  have hsome (p : Prop) [Decidable p] (x : Nat) : (if p then some x else none).isSome = true ↔ p := by
    split <;> simp_all
  cases t with
  | loc d a =>
    cases u with
    | loc e b => simp only [Tgt.shares, Tgt.covers, hsome, hrun, eq_comm (a := e)]; exact and_or_left
    | host b => simp [Tgt.shares, Tgt.covers]
    | pub v b => simp [Tgt.shares, Tgt.covers]
  | host a =>
    cases u with
    | loc e b => simp [Tgt.shares, Tgt.covers]
    | host b => simp only [Tgt.shares, Tgt.covers, hsome, hrun]
    | pub v b => simp [Tgt.shares, Tgt.covers]
  | pub w a =>
    cases u with
    | loc e b => simp [Tgt.shares, Tgt.covers]
    | host b => simp [Tgt.shares, Tgt.covers]
    | pub v b => simp only [Tgt.shares, Tgt.covers, hsome, hrun, eq_comm (a := v)]; exact and_or_left

theorem MemReq.meets_iff {r o : MemReq} (hr : 1 ≤ r.size) (ho : 1 ≤ o.size) : r.meets o = true ↔ r.tgt.shares o.tgt r.size o.size := by
  rw [MemReq.meets, Bool.or_eq_true, Tgt.shares_iff hr ho]

/-! ### What holds an entry -/

section

variable {o r : MemReq}

theorem MemReq.holds_other (h : r.sameTask o = false) : o.holds r = false := by
  rw [MemReq.holds, h, Bool.false_and]

/-- What a fence holds, by its two halves. -/
theorem MemReq.holds_of_fence (hs : r.sameTask o = true) (ho : o.kind = .fence) :
    o.holds r = true ↔ o.acq = true ∨ o.rel = true ∧ (r.kind = .store ∨ r.kind = .amo) := by
  simp only [MemReq.holds, hs, ho, Bool.true_and, Bool.or_eq_true, Bool.and_eq_true, beq_iff_eq]

theorem MemReq.follows_iff (hs : r.sameTask o = true) (ho : o.kind ≠ .fence) (hst : o.stage = .held) :
    r.follows o = true ↔ (r.kind = .load → o.kind ≠ .store) ∧ r.meets o = true := by
  simp only [MemReq.follows, hs, hst, Bool.and_true, Bool.and_eq_true, Bool.or_eq_true, bne_iff_ne, ne_eq, ho, not_false_eq_true, true_and,
    reduceCtorEq, imp_iff_not_or]

/-- What an access holds: what follows its acquire, a release it comes before, ordered pages, and a common byte while it is held itself. -/
theorem MemReq.holds_of_access (hs : r.sameTask o = true) (hr : r.kind ≠ .fence) (ho : o.kind ≠ .fence) :
    o.holds r = true ↔ o.acq = true ∨ r.rel = true ∧ o.ordered r.uo = true ∨ o.pageKind = 1 ∧ r.pageKind = 1
      ∨ o.stage = .held ∧ r.meets o = true ∧ (r.kind = .load → o.kind ≠ .store) := by
  have hholds : o.holds r = (o.acq || (r.rel && o.ordered r.uo) || (o.pageKind == 1 && r.pageKind == 1 && r.kind != .fence)
      || (o.stage == .held && r.kind != .fence && r.follows o)) := by
    rw [MemReq.holds, hs, Bool.true_and]
    cases hk : o.kind with
    | fence => exact absurd hk ho
    | _ => rfl
  have hfollows : (o.stage = .held ∧ r.follows o = true) ↔ o.stage = .held ∧ r.meets o = true ∧ (r.kind = .load → o.kind ≠ .store) :=
    and_congr_right fun hst => (MemReq.follows_iff hs ho hst).trans and_comm
  rw [hholds, ← hfollows]
  simp only [Bool.or_eq_true, Bool.and_eq_true, beq_iff_eq, bne_iff_ne, ne_eq, hr, not_false_eq_true, and_true, or_assoc]

end

/-! ### What leaves the port -/

/-- An access alone is released when nothing older holds it. -/
theorem mem_releasable_single {older : List MemReq} {r : MemReq} (hk : r.kind ≠ .fence) (hst : r.stage = .held) :
    r.id ∈ releasable older [r] ↔ ∀ x ∈ older, x.holds r = false := by
  have hany : older.any (fun o => o.holds r) = false ↔ ∀ x ∈ older, x.holds r = false := by
    simp only [List.any_eq_false, Bool.not_eq_true]
  rw [← hany]
  simp only [releasable, hst, beq_self_eq_true, bne_iff_ne, ne_eq, hk, not_false_eq_true, Bool.true_and, Bool.and_eq_true, true_and,
    Bool.not_eq_true']
  split
  · next h => exact ⟨fun _ => h, fun _ => List.mem_cons_self⟩
  · next h => exact ⟨fun h => absurd h List.not_mem_nil, fun k => absurd k h⟩

/-- What a fence waits for. -/
theorem MemReq.fenceDone_iff (f : MemReq) (older : List MemReq) :
    f.fenceDone older = true ↔ ∀ x ∈ older, f.sameTask x = true →
      ¬ (f.acq = true ∧ (x.kind = .load ∨ x.kind = .amo)) ∧ ¬ (f.rel = true ∧ x.ordered f.uo = true) := by
  simp only [MemReq.fenceDone, List.all_eq_true, Bool.or_eq_true, Bool.and_eq_true, Bool.not_eq_true', ← Bool.not_eq_true, beq_iff_eq,
    imp_iff_not_or, not_and_or, not_or]

theorem dropFences_single {older : List MemReq} {r : MemReq} (hk : r.kind = .fence) :
    dropFences older [r] = [] ↔ r.fenceDone older = true := by
  simp only [dropFences, hk, beq_self_eq_true, Bool.true_and]
  split
  · next h => exact ⟨fun _ => h, fun _ => rfl⟩
  · next h => exact ⟨fun k => absurd k (List.cons_ne_nil _ _), fun k => absurd k h⟩

end Sys2Proof.Machine

open Sys2Proof Sys2Proof.Machine

/-- Settles O27: a fence holds by its halves, an access by what it may not be passed by; what nothing holds is released, and a fence leaves
when it has nothing to wait for. -/
theorem portOrder : Obligations.PortOrder := by
  intro o r older same share
  have hsame (x : MemReq) : r.sameTask x = true ↔ same x := MemReq.sameTask_iff r x
  refine ⟨fun h => MemReq.holds_other (Bool.eq_false_iff.mpr (fun k => h ((hsame o).mp k))),
    fun hs hk hrs hos => ⟨MemReq.holds_of_fence ((hsame o).mpr hs), fun ho => ?_⟩, mem_releasable_single, fun hk => ?_⟩
  · have hmeets : r.meets o = true ↔ share := MemReq.meets_iff hrs hos
    rw [MemReq.holds_of_access ((hsame o).mpr hs) hk ho, hmeets]
  · rw [dropFences_single hk, MemReq.fenceDone_iff]
    exact forall₂_congr fun x _ => imp_congr_left (hsame x)

end

section
/-!
PROOF. Accesses of the SB bay (R97 to R103): the faults a bay takes at issue, and the way of an access out of its bay.
-/

namespace Sys2Proof.Machine

/-! ### The faults of a bay -/

/-- A scalar bay whose channels may be read and written has no channel fault. -/
theorem chanFault_scalars {s : State} {os ds : List Opd} (ho : ∀ o ∈ os, s.canRead o) (hd : ∀ o ∈ ds, s.canWrite o) :
    chanFault s.iss.pre s.now (os.map .s) (ds.map .s) = none := by
  refine chanFault_none (fun u hu => ?_) (fun u hu => ?_)
  · obtain ⟨o, hmem, rfl⟩ := List.mem_map.mp hu
    exact ⟨o, ho o hmem, .inl rfl⟩
  · obtain ⟨o, hmem, rfl⟩ := List.mem_map.mp hu
    exact ⟨o, hd o hmem, .inl rfl⟩

/-- A bay without a channel fault whose own checks fail takes the first fault of these. -/
theorem bayOpF_takes {s : State} {us : List Use} {ds : List Def} {f : Option IssueFault} {eff : State → State}
    {lat code detail word5 : Nat} (h : chanFault s.iss.pre s.now us ds = none) (hf : f = some (code, detail, word5)) :
    bayOpF s us ds f eff lat = .next (s.takeFault code detail word5) := by
  rw [bayOpF, h, hf]
  rfl

/-- The first of several checks that fails. -/
theorem firstFault_failed {ok : Bool} {code detail word5 : Nat} (l : List (Option IssueFault)) (h : ok = false) :
    firstFault (require ok code detail word5 :: l) = some (code, detail, word5) := by
  rw [h]
  rfl

theorem firstFault_passed {ok : Bool} {code detail word5 : Nat} (l : List (Option IssueFault)) (h : ok = true) :
    firstFault (require ok code detail word5 :: l) = firstFault l := by
  rw [h]
  rfl

/-- The checks of an access to scratchpad in their order (R101, R225). -/
theorem padFault_cases (s : State) (a n : Nat) (w : Bool) :
    let out : Prop := 0x300000 ≤ a ∧ ¬ (w = true ∧ a < 0x400000 ∧ bitOf (s.window s.cur a) 63 = true)
    (a % n ≠ 0 → padFault s a n w = some (Code.align, 0, a % 2 ^ 57))
      ∧ (a % n = 0 → out → padFault s a n w = some (Code.shapeBounds, 0, a % 2 ^ 57))
      ∧ (a % n = 0 → ¬ out → s.bufOk s.cur a n (!w) w = false → padFault s a n w = some (Code.bufferState, 0, a % 2 ^ 57))
      ∧ (a % n = 0 → ¬ out → s.bufOk s.cur a n (!w) w = true → padFault s a n w = none) := by
  intro out
  have hin : (decide (a < 0x300000) || (w && decide (a < 0x400000) && bitOf (s.window s.cur a) 63)) = true ↔ ¬ out := by
    simp only [out, Bool.or_eq_true, Bool.and_eq_true, decide_eq_true_eq, not_and_not_right, and_assoc, ← Nat.not_lt]
    exact or_iff_not_imp_left
  have hal (h : a % n = 0) : (a % n == 0) = true := beq_iff_eq.mpr h
  refine ⟨fun h => firstFault_failed _ (beq_eq_false_iff_ne.mpr h), fun h ho => ?_, fun h ho hb => ?_, fun h ho hb => ?_⟩
  · exact (firstFault_passed _ (hal h)).trans (firstFault_failed _ (Bool.eq_false_iff.mpr (fun k => hin.mp k ho)))
  · exact (firstFault_passed _ (hal h)).trans ((firstFault_passed _ (hin.mpr ho)).trans (firstFault_failed _ hb))
  · exact (firstFault_passed _ (hal h)).trans ((firstFault_passed _ (hin.mpr ho)).trans (firstFault_passed _ hb))

/-- The checks of an access to memory in their order (R97, R103). -/
theorem memFault_cases (a n acc : Nat) :
    (a % n ≠ 0 → memFault a n acc = some (Code.align, 0, a % 2 ^ 57))
      ∧ (a % n = 0 → 2 ^ 57 ≤ a → memFault a n acc = some (Code.pagePermission, 0, a % 2 ^ 57 + acc * 2 ^ 57))
      ∧ (a % n = 0 → a < 2 ^ 57 → memFault a n acc = none) := by
  have hal (h : a % n = 0) : (a % n == 0) = true := beq_iff_eq.mpr h
  refine ⟨fun h => firstFault_failed _ (beq_eq_false_iff_ne.mpr h), fun h hhigh => ?_, fun h hlow => ?_⟩
  · exact (firstFault_passed _ (hal h)).trans (firstFault_failed _ (decide_eq_false (Nat.not_lt.mpr hhigh)))
  · exact (firstFault_passed _ (hal h)).trans (firstFault_passed _ (decide_eq_true hlow))

/-! ### The bays of the accesses -/

/-- `LDSP` and `STSP` are bays that check their address. -/
theorem exec_ldsp (s : State) (d x y : Opd) (wid : BitVec 2) (sx : Bool) :
    exec (.ldsp d x y wid sx) s = bayOpF s [.s x, .s y] [.s d] (padFault s (rdS s x + rdS s y).toNat (2 ^ wid.toNat) false) (fun t =>
      (wrS t .sb d (extend sx (2 ^ wid.toNat) (ofBytes (s.iss.mem.readN (Addr.pad s.cur (rdS s x + rdS s y).toNat) (2 ^ wid.toNat)))) 3).bayRead
        (rdS s x + rdS s y).toNat (2 ^ wid.toNat) (s.now + 3)) 3 := rfl

theorem exec_stsp (s : State) (v x y : Opd) (wid : BitVec 2) :
    exec (.stsp v x y wid) s = bayOpF s [.s v, .s x, .s y] [] (padFault s (rdS s x + rdS s y).toNat (2 ^ wid.toNat) true) (fun t =>
      if (rdS s x + rdS s y).toNat < 0x300000 then t.storePad (rdS s x + rdS s y).toNat (toBytes (2 ^ wid.toNat) (rdS s v).toNat)
      else t.multicast t.cur (rdS s x + rdS s y).toNat (t.now + 6) ((toBytes (2 ^ wid.toNat) (rdS s v).toNat).map some)) := rfl

/-- An access takes a number, its destination waits for its data, and it leaves its bay. -/
def State.issueAccess (t : State) (dst : List Opd) (r : MemReq) : State :=
  let (id, t) := t.takeReqId t.cur
  let (q, t) := match dst with
    | [] => (Dest.nowhere, t)
    | d :: _ => t.awaitDest t.cur id d
  t.issueReq t.cur 2 { r with id := id, dest := q }

/-- Every memory access is a bay that checks its address and lets the access go. -/
theorem exec_memForms (s : State) (d x y v : Opd) (m : MemMod) (kind ord : BitVec 4) (wid : Bool) (scope : BitVec 3) :
    ∀ f ∈ memForms s d x y v m kind ord wid scope,
      let (i, src, dst, a, n, acc, r) := f
      (dst = [] ∨ dst = [d]) ∧ r.id = s.here.nextReq ∧ r.kind ≠ .fence ∧ r.va = a
        ∧ ∃ lat, exec i s = bayOpF s (src.map .s) (dst.map .s) (memFault a n acc) (fun t => t.issueAccess dst r) lat := by
  refine List.forall_mem_cons.mpr ⟨⟨.inr rfl, rfl, nofun, rfl, 0, rfl⟩, List.forall_mem_cons.mpr ⟨⟨.inl rfl, rfl, nofun, rfl, 1, rfl⟩,
    List.forall_mem_cons.mpr ⟨⟨.inr rfl, rfl, nofun, rfl, 0, ?_⟩, fun _ h => absurd h List.not_mem_nil⟩⟩⟩
  have huses : ([x, v] ++ if kind = 9 then [d] else []).map Use.s = [.s x, .s v] ++ if kind = 9 then [.s d] else [] := by
    split <;> rfl
  rw [huses]
  rfl

end Sys2Proof.Machine

open Sys2Proof Sys2Proof.Machine

/-- Settles O24: a bay on readable channels takes the first of its own checks that fails. -/
theorem accessFaults : Obligations.AccessFaults := by
  refine ⟨?pad, ?mem⟩
  case pad =>
    intro s d v x y wid sx n a out
    have takes {i : Instr} {src dst : List Opd} {w : Bool} {eff : State → State} {lat : Nat}
        (hi : exec i s = bayOpF s (src.map .s) (dst.map .s) (padFault s a n w) eff lat)
        (hr : ∀ o ∈ src, s.canRead o) (hw : ∀ o ∈ dst, s.canWrite o) :
        (a % n ≠ 0 → exec i s = .next (s.takeFault Code.align 0 (a % 2 ^ 57)))
          ∧ (a % n = 0 → out w → exec i s = .next (s.takeFault Code.shapeBounds 0 (a % 2 ^ 57)))
          ∧ (a % n = 0 → ¬ out w → s.bufOk s.cur a n (!w) w = false → exec i s = .next (s.takeFault Code.bufferState 0 (a % 2 ^ 57))) := by
      have hchan := chanFault_scalars hr hw
      obtain ⟨halign, hout, hbuf, -⟩ := padFault_cases s a n w
      exact ⟨fun h => hi.trans (bayOpF_takes hchan (halign h)), fun h ho => hi.trans (bayOpF_takes hchan (hout h ho)),
        fun h ho hb => hi.trans (bayOpF_takes hchan (hbuf h ho hb))⟩
    exact List.forall_mem_cons.mpr ⟨takes (src := [x, y]) (dst := [d]) (exec_ldsp s d x y wid sx),
      List.forall_mem_cons.mpr ⟨takes (src := [v, x, y]) (dst := []) (exec_stsp s v x y wid), fun _ h => absurd h List.not_mem_nil⟩⟩
  case mem =>
    intro s d x y v m kind ord wid scope f hf
    have hbay := exec_memForms s d x y v m kind ord wid scope f hf
    obtain ⟨i, src, dst, a, n, acc, r⟩ := f
    obtain ⟨-, -, -, -, lat, hi⟩ := hbay
    intro hr hw
    have hchan := chanFault_scalars hr hw
    obtain ⟨halign, hhigh, -⟩ := memFault_cases a n acc
    refine ⟨fun h => ?_, fun h hlow => ?_⟩
    · exact hi.trans (bayOpF_takes hchan (halign h))
    · exact hi.trans (bayOpF_takes hchan (hhigh h hlow))

end

section
/-!
PROOF. The way of an access out of its bay (R98, R99): its number, what waits for its data, and its request in the port, at a walk, or struck
by a fault of its page.
-/

namespace Sys2Proof.Machine

/-! ### What a bay that waits leaves alone -/

/-- A task in which registers wait, its port and its walk have moved on, and faults and data await the next bundle. -/
def TaskSt.waitsAs (t u : TaskSt) : Prop :=
  ∃ rdy wait pend tok late at_ port walk, u = { t with
    rdy := rdy, wait := wait, pend := pend, tokOwner := tok, late := late, dataAt := at_, port := port, walk := walk }

theorem TaskSt.waitsAs.trans {t u v : TaskSt} (h : t.waitsAs u) (k : u.waitsAs v) : t.waitsAs v := by
  obtain ⟨_, _, _, _, _, _, _, _, rfl⟩ := h
  obtain ⟨_, _, _, _, _, _, _, _, rfl⟩ := k
  exact ⟨_, _, _, _, _, _, _, _, rfl⟩

/-- Nothing has changed but dies, check bits, what is drawn and posted, and of the executing core its queues, the number of its next
request, and what its task waits for. -/
def sendsOff (s t : State) : Prop :=
  (∃ po fr di pe co, t = { s with posted := po, free := fr, dies := di, padErr := pe, cores := co })
    ∧ (∀ n, n ≠ s.cur → t.core n = s.core n)
    ∧ ∃ u q n, t.core s.cur = { s.core s.cur with t := u, nextReq := n, c := { (s.core s.cur).c with q := q } } ∧ s.me.waitsAs u

namespace sendsOff

variable {s t u : State}

theorem refl (s : State) : sendsOff s s :=
  ⟨⟨_, _, _, _, _, rfl⟩, fun _ _ => rfl, _, _, _, rfl, _, _, _, _, _, _, _, _, rfl⟩

theorem trans (h : sendsOff s t) (k : sendsOff t u) : sendsOff s u := by
  obtain ⟨⟨_, _, _, _, _, rfl⟩, hne, x, q, n, hown, hx⟩ := h
  obtain ⟨⟨_, _, _, _, _, rfl⟩, kne, x', q', n', kown, hx'⟩ := k
  refine ⟨⟨_, _, _, _, _, rfl⟩, fun m hm => (kne m hm).trans (hne m hm), x', q', n', ?_, hx.trans ?_⟩
  · rw [kown, hown]
  · rw [State.me, hown] at hx'
    exact hx'

theorem cur_eq (h : sendsOff s t) : t.cur = s.cur := by
  obtain ⟨⟨_, _, _, _, _, rfl⟩, -⟩ := h
  rfl

theorem now_eq (h : sendsOff s t) : t.now = s.now := by
  obtain ⟨⟨_, _, _, _, _, rfl⟩, -⟩ := h
  rfl

theorem iss_eq (h : sendsOff s t) : t.iss = s.iss := by
  obtain ⟨⟨_, _, _, _, _, rfl⟩, -⟩ := h
  rfl

theorem me_waits (h : sendsOff s t) : s.me.waitsAs t.me := by
  have hcur := h.cur_eq
  obtain ⟨-, -, x, q, n, hown, hx⟩ := h
  have hme : t.me = x := by rw [State.me, hcur, hown]
  rw [hme]
  exact hx

theorem keepsRegs (h : sendsOff s t) : keepsRegs s t [] := by
  obtain ⟨_, _, _, _, _, _, _, _, hme⟩ := h.me_waits
  unfold Machine.keepsRegs
  rw [hme]
  exact ⟨fun _ _ _ => rfl, fun _ _ _ => rfl, fun _ _ => rfl⟩

theorem keepsStore (h : sendsOff s t) : keepsStore s t s.cur := by
  obtain ⟨⟨_, _, _, _, _, rfl⟩, hne, -⟩ := h
  exact ⟨⟨_, _, _, _, _, rfl⟩, hne, fun _ => rfl⟩

/-- The task's identity and what the core's own translations and its context are. -/
theorem same (h : sendsOff s t) : t.me.grp = s.me.grp ∧ t.me.idx = s.me.idx ∧ t.here.tlb = s.here.tlb ∧ t.ctxOf s.cur = s.ctxOf s.cur := by
  have hcur := h.cur_eq
  obtain ⟨_, _, _, _, _, _, _, _, hme⟩ := h.me_waits
  obtain ⟨-, -, x, q, n, hown, -⟩ := h
  unfold State.ctxOf State.here
  rw [hcur, hown, hme]
  exact ⟨rfl, rfl, rfl, rfl⟩

theorem of_reads (h : bayReads s t) : sendsOff s t := by
  obtain ⟨⟨_, _, _, _, rfl⟩, -, hne, la, da, q, hown, -⟩ := h
  exact ⟨⟨_, _, _, _, _, rfl⟩, hne, _, q, _, hown, _, _, _, _, _, _, _, _, rfl⟩

theorem post (s : State) (n : Nat) (a : Act) : sendsOff s (s.post n a) :=
  ⟨⟨_, _, _, _, _, rfl⟩, fun _ _ => rfl, _, _, _, rfl, _, _, _, _, _, _, _, _, rfl⟩

theorem postFree (s : State) (n : Nat) (i : Instr) : sendsOff s (s.postFree n i) :=
  ⟨⟨_, _, _, _, _, rfl⟩, fun _ _ => rfl, _, _, _, rfl, _, _, _, _, _, _, _, _, rfl⟩

theorem onTask (s : State) {f : TaskSt → TaskSt} (h : s.me.waitsAs (f s.me)) : sendsOff s (s.onTask s.cur f) :=
  ⟨⟨_, _, _, _, _, rfl⟩, fun _ hn => State.core_onTask_ne s _ _ _ hn, _, _, _, State.core_onTask_self s _ _, h⟩

theorem onQueue (s : State) (q : Nat) (f : Queue → Queue) : sendsOff s (s.onQueue s.cur q f) :=
  ⟨⟨_, _, _, _, _, rfl⟩, fun _ hn => State.core_onCtxSt_ne s _ _ _ hn, _, _, _, State.core_onCtxSt_self s _ _, _, _, _, _, _, _, _, _, rfl⟩

theorem takeReqId (s : State) : sendsOff s (s.takeReqId s.cur).2 :=
  ⟨⟨_, _, _, _, _, rfl⟩, fun _ hn => State.core_onCore_ne s _ _ _ hn, _, _, _, State.core_onCore_self s _ _, _, _, _, _, _, _, _, _, rfl⟩

end sendsOff

theorem TaskSt.waitsAs.setWait (t : TaskSt) (k id : Nat) : t.waitsAs (t.setWait k id) := ⟨_, _, _, _, _, _, _, _, rfl⟩

theorem TaskSt.find_setWait (t : TaskSt) (k k' id : Nat) :
    NMap.find (t.setWait k id).wait k' = if k' = k then some id else NMap.find t.wait k' := by
  split
  · next h =>
    subst h
    exact NMap.find_set_self _ _ _
  · next h => exact NMap.find_set_ne _ _ _ _ h

/-! ### What the machinery reads is as before -/

theorem bayReads.sameReads {s t : State} (h : bayReads s t) : s.SameReads t := by
  obtain ⟨⟨_, _, _, _, rfl⟩, hdie, -⟩ := h
  exact ⟨rfl, rfl, rfl, rfl, rfl, fun d => (hdie d).elim fun _ h => (congrArg Die.npc h).trans rfl,
    fun d => (hdie d).elim fun _ h => (congrArg Die.pubBuf h).trans rfl, fun d => (hdie d).elim fun _ h => (congrArg Die.gids h).trans rfl⟩

/-! ### A destination that waits -/

/-- The registers that wait for the data of an access: `yb` and the named destination. -/
def waitRegs (t : TaskSt) (id : Nat) : Option Nat → TaskSt
  | some k => (t.setWait RegKey.yb id).setWait k id
  | none => t.setWait RegKey.yb id

theorem waitRegs_waits (t : TaskSt) (id : Nat) (k : Option Nat) : t.waitsAs (waitRegs t id k) := by
  cases k with
  | none => exact .setWait _ _ _
  | some k => exact (TaskSt.waitsAs.setWait _ _ _).trans (.setWait _ _ _)

theorem find_waitRegs (t : TaskSt) (id : Nat) (k : Option Nat) :
    ∀ j ∈ RegKey.yb :: k.toList, NMap.find (waitRegs t id k).wait j = some id := by
  intro j hj
  have hyb : NMap.find (t.setWait RegKey.yb id).wait RegKey.yb = some id := NMap.find_set_self _ _ _
  cases k with
  | none =>
    obtain rfl := List.mem_singleton.mp hj
    exact hyb
  | some k =>
    refine (TaskSt.find_setWait _ _ _ _).trans ?_
    split
    · rfl
    · next hne =>
      obtain rfl | hj := List.mem_cons.mp hj
      · exact hyb
      · exact absurd (List.mem_singleton.mp hj) hne

/-- A destination in a register waits for the data, and so does `yb`. -/
theorem State.awaitDest_register (s : State) (core id : Nat) {d : Opd} (hd : ∀ q, d ≠ .app q) :
    (s.awaitDest core id d).2 = s.onTask core (fun t => waitRegs t id (sKey d)) := by
  have htwice {k : Nat} : (s.onTask core (fun t => t.setWait RegKey.yb id)).onTask core (fun t => t.setWait k id)
      = s.onTask core (fun t => (t.setWait RegKey.yb id).setWait k id) := State.onTask_onTask s core _ _
  cases d with
  | app q => exact absurd rfl (hd q)
  | ya => exact htwice
  | yb => exact htwice
  | file i => exact htwice
  | main i => exact htwice
  | _ => rfl

/-- An append takes its slot, or its sender's number and credit, and `yb` waits for the data. -/
theorem State.awaitDest_append (s : State) (core id : Nat) (q : BitVec 5) :
    (s.awaitDest core id (.app q)).2 = (s.onTask core (fun t => waitRegs t id none)).onQueue core q.toNat (fun z => z.reserve.2) :=
  congrArg Prod.snd (State.reserveSlot_eq (s.onTask core (fun t => t.setWait RegKey.yb id)) core q.toNat)

/-- The destination of an access and `yb` wait for its data; an append takes its slot, or its sender's number and credit. -/
theorem awaitDest_waits (s : State) (id : Nat) (d : Opd) :
    let t := (s.awaitDest s.cur id d).2
    sendsOff s t ∧ s.SameReads t ∧ (∀ k ∈ RegKey.yb :: (sKey d).toList, NMap.find t.me.wait k = some id)
      ∧ ∀ q, d = .app q → t.queue s.cur q.toNat = (s.queue s.cur q.toNat).reserve.2 := by
  have hreg (k : Option Nat) : sendsOff s (s.onTask s.cur (fun t => waitRegs t id k)) := sendsOff.onTask s (waitRegs_waits _ _ _)
  have hreads (k : Option Nat) : s.SameReads (s.onTask s.cur (fun t => waitRegs t id k)) := .onCore s s.cur _
  have hme (k : Option Nat) : (s.onTask s.cur (fun t => waitRegs t id k)).me = waitRegs s.me id k := State.me_onTask s _
  by_cases hd : ∃ q, d = .app q
  · obtain ⟨q, rfl⟩ := hd
    rw [State.awaitDest_append]
    refine ⟨(hreg none).trans (.onQueue _ _ _), (hreads none).trans (.onCtxSt _ s.cur _), fun j hj => ?_, fun p hp => ?_⟩
    · rw [State.me, onQueue_task]
      exact (congrArg (fun t : TaskSt => NMap.find t.wait j) (hme none)).trans (find_waitRegs _ _ none j hj)
    · obtain rfl := Opd.app.inj hp
      rw [State.queue_onQueue_self, State.queue_onTask]
  · rw [State.awaitDest_register s s.cur id (fun q h => hd ⟨q, h⟩)]
    exact ⟨hreg _, hreads _, fun j hj => (congrArg (fun t : TaskSt => NMap.find t.wait j) (hme _)).trans (find_waitRegs _ _ _ j hj),
      fun q h => absurd ⟨q, h⟩ hd⟩

/-! ### An access leaves its bay -/

/-- What has been sent off reads what the machinery reads, and what a bay that waits leaves of the core holds for what follows it. -/
theorem sendsOff.addReq (s : State) (r : MemReq) (hk : r.kind ≠ .fence) :
    sendsOff s (s.addReq s.cur r) ∧ (s.addReq s.cur r).me.wait = s.me.wait ∧ (s.addReq s.cur r).queue s.cur = s.queue s.cur
      ∧ ∃ st, { r with grp := s.me.grp, idx := s.me.idx, stage := st } ∈ (s.addReq s.cur r).me.port := by
  obtain ⟨⟨hframe, hne, -⟩, po, hown, st, hst⟩ := s.addReq_keeps s.cur r hk
  have hcur : (s.addReq s.cur r).cur = s.cur := by
    obtain ⟨_, _, _, _, _, h⟩ := hframe
    rw [h]
  have hme : (s.addReq s.cur r).me = { s.me with port := po } := by
    rw [State.me, hcur, hown]
    rfl
  refine ⟨⟨hframe, hne, _, _, _, hown, _, _, _, _, _, _, _, _, rfl⟩, (congrArg TaskSt.wait hme).trans rfl, ?_, st, ?_⟩
  · funext q
    unfold State.queue
    rw [hown]
  · rw [hme]
    exact hst

/-- A bay's access that waits for a walk. -/
theorem sendsOff.walks (s : State) (w : Unfin) (i : Instr) :
    let t := (s.onTask s.cur (fun k => { k with walk := some w })).postFree walkBound i
    sendsOff s t ∧ t.me.walk = some w ∧ t.me.wait = s.me.wait ∧ t.queue s.cur = s.queue s.cur := by
  have hme : (s.onTask s.cur (fun k => { k with walk := some w })).me = { s.me with walk := some w } := State.me_onTask s _
  exact ⟨(sendsOff.onTask s (f := fun k => { k with walk := some w }) ⟨_, _, _, _, _, _, _, _, rfl⟩).trans (.postFree _ _ _),
    (congrArg TaskSt.walk hme).trans rfl, (congrArg TaskSt.wait hme).trans rfl, funext fun q => State.queue_onTask s s.cur s.cur q (fun k => { k with walk := some w })⟩

/-- An access takes its number and lets its destination wait before it asks for its translation. -/
theorem State.issueAccess_asks (s : State) {dst : List Opd} {d : Opd} (r : MemReq) (hdst : dst = [] ∨ dst = [d]) :
    ∃ v q, s.issueAccess dst r = v.issueReq s.cur 2 { r with id := s.here.nextReq, dest := q } ∧ sendsOff s v ∧ s.SameReads v
      ∧ (∀ k ∈ (if dst.isEmpty then [] else RegKey.yb :: (sKey d).toList), NMap.find v.me.wait k = some s.here.nextReq)
      ∧ ∀ q, dst = [.app q] → v.queue s.cur q.toNat = (s.queue s.cur q.toNat).reserve.2 := by
  have htake := sendsOff.takeReqId s
  have hreads : s.SameReads (s.takeReqId s.cur).2 := .onCore s s.cur (fun c => { c with nextReq := c.nextReq + 1 })
  obtain rfl | rfl := hdst
  · exact ⟨_, _, rfl, htake, hreads, fun _ h => absurd h List.not_mem_nil, fun _ h => nomatch h⟩
  · obtain ⟨hoff, hsame, hwait, hqueue⟩ := awaitDest_waits (s.takeReqId s.cur).2 s.here.nextReq d
    have hcur : ((s.takeReqId s.cur).2.awaitDest s.cur s.here.nextReq d).2.cur = s.cur := (htake.trans hoff).cur_eq
    refine ⟨_, _, congrArg (fun n => State.issueReq _ n 2 _) hcur, htake.trans hoff, hreads.trans hsame, hwait, fun q hq => ?_⟩
    obtain rfl := List.cons.inj hq |>.1
    refine (hqueue q rfl).trans (congrArg (fun z : Queue => z.reserve.2) ?_)
    exact congrArg (fun c : Core => NMap.get {} c.c.q q.toNat) (State.core_onCore_self s s.cur (fun c => { c with nextReq := c.nextReq + 1 }))

/-! ### The request of an access -/

theorem State.issueReq_sent {s : State} {core bay : Nat} {r : MemReq} {e : TlbEnt} {x : Xl}
    (he : State.tlbLookup (s.core core).tlb (s.ctxOf core) r.va = some e) (hx : checkLeaf s (dieOf core) e r.va r.ask = .ok x) :
    s.issueReq core bay r = s.addReq core (r.at e x) := by
  simp only [State.issueReq, he, hx]

theorem State.issueReq_struck {s : State} {core bay : Nat} {r : MemReq} {e : TlbEnt} {f : TFault}
    (he : State.tlbLookup (s.core core).tlb (s.ctxOf core) r.va = some e) (hx : checkLeaf s (dieOf core) e r.va r.ask = .error f) :
    s.issueReq core bay r = { s with iss := { s.iss with unfin := s.iss.unfin ++ [({ bay := bay, req := r }, f.code, 0, f.word5)] } } := by
  simp only [State.issueReq, he, hx]

theorem State.issueReq_walks {s : State} {core bay : Nat} {r : MemReq} (he : State.tlbLookup (s.core core).tlb (s.ctxOf core) r.va = none) :
    s.issueReq core bay r
      = (s.onTask core (fun t => { t with walk := some { bay := bay, req := r } })).postFree walkBound (.evPageWalkReturn core) := by
  simp only [State.issueReq, he]

/-- An event whose cycle is drawn is due within its bound. -/
theorem State.hasPosted_postFree (s : State) {n : Nat} (hn : 0 < n) (i : Instr) :
    ∃ c, s.now < c ∧ c ≤ s.now + n ∧ (s.postFree n i).hasPosted c (.ev i) := by
  obtain ⟨hlow, hhigh⟩ := s.delay_bounds hn
  have hpost := s.hasPosted_post (n := s.now + s.delay n) (Nat.le_add_right _ _) (.ev i)
  exact ⟨s.now + s.delay n, by omega, by omega, hpost⟩

/-- What an append's slot costs its queue. -/
theorem Queue.reserve_counts (z : Queue) :
    if z.st = .send ∨ z.st = .pendS then z.reserve.2.sent = z.sent + 1 else z.reserve.2.tail = ctr (z.tail + 1) := by
  split
  · next h => exact (Queue.reserve_sends h).1
  · next h => rw [Queue.reserve_of_not_send (fun k => h (by simpa using k))]

/-- A memory access with its channels and its address in order leaves its bay: its number and its destination are taken, and its request asks
for its translation. -/
theorem exec_memForms_asks {s : State} {d x y v : Opd} {m : MemMod} {kind ord : BitVec 4} {wid : Bool} {scope : BitVec 3} :
    ∀ f ∈ memForms s d x y v m kind ord wid scope,
      let (i, src, dst, a, n, _, r) := f
      (∀ o ∈ src, s.canRead o) → (∀ o ∈ dst, s.canWrite o) → a % n = 0 → a < 2 ^ 57 →
        r.kind ≠ .fence ∧ r.va = a ∧ ∃ t q, exec i s = .next (t.issueReq s.cur 2 { r with dest := q }) ∧ sendsOff s t ∧ s.SameReads t
          ∧ (∀ k ∈ (if dst.isEmpty then [] else RegKey.yb :: (sKey d).toList), NMap.find t.me.wait k = some r.id)
          ∧ ∀ q, dst = [.app q] →
              let z := s.queue s.cur q.toNat
              if z.st = .send ∨ z.st = .pendS then (t.queue s.cur q.toNat).sent = z.sent + 1
              else (t.queue s.cur q.toNat).tail = ctr (z.tail + 1) := by
  intro f hf
  have hform := exec_memForms s d x y v m kind ord wid scope f hf
  obtain ⟨i, src, dst, a, n, acc, r⟩ := f
  intro hr hw hal hlow
  obtain ⟨hdst, hid, hk, hva, lat, hi⟩ := hform
  obtain ⟨-, -, hnone⟩ := memFault_cases a n acc
  have hreads := bayReads.bay s (src.map .s) lat
  have hnext := hi.trans (bayOpF_next _ _ lat (chanFault_scalars hr hw) (hnone hal hlow))
  obtain ⟨t, q, hask, hoff, hsame, hwait, hqueue⟩ := (popAll (s.readSlots (src.map .s) lat) (src.map .s)).issueAccess_asks r hdst
  have hcore := hreads.cur_eq
  have hreq : (popAll (s.readSlots (src.map .s) lat) (src.map .s)).here.nextReq = r.id := by
    obtain ⟨-, -, -, _, _, _, hown, -⟩ := hreads
    rw [hid, State.here, hcore, hown]
    rfl
  rw [hreq, hcore] at hask
  rw [hreq] at hwait
  refine ⟨hk, hva, t, q, hnext.trans (congrArg _ hask), (sendsOff.of_reads hreads).trans hoff, hreads.sameReads.trans hsame, hwait,
    fun p hp => ?_⟩
  obtain ⟨h, hh⟩ := hreads.queue_head p.toNat
  have hreserve := hqueue p hp
  rw [hcore, hh] at hreserve
  rw [hreserve]
  exact Queue.reserve_counts { s.queue s.cur p.toNat with head := h }

end Sys2Proof.Machine

open Sys2Proof Sys2Proof.Machine

/-- Settles O25: an access asks for its translation once its destination waits; the three answers are the port, the fault and the walk. -/
theorem memoryIssue : Obligations.MemoryIssue := by
  intro s d x y v m kind ord wid scope f hf
  have hform := exec_memForms_asks f hf
  obtain ⟨i, src, dst, a, n, acc, r⟩ := f
  intro hr hw hal hlow
  obtain ⟨hk, rfl, t, q, hi, hoff, hsame, hwait, hqueue⟩ := hform hr hw hal hlow
  obtain ⟨hgrp, hidx, htlb, hctx⟩ := hoff.same
  have hcur := hoff.cur_eq
  have hlook : State.tlbLookup (t.core s.cur).tlb (t.ctxOf s.cur) r.va = State.tlbLookup s.here.tlb (s.ctxOf s.cur) r.va := by
    have htlb : (t.core s.cur).tlb = s.here.tlb := hcur ▸ htlb
    rw [htlb, hctx]
  have hleaf (e : TlbEnt) : checkLeaf t (dieOf s.cur) e r.va r.ask = checkLeaf s (dieOf s.cur) e r.va r.ask := by rw [hsame.checkLeaf]
  refine ⟨fun e l he hl => ?sent, fun e l he hl => ?struck, fun he => ?walks⟩
  case sent =>
    rw [State.issueReq_sent (r := { r with dest := q }) (hlook.trans he) ((hleaf e).trans hl)] at hi
    obtain ⟨hsent, hw', hq', st, hst⟩ := sendsOff.addReq t ((MemReq.at { r with dest := q } e l)) hk
    rw [hcur] at hsent hw' hq' hst
    rw [hgrp, hidx] at hst
    exact ⟨_, q, st, ⟨hi, (hoff.trans hsent).keepsRegs, (hoff.trans hsent).keepsStore, fun k h => hw' ▸ hwait k h,
      fun p hp => hq' ▸ hqueue p hp⟩, hst⟩
  case struck =>
    rw [State.issueReq_struck (r := { r with dest := q }) (hlook.trans he) ((hleaf e).trans hl)] at hi
    refine ⟨_, q, hi, hoff.keepsRegs, ?_, by rw [hoff.iss_eq]⟩
    obtain ⟨⟨_, _, _, _, _, rfl⟩, hne, -⟩ := hoff
    exact ⟨⟨_, _, _, _, _, rfl⟩, hne, fun _ => rfl⟩
  case walks =>
    rw [State.issueReq_walks (r := { r with dest := q }) (hlook.trans he)] at hi
    obtain ⟨hwalk, hw, hw', hq'⟩ := sendsOff.walks t { bay := 2, req := { r with dest := q } } (.evPageWalkReturn s.cur)
    obtain ⟨c, hc, hc', hposted⟩ := (t.onTask s.cur (fun k => { k with walk := some { bay := 2, req := { r with dest := q } } })).hasPosted_postFree
      (n := walkBound) (by decide) (.evPageWalkReturn s.cur)
    rw [hcur] at hwalk hw hw' hq'
    exact ⟨_, q, ⟨hi, (hoff.trans hwalk).keepsRegs, (hoff.trans hwalk).keepsStore, fun k h => hw' ▸ hwait k h, fun p hp => hq' ▸ hqueue p hp⟩,
      hw, c, hoff.now_eq ▸ hc, hoff.now_eq ▸ hc', hposted⟩

end

section
/-!
PROOF. Fences (R104, R105, R254): what a fence leaves in the port, and what it finds there.
-/

namespace Sys2Proof.Machine

/-! ### The machinery keeps fences -/

theorem State.enterPc_cores (s : State) (core id pa : Nat) : (s.enterPc core id pa).cores = s.cores := by
  unfold State.enterPc
  dsimp only
  have hup := tends_isUpkeep core
  have hpc (p : Nat) (f : PChan → PChan) : ((s.touchPc (dieOf core) p).onPc (dieOf core) p f).cores = s.cores :=
    (hup.trans _ _ _ (hup.touchPc s (dieOf core) p) (hup.onDie _ (dieOf core) _)).2
  generalize hv : State.onPc _ _ _ _ = v
  have hcores : v.cores = s.cores := hv ▸ hpc _ _
  split <;> exact hcores

/-- What leaves the port for its home is marked there, and nothing of its core is touched. -/
theorem State.sendReq_core (s : State) (core id : Nat) :
    (s.sendReq core id).core core = s.core core
      ∨ (s.sendReq core id).core core = (s.onTask core (fun t => t.onReq id (fun r => { r with stage := .queued }))).core core := by
  unfold State.sendReq
  split
  · exact .inl rfl
  · refine .inr ?_
    dsimp only
    split
    · exact core_of_cores (State.enterPc_cores _ _ _ _) core
    · split <;> rfl
    · split <;> rfl

/-- An entry of the port, at whatever stage. -/
def TaskSt.holdsReq (t : TaskSt) (r : MemReq) : Prop := ∃ st, { r with stage := st } ∈ t.port

theorem TaskSt.holdsReq.queued {t : TaskSt} {r : MemReq} (h : t.holdsReq r) (id : Nat) :
    (t.onReq id (fun r => { r with stage := .queued })).holdsReq r := by
  obtain ⟨st, hst⟩ := h
  by_cases hid : r.id = id
  · exact ⟨.queued, List.mem_map.mpr ⟨_, hst, if_pos hid⟩⟩
  · exact ⟨st, List.mem_map.mpr ⟨_, hst, if_neg hid⟩⟩

/-- What is sent from a port leaves every entry in it. -/
theorem TaskSt.holdsReq.sendReqs {core : Nat} {r : MemReq} (l : List Nat) (s : State) (h : (s.core core).t.holdsReq r) :
    ((l.foldl (fun s id => s.sendReq core id) s).core core).t.holdsReq r := by
  induction l generalizing s with
  | nil => exact h
  | cons id l ih =>
    refine ih _ ?_
    obtain hsame | hsent := s.sendReq_core core id
    · rw [hsame]
      exact h
    · rw [hsent, State.core_onTask_self]
      exact h.queued id

/-! ### A fence in the port -/

/-- What a fence has to wait for in its own task. -/
def MemReq.blocks (r f : MemReq) : Prop :=
  f.sameTask r = true ∧ (f.acq = true ∧ (r.kind = .load ∨ r.kind = .amo) ∨ f.rel = true ∧ r.ordered f.uo = true)

theorem MemReq.blocks.kind_ne {r f : MemReq} (h : r.blocks f) : r.kind ≠ .fence := by
  intro hk
  obtain ⟨-, ⟨-, hk' | hk'⟩ | ⟨-, ho⟩⟩ := h
  · exact nomatch hk.symm.trans hk'
  · exact nomatch hk.symm.trans hk'
  · rw [MemReq.ordered, hk] at ho
    exact nomatch ho

theorem MemReq.blocks.not_done {r f : MemReq} (h : r.blocks f) {older : List MemReq} (hr : r ∈ older) : f.fenceDone older = false := by
  refine Bool.eq_false_iff.mpr fun hdone => ?_
  obtain ⟨hs, hb⟩ := h
  obtain ⟨hacq, hrel⟩ := (f.fenceDone_iff older).mp hdone r hr hs
  exact hb.elim hacq hrel

/-- A fence stays behind what it waits for: only fences leave by themselves. -/
theorem mem_dropFences_blocked {r f : MemReq} (h : r.blocks f) (l : List MemReq) {older : List MemReq} (hr : r ∈ older ∨ r ∈ l) :
    f ∈ dropFences older (l ++ [f]) := by
  induction l generalizing older with
  | nil =>
    have hr : r ∈ older := hr.resolve_right List.not_mem_nil
    rw [List.nil_append, dropFences, h.not_done hr, Bool.and_false]
    exact List.mem_cons_self
  | cons x l ih =>
    rw [List.cons_append, dropFences]
    split
    · next hx =>
      refine ih (hr.imp_right fun hr => ?_)
      obtain rfl | hr := List.mem_cons.mp hr
      · exact absurd (beq_iff_eq.mp (Bool.and_eq_true_iff.mp hx).1) h.kind_ne
      · exact hr
    · refine List.mem_cons_of_mem _ (ih ?_)
      obtain hr | hr := hr
      · exact .inl (List.mem_append_left _ hr)
      · obtain rfl | hr := List.mem_cons.mp hr
        · exact .inl (List.mem_append_right _ List.mem_cons_self)
        · exact .inr hr

/-- What the core's port keeps where an entry joins it: nothing else of the core is touched. -/
theorem sendsOff.of_portSteps {s t : State} (h : portSteps s t s.cur) : sendsOff s t := by
  obtain ⟨⟨hframe, hne, -⟩, u, hu, ⟨po, hpo⟩, -⟩ := h
  exact ⟨hframe, hne, u, _, _, hu, _, _, _, _, _, _, _, _, hpo⟩

theorem sendsOff.addAny (s : State) (r : MemReq) : sendsOff s (s.addReq s.cur r) :=
  (sendsOff.onTask s (f := fun t => { t with port := t.port ++ [{ r with grp := t.grp, idx := t.idx }] }) ⟨_, _, _, _, _, _, _, _, rfl⟩).trans
    (.of_portSteps (.pumpPort _ _))

/-- The port an entry joins, before what may leave it leaves it. -/
theorem State.addReq_port (s : State) (core : Nat) (r : MemReq) (f : MemReq) (h : f ∈ dropFences [] ((s.core core).t.port ++
    [{ r with grp := (s.core core).t.grp, idx := (s.core core).t.idx }])) : ((s.addReq core r).core core).t.holdsReq f := by
  refine TaskSt.holdsReq.sendReqs _ _ ⟨f.stage, ?_⟩
  rw [State.core_onTask_self, State.core_onTask_self]
  exact h

/-- A fence over an empty port leaves it empty. -/
theorem State.addReq_fence_empty {s : State} {core : Nat} {r : MemReq} (hport : (s.core core).t.port = []) (hk : r.kind = .fence) :
    ((s.addReq core r).core core).t.port = [] := by
  have hdrop : dropFences [] ((s.core core).t.port ++ [{ r with grp := (s.core core).t.grp, idx := (s.core core).t.idx }]) = [] := by
    rw [hport]
    exact (dropFences_single (r := { r with grp := (s.core core).t.grp, idx := (s.core core).t.idx }) hk).mpr ((MemReq.fenceDone_iff _ _).mpr fun x hx => absurd hx List.not_mem_nil)
  have hown : (((s.onTask core (fun t => { t with port := t.port ++ [{ r with grp := t.grp, idx := t.idx }] })).onTask core
      (fun t => { t with port := dropFences [] t.port })).core core).t.port = [] := by
    rw [State.core_onTask_self, State.core_onTask_self]
    exact hdrop
  unfold State.addReq State.pumpPort
  dsimp only
  rw [hown]
  exact hown

/-- The entry of a fence. -/
def State.fenceReq (s : State) (kind : BitVec 2) (scope : BitVec 3) (uo : Bool) : MemReq :=
  { id := s.here.nextReq, kind := .fence, acq := kind == 1 || kind == 3, rel := kind == 2 || kind == 3, uo := uo,
    scope := scope.toNat, bundle := s.iss.bundle, issued := s.now }

/-- A fence takes a number and joins the port. -/
theorem exec_fence (s : State) (kind : BitVec 2) (scope : BitVec 3) (uo : Bool) :
    exec (.fence kind scope uo) s = .next ((s.takeReqId s.cur).2.addReq s.cur (s.fenceReq kind scope uo)) := rfl

/-- What a fence of a kind waits for (R104, R254). -/
theorem MemReq.blocks_of_kind {r f : MemReq} {kind : BitVec 2} (hs : f.sameTask r = true) (hacq : f.acq = (kind == 1 || kind == 3))
    (hrel : f.rel = (kind == 2 || kind == 3)) (h : (kind = 1 ∨ kind = 3) ∧ (r.kind = .load ∨ r.kind = .amo)
      ∨ (kind = 2 ∨ kind = 3) ∧ r.ordered f.uo = true) : r.blocks f := by
  refine ⟨hs, h.imp (fun ⟨hk, hr⟩ => ⟨?_, hr⟩) (fun ⟨hk, hr⟩ => ⟨?_, hr⟩)⟩
  · rw [hacq, Bool.or_eq_true, beq_iff_eq, beq_iff_eq]
    exact hk
  · rw [hrel, Bool.or_eq_true, beq_iff_eq, beq_iff_eq]
    exact hk

end Sys2Proof.Machine

open Sys2Proof Sys2Proof.Machine

/-- Settles O26: a fence joins the port behind what it waits for, and leaves an empty one at once. -/
theorem fences : Obligations.Fences := by
  intro s kind scope uo
  have hoff : sendsOff s ((s.takeReqId s.cur).2.addReq s.cur (s.fenceReq kind scope uo)) := (sendsOff.takeReqId s).trans (.addAny _ _)
  have htask : ((s.takeReqId s.cur).2.core s.cur).t = s.me :=
    (congrArg Core.t (State.core_onCore_self s s.cur (fun c => { c with nextReq := c.nextReq + 1 }))).trans rfl
  have hme : ((s.takeReqId s.cur).2.addReq s.cur (s.fenceReq kind scope uo)).me
      = (((s.takeReqId s.cur).2.addReq s.cur (s.fenceReq kind scope uo)).core s.cur).t := by rw [State.me, hoff.cur_eq]
  refine ⟨fun hport => ?empty, fun r hr hgrp hidx hgone hb => ?blocked, ?code, ?isync⟩
  case empty =>
    refine ⟨_, exec_fence s kind scope uo, ?_, hoff.keepsRegs, hoff.keepsStore⟩
    rw [hme]
    exact State.addReq_fence_empty ((congrArg TaskSt.port htask).trans hport) rfl
  case blocked =>
    have hblocks : r.blocks { s.fenceReq kind scope uo with grp := s.me.grp, idx := s.me.idx } :=
      MemReq.blocks_of_kind ((MemReq.sameTask_iff _ _).mpr ⟨hgrp.symm, hidx.symm, hgone.symm⟩) rfl rfl hb
    have hstays := mem_dropFences_blocked hblocks s.me.port (older := []) (.inr hr)
    rw [← htask] at hstays
    obtain ⟨st, hst⟩ := State.addReq_port (s.takeReqId s.cur).2 s.cur (s.fenceReq kind scope uo) _ hstays
    rw [← hme] at hst
    exact ⟨_, exec_fence s kind scope uo, hoff.keepsRegs, hoff.keepsStore, _, hst, rfl, rfl, rfl, rfl⟩
  case code => exact ⟨_, rfl, onlyTask_onTask s _⟩
  case isync => exact ⟨_, rfl, ⟨_, rfl⟩, fun n hn => State.core_onCore_ne s _ _ _ hn, State.core_onCore_self s _ _⟩

end

section
/-!
PROOF. Reads of scratchpad, leases and system registers (R97, R101, R106, R107, R116): the value they read, in registers and in an append.
-/

namespace Sys2Proof.Machine

/-! ### What bytes make of a number -/

theorem ofBytes_lt (bs : List Byte) : ofBytes bs < 2 ^ (8 * bs.length) := by
  induction bs with
  | nil => decide
  | cons b bs ih =>
    have hb : b.toNat < 256 := b.isLt
    have hpow : 2 ^ (8 * (b :: bs).length) = 256 * 2 ^ (8 * bs.length) := by
      rw [List.length_cons, Nat.mul_succ, Nat.pow_add, Nat.mul_comm]
    rw [hpow]
    change b.toNat + 256 * ofBytes bs < _
    omega

/-- The model's extension is the rules' on every number of as many bits. -/
theorem extend_eq_rule {sx : Bool} {n v : Nat} (hn : 1 ≤ n) (hn8 : n ≤ 8) (hv : v < 2 ^ (8 * n)) : extend sx n v = extendRule sx n v := by
  have hle : 2 ^ (8 * n) ≤ 2 ^ 64 := Nat.pow_le_pow_right (by decide) (by omega)
  have hsplit : 2 ^ (8 * n) = 2 * 2 ^ (8 * n - 1) := by rw [← Nat.pow_succ', Nat.succ_eq_add_one, Nat.sub_add_cancel (by omega)]
  have hmod : v % 2 ^ (8 * n) = v := Nat.mod_eq_of_lt hv
  have hmsb : (BitVec.ofNat (8 * n) v).msb = bitOf v (8 * n - 1) := by
    rw [BitVec.msb_eq_decide, BitVec.toNat_ofNat, hmod, bitOf, Bool.eq_iff_iff, decide_eq_true_eq, beq_iff_eq]
    have hdiv : v / 2 ^ (8 * n - 1) < 2 := Nat.div_lt_of_lt_mul (by omega)
    rw [Nat.mod_eq_of_lt hdiv, ← Nat.one_le_div_iff (Nat.two_pow_pos _)]
    omega
  have hplain : word v = (BitVec.ofNat (8 * n) v).setWidth 64 := by
    apply BitVec.eq_of_toNat_eq
    rw [word, BitVec.toNat_ofNat, BitVec.toNat_setWidth, BitVec.toNat_ofNat, hmod]
  unfold extend extendRule
  cases sx with
  | false => exact hplain
  | true =>
    rw [if_pos rfl, Bool.true_and]
    apply BitVec.eq_of_toNat_eq
    rw [BitVec.toNat_signExtend, hmsb, ← hplain, word, word]
    split
    · rw [BitVec.toNat_ofNat, BitVec.toNat_ofNat, Nat.mod_eq_of_lt (Nat.lt_of_lt_of_le hv hle), Nat.mod_eq_of_lt (by omega)]
    · rfl

/-- A value of up to eight bytes of memory, extended. -/
theorem extend_readN {sx : Bool} {n : Nat} (hn : 1 ≤ n) (hn8 : n ≤ 8) (m : Memory) (a : Nat) :
    extend sx n (ofBytes (m.readN a n)) = extendRule sx n (ofBytes (m.readN a n)) :=
  extend_eq_rule hn hn8 (by simpa only [Memory.readN_length] using ofBytes_lt (m.readN a n))

/-! ### A bay's reads after its result -/

/-- What a bay reads leaves its frame as it is. -/
theorem quiet.bayReads {s t u : State} {ks : List Nat} (h : quiet s t ks) (k : bayReads t u) : quiet s u ks := by
  obtain ⟨la, da, hme⟩ := k.me_eq
  obtain ⟨hregs, htask, ⟨⟨_, _, _, _, _, _, _, rfl⟩, hdie, hcore, m, hm⟩, hmem⟩ := h
  obtain ⟨⟨_, _, _, _, rfl⟩, kdie, kcore, la', da', q, kown, -⟩ := k
  refine ⟨?_, ?_, ⟨⟨_, _, _, _, _, _, _, rfl⟩, fun d => ?_, fun n hn => (kcore n hn).trans (hcore n hn), q, ?_⟩, hmem⟩
  · unfold keepsRegs
    rw [hme]
    exact hregs
  · unfold keepsTask
    rw [hme]
    exact htask.trans (TaskSt.onlyRegs.late _ la da)
  · obtain ⟨a, ha⟩ := hdie d
    obtain ⟨b, hb⟩ := kdie d
    exact ⟨b, hb.trans (by rw [ha])⟩
  · refine kown.trans ?_
    rw [kown, hm]

theorem bayReads.scalar_rdy {s t : State} (h : bayReads s t) (k : Nat) :
    t.me.scalar k = s.me.scalar k ∧ NMap.get 0 t.me.rdy k = NMap.get 0 s.me.rdy k := by
  obtain ⟨la, da, hme⟩ := h.me_eq
  rw [hme]
  exact ⟨rfl, rfl⟩

theorem State.posted_foldl_mono {α : Type} {e : Timed} (f : State → α → State) (h : ∀ s a, e ∈ s.posted → e ∈ (f s a).posted) (l : List α)
    (s : State) (he : e ∈ s.posted) : e ∈ (l.foldl f s).posted := by
  induction l generalizing s with
  | nil => exact he
  | cons a l ih => exact ih _ (h s a he)

/-- A read of scratchpad takes nothing out of what is posted. -/
theorem State.bayRead_posted {s : State} {e : Timed} (he : e ∈ s.posted) (x n r : Nat) : e ∈ (s.bayRead x n r).posted := by
  have hscrub : e ∈ (s.padScrub s.cur x n).posted := by
    refine State.posted_foldl_mono _ (fun s i h => ?_) _ s he
    dsimp only
    split <;> exact h
  unfold State.bayRead
  dsimp only
  split
  · exact List.mem_append_left _ hscrub
  · exact hscrub

/-- The state in which a bay's append of a later cycle is promised: its latch is written, the slot, or the number and the credit, is taken, and
the bytes are due in the cycle before the result is ready. -/
def State.promises (s : State) (b : Bay2) (q : BitVec 5) (x : Word) (lat : Nat) : State :=
  ((s.onTask s.cur (fun k => k.putScalar (latch b) x (s.now + lat))).onQueue s.cur q.toNat (fun z => z.reserve.2)).post (s.now + lat - 1)
    (.fill s.cur q.toNat (s.queue s.cur q.toNat).reserve.1 (toBytes 8 x.toNat) none)

theorem wrS_promises (s : State) (b : Bay2) (q : BitVec 5) (x : Word) {lat : Nat} (hl : 1 < lat) :
    wrS s b (.app q) x lat = s.promises b q x lat := by
  unfold wrS State.fillLater State.promises
  simp only [State.reserveSlot_eq, Nat.not_le.mpr hl, if_false, State.onTask_cur, State.queue_onTask]
  rfl

theorem wrS_cur (s : State) (b : Bay2) (d : Opd) (x : Word) {lat : Nat} (hl : 1 < lat) : (wrS s b d x lat).cur = s.cur := by
  by_cases hd : ∃ q, d = .app q
  · obtain ⟨q, rfl⟩ := hd
    rw [wrS_promises s b q x hl]
    rfl
  · rw [wrS_eq s b d x lat (by cases d <;> simp_all [isAppend])]
    rfl

/-! ### The forms -/

theorem exec_spld (s : State) (d x : Opd) (e : BitVec 2) :
    exec (.spld d x e) s = bayOpF s [.s x] [.s d] (leaseFault s e.toNat (rdS s x)) (fun t =>
      if (leaseNow s e).rev && decide (s.now < (leaseNow s e).readyFrom) then
        let (id, t) := t.takeReqId t.cur
        let (dest, t) := t.awaitDest t.cur id d
        t.addLeaseWait t.cur e.toNat (id, dest, s.poolWord s.cur (leaseNow s e) (rdS s x).toNat, s.now + 3)
      else if (leaseNow s e).rev then
        (wrS t .sb d (word (ofBytes (s.iss.mem.readN (Addr.pad s.cur ((leaseNow s e).fb + 8 * (rdS s x).toNat)) 8))) 3).bayRead
          ((leaseNow s e).fb + 8 * (rdS s x).toNat) 8 (s.now + 3)
      else (wrS t .sb d (s.poolWord s.cur (leaseNow s e) (rdS s x).toNat) 6).onTask t.cur
        (fun k => { k with dataAt := max k.dataAt (s.now + 6) }))
      (if (leaseNow s e).rev then max 3 ((leaseNow s e).readyFrom - s.now) else 6) := rfl

theorem exec_srd (s : State) (d : Opd) (r : BitVec 10) :
    exec (.srd d r) s = bayOp s [] [.s d] (fun t => wrS t .sb d (sregRule s r.toNat)) := rfl

/-- The index rules let a word of a live lease pass, and no other. -/
theorem leaseFault_cases (s : State) (e : BitVec 2) (i : Word) :
    ((leaseNow s e).live = true → i.toNat < (leaseNow s e).words → leaseFault s e.toNat i = none)
      ∧ (¬ ((leaseNow s e).live = true ∧ i.toNat < (leaseNow s e).words) → leaseFault s e.toNat i = some (Code.shapeBounds, 0, 0)) := by
  have hok : leaseFault s e.toNat i = require ((leaseNow s e).live && decide (i.toNat < (leaseNow s e).words)) Code.shapeBounds := rfl
  refine ⟨fun hl hi => ?_, fun h => ?_⟩
  · rw [hok, hl, decide_eq_true hi]
    rfl
  · have hno : ((leaseNow s e).live && decide (i.toNat < (leaseNow s e).words)) = false := by
      rw [Bool.eq_false_iff, ne_eq, Bool.and_eq_true, decide_eq_true_eq]
      exact h
    rw [hok, hno]
    rfl

/-- What a form that reads one word does: a bay's reads, its result, and what its read of scratchpad finds. -/
def readsWord (s t : State) (d : Opd) (x : Word) (lat : Nat) : Prop :=
  ∃ u, bayReads s u ∧ bayReads (wrS u .sb d x lat) t ∧ (lat = 1 → t = wrS u .sb d x 1) ∧ ∀ e ∈ (wrS u .sb d x lat).posted, e ∈ t.posted

theorem readsWord_bayRead {s u : State} (h : bayReads s u) (d : Opd) (x : Word) {lat : Nat} (hl : 1 < lat) (a n r : Nat) :
    readsWord s ((wrS u .sb d x lat).bayRead a n r) d x lat :=
  ⟨u, h, bayReads.bayRead _ _ _ _, fun h => absurd h (Nat.ne_of_gt hl), fun _ he => State.bayRead_posted he _ _ _⟩

theorem readsWord_dataAt {s u : State} (h : bayReads s u) (d : Opd) (x : Word) {lat : Nat} (hl : 1 < lat) (r : Nat) :
    readsWord s ((wrS u .sb d x lat).onTask u.cur (fun k => { k with dataAt := max k.dataAt r })) d x lat := by
  refine ⟨u, h, ?_, fun h => absurd h (Nat.ne_of_gt hl), fun _ he => he⟩
  have htask := bayReads.task (wrS u .sb d x lat) (fun t => t.late) (fun t => max t.dataAt r)
  rwa [wrS_cur _ _ _ _ hl] at htask

theorem exec_readForms {s : State} {d x y : Opd} {wid : BitVec 2} {sx : Bool} {e : BitVec 2} {r : BitVec 10} (hd : s.canWrite d) :
    ∀ f ∈ readForms s d x y wid sx e r, (∀ o ∈ f.2.1, s.canRead o) → f.2.2.1 →
      ∃ t, exec f.1 s = .next t ∧ readsWord s t d f.2.2.2.1 f.2.2.2.2 := by
  have hchan {os : List Opd} (ho : ∀ o ∈ os, s.canRead o) : chanFault s.iss.pre s.now (os.map .s) [.s d] = none :=
    chanFault_scalars (ds := [d]) ho (List.forall_mem_singleton.mpr hd)
  have hsize : 1 ≤ 2 ^ wid.toNat ∧ 2 ^ wid.toNat ≤ 8 :=
    ⟨Nat.one_le_two_pow, Nat.pow_le_pow_right (n := 2) (by decide) (Nat.le_of_lt_succ wid.isLt)⟩
  refine List.forall_mem_cons.mpr ⟨fun ho hok => ?ldsp, List.forall_mem_cons.mpr ⟨fun ho hok => ?spld,
    List.forall_mem_cons.mpr ⟨fun ho _ => ?srd, fun _ h => absurd h List.not_mem_nil⟩⟩⟩
  case ldsp =>
    obtain ⟨hal, hin, hbuf⟩ := hok
    obtain ⟨-, -, -, hnone⟩ := padFault_cases s (rdS s x + rdS s y).toNat (2 ^ wid.toNat) false
    have hfault := hnone hal (fun h => absurd hin (Nat.not_lt.mpr h.1)) hbuf
    have hnext := (exec_ldsp s d x y wid sx).trans (bayOpF_next _ _ 3 (hchan (os := [x, y]) ho) hfault)
    rw [extend_readN hsize.1 hsize.2] at hnext
    exact ⟨_, hnext, readsWord_bayRead (bayReads.bay s _ 3) d _ (by decide) _ _ _⟩
  case spld =>
    obtain ⟨hlive, hwords, hready⟩ := hok
    have hnext := (exec_spld s d x e).trans (bayOpF_next _ _ _ (hchan (os := [x]) ho) ((leaseFault_cases s e (rdS s x)).1 hlive hwords))
    have hnowait : ((leaseNow s e).rev && decide (s.now < (leaseNow s e).readyFrom)) = false := by
      rw [Bool.and_eq_false_imp]
      exact fun h => decide_eq_false (Nat.not_lt.mpr (hready h))
    rw [hnowait, if_neg Bool.false_ne_true] at hnext
    dsimp only
    cases hrev : (leaseNow s e).rev with
    | true =>
      rw [hrev, if_pos rfl, if_pos rfl] at hnext
      rw [if_pos rfl, if_pos rfl]
      exact ⟨_, hnext, readsWord_bayRead (bayReads.bay s _ _) d _ (by decide) _ _ _⟩
    | false =>
      rw [hrev, if_neg Bool.false_ne_true, if_neg Bool.false_ne_true] at hnext
      rw [if_neg Bool.false_ne_true, if_neg Bool.false_ne_true]
      exact ⟨_, hnext, readsWord_dataAt (bayReads.bay s _ _) d _ (by decide) _⟩
  case srd =>
    exact ⟨_, (exec_srd s d r).trans (bayOp_next _ (hchan (os := []) ho)), _, bayReads.bay s _ 1, bayReads.refl _, fun _ => rfl, fun _ h => h⟩

end Sys2Proof.Machine

open Sys2Proof Sys2Proof.Machine

/-- Settles O18: a bay's reads, its result in the latch and the named register, and what its read of scratchpad finds. -/
theorem readResult : Obligations.ReadResult := by
  intro s d x y wid sx e r hd f hf ho hok
  obtain ⟨t, ht, u, hu, hread, -⟩ := exec_readForms (canWrite_of_register s hd) f hf ho hok
  rw [wrS_eq _ _ _ _ _ hd, hu.now_eq] at hread
  refine ⟨t, ht, fun k hk => ?_, ?_⟩
  · obtain ⟨hscalar, hrdy⟩ := hread.scalar_rdy k
    rw [hscalar, hrdy, State.me_onTask]
    exact putBoth_scalar_self .sb d _ _ _ k hk
  · rw [hu.cur_eq] at hread
    exact (quiet_of_reads hu _ _ (fun t => putBoth_keeps .sb d _ _ t)).bayReads hread

end

section
/-!
PROOF. The reads of the SB bay in an append (R82, R166, R167, R174): what is taken at issue, and the entry that falls due.
-/

namespace Sys2Proof.Machine

/-! ### An append that is promised -/

theorem State.promises_queue (u : State) (b : Bay2) (q : BitVec 5) (x : Word) (lat : Nat) :
    (u.promises b q x lat).queue u.cur q.toNat = (u.queue u.cur q.toNat).reserve.2 := by
  have hqueue := State.queue_onQueue_self (u.onTask u.cur (fun k => k.putScalar (latch b) x (u.now + lat))) u.cur q.toNat (fun z => z.reserve.2)
  rw [State.queue_onTask] at hqueue
  exact hqueue

theorem State.promises_me (u : State) (b : Bay2) (q : BitVec 5) (x : Word) (lat : Nat) :
    (u.promises b q x lat).me = u.me.putScalar (latch b) x (u.now + lat) :=
  (onQueue_task (u.onTask u.cur (fun k => k.putScalar (latch b) x (u.now + lat))) u.cur q.toNat (fun z => z.reserve.2) u.cur).trans
    (State.me_onTask u _)

section

variable {s u t : State} (h : bayReads s u) (b : Bay2) (q : BitVec 5) (x : Word) {lat : Nat} (hl : 1 < lat)

include h

theorem promises_quiet : quiet s (u.promises b q x lat) [latch b] ∧ (u.promises b q x lat).me.scalar (latch b) = x := by
  refine ⟨?_, ?_⟩
  · rw [State.promises, h.cur_eq]
    exact ((quiet.latch h b x (u.now + lat)).1.onQueue q.toNat _).post _ _
  · rw [State.promises_me]
    exact TaskSt.scalar_putScalar_self _ _ _ _ (latch_le b)

include hl

/-- What a promise takes of its queue, and what it makes due. -/
theorem promises_appends (hread : bayReads (u.promises b q x lat) t) (hposted : ∀ e ∈ (u.promises b q x lat).posted, e ∈ t.posted) :
    appendsLater s t q (toBytes 8 x.toNat) lat := by
  obtain ⟨hst, hgen, hsent, hcr, htail, -⟩ := h.queue_keeps q.toNat
  obtain ⟨-, -, ksent, kcr, ktail, -⟩ := hread.queue_keeps q.toNat
  have hcur : (u.promises b q x lat).cur = s.cur := h.cur_eq
  have hqueue : (u.promises b q x lat).queue s.cur q.toNat = (u.queue s.cur q.toNat).reserve.2 := by
    rw [← h.cur_eq]
    exact u.promises_queue b q x lat
  have hdue : t.hasPosted (s.now + lat - 1) (.fill s.cur q.toNat (u.queue s.cur q.toNat).reserve.1 (toBytes 8 x.toNat) none) := by
    rw [← h.cur_eq, ← h.now_eq]
    exact hposted _ (State.hasPosted_post (show u.now ≤ u.now + lat - 1 by omega) _)
  rw [hcur, hqueue] at ksent kcr ktail
  refine ⟨fun m => ?_, fun hs => ?_, fun hs => ?_⟩
  · rw [hread.mem_eq]
    exact (promises_quiet h b q x).1.2.2.2 m
  · obtain ⟨h1, h2, h3⟩ := Queue.reserve_sends (hst ▸ hs)
    rw [h3, hgen, hsent] at hdue
    exact ⟨(ksent.trans h1).trans (by rw [hsent]), (kcr.trans h2).trans (by rw [hcr]), hdue⟩
  · obtain ⟨h1, h2⟩ := Queue.reserve_slot (hst ▸ hs)
    rw [h2, hgen, htail] at hdue
    exact ⟨(ktail.trans h1).trans (by rw [htail]), hdue⟩

end

/-! ### The entry that falls due -/

/-- What was posted stands in the agenda once the work of a cycle is done. -/
theorem State.mem_settle {s : State} {e : Timed} (he : e ∈ s.posted) (n : Nat) : e.from_ n ∈ (s.settle n).agenda := by
  have hin {l : List Timed} : ∀ {ag : List Timed}, e.from_ n ∈ ag ∨ e ∈ l → e.from_ n ∈ l.foldl (fun ag t => insertTimed (t.from_ n) ag) ag := by
    induction l with
    | nil => exact fun h => h.resolve_right List.not_mem_nil
    | cons x l ih =>
      intro ag h
      refine ih ?_
      rw [mem_insertTimed, List.mem_cons] at *
      obtain h | rfl | h := h
      · exact .inl (.inr h)
      · exact .inl (.inl rfl)
      · exact .inr h
  exact hin (.inr he)

theorem Timed.act_from_ (t : Timed) (n : Nat) : (t.from_ n).act = t.act := by
  unfold Timed.from_
  split <;> rfl

/-- The entry of an append that falls due fills its slot. -/
theorem step_fill {s : State} {core q slot : Nat} {bs : List Byte} {lease : Option Nat} {rest : List Timed}
    (h : s.agenda = { due := s.now, act := .fill core q slot bs lease } :: rest) :
    step s = .next ((({ s with agenda := rest } : State).fillSlot core q slot s.now (s.now + 1) 0 bs true false).settle s.now) := by
  have hstep : step s = .next ((({ s with now := max s.now s.now, agenda := rest } : State).fillSlot core q slot (max s.now s.now)
      (max s.now s.now + 1) 0 bs true false).settle (max s.now s.now)) := by
    rw [step, h]
    rfl
  rw [Nat.max_self] at hstep
  exact hstep

/-- Eight bytes fill a slot of an own queue. -/
theorem fillSlot_word {v : State} {core q slot cyc : Nat} (t : Nat) {bs : List Byte} (hgen : (v.queue core q).gen = slot / 65536)
    (hst : (v.queue core q).st = .opened ∨ (v.queue core q).st = .subsW) (hx : (v.queue core q).slotAddr (slot % 65536) % 8 = 0)
    (hbs : bs.length = 8) :
    let z := v.queue core q
    let w := v.fillSlot core q slot t cyc 0 bs true false
    NMap.find (w.queue core q).pres (z.idx (slot % 65536)) = some cyc
      ∧ w.mem = v.mem.writeN (Addr.pad core (z.slotAddr (slot % 65536))) bs := by
  intro z w
  obtain ⟨po, fr, hown⟩ := setPresent_own { v.passStores core (z.slotAddr (slot % 65536)) (bs.map some) with
      mem := v.mem.writeN (Addr.pad core (z.slotAddr (slot % 65536))) bs,
      padErr := NMap.erase v.padErr (Addr.pad core (z.slotAddr (slot % 65536)) / 8) } core q (slot % 65536) cyc
  have hw : w = _ := (fillSlot_local v core q slot t cyc bs hbs hgen hst hx).trans hown
  have hqueue : (v.passStores core (z.slotAddr (slot % 65536)) (bs.map some)).queue core q = z := passStores_queue _ _ _ _ _ _
  refine ⟨?_, congrArg State.mem hw⟩
  have hset : w.queue core q = { z with pres := NMap.set z.pres (z.idx (slot % 65536)) cyc } := by
    rw [hw]
    exact (State.queue_onQueue_self _ core q (fun q => { q with pres := NMap.set q.pres (q.idx (slot % 65536)) cyc })).trans
      (congrArg (fun y : Queue => { y with pres := NMap.set y.pres (y.idx (slot % 65536)) cyc }) hqueue)
  rw [hset]
  exact NMap.find_set_self _ _ _

/-- The bytes of an append at a sender stay behind under a PAUSE. -/
theorem fillSlot_paused {v : State} {core q slot t cyc : Nat} {bs : List Byte} {p : Nat × Nat} (hgen : (v.queue core q).gen = slot / 65536)
    (hst : (v.queue core q).st = .send) (hp : (v.queue core q).partner = some p) (hpaused : (v.queue core q).paused = true) :
    let w := v.fillSlot core q slot t cyc 0 bs true false
    w.mem = v.mem ∧ (w.queue core q).heldOut = (v.queue core q).heldOut ++ [(slot % 65536, 0, bs, true, false)] := by
  intro w
  have hw : w = _ := (fillSlot_sender t cyc bs hgen hst hp).trans (if_pos hpaused)
  have hqueue : ((v.onQueue core q (·.letGo t)).onQueue core q
      (fun z => { z with heldOut := z.heldOut ++ [(slot % 65536, 0, bs, true, false)] })).queue core q
        = { (v.queue core q).letGo t with heldOut := (v.queue core q).heldOut ++ [(slot % 65536, 0, bs, true, false)] } := by
    rw [State.queue_onQueue_self, State.queue_onQueue_self]
    rfl
  obtain ⟨⟨_, _, _, _, hshape⟩, -, -, -, -, -, -, hheld⟩ := onlySends.pauseBehind (p := p) (core := core) (q := q)
    (s := (v.onQueue core q (·.letGo t)).onQueue core q
      (fun z => { z with heldOut := z.heldOut ++ [(slot % 65536, 0, bs, true, false)] })) (by rw [hqueue]; exact hp)
  rw [hw]
  refine ⟨?_, hheld.trans (by rw [hqueue])⟩
  rw [hshape]
  rfl

/-- They go to the receiver where the way is open. -/
theorem fillSlot_leaves {v : State} {core q slot t cyc : Nat} {bs : List Byte} {pc pq : Nat} (hgen : (v.queue core q).gen = slot / 65536)
    (hst : (v.queue core q).st = .send) (hp : (v.queue core q).partner = some (pc, pq)) (hpaused : (v.queue core q).paused = false)
    (ht : v.now ≤ t) (hway : dieOf core = dieOf pc ∨ (v.circuit (dieOf core) (dieOf pc)).st.carries = true) :
    let w := v.fillSlot core q slot t cyc 0 bs true false
    w.mem = v.mem ∧ ∃ e ∈ w.posted, e.act = .ev (.evSpliceDataArrive pc (fromQueue core q pq)
      { seq := slot % 65536, off := 0, bytes := bs, last := true, poison := false }) := by
  intro w
  have hw : w = _ := (fillSlot_sender t cyc bs hgen hst hp).trans (if_neg (by rw [hpaused]; exact Bool.false_ne_true))
  have hpartner : ((v.onQueue core q (·.letGo t)).queue core q).partner = some (pc, pq) := by
    rw [State.queue_onQueue_self]
    exact hp
  have hsend : onlySends (v.onQueue core q (·.letGo t)) ((v.onQueue core q (·.letGo t)).sendBytes core q (pc, pq) t (slot % 65536) 0 bs true false)
      core q := onlySends.sendSplice hpartner _ _ _ _
  have hpause := onlySends.pauseBehind (hsend.2.2.2.2.1.trans hpartner)
  obtain ⟨e, he, hact, -⟩ := sendSplice_posted (s := v.onQueue core q (·.letGo t)) (q := q) (p := (pc, pq)) (lines := (bs.length + 63) / 64)
    (.evSpliceDataArrive pc (fromQueue core q pq) { seq := slot % 65536, off := 0, bytes := bs, last := true, poison := false }) ht hway
  rw [hw]
  refine ⟨?_, e, hpause.posted_mono he, hact⟩
  obtain ⟨⟨_, _, _, _, hshape⟩, -⟩ := hsend.trans hpause
  rw [hshape]
  rfl

end Sys2Proof.Machine

open Sys2Proof Sys2Proof.Machine

/-- Settles O19: a result of the next cycle is appended at once, a later one promised; the entry that falls due then fills the slot, goes to
the receiver, or stays behind. -/
theorem readAppend : Obligations.ReadAppend := by
  refine ⟨?issue, ?due⟩
  case issue =>
    intro s q x y wid sx e r z hwrite f hf ho hok
    obtain ⟨t, ht, u, hu, hread, hnow, hposted⟩ := exec_readForms hwrite f hf ho hok
    refine ⟨fun hlat hst hal => ?own, fun pc pq hlat hst hp => ?sender, fun hlat => ?later⟩
    case own =>
      obtain ⟨e, hlatch, hregs, htask, hrest, happ⟩ := wrS_appendsHere hu .sb q f.2.2.2.1 hst hal
      rw [← hnow hlat] at hlatch hregs htask hrest happ
      exact ⟨t, e, ⟨ht, hlatch, hregs, htask, hrest⟩, happ⟩
    case sender =>
      obtain ⟨ci, hlatch, ⟨hregs, htask, hrest, -⟩, happ⟩ := wrS_appendsThere hu .sb q f.2.2.2.1 hst hp
      rw [← hnow hlat] at hlatch hregs htask hrest happ
      exact ⟨t, ci, ⟨ht, hlatch, hregs, htask, hrest⟩, happ⟩
    case later =>
      rw [wrS_promises u .sb q _ hlat] at hread hposted
      obtain ⟨hquiet, hlatch⟩ := promises_quiet hu .sb q f.2.2.2.1 (lat := f.2.2.2.2)
      obtain ⟨hregs, htask, hrest, -⟩ := hquiet.bayReads hread
      exact ⟨t, ⟨ht, (hread.scalar_rdy _).1.trans hlatch, hregs, htask, hrest⟩, promises_appends hu .sb q _ hlat hread hposted⟩
  case due =>
    intro s core rest q slot bs lease hag z a hgen
    have hstep := step_fill hag
    refine ⟨fun hbs hst hal => ?own, fun pc pq hst hp hpaused => ?held, fun pc pq hst hp hpaused hway => ?sent⟩
    case own =>
      obtain ⟨hpres, hmem⟩ := fillSlot_word (v := { s with agenda := rest }) (cyc := s.now + 1) s.now hgen hst hal hbs
      refine ⟨_, hstep, hpres, hmem, fun m hm => ?_⟩
      exact (congrArg (·.read m) hmem).trans (Memory.read_writeN_out _ _ _ _ (by rw [hbs]; exact hm))
    case held =>
      obtain ⟨hmem, hheld⟩ := fillSlot_paused (v := { s with agenda := rest }) (t := s.now) (cyc := s.now + 1) (bs := bs) hgen hst hp hpaused
      exact ⟨_, hstep, fun m => congrArg (·.read m) hmem, hheld⟩
    case sent =>
      obtain ⟨hmem, e, he, hact⟩ := fillSlot_leaves (v := { s with agenda := rest }) (t := s.now) (cyc := s.now + 1) (bs := bs) hgen hst hp hpaused
        le_rfl hway
      exact ⟨_, hstep, fun m => congrArg (·.read m) hmem, _, State.mem_settle he s.now, (e.act_from_ _).trans hact⟩

end

section
/-!
PROOF. Stores of the SB bay to scratchpad and to a multicast window (R97, R225, R295).
-/

namespace Sys2Proof.Machine

/-! ### Errors that a bay's reads leave -/

/-- A word that read as uncorrectable still does, and no other one. -/
def keepsErrs (s t : State) : Prop := ∀ k, 2 ≤ NMap.get 0 t.padErr k ↔ 2 ≤ NMap.get 0 s.padErr k

theorem keepsErrs.refl (s : State) : keepsErrs s s := fun _ => .rfl

theorem keepsErrs.trans {s t u : State} (h : keepsErrs s t) (k : keepsErrs t u) : keepsErrs s u := fun i => (k i).trans (h i)

theorem keepsErrs.foldl {α : Type} (f : State → α → State) (h : ∀ s a, keepsErrs s (f s a)) (l : List α) (s : State) : keepsErrs s (l.foldl f s) := by
  induction l generalizing s with
  | nil => exact .refl s
  | cons a l ih => exact (h s a).trans (ih _)

/-- Only a single-bit error is corrected. -/
theorem keepsErrs.padScrub (s : State) (core x n : Nat) : keepsErrs s (s.padScrub core x n) := by
  unfold State.padScrub
  refine keepsErrs.foldl _ (fun s i => ?_) _ s
  dsimp only
  split
  · next h =>
    intro k
    change 2 ≤ NMap.get 0 (NMap.erase s.padErr (Addr.pad core x / 8 + i)) k ↔ _
    by_cases hk : k = Addr.pad core x / 8 + i
    · rw [hk, NMap.get_erase_self, h]
      decide
    · rw [NMap.get_erase_ne _ _ _ _ hk]
  · exact .refl s

theorem keepsErrs.bayRead (s : State) (x n r : Nat) : keepsErrs s (s.bayRead x n r) := by
  unfold State.bayRead
  dsimp only
  split <;> exact .padScrub s s.cur x n

theorem keepsErrs.bay (s : State) (us : List Use) (lat : Nat) : keepsErrs s (popAll (s.readSlots us lat) us) := by
  have hpops : keepsErrs (s.readSlots us lat) (popAll (s.readSlots us lat) us) := by
    unfold popAll
    refine keepsErrs.foldl _ (fun s q => ?_) _ _
    exact .refl s
  refine (keepsErrs.foldl _ (fun s u => ?_) us s).trans hpops
  cases u.chan with
  | none => exact .refl s
  | some c =>
    obtain ⟨q, o, p⟩ := c
    have hread (b : Prop) [Decidable b] (y n r : Nat) : keepsErrs s (if b then s.padScrub s.cur y n else s.bayRead y n r) := by
      split
      · exact .padScrub s s.cur y n
      · exact .bayRead s y n r
    cases u <;> exact hread _ _ _ _

/-! ### Bytes within one word -/

theorem padPut_within (s : State) (c x : Nat) (bs : List Byte) (r : RecInfo) (hx : x % 8 + bs.length ≤ 8) (hne : bs ≠ []) :
    s.padPut c x bs r = s.padWriteWord c x (bs.map some) (s.ctxOf c) r := by
  have hlen : bs.length < 64 := by omega
  have hpart (i : Nat) : ((((bs.map some).drop i).take 64).length == 64) = false := by
    rw [beq_eq_false_iff_ne, List.length_take, List.length_drop, List.length_map]
    omega
  have hempty : (bs.map some).isEmpty = false := by simpa using hne
  have hdrop : (bs.map some).drop (8 - x % 8) = [] := List.drop_of_length_le (by rw [List.length_map]; omega)
  have htake : (bs.map some).take (8 - x % 8) = bs.map some := List.take_of_length_le (by rw [List.length_map]; omega)
  have hrest (n y : Nat) (t : State) : t.padWriteAux c (s.ctxOf c) r n y [] = t := by
    induction n generalizing y with
    | zero => rfl
    | succ n ih => rw [State.padWriteAux, List.drop_nil]; exact ih _
  unfold State.padPut State.padWrite
  simp only [hpart, Bool.false_and, Bool.false_eq_true, if_false, List.foldl_fixed]
  rw [show (bs.map some).length / 8 + 2 = ((bs.map some).length / 8 + 1) + 1 from rfl, State.padWriteAux, hempty, hdrop, htake]
  exact hrest _ _ _

/-- Bytes of one word that neither its line nor its check bits make unreadable: they are stored, and a single-bit error is corrected. -/
theorem padWriteWord_clean {s : State} {c x ctx : Nat} {bs : List Byte} {r : RecInfo} (hne : bs ≠ [])
    (h : bs.length = 8 ∨ NMap.get false s.padPoison (padLine c x) = false ∧ NMap.get 0 s.padErr (Addr.pad c x / 8) < 2) :
    ∃ pe, s.padWriteWord c x (bs.map some) ctx r = { s with mem := s.mem.writeN (Addr.pad c x) bs, padErr := pe }
      ∨ s.padWriteWord c x (bs.map some) ctx r
        = ({ s with mem := s.mem.writeN (Addr.pad c x) bs, padErr := pe } : State).countCorrected (dieOf c) := by
  by_cases h8 : bs.length = 8
  · exact ⟨_, .inl (padWriteWord_whole s c x ctx bs r h8)⟩
  · obtain ⟨hpoison, herr⟩ := h.resolve_left h8
    have hnone : (bs.map some).all (fun b => b.isNone) = false := by cases bs <;> simp_all
    have hwhole : ((bs.map some).length == 8) = false := by simpa using h8
    have hbad : decide (2 ≤ NMap.get 0 s.padErr (Addr.pad c x / 8)) = false := decide_eq_false (Nat.not_le.mpr herr)
    unfold State.padWriteWord
    simp only [hnone, hwhole, hpoison, hbad, Bool.not_false, Bool.true_and, Bool.false_and, Bool.or_false, Bool.false_eq_true, if_false]
    split
    · exact ⟨_, .inr rfl⟩
    · exact ⟨_, .inl rfl⟩

/-- A part of a word that reads as uncorrectable: its line is poisoned, and a notice says so. -/
theorem padWriteWord_poisoned {s : State} {c x ctx : Nat} {bs : List Byte} {r : RecInfo} (hne : bs ≠ []) (h8 : bs.length < 8)
    (h : NMap.get false s.padPoison (padLine c x) = true ∨ 2 ≤ NMap.get 0 s.padErr (Addr.pad c x / 8)) :
    ∃ pe r', r'.code = Code.storeMergedPoison ∧ s.padWriteWord c x (bs.map some) ctx r
      = ({ s with mem := s.mem.writeN (Addr.pad c x) bs, padErr := pe, padPoison := NMap.set s.padPoison (padLine c x) true } : State).notice ctx r' := by
  have hnone : (bs.map some).all (fun b => b.isNone) = false := by cases bs <;> simp_all
  have hwhole : ((bs.map some).length == 8) = false := by simpa using Nat.ne_of_lt h8
  have hbad : (NMap.get false s.padPoison (padLine c x) || decide (2 ≤ NMap.get 0 s.padErr (Addr.pad c x / 8))) = true := by
    rw [Bool.or_eq_true, decide_eq_true_eq]
    exact h
  unfold State.padWriteWord
  simp only [hnone, hwhole, hbad, Bool.not_false, Bool.true_and, Bool.false_and, Bool.false_eq_true, if_false, if_true]
  exact ⟨_, _, rfl, rfl⟩

/-! ### The note of a bay's store -/

/-- A change of a core that sees neither the late faults and the cycle of the data of its task nor its queues commutes with a bay's reads. -/
theorem bayReads.onCore {s t : State} (h : bayReads s t) (n : Nat) {f : Core → Core}
    (hf : ∀ (c : Core) la da q, f { c with t := { c.t with late := la, dataAt := da }, c := { c.c with q := q } }
      = { f c with t := { (f c).t with late := la, dataAt := da }, c := { (f c).c with q := q } })
    (hq : ∀ c, (f c).c.q = c.c.q) : bayReads (s.onCore n f) (t.onCore n f) := by
  obtain ⟨⟨_, _, _, _, rfl⟩, hdie, hne, la, da, q, hcore, hhead⟩ := h
  refine ⟨⟨_, _, _, _, rfl⟩, hdie, fun m hm => ?_, la, da, q, ?_, fun k => ?_⟩
  · by_cases hmn : m = n
    · subst hmn
      rw [State.core_onCore_self, State.core_onCore_self, hne m hm]
    · rw [State.core_onCore_ne _ _ _ _ hmn, State.core_onCore_ne _ _ _ _ hmn]
      exact hne m hm
  · by_cases hn : s.cur = n
    · rw [show (s.onCore n f).cur = n from hn, State.core_onCore_self, State.core_onCore_self, ← hn, hcore, hf]
    · rw [show (s.onCore n f).cur = s.cur from rfl, State.core_onCore_ne _ _ _ _ hn, State.core_onCore_ne _ _ _ _ hn]
      exact hcore
  · by_cases hn : s.cur = n
    · rw [show (s.onCore n f).cur = n from hn, State.core_onCore_self, hq, ← hn]
      exact hhead k
    · rw [show (s.onCore n f).cur = s.cur from rfl, State.core_onCore_ne _ _ _ _ hn]
      exact hhead k

theorem bayReads.noted {s t : State} (h : bayReads s t) (e : List BayStore) : bayReads (s.noted e) (t.noted e) := by
  have hnote := h.onCore s.cur (f := fun c => { c with recent := e }) (fun _ _ _ _ => rfl) (fun _ => rfl)
  unfold State.noted
  rw [h.cur_eq]
  exact hnote

/-- A bay's store notes what it stores, and then stores it. -/
theorem State.storePad_noted (s : State) (a : Nat) (bs : List Byte) :
    ∃ e, s.storePad a bs = (s.noted e).padPut s.cur a bs { s.recBase s.cur with bundle := s.iss.bundle } := ⟨_, rfl⟩

theorem quiet.ctxOf {s t : State} {ks : List Nat} (h : quiet s t ks) : t.ctxOf s.cur = s.ctxOf s.cur := by
  obtain ⟨-, -, ⟨-, -, -, q, hq⟩, -⟩ := h
  unfold State.ctxOf
  rw [hq]

theorem keepsRest.countCorrected {s t : State} (h : keepsRest s t) (d : Nat) : keepsRest s (t.countCorrected d) := by
  obtain ⟨⟨_, _, _, _, _, _, _, rfl⟩, hdie, hcore, hcur⟩ := h
  refine ⟨⟨_, _, _, _, _, _, _, rfl⟩, fun n => ?_, hcore, hcur⟩
  by_cases hn : n = d
  · subst hn
    obtain ⟨x, hx⟩ := hdie n
    rw [State.countCorrected, State.die_onDie_self, hx]
    exact ⟨_, rfl⟩
  · rw [State.countCorrected, State.die_onDie_ne _ _ _ _ hn]
    exact hdie n

theorem keepsRest.poisoned {s t : State} (h : keepsRest s t) (m : Memory) (pe : NMap Nat) (pp : NMap Bool) :
    keepsRest s { t with mem := m, padErr := pe, padPoison := pp } := by
  obtain ⟨⟨_, _, _, _, _, _, _, rfl⟩, hdie, hcore, hcur⟩ := h
  exact ⟨⟨_, _, _, _, _, _, _, rfl⟩, hdie, hcore, hcur⟩

section

variable {s u : State} (h : bayReads s u) {a : Nat} {bs : List Byte} (hx : a % 8 + bs.length ≤ 8) (hne : bs ≠ [])

include h hx hne

/-- A bay's store of bytes of one word that can be read. -/
theorem storePad_clean (hok : bs.length = 8
      ∨ NMap.get false u.padPoison (padLine s.cur a) = false ∧ NMap.get 0 u.padErr (Addr.pad s.cur a / 8) < 2) :
    (u.storePad a bs).mem = s.mem.writeN (Addr.pad s.cur a) bs
      ∧ ∃ e, keepsRegs (s.noted e) (u.storePad a bs) [] ∧ keepsTask (s.noted e) (u.storePad a bs) ∧ keepsRest (s.noted e) (u.storePad a bs) := by
  obtain ⟨e, he⟩ := u.storePad_noted a bs
  obtain ⟨hregs, htask, hrest, -⟩ := (h.noted e).quiet
  rw [he, padPut_within _ _ _ _ _ hx hne, h.cur_eq]
  obtain ⟨pe, hw | hw⟩ := padWriteWord_clean (s := u.noted e) (c := s.cur) (x := a) (ctx := (u.noted e).ctxOf s.cur)
    (r := { u.recBase s.cur with bundle := u.iss.bundle }) hne hok <;> rw [hw]
  · exact ⟨congrArg (Memory.writeN · _ _) h.mem_eq, e, hregs, htask, hrest.stored _ _ _ _⟩
  · exact ⟨congrArg (Memory.writeN · _ _) h.mem_eq, e, hregs, htask, (hrest.stored _ _ _ _).countCorrected _⟩

/-- A bay's store of a part of a word that reads as uncorrectable. -/
theorem storePad_poisoned (h8 : bs.length < 8)
    (hbad : NMap.get false u.padPoison (padLine s.cur a) = true ∨ 2 ≤ NMap.get 0 u.padErr (Addr.pad s.cur a / 8)) :
    ∃ v r e, u.storePad a bs = v.notice (s.ctxOf s.cur) r ∧ r.code = Code.storeMergedPoison ∧ v.mem = s.mem.writeN (Addr.pad s.cur a) bs
      ∧ NMap.get false v.padPoison (padLine s.cur a) = true
      ∧ keepsRegs (s.noted e) v [] ∧ keepsTask (s.noted e) v ∧ keepsRest (s.noted e) v := by
  obtain ⟨e, he⟩ := u.storePad_noted a bs
  obtain ⟨hregs, htask, hrest, -⟩ := (h.noted e).quiet
  have hctx : (u.noted e).ctxOf s.cur = s.ctxOf s.cur := by
    refine (h.noted e).quiet.ctxOf.trans ?_
    exact (congrArg (fun c : Core => c.ctx.getD (64 * dieOf s.cur)) (State.core_onCore_self s s.cur (fun c => { c with recent := e }))).trans rfl
  obtain ⟨pe, r, hr, hw⟩ := padWriteWord_poisoned (s := u.noted e) (c := s.cur) (x := a) (ctx := (u.noted e).ctxOf s.cur)
    (r := { u.recBase s.cur with bundle := u.iss.bundle }) hne h8 hbad
  refine ⟨{ u.noted e with
      mem := (u.noted e).mem.writeN (Addr.pad s.cur a) bs, padErr := pe, padPoison := NMap.set (u.noted e).padPoison (padLine s.cur a) true },
    r, e, ?_, hr, congrArg (Memory.writeN · _ _) h.mem_eq, NMap.get_set_self _ _ _ _, hregs, htask, hrest.poisoned _ _ _⟩
  rw [he, h.cur_eq, padPut_within _ _ _ _ _ hx hne]
  refine hw.trans ?_
  rw [hctx]

end

/-! ### Bytes for a multicast window -/

theorem State.mem_windowCores {core e c : Nat} (hbit : bitOf e (22 + c) = true) (hc : c < 16) : coreOfYard core c ∈ windowCores core e :=
  List.mem_map.mpr ⟨c, List.mem_filter.mpr ⟨List.mem_range.mpr hc, hbit⟩, rfl⟩

/-- What is posted for each of several cores, with what the bundle that issues gives. -/
theorem State.foldl_postEv (s : State) (due : Nat) (i : Issue → Nat → Instr) (l : List Nat) :
    bayReads s (l.foldl (fun s c => s.postEv due (i s.iss c)) s)
      ∧ (s.now ≤ due → ∀ c ∈ l, (l.foldl (fun s c => s.postEv due (i s.iss c)) s).hasPosted due (.ev (i s.iss c))) := by
  refine ⟨bayReads.foldl _ (fun s c => bayReads.posts s _ _) _ _, ?_⟩
  induction l generalizing s with
  | nil => exact fun _ _ h => absurd h List.not_mem_nil
  | cons x l ih =>
    intro hdue c hc
    obtain rfl | hc := List.mem_cons.mp hc
    · exact State.posted_foldl_mono _ (fun _ _ he => List.mem_append_left _ he) l _ (State.hasPosted_post hdue _)
    · exact ih (s.postEv due (i s.iss x)) hdue c hc

/-- A store to a window goes to every core of its mask, as the bundle found the window. -/
theorem multicast_sends {s u : State} (h : bayReads s u) (a due : Nat) (bs : List (Option Byte)) :
    bayReads s (u.multicast s.cur a due bs) ∧ (s.now ≤ due → ∀ c, bitOf (s.window s.cur a) (22 + c) = true → c < 16 →
      (u.multicast s.cur a due bs).hasPosted due (.ev (.evMulticastWriteLand (coreOfYard s.cur c) (s.window s.cur a % 2 ^ 22 + a % 2 ^ 16)
        (mcSource s.cur s.me.idx s.me.grp s.iss.bundle) due bs))) := by
  have hwin : u.window s.cur a = s.window s.cur a := by
    obtain ⟨-, hdie, -⟩ := h
    obtain ⟨n, hn⟩ := hdie (dieOf s.cur)
    unfold State.window
    rw [hn]
  have htask : (u.core s.cur).t.idx = s.me.idx ∧ (u.core s.cur).t.grp = s.me.grp := by
    obtain ⟨-, -, -, _, _, _, hown, -⟩ := h
    rw [hown]
    exact ⟨rfl, rfl⟩
  have hiss : u.iss = s.iss := by
    obtain ⟨⟨_, _, _, _, rfl⟩, -⟩ := h
    rfl
  obtain ⟨hreads, hposted⟩ := u.foldl_postEv due (fun iss c => .evMulticastWriteLand c (bits (u.window s.cur a) 0 22 + a % 2 ^ 16)
    (mcSource s.cur (u.core s.cur).t.idx (u.core s.cur).t.grp iss.bundle) due bs) (windowCores s.cur (u.window s.cur a))
  have hbits : bits (s.window s.cur a) 0 22 = s.window s.cur a % 2 ^ 22 := by rw [bits, Nat.pow_zero, Nat.div_one]
  refine ⟨h.trans hreads, fun hdue c hbit hc => ?_⟩
  have hlands : (u.multicast s.cur a due bs).hasPosted due _ :=
    hposted (h.now_eq ▸ hdue) (coreOfYard s.cur c) (hwin ▸ State.mem_windowCores hbit hc)
  rw [hwin, htask.1, htask.2, hiss, hbits] at hlands
  exact hlands

/-- An aligned access of up to eight bytes lies within one word. -/
theorem aligned_within_word (wid : BitVec 2) {a : Nat} (h : a % 2 ^ wid.toNat = 0) : a % 8 + 2 ^ wid.toNat ≤ 8 := by
  have hwid : wid.toNat = 0 ∨ wid.toNat = 1 ∨ wid.toNat = 2 ∨ wid.toNat = 3 := by have := wid.isLt; omega
  obtain hw | hw | hw | hw := hwid <;> rw [hw] at h ⊢ <;> omega

end Sys2Proof.Machine

open Sys2Proof Sys2Proof.Machine

/-- Settles O20: an aligned store lies in one word, whose check bits decide; a store to a window is posted for each of its cores. -/
theorem scratchpadStore : Obligations.ScratchpadStore := by
  intro s v x y wid n a bs w hread hal hbuf
  have hchan : chanFault s.iss.pre s.now [.s v, .s x, .s y] [] = none :=
    chanFault_scalars (os := [v, x, y]) (ds := []) hread (fun _ h => absurd h List.not_mem_nil)
  have hnext (hin : a < 0x300000 ∨ a < 0x400000 ∧ bitOf w 63 = true) := (exec_stsp s v x y wid).trans (bayOpF_next _ _ 1 hchan
    ((padFault_cases s a n true).2.2.2 hal (fun ⟨hge, hno⟩ => hin.elim (fun h => absurd h (Nat.not_lt.mpr hge)) (fun h => hno ⟨rfl, h⟩)) hbuf))
  have hreads := bayReads.bay s [.s v, .s x, .s y] 1
  have herrs := keepsErrs.bay s [.s v, .s x, .s y] 1
  have hlen : bs.length = n := toBytes_length _ _
  have hpos : 0 < n := Nat.two_pow_pos _
  have hne : bs ≠ [] := List.ne_nil_of_length_pos (hlen ▸ hpos)
  have hfits : a % 8 + bs.length ≤ 8 := hlen ▸ aligned_within_word wid hal
  have hpoison : (popAll (s.readSlots [.s v, .s x, .s y] 1) [.s v, .s x, .s y]).padPoison = s.padPoison := by
    obtain ⟨⟨_, _, _, _, h⟩, -⟩ := hreads
    rw [h]
  refine ⟨fun hin hok => ?clean, fun hin h8 hbad => ?poisoned, fun hge hlt hbit => ?window⟩
  case clean =>
    have hstore := hnext (.inl hin)
    rw [if_pos hin] at hstore
    obtain ⟨hmem, e, hregs, htask, hrest⟩ := storePad_clean hreads hfits hne (hok.imp hlen.trans fun ⟨hp, herr⟩ =>
      ⟨hpoison ▸ hp, Nat.not_le.mp fun h => absurd ((herrs _).mp h) (Nat.not_le.mpr herr)⟩)
    refine ⟨_, e, hstore, hmem, fun m hm => ?_, hregs, htask, hrest⟩
    exact (congrArg (·.read m) hmem).trans (Memory.read_writeN_out _ _ _ _ (by rw [hlen]; exact hm))
  case poisoned =>
    have hstore := hnext (.inl hin)
    rw [if_pos hin] at hstore
    obtain ⟨u, r, e, hnote, hcode, hmem, hpp, hframe⟩ := storePad_poisoned hreads hfits hne (hlen ▸ h8)
      (hbad.imp (fun h => hpoison ▸ h) (fun h => (herrs _).mpr h))
    exact ⟨u, r, e, hstore.trans (congrArg _ hnote), hcode, hmem, hpp, hframe⟩
  case window =>
    have hstore := hnext (.inr ⟨hlt, hbit⟩)
    rw [if_neg (Nat.not_lt.mpr hge), hreads.cur_eq, hreads.now_eq] at hstore
    obtain ⟨hframe, hposted⟩ := multicast_sends hreads a (s.now + 6) (bs.map some)
    exact ⟨_, hstore, hframe.quiet, hposted (Nat.le_add_right _ _)⟩

end

section
/-!
PROOF. Spills (R106, R107, R349): the words of a lease in the lender's pool and on the fallback area, and what an access waits for while they
are on their way.
-/

namespace Sys2Proof.Machine

/-! ### The lender's pool -/

/-- The pool of a core beside a bay's reads. -/
theorem bayReads.pool_eq {s t : State} (h : bayReads s t) (n : Nat) : (t.core n).c.pool = (s.core n).c.pool := by
  obtain ⟨-, -, hne, _, _, _, hown, -⟩ := h
  by_cases hn : n = s.cur
  · rw [hn, hown]
  · rw [hne n hn]

theorem bayReads.onPool {s t : State} (h : bayReads s t) (n : Nat) (p : NMap Word) :
    bayReads (s.onCtxSt n (fun c => { c with pool := p })) (t.onCtxSt n (fun c => { c with pool := p })) :=
  h.onCore n (f := fun c => { c with c := { c.c with pool := p } }) (fun _ _ _ _ => rfl) (fun _ => rfl)

/-- A pool that is given what it holds is as it was. -/
theorem bayReads.samePool {s t : State} (h : bayReads s t) (n : Nat) :
    bayReads (s.onCtxSt n (fun c => { c with pool := (s.core n).c.pool })) t := by
  have hsame (m : Nat) : (s.onCtxSt n (fun c => { c with pool := (s.core n).c.pool })).core m = s.core m := by
    by_cases hm : m = n
    · rw [hm, State.core_onCtxSt_self]
    · exact State.core_onCtxSt_ne _ _ _ _ hm
  obtain ⟨⟨_, _, _, _, rfl⟩, hdie, hne, la, da, q, hown, hhead⟩ := h
  refine ⟨⟨_, _, _, _, rfl⟩, hdie, fun m hm => (hne m hm).trans (hsame m).symm, la, da, q, ?_, fun k => ?_⟩
  · exact hown.trans (by rw [show (s.onCtxSt n _).cur = s.cur from rfl, hsame])
  · rw [show (s.onCtxSt n _).cur = s.cur from rfl, hsame]
    exact hhead k

/-- A word of the pool is written beside a bay's reads. -/
theorem State.setPool_eq (s : State) (core : Nat) (l : Lease) (i : Nat) (v : Word) :
    s.setPool core l i v = s.onCtxSt (coreOfYard core l.core) (fun c =>
      { c with pool := NMap.put 0 (s.core (coreOfYard core l.core)).c.pool (l.poolBase + i) v }) := rfl

theorem NMap.get_put (m : NMap Word) (k j : Nat) (v : Word) : NMap.get 0 (NMap.put 0 m k v) j = if j = k then v else NMap.get 0 m j := by
  split
  · next h => rw [h, NMap.get_put_self]
  · next h => exact NMap.get_put_ne _ _ _ _ _ h

/-! ### The instructions -/

/-- What a spill store of a revoked lease does to the pool while the words are on their way. -/
def State.passPool (s : State) (l : Lease) (i : Nat) (v : Word) : State := if s.now < l.readyFrom then s.setPool s.cur l i v else s

theorem exec_spst (s : State) (v x : Opd) (e : BitVec 2) :
    exec (.spst v x e) s = bayOpF s [.s v, .s x] [] (leaseFault s e.toNat (rdS s x)) (fun t =>
      if (leaseNow s e).rev then
        (t.passPool (leaseNow s e) (rdS s x).toNat (rdS s v)).storePad ((leaseNow s e).fb + 8 * (rdS s x).toNat) (toBytes 8 (rdS s v).toNat)
      else t.setPool t.cur (leaseNow s e) (rdS s x).toNat (rdS s v)) := rfl

/-- What it leaves: the reads of a bay over a state whose lender's pool holds the word, or holds what it held. -/
theorem bayReads.passPool {s u : State} (h : bayReads s u) (l : Lease) (i : Nat) (v : Word) :
    ∃ p, bayReads (s.onCtxSt (coreOfYard s.cur l.core) (fun c => { c with pool := p })) (u.passPool l i v)
      ∧ ∀ j, NMap.get 0 p j = if s.now < l.readyFrom ∧ j = l.poolBase + i then v
          else NMap.get 0 (s.core (coreOfYard s.cur l.core)).c.pool j := by
  unfold State.passPool
  rw [h.now_eq]
  split
  · next hnow =>
    rw [State.setPool_eq, h.cur_eq, h.pool_eq]
    refine ⟨_, h.onPool _ _, fun j => ?_⟩
    simp only [hnow, true_and]
    exact NMap.get_put _ _ _ _
  · next hnow =>
    refine ⟨_, h.samePool _, fun j => ?_⟩
    rw [if_neg (fun hj => hnow hj.1)]

/-- A lease that one more request waits for. -/
def Lease.waitsFor (l : Lease) (w : Nat × Dest × Word × Nat) : Lease := { l with waits := l.waits ++ [w] }

theorem State.addLeaseWait_core (s : State) (n e : Nat) (w : Nat × Dest × Word × Nat) :
    (s.addLeaseWait n e w).core n
      = { s.core n with c := { (s.core n).c with lease := NMap.set (s.core n).c.lease e ((s.leaseOf n e).waitsFor w) } } :=
  State.core_onCtxSt_self s n (fun c => { c with lease := NMap.set c.lease e ((NMap.get {} c.lease e : Lease).waitsFor w) })

/-- A request that waits for the write of a fallback area. -/
theorem addLeaseWait_waits {s v : State} (h : sendsOff s v) (e : Nat) (w : Nat × Dest × Word × Nat) :
    keepsStore s (v.addLeaseWait s.cur e w) s.cur ∧ (v.addLeaseWait s.cur e w).me = v.me
      ∧ ((v.addLeaseWait s.cur e w).leaseOf s.cur e).waits = (s.leaseOf s.cur e).waits ++ [w] := by
  have hcore := v.addLeaseWait_core s.cur e w
  have hcur : (v.addLeaseWait s.cur e w).cur = s.cur := h.cur_eq
  have hlease : v.leaseOf s.cur e = s.leaseOf s.cur e := by
    obtain ⟨-, -, _, _, _, hv, -⟩ := h
    rw [State.leaseOf, hv]
    rfl
  refine ⟨?_, ?_, ?_⟩
  · obtain ⟨⟨_, _, _, _, _, rfl⟩, hne, -⟩ := h
    exact ⟨⟨_, _, _, _, _, rfl⟩, fun n hn => (State.core_onCtxSt_ne _ _ _ _ hn).trans (hne n hn), fun _ => rfl⟩
  · rw [State.me, hcur, hcore, State.me, h.cur_eq]
  · rw [State.leaseOf, hcore, NMap.get_set_self, hlease]
    rfl

theorem keepsRegs_of_me {s t u : State} {ks : List Nat} (h : keepsRegs s t ks) (hme : u.me = t.me) : keepsRegs s u ks := by
  unfold keepsRegs
  rwa [hme]

/-- A read takes its number, and its destination waits. -/
def State.askAwaits (s : State) (d : Opd) : Dest × State := (s.takeReqId s.cur).2.awaitDest s.cur s.here.nextReq d

/-- A read that is taken while the fallback area is written takes its place in the lease. -/
def State.awaitsLease (s : State) (d : Opd) (e : Nat) (x : Word) (c : Nat) : State :=
  (s.askAwaits d).2.addLeaseWait (s.askAwaits d).2.cur e (s.here.nextReq, (s.askAwaits d).1, x, c)

theorem awaitsLease_waits (s : State) (d : Opd) (e : Nat) (x : Word) (c : Nat) :
    keepsRegs s (s.awaitsLease d e x c) [] ∧ keepsStore s (s.awaitsLease d e x c) s.cur
      ∧ (∀ k ∈ RegKey.yb :: (sKey d).toList, NMap.find (s.awaitsLease d e x c).me.wait k = some s.here.nextReq)
      ∧ ((s.awaitsLease d e x c).leaseOf s.cur e).waits = (s.leaseOf s.cur e).waits ++ [(s.here.nextReq, (s.askAwaits d).1, x, c)] := by
  obtain ⟨hoff, -, hwait, -⟩ := awaitDest_waits (s.takeReqId s.cur).2 s.here.nextReq d
  have hall : sendsOff s (s.askAwaits d).2 := (sendsOff.takeReqId s).trans hoff
  obtain ⟨hstore, hme, hwaits⟩ := addLeaseWait_waits hall e (s.here.nextReq, (s.askAwaits d).1, x, c)
  unfold State.awaitsLease
  rw [hall.cur_eq]
  exact ⟨keepsRegs_of_me hall.keepsRegs hme, hstore, fun k hk => hme ▸ hwait k hk, hwaits⟩

theorem exec_spld_waits {s : State} {d x : Opd} {e : BitVec 2} (hchan : chanFault s.iss.pre s.now [.s x] [.s d] = none)
    (hok : leaseFault s e.toNat (rdS s x) = none) (hrev : (leaseNow s e).rev = true) (hnow : s.now < (leaseNow s e).readyFrom) :
    ∃ u, bayReads s u
      ∧ exec (.spld d x e) s = .next (u.awaitsLease d e.toNat (s.poolWord s.cur (leaseNow s e) (rdS s x).toNat) (s.now + 3)) := by
  refine ⟨_, bayReads.bay s _ _, (exec_spld s d x e).trans ((bayOpF_next _ _ _ hchan hok).trans (congrArg _ (if_pos ?_)))⟩
  rw [hrev, decide_eq_true hnow]
  rfl

/-- What follows a bay's reads keeps what it keeps after them. -/
theorem bayReads.keepsRegs_trans {s u t : State} {ks : List Nat} (h : bayReads s u) (k : keepsRegs u t ks) : keepsRegs s t ks := by
  obtain ⟨la, da, hme⟩ := h.me_eq
  unfold keepsRegs at k ⊢
  rw [hme] at k
  exact k

theorem bayReads.keepsStore_trans {s u t : State} (h : bayReads s u) (k : keepsStore u t u.cur) : keepsStore s t s.cur := by
  obtain ⟨⟨_, _, _, _, rfl⟩, -, hne, -⟩ := h
  obtain ⟨⟨_, _, _, _, _, rfl⟩, kne, kmem⟩ := k
  exact ⟨⟨_, _, _, _, _, rfl⟩, fun n hn => (kne n hn).trans (hne n hn), kmem⟩

theorem bayReads.nextReq_lease {s u : State} (h : bayReads s u) (e : Nat) :
    u.here.nextReq = s.here.nextReq ∧ u.leaseOf s.cur e = s.leaseOf s.cur e := by
  have hcur := h.cur_eq
  obtain ⟨-, -, -, _, _, _, hown, -⟩ := h
  unfold State.here State.leaseOf
  rw [hcur, hown]
  exact ⟨rfl, rfl⟩

end Sys2Proof.Machine

open Sys2Proof Sys2Proof.Machine

/-- Settles O22: a word goes to the pool, to the fallback, or to both; a read waits while it is on its way; the index rules come first. -/
theorem spill : Obligations.Spill := by
  intro s d v x e l i lender hv hx
  have hchan : chanFault s.iss.pre s.now [.s v, .s x] [] = none :=
    chanFault_scalars (os := [v, x]) (ds := []) (List.forall_mem_cons.mpr ⟨hv, List.forall_mem_singleton.mpr hx⟩) (fun _ h => absurd h List.not_mem_nil)
  have hchan' (hd : s.canWrite d) : chanFault s.iss.pre s.now [.s x] [.s d] = none :=
    chanFault_scalars (os := [x]) (ds := [d]) (List.forall_mem_singleton.mpr hx) (List.forall_mem_singleton.mpr hd)
  obtain ⟨hnone, hfault⟩ := leaseFault_cases s e (rdS s x)
  have hreads := bayReads.bay s [.s v, .s x] 1
  refine ⟨fun hlive hi hrev => ?pool, fun hlive hi hrev hal => ?fallback, fun hlive hi hrev hnow hd => ?waits, fun hno => ?fault⟩
  case pool =>
    have hstore := (exec_spst s v x e).trans (bayOpF_next _ _ 1 hchan (hnone hlive hi))
    rw [show (leaseNow s e).rev = false from hrev, if_neg Bool.false_ne_true, State.setPool_eq, hreads.cur_eq, hreads.pool_eq] at hstore
    refine ⟨_, hstore, fun j => ?_, _, (hreads.onPool lender _).quiet⟩
    rw [State.core_onCtxSt_self]
    exact NMap.get_put _ _ _ _
  case fallback =>
    have hstore := (exec_spst s v x e).trans (bayOpF_next _ _ 1 hchan (hnone hlive hi))
    rw [show (leaseNow s e).rev = true from hrev, if_pos rfl] at hstore
    obtain ⟨p, hpool, hp⟩ := hreads.passPool l i (rdS s v)
    have hlen : (toBytes 8 (rdS s v).toNat).length = 8 := toBytes_length _ _
    obtain ⟨hmem, b, hframe⟩ := storePad_clean hpool (a := l.fb + 8 * i) (by rw [hal, hlen]) (List.ne_nil_of_length_pos (by rw [hlen]; decide))
      (.inl hlen)
    exact ⟨_, p, b, hstore, hmem, hp, hframe⟩
  case waits =>
    obtain ⟨u, hu, hload⟩ := exec_spld_waits (hchan' hd) (hnone hlive hi) hrev hnow
    obtain ⟨hregs, hstore, hwait, hwaits⟩ := awaitsLease_waits u d e.toNat (s.poolWord s.cur l i) (s.now + 3)
    obtain ⟨hreq, hlease⟩ := hu.nextReq_lease e.toNat
    rw [hreq, hu.cur_eq, hlease] at hwaits
    rw [hreq] at hwait
    exact ⟨_, _, hload, hu.keepsRegs_trans hregs, hu.keepsStore_trans hstore, hwait, hwaits⟩
  case fault =>
    exact ⟨(exec_spst s v x e).trans (bayOpF_takes hchan (hfault hno)), fun hd => (exec_spld s d x e).trans (bayOpF_takes (hchan' hd) (hfault hno))⟩

end

section
/-!
PROOF. A multicast write where a bay of the receiver has just stored (R148, R225).
-/

namespace Sys2Proof.Machine

/-- Core 0 has stored a byte of its scratchpad in this cycle, and notes it for the agents that see a bay's stores later. -/
def bayHasStored : State :=
  { cores := [(0, { recent := [{ cyc := 0, at_ := 0, vst := false, addr := 0, bytes := [some (0, 1)] }] })] }

/-- A multicast write of the word with that byte that falls due in the same cycle. -/
def landsOnStore : Instr := .evMulticastWriteLand 0 0 0 0 (List.replicate 8 (some 2))

/-- What lands takes the byte out of the note (R148). -/
theorem exec_landsOnStore_recent {t : State} (h : exec landsOnStore bayHasStored = .next t) :
    (t.core 0).recent = [{ cyc := 0, at_ := 0, vst := false, addr := 0, bytes := [none] }] := by
  obtain rfl := Host.Outcome.next.inj h
  rfl

end Sys2Proof.Machine

open Sys2Proof Sys2Proof.Machine

/-- Refutes O43: a multicast write changes more of the receiver's core than the banks taken in the cycle. Where a bay has stored of late, its
note of that store changes too: core 0 has stored the byte at address 0 in cycle 0, eight bytes land there in the same cycle, and the note, which
covered the byte, covers it no more. -/
theorem not_portEvents : ¬ Obligations.PortEvents := by
  intro h
  obtain ⟨t, ht, -, -, -, -, mt, hcore⟩ := (h.2 bayHasStored 0 0 0 0 (List.replicate 8 (some 2)) rfl (.inl rfl)).1 rfl
    (fun e he => absurd he List.not_mem_nil) (by decide) (by decide)
  have hkept : (t.core 0).recent = (bayHasStored.core 0).recent := by rw [hcore]
  have hnote := exec_landsOnStore_recent ht
  rw [hkept] at hnote
  exact absurd hnote (by decide)

end

section
/-!
PROOF. A register that waits for a spilled word and is the token of the `LFREE` that gives the lease back (R71, R107, R187, R350).
-/

namespace Sys2Proof.Machine

/-- The header of a command with register 9 as its token, which neither waits nor signals. -/
def tokenNine : CmdHdr := { we := false, wsem := 0, wthr := 0, wc := false, ssem := 0, sinc := 0, tv := true, tok := 9 }

/-- An `LFREE` of entry 1. -/
def freesEntry : Cmd := { ins := .lfree tokenNine 1, tok := some 9, serial := 4 }

/-- Core 0 in cycle 9: a live lease at entry 1 for which one `SPLD` waits, request 7, to register 9, of a word that is zero; and the `LFREE` at the
head of the lease port. Its task has register 9 both as the token of the `LFREE` and as one that waits for request 7. -/
def freeWithWait : State :=
  { now := 9, ctxs := [(0, { st := .active, yards := 1 })], cores := [(0, {
      ctx := some 0, t := { mode := .running, tokOwner := [(9, .cmd 4)], wait := [(9, 7)] },
      c := { lease := [(1, { live := true, waits := [(7, .reg 9, 0, 0)] })], cmdq := [(8, [freesEntry])] } })] }

theorem headReady_freeWithWait : headReady freeWithWait 0 8 freesEntry [] := by
  have hwaiters : (freeWithWait.core 0).c.waiters = [] := rfl
  have hqueue (q : Nat) : freeWithWait.queue 0 q = {} := rfl
  refine ⟨by decide, rfl, rfl, by decide, by decide, rfl, by decide, by simp, by simp [hwaiters], List.nodup_nil, fun q x h => ?_⟩
  rw [hqueue] at h
  cases h

theorem tokenWaits_freeWithWait : tokenWaits freeWithWait 0 freesEntry 9 := by
  unfold tokenWaits
  decide

/-- The word takes the register away from the `LFREE`, whose status is then not written. -/
theorem exec_freeWithWait_token {t : State} (h : exec (.evCommandHead 0 8) freeWithWait = .next t) : (t.core 0).t.scalar 9 = 0 := by
  obtain rfl := Host.Outcome.next.inj h
  decide

end Sys2Proof.Machine

open Sys2Proof Sys2Proof.Machine

/-- Refutes O52: the token of an `LFREE` need not hold its status. The `LFREE` first gives the words that wait for the write of the fallback area to
their registers; where one of these is its own token register, that takes the register away (R187), and it keeps the word, here zero. The statement
is about every state. No step of the model makes one like this, with a register that waits for data and is a token too: either ends the other
(`TaskSt.setWait`, `TaskSt.setToken`). -/
theorem not_leaseEvents : ¬ Obligations.LeaseEvents := by
  intro h
  obtain ⟨hhead, -⟩ := h freeWithWait 0 8 freesEntry [] tokenNine 1 0
  obtain ⟨-, hfree, -⟩ := hhead headReady_freeWithWait
  obtain ⟨t, ht, ⟨-, htoken, -⟩, -⟩ := (hfree rfl).2 rfl
  obtain ⟨hstatus, -⟩ := htoken 9 tokenWaits_freeWithWait
  rw [exec_freeWithWait_token ht] at hstatus
  exact absurd hstatus (by decide)

end
